-- ==== Sys2Proof/Word.lean ====
section
/-! DEFINITION. Bit words and the plainest arithmetic on them (00 R2, R5). -/

namespace Sys2Proof

/-- A byte. -/
abbrev Byte := BitVec 8
/-- A code word: 32 bits (R18). -/
abbrev Word32 := BitVec 32
/-- A 64-bit value: a register entry, an address, a stamp (R191). -/
abbrev Word64 := BitVec 64
/-- A 256-byte line held as one little-endian number (R2, R77). -/
abbrev LineData := BitVec 2048

end Sys2Proof
end

