-- ==== Sys2Proof/Config.lean ====
section
/-! DEFINITION. What one implementation fixes, and the free values: constants with no body, of which nothing
can be proved (DESIGN CHOICE, log entry 2). -/

namespace Sys2Proof.Config

/-- Whether a read of an entry or predicate before its fixed-latency result is due, with sck 0, returns the new result, and not what
the entry held before (R40): "Which of the two it returns is not promised". Entry 3. -/
opaque earlyNew : Nat → Bool

/-- Whether the second issue of a word whose first met a mismatch meets none, or the second fill of an entry (R207). Entry 90. -/
opaque retryMatches : Nat → Bool

/-- A number that the spec leaves open: the value of a far atomic whose write is lost (entry 16), the start time of a stop packet
without a start (entry 22). -/
opaque openValue : Nat → Word64

/-- A byte read at another fabric device's memory (R147), whose contents this device does not hold. Entry 13. -/
opaque remoteByte : Nat → Byte

/-- The value another fabric device's atomic or sigin returns (R147, R158, R162). Entry 13. -/
opaque remoteWord : Nat → Word64

/-- Whether another fabric device refuses the page of an access (R147), and whether a snapshot's stamp lies below that
device's low-water stamp at its first read there (R105). Entry 13. -/
opaque farRefuses : Nat → Bool
/-- The second of the two. Entry 13. -/
opaque farStale : Nat → Bool
/-- Whether another fabric device's page of a transactional store is not versioned (R103), and why its home slice dooms the transaction
there, 0 where it does not (R101). Entry 13. -/
opaque farUnversioned : Nat → Bool
/-- The second of the two. Entry 13. -/
opaque farDoom : Nat → Nat
/-- The newest stamp of another device's lines that a publication locks (R95). Entry 27. -/
opaque farNewest : Nat → Nat

/-- How many errors of one kind SECDED has corrected since its count was last read (R130, R365, R399). Entry 122. -/
opaque corrected : Nat → Nat
/-- The temperature bin of a die in a powered hour (R399). Entry 103. -/
opaque heat : Nat → Nat

/-- fexp2 or flog2 where 4,096 bits of working precision do not decide the rounding (R228): of the operation,
the operand's sign, numerator and denominator. Entry 17. -/
opaque transcendental : Nat → Bool → Nat → Nat → Nat

/-- Contents of a code window part before its first lcload (R313). Entry 6. -/
opaque windowByte : Nat → Byte

/-- Which of several places or orders that the spec does not promise is taken: an index (R237, R287). Entry 21. -/
opaque choice : Nat → Nat

end Sys2Proof.Config
end

