-- ==== Sys2Proof/Syntax.lean ====
section
/-! DEFINITION. The instruction words of the seven classes (02 R25-R42) and the device events of the
opcode table, as one inductive type `Instr`; the operand forms of R32, R34 and R36. -/

namespace Sys2Proof

/-- A named register k0-k31 (R6). -/
abbrev KReg := Fin 32
/-- A predicate p0-p7 (R6). -/
abbrev PReg := Fin 8
/-- A record tb0-tb255 (R6). -/
abbrev Rec := Fin 256

/-- A source code of R32; `lit` carries the extension word of code 56 (R35). -/
inductive Src where
  | q (age : Fin 16)
  | k (r : KReg)
  | zero | lane | tig | grp | team | fuel | tlo | cyc
  | lit (v : BitVec 32)
  | g (i : Fin 7)
  deriving DecidableEq, Repr

/-- A destination code of R34; `none` is code 48, result discarded. -/
inductive Dst where
  | q
  | k (r : KReg)
  | none
  deriving DecidableEq, Repr

/-- The S field: 0, 1, 2 or 4 idle beats (R39). -/
inductive Stall where
  | s0 | s1 | s2 | s4
  deriving DecidableEq, Repr

/-- The W field: width of named operands (R36). -/
inductive Width where
  | w1 | w2 | w4 | w8
  deriving DecidableEq, Repr

/-- The H field: cache hint (R28, R137). -/
inductive Hint where
  | normal | evictFirst | evictLast | noAllocate
  deriving DecidableEq, Repr

/-- The rounding suffix (R4, R45). -/
inductive Rnd where
  | rn | rd | ru | rz
  deriving DecidableEq, Repr

/-- Branch conditions, the values of gcond (R19, R29). -/
inductive Cond where
  | always | t | f | u
  deriving DecidableEq, Repr

/-- S and G of an R word (R25, R37): `ng` is G = 01, run regardless of the guard. -/
structure RCtl where
  s : Stall
  ng : Bool
  deriving DecidableEq, Repr

/-- A core bank's mode (R131). -/
inductive BankMode where
  | cache | scratchpad | fifo
  deriving DecidableEq, Repr

/-- sbar.enrol's modes (R307). -/
inductive SbarMode where
  | enrolSet (h : BitVec 7)
  | leave
  | keep
  deriving DecidableEq, Repr

/-- drain's destinations (R185). -/
inductive DrainSet where
  | main | scratch | slab | host | fabric | all
  deriving DecidableEq, Repr

/-- N of an N-of-64 sparse form (R242). -/
inductive Sparse where
  | n8 | n16 | n32
  deriving DecidableEq, Repr

/-- The transfer control of xform (R178). -/
structure XCtl where
  rnd : Rnd
  cv : Bool
  sc : Bool
  sv : Bool
  tr : Bool
  sp : Option Sparse
  pk : Bool
  deriving DecidableEq, Repr

/-- The two memory tiers (R69). -/
inductive Tier where
  | near | far
  deriving DecidableEq, Repr

/-- P-states of a die (R12). -/
inductive PState where
  | p0 | p1 | p2 | p3
  deriving DecidableEq, Repr

/-- Targets of a die power command (R394). -/
inductive DiePower where
  | run (p : PState)
  | gate
  deriving DecidableEq, Repr

/-- Command 0x01's operands (R391): table root, fabric peers, windows, observation grant. -/
structure BindArg where
  root : BitVec 64
  peers : List (BitVec 8 × Nat)
  windows : List (Nat × Nat)
  observe : Bool
  launchRecord : Nat
  deriving DecidableEq, Repr

/-- Command 0x06's operands (R391): the region carved. -/
inductive CarveArg where
  | versionStore (die base slots window : Nat)
  | metadata (die : Nat) (tier : Tier) (base : Nat)
  | replicaPool (die base frames : Nat)
  | savePool (die bytes : Nat)
  | faultQuay (ctx base slots : Nat)
  | hostErrorRing (die slots : Nat)
  deriving DecidableEq, Repr

/-- Command 0x07's operands (R338, R341, R347). -/
inductive QuayArg where
  | quay (die : Nat) (q : Fin 64) (en fifo steer : Bool) (size stage hi lo base : Nat)
  | weights (die we wf : Nat)
  | stage (die berth stage : Nat)
  | floor (die stage berths : Nat)
  | berthMode (die : Nat) (slicePair : Bool)
  deriving DecidableEq, Repr

/-- Command 0x0B's operands for organisation, event sources and auto (R379, R383, R384). -/
inductive CounterArg where
  | organisation (die : Nat) (contextBanked : Bool)
  | sources (die : Nat) (s0 s1 s2 s3 : BitVec 8)
  | auto (ctx : Nat) (on : Bool)
  deriving DecidableEq, Repr

/-- Where an uncorrectable data error stands (R365). -/
inductive DataPlace where
  | line (pa : Nat)
  | l1Sector (core vline sector : Nat)
  | scratchWord (core addr : Nat)
  deriving DecidableEq, Repr

/-- Names a host command: the function in whose ring it stands, 0 the physical one (R388, R389), and its tag (R391). -/
structure Ticket where
  fn : Fin 16
  tag : BitVec 32
  deriving DecidableEq, Repr

/-- Where a host's access goes (R389): an offset in a function's control window, or a device physical address through the memory
window. -/
inductive HostAt where
  | control (fn : Fin 16) (off : Nat)
  | memory (pa : Nat)
  deriving DecidableEq, Repr

/-- A flit that failed on a link; `again`: one that has been resent already (R392). -/
structure FlitFail where
  link : Nat
  again : Bool
  deriving DecidableEq, Repr

/-- A link that has trained, and the device it joins this one to (R392). -/
structure Trained where
  link : Nat
  peer : Nat
  deriving DecidableEq, Repr

/-- An access that arrives from another fabric device (R147), already translated to a line here; `snap` names the snapshot that it
reads under, and `closes` says that this has closed (R105). -/
structure RemoteArg where
  write : Bool
  pa : Nat
  data : List (BitVec 8)
  len : Nat
  stamp : Option Nat
  snap : Nat
  closes : Bool
  deriving DecidableEq, Repr

/-- One constructor per row of the opcode table: 192 instruction words, then 85 device events:
those that the machine comes to by itself, and those that come from outside or as errors. -/
inductive Instr where
  /-- R218: Integer add modulo 2^w. -/
  | iadd (c : RCtl) (d : Dst) (a b : Src)
  /-- R218: Integer subtract modulo 2^w. -/
  | isub (c : RCtl) (d : Dst) (a b : Src)
  /-- R218: Integer multiply, low w bits. -/
  | imul (c : RCtl) (d : Dst) (a b : Src)
  /-- R218: High w bits of the signed 2w-bit product. -/
  | imulhi (c : RCtl) (d : Dst) (a b : Src)
  /-- R218: High w bits of the unsigned 2w-bit product. -/
  | imulhiUn (c : RCtl) (d : Dst) (a b : Src)
  /-- R219: Signed integer division truncating toward zero; faults 0x40 on a zero divisor. -/
  | idiv (c : RCtl) (d : Dst) (a b : Src)
  /-- R219: Unsigned integer division. -/
  | idivUn (c : RCtl) (d : Dst) (a b : Src)
  /-- R219: Signed integer remainder with the sign of a. -/
  | irem (c : RCtl) (d : Dst) (a b : Src)
  /-- R219: Unsigned integer remainder. -/
  | iremUn (c : RCtl) (d : Dst) (a b : Src)
  /-- R218: Signed minimum. -/
  | imin (c : RCtl) (d : Dst) (a b : Src)
  /-- R218: Unsigned minimum. -/
  | iminUn (c : RCtl) (d : Dst) (a b : Src)
  /-- R218: Signed maximum. -/
  | imax (c : RCtl) (d : Dst) (a b : Src)
  /-- R218: Unsigned maximum. -/
  | imaxUn (c : RCtl) (d : Dst) (a b : Src)
  /-- R218: Integer absolute value modulo 2^w. -/
  | iabs (c : RCtl) (d : Dst) (a : Src)
  /-- R218: Integer negation modulo 2^w. -/
  | ineg (c : RCtl) (d : Dst) (a : Src)
  /-- R218: Bitwise AND, F kinds read as bits. -/
  | andB (c : RCtl) (d : Dst) (a b : Src)
  /-- R218: Bitwise OR. -/
  | orB (c : RCtl) (d : Dst) (a b : Src)
  /-- R218: Bitwise XOR. -/
  | xorB (c : RCtl) (d : Dst) (a b : Src)
  /-- R218: Bitwise complement. -/
  | notB (c : RCtl) (d : Dst) (a : Src)
  /-- R220: Logical left shift by a register count. -/
  | shl (c : RCtl) (d : Dst) (a b : Src)
  /-- R220: Logical right shift by a register count. -/
  | shr (c : RCtl) (d : Dst) (a b : Src)
  /-- R220: Arithmetic right shift by a register count. -/
  | sar (c : RCtl) (d : Dst) (a b : Src)
  /-- R220: Rotate left by the count mod w. -/
  | rotl (c : RCtl) (d : Dst) (a b : Src)
  /-- R218: Population count. -/
  | popc (c : RCtl) (d : Dst) (a : Src)
  /-- R218: Count leading zeros. -/
  | clz (c : RCtl) (d : Dst) (a : Src)
  /-- R218: Bit reversal. -/
  | brev (c : RCtl) (d : Dst) (a : Src)
  /-- R223: Integer equality compare into a predicate. -/
  | icmpEq (c : RCtl) (p : PReg) (a b : Src)
  /-- R223: Integer inequality compare into a predicate. -/
  | icmpNe (c : RCtl) (p : PReg) (a b : Src)
  /-- R223: Signed less-than compare. -/
  | icmpLt (c : RCtl) (p : PReg) (a b : Src)
  /-- R223: Signed less-or-equal compare. -/
  | icmpLe (c : RCtl) (p : PReg) (a b : Src)
  /-- R223: Unsigned less-than compare. -/
  | icmpLtUn (c : RCtl) (p : PReg) (a b : Src)
  /-- R223: Unsigned less-or-equal compare. -/
  | icmpLeUn (c : RCtl) (p : PReg) (a b : Src)
  /-- R224: Three-valued floating or interval equality compare. -/
  | fcmpEq (c : RCtl) (p : PReg) (a b : Src)
  /-- R224: Three-valued floating or interval inequality compare. -/
  | fcmpNe (c : RCtl) (p : PReg) (a b : Src)
  /-- R224: Three-valued less-than compare. -/
  | fcmpLt (c : RCtl) (p : PReg) (a b : Src)
  /-- R224: Three-valued less-or-equal compare. -/
  | fcmpLe (c : RCtl) (p : PReg) (a b : Src)
  /-- R225: Three-valued predicate AND. -/
  | pand (c : RCtl) (p x y : PReg)
  /-- R225: Three-valued predicate OR. -/
  | por (c : RCtl) (p x y : PReg)
  /-- R225: Three-valued predicate XOR. -/
  | pxor (c : RCtl) (p x y : PReg)
  /-- R225: Three-valued predicate NOT. -/
  | pnot (c : RCtl) (p x : PReg)
  /-- R227: Floating add on points or intervals, rounding direction in the opcode. -/
  | fadd (c : RCtl) (r : Rnd) (d : Dst) (a b : Src)
  /-- R227: Floating subtract on points or intervals. -/
  | fsub (c : RCtl) (r : Rnd) (d : Dst) (a b : Src)
  /-- R227: Floating multiply on points or intervals. -/
  | fmul (c : RCtl) (r : Rnd) (d : Dst) (a b : Src)
  /-- R230: Floating divide on points or intervals. -/
  | fdiv (c : RCtl) (r : Rnd) (d : Dst) (a b : Src)
  /-- R227: Floating square root on points or intervals. -/
  | fsqrt (c : RCtl) (r : Rnd) (d : Dst) (a b : Src)
  /-- R227: Floating reciprocal on points or intervals. -/
  | frcp (c : RCtl) (r : Rnd) (d : Dst) (a b : Src)
  /-- R228: Floating minimum. -/
  | fmin (c : RCtl) (d : Dst) (a b : Src)
  /-- R228: Floating maximum. -/
  | fmax (c : RCtl) (d : Dst) (a b : Src)
  /-- R228: Correctly rounded base-2 exponential. -/
  | fexp2 (c : RCtl) (d : Dst) (a b : Src)
  /-- R228: Correctly rounded base-2 logarithm. -/
  | flog2 (c : RCtl) (d : Dst) (a b : Src)
  /-- R228: Floating absolute value. -/
  | fabs (c : RCtl) (d : Dst) (a b : Src)
  /-- R228: Floating negation. -/
  | fneg (c : RCtl) (d : Dst) (a b : Src)
  /-- R232: Convert between the 32- and 64-bit floating families. -/
  | fcvt (c : RCtl) (r : Rnd) (d : Dst) (a : Src)
  /-- R232: Convert floating to saturated integer. -/
  | ftoi (c : RCtl) (r : Rnd) (d : Dst) (a : Src)
  /-- R232: Convert signed integer to floating. -/
  | itof (c : RCtl) (r : Rnd) (d : Dst) (a : Src)
  /-- R232: Convert unsigned integer to floating. -/
  | itofUn (c : RCtl) (r : Rnd) (d : Dst) (a : Src)
  /-- R233: Form an interval from two points. -/
  | ivmake (c : RCtl) (d : Dst) (a b : Src)
  /-- R233: Extract the lower bound. -/
  | ivlo (c : RCtl) (d : Dst) (a : Src)
  /-- R233: Extract the upper bound. -/
  | ivhi (c : RCtl) (d : Dst) (a : Src)
  /-- R233: Intersection of two intervals. -/
  | ivmeet (c : RCtl) (d : Dst) (a b : Src)
  /-- R233: Hull of two intervals. -/
  | ivjoin (c : RCtl) (d : Dst) (a b : Src)
  /-- R234: Midpoint of an interval. -/
  | ivmid (c : RCtl) (d : Dst) (a : Src)
  /-- R233: Width of an interval, rounded up. -/
  | ivwid (c : RCtl) (d : Dst) (a : Src)
  /-- R235: Split an interval at its midpoint and push a spawn record for the upper half. -/
  | ivsplit (c : RCtl) (d : Dst) (a : Src) (p : PReg)
  /-- R210: Copy entries with value, kind and residue. -/
  | mov (c : RCtl) (w : Width) (d : Dst) (a : Src)
  /-- R210: Make named registers EMPTY. -/
  | regFree (c : RCtl) (w : Width) (a : KReg)
  /-- R203: Group collective changing the named count. -/
  | regGrow (c : RCtl) (a : Src)
  /-- R210: Load a sign-extended 10-bit immediate. -/
  | movi (s : Stall) (d : Dst) (i : BitVec 10)
  /-- R221: Add a sign-extended immediate. -/
  | iaddi (s : Stall) (d : Dst) (a : Src) (i : BitVec 10)
  /-- R221: AND with a sign-extended immediate. -/
  | andi (s : Stall) (d : Dst) (a : Src) (i : BitVec 10)
  /-- R221: OR with a zero-extended immediate. -/
  | ori (s : Stall) (d : Dst) (a : Src) (i : BitVec 10)
  /-- R221: XOR with a zero-extended immediate. -/
  | xori (s : Stall) (d : Dst) (a : Src) (i : BitVec 10)
  /-- R221: Left shift by an immediate count. -/
  | shli (s : Stall) (d : Dst) (a : Src) (n : BitVec 6)
  /-- R221: Logical right shift by an immediate count. -/
  | shri (s : Stall) (d : Dst) (a : Src) (n : BitVec 6)
  /-- R221: Arithmetic right shift by an immediate count. -/
  | sari (s : Stall) (d : Dst) (a : Src) (n : BitVec 6)
  /-- R210: Read a special register as I64. -/
  | getsr (s : Stall) (d : Dst) (i : BitVec 10)
  /-- R227: Fused multiply-add with one rounding, or outward on intervals. -/
  | fma (s : Stall) (r : Rnd) (d : Dst) (a b c : Src)
  /-- R222: Integer multiply-add modulo 2^w. -/
  | imad (s : Stall) (d : Dst) (a b c : Src)
  /-- R222: Bit-field extract. -/
  | bfx (s : Stall) (d : Dst) (a b c : Src)
  /-- R222: Bit-field insert. -/
  | bfi (s : Stall) (d : Dst) (a b c : Src)
  /-- R226: Select by a three-valued predicate, hull on U. -/
  | csel (s : Stall) (d : Dst) (a b : Src) (p : PReg)
  /-- R153: Load a byte, sign-extended. -/
  | ldS8 (h : Hint) (d : Dst) (tb : Rec) (x : Src)
  /-- R153: Load a byte, zero-extended. -/
  | ldZ8 (h : Hint) (d : Dst) (tb : Rec) (x : Src)
  /-- R153: Load a half, sign-extended. -/
  | ldS16 (h : Hint) (d : Dst) (tb : Rec) (x : Src)
  /-- R153: Load a half, zero-extended. -/
  | ldZ16 (h : Hint) (d : Dst) (tb : Rec) (x : Src)
  /-- R153: Load 32-bit entries through a record. -/
  | ld32 (w : Width) (h : Hint) (d : Dst) (tb : Rec) (x : Src)
  /-- R153: Load 64-bit entries through a record. -/
  | ld64 (w : Width) (h : Hint) (d : Dst) (tb : Rec) (x : Src)
  /-- R154: Store a byte. -/
  | st8 (h : Hint) (d : Src) (tb : Rec) (x : Src)
  /-- R154: Store a half. -/
  | st16 (h : Hint) (d : Src) (tb : Rec) (x : Src)
  /-- R154: Store 32-bit entries. -/
  | st32 (w : Width) (h : Hint) (d : Src) (tb : Rec) (x : Src)
  /-- R154: Store 64-bit entries. -/
  | st64 (w : Width) (h : Hint) (d : Src) (tb : Rec) (x : Src)
  /-- R155: Acquire load of 32-bit entries from the home. -/
  | ldAcq32 (w : Width) (h : Hint) (d : Dst) (tb : Rec) (x : Src)
  /-- R155: Acquire load of 64-bit entries. -/
  | ldAcq64 (w : Width) (h : Hint) (d : Dst) (tb : Rec) (x : Src)
  /-- R155: Release store of 32-bit entries after the store count drains. -/
  | stRel32 (w : Width) (h : Hint) (d : Src) (tb : Rec) (x : Src)
  /-- R155: Release store of 64-bit entries. -/
  | stRel64 (w : Width) (h : Hint) (d : Src) (tb : Rec) (x : Src)
  /-- R156: Load an IV32 interval as a single copy. -/
  | ldiv32 (h : Hint) (d : Dst) (tb : Rec) (x : Src)
  /-- R156: Load an IV64 interval into a named pair. -/
  | ldiv64 (h : Hint) (d : Dst) (tb : Rec) (x : Src)
  /-- R157: Store an IV32 interval or point. -/
  | stiv32 (h : Hint) (d : Src) (tb : Rec) (x : Src)
  /-- R157: Store an IV64 interval or point. -/
  | stiv64 (h : Hint) (d : KReg) (tb : Rec) (x : Src)
  /-- R158: Far atomic add returning the old value. -/
  | atomAdd (h : Hint) (d : Src) (tb : Rec) (x : Src)
  /-- R158: Far atomic signed minimum. -/
  | atomMin (h : Hint) (d : Src) (tb : Rec) (x : Src)
  /-- R158: Far atomic unsigned minimum. -/
  | atomMinUn (h : Hint) (d : Src) (tb : Rec) (x : Src)
  /-- R158: Far atomic signed maximum. -/
  | atomMax (h : Hint) (d : Src) (tb : Rec) (x : Src)
  /-- R158: Far atomic unsigned maximum. -/
  | atomMaxUn (h : Hint) (d : Src) (tb : Rec) (x : Src)
  /-- R158: Far atomic AND. -/
  | atomAnd (h : Hint) (d : Src) (tb : Rec) (x : Src)
  /-- R158: Far atomic OR. -/
  | atomOr (h : Hint) (d : Src) (tb : Rec) (x : Src)
  /-- R158: Far atomic XOR. -/
  | atomXor (h : Hint) (d : Src) (tb : Rec) (x : Src)
  /-- R158: Far atomic exchange. -/
  | atomXchg (h : Hint) (d : Src) (tb : Rec) (x : Src)
  /-- R158: Far atomic compare-and-swap from a named pair. -/
  | atomCas (h : Hint) (d : KReg) (tb : Rec) (x : Src)
  /-- R158: Reduction add with no return. -/
  | redAdd (h : Hint) (d : Src) (tb : Rec) (x : Src)
  /-- R158: Reduction signed minimum. -/
  | redMin (h : Hint) (d : Src) (tb : Rec) (x : Src)
  /-- R158: Reduction unsigned minimum. -/
  | redMinUn (h : Hint) (d : Src) (tb : Rec) (x : Src)
  /-- R158: Reduction signed maximum. -/
  | redMax (h : Hint) (d : Src) (tb : Rec) (x : Src)
  /-- R158: Reduction unsigned maximum. -/
  | redMaxUn (h : Hint) (d : Src) (tb : Rec) (x : Src)
  /-- R158: Reduction AND. -/
  | redAnd (h : Hint) (d : Src) (tb : Rec) (x : Src)
  /-- R158: Reduction OR. -/
  | redOr (h : Hint) (d : Src) (tb : Rec) (x : Src)
  /-- R158: Reduction XOR. -/
  | redXor (h : Hint) (d : Src) (tb : Rec) (x : Src)
  /-- R159: Prefetch lines into the home slice and L1; never faults. -/
  | pf (h : Hint) (tb : Rec) (x : Src)
  /-- R160: Push entries onto a FIFO bank. -/
  | qpush (w : Width) (h : Hint) (d : Src) (fq : Fin 32)
  /-- R160: Pop entries from a FIFO bank, waiting for them. -/
  | qpop (w : Width) (h : Hint) (d : Dst) (fq : Fin 32)
  /-- R160: Non-blocking FIFO pop reporting success in a predicate. -/
  | qpopNb (w : Width) (h : Hint) (d : Dst) (fq : Fin 32) (p : PReg)
  /-- R162: Insert a 128-bit signature into a hashed table. -/
  | sigin (h : Hint) (d : KReg) (tb : Rec)
  /-- R163: Read record words into registers. -/
  | recRd (w : Width) (h : Hint) (d : Dst) (tb : Rec) (x : Src)
  /-- R163: Write record words from registers. -/
  | recWr (w : Width) (h : Hint) (d : Src) (tb : Rec) (x : Src)
  /-- R327: Copy a 512-byte candidate slot into the thread's code window part. -/
  | lcload (h : Hint) (d : Dst) (tb : Rec) (x : Src)
  /-- R161: Change a core SRAM bank's mode. -/
  | bankMode (s : Stall) (n : Fin 32) (m : BankMode)
  /-- R284: Wait for loads, then clear tag-0 L1 sectors. -/
  | acq (c : RCtl)
  /-- R284: Wait for store and load counts to reach zero. -/
  | rel (c : RCtl)
  /-- R284: Release wait, then acquire clearing, in the total acqrel order. -/
  | acqrel (c : RCtl)
  /-- R110: Open a snapshot view at the meridian or a requested stamp. -/
  | snapOpen (d : Dst) (x : Src)
  /-- R111: Close the open snapshot. -/
  | snapClose
  /-- R110: Open a transaction with a start stamp. -/
  | txb (d : Dst) (x : Src)
  /-- R112: Commit or report failure of the open transaction. -/
  | txc (p : PReg)
  /-- R113: Abort the open transaction. -/
  | txa (x : Src)
  /-- R114: Report transaction state in a predicate without waiting. -/
  | txchk (p : PReg)
  /-- R115: Publish a record's engine writes at one stamp and swap its shadow base. -/
  | vpub (d : Dst) (tb : Rec)
  /-- R304: Conditional or unconditional relative branch. -/
  | br (p : PReg) (c : Cond) (off : BitVec 19)
  /-- R304: Three-way branch on a predicate's T, F or U. -/
  | br3 (p : PReg) (offT offF offU : BitVec 19)
  /-- R304: Branch that pushes a link when taken. -/
  | call (p : PReg) (c : Cond) (off : BitVec 19)
  /-- R304: Indexed branch through a table of target words. -/
  | brt (c : RCtl) (a : Src) (offs : List (BitVec 19))
  /-- R304: Jump to an address in a register. -/
  | jmp (c : RCtl) (a : Src)
  /-- R304: Return to a link address. -/
  | ret (c : RCtl) (a : Src)
  /-- R304: End the thread after its stores drain. -/
  | exitT (c : RCtl)
  /-- R304: Do nothing. -/
  | nop (c : RCtl)
  /-- R290: File the thread into a PC bin to re-form bundles. -/
  | reform (c : RCtl)
  /-- R307: Join, leave or set the threshold of the group's soft barrier. -/
  | sbarEnrol (s : Stall) (m : SbarMode)
  /-- R295: Arrive and wait at the soft barrier. -/
  | sbarJoin (s : Stall)
  /-- R300: Arrive at a named barrier after the store count drains. -/
  | barArrive (s : Stall) (a : Src) (n : BitVec 7)
  /-- R300: Wait for the named barrier generation to complete. -/
  | barWait (s : Stall) (n : BitVec 7)
  /-- R300: Arrive at a named barrier and wait. -/
  | barSync (s : Stall) (a : Src) (n : BitVec 7)
  /-- R310: Group shuffle by index. -/
  | shflIdx (c : RCtl) (d : Dst) (a b : Src)
  /-- R310: Group shuffle up. -/
  | shflUp (c : RCtl) (d : Dst) (a b : Src)
  /-- R310: Group shuffle down. -/
  | shflDown (c : RCtl) (d : Dst) (a b : Src)
  /-- R310: Group shuffle by XOR of the index. -/
  | shflXor (c : RCtl) (d : Dst) (a b : Src)
  /-- R310: Three-valued all-vote over the group. -/
  | voteAll (c : RCtl) (p x : PReg)
  /-- R310: Three-valued any-vote over the group. -/
  | voteAny (c : RCtl) (p x : PReg)
  /-- R310: Bit mask of participants holding T. -/
  | voteBallot (c : RCtl) (d : Dst) (x : PReg)
  /-- R310: Group add reduction in ascending thread order. -/
  | gredAdd (c : RCtl) (d : Dst) (a : Src)
  /-- R310: Group minimum reduction. -/
  | gredMin (c : RCtl) (d : Dst) (a : Src)
  /-- R310: Group maximum reduction. -/
  | gredMax (c : RCtl) (d : Dst) (a : Src)
  /-- R310: Group AND reduction. -/
  | gredAnd (c : RCtl) (d : Dst) (a : Src)
  /-- R310: Group OR reduction. -/
  | gredOr (c : RCtl) (d : Dst) (a : Src)
  /-- R310: Group XOR reduction. -/
  | gredXor (c : RCtl) (d : Dst) (a : Src)
  /-- R310: Broadcast one participant's value to the group. -/
  | bcast (c : RCtl) (d : Dst) (a b : Src)
  /-- R328: Enter trial mode on the window candidate with fuel and a grant mask. -/
  | tryT (c : RCtl) (d : Dst) (a b : Src)
  /-- R329: End a trial by the candidate's choice. -/
  | tend (c : RCtl)
  /-- R330: Fold a value into the signature registers. -/
  | fold (c : RCtl) (a : Src)
  /-- R331: Charge extra fuel units in trial mode. -/
  | fuel (c : RCtl) (d : Dst) (a : Src)
  /-- R260: Dense scaled matrix multiply-accumulate into a tile's working bank. -/
  | mma (d : Dst) (tile : Fin 16) (tbA tbB : Rec) (fA fB : BitVec 4) (ovw : Bool) (a b c : Src)
  /-- R260: Sparse N-of-64 matrix multiply-accumulate. -/
  | mmaSp (d : Dst) (tile : Fin 16) (tbA tbB : Rec) (fA fB : BitVec 4) (sp : Sparse) (ovw : Bool) (a b c : Src)
  /-- R261: Exchange a tile's working and visible banks once quiescent. -/
  | accSwap (s : Stall) (n : Fin 16)
  /-- R261: Queue a zeroing of a tile's working bank. -/
  | accZero (s : Stall) (n : Fin 16)
  /-- R262: Load a tile's visible bank from memory with conversion. -/
  | accLd (d : Dst) (tile : Fin 16) (tb : Rec) (fM fT : BitVec 4) (a c : Src)
  /-- R262: Store a tile's visible bank to memory as an engine write. -/
  | accSt (d : Dst) (tile : Fin 16) (tb : Rec) (fM fT : BitVec 4) (a c : Src)
  /-- R175: Hand a byte copy between records to the copy engine. -/
  | copy (d : Dst) (tbD tbS : Rec) (a b c : Src)
  /-- R177: Hand a slab column fill to the slab engine. -/
  | slabld (d : Dst) (tbS : Rec) (a b c : Src)
  /-- R180: Hand a convert, scale, transpose or expand transform to the transform engine. -/
  | xform (d : Dst) (tbD tbS : Rec) (t : XCtl) (a b : Src)
  /-- R183: Test a future's completion without waiting. -/
  | futTest (c : RCtl) (d : Dst) (a : Src) (p : PReg)
  /-- R184: Cancel the operation a future names. -/
  | futCancel (c : RCtl) (a : Src)
  /-- R185: Wait for accepted engine operations to a destination class, then acquire. -/
  | drain (s : Stall) (m : DrainSet)
  /-- R352: Read a job card and submit it for acceptance. -/
  | jobPush (d : Dst) (tb : Rec) (x : Src)
  /-- R353: OR a result into the work's result and end the thread. -/
  | jobDone (c : RCtl) (a : Src)
  /-- R353: Park the thread for a slice end after its stores drain. -/
  | yield (c : RCtl)
  /-- R352: Read a launch card and submit it for acceptance. -/
  | launch (d : Dst) (tb : Rec) (x : Src)
  /-- R354: Read a quay's state or configuration word. -/
  | qstat (c : RCtl) (d : Dst) (a b : Src)
  /-- R372: Raise software trap cause 0x10 + n. -/
  | trap (s : Stall) (a : Src) (n : Fin 16)
  /-- R373: Return from the handler, restoring queue and predicates. -/
  | rft (c : RCtl) (d : Dst) (a : Src)
  /-- R374: Post a halt record and stop the thread. -/
  | halt (c : RCtl) (a : Src)
  /-- R375: Write the thread's register image to memory. -/
  | ctxSave (h : Hint) (d : Dst) (tb : Rec) (x : Src)
  /-- R375: Restore the thread's register image from memory and continue there. -/
  | ctxLoad (h : Hint) (tb : Rec) (x : Src)
  /-- R376: Read the full meridian or lane-cycle count. -/
  | time (c : RCtl) (d : Dst) (cyc : Bool)
  /-- R210: Write the RW fields of a special register without behaviour of its own. -/
  | setsr (s : Stall) (a : Src) (i : BitVec 10)
  /-- R20: Start of a clause: guard read and waits tested, holding until counts fall. -/
  | clauseHeader
  /-- R153: Returned load, atomic or pop data is written to its destination and the load count falls. -/
  | loadDataReturn (op : Nat)
  /-- R21: The home acknowledges a write and the store count falls. -/
  | storeAcknowledge (op : Nat)
  /-- R215: An iterative lane operation delivers its interlocked result. -/
  | iterativeResult (t : Nat)
  /-- R79: A page walk finishes, completing attached accesses or posting a page request. -/
  | pageWalkComplete (die : Nat)
  /-- R83: A duplicated page's copy into the replica pool completes. -/
  | replicaCopyComplete (die page : Nat)
  /-- R85: A replica die acknowledges dropping its replica during a write collapse. -/
  | replicaDropAck (die page : Nat)
  /-- R119: A die acknowledges invalidating its L2 copy before a write performs. -/
  | copyInvalidateAck (die line : Nat)
  /-- R120: A core receives a word revocation, clears mask bits and acknowledges. -/
  | wordRevocation (core word : Nat)
  /-- R87: The head side-log entry is replayed once its translation completes. -/
  | sideLogReplay (die core : Nat)
  /-- R132: A bank mode change finishes and the holding bundle resumes. -/
  | bankModeSwitchComplete (die core bank : Nat)
  /-- R112: A commit's locks complete and the commit stamp is taken. -/
  | lockComplete (commit : Nat)
  /-- R96: The meridian reaches c + 3 or c + 51 and locked versions become committed. -/
  | commitComplete (commit : Nat)
  /-- R105: The collector recomputes the low-water stamp. -/
  | collectorRecompute (die : Nat)
  /-- R107: A write waiting for a slot exceeds the window and is lost with cause 0x91. -/
  | versionStoreExhausted (op : Nat)
  /-- R170: An engine accepts an operation into a future slot. -/
  | engineAccept (die core eng : Nat)
  /-- R170: An engine starts an accepted operation. -/
  | engineStart (die core eng : Nat)
  /-- R172: An engine operation ends, setting its status and releasing waiting reads. -/
  | engineComplete (die core eng slot : Nat)
  /-- R252: The array accepts a class-3 operation into its ring. -/
  | arrayAccept (die core : Nat)
  /-- R253: An mma at the head of the array starts fetching. -/
  | mmaStart (die core : Nat)
  /-- R248: A K chunk completes and is promoted into the accumulators. -/
  | chunkPromotion (die core : Nat) (bad : Bool)
  /-- R261: Once the tile is quiescent, its banks are exchanged and the group released. -/
  | accBankExchange (die core tile : Nat)
  /-- R262: An acc.ld or acc.st finishes moving its rows. -/
  | accMoveComplete (die core slot : Nat)
  /-- R237: A spawn record is popped and its child placed when a lane has room. -/
  | spawnStart (die core team : Nat)
  /-- R291: A bin whose oldest occupant waited 64 lane cycles is released. -/
  | binTimeout (bin : Nat)
  /-- R295: The soft barrier's oldest arrival waited 1,024 lane cycles and it releases. -/
  | softBarrierTimeout (group : Nat)
  /-- R203: A held reg.grow request is granted once its lanes have room. -/
  | regGrowGrant (die core : Nat)
  /-- R204: With all groups held at reg.grow, the most recently held group is spilled. -/
  | allBlockedSpill (die core : Nat)
  /-- R202: A group's spill to its backing regions completes and its commitment is released. -/
  | spillComplete (group : Nat)
  /-- R204: A spilled group is filled back when its lanes have room. -/
  | groupFill (group : Nat)
  /-- R160: A waiting qpush or qpop performs once room or entries are available. -/
  | fifoWaitResume (die core bank : Nat)
  /-- R321: After candidate accesses drain, the trial folds, inserts its signature and writes the outcome. -/
  | trialEnd (t : Nat)
  /-- R337: An accepted card held for ring room is filed into its quay. -/
  | cardFile (die quay : Nat)
  /-- R338: The dispatcher draws a card into the card store and fixes its target die. -/
  | cardDraw (die quay : Nat)
  /-- R339: A tile line is fetched, skipped or dropped; the last one makes the card ready. -/
  | tileLineArrival (die card : Nat)
  /-- R341: The dispatcher picks the next ready card by EDF and FIFO weights. -/
  | dispatchPick (die : Nat)
  /-- R341: A picked card's team is placed once a qualifying berth is free. -/
  | teamPlacement (die : Nat)
  /-- R344: A slice's budget expires and each thread takes cause 0xA0. -/
  | budgetExhausted (team : Nat)
  /-- R344: budget/4 ticks after the trap, the dispatcher ends and saves the slice. -/
  | forcedSliceEnd (team : Nat)
  /-- R345: After all threads of the work end, the completion signal is stored as a release. -/
  | completionSignal (work : Nat)
  /-- R348: Every 10,000 ticks quays are evaluated and one berth may move. -/
  | harbourmasterEvaluation (die : Nat)
  /-- R349: A moved berth with no donor team left begins serving the receiving stage. -/
  | berthHandover (die berth : Nat)
  /-- R350: Each lane cycle the slice arbiter starts ready candidates oldest first. -/
  | sliceArbitration (die : Nat)
  /-- R368: A team's save to the save pool completes. -/
  | contextSaveComplete (team : Nat)
  /-- R367: A pending save is retried when save-pool space frees. -/
  | saveRetry (die : Nat)
  /-- R386: A replay checkpoint interval ends and its writes commit. -/
  | replayIntervalEnd (team : Nat)
  /-- R387: Re-execution reaches the named count and stops with a kind-4 record. -/
  | replayStopReached (team : Nat)
  /-- R75: All caches have dropped the range and old accesses have performed. -/
  | translationInvalidateComplete (tag : Ticket)
  /-- R395: 2,000 ticks after a P-state change the new clocks run and held traffic resumes. -/
  | relockEnd (die : Nat)
  /-- R202: A spilled group's fill from its backing regions completes, its commitment is restored and it may issue again. -/
  | fillComplete (group : Nat)
  /-- R369: A team's restore from its save area finishes and its threads resume at their stopping points. -/
  | restoreComplete (team : Nat)
  /-- R261: A queued acc.zero finishes clearing a tile's working bank after its 4 array cycles. -/
  | accZeroComplete (die core tile : Nat)
  /-- R382: Write to an event unit control register, ending any histogram run. -/
  | elmCtlWrite (die core unit : Nat) (v : BitVec 64)
  /-- R130: An uncorrectable metadata word poisons 16 lines and posts 0xB0. -/
  | uncorrectableCompressionMetadata (ctx die line : Nat)
  /-- R365: An uncorrectable data error poisons a line or word and posts 0xB1. -/
  | uncorrectableData (ctx die : Nat) (place : DataPlace)
  /-- R365: An error in a save area sends 0xB2 to the host and ends the team. -/
  | uncorrectableContextState (team : Nat)
  /-- R365: An error in control state sends 0xB4 and ends every team on the core. -/
  | internalMachineCheck (die core : Nat)
  /-- R391: Host command 0x01 binds a context's table root, peers, windows and observation grant. -/
  | bindContext (tag : Ticket) (ctx : Nat) (b : BindArg)
  /-- R139: Host command 0x02 writes a record, host records included. -/
  | writeRecord (tag : Ticket) (ctx : Nat) (tb : Fin 256) (r : BitVec 512)
  /-- R75: Host command 0x03 invalidates translations for a context and range. -/
  | translationInvalidate (tag : Ticket) (ctx base len : Nat)
  /-- R80: Host command 0x04 resolves a page request and restarts the walk. -/
  | resolvePage (tag : Ticket) (die index : Nat)
  /-- R80: Host command 0x05 refuses a page request. -/
  | refusePage (tag : Ticket) (die index : Nat)
  /-- R391: Host command 0x06 carves a version store, metadata, replica pool, save pool, fault quay or error ring. -/
  | carveRegion (tag : Ticket) (c : CarveArg)
  /-- R338: Host command 0x07 configures quays, weights, stages, floors and berth mode. -/
  | configureQuay (tag : Ticket) (c : QuayArg)
  /-- R366: Host command 0x08 switches a team out. -/
  | preEmptTeam (tag : Ticket) (team : Nat)
  /-- R394: Host command 0x09 sets a die's P-state or gates it. -/
  | diePowerState (tag : Ticket) (die : Nat) (p : DiePower)
  /-- R394: Host command 0x0A sets a tier portion on, retention or self-refresh. -/
  | tierPowerState (tag : Ticket) (die : Nat) (tier : Tier) (on : Bool)
  /-- R395: A thermal trip halts the die, sends 0xB3 and ends its teams. -/
  | thermalTrip (die : Nat)
  /-- R379: Host command 0x0B selects counter organisation, event sources and auto, clearing counters. -/
  | counterOrganisation (tag : Ticket) (c : CounterArg)
  /-- R384: A start packet clears a context's accumulators and begins counting. -/
  | startPacket (tag : Ticket) (ctx : Nat)
  /-- R384: A stop packet folds banks, writes the launch record and clears accumulators. -/
  | stopPacket (tag : Ticket) (ctx : Nat)
  /-- R385: Host command 0x0C places a team in replay mode. -/
  | replayMode (tag : Ticket) (team limit : Nat)
  /-- R387: Host command 0x0C names a stop and rolls the team back to re-execute. -/
  | replayStop (tag : Ticket) (team interval count : Nat)
  /-- R400: Host command 0x0D writes a firmware block. -/
  | firmwareBlockWrite (tag : Ticket) (block : Nat) (data : BitVec 64)
  /-- R400: Host command 0x0D commits the firmware image. -/
  | firmwareCommit (tag : Ticket)
  /-- R393: Host command 0x0E assigns the device's fabric number. -/
  | setFabricNumber (tag : Ticket) (num : BitVec 8)
  /-- R390: A 64-byte host write to a submission window submits a card. -/
  | submissionWrite (window offset : Nat) (data : List (BitVec 8))
  /-- R389, R391: A host write: through BAR 2 it performs at the home slice as an unowned write, through BAR 0 it is a command entry. -/
  | hostMemoryWrite (pa : HostAt) (data : List (BitVec 8))
  /-- R389, R399: A host read, through BAR 2 of device memory, through BAR 0 of the almanac. -/
  | hostMemoryRead (pa : HostAt) (len : Nat)
  /-- R147: A host request times out and takes cause 0x2E. -/
  | hostCompletionTimeout (op : Nat)
  /-- R392: A wharf flit, new or sent again, fails CRC and is resent, retraining after 8 failures. -/
  | flitCrcFailure (link : FlitFail)
  /-- R400: Device reset trains the link, checks firmware and sets reset state. -/
  | deviceReset (firmwareOk : Bool)
  /-- R392: A wharf link finishes retraining and carries traffic again. -/
  | linkRetrained (link : Trained)
  /-- R147: An access from another fabric device arrives over the wharf links and performs at this device's home slice. -/
  | remoteAccessArrival (a : RemoteArg)
  /-- R339: A card forwarded by another device arrives over the wharf links and is accepted afresh into the same-numbered quay. -/
  | forwardedCardArrival (die quay ctx : Nat) (card : BitVec 512)
  deriving DecidableEq, Repr

end Sys2Proof
end

