-- ==== Sys2Proof/Machine/Num.lean ====
section
/-! DEFINITION. Number formats (03): exact values, one rounding (00 R4, 03 R55-R61), the IEEE operations of
10 R227-R228, and the integer square root, exponential and logarithm they need. -/

namespace Sys2Proof.Num

/-- An exact extended real: NaN with a sign, an infinity, or ±n/d with d > 0 (zeros keep their sign). -/
inductive XVal where
  | nan (neg : Bool)
  | inf (neg : Bool)
  | fin (neg : Bool) (n d : Nat)
  deriving DecidableEq, Repr

/-- Which codes of a floating format are special (R52). -/
inductive Special where
  | ieee | e4m3 | none
  deriving DecidableEq, Repr

/-- A floating format of R52: exponent bits, mantissa bits, bias, special codes. -/
structure FFmt where
  eb : Nat
  mb : Nat
  bias : Nat
  sp : Special
  deriving DecidableEq, Repr

def e2m1 : FFmt := ⟨2, 1, 1, .none⟩
def e2m3 : FFmt := ⟨2, 3, 1, .none⟩
def e3m2 : FFmt := ⟨3, 2, 3, .none⟩
def e4m3 : FFmt := ⟨4, 3, 7, .e4m3⟩
def e5m2 : FFmt := ⟨5, 2, 15, .ieee⟩
def bf16 : FFmt := ⟨8, 7, 127, .ieee⟩
def f32 : FFmt := ⟨8, 23, 127, .ieee⟩
def f64 : FFmt := ⟨11, 52, 1023, .ieee⟩

/-- Width in bits of a floating format. -/
def FFmt.width (f : FFmt) : Nat := 1 + f.eb + f.mb

/-- The greatest finite magnitude code of a format (R52). -/
def FFmt.maxCode (f : FFmt) : Nat :=
  match f.sp with
  | .ieee => ((2 ^ f.eb - 1) <<< f.mb) - 1
  | .e4m3 => 2 ^ (f.eb + f.mb) - 2
  | .none => 2 ^ (f.eb + f.mb) - 1

/-- The value of a floating code (R52). -/
def decodeF (f : FFmt) (c : Nat) : XVal :=
  let s := (c >>> (f.eb + f.mb)) % 2 == 1
  let mag := c % 2 ^ (f.eb + f.mb)
  let e := mag >>> f.mb
  let m := mag % 2 ^ f.mb
  if mag > f.maxCode then
    (match f.sp with
     | .ieee => if m = 0 then .inf s else .nan s
     | _ => .nan s)
  else
    -- value = sig * 2^(max e 1 - bias - mb)
    let sig := if e = 0 then m else 2 ^ f.mb + m
    let e' := max e 1
    if e' ≥ f.bias + f.mb then .fin s (sig <<< (e' - f.bias - f.mb)) 1
    else .fin s sig (2 ^ (f.bias + f.mb - e'))

/-- Whether a magnitude k + rem/den (0 ≤ rem < den) rounds up to k + 1 (R4). -/
def roundsUp (r : Rnd) (neg : Bool) (k rem den : Nat) : Bool :=
  match r with
  | .rz => false
  | .rd => neg && rem != 0
  | .ru => !neg && rem != 0
  | .rn => decide (2 * rem > den) || (decide (2 * rem = den) && k % 2 == 1)

/-- ⌊log₂(n/d)⌋ + 2000, for n, d > 0: biased so that it is a natural number for every value the formats reach. -/
def ilog (n d : Nat) : Int :=
  let e : Int := (Nat.log2 n : Int) - (Nat.log2 d : Int)
  -- n/d < 2^e exactly when n * 2^max(-e) < d * 2^max(e)
  if n <<< (-e).toNat < d <<< e.toNat then e - 1 else e

/-- The magnitude code of n/d rounded once as though the exponent had no upper limit (R57, R58). -/
def roundMag (f : FFmt) (r : Rnd) (neg : Bool) (n d : Nat) : Nat :=
  if n = 0 then 0 else
  let e := ilog n d
  let emin : Int := 1 - (f.bias : Int)
  let q : Int := max e emin - (f.mb : Int)
  let num := n <<< (-q).toNat
  let den := d <<< q.toNat
  let k := num / den
  let k := if roundsUp r neg k (num % den) den then k + 1 else k
  if k < 2 ^ f.mb then k
  else (q + (f.mb : Int) + (f.bias : Int)).toNat * 2 ^ f.mb + (k - 2 ^ f.mb)

/-- The sign bit of a format's code. -/
def FFmt.signed (f : FFmt) (neg : Bool) (mag : Nat) : Nat :=
  if neg then 2 ^ (f.eb + f.mb) + mag else mag

/-- The infinity code of an IEEE format. -/
def FFmt.infCode (f : FFmt) : Nat := (2 ^ f.eb - 1) <<< f.mb

/-- The canonical NaN magnitude: e all ones, top mantissa bit (R60, R228); E4M3's only NaN. -/
def FFmt.nanCode (f : FFmt) : Nat :=
  match f.sp with
  | .e4m3 => 2 ^ (f.eb + f.mb) - 1
  | _ => f.infCode + 2 ^ (f.mb - 1)

/-- Overflow by direction (R4, R57). -/
def FFmt.overflow (f : FFmt) (r : Rnd) (neg : Bool) : Nat :=
  match r with
  | .rn => f.infCode
  | .rz => f.maxCode
  | .rd => if neg then f.infCode else f.maxCode
  | .ru => if neg then f.maxCode else f.infCode

/-- One rounding into a floating format: R57 for the IEEE formats, R58 (saturating) for the others, and R60
for a NaN source, which keeps its sign where the format has a NaN. -/
def encodeF (f : FFmt) (r : Rnd) : XVal → Nat
  | .nan s => if f.sp = .none then 0 else f.signed s f.nanCode
  | .inf s => f.signed s (if f.sp = .ieee then f.infCode else f.maxCode)
  | .fin s n d =>
    let m := roundMag f r s n d
    f.signed s (if m > f.maxCode then (if f.sp = .ieee then f.overflow r s else f.maxCode) else m)

/-- One rounding to an integer (R59). -/
def roundInt (r : Rnd) (neg : Bool) (n d : Nat) : Int :=
  let k := n / d
  let k := if roundsUp r neg k (n % d) d then k + 1 else k
  if neg then -(k : Int) else (k : Int)

/-- Saturation to a range (R59). -/
def clampInt (lo hi x : Int) : Int := if x < lo then lo else if x > hi then hi else x

/-- Conversion to a w-bit two's-complement integer (R59, R60): NaN gives 0, infinities the limits. -/
def toInt (w : Nat) (r : Rnd) : XVal → Int
  | .nan _ => 0
  | .inf s => if s then -(2 ^ (w - 1) : Int) else 2 ^ (w - 1) - 1
  | .fin s n d => clampInt (-(2 ^ (w - 1))) (2 ^ (w - 1) - 1) (roundInt r s n d)

/-- The value of an integer. -/
def ofInt (i : Int) : XVal := .fin (decide (i < 0)) i.natAbs 1

/-- The value of a sign-magnitude code (R50): negative zero reads as 0. -/
def decodeSM (w c : Nat) : XVal :=
  let m := c % 2 ^ (w - 1)
  .fin ((c >>> (w - 1)) % 2 == 1 && m != 0) m 1

/-- Rounding into SMw (R59): a zero result has sign 0. -/
def encodeSM (w : Nat) (r : Rnd) : XVal → Nat
  | .nan _ => 0
  | .inf s => if s then 2 ^ w - 1 else 2 ^ (w - 1) - 1
  | .fin s n d =>
    let m := min (roundInt r s n d).natAbs (2 ^ (w - 1) - 1)
    if s && m != 0 then 2 ^ (w - 1) + m else m

/-- Two's complement of an integer in w bits. -/
def wrapInt (w : Nat) (i : Int) : Nat := (i % (2 ^ w : Int)).toNat

/-- The signed reading of a w-bit pattern (R49). -/
def signedOf (w c : Nat) : Int := if c % 2 ^ w ≥ 2 ^ (w - 1) then (c % 2 ^ w : Int) - 2 ^ w else (c % 2 ^ w : Int)

/-- A format code of R31. -/
inductive Format where
  | sm (w : Nat)
  | fl (f : FFmt)
  | i32
  | reserved
  deriving DecidableEq, Repr

/-- The format codes of R31. -/
def format (c : BitVec 4) : Format :=
  match c with
  | 0x0#4 => .sm 2 | 0x1#4 => .sm 4 | 0x2#4 => .sm 6 | 0x3#4 => .sm 8 | 0x4#4 => .sm 12 | 0x5#4 => .sm 16
  | 0x6#4 => .fl e2m1 | 0x7#4 => .fl e2m3 | 0x8#4 => .fl e3m2 | 0x9#4 => .fl e4m3 | 0xA#4 => .fl e5m2
  | 0xB#4 => .fl bf16 | 0xC#4 => .fl f32 | 0xD#4 => .fl f64 | 0xE#4 => .i32 | _ => .reserved

/-- Element width in bits (R51). -/
def Format.width : Format → Nat
  | .sm w => w
  | .fl f => f.width
  | .i32 => 32
  | .reserved => 8

/-- The exact value of an element (R50, R52, R53). -/
def Format.value : Format → Nat → XVal
  | .sm w, c => decodeSM w c
  | .fl f, c => decodeF f c
  | .i32, c => ofInt (signedOf 32 c)
  | .reserved, _ => .fin false 0 1

/-- One rounding into a format (R55-R60). -/
def Format.round (f : Format) (r : Rnd) (v : XVal) : Nat :=
  match f with
  | .sm w => encodeSM w r v
  | .fl f => encodeF f r v
  | .i32 => wrapInt 32 (toInt 32 r v)
  | .reserved => 0

/-- A conversion between two formats (R55). -/
def convert (src dst : BitVec 4) (r : Rnd) (c : Nat) : Nat := (format dst).round r ((format src).value c)

/-- The digit count of an array operand format (R54); `none` where the array takes none. -/
def digits : Format → Option Nat
  | .sm w => some ((w - 1 + 1) / 2)
  | .fl f => if f.mb > 7 then none else some ((f.mb + 2) / 2)
  | _ => none

/-! ### IEEE operations on exact values (R227, R228). A NaN result has sign 0. -/

/-- Negation. -/
def neg : XVal → XVal
  | .nan s => .nan s
  | .inf s => .inf (!s)
  | .fin s n d => .fin (!s) n d

/-- Signed numerator over a common denominator. -/
def sInt (s : Bool) (n : Nat) : Int := if s then -(n : Int) else n

/-- IEEE addition before rounding: the sign of an exact zero is that of the direction (R4). -/
def add (r : Rnd) : XVal → XVal → XVal
  | .nan _, _ => .nan false
  | _, .nan _ => .nan false
  | .inf s, .inf t => if s = t then .inf s else .nan false
  | .inf s, _ => .inf s
  | _, .inf t => .inf t
  | .fin s n d, .fin t m e =>
    let x := sInt s (n * e) + sInt t (m * d)
    if x = 0 then
      (if n = 0 ∧ m = 0 ∧ s = t then .fin s 0 1 else .fin (decide (r = .rd)) 0 1)
    else .fin (decide (x < 0)) x.natAbs (d * e)

/-- IEEE multiplication before rounding. -/
def mul : XVal → XVal → XVal
  | .nan _, _ => .nan false
  | _, .nan _ => .nan false
  | .inf s, .inf t => .inf (s != t)
  | .inf s, .fin t n _ => if n = 0 then .nan false else .inf (s != t)
  | .fin s n _, .inf t => if n = 0 then .nan false else .inf (s != t)
  | .fin s n d, .fin t m e => .fin (s != t) (n * m) (d * e)

/-- IEEE division before rounding: x/0 is an infinity (R227), 0/0 and ∞/∞ NaN. -/
def div : XVal → XVal → XVal
  | .nan _, _ => .nan false
  | _, .nan _ => .nan false
  | .inf _, .inf _ => .nan false
  | .inf s, .fin t _ _ => .inf (s != t)
  | .fin s _ _, .inf t => .fin (s != t) 0 1
  | .fin s n d, .fin t m e =>
    if m = 0 then (if n = 0 then .nan false else .inf (s != t)) else .fin (s != t) (n * e) (d * m)

/-- Newton's iteration for the integer square root, with fuel. -/
def isqrtGo : Nat → Nat → Nat → Nat
  | 0, _, x => x
  | k + 1, n, x => let y := (x + n / x) / 2; if y ≥ x then x else isqrtGo k n y

/-- ⌊√n⌋. -/
def isqrt (n : Nat) : Nat := if n = 0 then 0 else isqrtGo (Nat.log2 n + 2) n (2 ^ (Nat.log2 n / 2 + 1))

/-- A rational strictly between ⌊2^p √(n/d)⌋ and its successor, or the exact root: it rounds as √(n/d) does in
every direction of a format of fewer than p / 2 bits. -/
def sqrtRat (n d : Nat) : Nat × Nat :=
  let p := 1300
  let x := (n <<< (2 * p)) / d
  let s := isqrt x
  if s * s * d = n <<< (2 * p) then (s, 2 ^ p) else (2 * s + 1, 2 ^ (p + 1))

/-- IEEE square root before rounding: √(-0) is -0, of a negative value NaN. -/
def sqrt : XVal → XVal
  | .nan _ => .nan false
  | .inf s => if s then .nan false else .inf false
  | .fin s n d => if n = 0 then .fin s 0 1 else if s then .nan false else
    let q := sqrtRat n d; .fin false q.1 q.2

/-! ### 2^x and log₂ x, correctly rounded (R228): enclosures of growing precision. -/

/-- Lower sum Σ_{k=1..j} ⌊2^p / (k 2^k)⌋ of ln 2. -/
def ln2Sum (p : Nat) : Nat → Nat
  | 0 => 0
  | k + 1 => ln2Sum p k + 2 ^ p / ((k + 1) * 2 ^ (k + 1))

/-- Σ of the exponential series with terms rounded down, t being the current term. -/
def expSum (p y : Nat) : Nat → Nat → Nat → Nat → Nat
  | 0, _, _, acc => acc
  | j + 1, i, t, acc => let t' := t * y / (2 ^ p * i); expSum p y j (i + 1) t' (acc + t')

/-- Σ z^(2i+1)/(2i+1) with terms rounded down: t is z^(2i+1), z2 is z². -/
def atanhSum (p z2 : Nat) : Nat → Nat → Nat → Nat → Nat
  | 0, _, _, acc => acc
  | j + 1, i, t, acc => atanhSum p z2 j (i + 1) (t * z2 / 2 ^ p) (acc + t / (2 * i + 1))

/-- An open enclosure of 2^(n/d), 0 < n/d < 1, in units of 2^-p. -/
def exp2Enc (p n d : Nat) : Nat × Nat :=
  let l := ln2Sum p (p + 2)
  let ylo := (n <<< p) / d * l / 2 ^ p
  let yhi := ((n <<< p) / d + 1) * (l + p + 4) / 2 ^ p + 1
  let terms := p / 2 + 8
  (expSum p ylo terms 1 (2 ^ p) (2 ^ p), expSum p yhi terms 1 (2 ^ p) (2 ^ p) + 2 * terms + 4)

/-- An open enclosure of log₂(n/d), 1 < n/d < 2, in units of 2^-p. -/
def log2Enc (p n d : Nat) : Nat × Nat :=
  let l := ln2Sum p (p + 2)
  let zlo := ((n - d) <<< p) / (n + d)
  let zhi := zlo + 1
  let terms := p / 3 + 8
  let lo := 2 * atanhSum p (zlo * zlo / 2 ^ p) terms 0 zlo 0
  let hi := 2 * (atanhSum p (zhi * zhi / 2 ^ p + 1) terms 0 zhi 0 + 3 * terms + 4)
  ((lo <<< p) / (l + p + 4), (hi <<< p) / l + 1)

/-- Rounds a value known to lie strictly inside (lo, hi) × 2^-p × 2^e, when both ends round alike. -/
def decideRound (f : FFmt) (r : Rnd) (neg : Bool) (lo hi p : Nat) (e : Int) : Option Nat :=
  let at' (x : Nat) : Nat := encodeF f r (.fin neg (x <<< e.toNat) ((2 ^ (p + 1)) <<< (-e).toNat))
  let a := at' (2 * lo + 1)
  let b := at' (2 * hi - 1)
  if a = b then some a else none

/-- Working precisions tried in turn; the first that decides answers. -/
def tryPrec (g : Nat → Option Nat) (free : Nat) : List Nat → Nat
  | [] => free
  | p :: ps => match g p with | some c => c | none => tryPrec g free ps

/-- A number for (function, format, direction): the index of the free value of entry 17. -/
def opCode (fn : Nat) (f : FFmt) (r : Rnd) : Nat :=
  fn + 2 * (match r with | .rn => 0 | .rd => 1 | .ru => 2 | .rz => 3) + 8 * f.mb

/-- The code of 2^x, rounded in direction r (R228, R229); the precisions end in a free value (entry 17). -/
def exp2Code (f : FFmt) (r : Rnd) : XVal → Nat
  | .nan _ => f.nanCode
  | .inf s => if s then 0 else f.infCode
  | .fin s n d =>
    if n = 0 then encodeF f r (.fin false 1 1) else
    let fl : Int := if s then -((n + d - 1) / d : Nat) else (n / d : Nat)
    let e := clampInt (-1300) 1300 fl
    let fr := (sInt s n - fl * d).toNat          -- numerator of the fraction, over d
    if fr = 0 then encodeF f r (.fin false (1 <<< e.toNat) (1 <<< (-e).toNat))
    else tryPrec (fun p => let (lo, hi) := exp2Enc p fr d; decideRound f r false lo hi p e)
      (Config.transcendental (opCode 0 f r) s n d) [160, 512, 4096]

/-- The code of log₂ x (R228): ±0 gives -∞, a negative value NaN, +∞ gives +∞. -/
def log2Code (f : FFmt) (r : Rnd) : XVal → Nat
  | .nan _ => f.nanCode
  | .inf s => if s then f.nanCode else f.infCode
  | .fin s n d =>
    if n = 0 then f.signed true f.infCode
    else if s then f.nanCode else
    let e := ilog n d
    let m := n <<< (-e).toNat                    -- n/d = 2^e * m/k, 1 ≤ m/k < 2
    let k := d <<< e.toNat
    if m = k then encodeF f r (ofInt e)
    else tryPrec (fun p =>
        let (lo, hi) := log2Enc p m k
        if e ≥ 0 then decideRound f r false (lo + e.toNat * 2 ^ p) (hi + e.toNat * 2 ^ p) p 0
        else decideRound f r true ((-e).toNat * 2 ^ p - hi) ((-e).toNat * 2 ^ p - lo) p 0)
      (Config.transcendental (opCode 1 f r) s n d) [160, 512, 4096]

end Sys2Proof.Num
end

