-- ==== Sys2Proof/Machine/Interval.lean ====
section
/-! DEFINITION. Interval arithmetic on bounds (R62-R66, R229-R234) and comparisons of exact values. -/

namespace Sys2Proof.Num

/-- A zero of either sign. -/
def XVal.isZero : XVal → Bool
  | .fin _ n _ => n == 0
  | _ => false

/-- A NaN. -/
def XVal.isNan : XVal → Bool
  | .nan _ => true
  | _ => false

/-- Neither NaN nor infinite. -/
def XVal.isFin : XVal → Bool
  | .fin _ _ _ => true
  | _ => false

/-- The sign. -/
def XVal.isNeg : XVal → Bool
  | .nan s => s
  | .inf s => s
  | .fin s n _ => s && n != 0

/-- IEEE less-than; false with a NaN; -0 and +0 are equal (R224). -/
def XVal.lt : XVal → XVal → Bool
  | .nan _, _ => false
  | _, .nan _ => false
  | .inf s, .inf t => s && !t
  | .inf s, _ => s
  | _, .inf t => !t
  | .fin s n d, .fin t m e => decide (sInt s (n * e) < sInt t (m * d))

/-- IEEE equality; false with a NaN. -/
def XVal.eq : XVal → XVal → Bool
  | .nan _, _ => false
  | _, .nan _ => false
  | .inf s, .inf t => s == t
  | .inf _, _ => false
  | _, .inf _ => false
  | .fin s n d, .fin t m e => decide (sInt s (n * e) = sInt t (m * d))

/-- IEEE less-or-equal. -/
def XVal.le (a b : XVal) : Bool := a.lt b || a.eq b

/-- The lesser of two bounds. -/
def minX (a b : XVal) : XVal := if b.lt a then b else a
/-- The greater of two bounds. -/
def maxX (a b : XVal) : XVal := if a.lt b then b else a

/-- Legal bounds (R64). -/
def legal (lo hi : XVal) : Bool :=
  !lo.isNan && !hi.isNan && lo.le hi && lo != .inf false && hi != .inf true

/-- A bound of a produced interval: one rounding, a zero written as +0 (R66, R229). -/
def bound (f : FFmt) (r : Rnd) (v : XVal) : Nat :=
  let c := encodeF f r v
  if c % 2 ^ (f.eb + f.mb) = 0 then 0 else c

/-- Product of bounds, 0 × ±∞ counted as 0 (R229). -/
def mulB (a b : XVal) : XVal := if a.isZero || b.isZero then .fin false 0 1 else mul a b

/-- Quotient of bounds as a limit (R230): ∞/∞ is the infinity of the signs, a zero numerator gives 0. -/
def divB (a b : XVal) : XVal :=
  match a, b with
  | .inf s, .inf t => .inf (s != t)
  | a, b => if a.isZero then .fin false 0 1 else div a b

/-- Least of four. -/
def min4 (a b c d : XVal) : XVal := minX (minX a b) (minX c d)
/-- Greatest of four. -/
def max4 (a b c d : XVal) : XVal := maxX (maxX a b) (maxX c d)

/-- An interval of exact bounds. -/
structure Iv where
  lo : XVal
  hi : XVal
  deriving DecidableEq, Repr

/-- An exact zero. -/
def zeroX : XVal := .fin false 0 1
/-- The whole line. -/
def Iv.all : Iv := ⟨.inf true, .inf false⟩

/-- Image of a sum (R229). -/
def Iv.add (a b : Iv) : Iv := ⟨Num.add .rn a.lo b.lo, Num.add .rn a.hi b.hi⟩
/-- Image of a difference (R229). -/
def Iv.sub (a b : Iv) : Iv := ⟨Num.add .rn a.lo (neg b.hi), Num.add .rn a.hi (neg b.lo)⟩
/-- Image of a product (R229). -/
def Iv.mul (a b : Iv) : Iv :=
  let p := mulB a.lo b.lo; let q := mulB a.lo b.hi; let r := mulB a.hi b.lo; let s := mulB a.hi b.hi
  ⟨min4 p q r s, max4 p q r s⟩

/-- Image of a quotient (R230); `none` where it is empty. -/
def Iv.div (a b : Iv) : Option Iv :=
  if zeroX.lt b.lo || b.hi.lt zeroX then
    let p := divB a.lo b.lo; let q := divB a.lo b.hi; let r := divB a.hi b.lo; let s := divB a.hi b.hi
    some ⟨min4 p q r s, max4 p q r s⟩
  else if b.lo.isZero && b.hi.isZero then none
  else if b.lo.lt zeroX && zeroX.lt b.hi then some Iv.all
  else if b.lo.isZero then
    if zeroX.le a.lo then some ⟨divB a.lo b.hi, .inf false⟩
    else if a.hi.le zeroX then some ⟨.inf true, divB a.hi b.hi⟩
    else some Iv.all
  else
    if zeroX.le a.lo then some ⟨.inf true, divB a.lo b.lo⟩
    else if a.hi.le zeroX then some ⟨divB a.hi b.lo, .inf false⟩
    else some Iv.all

/-- Image of the square root (R229). -/
def Iv.sqrt (a : Iv) : Option Iv :=
  if a.hi.lt zeroX then none else some ⟨Num.sqrt (maxX a.lo zeroX), Num.sqrt a.hi⟩

/-- Image of the absolute value (R229). -/
def Iv.abs (a : Iv) : Iv :=
  if zeroX.le a.lo then a
  else if a.hi.le zeroX then ⟨neg a.hi, neg a.lo⟩
  else ⟨zeroX, maxX (neg a.lo) a.hi⟩

/-- Image of fma (R231). -/
def Iv.fma (a b c : Iv) : Iv :=
  let p := a.mul b
  ⟨Num.add .rn p.lo c.lo, Num.add .rn p.hi c.hi⟩

/-- Codes of an interval's bounds, each rounded once outward (R229). -/
def Iv.codes (f : FFmt) (a : Iv) : Nat × Nat := (bound f .rd a.lo, bound f .ru a.hi)

/-- The midpoint (R234), as a code; a zero is +0. -/
def Iv.mid (f : FFmt) (a : Iv) : Nat :=
  match a.lo, a.hi with
  | .inf _, .inf _ => 0
  | .inf _, _ => f.signed true f.maxCode
  | _, .inf _ => f.maxCode
  | l, h => bound f .rn (Num.div (Num.add .rn l h) (.fin false 2 1))

/-- The width, rounded up (R233). -/
def Iv.wid (f : FFmt) (a : Iv) : Nat := encodeF f .ru (Num.add .ru a.hi (neg a.lo))

/-- fmin on points (R228): -0 is less than +0; with one NaN the other. -/
def pmin (f : FFmt) (x y : Nat) : Nat :=
  let a := decodeF f x; let b := decodeF f y
  if a.isNan && b.isNan then f.nanCode
  else if a.isNan then y
  else if b.isNan then x
  else if a.isZero && b.isZero then (if x ≠ 0 then x else y)
  else if b.lt a then y else x

/-- fmax on points (R228). -/
def pmax (f : FFmt) (x y : Nat) : Nat :=
  let a := decodeF f x; let b := decodeF f y
  if a.isNan && b.isNan then f.nanCode
  else if a.isNan then y
  else if b.isNan then x
  else if a.isZero && b.isZero then (if x = 0 then x else y)
  else if a.lt b then y else x

end Sys2Proof.Num
end

