-- ==== Sys2Proof/Decode.lean ====
section
/-! DEFINITION. The decoder of R18-R44, total on any words and refusing by cause, and after it the encoder, both
written from the format diagrams R25-R30 and the opcode map R42. -/

namespace Sys2Proof

/-- A cause code (16 R357). -/
abbrev Cause := BitVec 8

/-- The classes of R19. -/
inductive Cls where
  | lane | memory | control | matrix | copy | task | system
  deriving DecidableEq, Repr

/-- The class field of a header; 7 is reserved. -/
def Cls.ofCode : BitVec 3 → Option Cls
  | 0#3 => some .lane | 1#3 => some .memory | 2#3 => some .control | 3#3 => some .matrix
  | 4#3 => some .copy | 5#3 => some .task | 6#3 => some .system | _ => none

/-- The code of a class. -/
def Cls.code : Cls → BitVec 3
  | .lane => 0 | .memory => 1 | .control => 2 | .matrix => 3 | .copy => 4 | .task => 5 | .system => 6

/-- Bits [h:l] of a word (R2). -/
def bits (w : Word32) (l n : Nat) : BitVec n := w.extractLsb' l n

/-! ### Reading fields, collecting every rule of R43 that a word breaks -/

/-- What the decoding of one word has met: the causes so far, the extension words not yet taken, the named
count, and the operand words still taken. -/
structure DecSt where
  errs : List Cause
  ext : List Word32
  n : Nat
  deriving DecidableEq, Repr

/-- A field reader. -/
abbrev Dec := StateM DecSt

namespace Dec

/-- Records a cause of R43. -/
def bad (c : Cause) : Dec Unit := fun s => ((), { s with errs := c :: s.errs })

/-- Records a cause unless the condition holds. -/
def need (b : Bool) (c : Cause) : Dec Unit := if b then pure () else bad c

/-- The next extension word (R22, R35); 0x07 where the clause has none left (R23). -/
def word : Dec Word32 := fun s =>
  match s.ext with
  | w :: ws => (w, { s with ext := ws })
  | [] => (0, { s with errs := 0x07 :: s.errs })

end Dec

/-- Entries of a width (R36). -/
def Width.count : Width → Nat
  | .w1 => 1 | .w2 => 2 | .w4 => 4 | .w8 => 8

/-- A width from its field. -/
def Width.ofCode : BitVec 2 → Width
  | 0#2 => .w1 | 1#2 => .w2 | 2#2 => .w4 | _ => .w8

/-- The field of a width. -/
def Width.code : Width → BitVec 2
  | .w1 => 0 | .w2 => 1 | .w4 => 2 | .w8 => 3

/-- A stall from its field (R39). -/
def Stall.ofCode : BitVec 2 → Stall
  | 0#2 => .s0 | 1#2 => .s1 | 2#2 => .s2 | _ => .s4

/-- The field of a stall. -/
def Stall.code : Stall → BitVec 2
  | .s0 => 0 | .s1 => 1 | .s2 => 2 | .s4 => 3

/-- A hint from its field (R28). -/
def Hint.ofCode : BitVec 2 → Hint
  | 0#2 => .normal | 1#2 => .evictFirst | 2#2 => .evictLast | _ => .noAllocate

/-- The field of a hint. -/
def Hint.code : Hint → BitVec 2
  | .normal => 0 | .evictFirst => 1 | .evictLast => 2 | .noAllocate => 3

/-- A rounding direction from the low opcode bits (R42). -/
def Rnd.ofCode : BitVec 2 → Rnd
  | 0#2 => .rn | 1#2 => .rd | 2#2 => .ru | _ => .rz

/-- The low opcode bits of a rounding direction. -/
def Rnd.code : Rnd → BitVec 2
  | .rn => 0 | .rd => 1 | .ru => 2 | .rz => 3

/-- A branch condition from its field (R29). -/
def Cond.ofCode : BitVec 2 → Cond
  | 0#2 => .always | 1#2 => .t | 2#2 => .f | _ => .u

/-- The field of a branch condition. -/
def Cond.code : Cond → BitVec 2
  | .always => 0 | .t => 1 | .f => 2 | .u => 3

/-- A named register from a code 16-47. -/
def kregOf (c : Nat) : KReg := Fin.ofNat 32 (c - 16)

/-- The checks of R36 on a named code at a width. -/
def namedOk (c : Nat) (w : Width) : Dec Unit := do
  Dec.need ((c - 16) % w.count == 0) 0x04
  fun s => Dec.need (decide (c - 16 + w.count ≤ s.n)) 0x05 s

/-- A source field at a width (R32, R35, R36). -/
def srcF (c : BitVec 6) (w : Width) : Dec Src := do
  let n := c.toNat
  if 16 ≤ n ∧ n < 48 then
    namedOk n w
    return .k (kregOf n)
  else if n = 56 then
    Dec.need (w == .w1) 0x03
    return .lit (← Dec.word)
  else
    Dec.need (w == .w1) 0x03
    return (
      if n < 16 then .q (Fin.ofNat 16 n)
      else if n = 48 then .zero else if n = 49 then .lane else if n = 50 then .tig else if n = 51 then .grp
      else if n = 52 then .team else if n = 53 then .fuel else if n = 54 then .tlo else if n = 55 then .cyc
      else .g (Fin.ofNat 7 (n - 57)))

/-- A destination field at a width (R34, R36). -/
def dstF (c : BitVec 6) (w : Width) : Dec Dst := do
  let n := c.toNat
  if 16 ≤ n ∧ n < 48 then
    namedOk n w
    return .k (kregOf n)
  else
    Dec.need (w == .w1 && (n == 0 || n == 48)) 0x03
    return (if n = 48 then .none else .q)

/-- try's destination: an aligned quad (R328); code 0 takes 0x0A. -/
def quadF (c : BitVec 6) : Dec Dst := do
  let n := c.toNat
  if 16 ≤ n ∧ n < 48 then
    namedOk n .w4
    return .k (kregOf n)
  else
    Dec.need (n != 0) 0x0A
    Dec.need (n == 0) 0x03
    return .q

/-- A field that must name a register (R209). -/
def namedF (c : BitVec 6) (w : Width) : Dec KReg := do
  let n := c.toNat
  if 16 ≤ n ∧ n < 48 then
    namedOk n w
    return kregOf n
  else
    Dec.bad 0x03
    return 0

/-- A named register or group that is read, so that code 56 calls for a literal word (R151) before it is refused (R36): the
operand of reg.free. -/
def namedSrcF (c : BitVec 6) (w : Width) : Dec KReg := do
  if c.toNat = 56 then
    let _ ← Dec.word
  namedF c w

/-- The data field of stiv.64, atom.cas and sigin: a named pair. -/
def pairF (c : BitVec 6) : Dec KReg := namedSrcF c .w2

/-- A predicate in the high three bits of a field, the low three zero (R34). -/
def predF (c : BitVec 6) : Dec PReg := do
  Dec.need (c.toNat % 8 == 0) 0x06
  return Fin.ofNat 8 (c.toNat / 8)

/-- A field that must hold code 48 (R42). -/
def none48 (c : BitVec 6) : Dec Unit := Dec.need (c == 48) 0x06

/-- A field that must be zero. -/
def zeroF {n : Nat} (c : BitVec n) : Dec Unit := Dec.need (c == 0) 0x06

/-- S and G of an R word; G = 1x is reserved (R37). -/
def rctlF (w : Word32) : Dec RCtl := do
  Dec.need (bits w 1 1 == 0) 0x06
  return ⟨Stall.ofCode (bits w 2 2), bits w 0 1 == 1⟩

/-- A W field restricted to the accepted values (R36). -/
def widthF (c : BitVec 2) (ok : List Width) : Dec Width := do
  let w := Width.ofCode c
  Dec.need (ok.contains w) 0x03
  return w

/-- A FIFO bank: record[17:15] zero (R28, R160). -/
def fifoF (c : BitVec 8) : Dec (Fin 32) := do
  Dec.need (decide (c.toNat < 32)) 0x06
  return Fin.ofNat 32 c.toNat

/-- The special-register numbers that exist (R208, R325, R355, R360, R379) and whether setsr may write them. -/
def sregAccess (n : Nat) : Option Bool :=
  if n = 0x000 then some true
  else if n = 0x001 then some false
  else if 0x010 ≤ n ∧ n ≤ 0x014 then some false
  else if 0x020 ≤ n ∧ n ≤ 0x025 then some false
  else if n = 0x030 then some false
  else if 0x040 ≤ n ∧ n ≤ 0x045 then some false
  else if n = 0x050 ∨ n = 0x051 then some false
  else if n = 0x060 then some false
  else if n = 0x070 then some true
  else if n = 0x080 then some false
  else if n = 0x090 ∨ n = 0x091 then some true
  else if n = 0x092 ∨ n = 0x093 then some false
  else if 0x100 ≤ n ∧ n ≤ 0x102 then some true
  else if n = 0x103 then some false
  else if n = 0x140 ∨ n = 0x141 then some false
  else if 0x180 ≤ n ∧ n ≤ 0x191 then some false
  else if 0x1A0 ≤ n ∧ n ≤ 0x1BF then some true
  else if n = 0x1C0 then some false
  else none

/-- getsr's register number (R27, R208). -/
def sregF (i : BitVec 10) : Dec (BitVec 10) := do
  Dec.need (sregAccess i.toNat).isSome 0x06
  return i

/-- setsr's register number: 0x08 for a read-only one (R43). -/
def sregWF (i : BitVec 10) : Dec (BitVec 10) := do
  match sregAccess i.toNat with
  | some true => return i
  | some false => Dec.bad 0x08; return i
  | none => Dec.bad 0x06; return i

/-- bank.mode's immediate (R161). -/
def bankF (i : BitVec 10) : Dec (Fin 32 × BankMode) := do
  Dec.need (i.extractLsb' 7 3 == 0) 0x06
  let m := i.extractLsb' 5 2
  Dec.need (m != 3) 0x06
  return (Fin.ofNat 32 (i.extractLsb' 0 5).toNat, if m = 0 then .cache else if m = 1 then .scratchpad else .fifo)

/-- sbar.enrol's immediate (R307). -/
def sbarF (i : BitVec 10) : Dec SbarMode := do
  Dec.need (i.extractLsb' 7 1 == 0) 0x06
  let h := i.extractLsb' 0 7
  let m := i.extractLsb' 8 2
  if m = 0 then
    Dec.need (decide (1 ≤ h.toNat ∧ h.toNat ≤ 64)) 0x06
    return .enrolSet h
  else if m = 1 then
    Dec.need (h == 0) 0x06
    return .leave
  else
    Dec.need (m == 2 && h == 0) 0x06
    return .keep

/-- A named barrier's immediate: [9:7] zero (R308). -/
def barF (i : BitVec 10) : Dec (BitVec 7) := do
  Dec.need (i.extractLsb' 7 3 == 0) 0x06
  return i.extractLsb' 0 7

/-- A four-bit immediate, [9:4] zero (R261, R371). -/
def u4F (i : BitVec 10) : Dec (Fin 16) := do
  Dec.need (i.extractLsb' 4 6 == 0) 0x06
  return Fin.ofNat 16 (i.extractLsb' 0 4).toNat

/-- A shift count, [9:6] zero (R217). -/
def shiftF (i : BitVec 10) : Dec (BitVec 6) := do
  Dec.need (i.extractLsb' 6 4 == 0) 0x06
  return i.extractLsb' 0 6

/-- drain's immediate (R185). -/
def drainF (i : BitVec 10) : Dec DrainSet := do
  let m := i.extractLsb' 0 3
  Dec.need (i.extractLsb' 3 7 == 0 && m != 5 && m != 6) 0x06
  return (if m = 0 then .main else if m = 1 then .scratch else if m = 2 then .slab else if m = 3 then .host
    else if m = 4 then .fabric else .all)

/-- time's source: code 54 or 55 (R376). -/
def timeF (c : BitVec 6) : Dec Bool := do
  Dec.need (c == 54 || c == 55) 0x03
  return c == 55

/-- A target word: bits [31:19] zero (R29). -/
def targetF : Dec (BitVec 19) := do
  let w ← Dec.word
  Dec.need (bits w 19 13 == 0) 0x06
  return bits w 0 19

/-- n target words. -/
def targetsF : Nat → Dec (List (BitVec 19))
  | 0 => pure []
  | n + 1 => do
    let t ← targetF
    let ts ← targetsF n
    return t :: ts

/-- The sp field of mma.sp (R260). -/
def sparseF (c : BitVec 2) : Dec Sparse := do
  Dec.need (c != 0) 0x06
  return (if c = 1 then .n8 else if c = 2 then .n16 else .n32)

/-- Code of a sparsity (R30, R178). -/
def Sparse.code : Sparse → BitVec 2
  | .n8 => 1 | .n16 => 2 | .n32 => 3

/-- N of a sparsity (R242). -/
def Sparse.n : Sparse → Nat
  | .n8 => 8 | .n16 => 16 | .n32 => 32

/-- xform's transfer control (R178). -/
def xctlF (c : BitVec 16) : Dec XCtl := do
  Dec.need (c.extractLsb' 0 7 == 0) 0x06
  let sp := c.extractLsb' 8 2
  return { rnd := Rnd.ofCode (c.extractLsb' 14 2), cv := c.extractLsb' 13 1 == 1, sc := c.extractLsb' 12 1 == 1,
           sv := c.extractLsb' 11 1 == 1, tr := c.extractLsb' 10 1 == 1,
           sp := if sp = 0 then none else some (if sp = 1 then .n8 else if sp = 2 then .n16 else .n32),
           pk := c.extractLsb' 7 1 == 1 }

/-- A word that must stand last in its clause (R235, R306, R307, R328, R351, R375). -/
def lastF : Dec Unit := fun s => Dec.need s.ext.isEmpty 0x06 s

/-- The fields of R words. -/
def rd (w : Word32) : BitVec 6 := bits w 18 6
def ra (w : Word32) : BitVec 6 := bits w 12 6
def rb (w : Word32) : BitVec 6 := bits w 6 6
def imm (w : Word32) : BitVec 10 := bits w 2 10
def recF (w : Word32) : Rec := (bits w 10 8).toFin

/-! ### One reader per instruction: its class chapter's field table -/

/-- R218. -/
def readIadd (w : Word32) : Dec Instr := do
  let c ← rctlF w
  let _ ← widthF (bits w 4 2) [.w1]
  let d ← dstF (rd w) .w1
  let a ← srcF (ra w) .w1
  let b ← srcF (rb w) .w1
  return Instr.iadd c d a b

/-- R218. -/
def readIsub (w : Word32) : Dec Instr := do
  let c ← rctlF w
  let _ ← widthF (bits w 4 2) [.w1]
  let d ← dstF (rd w) .w1
  let a ← srcF (ra w) .w1
  let b ← srcF (rb w) .w1
  return Instr.isub c d a b

/-- R218. -/
def readImul (w : Word32) : Dec Instr := do
  let c ← rctlF w
  let _ ← widthF (bits w 4 2) [.w1]
  let d ← dstF (rd w) .w1
  let a ← srcF (ra w) .w1
  let b ← srcF (rb w) .w1
  return Instr.imul c d a b

/-- R218. -/
def readImulhi (w : Word32) : Dec Instr := do
  let c ← rctlF w
  let _ ← widthF (bits w 4 2) [.w1]
  let d ← dstF (rd w) .w1
  let a ← srcF (ra w) .w1
  let b ← srcF (rb w) .w1
  return Instr.imulhi c d a b

/-- R218. -/
def readImulhiUn (w : Word32) : Dec Instr := do
  let c ← rctlF w
  let _ ← widthF (bits w 4 2) [.w1]
  let d ← dstF (rd w) .w1
  let a ← srcF (ra w) .w1
  let b ← srcF (rb w) .w1
  return Instr.imulhiUn c d a b

/-- R219. -/
def readIdiv (w : Word32) : Dec Instr := do
  let c ← rctlF w
  let _ ← widthF (bits w 4 2) [.w1]
  let d ← dstF (rd w) .w1
  let a ← srcF (ra w) .w1
  let b ← srcF (rb w) .w1
  return Instr.idiv c d a b

/-- R219. -/
def readIdivUn (w : Word32) : Dec Instr := do
  let c ← rctlF w
  let _ ← widthF (bits w 4 2) [.w1]
  let d ← dstF (rd w) .w1
  let a ← srcF (ra w) .w1
  let b ← srcF (rb w) .w1
  return Instr.idivUn c d a b

/-- R219. -/
def readIrem (w : Word32) : Dec Instr := do
  let c ← rctlF w
  let _ ← widthF (bits w 4 2) [.w1]
  let d ← dstF (rd w) .w1
  let a ← srcF (ra w) .w1
  let b ← srcF (rb w) .w1
  return Instr.irem c d a b

/-- R219. -/
def readIremUn (w : Word32) : Dec Instr := do
  let c ← rctlF w
  let _ ← widthF (bits w 4 2) [.w1]
  let d ← dstF (rd w) .w1
  let a ← srcF (ra w) .w1
  let b ← srcF (rb w) .w1
  return Instr.iremUn c d a b

/-- R218. -/
def readImin (w : Word32) : Dec Instr := do
  let c ← rctlF w
  let _ ← widthF (bits w 4 2) [.w1]
  let d ← dstF (rd w) .w1
  let a ← srcF (ra w) .w1
  let b ← srcF (rb w) .w1
  return Instr.imin c d a b

/-- R218. -/
def readIminUn (w : Word32) : Dec Instr := do
  let c ← rctlF w
  let _ ← widthF (bits w 4 2) [.w1]
  let d ← dstF (rd w) .w1
  let a ← srcF (ra w) .w1
  let b ← srcF (rb w) .w1
  return Instr.iminUn c d a b

/-- R218. -/
def readImax (w : Word32) : Dec Instr := do
  let c ← rctlF w
  let _ ← widthF (bits w 4 2) [.w1]
  let d ← dstF (rd w) .w1
  let a ← srcF (ra w) .w1
  let b ← srcF (rb w) .w1
  return Instr.imax c d a b

/-- R218. -/
def readImaxUn (w : Word32) : Dec Instr := do
  let c ← rctlF w
  let _ ← widthF (bits w 4 2) [.w1]
  let d ← dstF (rd w) .w1
  let a ← srcF (ra w) .w1
  let b ← srcF (rb w) .w1
  return Instr.imaxUn c d a b

/-- R218. -/
def readIabs (w : Word32) : Dec Instr := do
  let c ← rctlF w
  let _ ← widthF (bits w 4 2) [.w1]
  let d ← dstF (rd w) .w1
  let a ← srcF (ra w) .w1
  none48 (rb w)
  return Instr.iabs c d a

/-- R218. -/
def readIneg (w : Word32) : Dec Instr := do
  let c ← rctlF w
  let _ ← widthF (bits w 4 2) [.w1]
  let d ← dstF (rd w) .w1
  let a ← srcF (ra w) .w1
  none48 (rb w)
  return Instr.ineg c d a

/-- R218. -/
def readAndB (w : Word32) : Dec Instr := do
  let c ← rctlF w
  let _ ← widthF (bits w 4 2) [.w1]
  let d ← dstF (rd w) .w1
  let a ← srcF (ra w) .w1
  let b ← srcF (rb w) .w1
  return Instr.andB c d a b

/-- R218. -/
def readOrB (w : Word32) : Dec Instr := do
  let c ← rctlF w
  let _ ← widthF (bits w 4 2) [.w1]
  let d ← dstF (rd w) .w1
  let a ← srcF (ra w) .w1
  let b ← srcF (rb w) .w1
  return Instr.orB c d a b

/-- R218. -/
def readXorB (w : Word32) : Dec Instr := do
  let c ← rctlF w
  let _ ← widthF (bits w 4 2) [.w1]
  let d ← dstF (rd w) .w1
  let a ← srcF (ra w) .w1
  let b ← srcF (rb w) .w1
  return Instr.xorB c d a b

/-- R218. -/
def readNotB (w : Word32) : Dec Instr := do
  let c ← rctlF w
  let _ ← widthF (bits w 4 2) [.w1]
  let d ← dstF (rd w) .w1
  let a ← srcF (ra w) .w1
  none48 (rb w)
  return Instr.notB c d a

/-- R220. -/
def readShl (w : Word32) : Dec Instr := do
  let c ← rctlF w
  let _ ← widthF (bits w 4 2) [.w1]
  let d ← dstF (rd w) .w1
  let a ← srcF (ra w) .w1
  let b ← srcF (rb w) .w1
  return Instr.shl c d a b

/-- R220. -/
def readShr (w : Word32) : Dec Instr := do
  let c ← rctlF w
  let _ ← widthF (bits w 4 2) [.w1]
  let d ← dstF (rd w) .w1
  let a ← srcF (ra w) .w1
  let b ← srcF (rb w) .w1
  return Instr.shr c d a b

/-- R220. -/
def readSar (w : Word32) : Dec Instr := do
  let c ← rctlF w
  let _ ← widthF (bits w 4 2) [.w1]
  let d ← dstF (rd w) .w1
  let a ← srcF (ra w) .w1
  let b ← srcF (rb w) .w1
  return Instr.sar c d a b

/-- R220. -/
def readRotl (w : Word32) : Dec Instr := do
  let c ← rctlF w
  let _ ← widthF (bits w 4 2) [.w1]
  let d ← dstF (rd w) .w1
  let a ← srcF (ra w) .w1
  let b ← srcF (rb w) .w1
  return Instr.rotl c d a b

/-- R218. -/
def readPopc (w : Word32) : Dec Instr := do
  let c ← rctlF w
  let _ ← widthF (bits w 4 2) [.w1]
  let d ← dstF (rd w) .w1
  let a ← srcF (ra w) .w1
  none48 (rb w)
  return Instr.popc c d a

/-- R218. -/
def readClz (w : Word32) : Dec Instr := do
  let c ← rctlF w
  let _ ← widthF (bits w 4 2) [.w1]
  let d ← dstF (rd w) .w1
  let a ← srcF (ra w) .w1
  none48 (rb w)
  return Instr.clz c d a

/-- R218. -/
def readBrev (w : Word32) : Dec Instr := do
  let c ← rctlF w
  let _ ← widthF (bits w 4 2) [.w1]
  let d ← dstF (rd w) .w1
  let a ← srcF (ra w) .w1
  none48 (rb w)
  return Instr.brev c d a

/-- R223. -/
def readIcmpEq (w : Word32) : Dec Instr := do
  let c ← rctlF w
  let _ ← widthF (bits w 4 2) [.w1]
  let p ← predF (rd w)
  let a ← srcF (ra w) .w1
  let b ← srcF (rb w) .w1
  return Instr.icmpEq c p a b

/-- R223. -/
def readIcmpNe (w : Word32) : Dec Instr := do
  let c ← rctlF w
  let _ ← widthF (bits w 4 2) [.w1]
  let p ← predF (rd w)
  let a ← srcF (ra w) .w1
  let b ← srcF (rb w) .w1
  return Instr.icmpNe c p a b

/-- R223. -/
def readIcmpLt (w : Word32) : Dec Instr := do
  let c ← rctlF w
  let _ ← widthF (bits w 4 2) [.w1]
  let p ← predF (rd w)
  let a ← srcF (ra w) .w1
  let b ← srcF (rb w) .w1
  return Instr.icmpLt c p a b

/-- R223. -/
def readIcmpLe (w : Word32) : Dec Instr := do
  let c ← rctlF w
  let _ ← widthF (bits w 4 2) [.w1]
  let p ← predF (rd w)
  let a ← srcF (ra w) .w1
  let b ← srcF (rb w) .w1
  return Instr.icmpLe c p a b

/-- R223. -/
def readIcmpLtUn (w : Word32) : Dec Instr := do
  let c ← rctlF w
  let _ ← widthF (bits w 4 2) [.w1]
  let p ← predF (rd w)
  let a ← srcF (ra w) .w1
  let b ← srcF (rb w) .w1
  return Instr.icmpLtUn c p a b

/-- R223. -/
def readIcmpLeUn (w : Word32) : Dec Instr := do
  let c ← rctlF w
  let _ ← widthF (bits w 4 2) [.w1]
  let p ← predF (rd w)
  let a ← srcF (ra w) .w1
  let b ← srcF (rb w) .w1
  return Instr.icmpLeUn c p a b

/-- R224. -/
def readFcmpEq (w : Word32) : Dec Instr := do
  let c ← rctlF w
  let _ ← widthF (bits w 4 2) [.w1]
  let p ← predF (rd w)
  let a ← srcF (ra w) .w1
  let b ← srcF (rb w) .w1
  return Instr.fcmpEq c p a b

/-- R224. -/
def readFcmpNe (w : Word32) : Dec Instr := do
  let c ← rctlF w
  let _ ← widthF (bits w 4 2) [.w1]
  let p ← predF (rd w)
  let a ← srcF (ra w) .w1
  let b ← srcF (rb w) .w1
  return Instr.fcmpNe c p a b

/-- R224. -/
def readFcmpLt (w : Word32) : Dec Instr := do
  let c ← rctlF w
  let _ ← widthF (bits w 4 2) [.w1]
  let p ← predF (rd w)
  let a ← srcF (ra w) .w1
  let b ← srcF (rb w) .w1
  return Instr.fcmpLt c p a b

/-- R224. -/
def readFcmpLe (w : Word32) : Dec Instr := do
  let c ← rctlF w
  let _ ← widthF (bits w 4 2) [.w1]
  let p ← predF (rd w)
  let a ← srcF (ra w) .w1
  let b ← srcF (rb w) .w1
  return Instr.fcmpLe c p a b

/-- R225. -/
def readPand (w : Word32) : Dec Instr := do
  let c ← rctlF w
  let _ ← widthF (bits w 4 2) [.w1]
  let p ← predF (rd w)
  let x ← predF (ra w)
  let y ← predF (rb w)
  return Instr.pand c p x y

/-- R225. -/
def readPor (w : Word32) : Dec Instr := do
  let c ← rctlF w
  let _ ← widthF (bits w 4 2) [.w1]
  let p ← predF (rd w)
  let x ← predF (ra w)
  let y ← predF (rb w)
  return Instr.por c p x y

/-- R225. -/
def readPxor (w : Word32) : Dec Instr := do
  let c ← rctlF w
  let _ ← widthF (bits w 4 2) [.w1]
  let p ← predF (rd w)
  let x ← predF (ra w)
  let y ← predF (rb w)
  return Instr.pxor c p x y

/-- R225. -/
def readPnot (w : Word32) : Dec Instr := do
  let c ← rctlF w
  let _ ← widthF (bits w 4 2) [.w1]
  let p ← predF (rd w)
  let x ← predF (ra w)
  zeroF (rb w)
  return Instr.pnot c p x

/-- R227. -/
def readFadd (w : Word32) : Dec Instr := do
  let c ← rctlF w
  let _ ← widthF (bits w 4 2) [.w1]
  let d ← dstF (rd w) .w1
  let a ← srcF (ra w) .w1
  let b ← srcF (rb w) .w1
  return Instr.fadd c (Rnd.ofCode (bits w 24 2)) d a b

/-- R227. -/
def readFsub (w : Word32) : Dec Instr := do
  let c ← rctlF w
  let _ ← widthF (bits w 4 2) [.w1]
  let d ← dstF (rd w) .w1
  let a ← srcF (ra w) .w1
  let b ← srcF (rb w) .w1
  return Instr.fsub c (Rnd.ofCode (bits w 24 2)) d a b

/-- R227. -/
def readFmul (w : Word32) : Dec Instr := do
  let c ← rctlF w
  let _ ← widthF (bits w 4 2) [.w1]
  let d ← dstF (rd w) .w1
  let a ← srcF (ra w) .w1
  let b ← srcF (rb w) .w1
  return Instr.fmul c (Rnd.ofCode (bits w 24 2)) d a b

/-- R230. -/
def readFdiv (w : Word32) : Dec Instr := do
  let c ← rctlF w
  let _ ← widthF (bits w 4 2) [.w1]
  let d ← dstF (rd w) .w1
  let a ← srcF (ra w) .w1
  let b ← srcF (rb w) .w1
  return Instr.fdiv c (Rnd.ofCode (bits w 24 2)) d a b

/-- R227. -/
def readFsqrt (w : Word32) : Dec Instr := do
  let c ← rctlF w
  let _ ← widthF (bits w 4 2) [.w1]
  let d ← dstF (rd w) .w1
  let a ← srcF (ra w) .w1
  let b ← srcF (rb w) .w1
  return Instr.fsqrt c (Rnd.ofCode (bits w 24 2)) d a b

/-- R227. -/
def readFrcp (w : Word32) : Dec Instr := do
  let c ← rctlF w
  let _ ← widthF (bits w 4 2) [.w1]
  let d ← dstF (rd w) .w1
  let a ← srcF (ra w) .w1
  let b ← srcF (rb w) .w1
  return Instr.frcp c (Rnd.ofCode (bits w 24 2)) d a b

/-- R228. -/
def readFmin (w : Word32) : Dec Instr := do
  let c ← rctlF w
  let _ ← widthF (bits w 4 2) [.w1]
  let d ← dstF (rd w) .w1
  let a ← srcF (ra w) .w1
  let b ← srcF (rb w) .w1
  return Instr.fmin c d a b

/-- R228. -/
def readFmax (w : Word32) : Dec Instr := do
  let c ← rctlF w
  let _ ← widthF (bits w 4 2) [.w1]
  let d ← dstF (rd w) .w1
  let a ← srcF (ra w) .w1
  let b ← srcF (rb w) .w1
  return Instr.fmax c d a b

/-- R228. -/
def readFexp2 (w : Word32) : Dec Instr := do
  let c ← rctlF w
  let _ ← widthF (bits w 4 2) [.w1]
  let d ← dstF (rd w) .w1
  let a ← srcF (ra w) .w1
  let b ← srcF (rb w) .w1
  return Instr.fexp2 c d a b

/-- R228. -/
def readFlog2 (w : Word32) : Dec Instr := do
  let c ← rctlF w
  let _ ← widthF (bits w 4 2) [.w1]
  let d ← dstF (rd w) .w1
  let a ← srcF (ra w) .w1
  let b ← srcF (rb w) .w1
  return Instr.flog2 c d a b

/-- R228. -/
def readFabs (w : Word32) : Dec Instr := do
  let c ← rctlF w
  let _ ← widthF (bits w 4 2) [.w1]
  let d ← dstF (rd w) .w1
  let a ← srcF (ra w) .w1
  let b ← srcF (rb w) .w1
  return Instr.fabs c d a b

/-- R228. -/
def readFneg (w : Word32) : Dec Instr := do
  let c ← rctlF w
  let _ ← widthF (bits w 4 2) [.w1]
  let d ← dstF (rd w) .w1
  let a ← srcF (ra w) .w1
  let b ← srcF (rb w) .w1
  return Instr.fneg c d a b

/-- R232. -/
def readFcvt (w : Word32) : Dec Instr := do
  let c ← rctlF w
  let _ ← widthF (bits w 4 2) [.w1]
  let d ← dstF (rd w) .w1
  let a ← srcF (ra w) .w1
  none48 (rb w)
  return Instr.fcvt c (Rnd.ofCode (bits w 24 2)) d a

/-- R232. -/
def readFtoi (w : Word32) : Dec Instr := do
  let c ← rctlF w
  let _ ← widthF (bits w 4 2) [.w1]
  let d ← dstF (rd w) .w1
  let a ← srcF (ra w) .w1
  none48 (rb w)
  return Instr.ftoi c (Rnd.ofCode (bits w 24 2)) d a

/-- R232. -/
def readItof (w : Word32) : Dec Instr := do
  let c ← rctlF w
  let _ ← widthF (bits w 4 2) [.w1]
  let d ← dstF (rd w) .w1
  let a ← srcF (ra w) .w1
  none48 (rb w)
  return Instr.itof c (Rnd.ofCode (bits w 24 2)) d a

/-- R232. -/
def readItofUn (w : Word32) : Dec Instr := do
  let c ← rctlF w
  let _ ← widthF (bits w 4 2) [.w1]
  let d ← dstF (rd w) .w1
  let a ← srcF (ra w) .w1
  none48 (rb w)
  return Instr.itofUn c (Rnd.ofCode (bits w 24 2)) d a

/-- R233. -/
def readIvmake (w : Word32) : Dec Instr := do
  let c ← rctlF w
  let _ ← widthF (bits w 4 2) [.w1]
  let d ← dstF (rd w) .w1
  let a ← srcF (ra w) .w1
  let b ← srcF (rb w) .w1
  return Instr.ivmake c d a b

/-- R233. -/
def readIvlo (w : Word32) : Dec Instr := do
  let c ← rctlF w
  let _ ← widthF (bits w 4 2) [.w1]
  let d ← dstF (rd w) .w1
  let a ← srcF (ra w) .w1
  none48 (rb w)
  return Instr.ivlo c d a

/-- R233. -/
def readIvhi (w : Word32) : Dec Instr := do
  let c ← rctlF w
  let _ ← widthF (bits w 4 2) [.w1]
  let d ← dstF (rd w) .w1
  let a ← srcF (ra w) .w1
  none48 (rb w)
  return Instr.ivhi c d a

/-- R233. -/
def readIvmeet (w : Word32) : Dec Instr := do
  let c ← rctlF w
  let _ ← widthF (bits w 4 2) [.w1]
  let d ← dstF (rd w) .w1
  let a ← srcF (ra w) .w1
  let b ← srcF (rb w) .w1
  return Instr.ivmeet c d a b

/-- R233. -/
def readIvjoin (w : Word32) : Dec Instr := do
  let c ← rctlF w
  let _ ← widthF (bits w 4 2) [.w1]
  let d ← dstF (rd w) .w1
  let a ← srcF (ra w) .w1
  let b ← srcF (rb w) .w1
  return Instr.ivjoin c d a b

/-- R234. -/
def readIvmid (w : Word32) : Dec Instr := do
  let c ← rctlF w
  let _ ← widthF (bits w 4 2) [.w1]
  let d ← dstF (rd w) .w1
  let a ← srcF (ra w) .w1
  none48 (rb w)
  return Instr.ivmid c d a

/-- R233. -/
def readIvwid (w : Word32) : Dec Instr := do
  let c ← rctlF w
  let _ ← widthF (bits w 4 2) [.w1]
  let d ← dstF (rd w) .w1
  let a ← srcF (ra w) .w1
  none48 (rb w)
  return Instr.ivwid c d a

/-- R235. -/
def readIvsplit (w : Word32) : Dec Instr := do
  let c ← rctlF w
  let _ ← widthF (bits w 4 2) [.w1]
  let d ← dstF (rd w) .w1
  let a ← srcF (ra w) .w1
  let p ← predF (rb w)
  lastF
  return Instr.ivsplit c d a p

/-- R210. -/
def readMov (w : Word32) : Dec Instr := do
  let c ← rctlF w
  let v ← widthF (bits w 4 2) [.w1, .w2, .w4, .w8]
  let d ← dstF (rd w) v
  let a ← srcF (ra w) v
  none48 (rb w)
  return Instr.mov c v d a

/-- R210. -/
def readRegFree (w : Word32) : Dec Instr := do
  let c ← rctlF w
  let v ← widthF (bits w 4 2) [.w1, .w2, .w4, .w8]
  none48 (rd w)
  let a ← namedSrcF (ra w) v
  none48 (rb w)
  return Instr.regFree c v a

/-- R203. -/
def readRegGrow (first : Bool) (w : Word32) : Dec Instr := do
  Dec.need first 0x06
  let c ← rctlF w
  let _ ← widthF (bits w 4 2) [.w1]
  none48 (rd w)
  let a ← srcF (ra w) .w1
  none48 (rb w)
  return Instr.regGrow c a

/-- R210. -/
def readMovi (w : Word32) : Dec Instr := do
  let d ← dstF (rd w) .w1
  none48 (ra w)
  return Instr.movi (Stall.ofCode (bits w 0 2)) d (imm w)

/-- R221. -/
def readIaddi (w : Word32) : Dec Instr := do
  let d ← dstF (rd w) .w1
  let a ← srcF (ra w) .w1
  return Instr.iaddi (Stall.ofCode (bits w 0 2)) d a (imm w)

/-- R221. -/
def readAndi (w : Word32) : Dec Instr := do
  let d ← dstF (rd w) .w1
  let a ← srcF (ra w) .w1
  return Instr.andi (Stall.ofCode (bits w 0 2)) d a (imm w)

/-- R221. -/
def readOri (w : Word32) : Dec Instr := do
  let d ← dstF (rd w) .w1
  let a ← srcF (ra w) .w1
  return Instr.ori (Stall.ofCode (bits w 0 2)) d a (imm w)

/-- R221. -/
def readXori (w : Word32) : Dec Instr := do
  let d ← dstF (rd w) .w1
  let a ← srcF (ra w) .w1
  return Instr.xori (Stall.ofCode (bits w 0 2)) d a (imm w)

/-- R221. -/
def readShli (w : Word32) : Dec Instr := do
  let d ← dstF (rd w) .w1
  let a ← srcF (ra w) .w1
  let i ← shiftF (imm w)
  return Instr.shli (Stall.ofCode (bits w 0 2)) d a i

/-- R221. -/
def readShri (w : Word32) : Dec Instr := do
  let d ← dstF (rd w) .w1
  let a ← srcF (ra w) .w1
  let i ← shiftF (imm w)
  return Instr.shri (Stall.ofCode (bits w 0 2)) d a i

/-- R221. -/
def readSari (w : Word32) : Dec Instr := do
  let d ← dstF (rd w) .w1
  let a ← srcF (ra w) .w1
  let i ← shiftF (imm w)
  return Instr.sari (Stall.ofCode (bits w 0 2)) d a i

/-- R210. -/
def readGetsr (w : Word32) : Dec Instr := do
  let d ← dstF (rd w) .w1
  none48 (ra w)
  let i ← sregF (imm w)
  return Instr.getsr (Stall.ofCode (bits w 0 2)) d i

/-- R227. -/
def readFma (w : Word32) : Dec Instr := do
  let d ← dstF (bits w 20 6) .w1
  let a ← srcF (bits w 14 6) .w1
  let b ← srcF (bits w 8 6) .w1
  let c ← srcF (bits w 2 6) .w1
  return Instr.fma (Stall.ofCode (bits w 0 2)) (Rnd.ofCode (bits w 26 2)) d a b c

/-- R222. -/
def readImad (w : Word32) : Dec Instr := do
  let d ← dstF (bits w 20 6) .w1
  let a ← srcF (bits w 14 6) .w1
  let b ← srcF (bits w 8 6) .w1
  let c ← srcF (bits w 2 6) .w1
  return Instr.imad (Stall.ofCode (bits w 0 2)) d a b c

/-- R222. -/
def readBfx (w : Word32) : Dec Instr := do
  let d ← dstF (bits w 20 6) .w1
  let a ← srcF (bits w 14 6) .w1
  let b ← srcF (bits w 8 6) .w1
  let c ← srcF (bits w 2 6) .w1
  return Instr.bfx (Stall.ofCode (bits w 0 2)) d a b c

/-- R222. -/
def readBfi (w : Word32) : Dec Instr := do
  let d ← dstF (bits w 20 6) .w1
  let a ← srcF (bits w 14 6) .w1
  let b ← srcF (bits w 8 6) .w1
  let c ← srcF (bits w 2 6) .w1
  return Instr.bfi (Stall.ofCode (bits w 0 2)) d a b c

/-- R226. -/
def readCsel (w : Word32) : Dec Instr := do
  let d ← dstF (bits w 20 6) .w1
  let a ← srcF (bits w 14 6) .w1
  let b ← srcF (bits w 8 6) .w1
  let p ← predF (bits w 2 6)
  return Instr.csel (Stall.ofCode (bits w 0 2)) d a b p

/-- R153. -/
def readLdS8 (w : Word32) : Dec Instr := do
  let _ ← widthF (bits w 2 2) [.w1]
  let d ← dstF (rd w) .w1
  let x ← srcF (bits w 4 6) .w1
  return Instr.ldS8 (Hint.ofCode (bits w 0 2)) d (recF w) x

/-- R153. -/
def readLdZ8 (w : Word32) : Dec Instr := do
  let _ ← widthF (bits w 2 2) [.w1]
  let d ← dstF (rd w) .w1
  let x ← srcF (bits w 4 6) .w1
  return Instr.ldZ8 (Hint.ofCode (bits w 0 2)) d (recF w) x

/-- R153. -/
def readLdS16 (w : Word32) : Dec Instr := do
  let _ ← widthF (bits w 2 2) [.w1]
  let d ← dstF (rd w) .w1
  let x ← srcF (bits w 4 6) .w1
  return Instr.ldS16 (Hint.ofCode (bits w 0 2)) d (recF w) x

/-- R153. -/
def readLdZ16 (w : Word32) : Dec Instr := do
  let _ ← widthF (bits w 2 2) [.w1]
  let d ← dstF (rd w) .w1
  let x ← srcF (bits w 4 6) .w1
  return Instr.ldZ16 (Hint.ofCode (bits w 0 2)) d (recF w) x

/-- R153. -/
def readLd32 (w : Word32) : Dec Instr := do
  let v ← widthF (bits w 2 2) [.w1, .w2, .w4, .w8]
  let d ← dstF (rd w) v
  let x ← srcF (bits w 4 6) .w1
  return Instr.ld32 v (Hint.ofCode (bits w 0 2)) d (recF w) x

/-- R153. -/
def readLd64 (w : Word32) : Dec Instr := do
  let v ← widthF (bits w 2 2) [.w1, .w2, .w4, .w8]
  let d ← dstF (rd w) v
  let x ← srcF (bits w 4 6) .w1
  return Instr.ld64 v (Hint.ofCode (bits w 0 2)) d (recF w) x

/-- R154. -/
def readSt8 (w : Word32) : Dec Instr := do
  let _ ← widthF (bits w 2 2) [.w1]
  let d ← srcF (rd w) .w1
  let x ← srcF (bits w 4 6) .w1
  return Instr.st8 (Hint.ofCode (bits w 0 2)) d (recF w) x

/-- R154. -/
def readSt16 (w : Word32) : Dec Instr := do
  let _ ← widthF (bits w 2 2) [.w1]
  let d ← srcF (rd w) .w1
  let x ← srcF (bits w 4 6) .w1
  return Instr.st16 (Hint.ofCode (bits w 0 2)) d (recF w) x

/-- R154. -/
def readSt32 (w : Word32) : Dec Instr := do
  let v ← widthF (bits w 2 2) [.w1, .w2, .w4, .w8]
  let d ← srcF (rd w) v
  let x ← srcF (bits w 4 6) .w1
  return Instr.st32 v (Hint.ofCode (bits w 0 2)) d (recF w) x

/-- R154. -/
def readSt64 (w : Word32) : Dec Instr := do
  let v ← widthF (bits w 2 2) [.w1, .w2, .w4, .w8]
  let d ← srcF (rd w) v
  let x ← srcF (bits w 4 6) .w1
  return Instr.st64 v (Hint.ofCode (bits w 0 2)) d (recF w) x

/-- R155. -/
def readLdAcq32 (w : Word32) : Dec Instr := do
  let v ← widthF (bits w 2 2) [.w1, .w2]
  let d ← dstF (rd w) v
  let x ← srcF (bits w 4 6) .w1
  return Instr.ldAcq32 v (Hint.ofCode (bits w 0 2)) d (recF w) x

/-- R155. -/
def readLdAcq64 (w : Word32) : Dec Instr := do
  let v ← widthF (bits w 2 2) [.w1, .w2]
  let d ← dstF (rd w) v
  let x ← srcF (bits w 4 6) .w1
  return Instr.ldAcq64 v (Hint.ofCode (bits w 0 2)) d (recF w) x

/-- R155. -/
def readStRel32 (w : Word32) : Dec Instr := do
  let v ← widthF (bits w 2 2) [.w1, .w2]
  let d ← srcF (rd w) v
  let x ← srcF (bits w 4 6) .w1
  return Instr.stRel32 v (Hint.ofCode (bits w 0 2)) d (recF w) x

/-- R155. -/
def readStRel64 (w : Word32) : Dec Instr := do
  let v ← widthF (bits w 2 2) [.w1, .w2]
  let d ← srcF (rd w) v
  let x ← srcF (bits w 4 6) .w1
  return Instr.stRel64 v (Hint.ofCode (bits w 0 2)) d (recF w) x

/-- R156. -/
def readLdiv32 (w : Word32) : Dec Instr := do
  let _ ← widthF (bits w 2 2) [.w1]
  let d ← dstF (rd w) .w1
  let x ← srcF (bits w 4 6) .w1
  return Instr.ldiv32 (Hint.ofCode (bits w 0 2)) d (recF w) x

/-- R156. -/
def readLdiv64 (w : Word32) : Dec Instr := do
  let _ ← widthF (bits w 2 2) [.w2]
  let d ← dstF (rd w) .w2
  let x ← srcF (bits w 4 6) .w1
  return Instr.ldiv64 (Hint.ofCode (bits w 0 2)) d (recF w) x

/-- R157. -/
def readStiv32 (w : Word32) : Dec Instr := do
  let _ ← widthF (bits w 2 2) [.w1]
  let d ← srcF (rd w) .w1
  let x ← srcF (bits w 4 6) .w1
  return Instr.stiv32 (Hint.ofCode (bits w 0 2)) d (recF w) x

/-- R157. -/
def readStiv64 (w : Word32) : Dec Instr := do
  let _ ← widthF (bits w 2 2) [.w2]
  let d ← pairF (rd w)
  let x ← srcF (bits w 4 6) .w1
  return Instr.stiv64 (Hint.ofCode (bits w 0 2)) d (recF w) x

/-- R158. -/
def readAtomAdd (w : Word32) : Dec Instr := do
  let _ ← widthF (bits w 2 2) [.w1]
  let d ← srcF (rd w) .w1
  let x ← srcF (bits w 4 6) .w1
  return Instr.atomAdd (Hint.ofCode (bits w 0 2)) d (recF w) x

/-- R158. -/
def readAtomMin (w : Word32) : Dec Instr := do
  let _ ← widthF (bits w 2 2) [.w1]
  let d ← srcF (rd w) .w1
  let x ← srcF (bits w 4 6) .w1
  return Instr.atomMin (Hint.ofCode (bits w 0 2)) d (recF w) x

/-- R158. -/
def readAtomMinUn (w : Word32) : Dec Instr := do
  let _ ← widthF (bits w 2 2) [.w1]
  let d ← srcF (rd w) .w1
  let x ← srcF (bits w 4 6) .w1
  return Instr.atomMinUn (Hint.ofCode (bits w 0 2)) d (recF w) x

/-- R158. -/
def readAtomMax (w : Word32) : Dec Instr := do
  let _ ← widthF (bits w 2 2) [.w1]
  let d ← srcF (rd w) .w1
  let x ← srcF (bits w 4 6) .w1
  return Instr.atomMax (Hint.ofCode (bits w 0 2)) d (recF w) x

/-- R158. -/
def readAtomMaxUn (w : Word32) : Dec Instr := do
  let _ ← widthF (bits w 2 2) [.w1]
  let d ← srcF (rd w) .w1
  let x ← srcF (bits w 4 6) .w1
  return Instr.atomMaxUn (Hint.ofCode (bits w 0 2)) d (recF w) x

/-- R158. -/
def readAtomAnd (w : Word32) : Dec Instr := do
  let _ ← widthF (bits w 2 2) [.w1]
  let d ← srcF (rd w) .w1
  let x ← srcF (bits w 4 6) .w1
  return Instr.atomAnd (Hint.ofCode (bits w 0 2)) d (recF w) x

/-- R158. -/
def readAtomOr (w : Word32) : Dec Instr := do
  let _ ← widthF (bits w 2 2) [.w1]
  let d ← srcF (rd w) .w1
  let x ← srcF (bits w 4 6) .w1
  return Instr.atomOr (Hint.ofCode (bits w 0 2)) d (recF w) x

/-- R158. -/
def readAtomXor (w : Word32) : Dec Instr := do
  let _ ← widthF (bits w 2 2) [.w1]
  let d ← srcF (rd w) .w1
  let x ← srcF (bits w 4 6) .w1
  return Instr.atomXor (Hint.ofCode (bits w 0 2)) d (recF w) x

/-- R158. -/
def readAtomXchg (w : Word32) : Dec Instr := do
  let _ ← widthF (bits w 2 2) [.w1]
  let d ← srcF (rd w) .w1
  let x ← srcF (bits w 4 6) .w1
  return Instr.atomXchg (Hint.ofCode (bits w 0 2)) d (recF w) x

/-- R158. -/
def readAtomCas (w : Word32) : Dec Instr := do
  let _ ← widthF (bits w 2 2) [.w2]
  let d ← pairF (rd w)
  let x ← srcF (bits w 4 6) .w1
  return Instr.atomCas (Hint.ofCode (bits w 0 2)) d (recF w) x

/-- R158. -/
def readRedAdd (w : Word32) : Dec Instr := do
  let _ ← widthF (bits w 2 2) [.w1]
  let d ← srcF (rd w) .w1
  let x ← srcF (bits w 4 6) .w1
  return Instr.redAdd (Hint.ofCode (bits w 0 2)) d (recF w) x

/-- R158. -/
def readRedMin (w : Word32) : Dec Instr := do
  let _ ← widthF (bits w 2 2) [.w1]
  let d ← srcF (rd w) .w1
  let x ← srcF (bits w 4 6) .w1
  return Instr.redMin (Hint.ofCode (bits w 0 2)) d (recF w) x

/-- R158. -/
def readRedMinUn (w : Word32) : Dec Instr := do
  let _ ← widthF (bits w 2 2) [.w1]
  let d ← srcF (rd w) .w1
  let x ← srcF (bits w 4 6) .w1
  return Instr.redMinUn (Hint.ofCode (bits w 0 2)) d (recF w) x

/-- R158. -/
def readRedMax (w : Word32) : Dec Instr := do
  let _ ← widthF (bits w 2 2) [.w1]
  let d ← srcF (rd w) .w1
  let x ← srcF (bits w 4 6) .w1
  return Instr.redMax (Hint.ofCode (bits w 0 2)) d (recF w) x

/-- R158. -/
def readRedMaxUn (w : Word32) : Dec Instr := do
  let _ ← widthF (bits w 2 2) [.w1]
  let d ← srcF (rd w) .w1
  let x ← srcF (bits w 4 6) .w1
  return Instr.redMaxUn (Hint.ofCode (bits w 0 2)) d (recF w) x

/-- R158. -/
def readRedAnd (w : Word32) : Dec Instr := do
  let _ ← widthF (bits w 2 2) [.w1]
  let d ← srcF (rd w) .w1
  let x ← srcF (bits w 4 6) .w1
  return Instr.redAnd (Hint.ofCode (bits w 0 2)) d (recF w) x

/-- R158. -/
def readRedOr (w : Word32) : Dec Instr := do
  let _ ← widthF (bits w 2 2) [.w1]
  let d ← srcF (rd w) .w1
  let x ← srcF (bits w 4 6) .w1
  return Instr.redOr (Hint.ofCode (bits w 0 2)) d (recF w) x

/-- R158. -/
def readRedXor (w : Word32) : Dec Instr := do
  let _ ← widthF (bits w 2 2) [.w1]
  let d ← srcF (rd w) .w1
  let x ← srcF (bits w 4 6) .w1
  return Instr.redXor (Hint.ofCode (bits w 0 2)) d (recF w) x

/-- R159. -/
def readPf (w : Word32) : Dec Instr := do
  let _ ← widthF (bits w 2 2) [.w1]
  none48 (rd w)
  let x ← srcF (bits w 4 6) .w1
  return Instr.pf (Hint.ofCode (bits w 0 2)) (recF w) x

/-- R160. -/
def readQpush (w : Word32) : Dec Instr := do
  let v ← widthF (bits w 2 2) [.w1, .w2, .w4, .w8]
  let d ← srcF (rd w) v
  let fq ← fifoF (bits w 10 8)
  none48 (bits w 4 6)
  return Instr.qpush v (Hint.ofCode (bits w 0 2)) d fq

/-- R160. -/
def readQpop (w : Word32) : Dec Instr := do
  let v ← widthF (bits w 2 2) [.w1, .w2, .w4, .w8]
  let d ← dstF (rd w) v
  let fq ← fifoF (bits w 10 8)
  none48 (bits w 4 6)
  return Instr.qpop v (Hint.ofCode (bits w 0 2)) d fq

/-- R160. -/
def readQpopNb (w : Word32) : Dec Instr := do
  let v ← widthF (bits w 2 2) [.w1, .w2, .w4, .w8]
  let d ← dstF (rd w) v
  let fq ← fifoF (bits w 10 8)
  let p ← predF (bits w 4 6)
  return Instr.qpopNb v (Hint.ofCode (bits w 0 2)) d fq p

/-- R162. -/
def readSigin (w : Word32) : Dec Instr := do
  let _ ← widthF (bits w 2 2) [.w2]
  let d ← pairF (rd w)
  none48 (bits w 4 6)
  return Instr.sigin (Hint.ofCode (bits w 0 2)) d (recF w)

/-- R163. -/
def readRecRd (w : Word32) : Dec Instr := do
  let v ← widthF (bits w 2 2) [.w1, .w2, .w4, .w8]
  let d ← dstF (rd w) v
  let x ← srcF (bits w 4 6) .w1
  return Instr.recRd v (Hint.ofCode (bits w 0 2)) d (recF w) x

/-- R163. -/
def readRecWr (w : Word32) : Dec Instr := do
  let v ← widthF (bits w 2 2) [.w1, .w2, .w4, .w8]
  let d ← srcF (rd w) v
  let x ← srcF (bits w 4 6) .w1
  return Instr.recWr v (Hint.ofCode (bits w 0 2)) d (recF w) x

/-- R327. -/
def readLcload (w : Word32) : Dec Instr := do
  let _ ← widthF (bits w 2 2) [.w1]
  let d ← dstF (rd w) .w1
  let x ← srcF (bits w 4 6) .w1
  return Instr.lcload (Hint.ofCode (bits w 0 2)) d (recF w) x

/-- R161. -/
def readBankMode (w : Word32) : Dec Instr := do
  none48 (rd w)
  none48 (ra w)
  let i ← bankF (imm w)
  return Instr.bankMode (Stall.ofCode (bits w 0 2)) i.1 i.2

/-- R284. -/
def readAcq (w : Word32) : Dec Instr := do
  let c ← rctlF w
  let _ ← widthF (bits w 4 2) [.w1]
  none48 (rd w)
  none48 (ra w)
  none48 (rb w)
  return Instr.acq c

/-- R284. -/
def readRel (w : Word32) : Dec Instr := do
  let c ← rctlF w
  let _ ← widthF (bits w 4 2) [.w1]
  none48 (rd w)
  none48 (ra w)
  none48 (rb w)
  return Instr.rel c

/-- R284. -/
def readAcqrel (w : Word32) : Dec Instr := do
  let c ← rctlF w
  let _ ← widthF (bits w 4 2) [.w1]
  none48 (rd w)
  none48 (ra w)
  none48 (rb w)
  return Instr.acqrel c

/-- R110. -/
def readSnapOpen (w : Word32) : Dec Instr := do
  let _ ← widthF (bits w 2 2) [.w1]
  zeroF (bits w 0 2)
  let d ← dstF (rd w) .w1
  zeroF (bits w 10 8)
  let x ← srcF (bits w 4 6) .w1
  return Instr.snapOpen d x

/-- R111. -/
def readSnapClose (w : Word32) : Dec Instr := do
  let _ ← widthF (bits w 2 2) [.w1]
  zeroF (bits w 0 2)
  none48 (rd w)
  zeroF (bits w 10 8)
  none48 (bits w 4 6)
  return Instr.snapClose 

/-- R110. -/
def readTxb (w : Word32) : Dec Instr := do
  let _ ← widthF (bits w 2 2) [.w1]
  zeroF (bits w 0 2)
  let d ← dstF (rd w) .w1
  zeroF (bits w 10 8)
  let x ← srcF (bits w 4 6) .w1
  return Instr.txb d x

/-- R112. -/
def readTxc (w : Word32) : Dec Instr := do
  let _ ← widthF (bits w 2 2) [.w1]
  zeroF (bits w 0 2)
  let p ← predF (rd w)
  zeroF (bits w 10 8)
  none48 (bits w 4 6)
  return Instr.txc p

/-- R113. -/
def readTxa (w : Word32) : Dec Instr := do
  let _ ← widthF (bits w 2 2) [.w1]
  zeroF (bits w 0 2)
  none48 (rd w)
  zeroF (bits w 10 8)
  let x ← srcF (bits w 4 6) .w1
  return Instr.txa x

/-- R114. -/
def readTxchk (w : Word32) : Dec Instr := do
  let _ ← widthF (bits w 2 2) [.w1]
  zeroF (bits w 0 2)
  let p ← predF (rd w)
  zeroF (bits w 10 8)
  none48 (bits w 4 6)
  return Instr.txchk p

/-- R115. -/
def readVpub (w : Word32) : Dec Instr := do
  let _ ← widthF (bits w 2 2) [.w1]
  zeroF (bits w 0 2)
  let d ← dstF (rd w) .w1
  none48 (bits w 4 6)
  return Instr.vpub d (recF w)

/-- R304. -/
def readBr (w : Word32) : Dec Instr := do
  Dec.need (bits w 19 2 != 0 || bits w 21 3 == 0) 0x06
  return Instr.br (bits w 21 3).toFin (Cond.ofCode (bits w 19 2)) (bits w 0 19)

/-- R304. -/
def readBr3 (w : Word32) : Dec Instr := do
  zeroF (bits w 19 2)
  let f ← targetF
  let u ← targetF
  return Instr.br3 (bits w 21 3).toFin (bits w 0 19) f u

/-- R304. -/
def readCall (w : Word32) : Dec Instr := do
  Dec.need (bits w 19 2 != 0 || bits w 21 3 == 0) 0x06
  return Instr.call (bits w 21 3).toFin (Cond.ofCode (bits w 19 2)) (bits w 0 19)

/-- R304. -/
def readBrt (w : Word32) : Dec Instr := do
  let c ← rctlF w
  let _ ← widthF (bits w 4 2) [.w1]
  zeroF (if rd w = 0 then 1#1 else 0#1)
  let a ← srcF (ra w) .w1
  none48 (rb w)
  let ts ← targetsF (rd w).toNat
  return Instr.brt c a ts

/-- R304. -/
def readJmp (w : Word32) : Dec Instr := do
  let c ← rctlF w
  let _ ← widthF (bits w 4 2) [.w1]
  none48 (rd w)
  let a ← srcF (ra w) .w1
  none48 (rb w)
  return Instr.jmp c a

/-- R304. -/
def readRet (w : Word32) : Dec Instr := do
  let c ← rctlF w
  let _ ← widthF (bits w 4 2) [.w1]
  none48 (rd w)
  let a ← srcF (ra w) .w1
  none48 (rb w)
  return Instr.ret c a

/-- R304. -/
def readExitT (w : Word32) : Dec Instr := do
  let c ← rctlF w
  let _ ← widthF (bits w 4 2) [.w1]
  none48 (rd w)
  none48 (ra w)
  none48 (rb w)
  return Instr.exitT c

/-- R304. -/
def readNop (w : Word32) : Dec Instr := do
  let c ← rctlF w
  let _ ← widthF (bits w 4 2) [.w1]
  none48 (rd w)
  none48 (ra w)
  none48 (rb w)
  return Instr.nop c

/-- R290. -/
def readReform (w : Word32) : Dec Instr := do
  let c ← rctlF w
  let _ ← widthF (bits w 4 2) [.w1]
  none48 (rd w)
  none48 (ra w)
  none48 (rb w)
  lastF
  return Instr.reform c

/-- R307. -/
def readSbarEnrol (w : Word32) : Dec Instr := do
  none48 (rd w)
  none48 (ra w)
  let i ← sbarF (imm w)
  return Instr.sbarEnrol (Stall.ofCode (bits w 0 2)) i

/-- R295. -/
def readSbarJoin (w : Word32) : Dec Instr := do
  none48 (rd w)
  none48 (ra w)
  zeroF (imm w)
  lastF
  return Instr.sbarJoin (Stall.ofCode (bits w 0 2))

/-- R300. -/
def readBarArrive (w : Word32) : Dec Instr := do
  none48 (rd w)
  let a ← srcF (ra w) .w1
  let i ← barF (imm w)
  return Instr.barArrive (Stall.ofCode (bits w 0 2)) a i

/-- R300. -/
def readBarWait (w : Word32) : Dec Instr := do
  none48 (rd w)
  none48 (ra w)
  let i ← barF (imm w)
  return Instr.barWait (Stall.ofCode (bits w 0 2)) i

/-- R300. -/
def readBarSync (w : Word32) : Dec Instr := do
  none48 (rd w)
  let a ← srcF (ra w) .w1
  let i ← barF (imm w)
  return Instr.barSync (Stall.ofCode (bits w 0 2)) a i

/-- R310. -/
def readShflIdx (first : Bool) (w : Word32) : Dec Instr := do
  Dec.need first 0x06
  let c ← rctlF w
  let _ ← widthF (bits w 4 2) [.w1]
  let d ← dstF (rd w) .w1
  let a ← srcF (ra w) .w1
  let b ← srcF (rb w) .w1
  return Instr.shflIdx c d a b

/-- R310. -/
def readShflUp (first : Bool) (w : Word32) : Dec Instr := do
  Dec.need first 0x06
  let c ← rctlF w
  let _ ← widthF (bits w 4 2) [.w1]
  let d ← dstF (rd w) .w1
  let a ← srcF (ra w) .w1
  let b ← srcF (rb w) .w1
  return Instr.shflUp c d a b

/-- R310. -/
def readShflDown (first : Bool) (w : Word32) : Dec Instr := do
  Dec.need first 0x06
  let c ← rctlF w
  let _ ← widthF (bits w 4 2) [.w1]
  let d ← dstF (rd w) .w1
  let a ← srcF (ra w) .w1
  let b ← srcF (rb w) .w1
  return Instr.shflDown c d a b

/-- R310. -/
def readShflXor (first : Bool) (w : Word32) : Dec Instr := do
  Dec.need first 0x06
  let c ← rctlF w
  let _ ← widthF (bits w 4 2) [.w1]
  let d ← dstF (rd w) .w1
  let a ← srcF (ra w) .w1
  let b ← srcF (rb w) .w1
  return Instr.shflXor c d a b

/-- R310. -/
def readVoteAll (first : Bool) (w : Word32) : Dec Instr := do
  Dec.need first 0x06
  let c ← rctlF w
  let _ ← widthF (bits w 4 2) [.w1]
  let p ← predF (rd w)
  let x ← predF (ra w)
  none48 (rb w)
  return Instr.voteAll c p x

/-- R310. -/
def readVoteAny (first : Bool) (w : Word32) : Dec Instr := do
  Dec.need first 0x06
  let c ← rctlF w
  let _ ← widthF (bits w 4 2) [.w1]
  let p ← predF (rd w)
  let x ← predF (ra w)
  none48 (rb w)
  return Instr.voteAny c p x

/-- R310. -/
def readVoteBallot (first : Bool) (w : Word32) : Dec Instr := do
  Dec.need first 0x06
  let c ← rctlF w
  let _ ← widthF (bits w 4 2) [.w1]
  let d ← dstF (rd w) .w1
  let x ← predF (ra w)
  none48 (rb w)
  return Instr.voteBallot c d x

/-- R310. -/
def readGredAdd (first : Bool) (w : Word32) : Dec Instr := do
  Dec.need first 0x06
  let c ← rctlF w
  let _ ← widthF (bits w 4 2) [.w1]
  let d ← dstF (rd w) .w1
  let a ← srcF (ra w) .w1
  none48 (rb w)
  return Instr.gredAdd c d a

/-- R310. -/
def readGredMin (first : Bool) (w : Word32) : Dec Instr := do
  Dec.need first 0x06
  let c ← rctlF w
  let _ ← widthF (bits w 4 2) [.w1]
  let d ← dstF (rd w) .w1
  let a ← srcF (ra w) .w1
  none48 (rb w)
  return Instr.gredMin c d a

/-- R310. -/
def readGredMax (first : Bool) (w : Word32) : Dec Instr := do
  Dec.need first 0x06
  let c ← rctlF w
  let _ ← widthF (bits w 4 2) [.w1]
  let d ← dstF (rd w) .w1
  let a ← srcF (ra w) .w1
  none48 (rb w)
  return Instr.gredMax c d a

/-- R310. -/
def readGredAnd (first : Bool) (w : Word32) : Dec Instr := do
  Dec.need first 0x06
  let c ← rctlF w
  let _ ← widthF (bits w 4 2) [.w1]
  let d ← dstF (rd w) .w1
  let a ← srcF (ra w) .w1
  none48 (rb w)
  return Instr.gredAnd c d a

/-- R310. -/
def readGredOr (first : Bool) (w : Word32) : Dec Instr := do
  Dec.need first 0x06
  let c ← rctlF w
  let _ ← widthF (bits w 4 2) [.w1]
  let d ← dstF (rd w) .w1
  let a ← srcF (ra w) .w1
  none48 (rb w)
  return Instr.gredOr c d a

/-- R310. -/
def readGredXor (first : Bool) (w : Word32) : Dec Instr := do
  Dec.need first 0x06
  let c ← rctlF w
  let _ ← widthF (bits w 4 2) [.w1]
  let d ← dstF (rd w) .w1
  let a ← srcF (ra w) .w1
  none48 (rb w)
  return Instr.gredXor c d a

/-- R310. -/
def readBcast (first : Bool) (w : Word32) : Dec Instr := do
  Dec.need first 0x06
  let c ← rctlF w
  let _ ← widthF (bits w 4 2) [.w1]
  let d ← dstF (rd w) .w1
  let a ← srcF (ra w) .w1
  let b ← srcF (rb w) .w1
  return Instr.bcast c d a b

/-- R328. -/
def readTryT (w : Word32) : Dec Instr := do
  let c ← rctlF w
  let _ ← widthF (bits w 4 2) [.w1]
  let d ← quadF (rd w)
  let a ← srcF (ra w) .w1
  let b ← srcF (rb w) .w1
  lastF
  return Instr.tryT c d a b

/-- R329. -/
def readTend (w : Word32) : Dec Instr := do
  let c ← rctlF w
  let _ ← widthF (bits w 4 2) [.w1]
  none48 (rd w)
  none48 (ra w)
  none48 (rb w)
  return Instr.tend c

/-- R330. -/
def readFold (w : Word32) : Dec Instr := do
  let c ← rctlF w
  let _ ← widthF (bits w 4 2) [.w1]
  none48 (rd w)
  let a ← srcF (ra w) .w1
  none48 (rb w)
  return Instr.fold c a

/-- R331. -/
def readFuel (w : Word32) : Dec Instr := do
  let c ← rctlF w
  let _ ← widthF (bits w 4 2) [.w1]
  let d ← dstF (rd w) .w1
  let a ← srcF (ra w) .w1
  none48 (rb w)
  return Instr.fuel c d a

/-- R260. -/
def readMma (first : Bool) (w : Word32) : Dec Instr := do
  Dec.need first 0x06
  let e ← Dec.word
  let d ← dstF (rd w) .w1
  zeroF (bits e 2 2)
  zeroF (bits e 1 1)
  let a ← srcF (ra w) .w1
  let b ← srcF (rb w) .w1
  let c ← srcF (bits w 0 6) .w1
  return Instr.mma d (bits e 12 4).toFin (bits e 24 8).toFin (bits e 16 8).toFin (bits e 8 4) (bits e 4 4) (bits e 0 1 == 1) a b c

/-- R260. -/
def readMmaSp (first : Bool) (w : Word32) : Dec Instr := do
  Dec.need first 0x06
  let e ← Dec.word
  let d ← dstF (rd w) .w1
  let sp ← sparseF (bits e 2 2)
  zeroF (bits e 1 1)
  let a ← srcF (ra w) .w1
  let b ← srcF (rb w) .w1
  let c ← srcF (bits w 0 6) .w1
  return Instr.mmaSp d (bits e 12 4).toFin (bits e 24 8).toFin (bits e 16 8).toFin (bits e 8 4) (bits e 4 4) sp (bits e 0 1 == 1) a b c

/-- R261. -/
def readAccSwap (first : Bool) (w : Word32) : Dec Instr := do
  Dec.need first 0x06
  none48 (rd w)
  none48 (ra w)
  let i ← u4F (imm w)
  return Instr.accSwap (Stall.ofCode (bits w 0 2)) i

/-- R261. -/
def readAccZero (first : Bool) (w : Word32) : Dec Instr := do
  Dec.need first 0x06
  none48 (rd w)
  none48 (ra w)
  let i ← u4F (imm w)
  return Instr.accZero (Stall.ofCode (bits w 0 2)) i

/-- R262. -/
def readAccLd (first : Bool) (w : Word32) : Dec Instr := do
  Dec.need first 0x06
  let e ← Dec.word
  let d ← dstF (rd w) .w1
  zeroF (bits e 16 8)
  zeroF (bits e 0 4)
  let a ← srcF (ra w) .w1
  none48 (rb w)
  let c ← srcF (bits w 0 6) .w1
  return Instr.accLd d (bits e 12 4).toFin (bits e 24 8).toFin (bits e 8 4) (bits e 4 4) a c

/-- R262. -/
def readAccSt (first : Bool) (w : Word32) : Dec Instr := do
  Dec.need first 0x06
  let e ← Dec.word
  let d ← dstF (rd w) .w1
  zeroF (bits e 16 8)
  zeroF (bits e 0 4)
  let a ← srcF (ra w) .w1
  none48 (rb w)
  let c ← srcF (bits w 0 6) .w1
  return Instr.accSt d (bits e 12 4).toFin (bits e 24 8).toFin (bits e 8 4) (bits e 4 4) a c

/-- R175. -/
def readCopy (w : Word32) : Dec Instr := do
  let e ← Dec.word
  let d ← dstF (rd w) .w1
  zeroF (bits e 0 16)
  let a ← srcF (ra w) .w1
  let b ← srcF (rb w) .w1
  let c ← srcF (bits w 0 6) .w1
  return Instr.copy d (bits e 24 8).toFin (bits e 16 8).toFin a b c

/-- R177. -/
def readSlabld (w : Word32) : Dec Instr := do
  let e ← Dec.word
  let d ← dstF (rd w) .w1
  zeroF (bits e 24 8)
  zeroF (bits e 0 16)
  let a ← srcF (ra w) .w1
  let b ← srcF (rb w) .w1
  let c ← srcF (bits w 0 6) .w1
  return Instr.slabld d (bits e 16 8).toFin a b c

/-- R180. -/
def readXform (w : Word32) : Dec Instr := do
  let e ← Dec.word
  let d ← dstF (rd w) .w1
  let t ← xctlF (bits e 0 16)
  let a ← srcF (ra w) .w1
  let b ← srcF (rb w) .w1
  none48 (bits w 0 6)
  return Instr.xform d (bits e 24 8).toFin (bits e 16 8).toFin t a b

/-- R183. -/
def readFutTest (w : Word32) : Dec Instr := do
  let c ← rctlF w
  let _ ← widthF (bits w 4 2) [.w1]
  let d ← dstF (rd w) .w1
  let a ← srcF (ra w) .w1
  let p ← predF (rb w)
  return Instr.futTest c d a p

/-- R184. -/
def readFutCancel (w : Word32) : Dec Instr := do
  let c ← rctlF w
  let _ ← widthF (bits w 4 2) [.w1]
  none48 (rd w)
  let a ← srcF (ra w) .w1
  none48 (rb w)
  return Instr.futCancel c a

/-- R185. -/
def readDrain (w : Word32) : Dec Instr := do
  none48 (rd w)
  none48 (ra w)
  let i ← drainF (imm w)
  return Instr.drain (Stall.ofCode (bits w 0 2)) i

/-- R352. -/
def readJobPush (w : Word32) : Dec Instr := do
  let _ ← widthF (bits w 2 2) [.w1]
  zeroF (bits w 0 2)
  let d ← dstF (rd w) .w1
  let x ← srcF (bits w 4 6) .w1
  return Instr.jobPush d (recF w) x

/-- R353. -/
def readJobDone (w : Word32) : Dec Instr := do
  let c ← rctlF w
  let _ ← widthF (bits w 4 2) [.w1]
  none48 (rd w)
  let a ← srcF (ra w) .w1
  none48 (rb w)
  lastF
  return Instr.jobDone c a

/-- R353. -/
def readYield (w : Word32) : Dec Instr := do
  let c ← rctlF w
  let _ ← widthF (bits w 4 2) [.w1]
  none48 (rd w)
  none48 (ra w)
  none48 (rb w)
  lastF
  return Instr.yield c

/-- R352. -/
def readLaunch (w : Word32) : Dec Instr := do
  let _ ← widthF (bits w 2 2) [.w1]
  zeroF (bits w 0 2)
  let d ← dstF (rd w) .w1
  let x ← srcF (bits w 4 6) .w1
  return Instr.launch d (recF w) x

/-- R354. -/
def readQstat (w : Word32) : Dec Instr := do
  let c ← rctlF w
  let _ ← widthF (bits w 4 2) [.w1]
  let d ← dstF (rd w) .w1
  let a ← srcF (ra w) .w1
  let b ← srcF (rb w) .w1
  return Instr.qstat c d a b

/-- R372. -/
def readTrap (w : Word32) : Dec Instr := do
  none48 (rd w)
  let a ← srcF (ra w) .w1
  let i ← u4F (imm w)
  return Instr.trap (Stall.ofCode (bits w 0 2)) a i

/-- R373. -/
def readRft (w : Word32) : Dec Instr := do
  let c ← rctlF w
  let _ ← widthF (bits w 4 2) [.w1]
  let d ← dstF (rd w) .w1
  let a ← srcF (ra w) .w1
  none48 (rb w)
  return Instr.rft c d a

/-- R374. -/
def readHalt (w : Word32) : Dec Instr := do
  let c ← rctlF w
  let _ ← widthF (bits w 4 2) [.w1]
  none48 (rd w)
  let a ← srcF (ra w) .w1
  none48 (rb w)
  return Instr.halt c a

/-- R375. -/
def readCtxSave (w : Word32) : Dec Instr := do
  let _ ← widthF (bits w 2 2) [.w1]
  let d ← dstF (rd w) .w1
  let x ← srcF (bits w 4 6) .w1
  lastF
  return Instr.ctxSave (Hint.ofCode (bits w 0 2)) d (recF w) x

/-- R375. -/
def readCtxLoad (w : Word32) : Dec Instr := do
  let _ ← widthF (bits w 2 2) [.w1]
  none48 (rd w)
  let x ← srcF (bits w 4 6) .w1
  lastF
  return Instr.ctxLoad (Hint.ofCode (bits w 0 2)) (recF w) x

/-- R376. -/
def readTime (w : Word32) : Dec Instr := do
  let c ← rctlF w
  let _ ← widthF (bits w 4 2) [.w1]
  let d ← dstF (rd w) .w1
  let cyc ← timeF (ra w)
  none48 (rb w)
  return Instr.time c d cyc

/-- R210. -/
def readSetsr (w : Word32) : Dec Instr := do
  none48 (rd w)
  let a ← srcF (ra w) .w1
  let i ← sregWF (imm w)
  return Instr.setsr (Stall.ofCode (bits w 0 2)) a i

/-! ### The opcode map (R42) -/

/-- Opcodes of the lane class. -/
def opLane (first : Bool) (w : Word32) (op : Nat) : Option (Dec Instr) :=
  if op ≥ 0xE0 then
    match (bits w 26 3).toNat with
    | 0 | 1 | 2 | 3 => some (readFma w)
    | 4 => some (readImad w)
    | 5 => some (readBfx w)
    | 6 => some (readBfi w)
    | 7 => some (readCsel w)
    | _ => none
  else
  match op with
  | 0x00 => some (readIadd w)
  | 0x01 => some (readIsub w)
  | 0x02 => some (readImul w)
  | 0x03 => some (readImulhi w)
  | 0x04 => some (readImulhiUn w)
  | 0x05 => some (readIdiv w)
  | 0x06 => some (readIdivUn w)
  | 0x07 => some (readIrem w)
  | 0x08 => some (readIremUn w)
  | 0x09 => some (readImin w)
  | 0x0A => some (readIminUn w)
  | 0x0B => some (readImax w)
  | 0x0C => some (readImaxUn w)
  | 0x0D => some (readIabs w)
  | 0x0E => some (readIneg w)
  | 0x10 => some (readAndB w)
  | 0x11 => some (readOrB w)
  | 0x12 => some (readXorB w)
  | 0x13 => some (readNotB w)
  | 0x14 => some (readShl w)
  | 0x15 => some (readShr w)
  | 0x16 => some (readSar w)
  | 0x17 => some (readRotl w)
  | 0x18 => some (readPopc w)
  | 0x19 => some (readClz w)
  | 0x1A => some (readBrev w)
  | 0x20 => some (readIcmpEq w)
  | 0x21 => some (readIcmpNe w)
  | 0x22 => some (readIcmpLt w)
  | 0x23 => some (readIcmpLe w)
  | 0x24 => some (readIcmpLtUn w)
  | 0x25 => some (readIcmpLeUn w)
  | 0x28 => some (readFcmpEq w)
  | 0x29 => some (readFcmpNe w)
  | 0x2A => some (readFcmpLt w)
  | 0x2B => some (readFcmpLe w)
  | 0x2C => some (readPand w)
  | 0x2D => some (readPor w)
  | 0x2E => some (readPxor w)
  | 0x2F => some (readPnot w)
  | 0x40 | 0x41 | 0x42 | 0x43 => some (readFadd w)
  | 0x44 | 0x45 | 0x46 | 0x47 => some (readFsub w)
  | 0x48 | 0x49 | 0x4A | 0x4B => some (readFmul w)
  | 0x4C | 0x4D | 0x4E | 0x4F => some (readFdiv w)
  | 0x50 | 0x51 | 0x52 | 0x53 => some (readFsqrt w)
  | 0x54 | 0x55 | 0x56 | 0x57 => some (readFrcp w)
  | 0x58 => some (readFmin w)
  | 0x59 => some (readFmax w)
  | 0x5A => some (readFexp2 w)
  | 0x5B => some (readFlog2 w)
  | 0x5C => some (readFabs w)
  | 0x5D => some (readFneg w)
  | 0x60 | 0x61 | 0x62 | 0x63 => some (readFcvt w)
  | 0x64 | 0x65 | 0x66 | 0x67 => some (readFtoi w)
  | 0x68 | 0x69 | 0x6A | 0x6B => some (readItof w)
  | 0x6C | 0x6D | 0x6E | 0x6F => some (readItofUn w)
  | 0x70 => some (readIvmake w)
  | 0x71 => some (readIvlo w)
  | 0x72 => some (readIvhi w)
  | 0x73 => some (readIvmeet w)
  | 0x74 => some (readIvjoin w)
  | 0x75 => some (readIvmid w)
  | 0x76 => some (readIvwid w)
  | 0x77 => some (readIvsplit w)
  | 0x78 => some (readMov w)
  | 0x79 => some (readRegFree w)
  | 0x7A => some (readRegGrow first w)
  | 0x80 => some (readMovi w)
  | 0x81 => some (readIaddi w)
  | 0x82 => some (readAndi w)
  | 0x83 => some (readOri w)
  | 0x84 => some (readXori w)
  | 0x85 => some (readShli w)
  | 0x86 => some (readShri w)
  | 0x87 => some (readSari w)
  | 0x88 => some (readGetsr w)
  | _ => none

/-- Opcodes of the memory class. -/
def opMemory (first : Bool) (w : Word32) (op : Nat) : Option (Dec Instr) :=
  match op with
  | 0x00 => some (readLdS8 w)
  | 0x01 => some (readLdZ8 w)
  | 0x02 => some (readLdS16 w)
  | 0x03 => some (readLdZ16 w)
  | 0x04 => some (readLd32 w)
  | 0x05 => some (readLd64 w)
  | 0x08 => some (readSt8 w)
  | 0x09 => some (readSt16 w)
  | 0x0A => some (readSt32 w)
  | 0x0B => some (readSt64 w)
  | 0x0C => some (readLdAcq32 w)
  | 0x0D => some (readLdAcq64 w)
  | 0x0E => some (readStRel32 w)
  | 0x0F => some (readStRel64 w)
  | 0x10 => some (readLdiv32 w)
  | 0x11 => some (readLdiv64 w)
  | 0x12 => some (readStiv32 w)
  | 0x13 => some (readStiv64 w)
  | 0x20 => some (readAtomAdd w)
  | 0x21 => some (readAtomMin w)
  | 0x22 => some (readAtomMinUn w)
  | 0x23 => some (readAtomMax w)
  | 0x24 => some (readAtomMaxUn w)
  | 0x25 => some (readAtomAnd w)
  | 0x26 => some (readAtomOr w)
  | 0x27 => some (readAtomXor w)
  | 0x28 => some (readAtomXchg w)
  | 0x29 => some (readAtomCas w)
  | 0x30 => some (readRedAdd w)
  | 0x31 => some (readRedMin w)
  | 0x32 => some (readRedMinUn w)
  | 0x33 => some (readRedMax w)
  | 0x34 => some (readRedMaxUn w)
  | 0x35 => some (readRedAnd w)
  | 0x36 => some (readRedOr w)
  | 0x37 => some (readRedXor w)
  | 0x40 => some (readPf w)
  | 0x41 => some (readQpush w)
  | 0x42 => some (readQpop w)
  | 0x43 => some (readQpopNb w)
  | 0x44 => some (readSigin w)
  | 0x45 => some (readRecRd w)
  | 0x46 => some (readRecWr w)
  | 0x47 => some (readLcload w)
  | 0x50 => some (readBankMode w)
  | 0x58 => some (readAcq w)
  | 0x59 => some (readRel w)
  | 0x5A => some (readAcqrel w)
  | 0x60 => some (readSnapOpen w)
  | 0x61 => some (readSnapClose w)
  | 0x62 => some (readTxb w)
  | 0x63 => some (readTxc w)
  | 0x64 => some (readTxa w)
  | 0x65 => some (readTxchk w)
  | 0x66 => some (readVpub w)
  | _ => none

/-- Opcodes of the control class. -/
def opControl (first : Bool) (w : Word32) (op : Nat) : Option (Dec Instr) :=
  match op with
  | 0x00 => some (readBr w)
  | 0x01 => some (readBr3 w)
  | 0x02 => some (readCall w)
  | 0x03 => some (readBrt w)
  | 0x04 => some (readJmp w)
  | 0x05 => some (readRet w)
  | 0x06 => some (readExitT w)
  | 0x07 => some (readNop w)
  | 0x10 => some (readReform w)
  | 0x11 => some (readSbarEnrol w)
  | 0x12 => some (readSbarJoin w)
  | 0x13 => some (readBarArrive w)
  | 0x14 => some (readBarWait w)
  | 0x15 => some (readBarSync w)
  | 0x20 => some (readShflIdx first w)
  | 0x21 => some (readShflUp first w)
  | 0x22 => some (readShflDown first w)
  | 0x23 => some (readShflXor first w)
  | 0x24 => some (readVoteAll first w)
  | 0x25 => some (readVoteAny first w)
  | 0x26 => some (readVoteBallot first w)
  | 0x28 => some (readGredAdd first w)
  | 0x29 => some (readGredMin first w)
  | 0x2A => some (readGredMax first w)
  | 0x2B => some (readGredAnd first w)
  | 0x2C => some (readGredOr first w)
  | 0x2D => some (readGredXor first w)
  | 0x2E => some (readBcast first w)
  | 0x30 => some (readTryT w)
  | 0x31 => some (readTend w)
  | 0x32 => some (readFold w)
  | 0x33 => some (readFuel w)
  | _ => none

/-- Opcodes of the matrix class. -/
def opMatrix (first : Bool) (w : Word32) (op : Nat) : Option (Dec Instr) :=
  match op with
  | 0x00 => some (readMma first w)
  | 0x01 => some (readMmaSp first w)
  | 0x10 => some (readAccSwap first w)
  | 0x11 => some (readAccZero first w)
  | 0x12 => some (readAccLd first w)
  | 0x13 => some (readAccSt first w)
  | _ => none

/-- Opcodes of the copy class. -/
def opCopy (first : Bool) (w : Word32) (op : Nat) : Option (Dec Instr) :=
  match op with
  | 0x00 => some (readCopy w)
  | 0x01 => some (readSlabld w)
  | 0x02 => some (readXform w)
  | 0x10 => some (readFutTest w)
  | 0x11 => some (readFutCancel w)
  | 0x12 => some (readDrain w)
  | _ => none

/-- Opcodes of the task class. -/
def opTask (first : Bool) (w : Word32) (op : Nat) : Option (Dec Instr) :=
  match op with
  | 0x00 => some (readJobPush w)
  | 0x01 => some (readJobDone w)
  | 0x02 => some (readYield w)
  | 0x03 => some (readLaunch w)
  | 0x04 => some (readQstat w)
  | _ => none

/-- Opcodes of the system class. -/
def opSystem (first : Bool) (w : Word32) (op : Nat) : Option (Dec Instr) :=
  match op with
  | 0x00 => some (readTrap w)
  | 0x01 => some (readRft w)
  | 0x02 => some (readHalt w)
  | 0x03 => some (readCtxSave w)
  | 0x04 => some (readCtxLoad w)
  | 0x05 => some (readTime w)
  | 0x06 => some (readSetsr w)
  | _ => none

/-- The reader of an opcode in its class. -/
def readerOf (cls : Cls) (first : Bool) (w : Word32) : Option (Dec Instr) :=
  let op := (bits w 24 8).toNat
  match cls with
  | .lane => opLane first w op
  | .memory => opMemory first w op
  | .control => opControl first w op
  | .matrix => opMatrix first w op
  | .copy => opCopy first w op
  | .task => opTask first w op
  | .system => opSystem first w op

/-- The order in which R43 ranks the causes of one word. -/
def causeOrder : List Cause := [0x02, 0x07, 0x06, 0x03, 0x04, 0x05, 0x0A, 0x08]

/-- The first cause of R43's order among those met. -/
def firstCause (errs : List Cause) : Option Cause := causeOrder.find? errs.contains

/-- What a decoding gives: the instruction and how many extension words it took, or the cause (R43). -/
inductive Decoded where
  | ok (i : Instr) (ext : Nat)
  | trap (c : Cause)
  deriving DecidableEq, Repr

/-- Decodes the word `w` of a clause of class `cls`: `first` tells whether it is the clause's first word, `rest` are
the words after it in the clause, `n` is the group's named count (R43). -/
def decode (cls : Cls) (n : Nat) (first : Bool) (w : Word32) (rest : List Word32) : Decoded :=
  match readerOf cls first w with
  | none => .trap 0x02
  | some r =>
    let p := r.run ⟨[], rest, n⟩
    match firstCause p.2.errs with
    | some c => .trap c
    | none => .ok p.1 (rest.length - p.2.ext.length)

/-- A clause header's fields (R19). -/
structure Header where
  count : Nat
  cls : Cls
  gpred : PReg
  gcond : Cond
  ldwait : Nat
  stwait : Nat
  enwait : Nat
  deriving DecidableEq, Repr

/-- Decodes a clause header; `none` is the illegal-header trap 0x01 (R19, R43). -/
def decodeHeader (w : Word32) : Option Header :=
  match Cls.ofCode (bits w 25 3) with
  | none => none
  | some c =>
    if (bits w 28 4 == 0) || (bits w 0 8 != 0) || (bits w 20 2 == 0 && bits w 22 3 != 0) then none
    else some ⟨(bits w 28 4).toNat, c, (bits w 22 3).toFin, Cond.ofCode (bits w 20 2), (bits w 16 4).toNat,
      (bits w 12 4).toNat, (bits w 8 4).toNat⟩

/-- The header word of R19. -/
def encodeHeader (h : Header) : Word32 :=
  (BitVec.ofNat 4 h.count ++ h.cls.code ++ (BitVec.ofFin h.gpred : BitVec 3) ++ h.gcond.code ++
    BitVec.ofNat 4 h.ldwait ++ BitVec.ofNat 4 h.stwait ++ BitVec.ofNat 4 h.enwait ++ 0#8 : BitVec 32)

/-- Word formats as sr.dec.op's fmt names them (R44). -/
inductive Fmt where
  | r | t | i | m | b | e | header
  deriving DecidableEq, Repr

/-- The code of a format. -/
def Fmt.code : Fmt → Nat
  | .r => 0 | .t => 1 | .i => 2 | .m => 3 | .b => 4 | .e => 5 | .header => 6

/-- The format of an opcode in its class: the assigned one (R42), or the class's default (R44). -/
def fmtOf (cls : Cls) (w : Word32) : Fmt :=
  let op := (bits w 24 8).toNat
  match cls with
  | .lane => if op ≥ 0xE0 then .t else if 0x80 ≤ op ∧ op ≤ 0x88 then .i else .r
  | .memory => if op = 0x50 then .i else if 0x58 ≤ op ∧ op ≤ 0x5A then .r else .m
  | .control => if op ≤ 2 then .b else if 0x11 ≤ op ∧ op ≤ 0x15 then .i else .r
  | .matrix => if op = 0x10 ∨ op = 0x11 then .i else .e
  | .copy => if op = 0x10 ∨ op = 0x11 then .r else if op = 0x12 then .i else .e
  | .task => if op = 0 ∨ op = 3 then .m else .r
  | .system => if op = 0 ∨ op = 6 then .i else if op = 3 ∨ op = 4 then .m else .r

/-- 1 where a source field holds the literal code. -/
def litCount (c : BitVec 6) : Nat := if c = 56 then 1 else 0

/-- Which operand fields of an assigned word are sources that may carry a literal, as (data or dst, a, b or index, c). -/
def sourceFields (cls : Cls) (w : Word32) : Bool × Bool × Bool × Bool :=
  let op := (bits w 24 8).toNat
  match fmtOf cls w with
  | .t => (false, true, true, !(cls == .lane && (bits w 26 3 == 7)))
  | .r =>
    if (readerOf cls true w).isNone then (false, true, true, false) else
    match cls with
    | .lane => (false, !(0x2C ≤ op ∧ op ≤ 0x2F), !((0x0D ≤ op ∧ op ≤ 0x0E) || op == 0x13 || (0x18 ≤ op ∧ op ≤ 0x1A)
        || (0x2C ≤ op ∧ op ≤ 0x2F) || (0x60 ≤ op ∧ op ≤ 0x6F) || op == 0x71 || op == 0x72 || (0x75 ≤ op ∧ op ≤ 0x7A)), false)
    | .memory => (false, false, false, false)
    | .control => (false, (3 ≤ op ∧ op ≤ 5) || (0x20 ≤ op ∧ op ≤ 0x23) || (0x28 ≤ op ∧ op ≤ 0x2E) || op == 0x30 || op == 0x32
        || op == 0x33, (0x20 ≤ op ∧ op ≤ 0x23) || op == 0x2E || op == 0x30, false)
    | .matrix => (false, false, false, false)
    | .copy => (false, true, false, false)
    | .task => (false, op == 1 || op == 4, op == 4, false)
    | .system => (false, op == 1 || op == 2, false, false)
  | .i =>
    (false, match cls with
      | .lane => 0x81 ≤ op ∧ op ≤ 0x87
      | .control => op == 0x13 || op == 0x15
      | .system => true
      | _ => false, false, false)
  | .m =>
    if (readerOf cls true w).isNone then (true, false, true, false) else
    match cls with
    | .memory =>
      ((0x08 ≤ op ∧ op ≤ 0x0B) || op == 0x0E || op == 0x0F || op == 0x12 || op == 0x13 || (0x20 ≤ op ∧ op ≤ 0x29)
        || (0x30 ≤ op ∧ op ≤ 0x37) || op == 0x41 || op == 0x44 || op == 0x46, false,
       !(op == 0x41 || op == 0x42 || op == 0x43 || op == 0x44 || op == 0x61 || op == 0x63 || op == 0x65 || op == 0x66), false)
    | _ => (false, false, true, false)
  | .e =>
    if (readerOf cls true w).isNone then (false, true, true, true) else
    match cls with
    | .matrix => (false, true, op ≤ 1, true)
    | _ => (false, true, true, op != 2)
  | _ => (false, false, false, false)

/-- The extension words a word's own fields call for (R43, R44). -/
def extCount (cls : Cls) (w : Word32) : Nat :=
  let s := sourceFields cls w
  let f := fmtOf cls w
  let op := (bits w 24 8).toNat
  let c (b : Bool) (x : BitVec 6) : Nat := if b then litCount x else 0
  (match f with
   | .t => c s.2.1 (bits w 14 6) + c s.2.2.1 (bits w 8 6) + c s.2.2.2 (bits w 2 6)
   | .r => c s.2.1 (ra w) + c s.2.2.1 (rb w)
   | .i => c s.2.1 (ra w)
   | .m => c s.1 (rd w) + c s.2.2.1 (bits w 4 6)
   | .e => 1 + c s.2.1 (ra w) + c s.2.2.1 (rb w) + c s.2.2.2 (bits w 0 6)
   | _ => 0) +
  (if cls = .control ∧ op = 1 then 2 else if cls = .control ∧ op = 3 then (rd w).toNat else 0)

/-! ### The encoder -/

/-- The code of a named register (R32). -/
def kCode (r : KReg) : BitVec 6 := BitVec.ofNat 6 (16 + r.val)

/-- A predicate in the high three bits of a field (R34). -/
def pCode (p : PReg) : BitVec 6 := (BitVec.ofFin p : BitVec 3) ++ 0#3

/-- The code of a source (R32). -/
def Src.code : Src → BitVec 6
  | .q a => BitVec.ofNat 6 a.val
  | .k r => kCode r
  | .zero => 48 | .lane => 49 | .tig => 50 | .grp => 51 | .team => 52 | .fuel => 53 | .tlo => 54 | .cyc => 55
  | .lit _ => 56
  | .g i => BitVec.ofNat 6 (57 + i.val)

/-- The literal word of a source (R35). -/
def Src.lits : Src → List Word32
  | .lit v => [v]
  | _ => []

/-- The code of a destination (R34). -/
def Dst.code : Dst → BitVec 6
  | .q => 0
  | .k r => kCode r
  | .none => 48

/-- bank.mode's immediate (R161). -/
def bankCode (n : Fin 32) (m : BankMode) : BitVec 10 :=
  0#3 ++ (match m with | .cache => 0#2 | .scratchpad => 1#2 | .fifo => 2#2) ++ (BitVec.ofFin n : BitVec 5)

/-- sbar.enrol's immediate (R307). -/
def SbarMode.imm : SbarMode → BitVec 10
  | .enrolSet h => 0#3 ++ h
  | .leave => 0x100
  | .keep => 0x200

/-- drain's immediate (R185). -/
def DrainSet.imm : DrainSet → BitVec 10
  | .main => 0 | .scratch => 1 | .slab => 2 | .host => 3 | .fabric => 4 | .all => 7

/-- R25. -/
def encR (op : BitVec 8) (d a b : BitVec 6) (w : BitVec 2) (c : RCtl) : Word32 :=
  (op ++ d ++ a ++ b ++ w ++ c.s.code ++ (if c.ng then 1#2 else 0#2) : BitVec 32)

/-- R26. -/
def encT (sub : BitVec 3) (d a b c : BitVec 6) (s : Stall) : Word32 :=
  (0b111#3 ++ sub ++ d ++ a ++ b ++ c ++ s.code : BitVec 32)

/-- R27. -/
def encI (op : BitVec 8) (d a : BitVec 6) (i : BitVec 10) (s : Stall) : Word32 :=
  (op ++ d ++ a ++ i ++ s.code : BitVec 32)

/-- R28. -/
def encM (op : BitVec 8) (d : BitVec 6) (r : BitVec 8) (x : BitVec 6) (w h : BitVec 2) : Word32 :=
  (op ++ d ++ r ++ x ++ w ++ h : BitVec 32)

/-- R29. -/
def encB (op : BitVec 8) (p : PReg) (c : Cond) (off : BitVec 19) : Word32 :=
  (op ++ (BitVec.ofFin p : BitVec 3) ++ c.code ++ off : BitVec 32)

/-- R30, first word. -/
def encE (op : BitVec 8) (d a b c : BitVec 6) : Word32 := (op ++ d ++ a ++ b ++ c : BitVec 32)

/-- R30, second word of class 3 and of copy and slabld. -/
def encE1 (r1 r2 : Rec) (tile : Fin 16) (fA fB : BitVec 4) (sp md : BitVec 2) : Word32 :=
  ((BitVec.ofFin r1 : BitVec 8) ++ (BitVec.ofFin r2 : BitVec 8) ++ (BitVec.ofFin tile : BitVec 4) ++ fA ++ fB ++ sp ++ md :
    BitVec 32)

/-- One bit. -/
def bit1 (b : Bool) : BitVec 1 := if b then 1 else 0

/-- R30 and R178, second word of xform. -/
def encX1 (r1 r2 : Rec) (t : XCtl) : Word32 :=
  ((BitVec.ofFin r1 : BitVec 8) ++ (BitVec.ofFin r2 : BitVec 8) ++ t.rnd.code ++ bit1 t.cv ++ bit1 t.sc ++ bit1 t.sv ++
    bit1 t.tr ++ (match t.sp with | some s => s.code | none => 0#2) ++ bit1 t.pk ++ 0#7 : BitVec 32)

/-- The words of an instruction: its word, then its extension words. A device event has none. -/
def encode : Instr → List Word32
  | .iadd c d a b => encR 0x00 d.code a.code b.code 0 c :: (a.lits ++ b.lits)
  | .isub c d a b => encR 0x01 d.code a.code b.code 0 c :: (a.lits ++ b.lits)
  | .imul c d a b => encR 0x02 d.code a.code b.code 0 c :: (a.lits ++ b.lits)
  | .imulhi c d a b => encR 0x03 d.code a.code b.code 0 c :: (a.lits ++ b.lits)
  | .imulhiUn c d a b => encR 0x04 d.code a.code b.code 0 c :: (a.lits ++ b.lits)
  | .idiv c d a b => encR 0x05 d.code a.code b.code 0 c :: (a.lits ++ b.lits)
  | .idivUn c d a b => encR 0x06 d.code a.code b.code 0 c :: (a.lits ++ b.lits)
  | .irem c d a b => encR 0x07 d.code a.code b.code 0 c :: (a.lits ++ b.lits)
  | .iremUn c d a b => encR 0x08 d.code a.code b.code 0 c :: (a.lits ++ b.lits)
  | .imin c d a b => encR 0x09 d.code a.code b.code 0 c :: (a.lits ++ b.lits)
  | .iminUn c d a b => encR 0x0A d.code a.code b.code 0 c :: (a.lits ++ b.lits)
  | .imax c d a b => encR 0x0B d.code a.code b.code 0 c :: (a.lits ++ b.lits)
  | .imaxUn c d a b => encR 0x0C d.code a.code b.code 0 c :: (a.lits ++ b.lits)
  | .iabs c d a => encR 0x0D d.code a.code 48 0 c :: (a.lits)
  | .ineg c d a => encR 0x0E d.code a.code 48 0 c :: (a.lits)
  | .andB c d a b => encR 0x10 d.code a.code b.code 0 c :: (a.lits ++ b.lits)
  | .orB c d a b => encR 0x11 d.code a.code b.code 0 c :: (a.lits ++ b.lits)
  | .xorB c d a b => encR 0x12 d.code a.code b.code 0 c :: (a.lits ++ b.lits)
  | .notB c d a => encR 0x13 d.code a.code 48 0 c :: (a.lits)
  | .shl c d a b => encR 0x14 d.code a.code b.code 0 c :: (a.lits ++ b.lits)
  | .shr c d a b => encR 0x15 d.code a.code b.code 0 c :: (a.lits ++ b.lits)
  | .sar c d a b => encR 0x16 d.code a.code b.code 0 c :: (a.lits ++ b.lits)
  | .rotl c d a b => encR 0x17 d.code a.code b.code 0 c :: (a.lits ++ b.lits)
  | .popc c d a => encR 0x18 d.code a.code 48 0 c :: (a.lits)
  | .clz c d a => encR 0x19 d.code a.code 48 0 c :: (a.lits)
  | .brev c d a => encR 0x1A d.code a.code 48 0 c :: (a.lits)
  | .icmpEq c p a b => encR 0x20 (pCode p) a.code b.code 0 c :: (a.lits ++ b.lits)
  | .icmpNe c p a b => encR 0x21 (pCode p) a.code b.code 0 c :: (a.lits ++ b.lits)
  | .icmpLt c p a b => encR 0x22 (pCode p) a.code b.code 0 c :: (a.lits ++ b.lits)
  | .icmpLe c p a b => encR 0x23 (pCode p) a.code b.code 0 c :: (a.lits ++ b.lits)
  | .icmpLtUn c p a b => encR 0x24 (pCode p) a.code b.code 0 c :: (a.lits ++ b.lits)
  | .icmpLeUn c p a b => encR 0x25 (pCode p) a.code b.code 0 c :: (a.lits ++ b.lits)
  | .fcmpEq c p a b => encR 0x28 (pCode p) a.code b.code 0 c :: (a.lits ++ b.lits)
  | .fcmpNe c p a b => encR 0x29 (pCode p) a.code b.code 0 c :: (a.lits ++ b.lits)
  | .fcmpLt c p a b => encR 0x2A (pCode p) a.code b.code 0 c :: (a.lits ++ b.lits)
  | .fcmpLe c p a b => encR 0x2B (pCode p) a.code b.code 0 c :: (a.lits ++ b.lits)
  | .pand c p x y => encR 0x2C (pCode p) (pCode x) (pCode y) 0 c :: ([])
  | .por c p x y => encR 0x2D (pCode p) (pCode x) (pCode y) 0 c :: ([])
  | .pxor c p x y => encR 0x2E (pCode p) (pCode x) (pCode y) 0 c :: ([])
  | .pnot c p x => encR 0x2F (pCode p) (pCode x) 0 0 c :: ([])
  | .fadd c r d a b => encR (0x40 + r.code.setWidth 8) d.code a.code b.code 0 c :: (a.lits ++ b.lits)
  | .fsub c r d a b => encR (0x44 + r.code.setWidth 8) d.code a.code b.code 0 c :: (a.lits ++ b.lits)
  | .fmul c r d a b => encR (0x48 + r.code.setWidth 8) d.code a.code b.code 0 c :: (a.lits ++ b.lits)
  | .fdiv c r d a b => encR (0x4C + r.code.setWidth 8) d.code a.code b.code 0 c :: (a.lits ++ b.lits)
  | .fsqrt c r d a b => encR (0x50 + r.code.setWidth 8) d.code a.code b.code 0 c :: (a.lits ++ b.lits)
  | .frcp c r d a b => encR (0x54 + r.code.setWidth 8) d.code a.code b.code 0 c :: (a.lits ++ b.lits)
  | .fmin c d a b => encR 0x58 d.code a.code b.code 0 c :: (a.lits ++ b.lits)
  | .fmax c d a b => encR 0x59 d.code a.code b.code 0 c :: (a.lits ++ b.lits)
  | .fexp2 c d a b => encR 0x5A d.code a.code b.code 0 c :: (a.lits ++ b.lits)
  | .flog2 c d a b => encR 0x5B d.code a.code b.code 0 c :: (a.lits ++ b.lits)
  | .fabs c d a b => encR 0x5C d.code a.code b.code 0 c :: (a.lits ++ b.lits)
  | .fneg c d a b => encR 0x5D d.code a.code b.code 0 c :: (a.lits ++ b.lits)
  | .fcvt c r d a => encR (0x60 + r.code.setWidth 8) d.code a.code 48 0 c :: (a.lits)
  | .ftoi c r d a => encR (0x64 + r.code.setWidth 8) d.code a.code 48 0 c :: (a.lits)
  | .itof c r d a => encR (0x68 + r.code.setWidth 8) d.code a.code 48 0 c :: (a.lits)
  | .itofUn c r d a => encR (0x6C + r.code.setWidth 8) d.code a.code 48 0 c :: (a.lits)
  | .ivmake c d a b => encR 0x70 d.code a.code b.code 0 c :: (a.lits ++ b.lits)
  | .ivlo c d a => encR 0x71 d.code a.code 48 0 c :: (a.lits)
  | .ivhi c d a => encR 0x72 d.code a.code 48 0 c :: (a.lits)
  | .ivmeet c d a b => encR 0x73 d.code a.code b.code 0 c :: (a.lits ++ b.lits)
  | .ivjoin c d a b => encR 0x74 d.code a.code b.code 0 c :: (a.lits ++ b.lits)
  | .ivmid c d a => encR 0x75 d.code a.code 48 0 c :: (a.lits)
  | .ivwid c d a => encR 0x76 d.code a.code 48 0 c :: (a.lits)
  | .ivsplit c d a p => encR 0x77 d.code a.code (pCode p) 0 c :: (a.lits)
  | .mov c w d a => encR 0x78 d.code a.code 48 w.code c :: (a.lits)
  | .regFree c w a => encR 0x79 48 (kCode a) 48 w.code c :: ([])
  | .regGrow c a => encR 0x7A 48 a.code 48 0 c :: (a.lits)
  | .movi s d i => encI 0x80 d.code 48 i s :: []
  | .iaddi s d a i => encI 0x81 d.code a.code i s :: a.lits
  | .andi s d a i => encI 0x82 d.code a.code i s :: a.lits
  | .ori s d a i => encI 0x83 d.code a.code i s :: a.lits
  | .xori s d a i => encI 0x84 d.code a.code i s :: a.lits
  | .shli s d a n => encI 0x85 d.code a.code (n.setWidth 10) s :: a.lits
  | .shri s d a n => encI 0x86 d.code a.code (n.setWidth 10) s :: a.lits
  | .sari s d a n => encI 0x87 d.code a.code (n.setWidth 10) s :: a.lits
  | .getsr s d i => encI 0x88 d.code 48 i s :: []
  | .fma s r d a b c => encT (r.code.setWidth 3) d.code a.code b.code c.code s :: (a.lits ++ b.lits ++ c.lits)
  | .imad s d a b c => encT 0b100#3 d.code a.code b.code c.code s :: (a.lits ++ b.lits ++ c.lits)
  | .bfx s d a b c => encT 0b101#3 d.code a.code b.code c.code s :: (a.lits ++ b.lits ++ c.lits)
  | .bfi s d a b c => encT 0b110#3 d.code a.code b.code c.code s :: (a.lits ++ b.lits ++ c.lits)
  | .csel s d a b p => encT 0b111#3 d.code a.code b.code (pCode p) s :: (a.lits ++ b.lits)
  | .ldS8 h d tb x => encM 0x00 d.code (BitVec.ofFin tb) x.code 0 h.code :: (x.lits)
  | .ldZ8 h d tb x => encM 0x01 d.code (BitVec.ofFin tb) x.code 0 h.code :: (x.lits)
  | .ldS16 h d tb x => encM 0x02 d.code (BitVec.ofFin tb) x.code 0 h.code :: (x.lits)
  | .ldZ16 h d tb x => encM 0x03 d.code (BitVec.ofFin tb) x.code 0 h.code :: (x.lits)
  | .ld32 w h d tb x => encM 0x04 d.code (BitVec.ofFin tb) x.code w.code h.code :: (x.lits)
  | .ld64 w h d tb x => encM 0x05 d.code (BitVec.ofFin tb) x.code w.code h.code :: (x.lits)
  | .st8 h d tb x => encM 0x08 d.code (BitVec.ofFin tb) x.code 0 h.code :: (d.lits ++ x.lits)
  | .st16 h d tb x => encM 0x09 d.code (BitVec.ofFin tb) x.code 0 h.code :: (d.lits ++ x.lits)
  | .st32 w h d tb x => encM 0x0A d.code (BitVec.ofFin tb) x.code w.code h.code :: (d.lits ++ x.lits)
  | .st64 w h d tb x => encM 0x0B d.code (BitVec.ofFin tb) x.code w.code h.code :: (d.lits ++ x.lits)
  | .ldAcq32 w h d tb x => encM 0x0C d.code (BitVec.ofFin tb) x.code w.code h.code :: (x.lits)
  | .ldAcq64 w h d tb x => encM 0x0D d.code (BitVec.ofFin tb) x.code w.code h.code :: (x.lits)
  | .stRel32 w h d tb x => encM 0x0E d.code (BitVec.ofFin tb) x.code w.code h.code :: (d.lits ++ x.lits)
  | .stRel64 w h d tb x => encM 0x0F d.code (BitVec.ofFin tb) x.code w.code h.code :: (d.lits ++ x.lits)
  | .ldiv32 h d tb x => encM 0x10 d.code (BitVec.ofFin tb) x.code 0 h.code :: (x.lits)
  | .ldiv64 h d tb x => encM 0x11 d.code (BitVec.ofFin tb) x.code 1 h.code :: (x.lits)
  | .stiv32 h d tb x => encM 0x12 d.code (BitVec.ofFin tb) x.code 0 h.code :: (d.lits ++ x.lits)
  | .stiv64 h d tb x => encM 0x13 (kCode d) (BitVec.ofFin tb) x.code 1 h.code :: (x.lits)
  | .atomAdd h d tb x => encM 0x20 d.code (BitVec.ofFin tb) x.code 0 h.code :: (d.lits ++ x.lits)
  | .atomMin h d tb x => encM 0x21 d.code (BitVec.ofFin tb) x.code 0 h.code :: (d.lits ++ x.lits)
  | .atomMinUn h d tb x => encM 0x22 d.code (BitVec.ofFin tb) x.code 0 h.code :: (d.lits ++ x.lits)
  | .atomMax h d tb x => encM 0x23 d.code (BitVec.ofFin tb) x.code 0 h.code :: (d.lits ++ x.lits)
  | .atomMaxUn h d tb x => encM 0x24 d.code (BitVec.ofFin tb) x.code 0 h.code :: (d.lits ++ x.lits)
  | .atomAnd h d tb x => encM 0x25 d.code (BitVec.ofFin tb) x.code 0 h.code :: (d.lits ++ x.lits)
  | .atomOr h d tb x => encM 0x26 d.code (BitVec.ofFin tb) x.code 0 h.code :: (d.lits ++ x.lits)
  | .atomXor h d tb x => encM 0x27 d.code (BitVec.ofFin tb) x.code 0 h.code :: (d.lits ++ x.lits)
  | .atomXchg h d tb x => encM 0x28 d.code (BitVec.ofFin tb) x.code 0 h.code :: (d.lits ++ x.lits)
  | .atomCas h d tb x => encM 0x29 (kCode d) (BitVec.ofFin tb) x.code 1 h.code :: (x.lits)
  | .redAdd h d tb x => encM 0x30 d.code (BitVec.ofFin tb) x.code 0 h.code :: (d.lits ++ x.lits)
  | .redMin h d tb x => encM 0x31 d.code (BitVec.ofFin tb) x.code 0 h.code :: (d.lits ++ x.lits)
  | .redMinUn h d tb x => encM 0x32 d.code (BitVec.ofFin tb) x.code 0 h.code :: (d.lits ++ x.lits)
  | .redMax h d tb x => encM 0x33 d.code (BitVec.ofFin tb) x.code 0 h.code :: (d.lits ++ x.lits)
  | .redMaxUn h d tb x => encM 0x34 d.code (BitVec.ofFin tb) x.code 0 h.code :: (d.lits ++ x.lits)
  | .redAnd h d tb x => encM 0x35 d.code (BitVec.ofFin tb) x.code 0 h.code :: (d.lits ++ x.lits)
  | .redOr h d tb x => encM 0x36 d.code (BitVec.ofFin tb) x.code 0 h.code :: (d.lits ++ x.lits)
  | .redXor h d tb x => encM 0x37 d.code (BitVec.ofFin tb) x.code 0 h.code :: (d.lits ++ x.lits)
  | .pf h tb x => encM 0x40 48 (BitVec.ofFin tb) x.code 0 h.code :: (x.lits)
  | .qpush w h d fq => encM 0x41 d.code (BitVec.ofNat 8 fq.val) 48 w.code h.code :: (d.lits)
  | .qpop w h d fq => encM 0x42 d.code (BitVec.ofNat 8 fq.val) 48 w.code h.code :: ([])
  | .qpopNb w h d fq p => encM 0x43 d.code (BitVec.ofNat 8 fq.val) (pCode p) w.code h.code :: ([])
  | .sigin h d tb => encM 0x44 (kCode d) (BitVec.ofFin tb) 48 1 h.code :: ([])
  | .recRd w h d tb x => encM 0x45 d.code (BitVec.ofFin tb) x.code w.code h.code :: (x.lits)
  | .recWr w h d tb x => encM 0x46 d.code (BitVec.ofFin tb) x.code w.code h.code :: (d.lits ++ x.lits)
  | .lcload h d tb x => encM 0x47 d.code (BitVec.ofFin tb) x.code 0 h.code :: (x.lits)
  | .bankMode s n m => encI 0x50 48 48 (bankCode n m) s :: []
  | .acq c => encR 0x58 48 48 48 0 c :: ([])
  | .rel c => encR 0x59 48 48 48 0 c :: ([])
  | .acqrel c => encR 0x5A 48 48 48 0 c :: ([])
  | .snapOpen d x => encM 0x60 d.code 0 x.code 0 0 :: (x.lits)
  | .snapClose => encM 0x61 48 0 48 0 0 :: ([])
  | .txb d x => encM 0x62 d.code 0 x.code 0 0 :: (x.lits)
  | .txc p => encM 0x63 (pCode p) 0 48 0 0 :: ([])
  | .txa x => encM 0x64 48 0 x.code 0 0 :: (x.lits)
  | .txchk p => encM 0x65 (pCode p) 0 48 0 0 :: ([])
  | .vpub d tb => encM 0x66 d.code (BitVec.ofFin tb) 48 0 0 :: ([])
  | .br p c off => [encB 0x00 p c off]
  | .br3 p offT offF offU => [encB 0x01 p .always offT, offF.setWidth 32, offU.setWidth 32]
  | .call p c off => [encB 0x02 p c off]
  | .brt c a offs => encR 0x03 (BitVec.ofNat 6 offs.length) a.code 48 0 c :: (a.lits ++ offs.map (·.setWidth 32))
  | .jmp c a => encR 0x04 48 a.code 48 0 c :: (a.lits)
  | .ret c a => encR 0x05 48 a.code 48 0 c :: (a.lits)
  | .exitT c => encR 0x06 48 48 48 0 c :: ([])
  | .nop c => encR 0x07 48 48 48 0 c :: ([])
  | .reform c => encR 0x10 48 48 48 0 c :: ([])
  | .sbarEnrol s m => encI 0x11 48 48 m.imm s :: []
  | .sbarJoin s => encI 0x12 48 48 0 s :: []
  | .barArrive s a n => encI 0x13 48 a.code (n.setWidth 10) s :: a.lits
  | .barWait s n => encI 0x14 48 48 (n.setWidth 10) s :: []
  | .barSync s a n => encI 0x15 48 a.code (n.setWidth 10) s :: a.lits
  | .shflIdx c d a b => encR 0x20 d.code a.code b.code 0 c :: (a.lits ++ b.lits)
  | .shflUp c d a b => encR 0x21 d.code a.code b.code 0 c :: (a.lits ++ b.lits)
  | .shflDown c d a b => encR 0x22 d.code a.code b.code 0 c :: (a.lits ++ b.lits)
  | .shflXor c d a b => encR 0x23 d.code a.code b.code 0 c :: (a.lits ++ b.lits)
  | .voteAll c p x => encR 0x24 (pCode p) (pCode x) 48 0 c :: ([])
  | .voteAny c p x => encR 0x25 (pCode p) (pCode x) 48 0 c :: ([])
  | .voteBallot c d x => encR 0x26 d.code (pCode x) 48 0 c :: ([])
  | .gredAdd c d a => encR 0x28 d.code a.code 48 0 c :: (a.lits)
  | .gredMin c d a => encR 0x29 d.code a.code 48 0 c :: (a.lits)
  | .gredMax c d a => encR 0x2A d.code a.code 48 0 c :: (a.lits)
  | .gredAnd c d a => encR 0x2B d.code a.code 48 0 c :: (a.lits)
  | .gredOr c d a => encR 0x2C d.code a.code 48 0 c :: (a.lits)
  | .gredXor c d a => encR 0x2D d.code a.code 48 0 c :: (a.lits)
  | .bcast c d a b => encR 0x2E d.code a.code b.code 0 c :: (a.lits ++ b.lits)
  | .tryT c d a b => encR 0x30 d.code a.code b.code 0 c :: (a.lits ++ b.lits)
  | .tend c => encR 0x31 48 48 48 0 c :: ([])
  | .fold c a => encR 0x32 48 a.code 48 0 c :: (a.lits)
  | .fuel c d a => encR 0x33 d.code a.code 48 0 c :: (a.lits)
  | .mma d tile tbA tbB fA fB ovw a b c => encE 0x00 d.code a.code b.code c.code :: encE1 tbA tbB tile fA fB 0 (if ovw then 1 else 0) :: (a.lits ++ b.lits ++ c.lits)
  | .mmaSp d tile tbA tbB fA fB sp ovw a b c => encE 0x01 d.code a.code b.code c.code :: encE1 tbA tbB tile fA fB sp.code (if ovw then 1 else 0) :: (a.lits ++ b.lits ++ c.lits)
  | .accSwap s n => encI 0x10 48 48 (BitVec.ofNat 10 n.val) s :: []
  | .accZero s n => encI 0x11 48 48 (BitVec.ofNat 10 n.val) s :: []
  | .accLd d tile tb fM fT a c => encE 0x12 d.code a.code 48 c.code :: encE1 tb 0 tile fM fT 0 0 :: (a.lits ++ c.lits)
  | .accSt d tile tb fM fT a c => encE 0x13 d.code a.code 48 c.code :: encE1 tb 0 tile fM fT 0 0 :: (a.lits ++ c.lits)
  | .copy d tbD tbS a b c => encE 0x00 d.code a.code b.code c.code :: encE1 tbD tbS 0 0 0 0 0 :: (a.lits ++ b.lits ++ c.lits)
  | .slabld d tbS a b c => encE 0x01 d.code a.code b.code c.code :: encE1 0 tbS 0 0 0 0 0 :: (a.lits ++ b.lits ++ c.lits)
  | .xform d tbD tbS t a b => encE 0x02 d.code a.code b.code 48 :: encX1 tbD tbS t :: (a.lits ++ b.lits)
  | .futTest c d a p => encR 0x10 d.code a.code (pCode p) 0 c :: (a.lits)
  | .futCancel c a => encR 0x11 48 a.code 48 0 c :: (a.lits)
  | .drain s m => encI 0x12 48 48 m.imm s :: []
  | .jobPush d tb x => encM 0x00 d.code (BitVec.ofFin tb) x.code 0 0 :: (x.lits)
  | .jobDone c a => encR 0x01 48 a.code 48 0 c :: (a.lits)
  | .yield c => encR 0x02 48 48 48 0 c :: ([])
  | .launch d tb x => encM 0x03 d.code (BitVec.ofFin tb) x.code 0 0 :: (x.lits)
  | .qstat c d a b => encR 0x04 d.code a.code b.code 0 c :: (a.lits ++ b.lits)
  | .trap s a n => encI 0x00 48 a.code (BitVec.ofNat 10 n.val) s :: a.lits
  | .rft c d a => encR 0x01 d.code a.code 48 0 c :: (a.lits)
  | .halt c a => encR 0x02 48 a.code 48 0 c :: (a.lits)
  | .ctxSave h d tb x => encM 0x03 d.code (BitVec.ofFin tb) x.code 0 h.code :: (x.lits)
  | .ctxLoad h tb x => encM 0x04 48 (BitVec.ofFin tb) x.code 0 h.code :: (x.lits)
  | .time c d cyc => encR 0x05 d.code (if cyc then 55 else 54) 48 0 c :: ([])
  | .setsr s a i => encI 0x06 48 a.code i s :: a.lits
  | .elmCtlWrite _ _ _ _ => []
  | .clauseHeader => []
  | .loadDataReturn _ => []
  | .storeAcknowledge _ => []
  | .iterativeResult _ => []
  | .pageWalkComplete _ => []
  | .replicaCopyComplete _ _ => []
  | .replicaDropAck _ _ => []
  | .copyInvalidateAck _ _ => []
  | .wordRevocation _ _ => []
  | .sideLogReplay _ _ => []
  | .bankModeSwitchComplete _ _ _ => []
  | .lockComplete _ => []
  | .commitComplete _ => []
  | .collectorRecompute _ => []
  | .versionStoreExhausted _ => []
  | .engineAccept _ _ _ => []
  | .engineStart _ _ _ => []
  | .engineComplete _ _ _ _ => []
  | .arrayAccept _ _ => []
  | .mmaStart _ _ => []
  | .chunkPromotion _ _ _ => []
  | .accBankExchange _ _ _ => []
  | .accMoveComplete _ _ _ => []
  | .spawnStart _ _ _ => []
  | .binTimeout _ => []
  | .softBarrierTimeout _ => []
  | .regGrowGrant _ _ => []
  | .allBlockedSpill _ _ => []
  | .spillComplete _ => []
  | .groupFill _ => []
  | .fifoWaitResume _ _ _ => []
  | .trialEnd _ => []
  | .cardFile _ _ => []
  | .cardDraw _ _ => []
  | .tileLineArrival _ _ => []
  | .dispatchPick _ => []
  | .teamPlacement _ => []
  | .budgetExhausted _ => []
  | .forcedSliceEnd _ => []
  | .completionSignal _ => []
  | .harbourmasterEvaluation _ => []
  | .berthHandover _ _ => []
  | .sliceArbitration _ => []
  | .contextSaveComplete _ => []
  | .saveRetry _ => []
  | .uncorrectableCompressionMetadata _ _ _ => []
  | .uncorrectableData _ _ _ => []
  | .uncorrectableContextState _ => []
  | .internalMachineCheck _ _ => []
  | .replayIntervalEnd _ => []
  | .replayStopReached _ => []
  | .bindContext _ _ _ => []
  | .writeRecord _ _ _ _ => []
  | .translationInvalidate _ _ _ _ => []
  | .translationInvalidateComplete _ => []
  | .resolvePage _ _ _ => []
  | .refusePage _ _ _ => []
  | .carveRegion _ _ => []
  | .configureQuay _ _ => []
  | .preEmptTeam _ _ => []
  | .diePowerState _ _ _ => []
  | .tierPowerState _ _ _ _ => []
  | .relockEnd _ => []
  | .thermalTrip _ => []
  | .counterOrganisation _ _ => []
  | .startPacket _ _ => []
  | .stopPacket _ _ => []
  | .replayMode _ _ _ => []
  | .replayStop _ _ _ _ => []
  | .firmwareBlockWrite _ _ _ => []
  | .firmwareCommit _ => []
  | .setFabricNumber _ _ => []
  | .submissionWrite _ _ _ => []
  | .hostMemoryWrite _ _ => []
  | .hostMemoryRead _ _ => []
  | .hostCompletionTimeout _ => []
  | .flitCrcFailure _ => []
  | .deviceReset _ => []
  | .fillComplete _ => []
  | .restoreComplete _ => []
  | .accZeroComplete _ _ _ => []
  | .linkRetrained _ => []
  | .remoteAccessArrival _ => []
  | .forwardedCardArrival _ _ _ _ => []

/-- The class a word of the instruction is decoded in; `none` for a device event. -/
def Instr.cls : Instr → Option Cls
  | .iadd _ _ _ _ => some .lane
  | .isub _ _ _ _ => some .lane
  | .imul _ _ _ _ => some .lane
  | .imulhi _ _ _ _ => some .lane
  | .imulhiUn _ _ _ _ => some .lane
  | .idiv _ _ _ _ => some .lane
  | .idivUn _ _ _ _ => some .lane
  | .irem _ _ _ _ => some .lane
  | .iremUn _ _ _ _ => some .lane
  | .imin _ _ _ _ => some .lane
  | .iminUn _ _ _ _ => some .lane
  | .imax _ _ _ _ => some .lane
  | .imaxUn _ _ _ _ => some .lane
  | .iabs _ _ _ => some .lane
  | .ineg _ _ _ => some .lane
  | .andB _ _ _ _ => some .lane
  | .orB _ _ _ _ => some .lane
  | .xorB _ _ _ _ => some .lane
  | .notB _ _ _ => some .lane
  | .shl _ _ _ _ => some .lane
  | .shr _ _ _ _ => some .lane
  | .sar _ _ _ _ => some .lane
  | .rotl _ _ _ _ => some .lane
  | .popc _ _ _ => some .lane
  | .clz _ _ _ => some .lane
  | .brev _ _ _ => some .lane
  | .icmpEq _ _ _ _ => some .lane
  | .icmpNe _ _ _ _ => some .lane
  | .icmpLt _ _ _ _ => some .lane
  | .icmpLe _ _ _ _ => some .lane
  | .icmpLtUn _ _ _ _ => some .lane
  | .icmpLeUn _ _ _ _ => some .lane
  | .fcmpEq _ _ _ _ => some .lane
  | .fcmpNe _ _ _ _ => some .lane
  | .fcmpLt _ _ _ _ => some .lane
  | .fcmpLe _ _ _ _ => some .lane
  | .pand _ _ _ _ => some .lane
  | .por _ _ _ _ => some .lane
  | .pxor _ _ _ _ => some .lane
  | .pnot _ _ _ => some .lane
  | .fadd _ _ _ _ _ => some .lane
  | .fsub _ _ _ _ _ => some .lane
  | .fmul _ _ _ _ _ => some .lane
  | .fdiv _ _ _ _ _ => some .lane
  | .fsqrt _ _ _ _ _ => some .lane
  | .frcp _ _ _ _ _ => some .lane
  | .fmin _ _ _ _ => some .lane
  | .fmax _ _ _ _ => some .lane
  | .fexp2 _ _ _ _ => some .lane
  | .flog2 _ _ _ _ => some .lane
  | .fabs _ _ _ _ => some .lane
  | .fneg _ _ _ _ => some .lane
  | .fcvt _ _ _ _ => some .lane
  | .ftoi _ _ _ _ => some .lane
  | .itof _ _ _ _ => some .lane
  | .itofUn _ _ _ _ => some .lane
  | .ivmake _ _ _ _ => some .lane
  | .ivlo _ _ _ => some .lane
  | .ivhi _ _ _ => some .lane
  | .ivmeet _ _ _ _ => some .lane
  | .ivjoin _ _ _ _ => some .lane
  | .ivmid _ _ _ => some .lane
  | .ivwid _ _ _ => some .lane
  | .ivsplit _ _ _ _ => some .lane
  | .mov _ _ _ _ => some .lane
  | .regFree _ _ _ => some .lane
  | .regGrow _ _ => some .lane
  | .movi _ _ _ => some .lane
  | .iaddi _ _ _ _ => some .lane
  | .andi _ _ _ _ => some .lane
  | .ori _ _ _ _ => some .lane
  | .xori _ _ _ _ => some .lane
  | .shli _ _ _ _ => some .lane
  | .shri _ _ _ _ => some .lane
  | .sari _ _ _ _ => some .lane
  | .getsr _ _ _ => some .lane
  | .fma _ _ _ _ _ _ => some .lane
  | .imad _ _ _ _ _ => some .lane
  | .bfx _ _ _ _ _ => some .lane
  | .bfi _ _ _ _ _ => some .lane
  | .csel _ _ _ _ _ => some .lane
  | .ldS8 _ _ _ _ => some .memory
  | .ldZ8 _ _ _ _ => some .memory
  | .ldS16 _ _ _ _ => some .memory
  | .ldZ16 _ _ _ _ => some .memory
  | .ld32 _ _ _ _ _ => some .memory
  | .ld64 _ _ _ _ _ => some .memory
  | .st8 _ _ _ _ => some .memory
  | .st16 _ _ _ _ => some .memory
  | .st32 _ _ _ _ _ => some .memory
  | .st64 _ _ _ _ _ => some .memory
  | .ldAcq32 _ _ _ _ _ => some .memory
  | .ldAcq64 _ _ _ _ _ => some .memory
  | .stRel32 _ _ _ _ _ => some .memory
  | .stRel64 _ _ _ _ _ => some .memory
  | .ldiv32 _ _ _ _ => some .memory
  | .ldiv64 _ _ _ _ => some .memory
  | .stiv32 _ _ _ _ => some .memory
  | .stiv64 _ _ _ _ => some .memory
  | .atomAdd _ _ _ _ => some .memory
  | .atomMin _ _ _ _ => some .memory
  | .atomMinUn _ _ _ _ => some .memory
  | .atomMax _ _ _ _ => some .memory
  | .atomMaxUn _ _ _ _ => some .memory
  | .atomAnd _ _ _ _ => some .memory
  | .atomOr _ _ _ _ => some .memory
  | .atomXor _ _ _ _ => some .memory
  | .atomXchg _ _ _ _ => some .memory
  | .atomCas _ _ _ _ => some .memory
  | .redAdd _ _ _ _ => some .memory
  | .redMin _ _ _ _ => some .memory
  | .redMinUn _ _ _ _ => some .memory
  | .redMax _ _ _ _ => some .memory
  | .redMaxUn _ _ _ _ => some .memory
  | .redAnd _ _ _ _ => some .memory
  | .redOr _ _ _ _ => some .memory
  | .redXor _ _ _ _ => some .memory
  | .pf _ _ _ => some .memory
  | .qpush _ _ _ _ => some .memory
  | .qpop _ _ _ _ => some .memory
  | .qpopNb _ _ _ _ _ => some .memory
  | .sigin _ _ _ => some .memory
  | .recRd _ _ _ _ _ => some .memory
  | .recWr _ _ _ _ _ => some .memory
  | .lcload _ _ _ _ => some .memory
  | .bankMode _ _ _ => some .memory
  | .acq _ => some .memory
  | .rel _ => some .memory
  | .acqrel _ => some .memory
  | .snapOpen _ _ => some .memory
  | .snapClose => some .memory
  | .txb _ _ => some .memory
  | .txc _ => some .memory
  | .txa _ => some .memory
  | .txchk _ => some .memory
  | .vpub _ _ => some .memory
  | .br _ _ _ => some .control
  | .br3 _ _ _ _ => some .control
  | .call _ _ _ => some .control
  | .brt _ _ _ => some .control
  | .jmp _ _ => some .control
  | .ret _ _ => some .control
  | .exitT _ => some .control
  | .nop _ => some .control
  | .reform _ => some .control
  | .sbarEnrol _ _ => some .control
  | .sbarJoin _ => some .control
  | .barArrive _ _ _ => some .control
  | .barWait _ _ => some .control
  | .barSync _ _ _ => some .control
  | .shflIdx _ _ _ _ => some .control
  | .shflUp _ _ _ _ => some .control
  | .shflDown _ _ _ _ => some .control
  | .shflXor _ _ _ _ => some .control
  | .voteAll _ _ _ => some .control
  | .voteAny _ _ _ => some .control
  | .voteBallot _ _ _ => some .control
  | .gredAdd _ _ _ => some .control
  | .gredMin _ _ _ => some .control
  | .gredMax _ _ _ => some .control
  | .gredAnd _ _ _ => some .control
  | .gredOr _ _ _ => some .control
  | .gredXor _ _ _ => some .control
  | .bcast _ _ _ _ => some .control
  | .tryT _ _ _ _ => some .control
  | .tend _ => some .control
  | .fold _ _ => some .control
  | .fuel _ _ _ => some .control
  | .mma _ _ _ _ _ _ _ _ _ _ => some .matrix
  | .mmaSp _ _ _ _ _ _ _ _ _ _ _ => some .matrix
  | .accSwap _ _ => some .matrix
  | .accZero _ _ => some .matrix
  | .accLd _ _ _ _ _ _ _ => some .matrix
  | .accSt _ _ _ _ _ _ _ => some .matrix
  | .copy _ _ _ _ _ _ => some .copy
  | .slabld _ _ _ _ _ => some .copy
  | .xform _ _ _ _ _ _ => some .copy
  | .futTest _ _ _ _ => some .copy
  | .futCancel _ _ => some .copy
  | .drain _ _ => some .copy
  | .jobPush _ _ _ => some .task
  | .jobDone _ _ => some .task
  | .yield _ => some .task
  | .launch _ _ _ => some .task
  | .qstat _ _ _ _ => some .task
  | .trap _ _ _ => some .system
  | .rft _ _ _ => some .system
  | .halt _ _ => some .system
  | .ctxSave _ _ _ _ => some .system
  | .ctxLoad _ _ _ => some .system
  | .time _ _ _ => some .system
  | .setsr _ _ _ => some .system
  | .elmCtlWrite _ _ _ _ => none
  | .clauseHeader => none
  | .loadDataReturn _ => none
  | .storeAcknowledge _ => none
  | .iterativeResult _ => none
  | .pageWalkComplete _ => none
  | .replicaCopyComplete _ _ => none
  | .replicaDropAck _ _ => none
  | .copyInvalidateAck _ _ => none
  | .wordRevocation _ _ => none
  | .sideLogReplay _ _ => none
  | .bankModeSwitchComplete _ _ _ => none
  | .lockComplete _ => none
  | .commitComplete _ => none
  | .collectorRecompute _ => none
  | .versionStoreExhausted _ => none
  | .engineAccept _ _ _ => none
  | .engineStart _ _ _ => none
  | .engineComplete _ _ _ _ => none
  | .arrayAccept _ _ => none
  | .mmaStart _ _ => none
  | .chunkPromotion _ _ _ => none
  | .accBankExchange _ _ _ => none
  | .accMoveComplete _ _ _ => none
  | .spawnStart _ _ _ => none
  | .binTimeout _ => none
  | .softBarrierTimeout _ => none
  | .regGrowGrant _ _ => none
  | .allBlockedSpill _ _ => none
  | .spillComplete _ => none
  | .groupFill _ => none
  | .fifoWaitResume _ _ _ => none
  | .trialEnd _ => none
  | .cardFile _ _ => none
  | .cardDraw _ _ => none
  | .tileLineArrival _ _ => none
  | .dispatchPick _ => none
  | .teamPlacement _ => none
  | .budgetExhausted _ => none
  | .forcedSliceEnd _ => none
  | .completionSignal _ => none
  | .harbourmasterEvaluation _ => none
  | .berthHandover _ _ => none
  | .sliceArbitration _ => none
  | .contextSaveComplete _ => none
  | .saveRetry _ => none
  | .uncorrectableCompressionMetadata _ _ _ => none
  | .uncorrectableData _ _ _ => none
  | .uncorrectableContextState _ => none
  | .internalMachineCheck _ _ => none
  | .replayIntervalEnd _ => none
  | .replayStopReached _ => none
  | .bindContext _ _ _ => none
  | .writeRecord _ _ _ _ => none
  | .translationInvalidate _ _ _ _ => none
  | .translationInvalidateComplete _ => none
  | .resolvePage _ _ _ => none
  | .refusePage _ _ _ => none
  | .carveRegion _ _ => none
  | .configureQuay _ _ => none
  | .preEmptTeam _ _ => none
  | .diePowerState _ _ _ => none
  | .tierPowerState _ _ _ _ => none
  | .relockEnd _ => none
  | .thermalTrip _ => none
  | .counterOrganisation _ _ => none
  | .startPacket _ _ => none
  | .stopPacket _ _ => none
  | .replayMode _ _ _ => none
  | .replayStop _ _ _ _ => none
  | .firmwareBlockWrite _ _ _ => none
  | .firmwareCommit _ => none
  | .setFabricNumber _ _ => none
  | .submissionWrite _ _ _ => none
  | .hostMemoryWrite _ _ => none
  | .hostMemoryRead _ _ => none
  | .hostCompletionTimeout _ => none
  | .flitCrcFailure _ => none
  | .deviceReset _ => none
  | .fillComplete _ => none
  | .restoreComplete _ => none
  | .accZeroComplete _ _ _ => none
  | .linkRetrained _ => none
  | .remoteAccessArrival _ => none
  | .forwardedCardArrival _ _ _ _ => none

/-- How many bits of its word the instruction's table row fixes: the measure by which decodeTableWord prefers
one class's reading to another's. Rows with no mask count their format's opcode and must-be fields. -/
def Instr.fixedBits : Instr → Nat
  | .iadd _ _ _ _ => 10
  | .isub _ _ _ _ => 10
  | .imul _ _ _ _ => 10
  | .imulhi _ _ _ _ => 10
  | .imulhiUn _ _ _ _ => 10
  | .idiv _ _ _ _ => 10
  | .idivUn _ _ _ _ => 10
  | .irem _ _ _ _ => 10
  | .iremUn _ _ _ _ => 10
  | .imin _ _ _ _ => 10
  | .iminUn _ _ _ _ => 10
  | .imax _ _ _ _ => 10
  | .imaxUn _ _ _ _ => 10
  | .iabs _ _ _ => 16
  | .ineg _ _ _ => 16
  | .andB _ _ _ _ => 10
  | .orB _ _ _ _ => 10
  | .xorB _ _ _ _ => 10
  | .notB _ _ _ => 16
  | .shl _ _ _ _ => 10
  | .shr _ _ _ _ => 10
  | .sar _ _ _ _ => 10
  | .rotl _ _ _ _ => 10
  | .popc _ _ _ => 16
  | .clz _ _ _ => 16
  | .brev _ _ _ => 16
  | .icmpEq _ _ _ _ => 13
  | .icmpNe _ _ _ _ => 13
  | .icmpLt _ _ _ _ => 13
  | .icmpLe _ _ _ _ => 13
  | .icmpLtUn _ _ _ _ => 13
  | .icmpLeUn _ _ _ _ => 13
  | .fcmpEq _ _ _ _ => 13
  | .fcmpNe _ _ _ _ => 13
  | .fcmpLt _ _ _ _ => 13
  | .fcmpLe _ _ _ _ => 13
  | .pand _ _ _ _ => 19
  | .por _ _ _ _ => 19
  | .pxor _ _ _ _ => 19
  | .pnot _ _ _ => 22
  | .fadd _ _ _ _ _ => 8
  | .fsub _ _ _ _ _ => 8
  | .fmul _ _ _ _ _ => 8
  | .fdiv _ _ _ _ _ => 8
  | .fsqrt _ _ _ _ _ => 8
  | .frcp _ _ _ _ _ => 8
  | .fmin _ _ _ _ => 10
  | .fmax _ _ _ _ => 10
  | .fexp2 _ _ _ _ => 10
  | .flog2 _ _ _ _ => 10
  | .fabs _ _ _ _ => 10
  | .fneg _ _ _ _ => 10
  | .fcvt _ _ _ _ => 14
  | .ftoi _ _ _ _ => 14
  | .itof _ _ _ _ => 14
  | .itofUn _ _ _ _ => 14
  | .ivmake _ _ _ _ => 10
  | .ivlo _ _ _ => 16
  | .ivhi _ _ _ => 16
  | .ivmeet _ _ _ _ => 10
  | .ivjoin _ _ _ _ => 10
  | .ivmid _ _ _ => 16
  | .ivwid _ _ _ => 16
  | .ivsplit _ _ _ _ => 13
  | .mov _ _ _ _ => 14
  | .regFree _ _ _ => 20
  | .regGrow _ _ => 22
  | .movi _ _ _ => 14
  | .iaddi _ _ _ _ => 8
  | .andi _ _ _ _ => 8
  | .ori _ _ _ _ => 8
  | .xori _ _ _ _ => 8
  | .shli _ _ _ _ => 12
  | .shri _ _ _ _ => 12
  | .sari _ _ _ _ => 12
  | .getsr _ _ _ => 14
  | .fma _ _ _ _ _ _ => 4
  | .imad _ _ _ _ _ => 6
  | .bfx _ _ _ _ _ => 6
  | .bfi _ _ _ _ _ => 6
  | .csel _ _ _ _ _ => 9
  | .ldS8 _ _ _ _ => 10
  | .ldZ8 _ _ _ _ => 10
  | .ldS16 _ _ _ _ => 10
  | .ldZ16 _ _ _ _ => 10
  | .ld32 _ _ _ _ _ => 8
  | .ld64 _ _ _ _ _ => 8
  | .st8 _ _ _ _ => 10
  | .st16 _ _ _ _ => 10
  | .st32 _ _ _ _ _ => 8
  | .st64 _ _ _ _ _ => 8
  | .ldAcq32 _ _ _ _ _ => 9
  | .ldAcq64 _ _ _ _ _ => 9
  | .stRel32 _ _ _ _ _ => 9
  | .stRel64 _ _ _ _ _ => 9
  | .ldiv32 _ _ _ _ => 10
  | .ldiv64 _ _ _ _ => 10
  | .stiv32 _ _ _ _ => 10
  | .stiv64 _ _ _ _ => 10
  | .atomAdd _ _ _ _ => 10
  | .atomMin _ _ _ _ => 10
  | .atomMinUn _ _ _ _ => 10
  | .atomMax _ _ _ _ => 10
  | .atomMaxUn _ _ _ _ => 10
  | .atomAnd _ _ _ _ => 10
  | .atomOr _ _ _ _ => 10
  | .atomXor _ _ _ _ => 10
  | .atomXchg _ _ _ _ => 10
  | .atomCas _ _ _ _ => 10
  | .redAdd _ _ _ _ => 10
  | .redMin _ _ _ _ => 10
  | .redMinUn _ _ _ _ => 10
  | .redMax _ _ _ _ => 10
  | .redMaxUn _ _ _ _ => 10
  | .redAnd _ _ _ _ => 10
  | .redOr _ _ _ _ => 10
  | .redXor _ _ _ _ => 10
  | .pf _ _ _ => 16
  | .qpush _ _ _ _ => 17
  | .qpop _ _ _ _ => 17
  | .qpopNb _ _ _ _ _ => 14
  | .sigin _ _ _ => 16
  | .recRd _ _ _ _ _ => 8
  | .recWr _ _ _ _ _ => 8
  | .lcload _ _ _ _ => 10
  | .bankMode _ _ _ => 23
  | .acq _ => 28
  | .rel _ => 28
  | .acqrel _ => 28
  | .snapOpen _ _ => 20
  | .snapClose => 32
  | .txb _ _ => 20
  | .txc _ => 29
  | .txa _ => 26
  | .txchk _ => 29
  | .vpub _ _ => 18
  | .br _ _ _ => 8
  | .br3 _ _ _ _ => 10
  | .call _ _ _ => 8
  | .brt _ _ _ => 16
  | .jmp _ _ => 22
  | .ret _ _ => 22
  | .exitT _ => 28
  | .nop _ => 28
  | .reform _ => 28
  | .sbarEnrol _ _ => 21
  | .sbarJoin _ => 30
  | .barArrive _ _ _ => 17
  | .barWait _ _ => 23
  | .barSync _ _ _ => 17
  | .shflIdx _ _ _ _ => 10
  | .shflUp _ _ _ _ => 10
  | .shflDown _ _ _ _ => 10
  | .shflXor _ _ _ _ => 10
  | .voteAll _ _ _ => 22
  | .voteAny _ _ _ => 22
  | .voteBallot _ _ _ => 19
  | .gredAdd _ _ _ => 16
  | .gredMin _ _ _ => 16
  | .gredMax _ _ _ => 16
  | .gredAnd _ _ _ => 16
  | .gredOr _ _ _ => 16
  | .gredXor _ _ _ => 16
  | .bcast _ _ _ _ => 10
  | .tryT _ _ _ _ => 10
  | .tend _ => 28
  | .fold _ _ => 22
  | .fuel _ _ _ => 16
  | .mma _ _ _ _ _ _ _ _ _ _ => 8
  | .mmaSp _ _ _ _ _ _ _ _ _ _ _ => 8
  | .accSwap _ _ => 26
  | .accZero _ _ => 26
  | .accLd _ _ _ _ _ _ _ => 14
  | .accSt _ _ _ _ _ _ _ => 14
  | .copy _ _ _ _ _ _ => 8
  | .slabld _ _ _ _ _ => 8
  | .xform _ _ _ _ _ _ => 14
  | .futTest _ _ _ _ => 13
  | .futCancel _ _ => 22
  | .drain _ _ => 27
  | .jobPush _ _ _ => 12
  | .jobDone _ _ => 22
  | .yield _ => 28
  | .launch _ _ _ => 12
  | .qstat _ _ _ _ => 10
  | .trap _ _ _ => 20
  | .rft _ _ _ => 16
  | .halt _ _ => 22
  | .ctxSave _ _ _ _ => 10
  | .ctxLoad _ _ _ => 16
  | .time _ _ _ => 21
  | .setsr _ _ _ => 14
  | .elmCtlWrite _ _ _ _ => 0
  | .clauseHeader => 0
  | .loadDataReturn _ => 0
  | .storeAcknowledge _ => 0
  | .iterativeResult _ => 0
  | .pageWalkComplete _ => 0
  | .replicaCopyComplete _ _ => 0
  | .replicaDropAck _ _ => 0
  | .copyInvalidateAck _ _ => 0
  | .wordRevocation _ _ => 0
  | .sideLogReplay _ _ => 0
  | .bankModeSwitchComplete _ _ _ => 0
  | .lockComplete _ => 0
  | .commitComplete _ => 0
  | .collectorRecompute _ => 0
  | .versionStoreExhausted _ => 0
  | .engineAccept _ _ _ => 0
  | .engineStart _ _ _ => 0
  | .engineComplete _ _ _ _ => 0
  | .arrayAccept _ _ => 0
  | .mmaStart _ _ => 0
  | .chunkPromotion _ _ _ => 0
  | .accBankExchange _ _ _ => 0
  | .accMoveComplete _ _ _ => 0
  | .spawnStart _ _ _ => 0
  | .binTimeout _ => 0
  | .softBarrierTimeout _ => 0
  | .regGrowGrant _ _ => 0
  | .allBlockedSpill _ _ => 0
  | .spillComplete _ => 0
  | .groupFill _ => 0
  | .fifoWaitResume _ _ _ => 0
  | .trialEnd _ => 0
  | .cardFile _ _ => 0
  | .cardDraw _ _ => 0
  | .tileLineArrival _ _ => 0
  | .dispatchPick _ => 0
  | .teamPlacement _ => 0
  | .budgetExhausted _ => 0
  | .forcedSliceEnd _ => 0
  | .completionSignal _ => 0
  | .harbourmasterEvaluation _ => 0
  | .berthHandover _ _ => 0
  | .sliceArbitration _ => 0
  | .contextSaveComplete _ => 0
  | .saveRetry _ => 0
  | .uncorrectableCompressionMetadata _ _ _ => 0
  | .uncorrectableData _ _ _ => 0
  | .uncorrectableContextState _ => 0
  | .internalMachineCheck _ _ => 0
  | .replayIntervalEnd _ => 0
  | .replayStopReached _ => 0
  | .bindContext _ _ _ => 0
  | .writeRecord _ _ _ _ => 0
  | .translationInvalidate _ _ _ _ => 0
  | .translationInvalidateComplete _ => 0
  | .resolvePage _ _ _ => 0
  | .refusePage _ _ _ => 0
  | .carveRegion _ _ => 0
  | .configureQuay _ _ => 0
  | .preEmptTeam _ _ => 0
  | .diePowerState _ _ _ => 0
  | .tierPowerState _ _ _ _ => 0
  | .relockEnd _ => 0
  | .thermalTrip _ => 0
  | .counterOrganisation _ _ => 0
  | .startPacket _ _ => 0
  | .stopPacket _ _ => 0
  | .replayMode _ _ _ => 0
  | .replayStop _ _ _ _ => 0
  | .firmwareBlockWrite _ _ _ => 0
  | .firmwareCommit _ => 0
  | .setFabricNumber _ _ => 0
  | .submissionWrite _ _ _ => 0
  | .hostMemoryWrite _ _ => 0
  | .hostMemoryRead _ _ => 0
  | .hostCompletionTimeout _ => 0
  | .flitCrcFailure _ => 0
  | .deviceReset _ => 0
  | .fillComplete _ => 0
  | .restoreComplete _ => 0
  | .accZeroComplete _ _ _ => 0
  | .linkRetrained _ => 0
  | .remoteAccessArrival _ => 0
  | .forwardedCardArrival _ _ _ _ => 0

/-! ### The table's one-word reading -/

/-- One class's reading of a table word: the literal and target words it calls for are the bits above 32 of `w`. -/
def tableRead (w : Nat) (cls : Cls) : Option Instr :=
  let w0 := BitVec.ofNat 32 w
  let ext := (List.range (extCount cls w0)).map (fun k => BitVec.ofNat 32 (w >>> (32 * (k + 1))))
  match decode cls 32 true w0 ext with
  | .ok i _ => some i
  | .trap _ => none

/-- The better of two readings: the one whose table row fixes more bits, the earlier class on a tie. -/
def better (x y : Option Instr) : Option Instr :=
  match x, y with
  | some i, some j => if i.fixedBits < j.fixedBits then y else x
  | some _, none => x
  | none, _ => y

/-- The instruction the decoder reads from a table word. A word's meaning depends on its clause's class (R22), which
the table's bits do not hold: among the classes in which the word is an instruction, the row that fixes the most
bits is taken (DESIGN CHOICE, log entry 19). -/
def decodeTableWord (nbits w : Nat) : Option Instr :=
  if nbits < 32 then none
  else [Cls.lane, .memory, .control, .matrix, .copy, .task, .system].foldl (fun x c => better x (tableRead w c)) none

end Sys2Proof
end

