-- ==== Sys2Proof/Machine/Mem.lean ====
section
/-! DEFINITION. Byte memory as a list of cells in one canonical form: rising addresses, no cell equal to
what an unlisted address reads as (DESIGN CHOICE, log entry 5). -/

namespace Sys2Proof.Machine

/-- Byte-addressed memory (R69, R70, R131, R176). -/
abbrev Memory := List Host.Cell

/-- What an unlisted address reads as. The spec gives no contents at power-up for main memory (DESIGN CHOICE, log entry 5). -/
def Memory.unlisted : Byte := 0

/-- One byte. -/
def Memory.read : Memory → Nat → Byte
  | [], _ => Memory.unlisted
  | (k, v) :: t, a => if k = a then v else Memory.read t a

/-- Remove an address. -/
def Memory.erase (m : Memory) (a : Nat) : Memory := m.filter fun kv => kv.1 != a

/-- Insert a byte that differs from the unlisted one. -/
def Memory.insert : Memory → Nat → Byte → Memory
  | [], a, b => [(a, b)]
  | (k, v) :: t, a, b =>
    if a < k then (a, b) :: (k, v) :: t
    else if a = k then (a, b) :: t
    else (k, v) :: Memory.insert t a b

/-- Write one byte, keeping the canonical form. -/
def Memory.write (m : Memory) (a : Nat) (b : Byte) : Memory :=
  if b = Memory.unlisted then Memory.erase m a else Memory.insert m a b

/-- Read consecutive bytes, lowest address first (R2). -/
def Memory.readN (m : Memory) (a : Nat) : Nat → List Byte
  | 0 => []
  | n + 1 => Memory.read m a :: Memory.readN m (a + 1) n

/-- Write consecutive bytes, lowest address first (R2). -/
def Memory.writeN (m : Memory) (a : Nat) : List Byte → Memory
  | [] => m
  | b :: bs => Memory.writeN (Memory.write m a b) (a + 1) bs

/-- The canonical form. -/
def Memory.wf : Memory → Bool
  | [] => true
  | [(_, v)] => decide (v ≠ Memory.unlisted)
  | (k, v) :: (k', v') :: t => decide (v ≠ Memory.unlisted) && decide (k < k') && Memory.wf ((k', v') :: t)

/-- Little-endian value of bytes (R2). -/
def leVal : List Byte → Nat
  | [] => 0
  | b :: bs => b.toNat + 256 * leVal bs

/-- The low n bytes of a number, lowest first (R2). -/
def leBytes : Nat → Nat → List Byte
  | 0, _ => []
  | n + 1, v => BitVec.ofNat 8 v :: leBytes n (v / 256)

end Sys2Proof.Machine
end

