-- ==== Sys2Proof/Machine/Tbl.lean ====
section
/-! DEFINITION. Sparse tables: lists of (key, value) pairs in rising key order, one entry per key. -/

namespace Sys2Proof.Machine

/-- A sparse table; absent keys hold nothing. -/
abbrev Tbl (α : Type) := List (Nat × α)

/-- The value at a key, if the table lists one. -/
def Tbl.find {α : Type} : Tbl α → Nat → Option α
  | [], _ => none
  | (k, v) :: t, i => if k = i then some v else Tbl.find t i

/-- The value at a key, or the default. -/
def Tbl.getD {α : Type} (t : Tbl α) (i : Nat) (d : α) : α := (Tbl.find t i).getD d

/-- Write a value at a key, keeping the keys rising. -/
def Tbl.put {α : Type} : Tbl α → Nat → α → Tbl α
  | [], i, a => [(i, a)]
  | (k, v) :: t, i, a =>
    if i < k then (i, a) :: (k, v) :: t
    else if i = k then (i, a) :: t
    else (k, v) :: Tbl.put t i a

/-- Remove a key. -/
def Tbl.drop {α : Type} (t : Tbl α) (i : Nat) : Tbl α := t.filter fun kv => kv.1 != i

/-- Apply a function to every value. -/
def Tbl.mapVals {α : Type} (t : Tbl α) (f : α → α) : Tbl α := t.map fun kv => (kv.1, f kv.2)

/-- Apply a function to the value at a key, where one is listed. -/
def Tbl.upd {α : Type} (t : Tbl α) (i : Nat) (f : α → α) : Tbl α :=
  match Tbl.find t i with
  | some a => Tbl.put t i (f a)
  | none => t

/-- The values. -/
def Tbl.vals {α : Type} (t : Tbl α) : List α := t.map (·.2)

/-- Keys strictly rising. -/
def Tbl.sorted {α : Type} : Tbl α → Bool
  | [] => true
  | [_] => true
  | (k, _) :: (k', v') :: t => decide (k < k') && Tbl.sorted ((k', v') :: t)

end Sys2Proof.Machine
end

