-- ==== Sys2Proof/Machine/State.lean ====
section
/-! DEFINITION. The state of the machine: everything the spec gives it, as plain data. -/

namespace Sys2Proof.Machine

/-! ### Values -/

/-- Kinds of a register entry (R191). -/
inductive Kind where
  | empty | i32 | i64 | f32 | f64 | iv32 | iv64 | fut
  deriving DecidableEq, Repr

/-- Values of a predicate (R198). -/
inductive Tri where
  | F | T | U
  deriving DecidableEq, Repr

/-- One register entry (R191). `ready` is the die's lane cycle from which a fixed-latency result may be read (R39);
`wait` names the operation that will write an interlocked result, whose kind stands already where it is an IV64's (R40,
R196); `old` is what the same physical entry held before (R40). -/
structure Entry where
  val : Word64
  kind : Kind
  res : BitVec 3
  ready : Nat
  wait : Option (Nat × Nat)
  old : Word64 × Kind
  deriving DecidableEq, Repr

/-- An EMPTY entry. -/
def Entry.blank : Entry := ⟨0, .empty, 0, 0, none, (0, .empty)⟩

/-- The parity bit that a predicate is stored with (R198): of its 2-bit code. -/
def Tri.parity : Tri → Bool
  | .F => false | .T => true | .U => true

/-- One predicate with the availability of its latest result, what it held before (R40), and its parity bit (R198). -/
structure PCell where
  v : Tri
  ready : Nat
  wait : Option (Nat × Nat)
  old : Tri
  par : Bool
  deriving DecidableEq, Repr

/-- A predicate that holds a value. -/
def PCell.of (v : Tri) : PCell := ⟨v, 0, none, v, v.parity⟩

/-! ### Threads -/

/-- Why a thread waits: a leaf of R377 and what is tested before it may go on. -/
inductive Wake where
  | poll
  | token (ts : List Nat)
  | counts (ld st : Bool)
  | event
  deriving DecidableEq, Repr

/-- A thread's wait (R377, R378). -/
structure Hold where
  leaf : BitVec 4
  on : Wake
  deriving DecidableEq, Repr

/-- Who a thread is and where it stands (R286, R287). -/
structure Ident where
  work : Nat
  group : Nat
  tig : Nat
  die : Nat
  core : Nat
  lane : Nat
  slot : Nat
  deriving DecidableEq, Repr

/-- A thread's place in its code (R18, R20). `pc` is the address of the clause header, or its word offset in the
candidate; `win` the position of the next word, 0 at the header; `words` the clause as fetched whole (R82). -/
structure Pos where
  pc : Nat
  win : Nat
  hdr : Word32
  words : List Word32
  fetched : Bool
  g : Bool
  deriving DecidableEq, Repr

/-- Registers of a thread (R191-R198). -/
structure Regs where
  q : Vector Entry 16
  k : Vector Entry 32
  p : Vector PCell 8
  deriving DecidableEq, Repr

/-- The three outstanding-operation counts (R21). -/
structure Counts where
  ld : Nat
  st : Nat
  en : Nat
  deriving DecidableEq, Repr

/-- An open snapshot or transaction (R108, R110): its stamp, whether it is a transaction, the reason it is
doomed, 0 for none (R101), and whether it wrote a line of another device (R96). -/
structure View where
  stamp : Nat
  tx : Bool
  doom : Nat
  far : Bool
  deriving DecidableEq, Repr

/-- Trap registers and the trap shadow (R358-R360); `cand` says that the cause was a suspended candidate's (R362). -/
structure TrapRegs where
  epc : Word64
  cause : Word64
  val : Word64
  shq : Vector Entry 16
  shp : Vector PCell 8
  cand : Bool
  deriving DecidableEq, Repr

/-- The decoded-field registers (R44). -/
structure DecRegs where
  op : Word64
  a : Word64
  b : Word64
  c : Word64
  word : Word64
  deriving DecidableEq, Repr

/-- How a trial ends: status, cause and offending offset (R321, R323). -/
structure Ending where
  st : Nat
  cause : Cause
  off : Nat
  deriving DecidableEq, Repr

/-- Trial state (R314); `pc` is the word offset of the clause a suspended candidate stands at (R362). -/
structure Trial where
  len : Nat
  id : Nat
  allow : Nat
  fuel : Nat
  grant : Word64
  out : Nat
  back : Nat
  ending : Option Ending
  susp : Bool
  pc : Nat
  deriving DecidableEq, Repr

/-- An interlocked result on its way to a thread: its token, the lane cycle it is due, and what it delivers. `solo`: it is of
an iterative lane operation, of which a thread has at most one in flight (R215); the others are collectives' (R309). -/
structure IterOp where
  tok : Nat
  solo : Bool
  due : Nat
  vals : List (Word64 × Kind)
  preds : List Tri
  deriving DecidableEq, Repr

/-- Where a thread is held. -/
inductive Place where
  | running
  | bin
  | coll
  | soft
  | yielded
  deriving DecidableEq, Repr

/-- One thread. For the word it stands at: `xlat` are walks that ended without a page, `checked` the record words of its
access once checks 1 to 6 of R144 have passed (R164), `missed` the lines that missed in translation (R380), `retry` how
often it was issued once more (R207). -/
structure Thread where
  id : Ident
  pos : Pos
  regs : Regs
  cnt : Counts
  sck : Bool
  sckNext : Option Bool
  cyc : Word64
  view : Option View
  txwhy : Word64
  txstamp : Word64
  xcrc : Word64
  h0 : Word64
  h1 : Word64
  trap : TrapRegs
  dec : DecRegs
  trial : Option Trial
  deferred : List (Cause × Word64)
  budgetDue : Bool
  arrived : List (Nat × Nat)
  iter : List IterOp
  place : Place
  done : Bool
  hold : Option Hold
  xlat : List (Nat × Cause)
  checked : Option (BitVec 512)
  missed : List Nat
  retry : Nat
  since : Nat
  stage : Nat
  part : Bool
  bundle : Nat
  deriving DecidableEq, Repr

/-! ### Groups, bundles, bins, teams, cards -/

/-- A group of threads (R197, R203, R295). -/
structure Group where
  work : Nat
  num : Nat
  size : Nat
  n : Nat
  g : Vector (Word64 × Kind) 7
  enrolled : List Nat
  thresh : Nat
  softA : List (Nat × Nat)
  grow : Option (Nat × Nat)
  spill : Option Nat
  deriving DecidableEq, Repr

/-- A bundle (R288, R294); `lead` is the leaf of its slot while its lanes run no
beat before lane cycle `till`, after which they run S beats (R377), `passed` that it was ready in this lane cycle and not started
(R350). -/
structure Bundle where
  group : Nat
  die : Nat
  core : Nat
  slice : Nat
  tids : List Nat
  gang : Nat
  age : Nat
  passed : Bool
  busy : Nat
  lead : BitVec 4
  till : Nat
  serial : Nat
  deriving DecidableEq, Repr

/-- A PC bin (R290, R296): members with the lane cycle of filing; `full` are threads of its key that found their lane full,
and open a new bin once it is released (R291). -/
structure Bin where
  die : Nat
  core : Nat
  slice : Nat
  group : Nat
  addr : Nat
  tids : List (Nat × Nat)
  full : List Nat
  coll : Bool
  deriving DecidableEq, Repr

/-- The kernel header (R48). -/
structure Kernel where
  backing : Nat
  fq : Nat
  acc : Nat
  nb : Nat
  sp : Nat
  team : Nat
  group : Nat
  named : Nat
  deriving DecidableEq, Repr

/-- A named barrier (R300); `ends` are generations that completed lately, each with its lane cycle and core (R308). -/
structure Barrier where
  exp : Option Nat
  arr : Nat
  gen : Nat
  ends : List (Nat × Nat × Nat)
  deriving DecidableEq, Repr

/-- Why a team is switched out (R366, R367). -/
inductive SwitchWhy where
  | host | forced | yielded
  deriving DecidableEq, Repr

/-- A team's switch state (R366-R369). -/
inductive Switch where
  | running
  | stopping (w : SwitchWhy)
  | noRoom (w : SwitchWhy)
  | saved (w : SwitchWhy)
  | restoring (w : SwitchWhy)
  deriving DecidableEq, Repr

/-- A bank's contents in a save area (R367). -/
structure BankImage where
  core : Nat
  bank : Nat
  fifo : Bool
  bytes : Memory
  items : List Word64
  head : Nat
  tail : Nat
  poison : List Nat
  deriving DecidableEq, Repr

/-- An accumulator tile's contents in a save area (R367). -/
structure TileImage where
  core : Nat
  tile : Nat
  words : Tbl (BitVec 32)
  deriving DecidableEq, Repr

/-- What a replay log holds (R386). -/
structure ReplayLog where
  tid : Nat
  val : Word64
  deriving DecidableEq, Repr

/-- Who wrote a version: a plain store, a transaction's thread, a publish group (R93, R101, R115), or a team in replay
mode (R386). -/
inductive Owner where
  | plain
  | tx (tid : Nat)
  | pub (ctx tb : Nat)
  | rpl (work : Nat)
  deriving DecidableEq, Repr

/-- A pending or locked version (R91, R115): `stamp` none while pending or locking; `slot` is its place in the version
store (R93). -/
structure Pending where
  owner : Owner
  mask : BitVec 256
  data : LineData
  locking : Bool
  stamp : Option Nat
  slot : Option Nat
  deriving DecidableEq, Repr

/-- An older committed version (R92, R93); one without a slot is kept for no open view (R106). -/
structure Older where
  stamp : Nat
  data : LineData
  owner : Owner
  slot : Option Nat
  deriving DecidableEq, Repr

/-- A team's state at the start of a checkpoint interval, as a save would hold it (R386, R367). -/
structure TeamImage where
  threads : Tbl Thread
  groups : Tbl Group
  bundles : Tbl Bundle
  bins : Tbl Bin
  bars : Tbl Barrier
  sat : Tbl (BitVec 16)
  cores : List Nat
  banks : List BankImage
  accs : List TileImage
  wins : Tbl (List Byte)
  pend : List (Nat × Pending)
  deriving DecidableEq, Repr

/-- The checkpoint of an interval (R386): its snapshot stamp, where the rotation stood, and what the interval logged
once it has ended. -/
structure Checkpoint where
  ivl : Nat
  snap : Nat
  turn : Nat × Nat
  log : List ReplayLog
  image : TeamImage
  deriving DecidableEq, Repr

/-- Replay mode of a team (R385-R387). `checks` holds the checkpoints, newest first; `stop` is the count a re-execution
runs to, and `reached` that it has stopped there; `turn` is the (group, thread index) that started last, `last` the
thread whose word retired last; `held` and `heldHost` the writes of the
interval to this device's memory and to the host's. -/
structure Replay where
  limit : Nat
  ivl : Nat
  cnt : Nat
  checks : List Checkpoint
  log : List ReplayLog
  cursor : Nat
  stop : Option Nat
  reached : Bool
  turn : Nat × Nat
  last : Option (Nat × Ident × Word32)
  ended : Bool
  held : List (Nat × Byte)
  heldHost : List (Nat × Byte)
  deriving DecidableEq, Repr

/-- A team's budget (R344, R355). -/
structure Budget where
  start : Nat
  spent : Nat
  trapAt : Option Nat
  trapped : Bool
  deriving DecidableEq, Repr

/-- A side-log entry: one coalesced line write (R86). -/
structure SideEntry where
  ctx : Nat
  line : Nat
  word : Nat × Nat
  ops : List Nat
  deriving DecidableEq, Repr

/-- A resident or saved team (R286, R341, R343). `satNow` are bits of sr.mx.sat set in a lane cycle, by core (R250); `banks` to `area` hold what its save area holds while it is saved. -/
structure Work where
  card : Nat
  ctx : Nat
  team : Nat
  die : Nat
  cores : List Nat
  kernel : Kernel
  sat : Tbl (BitVec 16)
  satNow : Tbl (Nat × BitVec 16)
  bars : Tbl Barrier
  tiles : Tbl (List Nat)
  bud : Budget
  sw : Switch
  banks : List BankImage
  accs : List TileImage
  side : List SideEntry
  wins : Tbl (List Byte)
  area : Nat
  rpl : Option Replay
  deriving DecidableEq, Repr

/-- Where a card stands (R337-R343): `held` is a submission that is still to be checked, since its die or what the check reads does not
serve requests now (R394, R395). -/
inductive CardState where
  | held | waiting | ring | drawn | ready | picked | running | done
  deriving DecidableEq, Repr

/-- An accepted card (R334-R345); `sigWait` is the end of the window in which its signal waits for a version slot (R107,
R345). -/
structure Card where
  ctx : Nat
  bits : BitVec 512
  kernel : Kernel
  ublock : List Byte
  snap : Option Nat
  homeDie : Nat
  quay : Nat
  target : Nat
  st : CardState
  order : Nat
  lines : List (Nat × Nat)
  next : Nat
  live : List Nat
  requeued : List Nat
  result : BitVec 32
  serial : Nat
  sigWait : Option Nat
  deriving DecidableEq, Repr

/-! ### Memory operations, engines -/

/-- The home a record selects (R141). -/
inductive Home where
  | main | scratch | host
  | remote (dev : Nat)
  deriving DecidableEq, Repr

/-- Atomic and reduction operators (R158). -/
inductive AtomOp where
  | add | min | minUn | max | maxUn | and | or | xor | xchg | cas
  deriving DecidableEq, Repr

/-- What a memory operation does when it performs. -/
inductive Act where
  | load (size count : Nat) (sx : Bool) (kind : Kind) (acq : Bool)
  | iload (wide : Bool)
  | store (data : List Byte) (bits : Nat)
  | atom (op : AtomOp) (w : Nat) (kind : Kind) (v cmp : Nat) (ret : Bool)
  | sigin (h0 h1 : Word64)
  | lcload
  | recRd (j c : Nat)
  | recWr (j : Nat) (vals : List Word64)
  | qpush (bank : Nat)
  | qpop (vals : List Word64) (ok : Option Bool)
  | ctxLoad
  deriving DecidableEq, Repr

/-- The stamp a load reads under: view 0, a snapshot stamp, or a transaction's start stamp and thread (R97, R125). -/
inductive ReadAs where
  | latest
  | snap (stamp : Nat)
  | tx (stamp tid : Nat)
  deriving DecidableEq, Repr

/-- A part of an access within one 16-byte chunk or one line: its virtual address, its place at the home, the place a
read of it goes to (a replica's frame or the home, R83), its offset in the access's data, its length, and whether its
page is versioned (R72). -/
structure Piece where
  va : Nat
  pa : Nat
  src : Nat
  off : Nat
  len : Nat
  ver : Bool
  deriving DecidableEq, Repr

/-- One issued access (R21, R264). `pieces` are the parts that have not performed yet, `revs` the revocations that a write waits
for (R120); `who` is its thread, which may have ended since; `asked` are the lines that its word has requested already (R145). Thread 0
stands for accesses of no thread: BAR 2's (`tb` 0), another device's (256), and the device's own (257). -/
structure MemOp where
  tid : Nat
  who : Ident
  ctx : Nat
  tb : Nat
  die : Nat
  core : Nat
  act : Act
  home : Home
  pieces : List Piece
  view : ReadAs
  hint : Hint
  tok : Nat
  performed : Bool
  revs : List (Nat × Nat)
  window : Option Nat
  trial : Bool
  key : Nat × Nat
  blocking : Bool
  out : List (Word64 × Kind)
  asked : List Nat
  deriving DecidableEq, Repr

/-- Status of an engine operation (R170, R172, R186): `walking` is one that runs and waits for a page walk, `parked` one whose page the
host has been asked for. -/
inductive EngState where
  | queued | accepted | running
  | walking (va : Nat)
  | parked (va : Nat)
  | ended
  deriving DecidableEq, Repr

/-- What an engine or the array is asked to do; records are the words read at the checks (R164). -/
inductive EngWhat where
  | copy (dst src : BitVec 512) (dL sL c : Nat)
  | slabld (src : BitVec 512) (srow col0 off c : Nat)
  | xform (dst src : BitVec 512) (t : XCtl) (dL sL : Nat)
  | mma (ra rb : BitVec 512) (tile : Nat) (fA fB : BitVec 4) (sp : Option Sparse) (ovw : Bool)
      (row0 col off u nk vc : Nat)
  | accLd (r : BitVec 512) (tile : Nat) (fM fT : BitVec 4) (L rows : Nat)
  | accSt (r : BitVec 512) (tile : Nat) (fM fT : BitVec 4) (L rows : Nat)
  | accSwap (tile : Nat)
  | accZero (tile : Nat)
  deriving DecidableEq, Repr

/-- An operation handed to an engine (R166-R172, R252). `tok` is the token of the destinations; `others` are further
threads its future goes to; `taken` is its number in the order of acceptance (R185); `viewD` and `viewS` are the stamps under
which it reads its two records; `progress` counts the
destination bytes, chunks or rows finished; `begun` says that the chunk now in progress has been started, `start` is when the
operation started, in 288ths of a tick (R184, R255); `got` are the reads done for it, latest first, and `buf` an xform's formed
result (R182, R186). -/
structure EngOp where
  tid : Nat
  others : List Nat
  ctx : Nat
  work : Nat
  group : Nat
  tbD : Nat
  what : EngWhat
  tok : Nat
  slot : Option Nat
  st : EngState
  taken : Nat
  progress : Nat
  cancel : Bool
  retried : Bool
  viewD : ReadAs
  viewS : ReadAs
  begun : Bool
  start : Nat
  got : List (List Byte)
  buf : Option (List Byte)
  order : Nat
  deriving DecidableEq, Repr

/-- A future slot (R170-R172): generation, status once the operation has completed, CRCs of an xform (R174). -/
structure Slot where
  gen : BitVec 16
  busy : Bool
  status : Option (BitVec 32)
  crc : Word64
  deriving DecidableEq, Repr

/-- One engine of a core, or the array (R166, R252). -/
structure Engine where
  slots : Tbl Slot
  next : Nat
  ops : Tbl EngOp
  deriving DecidableEq, Repr

/-! ### Cores -/

/-- An L1 line (R121, R124, R125, R137). `line` is the virtual line number, `ver` whether its page is versioned; `way` the cache bank
that holds it. -/
structure L1Line where
  ctx : Nat
  line : Nat
  phys : Nat
  ver : Bool
  tag : Nat
  valid : BitVec 4
  mask : BitVec 256
  data : LineData
  hint : Hint
  used : Nat
  way : Nat
  deriving DecidableEq, Repr

/-- A core bank (R131-R134). -/
structure Bank where
  mode : BankMode
  own : Option Nat
  bytes : Memory
  items : List Word64
  head : Nat
  tail : Nat
  poison : List Nat
  deriving DecidableEq, Repr

/-- A bank-mode switch in progress (R132, R161). -/
structure BankSwitch where
  bank : Nat
  mode : BankMode
  due : Nat
  work : Nat
  tid : Nat
  key : Nat × Nat
  deriving DecidableEq, Repr

/-- A bank of context counters (R383). -/
structure CtxBank where
  leaves : Vector Word64 16
  events : Vector Word64 4
  deriving DecidableEq, Repr

/-- Counters of a core (R379-R383). -/
structure Obs where
  leaves : Vector Word64 16
  slots : Word64
  ctl : Vector Word64 8
  cnt : Vector Word64 8
  edge : Vector Word64 8
  bins : Vector Word64 8
  run : Nat
  prevA : Vector Nat 8
  raw : Vector Nat 12
  banks : Tbl CtxBank
  deriving DecidableEq, Repr

/-- A cached translation (R78): region of 2^shift bytes, its leaf entry. -/
structure Tlb where
  ctx : Nat
  shift : Nat
  region : Nat
  pte : Word64
  deriving DecidableEq, Repr

/-- One core. `modeQ` are the bundles that have reached a bank with a bank.mode, each with the bank and its word (R161); `laneBusy` is
by lane, `started`, `useful` and `wasted` by slice: lane cycles until which lanes are taken, a slice has started a bundle, and beats run,
those with the context that runs them (R350, R377, R383). -/
structure Core where
  banks : Vector Bank 32
  switches : List BankSwitch
  modeQ : List (Nat × Nat × Nat)
  l1 : List L1Line
  vtags : Tbl ReadAs
  tlb : List Tlb
  side : List SideEntry
  laneBusy : Tbl Nat
  started : Tbl Nat
  useful : Tbl (Nat × Nat)
  wasted : Tbl (Nat × Nat)
  engines : Vector Engine 4
  slab : Memory
  acc : Tbl (BitVec 32)
  tileOwn : Tbl Nat
  windows : Tbl (List Byte)
  barOwn : Tbl Nat
  obs : Obs
  deriving DecidableEq, Repr

/-! ### Dies -/

/-- A page request (R80). -/
structure PageReq where
  va : Nat
  ctx : Nat
  die : Nat
  kind : Nat
  deriving DecidableEq, Repr

/-- Who waits for a walk (R79). -/
inductive Waiter where
  | thread (t : Nat)
  | side (core : Nat)
  | eng (core eng op : Nat)
  deriving DecidableEq, Repr

/-- A page walk in flight, or one held for the host's answer (R79, R80). -/
structure Walk where
  ctx : Nat
  region : Nat
  va : Nat
  kind : Nat
  write : Bool
  waiters : List Waiter
  posted : Option Nat
  deriving DecidableEq, Repr

/-- A replica of a page (R83-R85): owner's page number, frame in the pool, whether its copy is complete. -/
structure Replica where
  page : Nat
  frame : Nat
  complete : Bool
  order : Nat
  deriving DecidableEq, Repr

/-- A line that an L2 slice holds (R117, R119, R137): at home, or as a copy of a line homed on another die; its
replacement class and use. The slice and the set follow from the line's place. -/
structure L2Line where
  line : Nat
  hint : Hint
  used : Nat
  deriving DecidableEq, Repr

/-- A die's version store (R93, R108): `taken` are the slots in use. -/
structure VStore where
  base : Nat
  slots : Nat
  taken : List Nat
  window : Nat
  counted : Nat
  deriving DecidableEq, Repr

/-- A quay (R338, R354). -/
structure Quay where
  en : Bool
  fifo : Bool
  steer : Bool
  size : Nat
  stage : Nat
  hi : Nat
  lo : Nat
  base : Nat
  ring : List Nat
  late : Nat
  deriving DecidableEq, Repr

/-- The dispatcher's and the harbourmaster's state of a die (R341, R347-R349, R367). -/
structure Dispatch where
  quays : Tbl Quay
  we : Nat
  wf : Nat
  edf : Bool
  used : Nat
  picked : Option Nat
  order : Nat
  slicePair : Bool
  berths : Tbl Nat
  serving : Tbl Nat
  floors : Tbl Nat
  evalAt : Nat
  pool : Nat
  statusHead : Nat
  deriving DecidableEq, Repr

/-- One die. `l2` are the lines its slices hold, `codes` the pages whose code blocks a slice's metadata cache holds, latest
first (R117, R129); `obsAt` is the lane cycle at which its counters were last cleared; `rest` counts part of a tick (R396);
`lastCycle`: the lane cycle that was in progress when a relock began is still to be counted (R395). -/
structure Die where
  pst : PState
  gated : Bool
  halted : Bool
  relock : Option (PState × Nat)
  lastCycle : Bool
  pending : List (Ticket × DiePower)
  rest : Nat
  lc : Nat
  mer : Nat
  ncyc : Word64
  p1 : Nat
  near : Bool
  far : Bool
  pq : Tbl PageReq
  walks : List Walk
  tlb : List Tlb
  lw : Nat
  lwAt : Nat
  l2 : List L2Line
  codes : Tbl (List Nat)
  store : Option VStore
  pool : Option (Nat × Nat)
  replicas : List Replica
  metaNear : Option Nat
  metaFar : Option Nat
  disp : Dispatch
  org : Bool
  obsAt : Nat
  srcs : Vector (BitVec 8) 4
  deriving DecidableEq, Repr

/-! ### Home slices -/

/-- A versioned line's chain beyond the newest committed version, which lies at the line's own place (R91, R92). -/
structure VLine where
  stamp : Nat
  owner : Owner
  older : List Older
  pend : List Pending
  intent : Option Nat
  deriving DecidableEq, Repr

/-- A commit under way (R96, R112, R115). -/
structure Commit where
  owner : Owner
  tid : Nat
  die : Nat
  stamp : Option Nat
  remote : Bool
  tok : Nat
  tb : Nat
  ctx : Nat
  core : Nat
  deriving DecidableEq, Repr

/-- A word a store waits to have revoked, or a copy a write waits to have invalidated, is held with the operation;
this is what the home slices themselves hold (R91, R119, R120, R130). `purging` are lines whose copies are being invalidated for a
write (R119), `farGroups` publish groups that wrote a line of another device (R96). -/
structure Homes where
  mem : Memory
  host : Memory
  poison : List Nat
  owner : Tbl Nat
  copies : Tbl (List Nat)
  vlines : Tbl VLine
  heads : List Nat
  collapsing : List Nat
  purging : List Nat
  cmps : List Nat
  farGroups : List (Nat × Nat)
  deriving DecidableEq, Repr

/-! ### Contexts and the device -/

/-- A fault quay (R363). -/
structure FaultQuay where
  base : Nat
  slots : Nat
  head : Nat
  lost : Nat
  deriving DecidableEq, Repr

/-- A context (R76, R139, R325, R360, R363, R384, R391). -/
structure Context where
  root : Word64
  bound : Bool
  recs : Tbl (BitVec 512)
  sigset : Word64
  trapVec : Word64
  fq : Option FaultQuay
  observe : Bool
  auto : Bool
  launchRec : Nat
  peers : List (BitVec 8 × Nat)
  counting : Option Nat
  acc : Tbl CtxBank
  serial : Nat
  deriving DecidableEq, Repr

/-- A translation invalidate in progress (R75): the accesses that it still waits for. -/
structure Invalidate where
  tag : Ticket
  ctx : Nat
  base : Nat
  len : Nat
  ops : List Nat
  deriving DecidableEq, Repr

/-- A wharf link (R392): whether it is up, how often the flit on it has failed, and the device it joins this one to. -/
structure Link where
  up : Bool
  fails : Nat
  peer : Nat
  deriving DecidableEq, Repr

/-- The device (R10, R15, R388-R400). `fwFresh`: a block of the firmware image has been written since the last commit or reset (R400);
`lanes` is the width that the host link trained to; `farSnaps` are snapshots of other devices that have read lines homed here, each with its stamp, `farRegs`
the snapshots of this device that other devices have taken up (R105). -/
structure Device where
  step : BitVec 8
  prod : BitVec 8
  farGiB : BitVec 8
  cores : Vector Word64 4
  fab : BitVec 8
  windows : Tbl (Nat × Nat)
  done : List (Ticket × Nat)
  order : List (Ticket × Option Nat)
  errSlots : Tbl Nat
  errs : List (BitVec 512)
  links : Tbl Link
  peers : List Nat
  almanac : Tbl Nat
  fwOk : Bool
  fwFresh : Bool
  fwBlocks : Tbl (BitVec 64)
  invs : List Invalidate
  lanes : Nat
  hostReads : List (List Byte)
  farSnaps : List (Nat × Nat)
  farRegs : List (Nat × Nat)
  deriving DecidableEq, Repr

/-! ### The machine -/

/-- What is still to be stepped of a lane cycle's starts (R350): a candidate bundle, the words of a bundle past its header,
or one thread's word. -/
inductive Start where
  | bundle (b : Nat)
  | words (b : Nat)
  | word (t : Nat)
  deriving DecidableEq, Repr

/-- The model's own fields: what happens next from outside and in which order, an event or a step of the machine's own;
starts to step; the thread whose word is stepped; fresh names; the counters of free values (DESIGN CHOICE, log entry 2) and of use order. -/
structure Sched where
  agenda : List (Option Instr)
  issue : List Start
  cur : Nat
  nextId : Nat
  draw : Nat
  tick : Nat
  deriving DecidableEq, Repr

/-- The whole machine. -/
structure State where
  sched : Sched
  threads : Tbl Thread
  groups : Tbl Group
  bundles : Tbl Bundle
  bins : Tbl Bin
  works : Tbl Work
  cards : Tbl Card
  ops : Tbl MemOp
  commits : Tbl Commit
  cores : Tbl Core
  dies : Vector Die 4
  homes : Homes
  ctxs : Tbl Context
  dev : Device
  deriving DecidableEq, Repr

/-- How the machine stops. -/
inductive Fault where
  /-- Raised by `step` when the agenda's head is an instruction word, which is no event of the device. The agenda is
  the model's own field, so no machine does this. Safe. -/
  | malformedAgenda
  deriving DecidableEq, Repr

/-- Why an instruction has no meaning. -/
inductive Refusal where
  /-- Raised by `exec` for an instruction not modelled yet; it names the mnemonic. Safe. -/
  | notModelled (mnemonic : String)
  deriving DecidableEq, Repr

/-! ### Reset -/

/-- A bank at core reset (R131, R134); its contents are read by nothing before a grant clears them (R132). -/
def Bank.reset (m : BankMode) : Bank := ⟨m, none, [], [], 0, 0, []⟩

/-- Counters at reset (R379, R381). -/
def Obs.reset : Obs where
  leaves := Vector.replicate 16 0
  slots := 0
  ctl := Vector.replicate 8 0
  cnt := Vector.replicate 8 0
  edge := Vector.replicate 8 0
  bins := Vector.replicate 8 0
  run := 0
  prevA := Vector.replicate 8 0
  raw := Vector.replicate 12 0
  banks := []

/-- A core at reset (R131): bk0-bk15 cache, bk16-bk31 scratchpad, owned by no team. -/
def Core.reset : Core where
  banks := Vector.ofFn fun i => Bank.reset (if i.val < 16 then .cache else .scratchpad)
  switches := []
  modeQ := []
  l1 := []
  vtags := []
  tlb := []
  side := []
  laneBusy := []
  started := []
  useful := []
  wasted := []
  engines := Vector.replicate 4 ⟨[], 0, []⟩
  slab := []
  acc := []
  tileOwn := []
  windows := []
  barOwn := []
  obs := Obs.reset

/-- A core that no team has touched: its counters have counted idle slots since they were last cleared (R377, R379). -/
def Core.idle (d : Die) : Core :=
  let n : Word64 := BitVec.ofNat 64 (16 * (d.lc - d.obsAt))
  { Core.reset with obs := { Obs.reset with
      slots := n, leaves := Vector.ofFn fun i => if i.val = 15 ∧ !d.org then n else 0 } }

/-- A die at reset (R397); its P-state and tier power states are the model's choice (DESIGN CHOICE, log entry 10), its weights and
berth stages likewise (DESIGN CHOICE, log entry 11). -/
def Die.reset : Die where
  pst := .p0
  gated := false
  halted := false
  relock := none
  lastCycle := false
  pending := []
  rest := 0
  lc := 0
  mer := 0
  ncyc := 0
  p1 := 0
  near := true
  far := true
  pq := []
  walks := []
  tlb := []
  lw := 0
  lwAt := 0
  l2 := []
  codes := []
  store := none
  pool := none
  replicas := []
  metaNear := none
  metaFar := none
  disp := ⟨[], 1, 1, true, 0, none, 0, false, [], [], [], 10000, 0, 0⟩
  org := false
  obsAt := 0
  srcs := Vector.replicate 4 0

/-- A context before the host binds it. -/
def Context.reset : Context := ⟨0, false, [], 0, 0, none, false, false, 0, [], none, [], 0⟩

/-- The device at reset: the fuses of an OVT-ULR-M1 with every core present (DESIGN CHOICE, log entry 4). -/
def Device.reset : Device where
  step := 1
  prod := 2
  farGiB := 128
  cores := Vector.replicate 4 0xFFFFFFFFFFFFFFFF
  fab := 0
  windows := []
  done := []
  order := []
  errSlots := []
  errs := []
  links := []
  peers := []
  almanac := []
  fwOk := true
  fwFresh := false
  fwBlocks := []
  invs := []
  lanes := 16
  hostReads := []
  farSnaps := []
  farRegs := []

/-- Home slices and memories at reset (DESIGN CHOICE, log entry 5). -/
def Homes.reset : Homes := ⟨[], [], [], [], [], [], [], [], [], [], []⟩

/-- The machine right after reset: no context bound, no quay configured, no team resident. -/
def State.reset : State where
  sched := ⟨[], [], 0, 1, 0, 0⟩
  threads := []
  groups := []
  bundles := []
  bins := []
  works := []
  cards := []
  ops := []
  commits := []
  cores := []
  dies := Vector.replicate 4 Die.reset
  homes := Homes.reset
  ctxs := []
  dev := Device.reset

end Sys2Proof.Machine
end

