-- ==== Sys2Proof/Machine/Flags.lean ====
section
/-! DEFINITION. Predicates: three-valued logic and the compares that write them (R198, R223-R225). -/

namespace Sys2Proof.Machine

/-- A two-valued result. -/
def Tri.ofBool (b : Bool) : Tri := if b then .T else .F

/-- The code of a predicate (R198). -/
def Tri.code : Tri → Nat
  | .F => 0 | .T => 1 | .U => 2

/-- The predicate of a code; 11 is never held and reads as U. -/
def Tri.ofCode : Nat → Tri
  | 0 => .F | 1 => .T | _ => .U

/-- pand (R225). -/
def Tri.and : Tri → Tri → Tri
  | .F, _ => .F
  | _, .F => .F
  | .T, .T => .T
  | _, _ => .U

/-- por (R225). -/
def Tri.or : Tri → Tri → Tri
  | .T, _ => .T
  | _, .T => .T
  | .F, .F => .F
  | _, _ => .U

/-- pxor (R225). -/
def Tri.xor : Tri → Tri → Tri
  | .U, _ => .U
  | _, .U => .U
  | a, b => Tri.ofBool (a != b)

/-- pnot (R225). -/
def Tri.not : Tri → Tri
  | .T => .F | .F => .T | .U => .U

/-- Whether a condition of R19 holds of a predicate. -/
def Cond.holds : Cond → Tri → Bool
  | .always, _ => true
  | .t, p => p == .T
  | .f, p => p == .F
  | .u, p => p == .U

/-- fcmp.lt (R224). -/
def cmpLt (a b : Num.Iv) : Tri :=
  if a.hi.lt b.lo then .T else if b.hi.le a.lo then .F else .U

/-- fcmp.le (R224). -/
def cmpLe (a b : Num.Iv) : Tri :=
  if a.hi.le b.lo then .T else if b.hi.lt a.lo then .F else .U

/-- fcmp.eq (R224). -/
def cmpEq (a b : Num.Iv) : Tri :=
  if a.lo.eq a.hi && b.lo.eq b.hi && a.lo.eq b.lo then .T
  else if a.hi.lt b.lo || b.hi.lt a.lo then .F else .U

/-- fcmp.ne (R224). -/
def cmpNe (a b : Num.Iv) : Tri := (cmpEq a b).not

end Sys2Proof.Machine
end

