-- ==== Sys2Proof/Machine/Ops.lean ====
section
/-! DEFINITION. The named operations over the state: accessors, registers, bundles, taking a cause (R356-R362),
ending a thread, and the shell in which every instruction word runs (R20-R24, R37-R41, R401). -/

namespace Sys2Proof.Machine

/-- Why a word does not complete: it waits, or takes a cause (R356). -/
inductive Stop where
  | hold (h : Hold)
  | trap (c : Cause) (val : Word64)
  deriving DecidableEq, Repr

/-- The outcome of every instruction and event. -/
abbrev Out := Host.Outcome State Fault Refusal

/-- A computation over the state that may wait or take a cause. -/
abbrev M := EStateM Stop State

/-- Wait. -/
def wait {α : Type} (leaf : BitVec 4) (w : Wake) : M α := throw (.hold ⟨leaf, w⟩)

/-- Take a cause whose sr.trap.val is 0 (R360). -/
def fault {α : Type} (c : Cause) : M α := throw (.trap c 0)

/-- Take a cause with a value for sr.trap.val (R360). -/
def faultAt {α : Type} (c : Cause) (v : Nat) : M α := throw (.trap c (BitVec.ofNat 64 v))

/-- Take a cause when a condition holds. -/
def faultIf (b : Bool) (c : Cause) : M Unit := if b then fault c else pure ()

/-! ### Accessors -/

/-- An absent thread. -/
def Thread.blank : Thread where
  id := ⟨0, 0, 0, 0, 0, 0, 0⟩
  pos := ⟨0, 0, 0, [], false, false⟩
  regs := ⟨Vector.replicate 16 Entry.blank, Vector.replicate 32 Entry.blank, Vector.replicate 8 (PCell.of .F)⟩
  cnt := ⟨0, 0, 0⟩
  sck := false
  sckNext := none
  cyc := 0
  view := none
  txwhy := 0
  txstamp := 0
  xcrc := 0
  h0 := 0
  h1 := 0
  trap := ⟨0, 0, 0, Vector.replicate 16 Entry.blank, Vector.replicate 8 (PCell.of .F), false⟩
  dec := ⟨0, 0, 0, 0, 0⟩
  trial := none
  deferred := []
  budgetDue := false
  arrived := []
  iter := []
  place := .running
  done := false
  hold := none
  xlat := []
  checked := none
  missed := []
  retry := 0
  since := 0
  stage := 0
  part := false
  bundle := 0

/-- A thread that is done with the word it stood at: what it kept for that word goes. -/
def Thread.newWord (th : Thread) : Thread :=
  { th with stage := 0, part := false, xlat := [], checked := none, missed := [], retry := 0 }

/-- Whether the thread runs a candidate now. -/
def Thread.inTrial (th : Thread) : Bool :=
  match th.trial with
  | some r => !r.susp
  | none => false

/-- An absent group. -/
def Group.blank : Group := ⟨0, 0, 16, 0, Vector.replicate 7 (0, .empty), [], 64, [], none, none⟩
/-- An absent kernel header. -/
def Kernel.blank : Kernel := ⟨0, 0, 0, 0, 0, 0, 0, 0⟩
/-- An absent team. -/
def Work.blank : Work := ⟨0, 0, 0, 0, [], Kernel.blank, [], [], [], [], ⟨0, 0, none, false⟩, .running, [], [], [], [], 0, none⟩
/-- An absent card. -/
def Card.blank : Card := ⟨0, 0, Kernel.blank, [], none, 0, 0, 0, .done, 0, [], 0, [], [], 0, 0, none⟩

/-- The thread named `t`. -/
def State.thread (s : State) (t : Nat) : Thread := s.threads.getD t Thread.blank
/-- The group named `g`. -/
def State.group (s : State) (g : Nat) : Group := s.groups.getD g Group.blank
/-- The team named `w`. -/
def State.work (s : State) (w : Nat) : Work := s.works.getD w Work.blank
/-- The card named `c`. -/
def State.card (s : State) (c : Nat) : Card := s.cards.getD c Card.blank
/-- A die. -/
def State.die (s : State) (d : Nat) : Die := s.dies.getD d Die.reset
/-- The core of global number `n` (R9). -/
def State.core (s : State) (n : Nat) : Core := s.cores.getD n (Core.idle (s.die (n / 64)))
/-- A context. -/
def State.ctx (s : State) (c : Nat) : Context := s.ctxs.getD c Context.reset

/-- Change one thread. -/
def State.modThread (s : State) (t : Nat) (f : Thread → Thread) : State :=
  { s with threads := s.threads.upd t f }
/-- Change one group. -/
def State.modGroup (s : State) (g : Nat) (f : Group → Group) : State := { s with groups := s.groups.upd g f }
/-- Change one bundle. -/
def State.modBundle (s : State) (b : Nat) (f : Bundle → Bundle) : State := { s with bundles := s.bundles.upd b f }
/-- Change one team. -/
def State.modWork (s : State) (w : Nat) (f : Work → Work) : State := { s with works := s.works.upd w f }
/-- Change one card. -/
def State.modCard (s : State) (c : Nat) (f : Card → Card) : State := { s with cards := s.cards.upd c f }
/-- Change one core. -/
def State.modCore (s : State) (n : Nat) (f : Core → Core) : State :=
  { s with cores := s.cores.put n (f (s.core n)) }
/-- Change one die. -/
def State.modDie (s : State) (d : Nat) (f : Die → Die) : State :=
  { s with dies := Vector.ofFn fun i => if i.val = d then f s.dies[i] else s.dies[i] }
/-- Change one context. -/
def State.modCtx (s : State) (c : Nat) (f : Context → Context) : State :=
  { s with ctxs := s.ctxs.put c (f (s.ctx c)) }
/-- Change the home slices. -/
def State.modHomes (s : State) (f : Homes → Homes) : State := { s with homes := f s.homes }
/-- Change the device's own registers. -/
def State.modDev (s : State) (f : Device → Device) : State := { s with dev := f s.dev }
/-- Change the model's own fields. -/
def State.modSched (s : State) (f : Sched → Sched) : State := { s with sched := f s.sched }

/-- Global core number of a thread (R9). -/
def Thread.gcore (th : Thread) : Nat := th.id.die * 64 + th.id.core

/-- The thread's state within the monad. -/
def getT (t : Nat) : M Thread := do return (← get).thread t
/-- Change the thread within the monad. -/
def modT (t : Nat) (f : Thread → Thread) : M Unit := modify fun s => s.modThread t f

/-- A fresh identifier. -/
def fresh : M Nat := do
  let s ← get
  set (s.modSched fun c => { c with nextId := c.nextId + 1 })
  return s.sched.nextId

/-- The next index of the free values (DESIGN CHOICE, log entry 2). -/
def drawFree : M Nat := do
  let s ← get
  set (s.modSched fun c => { c with draw := c.draw + 1 })
  return s.sched.draw

/-- The group of a thread. -/
def State.groupOf (s : State) (t : Nat) : Group := s.group (s.thread t).id.group
/-- The team of a thread. -/
def State.workOf (s : State) (t : Nat) : Work := s.work (s.thread t).id.work
/-- The context of a thread. -/
def State.ctxOf (s : State) (t : Nat) : Nat := (s.workOf t).ctx
/-- The lane cycle of the thread's die. -/
def State.lcOf (s : State) (t : Nat) : Nat := (s.die (s.thread t).id.die).lc
/-- The meridian of the thread's die (R397). -/
def State.merOf (s : State) (t : Nat) : Nat := (s.die (s.thread t).id.die).mer

/-! ### Residues and entries (R191, R206) -/

/-- The residue of a value (R206). -/
def residue (v : Word64) : BitVec 3 := BitVec.ofNat 3 (v.toNat % 7)

/-- An entry whose result may be read from lane cycle `r`. -/
def Entry.mk' (v : Word64) (k : Kind) (r : Nat) : Entry := ⟨v, k, residue v, r, none, (0, .empty)⟩

/-- An entry that an operation will fill with a value of kind `k`: part `j` of token `tok` (R40). -/
def Entry.pendK (tok j : Nat) (k : Kind) : Entry := ⟨0, k, 0, 0, some (tok, j), (0, .empty)⟩

/-- An entry that an operation will fill (R40). -/
def Entry.pend (tok j : Nat) : Entry := Entry.pendK tok j .empty

/-- An entry written over another, which an early read may still return (R40). -/
def Entry.over (e o : Entry) : Entry := { e with old := if o.wait.isSome then o.old else (o.val, o.kind) }

/-- A push onto the result queue (R192). -/
def pushQ (q : Vector Entry 16) (e : Entry) : Vector Entry 16 :=
  Vector.ofFn fun i => if h : i.val = 0 then e else q[i.val - 1]

/-- Writes register `k`; the other member of a pair that holds an IV64 becomes EMPTY (R196). -/
def setK (k : Vector Entry 32) (i : Nat) (e : Entry) : Vector Entry 32 :=
  Vector.ofFn fun j =>
    if j.val = i then e
    else if j.val = (if i % 2 = 0 then i + 1 else i - 1) ∧ k[j].kind = .iv64 then Entry.blank
    else k[j]

/-- Writes `es` to registers from `i` on, in one word: members of a pair written together keep each other (R196). -/
def setKs (k : Vector Entry 32) (i : Nat) (es : List Entry) : Vector Entry 32 :=
  Vector.ofFn fun j =>
    if i ≤ j.val ∧ j.val < i + es.length then es.getD (j.val - i) Entry.blank
    else
      let o := if j.val % 2 = 0 then j.val + 1 else j.val - 1
      if k[j].kind = .iv64 ∧ i ≤ o ∧ o < i + es.length then Entry.blank else k[j]

/-- Writes result entries to a destination (R34): one entry is pushed, and written to the named register if one is
named; a wide result goes to the named group only. -/
def Regs.write (r : Regs) (d : Dst) (es : List Entry) : Regs :=
  match d, es with
  | .none, _ => r
  | .q, e :: _ => { r with q := pushQ r.q e }
  | .q, [] => r
  | .k i, [e] => { r with k := setK r.k i.val e, q := pushQ r.q e }
  | .k i, es => { r with k := setKs r.k i.val es }

/-- Writes a predicate; p0 discards writes (R198). -/
def Regs.setP (r : Regs) (p : PReg) (c : PCell) : Regs :=
  { r with p := Vector.ofFn fun i => if i.val = p.val ∧ p.val ≠ 0 then c else r.p[i] }

/-- Writes result entries to a destination, each of them noting what its physical entry held (R40): a queue entry takes the
place of the one pushed sixteen pushes before it (R192). -/
def Regs.put (r : Regs) (d : Dst) (es : List Entry) : Regs :=
  match d, es with
  | .none, _ => r
  | .q, [] => r
  | .q, e :: _ => { r with q := pushQ r.q (e.over r.q[15]) }
  | .k i, [e] => { r with k := setK r.k i.val (e.over r.k[i]), q := pushQ r.q (e.over r.q[15]) }
  | .k i, es => { r with k := setKs r.k i.val (es.mapIdx fun j e => e.over (r.k.toList.getD (i.val + j) Entry.blank)) }

/-- What a predicate holds for a read that comes before its latest result is due (R40). -/
def PCell.held (c : PCell) : Tri := if c.wait.isSome then c.old else c.v

/-- Writes a predicate's value, readable from lane cycle `ready`, with its parity (R198). -/
def Regs.tell (r : Regs) (p : PReg) (v : Tri) (ready : Nat) : Regs :=
  r.setP p ⟨v, ready, none, (r.p[p.val]).held, v.parity⟩

/-- A predicate that an operation will fill (R40). -/
def Regs.expect (r : Regs) (p : PReg) (tok j : Nat) : Regs :=
  r.setP p ⟨.F, 0, some (tok, j), (r.p[p.val]).held, false⟩

/-- Fills the entries that wait for token `tok` (R40). -/
def Regs.deliver (r : Regs) (tok : Nat) (vals : List (Word64 × Kind)) (preds : List Tri) : Regs :=
  let one (e : Entry) : Entry :=
    match e.wait with
    | some (t, j) => if t = tok then
        match vals[j]? with
        | some (v, k) => Entry.mk' v k 0
        | none => Entry.blank
      else e
    | none => e
  let pr (c : PCell) : PCell :=
    match c.wait with
    | some (t, j) => if t = tok then PCell.of (preds.getD j .F) else c
    | none => c
  ⟨r.q.map one, r.k.map one, r.p.map pr⟩

/-- A result that arrives is written to every entry that waits for it, in the trap shadow too (R40, R359). -/
def Thread.land (th : Thread) (tok : Nat) (vals : List (Word64 × Kind)) (preds : List Tri) : Thread :=
  let sh := Regs.deliver ⟨th.trap.shq, th.regs.k, th.trap.shp⟩ tok vals preds
  { th with regs := th.regs.deliver tok vals preds, trap := { th.trap with shq := sh.q, shp := sh.p } }

/-- Changes the thread's registers. -/
def Thread.modRegs (th : Thread) (f : Regs → Regs) : Thread := { th with regs := f th.regs }

/-! ### Bundles (R288, R289, R294) -/

/-- Threads of the list on one lane. -/
def State.onLane (s : State) (ts : List Nat) (l : Nat) : Nat := ts.countP fun t => (s.thread t).id.lane == l

/-- Lanes that the threads use. -/
def State.lanesOf (s : State) (ts : List Nat) : List Nat := (ts.map fun t => (s.thread t).id.lane).eraseDups

/-- The bundles that issue with bundle `b`: itself and the one it is ganged with (R294). -/
def State.gangOf (s : State) (b : Nat) : List (Nat × Bundle) :=
  match s.bundles.find b with
  | none => []
  | some x => s.bundles.filter fun nb => nb.1 == b || (nb.2.gang == x.gang && nb.2.group == x.group)

/-- The threads that issue with thread `t`'s bundle. -/
def State.mates (s : State) (t : Nat) : List Nat :=
  ((s.gangOf (s.thread t).bundle).map fun nb => nb.2.tids).flatten

/-- Lane cycles of one beat of the thread's bundle (R39, R288, R294). -/
def State.beatLen (s : State) (t : Nat) : Nat :=
  (s.gangOf (s.thread t).bundle).foldl (fun m nb =>
    (s.lanesOf nb.2.tids).foldl (fun m l => max m (s.onLane nb.2.tids l)) m) 1

/-- Lane cycles of a beat that pass before the thread's own: its lane runs its bundle's threads in ascending thread index, one
in each lane cycle (R288). -/
def State.turn (s : State) (t : Nat) : Nat :=
  let th := s.thread t
  match s.bundles.find th.bundle with
  | none => 0
  | some x => x.tids.countP fun u => (s.thread u).id.lane == th.id.lane && decide ((s.thread u).id.tig < th.id.tig)

/-- The length of a lane cycle, 288 being one tick (R12, R396). -/
def cycleLength : PState → Nat
  | .p0 => 160 | .p1 => 192 | .p2 => 240 | .p3 => 320

/-- The thread's lane-cycle count in the lane cycle in which its lane runs it (R33, R288). -/
def State.cycNow (s : State) (t : Nat) : Word64 := (s.thread t).cyc + BitVec.ofNat 64 (s.turn t)

/-- The meridian in that lane cycle (R288, R397). -/
def State.merNow (s : State) (t : Nat) : Nat :=
  let d := s.die (s.thread t).id.die
  d.mer + (d.rest + s.turn t * cycleLength d.pst) / 288

/-- Sixteenths that a lane cycle adds to sr.ncyc; `n` numbers the cycles of a stretch at P1 (R396). -/
def cycleSixteenths (p : PState) (n : Nat) : Nat :=
  match p with
  | .p0 => 16
  | .p1 => if n % 5 = 0 then 20 else 19
  | .p2 => 24
  | .p3 => 32

/-- sr.ncyc in the lane cycle in which the thread's lane runs it (R288, R396). -/
def State.ncycNow (s : State) (t : Nat) : Word64 :=
  let d := s.die (s.thread t).id.die
  d.ncyc + BitVec.ofNat 64 ((List.range (s.turn t)).map fun i => cycleSixteenths d.pst (d.p1 + 1 + i)).sum

/-- The lane cycle from which a result of latency `L` beats may be read (R39). -/
def State.readyAt (s : State) (t L : Nat) : Nat := s.lcOf t + L * s.beatLen t

/-- Takes a thread out of its bundle; an emptied bundle is gone. -/
def State.leaveBundle (s : State) (t : Nat) : State :=
  let b := (s.thread t).bundle
  let s := s.modBundle b fun x => { x with tids := x.tids.filter (· != t) }
  let s := match s.bundles.find b with
    | some x => if x.tids.isEmpty then { s with bundles := s.bundles.drop b } else s
    | none => s
  s.modThread t fun th => { th with bundle := 0 }

/-- Makes one bundle of the threads. -/
def State.oneBundle (s : State) (ts : List Nat) (gang : Option Nat) (busy : Nat) : State :=
  match ts with
  | [] => s
  | t :: _ =>
    let th := s.thread t
    let b := s.sched.nextId
    let s := s.modSched fun c => { c with nextId := b + 1 }
    let x : Bundle := ⟨th.id.group, th.id.die, th.id.core, th.id.lane / 4, ts, gang.getD b, 0, false, busy, 0x2, busy, 0⟩
    let s := { s with bundles := s.bundles.put b x }
    ts.foldl (fun s t => s.modThread t fun th => { th with bundle := b, place := .running }) s

/-- Makes a bundle of the threads, in ascending thread index, not to start before lane cycle `busy`; in replay mode
every bundle is a single thread (R385). -/
def State.newBundle (s : State) (ts : List Nat) (gang : Option Nat) (busy : Nat) : State :=
  match ts with
  | [] => s
  | t :: _ =>
    if (s.workOf t).rpl.isSome then ts.foldl (fun s u => s.oneBundle [u] none busy) s
    else s.oneBundle ts gang busy

/-- Whether all threads of a list stand at one place in the code. -/
def State.samePos (s : State) (ts : List Nat) : Bool :=
  match ts with
  | [] => true
  | t :: r => r.all fun u => (s.thread u).pos.pc == (s.thread t).pos.pc && (s.thread u).pos.win == (s.thread t).pos.win

/-- The parts of a bundle by the place each thread goes on at, in order of their lowest thread (R289). -/
def State.partsGo (s : State) : Nat → List Nat → List (List Nat)
  | 0, _ => []
  | _, [] => []
  | n + 1, t :: r =>
    let same (u : Nat) : Bool :=
      (s.thread u).pos.pc == (s.thread t).pos.pc && (s.thread u).pos.win == (s.thread t).pos.win &&
        !(s.thread u).inTrial && !(s.thread t).inTrial
    (t :: r.filter same) :: s.partsGo n (r.filter fun u => !same u)

/-- What the beats of a word that has moved its threads into new bundles count under goes with them: its added beats up to `till`, and
then its S beats (R377). -/
def State.keepLead (s : State) (ts : List Nat) (lead : BitVec 4) (till : Nat) : State :=
  ts.foldl (fun s t => s.modBundle (s.thread t).bundle fun x => { x with lead := lead, till := till }) s

/-- Replaces bundle `b` by its parts (R289); a ganged pair's parts at one header stay ganged (R294). -/
def State.partition (s : State) (b : Nat) : State :=
  let gs := s.gangOf b
  let busy := gs.foldl (fun m nb => max m nb.2.busy) 0
  let till := gs.foldl (fun m nb => max m nb.2.till) 0
  let lead := ((gs.find? fun nb => nb.2.till == till).map (·.2.lead)).getD 0x2
  let keyed := (gs.map fun nb => s.partsGo nb.2.tids.length nb.2.tids).flatten
  let s := { s with bundles := gs.foldl (fun t nb => t.drop nb.1) s.bundles }
  let firsts := keyed.filterMap (·.head?)
  keyed.foldl (fun s p =>
    match p with
    | [] => s
    | t :: _ =>
      let mate := firsts.find? fun u => u != t && s.samePos [t, u] && !(s.thread u).inTrial && !(s.thread t).inTrial
      let gang := match mate with
        | some u => if (s.thread u).bundle = 0 then none else (s.bundles.find (s.thread u).bundle).map (·.gang)
        | none => none
      (s.newBundle p gang busy).keepLead p lead till)
    (keyed.flatten.foldl (fun s t => s.modThread t fun th => { th with bundle := 0 }) s)

/-- Occupies the lanes of the threads until a lane cycle (R350). -/
def State.occupy (s : State) (gc : Nat) (lanes : List Nat) (until_ : Nat) : State :=
  s.modCore gc fun c => { c with laneBusy := lanes.foldl (fun t l => t.put l (max (t.getD l 0) until_)) c.laneBusy }

/-- After a word: when every thread of the bundle has completed it, the bundle goes on, in parts where its threads
go different ways (R289). -/
def State.sync (s : State) (b : Nat) : State :=
  let gs := s.gangOf b
  let ts := (gs.map fun nb => nb.2.tids).flatten
  if ts.isEmpty || !(ts.all fun t => (s.thread t).done) then s
  else
    let s := ts.foldl (fun s t => s.modThread t fun th => { th with done := false }) s
    let s := gs.foldl (fun s nb => s.occupy (nb.2.die * 64 + nb.2.core) (s.lanesOf nb.2.tids) nb.2.busy) s
    let s := gs.foldl (fun s nb => s.modBundle nb.1 fun x => { x with serial := x.serial + 1 }) s
    if gs.all (fun nb => s.samePos nb.2.tids) && (ts.all fun t => !(s.thread t).inTrial || ts.length == 1) &&
        s.samePos ts
    then s else s.partition b

/-! ### Positions (R18, R22, R318) -/

/-- Words of the clause as fetched. -/
def Pos.count (p : Pos) : Nat := p.words.length

/-- Address, or word offset, of the header after the clause (R18, R318). -/
def Thread.nextHeader (th : Thread) : Nat :=
  if th.inTrial then th.pos.pc + 1 + th.pos.count else th.pos.pc + 4 * (1 + th.pos.count)

/-- At a header, nothing fetched yet. -/
def Pos.atHeader (pc : Nat) : Pos := ⟨pc, 0, 0, [], false, false⟩

/-- Goes on at a header. -/
def Thread.goTo (th : Thread) (pc : Nat) : Thread := { th with pos := Pos.atHeader pc }

/-- Goes past a word of `1 + ext` words (R22). -/
def Thread.advance (th : Thread) (ext : Nat) : Thread :=
  let w := th.pos.win + 1 + ext
  if w > th.pos.count then th.goTo th.nextHeader else { th with pos := { th.pos with win := w } }

/-- The word at the thread's place; at a header, the header. -/
def Pos.word (p : Pos) : Word32 := if p.win = 0 then p.hdr else p.words.getD (p.win - 1) 0

/-! ### Memory that the device itself writes: rings and records -/

/-- The device physical address of an offset in a die's portion (R70). -/
def tierBase (far : Bool) (die : Nat) : Nat :=
  if far then 0x2000000000 + die * 0x800000000 else die * 0x100000000

/-- The die whose portion holds a physical line (R70). -/
def lineDie (line : Nat) : Nat :=
  let pa := line * 256
  if pa < 0x2000000000 then pa / 0x100000000 else (pa - 0x2000000000) / 0x800000000

/-- The die's clocks run: while they relock, all traffic into and out of the die is held (R395). -/
def State.clocked (s : State) (die : Nat) : Bool := (s.die die).relock.isNone

/-- A tier portion or die that is off holds accesses; a line of a compressed page needs its metadata too, which lies in its die's near
tier (R128, R394, R395). -/
def State.lineAwake (s : State) (line : Nat) : Bool :=
  let d := s.die (lineDie line)
  let near := decide (line * 256 < 0x2000000000)
  !d.gated && !d.halted && d.relock.isNone && (if near then d.near else d.far) &&
    (d.near || !s.homes.cmps.contains (line / 256) || (if near then d.metaNear else d.metaFar).isNone)

/-- Dies that hold a replica of the page (R84). -/
def State.replicaDies (s : State) (page : Nat) : List Nat :=
  (List.range 4).filter fun d => (s.die d).replicas.any fun r => r.page == page

/-- A write to the line may not perform yet: copies or replicas remain (R84, R85, R119). -/
def State.copiesLeft (s : State) (line : Nat) : Bool :=
  !(s.homes.copies.getD line []).isEmpty || !(s.replicaDies (line / 256)).isEmpty

/-- Words that an access of `n` bytes at `pa` touches (R120). -/
def wordsOf (pa n : Nat) : List Nat := (List.range ((pa + n + 3) / 4 - pa / 4)).map (pa / 4 + ·)

/-- The lines of a run of bytes. -/
def linesOf (pa n : Nat) : List Nat := (List.range ((pa + n + 255) / 256 - pa / 256)).map (pa / 256 + ·)

/-- A write of the device itself may be made at once: its lines' tiers are on, and no copy, replica, owner or earlier write of the
device stands in its way (R84, R85, R119, R120, R130, R394). -/
def State.unhindered (s : State) (pa n : Nat) : Bool :=
  ((linesOf pa n).all fun l => s.lineAwake l && !s.copiesLeft l && !s.homes.poison.contains l) &&
    ((wordsOf pa n).all fun w => (s.homes.owner.find w).isNone) &&
    !(s.ops.any fun kv => kv.2.tid == 0 && kv.2.pieces.any fun p => (linesOf pa n).contains (p.pa / 256))

/-- The parts of a run of bytes, one for each line. -/
def linePieces (ver : Nat → Bool) (pa n : Nat) : List Piece :=
  (linesOf pa n).map fun l =>
    let a := max pa (l * 256)
    ⟨a, a, a, a - pa, min (pa + n) ((l + 1) * 256) - a, ver a⟩

/-- Writes of the device itself, to rings, records and tables: at once where nothing hinders them, and otherwise put in flight as any
write (R84, R394). -/
def State.devWrite (s : State) (ctx pa : Nat) (bs : List Byte) : State :=
  if s.unhindered pa bs.length then { s with homes := { s.homes with mem := s.homes.mem.writeN pa bs } }
  else
    let i := s.sched.nextId
    let die := lineDie (pa / 256)
    { s with
      sched := { s.sched with nextId := i + 1 }
      ops := s.ops.put i ⟨0, ⟨0, 0, 0, die, 0, 0, 0⟩, ctx, 257, die, 0, .store bs (8 * bs.length), .main,
        linePieces (fun _ => false) pa bs.length, .latest, .normal, 0, false, [], none, false, (0, 0), false, [], []⟩ }

/-- Places a value in a bit field. -/
def field (v : Nat) (lo w : Nat) : Nat := (v % 2 ^ w) <<< lo

/-- A record in the layout of the fault quay (R363). -/
structure FaultRec where
  time : Nat
  val : Word64
  pc : Nat
  windex : Nat
  cause : Cause
  kind : Nat
  ctx : Nat
  team : Nat
  grp : Nat
  tig : Nat
  die : Nat
  core : Nat
  lane : Nat
  slot : Nat
  word : Word32
  deriving DecidableEq, Repr

/-- The 512 bits of a record (R363). -/
def FaultRec.bits (r : FaultRec) : BitVec 512 :=
  BitVec.ofNat 512 (field r.time 448 64 + field r.val.toNat 384 64 + field r.pc 332 52 + field r.windex 328 4 +
    field r.cause.toNat 320 8 + field r.kind 312 8 + field r.ctx 296 16 + field r.team 264 32 + field r.grp 258 6 +
    field r.tig 252 6 + field r.die 250 2 + field r.core 244 6 + field r.lane 238 6 + field r.slot 235 3 +
    field r.word.toNat 203 32)

/-- Posts a record to a context's fault quay; a full ring loses it (R363). -/
def State.postQ (s : State) (ctx : Nat) (r : FaultRec) : State :=
  s.modCtx ctx (fun c => match c.fq with
    | none => c
    | some f => if f.head < f.slots then { c with fq := some { f with head := f.head + 1 } }
                else { c with fq := some { f with lost := f.lost + 1 } })
  |> fun s' => match (s.ctx ctx).fq with
    | some f => if f.head < f.slots then
        s'.devWrite ctx (f.base + 64 * f.head) (leBytes 64 r.bits.toNat)
      else s'
    | none => s'

/-- Sends a record to a die's host error ring (R356, R391). -/
def State.postX (s : State) (r : FaultRec) : State :=
  s.modDev fun d =>
    if d.errs.length < d.errSlots.getD r.die 0 then { d with errs := d.errs ++ [r.bits] } else d

/-- The record of a thread that may have ended, without a place in the code (R363). -/
def State.identRec (s : State) (i : Ident) (kind : Nat) (c : Cause) (v : Word64) : FaultRec :=
  let w := s.work i.work
  ⟨(s.die i.die).mer, v, 0, 0, c, kind, w.ctx, w.team, (s.group i.group).num, i.tig, i.die, i.core, i.lane, i.slot, 0⟩

/-- The record of a thread at its place (R363). -/
def State.threadRec (s : State) (t : Nat) (kind : Nat) (c : Cause) (v : Word64) : FaultRec :=
  let th := s.thread t
  { s.identRec th.id kind c v with pc := th.pos.pc, windex := th.pos.win, word := th.pos.word }

/-- Adds to one almanac counter, saturating (R399). -/
def State.almanac (s : State) (k n : Nat) : State :=
  s.modDev fun d => { d with almanac := d.almanac.put k (min (d.almanac.getD k 0 + n) (2 ^ 64 - 1)) }

/-- Counts a raw event of a core (R380). -/
def State.rawEvent (s : State) (gc i : Nat) : State :=
  s.modCore gc fun c => { c with obs := { c.obs with raw := Vector.ofFn fun j =>
    if j.val = i then c.obs.raw[j] + 1 else c.obs.raw[j] } }

/-- The residue and parity mismatches of a core's lanes that the almanac counts: `n` in all, `lost` of them repeated by the
retry (R207, R399). -/
def State.mismatches (s : State) (gc n lost : Nat) : State :=
  if n = 0 then s else (((s.almanac 1 n).almanac 2 lost).rawEvent gc 7)

/-! ### Dooming and ending transactions (R101, R113, R125, R126) -/

/-- Drops every pending version and intent of an owner. -/
def Homes.dropOwner (h : Homes) (o : Owner) (tid : Option Nat) : Homes :=
  { h with vlines := h.vlines.mapVals fun v =>
      { v with pend := v.pend.filter (fun p => decide (p.owner ≠ o)),
               intent := if tid.isSome && v.intent == tid then none else v.intent } }

/-- Slots that the pending versions of an owner hold on a die (R94, R106). -/
def Homes.slotsOf (h : Homes) (o : Owner) (inDie : Nat → Bool) : List Nat :=
  ((h.vlines.filter fun lv => inDie lv.1).map fun lv =>
    (lv.2.pend.filter fun p => decide (p.owner = o)).filterMap (·.slot)).flatten

/-- Returns slots to a die's version store (R106). -/
def State.freeSlots (s : State) (d : Nat) (ks : List Nat) : State :=
  if ks.isEmpty then s
  else s.modDie d fun x => { x with store := x.store.map fun v => { v with taken := v.taken.filter fun k => !ks.contains k } }

/-- Removes an owner's pending versions and frees their slots at once (R106). -/
def State.discard (s : State) (o : Owner) (tid : Option Nat) : State :=
  let s := (List.range 4).foldl (fun s d => s.freeSlots d (s.homes.slotsOf o fun l => lineDie l == d)) s
  s.modHomes fun h => h.dropOwner o tid

/-- Invalidates the L1 lines of a core under a transaction's tag and frees the tag. -/
def Core.dropTx (c : Core) (t : Nat) : Core :=
  let tags := (c.vtags.filter fun kv => match kv.2 with
    | .tx _ u => u == t
    | _ => false).map (·.1)
  { c with l1 := c.l1.filter (fun l => !(tags.contains l.tag)), vtags := c.vtags.filter fun kv => !(tags.contains kv.1) }

/-- An access in flight of a transaction that ends: a store of it performs nothing any more, and a load reads under its start stamp
(R101, R126). -/
def MemOp.orphan (t : Nat) (o : MemOp) : MemOp :=
  match o.view, o.act with
  | .tx st u, .store _ _ => if u = t ∧ !o.performed then { o with view := .snap st, pieces := [], revs := [] } else o
  | .tx st u, _ => if u = t ∧ !o.performed then { o with view := .snap st } else o
  | _, _ => o

/-- The end of a transaction, in every core that its thread has run on (R104, R126), and for what it has in flight. -/
def State.dropTxLines (s : State) (t : Nat) : State :=
  { s with cores := s.cores.mapVals fun c => c.dropTx t, ops := s.ops.mapVals (MemOp.orphan t) }

/-- Dooms the thread's open transaction with a reason, unless it is doomed already (R101, R103). -/
def State.doom (s : State) (t reason : Nat) : State :=
  match (s.thread t).view with
  | some v => if v.tx && v.doom = 0 then
      let s := s.modThread t fun th => { th with view := some { v with doom := reason } }
      (s.discard (.tx t) (some t)).dropTxLines t
    else s
  | none => s

/-! ### Ending a thread (R104, R304, R356) -/

/-- A slice's end or a team's completion is looked for by the dispatcher's events; this records that a thread of the
card's work has gone. -/
def State.liveOf (s : State) (w : Nat) : List Nat :=
  (s.threads.filter fun kv => kv.2.id.work == w).map (·.1)

/-- The live threads of a group (R295, R297), in ascending thread index. -/
def State.groupLive (s : State) (g : Nat) : List Nat :=
  let ts := (s.threads.filter fun kv => kv.2.id.group == g)
  (List.range 64).filterMap fun i => (ts.find? fun kv => kv.2.id.tig == i).map (·.1)

/-- Takes a thread out of its bins (R290). -/
def State.leaveBins (s : State) (t : Nat) : State :=
  let bs := s.bins.mapVals fun b => { b with tids := b.tids.filter (fun x => x.1 != t), full := b.full.filter (· != t) }
  { s with bins := bs.filter fun kv => !kv.2.tids.isEmpty || !kv.2.full.isEmpty }

/-- The thread is gone: transaction aborted, snapshot closed, out of the soft barrier and bins, context freed
(R104, R304, R356). -/
def State.endThread (s : State) (t : Nat) : State :=
  let th := s.thread t
  let s := match th.view with
    | some v => if v.tx then (s.discard (.tx t) (some t)).dropTxLines t else s
    | none => s
  let s := s.modGroup th.id.group fun g =>
    { g with enrolled := g.enrolled.filter (· != th.id.tig), softA := g.softA.filter fun x => x.1 != th.id.tig }
  let b := th.bundle
  let s := (s.leaveBins t).leaveBundle t
  let s := { s with threads := s.threads.drop t }
  s.sync b

/-! ### Taking a cause (R356-R362) -/

/-- Whether a cause goes to the fault quay and stops the thread (R357). -/
def toFaultQuay (c : Cause) : Bool := c == 0x42 || c == 0xA1 || c == 0xA2

/-- Whether a cause has the transaction doomed: it goes to the handler, the fault quay or the host (R101). -/
def doomsTx (c : Cause) : Bool := c != 0x00

/-- The value of an operand as sr.dec shows it: the register's content, a special read, the literal (R44). An entry whose result
is still on its way shows 0, and one written but not yet due its new value (DESIGN CHOICE, log entry 88). -/
def State.peek (s : State) (t : Nat) (code : BitVec 6) (lit : Word32) : Word64 :=
  let th := s.thread t
  let c := code.toNat
  if h : c < 16 then (th.regs.q[c]).val
  else if h : c < 48 then
    if c - 16 < (s.groupOf t).n then (th.regs.k[c - 16]'(by omega)).val else 0
  else if c = 48 then 0
  else if c = 49 then BitVec.ofNat 64 th.id.lane
  else if c = 50 then BitVec.ofNat 64 th.id.tig
  else if c = 51 then BitVec.ofNat 64 (s.groupOf t).num
  else if c = 52 then BitVec.ofNat 64 (s.workOf t).team
  else if c = 53 then BitVec.ofNat 64 (if th.inTrial then (th.trial.map (·.fuel)).getD 0 else 0)
  else if c = 54 then BitVec.ofNat 64 (s.merNow t % 2 ^ 32)
  else if c = 55 then (s.cycNow t &&& 0xFFFFFFFF)
  else if c = 56 then lit.setWidth 64
  else if h : c - 57 < 7 then ((s.groupOf t).g[c - 57]).1
  else 0

/-- Whether field a, or b, holds a code that its instruction forbids there: at a width above single every code of an R word but a
named one (R36, R194); in a of reg.free and time what those do not take (R209, R371). -/
def badField (cls : Cls) (w : Word32) (isA : Bool) : Bool :=
  let op := bits w 24 8
  let x := (bits w (if isA then 12 else 6) 6).toNat
  let named := decide (16 ≤ x) && decide (x < 48)
  (fmtOf cls w == .r && bits w 4 2 != 0 && !named) ||
    (isA && ((cls == .lane && op == 0x79 && !named) || (cls == .system && op == 0x05 && x != 54 && x != 55)))

/-- The decoded-field registers for a cause at the thread's place (R44). The extension words of a brt that overruns its clause are
counted as 14 at most, whatever its n (DESIGN CHOICE, log entry 88). -/
def State.decRegs (s : State) (t : Nat) (c : Cause) : DecRegs :=
  let th := s.thread t
  let p := th.pos
  let hb (l n : Nat) : Nat := (bits p.hdr l n).toNat
  if p.win = 0 then
    ⟨BitVec.ofNat 64 (field c.toNat 56 8 + field (hb 28 4) 48 4 + field (hb 25 3) 45 3 + field 6 42 3 + field (hb 24 8) 34 8),
      0, 0, 0, BitVec.ofNat 64 p.hdr.toNat⟩
  else
    let w := p.word
    let wb (l n : Nat) : Nat := (bits w l n).toNat
    match Cls.ofCode (bits p.hdr 25 3) with
    | none => ⟨BitVec.ofNat 64 (field c.toNat 56 8), 0, 0, 0, BitVec.ofNat 64 w.toNat⟩
    | some cls =>
      let f := fmtOf cls w
      let e := min (extCount cls w) 14
      let rest := p.words.drop p.win
      let src := sourceFields cls w
      let rm := f == .r || f == .m
      let pre := if f == .e then 1 else 0
      let lits := rest.drop pre
      let useM := f == .m && src.1
      let n0 := if useM && bits w 18 6 == 56 then 1 else 0
      let n1 := n0 + (if src.2.1 && bits w (if f == .t then 14 else 12) 6 == 56 then 1 else 0)
      let bAt := if f == .t then 8 else if f == .m then 4 else 6
      let n2 := n1 + (if src.2.2.1 && bits w bAt 6 == 56 then 1 else 0)
      let aCode := if f == .t then bits w 14 6 else bits w 12 6
      let bCode := bits w bAt 6
      let cCode := if f == .t then bits w 2 6 else bits w 0 6
      let hasA := f == .r || f == .t || f == .i || f == .e
      let hasB := f == .r || f == .t || f == .e || f == .m
      let hasC := f == .t || f == .e
      let val (has : Bool) (code : BitVec 6) (k : Nat) : Word64 := if has then s.peek t code (lits.getD k 0) else 0
      ⟨BitVec.ofNat 64 (field c.toNat 56 8 + field p.win 52 4 + field (hb 28 4) 48 4 + field (hb 25 3) 45 3 +
          field f.code 42 3 + field (wb 24 8) 34 8 + field e 30 4 +
          field (if f == .r then wb 4 2 else if f == .m then wb 2 2 else 0) 28 2 +
          field (if f == .r then wb 2 2 else if f == .t || f == .i then wb 0 2 else 0) 26 2 +
          field (if rm then wb 0 2 else 0) 24 2 +
          field (if f == .t then wb 20 6 else if f == .b then 0 else wb 18 6) 18 6 +
          field (if hasA then aCode.toNat else 0) 12 6 + field (if hasB then bCode.toNat else 0) 6 6 +
          field (if hasC then cCode.toNat else 0) 0 6),
        val (hasA && (src.2.1 || (cls == .system && bits w 24 8 == 0x05)) && !badField cls w true) aCode n0,
        val (hasB && src.2.2.1 && !badField cls w false) bCode n1, val (hasC && src.2.2.2) cCode n2,
        BitVec.ofNat 64 (field (if e = 0 then 0 else (rest.getD 0 0).toNat) 32 32 + w.toNat)⟩

/-- Extension words of the word at the thread's place (R44); 0 at a header. -/
def Pos.ext (p : Pos) : Nat :=
  if p.win = 0 then 0
  else match Cls.ofCode (bits p.hdr 25 3) with
    | none => 0
    | some cls => min (extCount cls p.word) 14

/-- The trap registers at handler entry (R358, R360). -/
def Thread.trapRegs (th : Thread) (c : Cause) (v : Word64) : TrapRegs where
  epc := BitVec.ofNat 64 (field (if th.pos.win ≠ 0 ∧ th.pos.g then 1 else 0) 63 1 + field th.pos.win 59 4 +
    field th.pos.ext 55 4 + field (if th.inTrial then th.pos.pc else th.pos.pc / 4) 2 50 + (if 0x10 ≤ c.toNat ∧ c.toNat ≤ 0x1F then 1 else 0))
  cause := BitVec.ofNat 64 (0x100 + c.toNat)
  val := v
  shq := th.regs.q
  shp := th.regs.p
  cand := th.inTrial

/-- The thread leaves its bundle and goes on alone at `pc`, not before `delay` lane cycles (R358). -/
def State.alone (s : State) (t : Nat) (delay : Nat) : State :=
  let b := (s.thread t).bundle
  let s := s.modThread t fun th =>
    { th.newWord with done := false, hold := none }
  let s := (s.leaveBundle t).sync b
  s.newBundle [t] none (s.lcOf t + delay)

/-- Entry into the user-level handler (R358). -/
def State.enterHandler (s : State) (t : Nat) (c : Cause) (v : Word64) : State :=
  let vec := (s.ctx (s.ctxOf t)).trapVec
  let d := s.decRegs t c
  let s := s.modThread t fun th =>
    { th with trap := th.trapRegs c v, dec := d, trial := th.trial.map fun r => if r.susp then r else { r with susp := true, pc := th.pos.pc },
              place := .running }
  let s := s.modThread t fun th => th.goTo ((vec.toNat / 4 % 2 ^ 50) * 4)
  (s.leaveBins t).alone t 18

/-- The val field of a record for a cause: the line's address where R363 asks for it. -/
def recordVal (c : Cause) (v : Word64) : Word64 := if c == 0x28 || c == 0x29 || c == 0x91 then v &&& ~~~0xFF#64 else v

/-- A record of kind 1 is posted and the thread stopped (R356, R363). -/
def State.stopThread (s : State) (t : Nat) (c : Cause) (v : Word64) : State :=
  (s.postQ (s.ctxOf t) (s.threadRec t 1 c (recordVal c v))).endThread t

/-- Begins a trial's end (R320, R321): the trial end itself is a step of its own once the counts are 0. -/
def State.endTrial (s : State) (t : Nat) (e : Ending) : State :=
  s.modThread t fun th => { th.newWord with trial := th.trial.map fun r => { r with ending := some e },
                                            hold := some ⟨0xE, .event⟩, done := false }

/-- Word offset of the thread's place in its candidate (R323). -/
def Thread.trialOff (th : Thread) : Nat := th.pos.pc + th.pos.win

/-- Delivers a cause taken at the thread's place (R356-R362, R320). -/
def State.deliver (s : State) (t : Nat) (c : Cause) (v : Word64) : State :=
  let th := s.thread t
  if th.inTrial && c != 0xA0 then
    s.endTrial t ⟨1, c, th.trialOff⟩
  else
    let s := s.doom t 6
    if toFaultQuay c then s.stopThread t c v
    else if (th.trap.cause.toNat / 256) % 2 = 1 then s.stopThread t 0xA1 (BitVec.ofNat 64 c.toNat)
    else if (s.ctx (s.ctxOf t)).trapVec.toNat % 2 = 1 then s.enterHandler t c v
    else s.stopThread t c v

/-! ### The shell of an instruction word -/

/-- Issue beats and added beats of a word (R41, R303). -/
structure Cost where
  beats : Nat
  extra : Nat
  deriving DecidableEq, Repr

/-- One issue beat. -/
def oneBeat : Cost := ⟨1, 0⟩

/-- What a word costs that was issued `n` times more: its issue beats again and 4 beats each time (R207). -/
def Cost.again (k : Cost) (n : Nat) : Cost := ⟨k.beats, k.extra + n * (k.beats + 4)⟩

/-- Idle beats of an S code (R39). -/
def Stall.beats : Stall → Nat
  | .s0 => 0 | .s1 => 1 | .s2 => 2 | .s4 => 4

/-- Fixed data of an instruction word that its shell uses. -/
structure Shell where
  ext : Nat
  ng : Bool
  idle : Nat
  banned : Bool
  recs : List Rec
  rel : Bool
  deriving DecidableEq, Repr

/-- What a word's added beats count under (R377), and whether they are lane cycles whatever the bundle: an acquire's clearing
takes 4 lane cycles (R123); a scratchpad access's extra beats are R135's, a branch's R303's. -/
def Pos.added (p : Pos) : BitVec 4 × Bool :=
  let op := (bits p.word 24 8).toNat
  match Cls.ofCode (bits p.hdr 25 3) with
  | some .memory => if op = 0x58 ∨ op = 0x5A ∨ op = 0x0C ∨ op = 0x0D then (0xD, true) else (0x4, false)
  | some .control | some .system => (0x2, false)
  | _ => (0xA, false)

/-- The word's occupancy is added to its bundle, its lanes are taken, and its slice has started, unless the thread runs
alone in trial mode (R350, R377). `p` is where the word stood. Issue beats come first, then added beats, then S beats. -/
def State.charge (s : State) (t : Nat) (p : Pos) (k : Cost) (idle : Nat) (lone useful : Bool) : State :=
  let th := s.thread t
  let lc := s.lcOf t
  let bl := s.beatLen t
  let (leaf, flat) := p.added
  let till := lc + k.beats * bl + k.extra * (if flat then 1 else bl)
  let u := till + idle * bl
  let s := s.modBundle th.bundle fun b =>
    { b with busy := max b.busy u, age := 0, passed := false, lead := leaf, till := max b.till till }
  let s := s.occupy th.gcore (s.lanesOf (s.mates t)) u
  let sl := th.id.lane / 4
  let grown (x : Tbl (Nat × Nat)) : Tbl (Nat × Nat) :=
    if (x.getD sl (0, 0)).1 < lc + k.beats * bl then x.put sl (lc + k.beats * bl, s.ctxOf t) else x
  s.modCore th.gcore fun c =>
    { c with started := if lone then c.started else c.started.put sl (lc + 1),
             useful := if useful then grown c.useful else c.useful,
             wasted := if useful then c.wasted else grown c.wasted }

/-- A word that ends a checkpoint interval (R386): acquires and releases, atomics, reductions and sigin, engine and task
words, txc and exit. -/
def endsInterval (p : Pos) : Bool :=
  let op := (bits p.word 24 8).toNat
  match Cls.ofCode (bits p.hdr 25 3) with
  | some .memory => (decide (0x0C ≤ op) && decide (op ≤ 0x0F)) || (decide (0x20 ≤ op) && decide (op ≤ 0x37)) || op == 0x44 ||
      (decide (0x58 ≤ op) && decide (op ≤ 0x5A)) || op == 0x63
  | some .control => op == 0x06
  | some .copy | some .task => true
  | _ => false

/-- A word has retired (R385): it counts, and an interval may end with it (R386). `p` is its place. -/
def State.retire (s : State) (t : Nat) (p : Pos) : State :=
  s.modWork (s.thread t).id.work fun w =>
    { w with rpl := w.rpl.map fun r =>
        { r with cnt := r.cnt + 1, turn := ((s.groupOf t).num, (s.thread t).id.tig), ended := r.ended || endsInterval p || decide (r.cnt + 1 ≥ r.limit),
                 last := some (t, (s.thread t).id, p.word) } }

/-- A thread that has completed a word: a candidate's word costs a unit of fuel (R319). -/
def Thread.finish (th : Thread) (ext : Nat) (fuelled moved : Bool) : Thread :=
  let th := if fuelled && th.trial.all (fun r => r.ending.isNone) then
      { th with trial := th.trial.map fun r => { r with fuel := r.fuel - 1 } } else th
  let th := if moved then th else th.advance ext
  { th.newWord with done := true, hold := if th.trial.any (fun r => r.ending.isSome) then th.hold else none }

/-- A word has completed for a thread: a candidate's word costs a unit of fuel (R319), the thread passes the word unless
the word itself moved it, and the bundle is looked at. `p` is where the word stood. -/
def State.complete (s : State) (t : Nat) (sh : Shell) (k : Cost) (p : Pos) (fuelled useful moved : Bool) : State :=
  let b := (s.thread t).bundle
  let n := (s.thread t).retry
  let s := (s.charge t p (k.again n) sh.idle fuelled useful).mismatches (s.thread t).gcore n 0
  let s := s.retire t p
  (s.modThread t fun th => th.finish sh.ext fuelled moved).sync b

/-- Whether the thread takes part in a word (R37). -/
def Thread.active (th : Thread) (ng : Bool) : Bool := th.pos.g || ng

/-- The checks of R401 that stand before a candidate's word. -/
def Thread.trialCheck (th : Thread) (sh : Shell) : Option Cause :=
  match th.trial with
  | none => none
  | some r =>
    if r.susp then none
    else if sh.banned then some 0x67
    else if sh.recs.any (fun x => x.val ≥ 64 || !(r.grant.getLsbD x.val)) then some 0x68
    else if r.fuel = 0 then some 0x65
    else none

/-- The next deferred cause of a thread, whether it is in its handler or not (R88). -/
def State.nextDeferred (s : State) (t : Nat) : Option (Cause × Word64 × State) :=
  match (s.thread t).deferred with
  | [] => none
  | (c, v) :: r => some (c, v, s.modThread t fun th => { th with deferred := r })

/-- The first deferred cause that the thread may take now (R88, R362, R370). -/
def State.dueDeferred (s : State) (t : Nat) : Option (Cause × Word64 × State) :=
  if ((s.thread t).trap.cause.toNat / 256) % 2 = 1 then none else s.nextDeferred t

/-- Whether an access writes memory. -/
def MemOp.writes (o : MemOp) : Bool :=
  match o.act with
  | .store _ _ | .atom _ _ _ _ _ _ | .sigin _ _ => true
  | _ => false

/-- A word holds. What it logged, and an end of the interval, is taken back unless its access is in flight already, since it reads again (R386). -/
def State.holdWord (s s' : State) (t : Nat) (h : Hold) : State :=
  let w := (s.thread t).id.work
  let back (x : Work) : Work :=
    match x.rpl, (s.work w).rpl with
    | some r, some r0 => { x with rpl := some { r with log := r0.log, cursor := r0.cursor, ended := r0.ended } }
    | _, _ => x
  let s' := if (s'.thread t).stage = (s.thread t).stage then s'.modWork w back else s'
  s'.modThread t fun x => { x with hold := some h }

/-- Lines of main memory that a team's writes in flight touch. -/
def State.writtenLines (s : State) (w : Nat) : List Nat :=
  let mine := s.ops.filter fun kv => kv.2.who.work == w && kv.2.home == .main && kv.2.writes
  (mine.map fun kv => kv.2.pieces.map fun p => p.pa / 256).flatten

/-- A word of a team in replay mode needs a 4,097th held line or a 257th logged value (R386). -/
def State.overfull (s : State) (w : Nat) : Bool :=
  match (s.work w).rpl with
  | none => false
  | some r =>
    let lines : List Nat := r.held.map fun h => h.1 / 256
    decide (r.log.length > 256) || decide ((lines ++ s.writtenLines w).eraseDups.length > 4096)

/-- A team's checkpoint interval ends before its next word (R386). -/
def State.endInterval (s : State) (w : Nat) : State :=
  s.modWork w fun x => { x with rpl := x.rpl.map fun r => { r with ended := true } }

/-- The causes of R43 that a word may meet by what its sources hold. Cause 0x06 is not one of them: where the decoder does not raise it, a
record's reserved field does, as a check of the word's own (R140, R144). -/
def decodeCause (c : Cause) : Bool := decide (0x02 ≤ c.toNat) && decide (c.toNat ≤ 0x0A) && c != 0x06

/-- A word takes a cause. One that breaks a decode rule has not issued (R43); any other has, in one beat, and counts as retired
(R371, R385; DESIGN CHOICE, log entry 89); mismatches that it met are counted (R207). -/
def State.fail (s : State) (t : Nat) (c : Cause) (v : Word64) : State :=
  if decodeCause c then s.deliver t c v
  else
    let th := s.thread t
    let s := if c == 0x42 then s.mismatches th.gcore 2 1 else s.mismatches th.gcore th.retry 0
    ((s.charge t th.pos oneBeat 0 th.inTrial true).retire t th.pos).deliver t c v

/-- What a word had logged when it took a cause stays in its team's log, since it has retired (R385, R386). -/
def Work.logOf (x y : Work) : Work :=
  match x.rpl, y.rpl with
  | some r, some r' => { x with rpl := some { r with log := r'.log, cursor := r'.cursor, ended := r.ended || r'.ended } }
  | _, _ => x

/-- What the slices did about an unreadable metadata word stays, where an access then took 0x29 for it (R129, R130). -/
def State.sliceActs (s s' : State) (c : Cause) : State :=
  if c = 0x29 then { s with homes := s'.homes, dies := s'.dies, ctxs := s'.ctxs, dev := s'.dev, ops := s'.ops,
                            sched := { s.sched with nextId := s'.sched.nextId } } else s

/-- The events that a word's run raised at its core have happened (R380). -/
def State.rawOf (s s' : State) (gc : Nat) : State :=
  if (s'.core gc).obs.raw = (s.core gc).obs.raw then s
  else s.modCore gc fun c => { c with obs := { c.obs with raw := (s'.core gc).obs.raw } }

/-- What stays of a word's run that ended with a cause: the free values it drew, that it was issued once more, what it logged, the
events it raised, and what the slices did. -/
def State.spent (s s' : State) (t : Nat) (c : Cause) : State :=
  let s := (s.modSched fun x => { x with draw := s'.sched.draw }).modThread t fun th => { th with retry := (s'.thread t).retry }
  let w := (s.thread t).id.work
  let s := if decodeCause c then s else s.modWork w fun x => x.logOf (s'.work w)
  (s.sliceActs s' c).rawOf s' (s.thread t).gcore

/-- A candidate's word that a check of R401 turns away: the decode rules that its sources break come before (R43), and it waits for
sources that are still on their way. -/
def State.barred {α : Type} (s : State) (t : Nat) (active : Bool) (body : Nat → M α) (c : Cause) : State :=
  if active then
    match (body t).run s with
    | .error (.trap k v) _ => if decodeCause k then s.deliver t k v else s.deliver t c 0
    | .error (.hold ⟨l, .token ks⟩) s' =>
      if s'.sched.nextId = s.sched.nextId then s.holdWord s' t ⟨l, .token ks⟩ else s.deliver t c 0
    | _ => s.deliver t c 0
  else s.deliver t c 0

/-- Runs one word of one thread: `body` answers the word's cost and whether it moved the thread itself, and `occ` the beats
that it occupies where its guard suppresses it (R38). A suppressed word meets no check that goes by what its registers hold (DESIGN
CHOICE, log entry 102). -/
def runForm (sh : Shell) (occ : Nat → State → Cost) (body : Nat → M (Cost × Bool)) (s : State) : State :=
  let t := s.sched.cur
  let th := s.thread t
  match th.trialCheck sh with
  | some c => s.barred t (th.active sh.ng) body c
  | none =>
    if th.active sh.ng then
      match if sh.rel then s.dueDeferred t else none with
      | some (c, v, s') => s'.deliver t c v
      | none =>
      match (body t).run s with
      | .ok r s' => if s'.overfull th.id.work then s.endInterval th.id.work
                    else s'.complete t sh r.1 th.pos th.inTrial true r.2
      | .error (.hold h) s' => if s'.overfull th.id.work then s.endInterval th.id.work
                               else s.holdWord s' t h
      | .error (.trap c v) s' => (s.spent s' t c).fail t c v
    else s.complete t sh (occ t s) th.pos th.inTrial false false

/-- Runs a word that issues in one beat where its guard suppresses it. -/
def runWord (sh : Shell) (body : Nat → M (Cost × Bool)) (s : State) : State := runForm sh (fun _ _ => oneBeat) body s

end Sys2Proof.Machine
end

