-- ==== Sys2Proof/Machine/Operands.lean ====
section
/-! DEFINITION. Operand forms: reading sources (R32, R35, R36, R191-R198, R211-R214), writing destinations (R34),
and the waiting read of a future (R173). -/

namespace Sys2Proof.Machine

/-- A source value as read: `imm` for a literal or a special read, which carry no kind tag (R35, R212); `hi` is the
odd member of an IV64 pair (R26). -/
structure Val where
  val : Word64
  kind : Kind
  res : BitVec 3
  imm : Bool
  hi : Word64
  deriving DecidableEq, Repr

/-- A literal or special read. -/
def Val.imm' (v : Word64) : Val := ⟨v, .i32, residue v, true, 0⟩

/-- The kind of a code of R191. -/
def Kind.ofCode : Nat → Kind
  | 1 => .i32 | 2 => .i64 | 3 => .f32 | 4 => .f64 | 5 => .iv32 | 6 => .iv64 | 7 => .fut | _ => .empty

/-- The code of a kind (R191). -/
def Kind.code : Kind → Nat
  | .empty => 0 | .i32 => 1 | .i64 => 2 | .f32 => 3 | .f64 => 4 | .iv32 => 5 | .iv64 => 6 | .fut => 7

/-! ### Acquire, and futures -/

/-- The clearing of an acquire: sector valid bits of every tag-0 line of the core's L1 (R123). -/
def State.acquire (s : State) (gc : Nat) : State :=
  s.modCore gc fun c => { c with l1 := c.l1.map fun l => if l.tag = 0 then { l with valid := 0 } else l }

/-- The fields of a future handle (R171). -/
structure Handle where
  dev : Nat
  core : Nat
  eng : Nat
  slot : Nat
  gen : Nat
  low : Nat
  deriving DecidableEq, Repr

/-- Reads a handle's fields (R171). -/
def handleOf (v : Word64) : Handle :=
  let n := v.toNat
  ⟨n / 2 ^ 56, n / 2 ^ 48 % 256, n / 2 ^ 46 % 4, n / 2 ^ 40 % 64, n / 2 ^ 24 % 2 ^ 16, n % 2 ^ 24⟩

/-- Whether a core is present (R15, R16). -/
def State.corePresent (s : State) (gc : Nat) : Bool := (s.dev.cores.getD (gc / 64) 0).getLsbD (gc % 64)

/-- A well-formed handle (R171, R254). -/
def State.wellFormed (s : State) (h : Handle) : Bool :=
  h.dev == s.dev.fab.toNat && s.corePresent h.core &&
    (if h.eng = 3 then decide (h.low / 2 ^ 16 % 16 ≤ 3) && decide (h.low % 2 ^ 16 = 0) else decide (h.low = 0))

/-- A future slot that was never used. -/
def Slot.blank : Slot := ⟨0, false, none, 0⟩

/-- The engine a handle names. -/
def State.engine (s : State) (gc e : Nat) : Engine := ((s.core gc).engines)[e]?.getD ⟨[], 0, []⟩

/-- Change one engine of a core. -/
def State.modEngine (s : State) (gc e : Nat) (f : Engine → Engine) : State :=
  s.modCore gc fun c => { c with engines := Vector.ofFn fun i => if i.val = e then f c.engines[i] else c.engines[i] }

/-- The slot a handle names. -/
def State.slotOf (s : State) (h : Handle) : Slot := (s.engine h.core h.eng).slots.getD h.slot Slot.blank

/-- Status of a retired operation (R172). -/
def retired : BitVec 32 := 0x300

/-- Whether a handle's operation has completed or its slot has been reused (R173, R183): the status delivered. A FUT entry that is
no well-formed handle reads as retired (DESIGN CHOICE, log entry 91). -/
def State.futStatus (s : State) (h : Handle) : Option (BitVec 32) :=
  let sl := s.slotOf h
  if !s.wellFormed h || sl.gen.toNat ≠ h.gen then some retired
  else if sl.busy then sl.status else some retired

/-- A waiting read (R173, R174): it holds until the operation has completed, delivers the status, and is an acquire;
an xform's read sets sr.xcrc unless it delivers retired. -/
def waitFuture (t : Nat) (v : Word64) : M Word64 := do
  let s ← get
  let h := handleOf v
  match s.futStatus h with
  | none => wait 0xC .poll
  | some st =>
    set (s.acquire (s.thread t).gcore)
    if h.eng = 2 ∧ st ≠ retired then modT t fun th => { th with xcrc := (s.slotOf h).crc }
    return st.setWidth 64

/-! ### Replay log (R386) -/

/-- A value that the replay log records, or returns in a re-execution (R386). -/
def logged (t : Nat) (v : Word64) : M Word64 := do
  let s ← get
  let w := (s.thread t).id.work
  match (s.work w).rpl with
  | none => return v
  | some r =>
    match r.log[r.cursor]? with
    | some e =>
      set (s.modWork w fun x => { x with rpl := some { r with cursor := r.cursor + 1 } })
      return e.val
    | none =>
      set (s.modWork w fun x => { x with rpl := some { r with log := r.log ++ [⟨t, v⟩], cursor := r.cursor + 1 } })
      return v

/-! ### Reading -/

/-- A word that meets a mismatch is issued once more, its operands read afresh; a second mismatch is cause 0x42 (R207). Which of the
two it comes to is free (DESIGN CHOICE, log entry 90). -/
def reissue (t : Nat) : M Unit := do
  if (← getT t).retry = 0 then do
    let i ← drawFree
    if Config.retryMatches i then modT t fun th => { th with retry := 1 } else fault 0x42

/-- One register entry as a source (R39, R40, R191, R206, R207). -/
def readEntry (t : Nat) (e : Entry) : M Entry := do
  match e.wait with
  | some (tok, _) => wait 0xA (.token [tok])
  | none => pure ()
  let s ← get
  let e ← if s.lcOf t < e.ready then
      if (s.thread t).sck then fault 0x09
      else do
        let i ← drawFree
        pure (if Config.earlyNew i then e else Entry.mk' e.old.1 e.old.2 0)
    else pure e
  if e.kind = .empty then fault 0x43
  else if e.res = residue e.val then return e
  else do
    reissue t
    return { e with res := residue e.val }

/-- A predicate as a source (R39, R40, R198, R207). -/
def readPred (t : Nat) (p : PReg) : M Tri := do
  let s ← get
  let th := s.thread t
  if p.val = 0 then return .T
  else
    let c := th.regs.p[p.val]
    match c.wait with
    | some (tok, _) => wait 0xA (.token [tok])
    | none =>
      if s.lcOf t < c.ready then
        if th.sck then fault 0x09
        else do
          let i ← drawFree
          return if Config.earlyNew i then c.v else c.old
      else if c.par = c.v.parity then return c.v
      else do
        reissue t
        return c.v

/-- How a word reads an IV64: `pair` as the whole pair named by its even member (R26, R211), `single` never (R196), `raw` its one
entry, for a word whose own checks refuse it later (R144). -/
inductive Reading where
  | pair | single | raw
  deriving DecidableEq, Repr

/-- The register entry that a source names, with its number in the named file (0 for a queue entry). -/
def Thread.entryOf (th : Thread) : Src → Option (Entry × Nat)
  | .q a => some (th.regs.q[a], 0)
  | .k r => some (th.regs.k[r], r.val)
  | _ => none

/-- The decode rules that a word's sources break by what they hold, before any source is read (R43): a word waits for results
still on their way, then takes 0x04 for an IV64 named by its odd member, where it reads pairs (R211), then the causes of `own`, which
are its destination's, and then 0x09 for an entry that is not due while sr.ctl.sck is set (R40). -/
def srcRules (t : Nat) (pair : Bool) (xs : List Src) (own : M Unit := pure ()) : M Unit := do
  let s ← get
  let th := s.thread t
  let es := xs.filterMap th.entryOf
  let late (e : Entry) : Bool := decide (s.lcOf t < e.ready)
  match es.filterMap fun e => e.1.wait.map (·.1) with
  | tok :: toks => wait 0xA (.token (tok :: toks))
  | [] =>
    if pair && es.any fun e => e.1.kind == .iv64 && e.2 % 2 == 1 && (th.sck || !late e.1) then fault 0x04
    own
    faultIf (th.sck && es.any fun e => late e.1) 0x09

/-- One source operand (R32). `copy`: a FUT is copied as its 64 bits, without waiting (R173). -/
def readSrc (t : Nat) (rd : Reading) (copy : Bool) (x : Src) : M Val := do
  srcRules t (decide (rd = .pair)) [x]
  let s ← get
  let th := s.thread t
  let fin (e : Entry) (r : Option Nat) : M Val := do
    if e.kind = .fut && !copy then
      let st ← waitFuture t e.val
      let st ← logged t st
      modify fun s => s.endInterval th.id.work
      return ⟨st, .i32, residue st, false, 0⟩
    else if e.kind = .iv64 then
      match rd, r with
      | .pair, some i =>
        if i % 2 = 1 then fault 0x04
        else
          let o ← readEntry t (th.regs.k.toList.getD (i + 1) Entry.blank)
          return ⟨e.val, .iv64, e.res, false, o.val⟩
      | .raw, _ => return ⟨e.val, .iv64, e.res, false, 0⟩
      | _, _ => fault 0x2D
    else return ⟨e.val, e.kind, e.res, false, 0⟩
  match x with
  | .q a => do fin (← readEntry t th.regs.q[a]) none
  | .k r => do fin (← readEntry t th.regs.k[r]) (some r.val)
  | .zero => return Val.imm' 0
  | .lane => return Val.imm' (BitVec.ofNat 64 th.id.lane)
  | .tig => return Val.imm' (BitVec.ofNat 64 th.id.tig)
  | .grp => return Val.imm' (BitVec.ofNat 64 (s.groupOf t).num)
  | .team => return Val.imm' (BitVec.ofNat 64 (s.workOf t).team)
  | .fuel => return Val.imm' (BitVec.ofNat 64 (if th.inTrial then (th.trial.map (·.fuel)).getD 0 else 0))
  | .tlo => return Val.imm' (← logged t (BitVec.ofNat 64 (s.merNow t % 2 ^ 32)))
  | .cyc => return Val.imm' (← logged t (BitVec.ofNat 64 ((s.cycNow t).toNat % 2 ^ 32)))
  | .lit v => return Val.imm' (v.setWidth 64)
  | .g i =>
    let c := (s.groupOf t).g[i]
    if c.2 = .empty ∨ c.2 = .fut then fault 0x43 else return ⟨c.1, c.2, residue c.1, false, 0⟩

/-- The predicates that a word reads: it waits for results still on their way, then takes 0x09 for one that is not due (R40, R43). -/
def predRules (t : Nat) (ps : List PReg) : M Unit := do
  let s ← get
  let th := s.thread t
  let cs := (ps.filter fun p => p.val != 0).map fun p => th.regs.p[p.val]
  match cs.filterMap fun c => c.wait.map (·.1) with
  | tok :: toks => wait 0xA (.token (tok :: toks))
  | [] => faultIf (th.sck && cs.any fun c => decide (s.lcOf t < c.ready)) 0x09

/-- The kind that a source holds; a literal has none, and takes its word's family (R35, R213). -/
def State.kindOf (s : State) (t : Nat) (x : Src) : Option Kind :=
  match x with
  | .lit _ => none
  | .g i => some ((s.groupOf t).g[i]).2
  | x => some ((((s.thread t).entryOf x).map fun e => e.1.kind).getD .i32)

/-- Whether a kind is of the 64-bit family (R213). -/
def Kind.wide (k : Kind) : Bool := k == .f64 || k == .iv64

/-- Whether a kind is an interval's. -/
def Kind.isIv (k : Kind) : Bool := k == .iv32 || k == .iv64

/-- Sources of these kinds are all of the 64-bit family. -/
def allWide (ks : List Kind) : Bool := !ks.isEmpty && ks.all Kind.wide

/-- The registers of a source at width `n`: a group of named registers, or the one source (R36). -/
def groupSrcs (x : Src) (n : Nat) : List Src :=
  match x with
  | .k r => (List.range n).map fun j => .k (Fin.ofNat 32 (r.val + j))
  | x => [x]

/-- Registers per operand of a W code (R36). -/
def Width.count : Width → Nat
  | .w1 => 1 | .w2 => 2 | .w4 => 4 | .w8 => 8

/-! ### Integer readings (R212) -/

/-- The word is 64-bit when a counted source is I64. -/
def Val.is64 (v : Val) : Bool := !v.imm && (v.kind == .i64 || v.kind == .f64)

/-- A value that an integer form admits; F kinds as bits where `bits` (R212, R218). -/
def Val.asInt (bits : Bool) (v : Val) : M Val :=
  if v.imm || v.kind = .i32 || v.kind = .i64 then return v
  else if bits && (v.kind = .f32 || v.kind = .f64) then return v
  else fault 0x2D

/-- A source of an integer form (R212, R218). -/
def readInt (t : Nat) (bits : Bool) (x : Src) : M Val := do
  let v ← readSrc t .pair false x
  v.asInt bits

/-- Two sources of an integer form: both are read, then their kinds are tested. -/
def readInt2 (t : Nat) (bits : Bool) (a b : Src) : M (Val × Val) := do
  srcRules t true [a, b]
  let x ← readSrc t .pair false a
  let y ← readSrc t .pair false b
  let x ← x.asInt bits
  let y ← y.asInt bits
  return (x, y)

/-- Three sources of an integer form. -/
def readInt3 (t : Nat) (bits : Bool) (a b c : Src) : M (Val × Val × Val) := do
  srcRules t true [a, b, c]
  let x ← readSrc t .pair false a
  let y ← readSrc t .pair false b
  let z ← readSrc t .pair false c
  let x ← x.asInt bits
  let y ← y.asInt bits
  let z ← z.asInt bits
  return (x, y, z)

/-- The bits of a source in a `w`-bit operation: a 32-bit source is sign-extended, or zero-extended (R212). -/
def Val.word (v : Val) (w : Nat) (un : Bool) : Nat :=
  if w = 64 && !v.is64 then (if un then v.val.toNat % 2 ^ 32 else wrapInt64 v.val) else v.val.toNat % 2 ^ w
where
  /-- Sign extension of the low 32 bits. -/
  wrapInt64 (x : Word64) : Nat := ((x.setWidth 32).signExtend 64).toNat

/-- An unsigned count or index of any integer kind (R143). -/
def Val.asUnsigned (v : Val) : M Nat :=
  if v.imm || v.kind = .i32 || v.kind = .i64 then return v.val.toNat else fault 0x2D

/-- A source read as an unsigned count or index. -/
def readUnsigned (t : Nat) (x : Src) : M Nat := do
  let v ← readSrc t .single false x
  v.asUnsigned

/-- Two sources read as unsigned counts: both are read, then their kinds are tested. -/
def readUnsigned2 (t : Nat) (a b : Src) : M (Nat × Nat) := do
  srcRules t false [a, b]
  let x ← readSrc t .single false a
  let y ← readSrc t .single false b
  let x ← x.asUnsigned
  let y ← y.asUnsigned
  return (x, y)

/-- The 64 bits of a source: I32, F32 and literals are already zero-extended; a FUT is waited for (R173, R210, R372). -/
def readBits (t : Nat) (x : Src) : M Word64 := do
  let v ← readSrc t .single false x
  return v.val

/-! ### Floating readings (R213, R214) -/

/-- A family. -/
def famFmt (wide : Bool) : Num.FFmt := if wide then Num.f64 else Num.f32

/-- A floating source: whether it is an interval, whether it is a literal, and its codes. -/
structure FVal where
  wide : Bool
  lit : Bool
  iv : Bool
  lo : Nat
  hi : Nat
  deriving DecidableEq, Repr

/-- A value read from a source, as a floating form admits it (R213). -/
def Val.toF (v : Val) (x : Src) : M FVal :=
  match x with
  | .lit b => return ⟨false, true, false, b.toNat, b.toNat⟩
  | _ =>
    if v.imm then fault 0x2D
    else match v.kind with
      | .f32 => return ⟨false, false, false, v.val.toNat % 2 ^ 32, v.val.toNat % 2 ^ 32⟩
      | .f64 => return ⟨true, false, false, v.val.toNat, v.val.toNat⟩
      | .iv32 => return ⟨false, false, true, v.val.toNat % 2 ^ 32, v.val.toNat / 2 ^ 32⟩
      | .iv64 => return ⟨true, false, true, v.val.toNat, v.hi.toNat⟩
      | _ => fault 0x2D

/-- A source of a floating form, after the rules of the word's destination (R43, R213). -/
def readF (t : Nat) (x : Src) (own : M Unit := pure ()) : M FVal := do
  srcRules t true [x] own
  let v ← readSrc t .pair false x
  v.toF x

/-- The family of a word's sources: all one family, literals either; only literals are 32-bit (R213). -/
def family (vs : List FVal) : M Bool :=
  let ts := vs.filter fun v => !v.lit
  if ts.all (·.wide) then return !ts.isEmpty
  else if ts.all fun v => !v.wide then return false
  else fault 0x2D

/-- A source in its word's family: a literal is widened exactly where the family is 64-bit (R35). -/
def FVal.inFam (v : FVal) (wide : Bool) : FVal :=
  if v.lit && wide then let c := Num.convert 0xC 0xD .rn v.lo; ⟨true, false, false, c, c⟩ else v

/-- A source read as an interval; a NaN or infinite point is the empty-interval fault (R214). -/
def FVal.interval (v : FVal) (wide : Bool) : M Num.Iv :=
  let f := famFmt wide
  let iv : Num.Iv := ⟨Num.decodeF f v.lo, Num.decodeF f v.hi⟩
  if !v.iv && !iv.lo.isFin then fault 0x41 else return iv

/-! ### Writing (R34, R211) -/

/-- Issue beats of the forms of a latency (R41). -/
def issueBeats (L : Nat) : Nat := if L ≤ 3 then 1 else if L = 4 then 2 else 4

/-- A result that the thread's readers wait for: its entries and predicate are pending, and are delivered `L` beats after issue
(R40, R309). The entries of an IV64 are known for such (R196). -/
def later (solo : Bool) (t : Nat) (d : Dst) (p : Option (PReg × Tri)) (vs : List (Word64 × Kind)) (L : Nat) : M Unit := do
  let s ← get
  let tok ← fresh
  let es := vs.mapIdx fun j v => Entry.pendK tok j (if v.2 = .iv64 then .iv64 else .empty)
  let due := s.readyAt t L
  modT t fun th =>
    let th := th.modRegs fun r => match p with
      | some (p, _) => (r.put d es).expect p tok 0
      | none => r.put d es
    { th with iter := th.iter ++ [⟨tok, solo, due, vs, (p.map fun x => [x.2]).getD []⟩] }

/-- Writes entries of given values and kinds, readable `L` beats after issue (R39); those of a word that was issued once more
interlock (R207). -/
def writeVals (t : Nat) (d : Dst) (vs : List (Word64 × Kind)) (L : Nat) : M Unit := do
  let s ← get
  if (s.thread t).retry = 0 then modT t fun th => th.modRegs fun x => x.put d (vs.map fun v => Entry.mk' v.1 v.2 (s.readyAt t L))
  else later false t d none vs (L + issueBeats L + 4)

/-- Writes one entry. -/
def writeVal (t : Nat) (d : Dst) (v : Nat) (k : Kind) (L : Nat) : M Unit :=
  writeVals t d [(BitVec.ofNat 64 v, k)] L

/-- Writes a predicate, readable `L` beats after issue (R39, R207). -/
def writePred (t : Nat) (p : PReg) (v : Tri) (L : Nat) : M Unit := do
  let s ← get
  if (s.thread t).retry = 0 then modT t fun th => th.modRegs fun x => x.tell p v (s.readyAt t L)
  else later false t .none (some (p, v)) [] (L + issueBeats L + 4)

/-- A destination whose entries an operation will write: pushed or named now, filled when it delivers (R40). -/
def writePend (t : Nat) (d : Dst) (tok : Nat) (ks : List Kind) : M Unit :=
  modT t fun th => th.modRegs fun x => x.put d (ks.mapIdx fun j k => Entry.pendK tok j (if k = .iv64 then .iv64 else .empty))

/-- The rules of an IV64 destination (R211, R34): 0x0A for code 0, 0x04 for an odd register, 0x05 beyond n. -/
def checkPair (t : Nat) (d : Dst) : M Unit := do
  match d with
  | .none => return
  | .q => fault 0x0A
  | .k r => if r.val % 2 = 1 then fault 0x04
            else if r.val + 1 ≥ ((← get).groupOf t).n then fault 0x05 else return

/-- The rules of a destination that is a pair where the sources' kinds make the result an IV64 (R43, R211). -/
def pairRule (t : Nat) (d : Dst) (xs : List Src) (wide : List Kind → Bool) : M Unit := do
  let s ← get
  if wide (xs.filterMap (s.kindOf t)) then checkPair t d

/-- Writes an interval result of a family (R62, R211). -/
def writeIv (t : Nat) (d : Dst) (wide : Bool) (lo hi L : Nat) : M Unit := do
  if wide then do
    checkPair t d
    writeVals t d [(BitVec.ofNat 64 lo, .iv64), (BitVec.ofNat 64 hi, .iv64)] L
  else writeVals t d [(BitVec.ofNat 64 (hi * 2 ^ 32 + lo), .iv32)] L

/-- An iterative result of latency `L`; a thread has at most one in flight (R215). -/
def iterate (t : Nat) (d : Dst) (p : Option (PReg × Tri)) (vs : List (Word64 × Kind)) (L : Nat) : M Unit := do
  let th ← getT t
  if th.iter.any (·.solo) then wait 0xA .event
  later true t d p vs (if th.retry = 0 then L else L + 5)

/-! ### Shells -/

/-- Extension words that literals take (R35). -/
def litWords (xs : List Src) : Nat := (xs.map fun x => x.lits.length).sum

/-- Shell of an R word. -/
def shR (c : RCtl) (xs : List Src) : Shell := ⟨litWords xs, c.ng, Stall.beats c.s, false, [], false⟩
/-- Shell of a T or I word. -/
def shT (st : Stall) (xs : List Src) : Shell := ⟨litWords xs, false, Stall.beats st, false, [], false⟩
/-- Shell of an M word that names a record (R317). -/
def shM (tb : Rec) (xs : List Src) : Shell := ⟨litWords xs, false, 0, false, [tb], false⟩
/-- Shell of an E word. -/
def shE (xs : List Src) : Shell := ⟨1 + litWords xs, false, 0, true, [], false⟩
/-- The same shell, for a word a candidate may not use (R316). -/
def Shell.ban (sh : Shell) : Shell := { sh with banned := true }
/-- The same shell, for a word at which deferred causes are taken (R88). -/
def Shell.relPoint (sh : Shell) : Shell := { sh with rel := true }

/-- A word that issues in one beat and does not move the thread. -/
def plain (m : M Unit) : M (Cost × Bool) := do m; return (oneBeat, false)

/-- A word of `n` issue beats that does not move the thread. -/
def beats (n : Nat) (m : M Unit) : M (Cost × Bool) := do m; return (⟨n, 0⟩, false)

end Sys2Proof.Machine
end

