-- ==== Sys2Proof/Machine/Access.lean ====
section
/-! DEFINITION. From a record and an index to a place: the record's fields and validity (R139-R142), rows and
swizzle (R143), the checks of R144, the scratchpad space (R135), translation (R71-R82). -/

namespace Sys2Proof.Machine

/-! ### Records -/

/-- A record's fields (R139). -/
structure RecF where
  v : Bool
  reserved : Bool
  home : Nat
  en : Bool
  at_ : Bool
  wr : Bool
  rd : Bool
  view : Nat
  scl : Nat
  swz : Nat
  usz : Nat
  fmt : BitVec 4
  tcols : Nat
  trows : Nat
  stride : Nat
  rowlen : Nat
  sbase : Nat
  shadow : Nat
  extent : Nat
  base : Nat
  deriving DecidableEq, Repr

/-- Reads a record's words (R139). `reserved`: some reserved field is not zero. -/
def recF (b : BitVec 512) : RecF :=
  let f (lo w : Nat) : Nat := (b.extractLsb' lo w).toNat
  { v := b.getLsbD 511
    reserved := f 384 127 != 0 || f 370 2 != 0 || f 363 1 != 0 || f 359 1 != 0
    home := f 376 8, en := b.getLsbD 375, at_ := b.getLsbD 374, wr := b.getLsbD 373, rd := b.getLsbD 372
    view := f 368 2, scl := f 364 4, swz := f 360 3, usz := f 356 3, fmt := b.extractLsb' 352 4
    tcols := f 336 16, trows := f 320 16, stride := f 288 32, rowlen := f 256 32, sbase := f 192 64
    shadow := f 128 64, extent := f 64 64, base := f 0 64 }

/-- Swizzle span in bytes (R143). -/
def swzSpan : Nat → Nat
  | 1 => 64 | 2 => 128 | 3 => 256 | _ => 1

/-- A record valid for an access (R140, R141). -/
def RecF.valid (r : RecF) : Bool :=
  r.v && !r.reserved && decide (r.usz ≤ 4) && decide (r.swz ≤ 3) && (r.swz == 0 || r.rowlen != 0) &&
  r.home != 0xFD && r.home != 0xFF && r.base % 16 == 0 && r.shadow % 16 == 0 &&
  (r.home == 0xFE || (decide (r.base < 2 ^ 52) && decide (r.shadow < 2 ^ 52))) &&
  (r.rowlen == 0 || (r.rowlen % 16 == 0 && r.stride % 16 == 0 && decide (r.rowlen ≤ r.stride) &&
    r.rowlen % swzSpan r.swz == 0)) &&
  (!(r.home == 0xFC || r.home == 0xFE) || r.view == 0)

/-- Where a record's memory lives (R141, R393). -/
def RecF.homeOf (r : RecF) (fab : BitVec 8) : Home :=
  if r.home = 0 ∨ r.home = fab.toNat then .main
  else if r.home = 0xFC then .scratch
  else if r.home = 0xFE then .host
  else .remote r.home

/-- swizzle(cc, row) (R143). -/
def swizzle (swz cc row : Nat) : Nat :=
  match swz with
  | 1 => cc ^^^ (row % 4 * 16)
  | 2 => cc ^^^ (row % 8 * 16)
  | 3 => cc ^^^ (row % 16 * 16)
  | _ => cc

/-- Row and column of a logical byte offset (R143). -/
def RecF.rowCol (r : RecF) (L : Nat) : Nat × Nat := if r.rowlen = 0 then (0, L) else (L / r.rowlen, L % r.rowlen)

/-- Offset of the byte at a row and column (R143). -/
def RecF.place (r : RecF) (row col : Nat) : Nat := row * r.stride + swizzle r.swz col row

/-- The chunks of an access of `n` bytes at logical offset `L`: offset and length of each (R143). -/
def RecF.chunks (r : RecF) (L n : Nat) : List (Nat × Nat) :=
  let (row, col) := r.rowCol L
  if n < 16 then [(r.place row col, n)]
  else (List.range (n / 16)).map fun c => (r.place row (col + 16 * c), 16)

/-- The record a context's table holds. -/
def Context.recAt (c : Context) (tb : Nat) : BitVec 512 := c.recs.getD tb 0

/-! ### Scratchpad space (R135) -/

/-- The team's scratchpad banks on a core, in ascending number (R135). -/
def State.spBanks (s : State) (gc w : Nat) : List Nat :=
  (List.range 32).filter fun i => match (s.core gc).banks[i]? with
    | some b => b.own == some w && b.mode == .scratchpad
    | none => false

/-- Size of the team's scratchpad space. -/
def State.spSize (s : State) (gc w : Nat) : Nat := (s.spBanks gc w).length * 131072

/-- Bank and offset of an address in the team's space. -/
def State.spPlace (s : State) (gc w a : Nat) : Nat × Nat :=
  (((s.spBanks gc w)[a / 131072]?).getD 32, a % 131072)

/-- Change one bank. -/
def State.modBank (s : State) (gc i : Nat) (f : Bank → Bank) : State :=
  s.modCore gc fun c => { c with banks := Vector.ofFn fun j => if j.val = i then f c.banks[j] else c.banks[j] }

/-- A bank of a core. -/
def State.bank (s : State) (gc i : Nat) : Bank := ((s.core gc).banks[i]?).getD (Bank.reset .cache)

/-- Reads scratchpad bytes. -/
def State.spRead (s : State) (gc w a n : Nat) : List Byte :=
  (List.range n).map fun i => let p := s.spPlace gc w (a + i); (s.bank gc p.1).bytes.read p.2

/-- Writes scratchpad bytes; a written word is no longer poisoned (R365). -/
def State.spWrite (s : State) (gc w a : Nat) (bs : List Byte) : State :=
  (bs.zipIdx).foldl (fun s bi =>
    let p := s.spPlace gc w (a + bi.2)
    s.modBank gc p.1 fun b => { b with bytes := b.bytes.write p.2 bi.1, poison := b.poison.filter (· != p.2 / 4) }) s

/-! ### Views (R97) -/

/-- The launch snapshot stamp of a thread's team (R95, R108). -/
def State.launchSnap (s : State) (t : Nat) : Option Nat := (s.card (s.workOf t).card).snap

/-- The stamp a record's view names for a thread; `none` where there is no stamp to read under (R97). -/
def State.readAs (s : State) (t view : Nat) : Option ReadAs :=
  match view with
  | 0 => some .latest
  | 1 => (s.launchSnap t).map .snap
  | 2 => (s.thread t).view.map fun v => if v.tx && v.doom = 0 then .tx v.stamp t else .snap v.stamp
  | _ => none

/-! ### The checks of R144 -/

/-- Rights an access needs (R142). -/
structure Rights where
  rd : Bool
  wr : Bool
  at_ : Bool
  en : Bool
  deriving DecidableEq, Repr

/-- Whether a record grants them. -/
def RecF.grants (r : RecF) (x : Rights) : Bool :=
  (!x.rd || r.rd) && (!x.wr || r.wr) && (!x.at_ || r.at_) && (!x.en || r.en)

/-- The first byte of the access, for sr.trap.val (R360); where the index names none, the causes of R144 carry 0. -/
def RecF.first (r : RecF) (L : Nat) : Nat := r.base + (let p := r.rowCol L; r.place p.1 p.2)

/-- Checks 1 to 3 (R144): record, view, support at the home, rights. -/
def checkRecord (t : Nat) (r : RecF) (x : Rights) (supports : Home → Bool) (val : Nat) : M (Home × ReadAs) := do
  let s ← get
  if !r.valid then faultAt 0x21 val
  if r.view = 3 then fault 0x06
  let v ← match s.readAs t r.view with
    | some v => pure v
    | none => faultAt 0x90 val
  let h := r.homeOf s.dev.fab
  if !supports h then faultAt 0x2C val
  if !r.grants x then faultAt 0x22 val
  return (h, v)

/-- The first byte that breaks check 6 in a run of `n` bytes from a row's column on, 16-byte chunk by chunk. -/
def RecF.firstBad (r : RecF) (size : Option Nat) : Nat → Nat → Nat → Nat → Option Nat
  | 0, _, _, _ => none
  | k + 1, row, col, n =>
    if n = 0 then none
    else
      let m := min n 16
      let o := r.place row col
      if r.rowlen ≠ 0 ∧ col + m > r.rowlen then some (r.base + o)
      else if o + m > r.extent then some (r.base + max o r.extent)
      else if size.any fun z => decide (r.base + o + m > z) then some (max (r.base + o) (size.getD 0))
      else r.firstBad size k row (col + m) (n - m)

/-- Checks 5 and 6 (R144): alignment and bounds; the pieces' offsets from base, with their lengths. -/
def checkPlace (t : Nat) (r : RecF) (h : Home) (L n algn : Nat) : M (List (Nat × Nat)) := do
  let s ← get
  if L % algn ≠ 0 then faultAt 0x23 (r.first L)
  let size := if h = .scratch then some (s.spSize (s.thread t).gcore (s.thread t).id.work) else none
  let (row, col) := r.rowCol L
  match r.firstBad size (n / 16 + 1) row col n with
  | some a => faultAt 0x20 a
  | none => return r.chunks L n

/-! ### Translation (R71-R82) -/

/-- What an access is to translation (R80, R81). -/
inductive Xkind where
  | read | write | atomic | fetch | engine (write : Bool)
  deriving DecidableEq, Repr

/-- The kind field of a page request (R80). -/
def Xkind.code : Xkind → Nat
  | .read => 0 | .write => 1 | .atomic => 2 | .fetch => 3 | .engine _ => 4

/-- Whether the access writes. -/
def Xkind.writes : Xkind → Bool
  | .write => true | .atomic => true | .engine w => w | _ => false

/-- Fields of a page-table entry (R72). -/
structure Pte where
  v : Bool
  leaf : Bool
  w : Bool
  x : Bool
  a : Bool
  d : Bool
  addr : Nat
  ver : Bool
  cmp : Bool
  dup : Bool
  die : Nat
  tier : Nat
  resv : Bool
  leafOnly : Bool
  deriving DecidableEq, Repr

/-- Reads an entry. -/
def pte (e : Word64) : Pte :=
  let f (lo w : Nat) : Nat := (e.extractLsb' lo w).toNat
  { v := e.getLsbD 0, leaf := e.getLsbD 1, w := e.getLsbD 2, x := e.getLsbD 3, a := e.getLsbD 4, d := e.getLsbD 5
    addr := f 8 27 * 256, ver := e.getLsbD 35, cmp := e.getLsbD 36, dup := e.getLsbD 37, die := f 40 2, tier := f 42 2
    resv := f 44 20 != 0 || f 38 2 != 0 || f 6 2 != 0, leafOnly := f 2 4 != 0 || f 35 3 != 0 }

/-- Offset alignment a level's pointer (to the next table) or leaf needs, as a power of two (R73). -/
def pteAlign (level : Nat) (leaf : Bool) : Nat :=
  if leaf then (if level = 1 then 30 else if level = 2 then 21 else 16)
  else (if level = 0 then 14 else if level = 1 then 12 else 8)

/-- A valid entry that is a format error at its level (R73). -/
def Pte.bad (p : Pte) (level : Nat) (farGiB : Nat) : Bool :=
  p.resv || decide (p.tier ≥ 2) || (p.leaf && level == 0) || (!p.leaf && level == 3) ||
  (!p.leaf && p.leafOnly) || p.addr % 2 ^ pteAlign level p.leaf != 0 ||
  (p.tier == 0 && decide (p.addr ≥ 2 ^ 32)) || (p.tier == 1 && decide (p.addr ≥ farGiB * 2 ^ 28))

/-- Page shift of a leaf's level. -/
def leafShift : Nat → Nat
  | 1 => 30 | 2 => 21 | _ => 16

/-- Index of a virtual address at a level (R71). -/
def vaIndex (level va : Nat) : Nat :=
  match level with
  | 0 => va / 2 ^ 41 % 2048 | 1 => va / 2 ^ 30 % 2048 | 2 => va / 2 ^ 21 % 512 | _ => va / 2 ^ 16 % 32

/-- What a walk comes to (R80, R81): a leaf with the address its entry lies at, no page yet, or a format error. -/
inductive WalkEnd where
  | leaf (level : Nat) (entry : Word64) (at_ : Nat)
  | absent
  | bad
  deriving DecidableEq, Repr

/-- Walks the tables from a table's physical address, reading one entry per level (R71, R73). -/
def walkFrom (mem : Memory) (farGiB va : Nat) : Nat → Nat → Nat → WalkEnd
  | 0, _, _ => .bad
  | fuel + 1, level, table =>
    let a := table + 8 * vaIndex level va
    let e : Word64 := BitVec.ofNat 64 (leVal (mem.readN a 8))
    let p := pte e
    if !p.v then .absent
    else if p.bad level farGiB then .bad
    else if p.leaf then .leaf level e a
    else walkFrom mem farGiB va fuel (level + 1) (tierBase (p.tier == 1) p.die + p.addr)

/-- The walk of a context's tables (R76). -/
def State.walk (s : State) (ctx va : Nat) : WalkEnd :=
  let root := (s.ctx ctx).root.toNat
  walkFrom s.homes.mem s.dev.farGiB.toNat va 4 0
    (tierBase (root / 2 ^ 42 % 4 == 1) (root / 2 ^ 40 % 4) + root / 2 ^ 14 % 2 ^ 21 * 2 ^ 14)

/-- Slots of a die's version store that the versions of lines hold (R93). -/
def VLine.slots (v : VLine) : List Nat := v.older.filterMap (·.slot) ++ v.pend.filterMap (·.slot)

/-- A page that a leaf with ver = 0 now maps is versioned no longer: its chains and heads go (R91). A page with versions
that are pending or locked keeps them. -/
def State.unversion (s : State) (first n : Nat) : State :=
  let mine (p : Nat) : Bool := decide (first ≤ p) && decide (p < first + n)
  let busy (p : Nat) : Bool := s.homes.vlines.any fun lv => lv.1 / 256 == p && !lv.2.pend.isEmpty
  let gone := s.homes.heads.filter fun p => mine p && !busy p
  if gone.isEmpty then s
  else
    let lines := s.homes.vlines.filter fun lv => gone.contains (lv.1 / 256)
    let s := lines.foldl (fun s lv => s.modDie (lineDie lv.1) fun x =>
      { x with store := x.store.map fun v => { v with taken := v.taken.filter fun k => !(lv.2.slots.contains k) } }) s
    s.modHomes fun h => { h with vlines := h.vlines.filter (fun lv => !(gone.contains (lv.1 / 256))),
                                 heads := h.heads.filter fun p => !(gone.contains p) }

/-- Puts a leaf at the head of a translation cache that holds `n` entries; the entry put there first goes (R78). -/
def cacheIn (n : Nat) (tl : List Tlb) (e : Tlb) : List Tlb :=
  (e :: tl.filter fun t => !(t.ctx == e.ctx && t.shift == e.shift && t.region == e.region)).take n

/-- A walk that reached a leaf sets a, and d for a write that the leaf allows, and caches the entry (R75, R78); the
lines of a compressed page are known to have metadata (R128). -/
def State.cacheLeaf (s : State) (d ctx va level : Nat) (entry : Word64) (at_ : Nat) (write : Bool) : State :=
  let e := entry ||| 0x10#64 ||| (if write && (pte entry).w then 0x20#64 else 0)
  let sh := leafShift level
  let pg : Nat := (tierBase ((pte e).tier == 1) (pte e).die + (pte e).addr) / 65536
  let n := 2 ^ (sh - 16)
  let new := if (pte e).cmp then (List.range n).map (pg + ·) else []
  let s := s.modHomes fun h =>
    { h with cmps := h.cmps ++ new.filter fun p => !h.cmps.contains p }
  let s := if e = entry then s else s.devWrite ctx at_ (leBytes 8 e.toNat)
  let s := if (pte e).ver then s else s.unversion pg n
  s.modDie d fun x => { x with tlb := cacheIn 16384 x.tlb ⟨ctx, sh, va / 2 ^ sh, e⟩ }

/-- The leaf for an address among cached translations (R78). -/
def tlbFind (tl : List Tlb) (ctx va : Nat) : Option Tlb := tl.find? fun e => e.ctx == ctx && va / 2 ^ e.shift == e.region

/-- Attaches a waiter to the walk of its region, starting one if there is none (R79). Walks stand in the order in which
their misses arrived: the first 64 that the host has not been asked about are with the walkers, the next 1,024 in the walk
queue, and any others wait at the L2 translation cache (R78). -/
def State.attachWalk (s : State) (d ctx va : Nat) (k : Xkind) (w : Waiter) : State :=
  s.modDie d fun x =>
    let region := va / 65536
    if x.walks.any fun y => y.ctx == ctx && y.region == region then
      { x with walks := x.walks.map fun y =>
          if y.ctx == ctx && y.region == region then
            { y with waiters := if y.waiters.contains w then y.waiters else y.waiters ++ [w], write := y.write || k.writes }
          else y }
    else { x with walks := x.walks ++ [⟨ctx, region, va, k.code, k.writes, [w], none⟩] }

/-- The core that waits for a walk with one of its translation miss entries; engines use none (R78). -/
def State.waiterCore (s : State) (d : Nat) : Waiter → Option Nat
  | .thread t => some (s.thread t).gcore
  | .side c => some (d * 64 + c)
  | .eng _ _ _ => none

/-- The core has a translation miss entry for the region, or one of its 32 is free (R78, R79). -/
def State.missRoom (s : State) (gc ctx region : Nat) : Bool :=
  let d := gc / 64
  let mine := (s.die d).walks.filter fun y => y.waiters.any fun w => s.waiterCore d w == some gc
  (mine.any fun y => y.ctx == ctx && y.region == region) || decide (mine.length < 32)

/-- A translated address: its place at the home, the place a read of it goes to (R83), and its page's attributes. -/
structure Xlat where
  pa : Nat
  src : Nat
  ver : Bool
  dup : Bool
  cmp : Bool
  owner : Nat
  deriving DecidableEq, Repr

/-- The outcome of looking a translation up. -/
inductive Look where
  | ok (x : Xlat)
  | miss
  | bad (c : Cause)
  deriving DecidableEq, Repr

/-- Looks a virtual address up among cached leaves, with the rights of R74 and R81. A write through an entry whose d is
still 0 needs a walk, which sets it (R75). -/
def lookIn (tl : List Tlb) (ctx va : Nat) (k : Xkind) : Look :=
  if va ≥ 2 ^ 52 then .bad 0x24
  else match tlbFind tl ctx va with
    | none => .miss
    | some e =>
      let p := pte e.pte
      let pa := tierBase (p.tier == 1) p.die + p.addr + va % 2 ^ e.shift
      if k.writes && !p.w then .bad 0x25
      else if k == .fetch && !p.x then .bad 0x26
      else if k.writes && !p.d then .miss
      else .ok ⟨pa, pa, p.ver, p.dup && e.shift == 16 && !p.ver && !p.cmp, p.cmp, p.die⟩

/-- Whether an access of the kind may be served from a replica (R83). -/
def Xkind.copies : Xkind → Bool
  | .read => true | .fetch => true | .engine w => !w | _ => false

/-- A read on a die that holds the page's replica goes to the replica's frame, until the page collapses (R83, R85). -/
def State.spot (s : State) (d : Nat) (k : Xkind) (x : Xlat) : Xlat :=
  if !k.copies || !x.dup then x
  else
    let page := x.pa / 65536
    match (s.die d).replicas.find? (fun r => r.page == page && r.complete), (s.die d).pool with
    | some r, some (base, _) =>
      if s.homes.collapsing.contains page then x
      else { x with src := tierBase false d + base + r.frame * 65536 + x.pa % 65536 }
    | _, _ => x

/-- Looks an address up in a die's L2 translation cache (R78). -/
def State.look (s : State) (d ctx va : Nat) (k : Xkind) : Look :=
  match lookIn (s.die d).tlb ctx va k with
  | .ok x => .ok (s.spot d k x)
  | r => r

/-- Looks an address up in a core's L1 translation cache, and then in its die's L2 (R78). -/
def State.lookCore (s : State) (gc ctx va : Nat) (k : Xkind) : Look :=
  match lookIn (s.core gc).tlb ctx va k with
  | .ok x => .ok (s.spot (gc / 64) k x)
  | .bad c => .bad c
  | .miss => s.look (gc / 64) ctx va k

/-- A core's L1 translation cache takes the leaf that its die's L2 holds (R78). -/
def State.fillTlb (s : State) (gc ctx va : Nat) : State :=
  match tlbFind (s.die (gc / 64)).tlb ctx va with
  | some e => s.modCore gc fun c => { c with tlb := cacheIn 512 c.tlb e }
  | none => s

/-- Addresses of the table entries that a walk reads. -/
def walkAddrs (mem : Memory) (farGiB va : Nat) : Nat → Nat → Nat → List Nat
  | 0, _, _ => []
  | fuel + 1, level, table =>
    let a := table + 8 * vaIndex level va
    let p := pte (BitVec.ofNat 64 (leVal (mem.readN a 8)))
    if !p.v || p.bad level farGiB || p.leaf then [a]
    else a :: walkAddrs mem farGiB va fuel (level + 1) (tierBase (p.tier == 1) p.die + p.addr)

/-- Every table entry of a walk lies in a portion that serves reads (R394, R395). -/
def State.walkAwake (s : State) (ctx va : Nat) : Bool :=
  let root := (s.ctx ctx).root.toNat
  (walkAddrs s.homes.mem s.dev.farGiB.toNat va 4 0
    (tierBase (root / 2 ^ 42 % 4 == 1) (root / 2 ^ 40 % 4) + root / 2 ^ 14 % 2 ^ 21 * 2 ^ 14)).all fun a => s.lineAwake (a / 256)

/-- What a silent look-up comes to: a place, a cause, or that a table entry lies where reads are not served now (R394, R395). -/
inductive Quiet where
  | ok (x : Xlat) (s : State)
  | bad (c : Cause)
  | hold

/-- A look-up that walks silently on a miss and posts nothing (R159, R336, R339). -/
def State.quietLook (s : State) (d ctx va : Nat) (k : Xkind) : Quiet :=
  match s.look d ctx va k with
  | .ok x => .ok x s
  | .bad c => .bad c
  | .miss =>
    if !s.walkAwake ctx va then .hold
    else match s.walk ctx va with
    | .leaf level e a =>
      let s := s.cacheLeaf d ctx va level e a k.writes
      match s.look d ctx va k with
      | .ok x => .ok x s
      | .bad c => .bad c
      | .miss => .bad 0x24
    | .absent => .bad 0x24
    | .bad => .bad 0x27

/-- A line of a bundle's word misses in a translation cache: raw event 1 for the L1's, 2 for the L2's, once for the word
however many of its threads touch the line (R77, R380). -/
def State.lineMiss (s : State) (t line lvl : Nat) : State :=
  let key := 2 * line + lvl
  let known := (t :: s.mates t).any fun u => (s.thread u).missed.contains key
  let s := if (s.thread t).missed.contains key then s else s.modThread t fun th => { th with missed := key :: th.missed }
  if known then s else s.rawEvent (s.thread t).gcore (1 + lvl)

/-- A store's or reduction's look-up at its word counts its misses, also where it then retires into the side log (R86, R380). -/
def State.noteMisses (s : State) (t va : Nat) (k : Xkind) : State :=
  let gc := (s.thread t).gcore
  match lookIn (s.core gc).tlb (s.ctxOf t) va k with
  | .miss =>
    let s := s.lineMiss t (va / 256) 0
    match s.look (gc / 64) (s.ctxOf t) va k with
    | .miss => s.lineMiss t (va / 256) 1
    | _ => s
  | _ => s

/-- Translates for a thread's word: it waits for a miss entry and for the walk, or takes the cause that the walk or the
host gave it (R77-R82). -/
def translate (t va : Nat) (k : Xkind) : M Xlat := do
  let s ← get
  let th := s.thread t
  let ctx := s.ctxOf t
  match th.xlat.find? fun x => x.1 == va / 65536 with
  | some (_, c) => faultAt c va
  | none =>
    match lookIn (s.core th.gcore).tlb ctx va k with
    | .ok x => return s.spot th.id.die k x
    | .bad c => faultAt c va
    | .miss =>
      let s := s.lineMiss t (va / 256) 0
      match s.look th.id.die ctx va k with
      | .ok x => do
        set (s.fillTlb th.gcore ctx va)
        return x
      | .bad c => faultAt c va
      | .miss => do
        let s := s.lineMiss t (va / 256) 1
        let leaf : BitVec 4 := if k = .fetch then 0x2 else 0x7
        if s.missRoom th.gcore ctx (va / 65536) then do
          set (s.attachWalk th.id.die ctx va k (.thread t))
          wait leaf .event
        else do
          set s
          wait leaf .poll

end Sys2Proof.Machine
end

