-- ==== Sys2Proof/Machine/Homes.lean ====
section
/-! DEFINITION. Home slices, L1 and versions: what a load returns and what a write does when it performs
(R91-R107, R118-R126, R130). -/

namespace Sys2Proof.Machine

/-! ### Lines -/

/-- Byte `i` of a line. -/
def lineByte (d : LineData) (i : Nat) : Byte := d.extractLsb' (8 * i) 8

/-- A line with byte `i` replaced. -/
def setLineByte (d : LineData) (i : Nat) (b : Byte) : LineData :=
  (d &&& ~~~(BitVec.ofNat 2048 (255 <<< (8 * i)))) ||| (BitVec.ofNat 2048 (b.toNat <<< (8 * i)))

/-- A line with bytes written from offset `o` on. -/
def setLineBytes (d : LineData) (o : Nat) (bs : List Byte) : LineData :=
  bs.zipIdx.foldl (fun d bi => setLineByte d (o + bi.2) bi.1) d

/-- The line of bytes of main memory. -/
def memLine (m : Memory) (line : Nat) : LineData := BitVec.ofNat 2048 (leVal (m.readN (line * 256) 256))

/-! ### Compression metadata (R127-R130) -/

/-- Elements of a line as fields of `w` bits whose exponent is `e` bits above `m` (R127). -/
def exponents (d : LineData) (w m e : Nat) : List Nat :=
  (List.range (2048 / w)).map fun i => (d.extractLsb' (w * i + m) e).toNat

/-- Flits of the exponent-plane form, if a width `b` below `e` fits (R127). -/
def planeFlits (d : LineData) (w m e s : Nat) : Option Nat :=
  let xs := exponents d w m e
  let lo := xs.foldl min (2 ^ e)
  let hi := xs.foldl max 0
  ((List.range e).find? fun b => decide (hi - lo < 2 ^ b)).map fun b => (2 + s + 2048 / w * b / 8 + 31) / 32

/-- Flits a line travels and is kept in: the smallest form (R127). -/
def lineFlits (d : LineData) : Nat :=
  let ws := (List.range 64).map fun i => (d.extractLsb' (32 * i) 32)
  let w0 := ws.headD 0
  let near (n : Nat) : Bool := ws.all fun w => decide ((w - w0).toInt < (2 ^ n : Nat)) && decide (-(2 ^ n : Nat) ≤ (w - w0).toInt)
  if d = 0 then 0
  else
    let fs := (if ws.all (· == w0) then [1] else []) ++ (if near 7 then [3] else []) ++ (if near 15 then [5] else []) ++
      ([planeFlits d 8 3 4 128, planeFlits d 8 2 5 96, planeFlits d 16 7 8 128].filterMap id)
    fs.foldl min 8

/-- Where the host has carved a metadata region: the byte of a line's code (R128). -/
def State.codeAddr (s : State) (line : Nat) : Option Nat :=
  let pa := line * 256
  let d := s.die (lineDie line)
  let near := decide (pa < 0x2000000000)
  (if near then d.metaNear else d.metaFar).map fun base =>
    let o := pa - tierBase (!near) (lineDie line)
    tierBase false (lineDie line) + base + 128 * (o / 65536) + o / 256 % 256 / 2

/-- Writes a line's 4-bit code into the metadata region (R128). -/
def State.putCode (s : State) (line code : Nat) : State :=
  match s.codeAddr line with
  | none => s
  | some a =>
    let b := (s.homes.mem.read a).toNat
    let b' := if line % 2 = 0 then b / 16 * 16 + code else code * 16 + b % 16
    s.modHomes fun h => { h with mem := h.mem.write a (BitVec.ofNat 8 b') }

/-- A line of a compressed page gets the code of its new content (R128). -/
def State.recode (s : State) (line : Nat) : State :=
  if s.homes.cmps.contains (line / 256) then s.putCode line (lineFlits (memLine s.homes.mem line)) else s

/-- An asynchronous record (R363). -/
def State.asyncRec (s : State) (die core ctx team : Nat) (c : Cause) (v : Nat) : FaultRec :=
  ⟨(s.die die).mer, BitVec.ofNat 64 v, 0, 0, c, 2, ctx, team, 0, 0, die, core, 0, 0, 0⟩

/-- Marks a line poisoned (R130, R365). -/
def Homes.poisonOne (h : Homes) (line : Nat) : Homes :=
  { h with poison := if h.poison.contains line then h.poison else h.poison ++ [line] }

/-- Poisons a line; a line of a compressed page gets metadata code 15 (R130, R365). -/
def State.poisonLine (s : State) (line : Nat) : State :=
  let s := s.modHomes fun h => h.poisonOne line
  if s.homes.cmps.contains (line / 256) then s.putCode line 15 else s

/-- Almanac number of the uncorrectable errors of the tier channel that a line lies in: one of the near tier's two SRAM dies, or of the
far tier's eight channels (R69, R399). -/
def tierErrors (line : Nat) : Nat := 0x1000 + 16 * lineDie line + if line * 256 < 0x2000000000 then line % 2 else 8 + line % 8

/-- An unreadable metadata word: its 16 lines are poisoned, and 0xB0 is posted with the first line's address (R130). -/
def State.metaWord (s : State) (ctx line : Nat) : State :=
  let first := line / 16 * 16
  let s := (List.range 16).foldl (fun s i => s.poisonLine (first + i)) s
  (s.almanac (tierErrors ((s.codeAddr line).getD 0 / 256)) 1).postQ ctx (s.asyncRec (lineDie line) 0 ctx 0 0xB0 (first * 256))

/-! ### L2 slices (R117, R119, R129, R137) -/

/-- The slice of a line on the die that holds it, and its set there (R117). -/
def l2Index (line : Nat) : Nat × Nat :=
  let n := if line * 256 < 0x2000000000 then line % 2 ^ 24 else line % 2 ^ 27
  (n % 96, n / 96 % 256)

/-- Almanac number of the uncorrectable errors of the slice of a line (R399). -/
def sliceErrors (line : Nat) : Nat := 0x5000 + 128 * lineDie line + (l2Index line).1

/-- Order in which a set's lines are replaced (R137). -/
def hintRank : Hint → Nat
  | .evictFirst => 0 | .noAllocate => 0 | .normal => 1 | .evictLast => 2

/-- A line with one replacement class and use goes before another (R137). -/
def goesBefore (ha hb : Hint) (ua ub : Nat) : Bool :=
  decide (hintRank ha < hintRank hb) || (hintRank ha == hintRank hb && decide (ua < ub))

/-- A die's slices hold the line. -/
def State.l2Holds (s : State) (d line : Nat) : Bool := (s.die d).l2.any fun l => l.line == line

/-- Takes a line out of a die's slices. -/
def State.l2Drop (s : State) (d line : Nat) : State :=
  s.modDie d fun x => { x with l2 := x.l2.filter fun l => l.line != line }

/-- A core's L1 clears the mask bits of a word (R122). -/
def State.revoke (s : State) (gc word : Nat) : State :=
  s.modCore gc fun c => { c with l1 := c.l1.map fun l =>
    if l.phys = word / 64 then { l with mask := l.mask &&& ~~~(BitVec.ofNat 256 (15 <<< (word % 64 * 4))) } else l }

/-- A core answers the revocation of a word: it clears the word's mask bits, and the word has no owner (R120, R122). -/
def State.answerRevoke (s : State) (gc word : Nat) : State :=
  ((s.revoke gc word).rawEvent gc 11).modHomes fun h =>
    { h with owner := if h.owner.find word = some gc then h.owner.drop word else h.owner }

/-- Revokes every owned word among some at once. -/
def State.disown (s : State) (words : List Nat) : State :=
  words.foldl (fun s w => match s.homes.owner.find w with
    | some gc => s.answerRevoke gc w
    | none => s) s

/-- The words of a line. -/
def lineWords (line : Nat) : List Nat := (List.range 64).map (line * 64 + ·)

/-- A line has no copies. -/
def Homes.uncopy (h : Homes) (line : Nat) : Homes :=
  { h with copies := h.copies.drop line, purging := h.purging.filter (· != line) }

/-- A line leaves its home slice: every copy of it is invalidated, and every owned word revoked (R119, R120). -/
def State.l2Leave (s : State) (line : Nat) : State :=
  let s := (s.homes.copies.getD line []).foldl (fun s d => s.l2Drop d line) s
  (s.modHomes fun h => h.uncopy line).disown (lineWords line)

/-- A die's copy of a line is gone from the line's presence vector (R119). -/
def State.copyOff (s : State) (die line : Nat) : State :=
  let ds := (s.homes.copies.getD line []).filter (· != die)
  s.modHomes fun h => if ds.isEmpty then h.uncopy line else { h with copies := h.copies.put line ds }

/-- A slice evicts a line: of its own die, or a copy. -/
def State.l2Evict (s : State) (d line : Nat) : State :=
  let s := s.l2Drop d line
  if lineDie line = d then s.l2Leave line else s.copyOff d line

/-- An access of a line at a slice of a die: a line that is there takes the access's class, another is brought in, in place
of the victim of its set, unless the access does not allocate (R137). -/
def State.l2Touch (s : State) (d line : Nat) (h : Hint) : State :=
  let tick := s.sched.tick
  let s := s.modSched fun x => { x with tick := tick + 1 }
  if s.l2Holds d line then
    s.modDie d fun x => { x with l2 := x.l2.map fun l => if l.line = line then ⟨line, h, tick⟩ else l }
  else if h = .noAllocate then s
  else
    let set := (s.die d).l2.filter fun l => decide (l2Index l.line = l2Index line)
    let s := match set with
      | [] => s
      | l0 :: r =>
        if set.length < 16 then s
        else s.l2Evict d (r.foldl (fun (b l : L2Line) => if goesBefore l.hint b.hint l.used b.used then l else b) l0).line
    s.modDie d fun x => { x with l2 := ⟨line, h, tick⟩ :: x.l2 }

/-- After an access that left its line outside its home slice, nothing of the line is recorded there (R120, R137). -/
def State.l2Settle (s : State) (line : Nat) : State :=
  if s.l2Holds (lineDie line) line then s else s.l2Leave line

/-- A read that misses in L1 goes to a copy on its own die, or to the home slice; one of a line of a page with ver = 0 from
another die leaves a copy there (R119, R121). -/
def State.l2Read (s : State) (die line : Nat) (ver : Bool) (h : Hint) : State :=
  let hd := lineDie line
  if hd = die || ver then s.l2Touch hd line h
  else if s.l2Holds die line then s.l2Touch die line h
  else
    let s := s.l2Touch hd line h
    if h = .noAllocate || !s.l2Holds hd line || s.homes.purging.contains line then s
    else
      let s := s.l2Touch die line h
      s.modHomes fun x => { x with copies := x.copies.put line (x.copies.getD line [] ++ [die]) }

/-- The slice reads the code of a line of a compressed page through its metadata cache of 128 blocks; a reserved code is an
unreadable metadata word, and code 15 a poisoned line (R128, R129). -/
def State.codeCheck (s : State) (ctx line : Nat) : State :=
  if !s.homes.cmps.contains (line / 256) then s
  else match s.codeAddr line with
  | none => s
  | some a =>
    let sl := (l2Index line).1
    let s := s.modDie (lineDie line) fun x =>
      { x with codes := x.codes.put sl (((line / 256) :: (x.codes.getD sl []).filter (· != line / 256)).take 128) }
    let b := (s.homes.mem.read a).toNat
    let c := if line % 2 = 0 then b % 16 else b / 16
    if 9 ≤ c ∧ c ≤ 14 then s.metaWord ctx line
    else if c = 15 then s.modHomes fun h => h.poisonOne line
    else s

/-! ### Version chains -/

/-- A line never written since its page became versioned (R91). -/
def VLine.fresh : VLine := ⟨0, .plain, [], [], none⟩

/-- Changes the versions not yet committed. -/
def VLine.mapPend (v : VLine) (f : Pending → Pending) : VLine := { v with pend := v.pend.map f }

/-- The chain of a line. -/
def State.vline (s : State) (line : Nat) : VLine := s.homes.vlines.getD line VLine.fresh

/-- Change a line's chain. -/
def State.modVLine (s : State) (line : Nat) (f : VLine → VLine) : State :=
  s.modHomes fun h => { h with vlines := h.vlines.put line (f (s.vline line)) }

/-- The stamp that a read under a view carries (R98, R147). -/
def ReadAs.stamp : ReadAs → Option Nat
  | .latest => none
  | .snap v => some v
  | .tx v _ => some v

/-- The stamps an engine operation in flight reads under (R100, R105). -/
def EngOp.stamps (o : EngOp) : List Nat := if o.st = .ended then [] else [o.viewS, o.viewD].filterMap (·.stamp)

/-- The stamps that views of this device hold open: snapshots, transactions, live launch snapshots, engine operations
(R105), replay snapshots (R386). -/
def State.viewStamps (s : State) : List Nat :=
  (s.threads.filterMap fun kv => kv.2.view.map (·.stamp)) ++
  (s.cards.filterMap fun kv => if kv.2.st = .done then none else kv.2.snap) ++
  (s.works.filterMap fun kv => kv.2.rpl.map fun r => r.checks.map (·.snap)).flatten ++
  (s.cores.map fun kv => (kv.2.engines.toList.map fun e => (e.ops.map fun o => o.2.stamps).flatten).flatten).flatten

/-- All open stamps, those of other devices' snapshots that have read here among them (R105). -/
def State.openStamps (s : State) : List Nat := s.viewStamps ++ s.dev.farSnaps.map (·.2)

/-- A version of the line is locked, or has begun locking, at or below a stamp (R98). -/
def VLine.undecided (v : VLine) (stamp : Option Nat) : Bool :=
  v.pend.any fun p => p.locking && (match p.stamp, stamp with
    | some c, some x => decide (c ≤ x)
    | _, _ => true)

/-- What a read of a versioned line returns at its home under a view; `none` while it must hold (R98, R99). -/
def State.homeLine (s : State) (line : Nat) (v : ReadAs) : Option LineData :=
  let vl := s.vline line
  let now := memLine s.homes.mem line
  let under (x : Nat) : Option LineData :=
    if vl.undecided (some x) then none
    else if vl.stamp ≤ x then some now
    else match vl.older.find? fun o => decide (o.stamp ≤ x) with
      | some o => some o.data
      | none => some ((vl.older.getLast?).map (·.data) |>.getD now)
  match v with
  | .latest => if vl.undecided none then none else some now
  | .snap x => under x
  | .tx x t =>
    match vl.pend.find? fun p => decide (p.owner = .tx t) with
    | some p => some p.data
    | none => under x

/-! ### Poison, ownership, copies, replicas -/

/-- A line is poisoned (R130, R365). -/
def State.poisoned (s : State) (line : Nat) : Bool := s.homes.poison.contains line

/-- Old owners, other than the new one, of the words written (R120). -/
def State.oldOwners (s : State) (words : List Nat) (new : Option Nat) : List (Nat × Nat) :=
  words.filterMap fun w => match s.homes.owner.find w with
    | some o => if some o = new then none else some (o, w)
    | none => none

/-- Sets the owner of the words written (R120). -/
def State.setOwner (s : State) (words : List Nat) (new : Option Nat) : State :=
  let one (t : Tbl Nat) (w : Nat) : Tbl Nat := match new with
    | some o => t.put w o
    | none => t.drop w
  s.modHomes fun h => { h with owner := words.foldl one h.owner }

/-- Adds to a list what it does not hold. -/
def addNew (xs : List Nat) (x : Nat) : List Nat := if xs.contains x then xs else x :: xs

/-- A write waits for copies and replicas of its line to go: the owner marks the page collapsing (R85), and the copies are being
invalidated (R119). -/
def State.startCollapse (s : State) (line : Nat) : State :=
  let page := line / 256
  s.modHomes fun h =>
    { h with collapsing := if (s.replicaDies page).isEmpty then h.collapsing else addNew h.collapsing page,
             purging := if (h.copies.getD line []).isEmpty then h.purging else addNew h.purging line }

/-- The lanes, the engines and the array of a die work: they stop while it relocks, is gated or is halted (R394, R395). -/
def State.dieRuns (s : State) (die : Nat) : Bool := !(s.die die).gated && !(s.die die).halted && s.clocked die

/-- What an event of a die's engines or array does: nothing while they are stopped (R395). -/
def State.ifRuns (s : State) (die : Nat) (f : State → State) : State := if s.dieRuns die then f s else s

/-- What traffic of a die does: nothing while the die relocks (R395). -/
def State.ifClocked (s : State) (die : Nat) (f : State → State) : State := if s.clocked die then f s else s

/-- A device physical address of memory (R70, R10). -/
def State.isMem (s : State) (pa : Nat) : Bool :=
  decide (pa < 0x400000000) ||
    (decide (0x2000000000 ≤ pa) && decide (pa < 0x4000000000) &&
      decide ((pa - 0x2000000000) % 0x800000000 < s.dev.farGiB.toNat * 2 ^ 28))

/-! ### Version slots (R94, R106, R107) -/

/-- The lowest free slot of the die's version store. -/
def State.freeSlot (s : State) (d : Nat) : Option Nat :=
  match (s.die d).store with
  | some v => ((List.range (v.taken.length + 1)).find? fun k => !v.taken.contains k).filter fun k => decide (k < v.slots)
  | none => none

/-- Takes a slot. -/
def State.takeSlot (s : State) (d k : Nat) : State :=
  s.modDie d fun x => { x with store := x.store.map fun v => { v with taken := k :: v.taken } }

/-- The page's version heads exist from its first write through a versioned leaf (R389). -/
def State.markHeads (s : State) (line : Nat) : State :=
  if s.homes.heads.contains (line / 256) then s
  else s.modHomes fun h => { h with heads := (line / 256) :: h.heads }

/-- What a write to a line meets at its home: it performs, it waits (with the revocations it waits for), it finds no version
slot, or its line is poisoned. -/
inductive WriteRes where
  | ok (s : State)
  | hold (s : State) (revs : List (Nat × Nat))
  | noSlot
  | poisoned (s : State)

/-- The bytes that a write puts into one line: runs, each at its offset. -/
abbrev Runs := List (Nat × List Byte)

/-- Words of a line that runs touch (R120). -/
def Runs.words (rs : Runs) (line : Nat) : List Nat :=
  ((rs.map fun r => wordsOf (line * 256 + r.1) r.2.length).flatten).eraseDups

/-- Writes runs over a line's data. -/
def Runs.over (rs : Runs) (d : LineData) : LineData := rs.foldl (fun d r => setLineBytes d r.1 r.2) d

/-- Bytes of a line that runs write. -/
def Runs.mask (rs : Runs) : BitVec 256 := rs.foldl (fun m r => m ||| BitVec.ofNat 256 ((2 ^ r.2.length - 1) <<< r.1)) 0

/-- The runs cover the whole line (R130). -/
def Runs.whole (rs : Runs) : Bool := decide (rs.mask = BitVec.allOnes 256)

/-- Dooms the transaction whose intent a write meets, its own thread's included (R101, reason 2). -/
def State.doomIntent (s : State) (line : Nat) : State :=
  match (s.vline line).intent with
  | some t => s.doom t 2
  | none => s

/-- A version displaced from its line is kept: in a slot where an open view can read it, else without one (R94, R106). -/
def VLine.keepAs (v : VLine) (stamp : Nat) (owner : Owner) (data : LineData) (slot : Option Nat) : VLine :=
  { v with stamp := stamp, owner := owner, older := ⟨v.stamp, data, v.owner, slot⟩ :: v.older }

/-- A page is collapsing no longer once a write to it performs (R85). -/
def Homes.uncollapse (h : Homes) (page : Nat) : Homes := { h with collapsing := h.collapsing.filter (· != page) }

/-- Runs are written to their line: the content, a fresh code where there is one, the owners, the poison and the collapse of
its page that end with it (R85, R120, R128, R130). -/
def State.writeRuns (s : State) (h : Hint) (line : Nat) (rs : Runs) (own : Option Nat) : State :=
  let s := ((s.l2Touch (lineDie line) line h).setOwner (rs.words line) own).modHomes fun x =>
    { x.uncollapse (line / 256) with
      mem := rs.foldl (fun m r => m.writeN (line * 256 + r.1) r.2) x.mem, poison := x.poison.filter (· != line) }
  s.recode line

/-- The stamp of a plain write (R95). -/
def State.plainStamp (s : State) (line : Nat) : Nat := max ((s.die (lineDie line)).mer + 2) ((s.vline line).stamp + 1)

/-- A plain write of one line at its home slice: copies and replicas first (R85, R119), then its code and poison (R129,
R130), a commit wait holds it (R102), old owners' words are revoked (R120), an intent is doomed (R101), a version an open
view can read takes a slot (R94), and the stamp is that of R95. `own`: the owning core, none for atomics, engines and the
host. -/
def State.homeWrite (s : State) (ctx : Nat) (h : Hint) (ver : Bool) (line : Nat) (rs : Runs) (own : Option Nat) : WriteRes :=
  if !s.lineAwake line then .hold s []
  else if s.copiesLeft line then .hold (s.startCollapse line) []
  else
    let c := s.codeCheck ctx line
    if c.poisoned line && !rs.whole then .poisoned c
    else if ver && (s.vline line).undecided none then .hold s []
    else
      let revs := s.oldOwners (rs.words line) own
      if !revs.isEmpty then .hold s revs
      else if !ver then .ok (c.writeRuns h line rs own)
      else
        let old := memLine c.homes.mem line
        let put (s : State) (slot : Option Nat) : WriteRes :=
          let st := s.plainStamp line
          .ok ((s.modVLine line fun v => v.keepAs st .plain old slot).writeRuns h line rs own)
        if c.openStamps.any fun v => decide ((c.vline line).stamp ≤ v) then
          match c.freeSlot (lineDie line) with
          | some k => put (((c.doomIntent line).markHeads line).takeSlot (lineDie line) k) (some k)
          | none => .noSlot
        else put ((c.doomIntent line).markHeads line) none

/-- The transaction of a thread is open at a start stamp and not doomed. -/
def State.txLive (s : State) (tid stamp : Nat) : Bool :=
  match (s.thread tid).view with
  | some v => v.tx && v.doom == 0 && v.stamp == stamp
  | none => false

/-- Changes the versions of an owner that are not locked (R101, R115). -/
def VLine.amend (v : VLine) (o : Owner) (f : Pending → Pending) : VLine :=
  v.mapPend fun p => if p.owner = o ∧ !p.locking then f p else p

/-- An unlocked version of an owner stands on the line. -/
def VLine.has (v : VLine) (o : Owner) : Bool := v.pend.any fun p => decide (p.owner = o) && !p.locking

/-- A transactional store of one line (R101): it takes write intent and writes the pending version, or dooms its
transaction. A transaction that is doomed or gone performs nothing. -/
def State.txWrite (s : State) (ctx : Nat) (h : Hint) (tid stamp line : Nat) (rs : Runs) (own : Nat) : WriteRes :=
  let d := lineDie line
  if !s.lineAwake line then .hold s []
  else if !s.txLive tid stamp then .ok s
  else
    let c := s.codeCheck ctx line
    if c.poisoned line && !rs.whole then .poisoned c
    else
      let vl := s.vline line
      let revs := s.oldOwners (rs.words line) (some own)
      let upd (f : VLine → VLine) (s : State) : WriteRes :=
        .ok (((s.markHeads line).modVLine line f).l2Touch d line h |>.setOwner (rs.words line) (some own))
      if vl.has (.tx tid) then
        if !revs.isEmpty then .hold s revs
        else upd (fun v => v.amend (.tx tid) fun p => { p with data := rs.over p.data, mask := p.mask ||| rs.mask }) c
      else if (vl.intent.isSome && vl.intent != some tid) || !vl.pend.isEmpty then .ok (c.doom tid 1)
      else if vl.stamp > stamp then .ok (c.doom tid 3)
      else match c.freeSlot d with
        | none => .ok (c.doom tid 4)
        | some k =>
          if !revs.isEmpty then .hold s revs
          else
            let p : Pending := ⟨.tx tid, rs.mask, rs.over (memLine c.homes.mem line), false, none, some k⟩
            upd (fun v => { v with pend := v.pend ++ [p], intent := some tid }) (c.takeSlot d k)

/-- An engine write of one versioned line: a pending version of the publish group, holding only the bytes written (R115,
R188); it dooms a transaction's intent (R101) and waits out a commit (R102). -/
def State.pubWrite (s : State) (ctx tb line : Nat) (rs : Runs) : WriteRes :=
  let d := lineDie line
  let own := Owner.pub ctx tb
  if !s.lineAwake line then .hold s []
  else
    let c := s.codeCheck ctx line
    if c.poisoned line && !rs.whole then .poisoned c
    else if (s.vline line).undecided none then .hold s []
    else
      let c := ((c.doomIntent line).markHeads line).l2Touch d line .normal
      if (c.vline line).has own then
        .ok (c.modVLine line fun v => v.amend own fun p => { p with mask := p.mask ||| rs.mask, data := rs.over p.data })
      else match c.freeSlot d with
        | some k =>
          .ok ((c.takeSlot d k).modVLine line fun v => { v with pend := v.pend ++ [⟨own, rs.mask, rs.over 0, false, none, some k⟩] })
        | none => .noSlot

/-! ### L1 (R121-R126, R137) -/

/-- Byte `i` of an L1 line is readable (R121). -/
def L1Line.readable (l : L1Line) (i : Nat) : Bool := l.valid.getLsbD (i / 64) || l.mask.getLsbD i

/-- Sectors that bytes `o` to `o + n - 1` lie in. -/
def sectorsOf (o n : Nat) : List Nat := (List.range 4).filter fun k => decide (k * 64 < o + n) && decide (o < k * 64 + 64)

/-- A fill of the missing sectors keeps every byte whose mask bit is 1 (R121). -/
def L1Line.fill (l : L1Line) (home : LineData) (ks : List Nat) : L1Line :=
  let need := ks.filter fun k => !(l.valid.getLsbD k)
  let data := need.foldl (fun d k => (List.range 64).foldl (fun d j =>
    let i := k * 64 + j
    if l.mask.getLsbD i then d else setLineByte d i (lineByte home i)) d) l.data
  { l with data := data, valid := need.foldl (fun v k => v ||| BitVec.ofNat 4 (2 ^ k)) l.valid }

/-- Cache ways of a core: the banks in cache mode (R131). -/
def Core.ways (c : Core) : List Nat :=
  (List.range 32).filter fun i => match c.banks[i]? with
    | some b => b.mode == .cache
    | none => false

/-- Room for a line in its set: the way it takes, and the lines kept (R137). -/
def Core.makeRoom (c : Core) (line : Nat) : Option (Nat × List L1Line) :=
  let ways := c.ways
  let set := c.l1.filter fun l => l.line % 512 == line % 512
  match ways.find? fun w => !(set.any fun l => l.way == w) with
  | some w => some (w, c.l1)
  | none =>
    match set with
    | [] => none
    | l0 :: r =>
      let v := r.foldl (fun b l => if goesBefore l.hint b.hint l.used b.used then l else b) l0
      some (v.way, c.l1.filter fun l => !(l.line == v.line && l.ctx == v.ctx && l.tag == v.tag))

/-- The L1 tag of a read: 0 for view 0 and for lines of pages with ver 0, else the view's entry, taken when free
(R125); `none` when no entry is free. -/
def Core.tagFor (c : Core) (v : ReadAs) : Option (Nat × Core) :=
  match v with
  | .latest => some (0, c)
  | v =>
    match c.vtags.find? fun kv => decide (kv.2 = v) with
    | some kv => some (kv.1, c)
    | none =>
      let live := c.vtags.filter fun kv => c.l1.any fun l => l.tag == kv.1
      match (List.range 63).find? fun i => (Tbl.find live (i + 1)).isNone with
      | some i => some (i + 1, { c with vtags := Tbl.put live (i + 1) v })
      | none => none

/-- A core's L1 line for a virtual line under a tag. -/
def L1Line.at (l : L1Line) (ctx vline tag : Nat) : Bool := l.ctx == ctx && l.line == vline && l.tag == tag

/-- The tag a read uses where the core has it already (R125). -/
def Core.tagOf (c : Core) (v : ReadAs) : Option Nat :=
  match v with
  | .latest => some 0
  | v => (c.vtags.find? fun kv => decide (kv.2 = v)).map (·.1)

/-- The L1 line that a load hits without any translation (R124): one with all its bytes readable, under its view's tag, or under tag 0
where the view is the latest or the line's page is not versioned (R125). -/
def Core.l1Find (c : Core) (ctx vline : Nat) (v : ReadAs) (o n : Nat) : Option L1Line :=
  c.l1.find? fun l => l.ctx == ctx && l.line == vline && ((List.range n).all fun i => l.readable (o + i)) &&
    (if l.tag = 0 then decide (v = .latest) || !l.ver else c.tagOf v == some l.tag)

/-- A load that hits in its core's L1, all its bytes readable (R121, R126): what it returns; the line takes its class. -/
def State.l1Hit (s : State) (gc ctx vline : Nat) (v : ReadAs) (h : Hint) (o n : Nat) : Option (State × List Byte) :=
  let c := s.core gc
  match (c.tagOf v).bind fun tag => c.l1.find? fun l => l.at ctx vline tag with
  | none => none
  | some l =>
    if (List.range n).all fun i => l.readable (o + i) then
      let tick := s.sched.tick
      let s := (s.modSched fun x => { x with tick := tick + 1 }).modCore gc fun c =>
        { c with l1 := c.l1.map fun x => if x.at ctx vline l.tag then { x with hint := h, used := tick } else x }
      some (s, (List.range n).map fun i => lineByte l.data (o + i))
    else none

/-- A load that misses in L1 (R121, R125, R137): it fills the missing sectors of its line, or brings the line in, or is
served without allocation. A line that is present is filled whatever the hint (DESIGN CHOICE, log entry 84). A word's miss of a line is
counted once, whichever of its threads miss it (R145, R380: `counted`). -/
def State.l1Fill (s : State) (counted ver : Bool) (gc ctx vline phys : Nat) (v : ReadAs) (h : Hint) (o n : Nat) (home : LineData) :
    State × List Byte :=
  let c := s.core gc
  let tick := s.sched.tick
  let direct := (List.range n).map fun i => lineByte home (o + i)
  let s := if counted then s else s.rawEvent gc 0
  match c.tagFor v with
  | none => (s, direct)
  | some (tag, c') =>
    let ks := sectorsOf o n
    let s := s.modSched fun x => { x with tick := tick + 1 }
    match c.l1.find? fun l => l.at ctx vline tag with
    | some l =>
      let l' := { l.fill home ks with hint := h, used := tick }
      (s.modCore gc fun c => { c with vtags := c'.vtags, l1 := c.l1.map fun x => if x.at ctx vline tag then l' else x },
        (List.range n).map fun i => lineByte l'.data (o + i))
    | none =>
      if h = .noAllocate then (s, direct)
      else match c'.makeRoom vline with
        | none => (s, direct)
        | some (way, kept) =>
          let l : L1Line := L1Line.fill ⟨ctx, vline, phys, ver, tag, 0, 0, 0, h, tick, way⟩ home ks
          (s.modCore gc fun c => { c with vtags := c'.vtags, l1 := kept ++ [l] }, direct)

/-- A store updates the copy of its line that carries the tag it writes (R122, R126): tag 0 sets mask bits, a
transaction's tag sets none. The line takes the store's class (R137). -/
def State.l1Store (s : State) (gc ctx vline : Nat) (v : ReadAs) (h : Hint) (rs : Runs) : State :=
  let tick := s.sched.tick
  (s.modSched fun x => { x with tick := tick + 1 }).modCore gc fun c => { c with l1 := c.l1.map fun l =>
    let mine := match v with
      | .tx _ _ => (c.vtags.find l.tag) == some v
      | _ => l.tag == 0
    if l.ctx == ctx && l.line == vline && mine then
      { l with data := rs.over l.data, hint := h, used := tick,
               mask := match v with
                 | .tx _ _ => l.mask
                 | _ => l.mask ||| rs.mask }
    else l }

/-- A far atomic or reduction clears the valid bits of the sectors it touches in the issuing core's L1 (R122); the line takes
its class (R137). -/
def State.l1Clear (s : State) (gc ctx vline : Nat) (h : Hint) (rs : Runs) : State :=
  let tick := s.sched.tick
  (s.modSched fun x => { x with tick := tick + 1 }).modCore gc fun c => { c with l1 := c.l1.map fun l =>
    if l.ctx == ctx && l.line == vline then
      { l with hint := h, used := tick,
               valid := ((rs.map fun r => sectorsOf r.1 r.2.length).flatten).foldl
                 (fun v k => v &&& ~~~(BitVec.ofNat 4 (2 ^ k))) l.valid }
    else l }

/-- Reads in flight that were translated to a frame of a die's pool go to the owner's page: the frame is given up (R83, R84). -/
def State.leaveFrame (s : State) (frame : Nat) : State :=
  { s with ops := s.ops.mapVals fun o => { o with pieces := o.pieces.map fun p =>
      if p.src ≠ p.pa ∧ p.src / 65536 = frame then { p with src := p.pa } else p } }

/-- A read that duplication applies to starts a copy of the page into the die's pool, dropping the replica created
earliest when no frame is free (R83). -/
def State.noteReplica (s : State) (die line : Nat) (dup : Bool) : State :=
  let page := line / 256
  let x := s.die die
  match x.pool with
  | none => s
  | some (base, frames) =>
    if !dup || lineDie line = die || frames = 0 || x.replicas.any (fun r => r.page == page) ||
        s.homes.collapsing.contains page then s
    else
      let kept := if x.replicas.length < frames then x.replicas else x.replicas.drop 1
      match (List.range frames).find? fun f => !(kept.any fun r => r.frame == f) with
      | some f => (s.leaveFrame ((tierBase false die + base) / 65536 + f)).modDie die fun x =>
          { x with replicas := kept ++ [⟨page, f, false, s.sched.tick⟩] }
      | none => s

end Sys2Proof.Machine
end

