-- ==== Sys2Proof/Machine/Flight.lean ====
section
/-! DEFINITION. Accesses in flight: issuing them, the order in which they may perform (R264-R266), what each does when
it performs, and lost writes (R86-R88, R107, R130, R147). -/

namespace Sys2Proof.Machine

/-! ### Issuing -/

/-- A count of R21 that stands at 255 holds the word. -/
def raiseLd (t : Nat) : M Unit := do
  if (← getT t).cnt.ld ≥ 255 then wait 0x3 .poll
  modT t fun th => { th with cnt := { th.cnt with ld := th.cnt.ld + 1 } }

/-- The store count (R21). -/
def raiseSt (t : Nat) : M Unit := do
  if (← getT t).cnt.st ≥ 255 then wait 0x3 .poll
  modT t fun th => { th with cnt := { th.cnt with st := th.cnt.st + 1 } }

/-- The engine-issue count (R21). -/
def raiseEn (t : Nat) : M Unit := do
  if (← getT t).cnt.en ≥ 255 then wait 0x3 .poll
  modT t fun th => { th with cnt := { th.cnt with en := th.cnt.en + 1 } }

/-- Lower counts. -/
def State.lowerLd (s : State) (t : Nat) : State :=
  s.modThread t fun th => { th with cnt := { th.cnt with ld := th.cnt.ld - 1 } }
/-- Lower the store count. -/
def State.lowerSt (s : State) (t : Nat) : State :=
  s.modThread t fun th => { th with cnt := { th.cnt with st := th.cnt.st - 1 } }
/-- Lower the engine-issue count. -/
def State.lowerEn (s : State) (t : Nat) : State :=
  s.modThread t fun th => { th with cnt := { th.cnt with en := th.cnt.en - 1 } }

/-- Waits until the thread's store count is 0 (R268, R274, R300). -/
def waitStores (t : Nat) : M Unit := do
  if (← getT t).cnt.st ≠ 0 then wait 0xE (.counts false true)

/-- The instance of the word that a thread's bundle is at: its bundle and the bundle's word number. -/
def State.wordKey (s : State) (t : Nat) : Nat × Nat :=
  let b := (s.thread t).bundle
  (b, ((s.bundles.find b).map (·.serial)).getD 0)

/-- The parts of a bundle's word perform in ascending thread index where the word's rule says so (R145, R158, R162):
a thread's part issues after those of the lower threads of its bundle. -/
def inTurn (t : Nat) : M Unit := do
  let s ← get
  let tig := (s.thread t).id.tig
  if (s.mates t).any fun u => decide ((s.thread u).id.tig < tig) && !(s.thread u).done then wait 0x6 .poll

/-- An access of a thread, ready to issue. -/
structure Access where
  home : Home
  view : ReadAs
  pieces : List Piece
  deriving DecidableEq, Repr

/-- Every line of the access lies on a versioned page (R72). -/
def Access.ver (a : Access) : Bool := a.pieces.all (·.ver)

/-- The operation of an access. -/
def mkOp (s : State) (t : Nat) (tb : Nat) (a : Access) (act : Act) (h : Hint) (tok : Nat) (blocking : Bool) : MemOp :=
  let th := s.thread t
  ⟨t, th.id, s.ctxOf t, tb, th.id.die, th.id.core, act, a.home, a.pieces, a.view, h, tok, false, [], none,
    th.inTrial, s.wordKey t, blocking, [], []⟩

/-- Extra beats of the access word that a thread stands at (R135): one less than the greatest number of distinct rows that its
bundle addresses within one sub-bank of one bank. -/
def State.bankExtra (s : State) (t : Nat) : Nat :=
  let os := (s.ops.filter fun kv => decide (kv.2.key = s.wordKey t) && kv.2.home == .scratch).map (·.2)
  let words : List Nat := ((os.map (·.pieces)).flatten.map fun p => (List.range ((p.pa % 4 + p.len + 3) / 4)).map (p.pa / 4 + ·)).flatten
  let cells := words.eraseDups
  let same (a b : Nat) : Bool := a % 16 == b % 16 && a / 2 ^ 15 == b / 2 ^ 15
  (cells.map fun a => cells.countP (same a)).foldl max 1 - 1

/-- Puts an operation in flight; its identifier is its token. -/
def launchOp (f : Nat → State → MemOp) : M Nat := do
  let i ← fresh
  modify fun s => { s with ops := s.ops.put i (f i s) }
  return i

/-- Whether any path to a fabric device is usable: a link that joins the two is up (R147, R392, R393). -/
def State.pathTo (s : State) (dev : Nat) : Bool :=
  s.dev.fab != 0 && s.dev.peers.contains dev && s.dev.links.any fun l => l.2.up && l.2.peer == dev

/-- The wharf carries traffic: a fabric number is assigned and a link is up (R392, R393). -/
def Device.wharfUp (d : Device) : Bool := d.fab != 0 && d.links.any fun l => l.2.up

/-- An index operand's value; any kind but I32, I64 and literals takes 0x2D (R143). -/
def Val.index (v : Val) : Option Nat :=
  if v.imm || v.kind = .i32 || v.kind = .i64 then some v.val.toNat else none

/-- An access past checks 1 to 6 of R144. -/
structure Placed where
  r : RecF
  home : Home
  view : ReadAs
  cs : List (Nat × Nat)
  first : Nat
  deriving DecidableEq, Repr

/-- The record that a thread's word reads: the words it read at its checks, once those have passed (R164). -/
def State.recBits (s : State) (t tb : Nat) : BitVec 512 :=
  (s.thread t).checked.getD ((s.ctx (s.ctxOf t)).recAt tb)

/-- Checks 1 to 6 of R144, in order: `data` runs as the rest of check 4, `L` gives the logical offset of an index,
`supports` is check 2; `linear` words need rowlen 0 and swz 0 (R162, R327, R375). The record words read are kept (R164). -/
def placeAccess (t : Nat) (tb : Rec) (ix : Val) (L : RecF → Nat → Nat) (n algn : Nat) (linear : RecF → Bool) (x : Rights)
    (supports : Home → Bool) (data : M Unit) : M Placed := do
  let b := (← get).recBits t tb.val
  let r := recF b
  let at0 := match ix.index with
    | some i => r.first (L r i)
    | none => 0
  if !linear r then faultAt 0x21 at0
  let (h, v) ← checkRecord t r x supports at0
  let i ← match ix.index with
    | some i => pure i
    | none => fault 0x2D
  data
  let cs ← checkPlace t r h (L r i) n algn
  modT t fun th => { th with checked := some b }
  return ⟨r, h, v, cs, at0⟩

/-- Parts of an access, each with its offset in the access's data. -/
def withOffs (cs : List (Nat × Nat)) : List (Nat × Nat × Nat) :=
  (cs.foldl (fun (a : List (Nat × Nat × Nat) × Nat) c => (a.1 ++ [(c.1, c.2, a.2)], a.2 + c.2)) ([], 0)).1

/-- The parts of an access as they lie, at a home that has no page tables. -/
def Placed.flat (p : Placed) : List Piece :=
  (withOffs p.cs).map fun c => ⟨p.r.base + c.1, p.r.base + c.1, p.r.base + c.1, c.2.2, c.2.1, false⟩

/-- The first word of a run of scratchpad bytes that is poisoned (R365). -/
def State.spPoison (s : State) (gc w a n : Nat) : Option Nat :=
  (wordsOf a n).find? fun wd => let q := s.spPlace gc w (wd * 4); (s.bank gc q.1).poison.contains (q.2 / 4)

/-- An access to another device: its page may be refused there, and a snapshot that it has not taken up yet may be too old
for it (R105, R147; free values, DESIGN CHOICE, log entry 13). -/
def State.askFar (s : State) (rd : Bool) (dev : Nat) (v : ReadAs) : Option Cause × State :=
  let n := s.sched.draw
  let drew (k : Nat) : State := s.modSched fun c => { c with draw := n + k }
  if Config.farRefuses n then (some 0x24, drew 1)
  else match if rd then v.stamp else none with
  | none => (none, drew 1)
  | some st =>
    if s.dev.farRegs.contains (dev, st) then (none, drew 1)
    else if Config.farStale (n + 1) then (some 0x92, drew 2)
    else (none, (drew 2).modDev fun d => { d with farRegs := (dev, st) :: d.farRegs })

/-- Snapshots that have closed are registered no longer; this is looked at whenever one opens (R105). -/
def State.pruneRegs (s : State) : State :=
  s.modDev fun d => { d with farRegs := d.farRegs.filter fun x => s.viewStamps.contains x.2 }

/-- The same within a word. -/
def askFar (rd : Bool) (dev : Nat) (v : ReadAs) : M (Option Cause) := do
  let (c, s) := (← get).askFar rd dev v
  set s
  return c

/-- A part of an access of main memory with its translation: a load that hits in its core's L1 needs none (R124); `l1` says that it may
look there (R123, R386). -/
def placePart (t : Nat) (p : Placed) (k : Xkind) (l1 : Bool) (va off n : Nat) : M (Piece × Bool) := do
  let s ← get
  let gc := (s.thread t).gcore
  match if l1 && decide (k = .read) then (s.core gc).l1Find (s.ctxOf t) (va / 256) p.view (va % 256) n else none with
  | some l => return (⟨va, l.phys * 256 + va % 256, l.phys * 256 + va % 256, off, n, !(decide (l.tag = 0)) || l.ver⟩, true)
  | none => do
    let y ← translate t va k
    if k = .read then modify fun s => s.noteReplica (s.thread t).id.die (y.pa / 256) y.dup
    return (⟨va, y.pa, y.src, off, n, y.ver⟩, false)

/-- The first byte of a run that lies beyond the 52 bits of a line address (R71, R81). -/
def Placed.beyond (p : Placed) : Option Nat :=
  (p.cs.find? fun c => decide (2 ^ 52 < p.r.base + c.1 + c.2)).map fun c => max (p.r.base + c.1) (2 ^ 52)

/-- Check 7 of R144: translation of each part, then poison (R129, R130, R365) and what another device refuses (R105,
R147), which reads and atomics take precisely; a page refused there is precise at every word (R81). -/
def placeXlat (t : Nat) (p : Placed) (k : Xkind) (l1 : Bool := false) : M Access := do
  let rd := k = .read || k = .atomic
  match p.home with
  | .main =>
    let qs ← (withOffs p.cs).mapM fun c => placePart t p k l1 (p.r.base + c.1) c.2.2 c.2.1
    let ps := qs.map (·.1)
    if rd then do
      modify fun s => ((qs.filter fun q => !q.2).map fun q => q.1.src / 256).eraseDups.foldl (fun s l => s.codeCheck (s.ctxOf t) l) s
      let s ← get
      match ps.find? fun q => s.poisoned (q.src / 256) with
      | some q => faultAt 0x29 q.va
      | none => pure ()
    return ⟨.main, p.view, ps⟩
  | .scratch =>
    let s ← get
    if rd then
      match p.cs.findSome? fun c => (s.spPoison (s.thread t).gcore (s.thread t).id.work (p.r.base + c.1) c.2).map fun wd =>
          max (wd * 4) (p.r.base + c.1) with
      | some a => faultAt 0x29 a
      | none => pure ()
    return ⟨.scratch, p.view, p.flat⟩
  | .host => return ⟨.host, p.view, p.flat⟩
  | .remote d =>
    match p.beyond with
    | some a => faultAt 0x24 a
    | none => pure ()
    if rd && !(← get).pathTo d then faultAt 0x2E p.first
    match ← askFar rd d p.view with
    | some c => faultAt c p.first
    | none => pure ()
    return ⟨.remote d, p.view, p.flat⟩

/-- Any record. -/
def anyRec (_ : RecF) : Bool := true
/-- A record with rowlen 0 and swz 0. -/
def linearRec (r : RecF) : Bool := r.rowlen == 0 && r.swz == 0
/-- Any home. -/
def anyHome (_ : Home) : Bool := true
/-- The logical offset of an index: scaled by the record's unit (R143). -/
def scaled (r : RecF) (i : Nat) : Nat := i * 2 ^ r.usz

/-- All checks of R144. -/
def resolve (t : Nat) (tb : Rec) (ix : Val) (n algn : Nat) (x : Rights) (k : Xkind) (l1 : Bool := false) : M Access := do
  placeXlat t (← placeAccess t tb ix scaled n algn anyRec x anyHome (pure ())) k l1

/-! ### Order of performing -/

/-- Whether an operation returns a value. -/
def MemOp.returns (o : MemOp) : Bool :=
  match o.act with
  | .store _ _ | .recWr _ _ | .qpush _ => false
  | .atom _ _ _ _ _ r => r
  | _ => true

/-- A load, in the sense of R87. -/
def MemOp.loads (o : MemOp) : Bool :=
  match o.act with
  | .load _ _ _ _ _ | .iload _ | .lcload | .ctxLoad => true
  | _ => false

/-- Two parts lie on one 256-byte line, virtually or physically (R265). -/
def sameLine (a b : MemOp) : Bool :=
  a.home == b.home && a.pieces.any fun p => b.pieces.any fun q =>
    p.va / 256 == q.va / 256 || (a.home == .main && p.pa != 0 && p.pa / 256 == q.pa / 256)

/-- An earlier operation that must perform first: of the same thread on the same line (R265), to the scratchpad in program
order (R266), to the host in the device's one order (R148, R273), on the same record (R164), or of the same word on the same
line (R145, R158). -/
def State.blockedBy (s : State) (i : Nat) (o : MemOp) : Bool :=
  s.ops.any fun kv => decide (kv.1 < i) && !kv.2.performed &&
    ((kv.2.tid == o.tid && (sameLine kv.2 o || (kv.2.home == .scratch && o.home == .scratch) ||
        (kv.2.pieces.isEmpty && o.pieces.isEmpty && kv.2.tb == o.tb))) ||
      (kv.2.home == .host && o.home == .host) || (kv.2.key == o.key && sameLine kv.2 o))

/-- A load of a line that has a side-log entry of its own core waits for it (R87). -/
def State.sideBlocked (s : State) (i : Nat) (o : MemOp) : Bool :=
  o.home == .main && o.loads && (s.core (o.die * 64 + o.core)).side.any fun e =>
    e.ctx == o.ctx && (e.ops.any fun k => decide (k < i)) && o.pieces.any fun p => p.va / 256 == e.line

/-- The operation stands in a side log, or in the part of one that a save area holds (R90). -/
def State.inSide (s : State) (i : Nat) : Bool :=
  (s.cores.any fun kv => kv.2.side.any fun e => e.ops.contains i) ||
    s.works.any fun kv => kv.2.side.any fun e => e.ops.contains i

/-- A thread that is still to pass checks 1 to 6 of the word its bundle is at. -/
def Thread.unchecked (th : Thread) : Bool :=
  th.pos.g && !th.done && !th.part && decide (th.stage < 2) && th.checked.isNone

/-- Checks 1 to 6 of the other threads of the operation's word have not all completed (R144). -/
def State.matesCheck (s : State) (o : MemOp) : Bool :=
  o.tid != 0 && match s.bundles.find o.key.1 with
    | none => false
    | some b => b.serial == o.key.2 && (s.gangOf o.key.1).any fun nb => nb.2.tids.any fun u => (s.thread u).unchecked

/-! ### Effects -/

/-- The new memory value of an atomic (R158): width `w` bytes, kind of the data operand. -/
def atomResult (op : AtomOp) (w : Nat) (kind : Kind) (m v cmp : Nat) : Nat :=
  let b := 8 * w
  let sg (x : Nat) : Int := Num.signedOf b x
  match op with
  | .add => if kind = .f32 then Num.encodeF Num.f32 .rn (Num.add .rn (Num.decodeF Num.f32 m) (Num.decodeF Num.f32 v))
            else if kind = .f64 then Num.encodeF Num.f64 .rn (Num.add .rn (Num.decodeF Num.f64 m) (Num.decodeF Num.f64 v))
            else (m + v) % 2 ^ b
  | .min => if sg v < sg m then v else m
  | .minUn => min m v
  | .max => if sg m < sg v then v else m
  | .maxUn => max m v
  | .and => m &&& v
  | .or => m ||| v
  | .xor => m ^^^ v
  | .xchg => v
  | .cas => if m = cmp then v else m

/-- A result entry of a load: `size` bytes, sign- or zero-extended to 32 bits, or 8 bytes as they are (R152, R153). -/
def loadValue (size : Nat) (sx : Bool) (bs : List Byte) : Word64 :=
  let v := leVal bs
  if sx then BitVec.ofNat 64 (Num.wrapInt 32 (Num.signedOf (8 * size) v)) else BitVec.ofNat 64 v

/-- The entries of a load's bytes. -/
def loadEntries (size count : Nat) (sx : Bool) (kind : Kind) (bs : List Byte) : List (Word64 × Kind) :=
  (List.range count).map fun j => (loadValue size sx ((bs.drop (j * size)).take size), kind)

/-- Legal interval bounds of a memory image (R64, R156). -/
def ivLegal (wide : Bool) (lo hi : Nat) : Bool :=
  let f := if wide then Num.f64 else Num.f32
  Num.legal (Num.decodeF f lo) (Num.decodeF f hi)

/-- A free byte of another device's memory (R147; DESIGN CHOICE, log entry 13). -/
def State.remoteBytes (s : State) (n : Nat) : State × List Byte :=
  (s.modSched fun c => { c with draw := c.draw + n }, (List.range n).map fun i => Config.remoteByte (s.sched.draw + i))

/-- Held writes of a team in replay mode stand over what it reads (R386). -/
def overlay (held : List (Nat × Byte)) (pa : Nat) (bs : List Byte) : List Byte :=
  bs.zipIdx.map fun bi => match held.find? fun h => h.1 == pa + bi.2 with
    | some h => h.2
    | none => bi.1

/-- A team in replay mode reads its interval's snapshot where it would read the latest (R386). -/
def Replay.viewOf (r : Option Replay) (v : ReadAs) : ReadAs :=
  match r, v with
  | some r, .latest => match r.checks with
    | c :: _ => .snap c.snap
    | [] => .latest
  | _, v => v

/-- The header of a slot (R93). Of the versions that lie in the version store, `older` names the next (DESIGN CHOICE, log
entry 67); the owner's number is the thread's, or context and record. -/
def slotHeader (line stamp older state : Nat) (o : Owner) : Nat :=
  let num := match o with
    | .tx t => t
    | .pub ctx tb => ctx * 256 + tb
    | .plain => 0
    | .rpl w => w
  let origin := match o with
    | .tx _ => 1
    | .pub _ _ => 2
    | _ => 0
  field stamp 192 64 + field older 160 32 + field num 128 32 + field (line * 256) 64 64 + field state 2 2 + origin

/-- Data and header of a slot that an older version of a line lies in, among its versions from the newest on. -/
def olderSlot (line k : Nat) : List Older → Option (LineData × Nat)
  | [] => none
  | o :: r =>
    if o.slot = some k then
      some (o.data, slotHeader line o.stamp ((r.findSome? (·.slot)).getD 0xFFFFFFFF) 2 o.owner)
    else olderSlot line k r

/-- Data and header of a slot that a version of a line lies in (R93). -/
def VLine.inSlot (v : VLine) (line k : Nat) : Option (LineData × Nat) :=
  match v.pend.find? fun p => p.slot == some k with
  | some p => some (p.data, slotHeader line (p.stamp.getD 0) ((v.older.findSome? (·.slot)).getD 0xFFFFFFFF)
      (if p.stamp.isSome then 1 else 0) p.owner)
  | none => olderSlot line k v.older

/-- What the host reads at a byte of a die's slot area, `o` bytes into slot `k`, `b` lying in memory there (R93). A free
slot's header has state 11. -/
def State.slotByte (s : State) (d k o : Nat) (b : Byte) : Byte :=
  match (s.homes.vlines.filter fun lv => lineDie lv.1 == d).findSome? fun lv => lv.2.inSlot lv.1 k with
  | some (data, h) => if o < 256 then lineByte data o else BitVec.ofNat 8 (h / 2 ^ (8 * (o - 256)))
  | none =>
    if o < 256 then b
    else if o = 256 then BitVec.ofNat 8 (12 + b.toNat % 4)
    else if o < 264 ∨ 280 ≤ o then 0
    else b

/-- Bytes of main memory as the host reads them: the slots of version stores as R93 lays them out. -/
def State.hostSees (s : State) (pa : Nat) (bs : List Byte) : List Byte :=
  bs.zipIdx.map fun bi =>
    let a := pa + bi.2
    match (List.range 4).findSome? fun d => (s.die d).store.bind fun v =>
        let b := tierBase false d + v.base
        if b ≤ a ∧ a < b + 288 * v.slots then some (d, a - b) else none with
    | some (d, o) => s.slotByte d (o / 288) (o % 288) bi.1
    | none => bi.1

/-- The word of an operation has requested a line already (R145). -/
def State.askedFor (s : State) (o : MemOp) (vline : Nat) : Bool := s.ops.any fun kv => kv.2.key == o.key && kv.2.asked.contains vline

/-- An operation's word has requested a line: once, whichever of its threads did (R145). -/
def State.ask (s : State) (o : MemOp) (vline : Nat) : State :=
  { s with ops := s.ops.mapVals fun x => if x.key = o.key then { x with asked := vline :: x.asked } else x }

/-- The replay mode that an operation's reads and writes of memory go by; an insertion into a signature table is made at its home whatever
the mode, but for one that is executed again (R162, R324, R387; DEDUCED, log entry 105). -/
def State.replayOf (s : State) (o : MemOp) : Option Replay :=
  match (s.work o.who.work).rpl, o.act with
  | some r, .sigin _ _ => if r.stop.isSome then some r else none
  | r, _ => r

/-- Reads a part of main memory when it performs; `none` while it must hold (R83, R98, R99, R121). -/
def State.readPiece (s : State) (o : MemOp) (l1 : Bool) (p : Piece) : Option (State × List Byte) :=
  let gc := o.die * 64 + o.core
  let rpl := (s.work o.who.work).rpl
  let view := if p.ver then Replay.viewOf (s.replayOf o) o.view else .latest
  let off := p.src % 256
  let line := p.src / 256
  let vline := p.va / 256
  match if l1 && rpl.isNone then s.l1Hit gc o.ctx vline view o.hint off p.len else none with
  | some r => some r
  | none =>
    if o.tid = 0 && !s.isMem p.pa then some (s, List.replicate p.len 0xFF)
    else if !s.lineAwake line then none
    else match (if p.ver then s.homeLine line view else some (memLine s.homes.mem line)) with
    | none => none
    | some home =>
      let bs := (List.range p.len).map fun i => lineByte home (off + i)
      if o.tid = 0 then some (s, if o.tb = 0 then s.hostSees p.pa bs else bs)
      else
        let s := s.l2Read o.die line p.ver o.hint
        match rpl with
        | some r => some (s, if p.ver && decide (o.view ≠ .latest) then bs else overlay r.held p.pa bs)
        | none =>
          if l1 then
            let a := s.l1Fill (s.askedFor o vline) p.ver gc o.ctx vline (p.pa / 256) view o.hint off p.len home
            some (a.1.ask o vline, a.2)
          else some (s, bs)

/-- Reads parts in order. -/
def State.readEach (s : State) (o : MemOp) (l1 : Bool) : List Piece → Option (State × List Byte)
  | [] => some (s, [])
  | p :: r => (s.readPiece o l1 p).bind fun a => (a.1.readEach o l1 r).map fun b => (b.1, a.2 ++ b.2)

/-- The bytes a read operation returns when it performs; `none` while it must hold (R98, R99, R121, R155). -/
def State.readPieces (s : State) (o : MemOp) (l1 : Bool) : Option (State × List Byte) :=
  match o.home with
  | .scratch => some (s, (o.pieces.map fun p => s.spRead (o.die * 64 + o.core) o.who.work p.va p.len).flatten)
  | .host =>
    let held := ((s.work o.who.work).rpl.map (·.heldHost)).getD []
    some (s, (o.pieces.map fun p => overlay held p.va (s.homes.host.readN p.va p.len)).flatten)
  | .remote _ => some (s.remoteBytes ((o.pieces.map (·.len)).sum))
  | .main => s.readEach o l1 o.pieces

/-- An access that performs at its home slice, and leaves no copy of its line elsewhere (R119, R158). -/
def MemOp.atHome (o : MemOp) : MemOp :=
  if o.home = .main then { o with die := lineDie (((o.pieces.head?).map (·.pa)).getD 0 / 256) } else o

/-- A store of an open transaction, whose pending versions are the transaction's (R101). -/
def MemOp.transactional (o : MemOp) : Bool :=
  match o.view with
  | .tx _ _ => true
  | _ => false

/-- What an attempt to write came to: the parts that are left, the revocations they wait for, the parts that found no version
slot, and the lines whose write is lost, each with its cause. -/
structure Written where
  s : State
  left : List Piece
  revs : List (Nat × Nat)
  starved : List Piece
  lost : List (Nat × Cause)

/-- The parts of an operation by virtual line (R145). -/
def byLine (ps : List Piece) : List (Nat × List Piece) :=
  (ps.map fun p => p.va / 256).eraseDups.map fun l => (l, ps.filter fun p => p.va / 256 == l)

/-- Bytes of one part of a write. -/
def Piece.bytes (p : Piece) (bs : List Byte) : List Byte := (bs.drop p.off).take p.len

/-- Parts of a write within one line, as runs. -/
def runsOf (ps : List Piece) (bs : List Byte) : Runs := ps.map fun q => (q.va % 256, q.bytes bs)

/-- The bytes that a store writes. -/
def MemOp.bytes (o : MemOp) : List Byte :=
  match o.act with
  | .store bs _ => bs
  | _ => []

/-- Stores of the same word, of later threads, that have parts on a line of main memory: one request covers them all (R145). -/
def State.fellows (s : State) (o : MemOp) (vline : Nat) : List (Nat × MemOp) :=
  s.ops.filter fun kv => o.tid != 0 && kv.2.tid != o.tid && kv.2.key == o.key && kv.2.home == .main && !kv.2.performed &&
    kv.2.writes && !kv.2.returns && kv.2.tb == o.tb && decide (kv.2.view = o.view) && !kv.2.bytes.isEmpty && !o.bytes.isEmpty &&
    kv.2.pieces.any fun p => p.va / 256 == vline

/-- The parts of other stores that one request has covered have performed with it. -/
def State.covered (s : State) (ks : List Nat) (vline : Nat) : State :=
  { s with ops := s.ops.map fun kv => if ks.contains kv.1 then
      let left := kv.2.pieces.filter fun p => p.va / 256 != vline
      (kv.1, { kv.2 with pieces := left, revs := [], performed := left.isEmpty })
    else kv }

/-- Writes the parts of one line at its home slice, and in the core's L1, with the parts of the other threads of the word (R101, R118,
R122, R145). `own` is the owning core. -/
def State.writeLine (s : State) (o : MemOp) (bs : List Byte) (own : Option Nat) (vline : Nat) (ps : List Piece) : WriteRes :=
  match ps with
  | [] => .ok s
  | p :: _ =>
    let gc := o.die * 64 + o.core
    let line := p.pa / 256
    let more := s.fellows o vline
    let rs : Runs := runsOf ps bs ++ (more.map fun kv => runsOf (kv.2.pieces.filter fun q => q.va / 256 == vline) kv.2.bytes).flatten
    let tag := if p.ver then o.view else .latest
    let r := match tag with
      | .tx st t => s.txWrite o.ctx o.hint t st line rs gc
      | _ => s.homeWrite o.ctx o.hint p.ver line rs own
    match r with
    | .ok s =>
      let s := if o.tid = 0 then s
        else if own.isSome then s.l1Store gc o.ctx vline tag o.hint rs
        else s.l1Clear gc o.ctx vline o.hint rs
      .ok ((s.covered (more.map (·.1)) vline).l2Settle line)
    | r => r

/-- Writes to main memory, line by line: each line performs on its own (R95, R118). -/
def State.writeMain (s : State) (o : MemOp) (bs : List Byte) (own : Option Nat) : Written :=
  (byLine o.pieces).foldl (fun w lp =>
    match w.s.writeLine o bs own lp.1 lp.2 with
    | .ok s => { w with s := s }
    | .hold s revs => { w with s := s, left := w.left ++ lp.2, revs := w.revs ++ revs }
    | .noSlot => { w with left := w.left ++ lp.2, starved := w.starved ++ lp.2 }
    | .poisoned s => { w with s := s, lost := w.lost ++ [(lp.1 * 256, 0x29)] }) ⟨s, [], [], [], []⟩

/-- Adds cells to held ones, in place of those at the same addresses. -/
def holdCells (cells held : List (Nat × Byte)) : List (Nat × Byte) := cells ++ held.filter fun h => !(cells.any fun c => c.1 == h.1)

/-- The cells that the parts of a write put at their places. -/
def cellsOf (ps : List Piece) (bs : List Byte) : List (Nat × Byte) :=
  (ps.map fun p => (p.bytes bs).zipIdx.map fun bi => (p.pa + bi.2, bi.1)).flatten

/-- The team's writes are held until its interval ends (R386). -/
def State.holdMain (s : State) (o : MemOp) (bs : List Byte) : Written :=
  match o.pieces.find? fun p => s.poisoned (p.pa / 256) && decide (((byLine o.pieces).map fun l => (l.2.map (·.len)).sum).foldl max 0 < 256) with
  | some p => ⟨s, [], [], [], [(p.va / 256 * 256, 0x29)]⟩
  | none =>
    let s := (o.pieces.filter (·.ver)).foldl (fun s p => s.markHeads (p.pa / 256)) s
    ⟨s.modWork o.who.work fun x => { x with rpl := x.rpl.map fun r => { r with held := holdCells (cellsOf o.pieces bs) r.held } },
      [], [], [], []⟩

/-- Writes an operation's parts at their homes, as far as they can perform. -/
def State.writePieces (s : State) (o : MemOp) (bs : List Byte) (own : Option Nat) : Written :=
  let replays := (s.replayOf o).isSome
  match o.home with
  | .scratch => ⟨o.pieces.foldl (fun s p => s.spWrite (o.die * 64 + o.core) o.who.work p.va (p.bytes bs)) s, [], [], [], []⟩
  | .host =>
    ⟨if replays then s.modWork o.who.work fun x =>
        { x with rpl := x.rpl.map fun r => { r with heldHost := holdCells (cellsOf o.pieces bs) r.heldHost } }
      else s.modHomes fun h => { h with host := o.pieces.foldl (fun m p => m.writeN p.va (p.bytes bs)) h.host }, [], [], [], []⟩
  | .remote _ => ⟨s, [], [], [], []⟩
  | .main => if replays && !(o.transactional && o.pieces.all (·.ver)) then s.holdMain o bs else s.writeMain o bs own

/-- A line of a write that does not perform is lost: a record of kind 3 names it, and the thread takes the cause at its next
release point (R88, R107, R130, R147, R364). A write of no thread is one that reached the device from outside: the host's,
for want of a slot, is told to the host (R389). -/
def State.loseLine (s : State) (o : MemOp) (line : Nat) (c : Cause) : State :=
  let v : Word64 := BitVec.ofNat 64 line
  let rec0 := s.identRec o.who 3 c v
  if o.tid = 0 then (if c = 0x91 && o.tb = 0 then s.postX { rec0 with die := o.die, kind := 2 } else s)
  else
    (s.postQ o.ctx { rec0 with ctx := o.ctx, die := o.die, core := o.core }).modThread o.tid fun th =>
      { th with deferred := th.deferred ++ [(c, v)] }

/-- Result of an attempt to perform: it has performed, it waits, part of a write is left or lost, or its word takes a cause
with a value for sr.trap.val. -/
inductive Perf where
  | done (s : State) (out : List (Word64 × Kind))
  | part (w : Written)
  | hold
  | trap (s : State) (c : Cause) (v : Nat)

/-- Everything that was to be written has performed. -/
def Written.whole (w : Written) : Bool := w.left.isEmpty && w.lost.isEmpty

/-- A write's result as an attempt's. -/
def Written.perf (w : Written) (out : List (Word64 × Kind)) : Perf := if w.whole then .done w.s out else .part w

/-- The tag-and-residue byte of entry `i` of a thread image (R201, R375). -/
def imageTag (ws : List Word64) (i : Nat) : Nat := (ws.getD (51 + i / 8) 0).toNat / 2 ^ (8 * (i % 8)) % 256

/-- Why ctx.load refuses an image for a group of named count `n`: a mismatch of R375. What an entry's bits are worth as its kind's value
is not looked at (DESIGN CHOICE, log entry 104). -/
def imageCause (n : Nat) (ws : List Word64) : Option Cause :=
  let w (i : Nat) : Nat := (ws.getD i 0).toNat
  if w 1 / 2 ^ 58 ≠ n ∨ w 0 / 2 ^ 52 ≠ 0 ∨ w 0 % 4 ≠ 0 ∨ (List.range 48).any fun i => decide (64 ≤ imageTag ws i) then some 0xA3
  else none

/-- Entries of an image whose residue does not match (R206, R375). -/
def imageBad (ws : List Word64) : List Nat :=
  (List.range 48).filter fun i => imageTag ws i % 8 != 0 && imageTag ws i / 8 != (residue (ws.getD (3 + i) 0)).toNat

/-- An image with the residue of one entry made good. -/
def mendTag (ws : List Word64) (i : Nat) : List Word64 :=
  let good := imageTag ws i % 8 + 8 * (residue (ws.getD (3 + i) 0)).toNat
  let w := ws.getD (51 + i / 8) 0
  ws.set (51 + i / 8) ((w &&& ~~~(0xFF#64 <<< (8 * (i % 8)))) ||| (BitVec.ofNat 64 good <<< (8 * (i % 8))))

/-- Each entry that does not match is read once more; the retries that match, up to the first that does not (R207; log entry 90). -/
def retries (draw : Nat) : List Nat → List Nat
  | [] => []
  | i :: r => if Config.retryMatches draw then i :: retries (draw + 1) r else []

/-- The slots of a signature table in probing order: the first that holds the signature or is empty, with whether it is
empty; outer `none` while a slot cannot be read (R162). -/
def State.sigProbe (s : State) (o : MemOp) (h0 h1 : Nat) : List Piece → Option (State × Option (Piece × Bool))
  | [] => some (s, none)
  | p :: r =>
    match s.readPiece { o with view := .latest } false p with
    | none => none
    | some (s, bs) =>
      let a := leVal (bs.take 8)
      let b := leVal (bs.drop 8)
      if a = h0 ∧ b = h1 then some (s, some (p, false))
      else if a = 0 ∧ b = 0 then some (s, some (p, true))
      else s.sigProbe o h0 h1 r

/-- The first part of a read whose word still holds that must take a cause: its path is gone (R147), or its line has been
poisoned (R130). -/
def State.readCause (s : State) (o : MemOp) : Option (Cause × Nat) :=
  match o.home with
  | .remote d => if s.pathTo d then none else some (0x2E, ((o.pieces.head?).map (·.va)).getD 0)
  | .main => if o.blocking then (o.pieces.find? fun p => s.poisoned (p.src / 256)).map fun p => (0x29, p.va) else none
  | _ => none

/-- Performs a read: its bytes are bound. -/
def State.performRead (s : State) (o : MemOp) (l1 : Bool) (f : State → List Byte → Perf) : Perf :=
  match s.readCause o with
  | some (c, v) => .trap s c v
  | none => match s.readPieces o l1 with
    | none => .hold
    | some (s, bs) => f s bs

/-- A free value that another device returns (R147; DESIGN CHOICE, log entry 13). -/
def State.farWord (s : State) : Word64 × State := (Config.remoteWord s.sched.draw, s.modSched fun c => { c with draw := c.draw + 1 })

/-- A transaction that writes a line of another device (R96). -/
def State.noteFar (s : State) (o : MemOp) : State :=
  match o.view with
  | .tx st _ => s.modThread o.tid fun th =>
      { th with view := th.view.map fun v => { v with far := v.far || (v.tx && v.stamp == st) } }
  | _ => s

/-- Another device's home slice may find that a transactional store dooms its transaction (R101; a free value, DESIGN CHOICE, log entry
13). -/
def State.farDoomed (s : State) (o : MemOp) : State :=
  match o.view with
  | .tx _ t =>
    let r := Config.farDoom s.sched.draw
    let s := s.modSched fun c => { c with draw := c.draw + 1 }
    if 1 ≤ r ∧ r ≤ 4 then s.doom t r else s
  | _ => s

/-- An access from outside meets its lines as they stand when it performs: versioned once their pages have heads (R389). -/
def State.atHeads (s : State) (o : MemOp) : MemOp :=
  if o.tid = 0 ∧ o.tb ≠ 257 then { o with pieces := o.pieces.map fun p => { p with ver := s.homes.heads.contains (p.pa / 65536) } } else o

/-- An access to another device whose path is gone is lost (R147). -/
def State.farLost (s : State) (o : MemOp) : Perf :=
  .part ⟨s, [], [], [], [(((o.pieces.head?).map (·.va)).getD 0 / 256 * 256, 0x2E)]⟩

/-- Lines taken from the poisoned ones while an atomic performs whose word met no poison (DEDUCED, log entry 40). -/
def State.unpoison (s : State) (ls : List Nat) : State := s.modHomes fun h => { h with poison := h.poison.filter fun l => !ls.contains l }

/-- The lines are poisoned again. -/
def State.repoison (s : State) (ls : List Nat) : State := s.modHomes fun h => ls.foldl Homes.poisonOne h

/-- What a team in replay mode holds for a slot that an insertion has just filled is dropped (R324, R386). -/
def State.dropHeld (s : State) (w : Nat) (p : Piece) : State :=
  s.modWork w fun x => { x with rpl := x.rpl.map fun r => { r with held := r.held.filter fun h => !(p.pa ≤ h.1 && h.1 < p.pa + p.len) } }

/-- Performs an operation: a load binds its value, a write takes effect at its home (R264). -/
def State.perform (s : State) (o : MemOp) : Perf :=
  let o := s.atHeads o
  let gc := o.die * 64 + o.core
  match o.act with
  | .load size count sx kind acq => s.performRead o (!acq) fun s bs => .done s (loadEntries size count sx kind bs)
  | .iload wide => s.performRead o true fun s bs =>
      let n := if wide then 8 else 4
      let lo := leVal (bs.take n)
      let hi := leVal (bs.drop n)
      if !ivLegal wide lo hi then .trap s 0x41 0
      else .done s (if wide then [(BitVec.ofNat 64 lo, .iv64), (BitVec.ofNat 64 hi, .iv64)]
        else [(BitVec.ofNat 64 (leVal bs), .iv32)])
  | .store bs _ =>
    match o.home with
    | .remote d => if s.pathTo d then .done ((s.noteFar o).farDoomed o) [] else s.farLost o
    | _ => (s.writePieces o bs (if o.tid = 0 then none else some gc)).perf []
  | .atom op w' kind v cmp ret =>
    match o.home with
    | .remote d =>
      if !s.pathTo d then s.farLost o
      else
        let (x, s) := s.farWord
        .done s (if ret then [(BitVec.ofNat 64 (x.toNat % 2 ^ (8 * w')), kind)] else [])
    | _ =>
      let o := { o with view := .latest }
      let bad := if ret then (o.pieces.map fun p => p.pa / 256).filter s.poisoned else []
      let s := s.unpoison bad
      match s.readPieces o.atHome false with
      | none => .hold
      | some (s', bs) =>
        let m := leVal bs
        let new := leBytes w' (atomResult op w' kind m v cmp)
        let out := if ret then [(BitVec.ofNat 64 m, kind)] else []
        let a := s'.writePieces o new none
        let b := if a.whole then a else s.writePieces o new none
        { b with s := b.s.repoison bad }.perf out
  | .sigin h0 h1 =>
    match o.home with
    | .remote d =>
      if !s.pathTo d then .trap s 0x2E (((o.pieces.head?).map (·.va)).getD 0)
      else
        let (x, s) := s.farWord
        .done s [(BitVec.ofNat 64 (x.toNat % 2), .i32)]
    | _ =>
      -- pieces list the 16-byte slots that may be probed, in slot order from h0 on (R162)
      match s.readCause o with
      | some (c, v) => .trap s c v
      | none => match s.sigProbe o.atHome h0.toNat h1.toNat o.pieces with
        | none => .hold
        | some (s', none) => .trap s' 0x2B (((o.pieces.head?).map (·.va)).getD 0)
        | some (s', some (p, true)) =>
          let one := { o with view := .latest, pieces := [{ p with off := 0 }] }
          let new := leBytes 8 h0.toNat ++ leBytes 8 h1.toNat
          let a := s'.writePieces one new none
          let b := s.writePieces one new none
          let free (s : State) : State := if (s.replayOf o).isSome then s else s.dropHeld o.who.work p
          if a.whole then .done (free a.s) [(1, .i32)]
          else if b.whole then .done (free b.s) [(1, .i32)]
          else .part { b with left := o.pieces }
        | some (s', some (_, false)) => .done s' [(0, .i32)]
  | .lcload => s.performRead o true fun s bs =>
      let id := (s.thread o.tid).id
      let s := s.modCore gc fun c => { c with windows := c.windows.put (id.lane * 8 + id.slot) bs }
      .done s [(BitVec.ofNat 64 (leVal (bs.take 8)), .i64)]
  | .recRd j c =>
    let r := (s.ctx o.ctx).recAt o.tb
    .done s ((List.range c).map fun i => (r.extractLsb' (64 * (j + i)) 64, .i64))
  | .recWr j vals =>
    let r := (s.ctx o.ctx).recAt o.tb
    let r' := vals.zipIdx.foldl (fun (r : BitVec 512) vi =>
      (r &&& ~~~(BitVec.ofNat 512 ((2 ^ 64 - 1) <<< (64 * (j + vi.2))))) |||
        BitVec.ofNat 512 (vi.1.toNat <<< (64 * (j + vi.2)))) r
    .done (s.modCtx o.ctx fun c => { c with recs := c.recs.put o.tb r' }) []
  | .qpush _ => .done s []
  | .qpop vals _ => .done s (vals.map fun v => (v, .i64))
  | .ctxLoad => s.performRead o true fun s bs =>
      let ws : List Word64 := (List.range 64).map fun i => BitVec.ofNat 64 (leVal ((bs.drop (8 * i)).take 8))
      match imageCause (s.groupOf o.tid).n ws with
      | some c => .trap s c 0
      | none =>
        let bad := imageBad ws
        let good := retries s.sched.draw bad
        let s := (s.modSched fun x => { x with draw := x.draw + min bad.length (good.length + 1) }).mismatches gc good.length 0
        if good.length = bad.length then .done s ((good.foldl mendTag ws).map fun v => (v, .i64)) else .trap s 0x42 0

/-! ### After an attempt -/

/-- Records that an operation has performed. -/
def State.setPerformed (s : State) (i : Nat) (out : List (Word64 × Kind)) : State :=
  { s with ops := s.ops.upd i fun o => { o with performed := true, pieces := [], revs := [], out := out } }

/-- An operation is gone, and the count that it held falls (R21). -/
def State.dropOp (s : State) (i : Nat) (o : MemOp) : State :=
  let s := { s with ops := s.ops.drop i }
  if o.returns then s.lowerLd o.tid else s.lowerSt o.tid

/-- A word that holds for its access takes a cause of it (R82, R107, R130, R147, R156, R162, R320). -/
def State.trapOp (s : State) (i : Nat) (o : MemOp) (c : Cause) (v : Nat) : State :=
  let s := s.dropOp i o
  if (s.threads.find o.tid).isNone then s else s.fail o.tid c (BitVec.ofNat 64 v)

/-- A write that finds no slot begins its window (R107); in trial mode there is none. -/
def State.startWindow (s : State) (i : Nat) (o : MemOp) (starved : List Piece) : State :=
  let line := ((starved.head?.map (·.pa)).getD 0) / 256
  let w := match (s.die (lineDie line)).store with
    | some v => v.window
    | none => 0
  if o.trial || o.window.isSome || starved.isEmpty then s
  else { s with ops := s.ops.upd i fun x => { x with window := some ((s.die o.die).mer + w) } }

/-- A far atomic that is lost returns no value the spec states: a free value (DESIGN CHOICE, log entry 16). -/
def State.loseAtom (s : State) (i : Nat) (o : MemOp) (line : Nat) (c : Cause) : State :=
  let kind := match o.act with
    | .atom _ _ k _ _ _ => k
    | _ => .i64
  let n := s.sched.draw
  let s := s.modSched fun x => { x with draw := n + 1 }
  ((s.loseLine o line c).dropOp i o).modThread o.tid fun th => th.land i [(Config.openValue n, kind)] []

/-- What is left of a write after an attempt. Each lost line is reported by itself (R88, R107); a word that holds for its
write takes the cause. -/
def Written.settle (w : Written) (i : Nat) (o : MemOp) : State :=
  match w.lost with
  | (line, c) :: _ =>
    if o.blocking then w.s.trapOp i o c line
    else if o.returns then w.s.loseAtom i o line c
    else
      let s := w.lost.foldl (fun s x => s.loseLine o x.1 x.2) w.s
      if w.left.isEmpty then s.setPerformed i []
      else ({ s with ops := s.ops.upd i fun x => { x with pieces := w.left, revs := w.revs } }).startWindow i o w.starved
  | [] =>
    if w.left.isEmpty then w.s.setPerformed i []
    else ({ w.s with ops := w.s.ops.upd i fun x => { x with pieces := w.left, revs := w.revs } }).startWindow i o w.starved

/-- The outcome of an attempt to perform. -/
def State.afterTry (s : State) (i : Nat) (o : MemOp) (r : Perf) : State :=
  match r with
  | .done s out => s.setPerformed i out
  | .part w => w.settle i o
  | .hold => s
  | .trap s c v => s.trapOp i o c v

/-- The home acknowledges a write that has performed (R21, R120). -/
def State.ackOp (s : State) (i : Nat) : State :=
  match s.ops.find i with
  | none => s
  | some o => if o.performed && !o.blocking then ({ s with ops := s.ops.drop i }).lowerSt o.tid else s

end Sys2Proof.Machine
end

