-- ==== Sys2Proof/Machine/MemWords.lean ====
section
/-! DEFINITION. The memory words but for the version words (R151-R165, R282-R285, R327). -/

namespace Sys2Proof.Machine

/-- Rights of R142. -/
def rdRights : Rights := ⟨true, false, false, false⟩
/-- Rights of a store. -/
def wrRights : Rights := ⟨false, true, false, false⟩
/-- Rights of an atomic or sigin. -/
def atRights : Rights := ⟨true, true, true, false⟩
/-- Rights of a reduction. -/
def redRights : Rights := ⟨false, true, true, false⟩

/-- The shell of a word whose data field is a source (R151). -/
def shMs (tb : Rec) (d x : Src) : Shell := shM tb [d, x]

/-- The record a word names (R164). -/
def recOf (t : Nat) (tb : Rec) : M RecF := do return recF ((← get).recBits t tb.val)

/-- The operation that this thread's word has in flight or has had performed. -/
def pendingOp (t : Nat) : M (Option (Nat × MemOp)) := do
  let s ← get
  let i := (s.thread t).stage - 2
  return if (s.thread t).stage < 2 then none else (s.ops.find i).map fun o => (i, o)

/-- The leaf a reader of a home waits under (R377). -/
def Home.leaf : Home → BitVec 4
  | .main => 0x6 | .scratch => 0x5 | _ => 0x7

/-- A word that waits for its own operation: it is put in flight once, and the word goes on with its results when it
has performed. -/
def awaitOp (t : Nat) (start : M Nat) : M (List (Word64 × Kind)) := do
  match ← pendingOp t with
  | none =>
    let i ← start
    modT t fun th => { th with stage := i + 2 }
    wait 0x6 (.token [i])
  | some (i, o) =>
    if o.performed then do
      modify fun s => { s with ops := s.ops.drop i }
      return o.out
    else wait o.home.leaf (.token [i])

/-- A write of this thread's word waits until it has performed, where the word holds for it: in trial mode, where no cause of a
store comes after its word (R107, R320). -/
def storeDone (t : Nat) : M Unit := do
  match ← pendingOp t with
  | some (i, o) =>
    if o.performed then modify fun s => { s with ops := s.ops.drop i }.lowerSt t
    else wait 0x6 (.token [i])
  | none => pure ()

/-- The cost of an access word, with the extra beats that its bundle's accesses to the scratchpad take (R135). -/
def bankCost (t : Nat) : M (Cost × Bool) := do return (⟨1, (← get).bankExtra t⟩, false)

/-- A load of this thread may be served by its core's L1: outside replay mode, where the team reads its snapshot (R121, R386). -/
def byL1 (t : Nat) : M Bool := do
  let s ← get
  return (s.work (s.thread t).id.work).rpl.isNone

/-- The load count falls when the data is written (R21). -/
def landed (t : Nat) (d : Dst) (vs : List (Word64 × Kind)) : M Unit := do
  writeVals t d vs 0
  modify fun s => s.lowerLd t

/-! ### Loads (R152, R153, R155, R156) -/

/-- Kind of a load's entries (R152). -/
def loadKind (size : Nat) (fmt : BitVec 4) : Kind :=
  if size = 4 then (if fmt = 0xC then .f32 else .i32)
  else if size = 8 then (if fmt = 0xD then .f64 else .i64)
  else .i32

/-- A plain load (R153). Loads from host or remote homes hold their word until the data has returned, so that 0x2E
stays precise (R147). -/
def loadWord (h : Hint) (d : Dst) (tb : Rec) (x : Src) (size count : Nat) (sx : Bool) (t : Nat) : M (Cost × Bool) := do
  let n := size * count
  if (← getT t).stage ≥ 2 then do
    landed t d (← awaitOp t (pure 0))
    return (oneBeat, false)
  let ix ← readSrc t .raw false x
  let r ← recOf t tb
  let a ← resolve t tb ix n (min n 16) rdRights .read (← byL1 t)
  let act := Act.load size count sx (loadKind size r.fmt) false
  raiseLd t
  match a.home with
  | .main | .scratch =>
    let i ← launchOp fun i s => mkOp s t tb.val a act h i false
    writePend t d i (List.replicate count .i64)
    bankCost t
  | _ =>
    landed t d (← awaitOp t (launchOp fun i s => mkOp s t tb.val a act h i true))
    return (oneBeat, false)

/-- An acquire load (R155, R284): its data is read at the home, then the acquire starts once the load count is 0. -/
def loadAcquire (h : Hint) (d : Dst) (tb : Rec) (x : Src) (size count : Nat) (t : Nat) : M (Cost × Bool) := do
  let th ← getT t
  if th.stage ≠ 1 then do
    let vs ← awaitOp t do
      let n := size * count
      let ix ← readSrc t .raw false x
      let r ← recOf t tb
      let a ← resolve t tb ix n (min n 16) rdRights .read
      raiseLd t
      launchOp fun i s => mkOp s t tb.val a (.load size count false (loadKind size r.fmt) true) h i true
    landed t d vs
    modT t fun th => { th with stage := 1 }
  if (← getT t).cnt.ld ≠ 0 then wait 0xD (.counts true false)
  modify fun s => s.acquire th.gcore
  return (⟨1, 4⟩, false)

/-- ldiv (R156): the word holds until its bounds have been read, so that 0x41 is precise. -/
def loadInterval (h : Hint) (d : Dst) (tb : Rec) (x : Src) (wide : Bool) (t : Nat) : M (Cost × Bool) := do
  let n := if wide then 16 else 8
  let vs ← awaitOp t do
    let ix ← readSrc t .raw false x
    let a ← resolve t tb ix n n rdRights .read (← byL1 t)
    raiseLd t
    launchOp fun i s => mkOp s t tb.val a (.iload wide) h i true
  landed t d vs
  return (oneBeat, false)

/-- ld.s8 (R153). -/
def execLdS8 (h : Hint) (d : Dst) (tb : Rec) (x : Src) (s : State) : Out :=
  .next (runWord (shM tb [x]) (loadWord h d tb x 1 1 true) s)
/-- ld.z8 (R153). -/
def execLdZ8 (h : Hint) (d : Dst) (tb : Rec) (x : Src) (s : State) : Out :=
  .next (runWord (shM tb [x]) (loadWord h d tb x 1 1 false) s)
/-- ld.s16 (R153). -/
def execLdS16 (h : Hint) (d : Dst) (tb : Rec) (x : Src) (s : State) : Out :=
  .next (runWord (shM tb [x]) (loadWord h d tb x 2 1 true) s)
/-- ld.z16 (R153). -/
def execLdZ16 (h : Hint) (d : Dst) (tb : Rec) (x : Src) (s : State) : Out :=
  .next (runWord (shM tb [x]) (loadWord h d tb x 2 1 false) s)
/-- ld.32 (R153). -/
def execLd32 (w : Width) (h : Hint) (d : Dst) (tb : Rec) (x : Src) (s : State) : Out :=
  .next (runWord (shM tb [x]) (loadWord h d tb x 4 (Width.count w) false) s)
/-- ld.64 (R153). -/
def execLd64 (w : Width) (h : Hint) (d : Dst) (tb : Rec) (x : Src) (s : State) : Out :=
  .next (runWord (shM tb [x]) (loadWord h d tb x 8 (Width.count w) false) s)
/-- ld.acq.32 (R155). -/
def execLdAcq32 (w : Width) (h : Hint) (d : Dst) (tb : Rec) (x : Src) (s : State) : Out :=
  .next (runWord (shM tb [x]) (loadAcquire h d tb x 4 (Width.count w)) s)
/-- ld.acq.64 (R155). -/
def execLdAcq64 (w : Width) (h : Hint) (d : Dst) (tb : Rec) (x : Src) (s : State) : Out :=
  .next (runWord (shM tb [x]) (loadAcquire h d tb x 8 (Width.count w)) s)
/-- ldiv.32 (R156). -/
def execLdiv32 (h : Hint) (d : Dst) (tb : Rec) (x : Src) (s : State) : Out :=
  .next (runWord (shM tb [x]) (loadInterval h d tb x false) s)
/-- ldiv.64 (R156). -/
def execLdiv64 (h : Hint) (d : Dst) (tb : Rec) (x : Src) (s : State) : Out :=
  .next (runWord (shM tb [x]) (loadInterval h d tb x true) s)

/-! ### Stores (R86, R154, R155, R157) -/

/-- A store word: its access is issued once, and in trial mode the word holds for it. -/
def storing (t : Nat) (body : M Unit) : M (Cost × Bool) := do
  if (← getT t).stage ≥ 2 then storeDone t
  else
    body
    if (← getT t).stage ≥ 2 then storeDone t
  bankCost t

/-- A store of this thread through a record of this view is transactional: a transaction is open, doomed or not
(R101, R103). -/
def txStamp (t view : Nat) : M (Option Nat) := do
  let th ← getT t
  return if view ≠ 2 then none else (th.view.filter (·.tx)).map (·.stamp)

/-- Groups pieces by their virtual line, with the bytes of each (R86). -/
def perLine (cs : List (Nat × Nat)) (bs : List Byte) : List (Nat × List (Nat × List Byte)) :=
  (cs.foldl (fun (a : Tbl (List (Nat × List Byte)) × List Byte) c =>
    (a.1.put (c.1 / 256) (a.1.getD (c.1 / 256) [] ++ [(c.1, a.2.take c.2)]), a.2.drop c.2)) ([], bs)).1

/-- Retires a write into the side log, one entry per line (R86). -/
def sideLog (t : Nat) (tb : Rec) (p : Placed) (va : List (Nat × Nat)) (bs : List Byte) (act : List Byte → Act) (h : Hint) :
    M Unit := do
  let s ← get
  let th := s.thread t
  let gc := th.gcore
  let lines := perLine va bs
  if th.cnt.st + lines.length > 255 then wait 0x3 .poll
  let key := s.wordKey t
  let fresh' := lines.filter fun l => !((s.core gc).side.any fun e => decide (e.word = key) && e.line == l.1)
  if (s.core gc).side.length + fresh'.length > 256 then wait 0x8 .poll
  let _ ← lines.mapM fun l => do
    raiseSt t
    let a : Access := ⟨.main, p.view, (withOffs (l.2.map fun c => (c.1, c.2.length))).map fun c =>
      ⟨c.1, 0, 0, c.2.2, c.2.1, false⟩⟩
    let i ← launchOp fun i s => mkOp s t tb.val a (act ((l.2.map (·.2)).flatten)) h i false
    modify fun s => s.modCore gc fun c =>
      if c.side.any fun e => decide (e.word = key) && e.line == l.1 then
        { c with side := c.side.map fun e =>
            if e.word = key ∧ e.line = l.1 then { e with ops := e.ops ++ [i] } else e }
      else { c with side := c.side ++ [⟨s.ctxOf t, l.1, key, [i]⟩] }
  modify fun s => fresh'.foldl (fun s _ => s.rawEvent gc 8) s

/-- Whether a write retires into the side log: outside trial mode, when a line does not complete translation at issue or the
core's log is not empty (R86). Behind a log that is not empty nothing is asked of the page, since the replay checks it. -/
def goesToSide (t : Nat) (p : Placed) : M Bool := do
  let s ← get
  let th := s.thread t
  if p.home ≠ .main || th.inTrial then return false
  else
    let vas := p.cs.map fun c => p.r.base + c.1
    if !(s.core th.gcore).side.isEmpty then
      match vas.find? fun va => decide (va ≥ 2 ^ 52) with
      | some va => faultAt 0x24 va
      | none => return true
    let looks := vas.map fun va => (va, s.lookCore th.gcore (s.ctxOf t) va .write)
    match looks.findSome? fun l => match l.2 with
      | .bad c => some (l.1, c)
      | _ => none with
    | some (va, c) => faultAt c va
    | none =>
      if looks.any fun l => decide (l.2 = .miss) then
        modify fun s => vas.foldl (fun s va => s.noteMisses t va .write) s
        return true
      else return false

/-- Some page of the access is not versioned; whether another device's pages are, it alone knows (R103; a free value, DESIGN CHOICE, log
entry 13). -/
def unversioned (h : Home) (a : Access) : M Bool := do
  match h with
  | .main => return !a.ver
  | .remote _ => do
    let n := (← get).sched.draw
    modify fun s => s.modSched fun c => { c with draw := n + 1 }
    return Config.farUnversioned n
  | _ => return false

/-- Hands a write of `bs` to memory: into the side log or in flight, for its word to wait for in trial mode (R86, R107,
R154). -/
def issueWrite (t : Nat) (tb : Rec) (p : Placed) (bs : List Byte) (act : List Byte → Act) (h : Hint) (tx : Option Nat) :
    M Unit := do
  let v := match tx with
    | some st => ReadAs.tx st t
    | none => match p.view with
      | .tx st _ => .snap st
      | v => v
  if ← goesToSide t p then
    sideLog t tb { p with view := v } (p.cs.map fun c => (p.r.base + c.1, c.2)) bs act h
  else
    let a ← placeXlat t p .write
    if tx.isSome && (← unversioned p.home a) then faultAt 0x94 p.first
    raiseSt t
    let lone := (← getT t).inTrial
    let i ← launchOp fun i s => mkOp s t tb.val { a with view := v } (act bs) h i lone
    if lone then modT t fun th => { th with stage := i + 2 }

/-- A store of given bytes (R154). `n` bytes lie at each place; `check` runs in check 4 of R144. -/
def storeWord (t : Nat) (h : Hint) (tb : Rec) (ix : Val) (n : Nat) (data : M Unit) (bs : List Byte) : M Unit := do
  let p ← placeAccess t tb ix scaled n (min n 16) anyRec wrRights anyHome data
  let tx ← txStamp t p.r.view
  inTurn t
  issueWrite t tb p bs (fun b => .store b (8 * n)) h tx

/-- The low bytes of each data entry, in register order (R154). -/
def storeData (t : Nat) (d : Src) (size count : Nat) (x : Src) : M (List Byte) := do
  srcRules t false (groupSrcs d count ++ [x])
  let vs ← (groupSrcs d count).mapM (readSrc t .raw true)
  return (vs.map fun v => leBytes size v.val.toNat).flatten

/-- A plain store word. -/
def storePlain (h : Hint) (d : Src) (tb : Rec) (x : Src) (size count : Nat) (t : Nat) : M (Cost × Bool) := storing t do
  let bs ← storeData t d size count x
  let ix ← readSrc t .raw false x
  storeWord t h tb ix (size * count) (pure ()) bs

/-- A release store: it waits for the store and load counts first (R155, R284). -/
def storeRelease (h : Hint) (d : Src) (tb : Rec) (x : Src) (size count : Nat) (t : Nat) : M (Cost × Bool) := storing t do
  let th ← getT t
  if th.cnt.st ≠ 0 ∨ th.cnt.ld ≠ 0 then wait 0xE (.counts true true)
  let bs ← storeData t d size count x
  let ix ← readSrc t .raw false x
  storeWord t h tb ix (size * count) (pure ()) bs

/-- st.8 (R154). -/
def execSt8 (h : Hint) (d : Src) (tb : Rec) (x : Src) (s : State) : Out :=
  .next (runWord (shMs tb d x) (storePlain h d tb x 1 1) s)
/-- st.16 (R154). -/
def execSt16 (h : Hint) (d : Src) (tb : Rec) (x : Src) (s : State) : Out :=
  .next (runWord (shMs tb d x) (storePlain h d tb x 2 1) s)
/-- st.32 (R154). -/
def execSt32 (w : Width) (h : Hint) (d : Src) (tb : Rec) (x : Src) (s : State) : Out :=
  .next (runWord (shMs tb d x) (storePlain h d tb x 4 (Width.count w)) s)
/-- st.64 (R154). -/
def execSt64 (w : Width) (h : Hint) (d : Src) (tb : Rec) (x : Src) (s : State) : Out :=
  .next (runWord (shMs tb d x) (storePlain h d tb x 8 (Width.count w)) s)
/-- st.rel.32 (R155). -/
def execStRel32 (w : Width) (h : Hint) (d : Src) (tb : Rec) (x : Src) (s : State) : Out :=
  .next (runWord (shMs tb d x).relPoint (storeRelease h d tb x 4 (Width.count w)) s)
/-- st.rel.64 (R155). -/
def execStRel64 (w : Width) (h : Hint) (d : Src) (tb : Rec) (x : Src) (s : State) : Out :=
  .next (runWord (shMs tb d x).relPoint (storeRelease h d tb x 8 (Width.count w)) s)

/-- What stiv stores of a data operand (R157), and check 4's tests. A point of -0 is stored as its own bits in both bounds: R157 stores the
point as it is, and R66 speaks of bounds that the device computes (DEDUCED, log entry 106). -/
def ivData (t : Nat) (wide : Bool) (v : Val) (odd : Option KReg) (at0 : Nat) : M (List Byte) := do
  let n := if wide then 8 else 4
  let point : M (List Byte) := do
    let c := v.val.toNat % 2 ^ (8 * n)
    if (Num.decodeF (famFmt wide) c).isFin then return leBytes n c ++ leBytes n c else fault 0x41
  if v.imm then faultAt 0x2D at0
  else match wide, v.kind with
    | false, .iv32 => return leBytes 8 v.val.toNat
    | false, .f32 => point
    | true, .iv64 =>
      match odd with
      | some k => do
        let o ← readEntry t ((← getT t).regs.k[k])
        return leBytes 8 v.val.toNat ++ leBytes 8 o.val.toNat
      | none => faultAt 0x2D at0
    | true, .f64 => point
    | _, _ => faultAt 0x2D at0

/-- stiv (R157). A FUT is not waited for (R173). -/
def storeInterval (h : Hint) (d : Src) (tb : Rec) (x : Src) (wide : Bool) (t : Nat) : M (Cost × Bool) := storing t do
  let odd := match d with
    | .k r => if wide then some (Fin.ofNat 32 (r.val + 1)) else none
    | _ => none
  srcRules t false [d, x]
  let v ← readSrc t .raw true d
  let ix ← readSrc t .raw false x
  let n := if wide then 16 else 8
  let s ← get
  let r := recF (s.recBits t tb.val)
  let at0 := match ix.index with
    | some i => r.first (scaled r i)
    | none => 0
  let p ← placeAccess t tb ix scaled n n anyRec wrRights anyHome (do let _ ← ivData t wide v odd at0)
  let bs ← ivData t wide v odd at0
  let tx ← txStamp t p.r.view
  inTurn t
  issueWrite t tb p bs (fun b => .store b (8 * n)) h tx

/-- stiv.32 (R157). -/
def execStiv32 (h : Hint) (d : Src) (tb : Rec) (x : Src) (s : State) : Out :=
  .next (runWord (shMs tb d x) (storeInterval h d tb x false) s)
/-- stiv.64 (R157). -/
def execStiv64 (h : Hint) (d : KReg) (tb : Rec) (x : Src) (s : State) : Out :=
  .next (runWord (shM tb [x]) (storeInterval h (.k d) tb x true) s)

/-! ### Far atomics and reductions (R158) -/

/-- Width in bytes of a data operand's kind. -/
def atomWidth (v : Val) : Option Nat :=
  match v.kind with
  | .i32 | .f32 => some 4
  | .i64 | .f64 => some 8
  | _ => none

/-- Whether an operator takes F kinds. -/
def AtomOp.takesF : AtomOp → Bool
  | .add | .xchg | .cas => true
  | _ => false

/-- Whether the home performs the operator on a kind (R148, R149). -/
def atomSupports (op : AtomOp) (ret : Bool) (v : Val) (h : Home) : Bool :=
  match h with
  | .host => match op with
    | .add => v.kind == .i32 || v.kind == .i64
    | .xchg | .cas => ret
    | _ => false
  | _ => true

/-- Check 4 of an atomic: the data operand's kind. -/
def atomKind (op : AtomOp) (v : Val) (at0 : Nat) : M Unit := do
  if (atomWidth v).isNone || ((v.kind = .f32 || v.kind = .f64) && !op.takesF) then faultAt 0x2D at0

/-- Places an atomic or reduction: R144, then 0x95 in a transaction (R103). -/
def placeAtom (t : Nat) (tb : Rec) (ix : Val) (op : AtomOp) (ret : Bool) (v : Val) (more : Nat → M Unit) (x : Rights) :
    M Placed := do
  let s ← get
  let r := recF (s.recBits t tb.val)
  let at0 := match ix.index with
    | some i => r.first (scaled r i)
    | none => 0
  let w := (atomWidth v).getD 4
  let p ← placeAccess t tb ix scaled w w anyRec x (atomSupports op ret v) (do atomKind op v at0; more at0)
  if (← txStamp t p.r.view).isSome then faultAt 0x95 p.first
  return p

/-- A far atomic: the old value is pushed (R158). Parts of one bundle go in ascending thread index. In trial mode the word holds
for it (R107, R320). -/
def atomBody (op : AtomOp) (h : Hint) (d : Src) (new : Option KReg) (tb : Rec) (x : Src) (t : Nat) : M (Cost × Bool) := do
  if (← getT t).stage ≥ 2 then do
    landed t .q (← awaitOp t (pure 0))
    return (oneBeat, false)
  srcRules t false ([d] ++ (new.map Src.k).toList ++ [x])
  let v ← readSrc t .raw false d
  let nv ← match new with
    | some k => readSrc t .raw false (.k k)
    | none => pure v
  let ix ← readSrc t .raw false x
  let p ← placeAtom t tb ix op true v
    (fun at0 => do if new.isSome && atomWidth nv ≠ atomWidth v then faultAt 0x2D at0) atRights
  inTurn t
  let w := (atomWidth v).getD 4
  let m := 2 ^ (8 * w)
  let a ← placeXlat t p .atomic
  raiseLd t
  let act := Act.atom op w v.kind (nv.val.toNat % m) (v.val.toNat % m) true
  if (a.home == .main || a.home == .scratch) && !(← getT t).inTrial then
    let i ← launchOp fun i s => mkOp s t tb.val a act h i false
    writePend t .q i [.i64]
    bankCost t
  else
    landed t .q (← awaitOp t (launchOp fun i s => mkOp s t tb.val a act h i true))
    return (oneBeat, false)

/-- A reduction: nothing is returned, and it may enter the side log (R86, R158). -/
def redBody (op : AtomOp) (h : Hint) (d : Src) (tb : Rec) (x : Src) (t : Nat) : M (Cost × Bool) := storing t do
  srcRules t false [d, x]
  let v ← readSrc t .raw false d
  let ix ← readSrc t .raw false x
  let p ← placeAtom t tb ix op false v (fun _ => pure ()) redRights
  inTurn t
  let w := (atomWidth v).getD 4
  let m := v.val.toNat % 2 ^ (8 * w)
  issueWrite t tb p (leBytes w m) (fun _ => .atom op w v.kind m 0 false) h none

/-- atom.add (R158). -/
def execAtomAdd (h : Hint) (d : Src) (tb : Rec) (x : Src) (s : State) : Out :=
  .next (runWord (shMs tb d x) (atomBody .add h d none tb x) s)
/-- atom.min (R158). -/
def execAtomMin (h : Hint) (d : Src) (tb : Rec) (x : Src) (s : State) : Out :=
  .next (runWord (shMs tb d x) (atomBody .min h d none tb x) s)
/-- atom.min.un (R158). -/
def execAtomMinUn (h : Hint) (d : Src) (tb : Rec) (x : Src) (s : State) : Out :=
  .next (runWord (shMs tb d x) (atomBody .minUn h d none tb x) s)
/-- atom.max (R158). -/
def execAtomMax (h : Hint) (d : Src) (tb : Rec) (x : Src) (s : State) : Out :=
  .next (runWord (shMs tb d x) (atomBody .max h d none tb x) s)
/-- atom.max.un (R158). -/
def execAtomMaxUn (h : Hint) (d : Src) (tb : Rec) (x : Src) (s : State) : Out :=
  .next (runWord (shMs tb d x) (atomBody .maxUn h d none tb x) s)
/-- atom.and (R158). -/
def execAtomAnd (h : Hint) (d : Src) (tb : Rec) (x : Src) (s : State) : Out :=
  .next (runWord (shMs tb d x) (atomBody .and h d none tb x) s)
/-- atom.or (R158). -/
def execAtomOr (h : Hint) (d : Src) (tb : Rec) (x : Src) (s : State) : Out :=
  .next (runWord (shMs tb d x) (atomBody .or h d none tb x) s)
/-- atom.xor (R158). -/
def execAtomXor (h : Hint) (d : Src) (tb : Rec) (x : Src) (s : State) : Out :=
  .next (runWord (shMs tb d x) (atomBody .xor h d none tb x) s)
/-- atom.xchg (R158). -/
def execAtomXchg (h : Hint) (d : Src) (tb : Rec) (x : Src) (s : State) : Out :=
  .next (runWord (shMs tb d x) (atomBody .xchg h d none tb x) s)
/-- atom.cas: compare value in the even register, new value in the odd (R158). -/
def execAtomCas (h : Hint) (d : KReg) (tb : Rec) (x : Src) (s : State) : Out :=
  .next (runWord (shM tb [x]) (atomBody .cas h (.k d) (some (Fin.ofNat 32 (d.val + 1))) tb x) s)
/-- red.add (R158). -/
def execRedAdd (h : Hint) (d : Src) (tb : Rec) (x : Src) (s : State) : Out :=
  .next (runWord (shMs tb d x) (redBody .add h d tb x) s)
/-- red.min (R158). -/
def execRedMin (h : Hint) (d : Src) (tb : Rec) (x : Src) (s : State) : Out :=
  .next (runWord (shMs tb d x) (redBody .min h d tb x) s)
/-- red.min.un (R158). -/
def execRedMinUn (h : Hint) (d : Src) (tb : Rec) (x : Src) (s : State) : Out :=
  .next (runWord (shMs tb d x) (redBody .minUn h d tb x) s)
/-- red.max (R158). -/
def execRedMax (h : Hint) (d : Src) (tb : Rec) (x : Src) (s : State) : Out :=
  .next (runWord (shMs tb d x) (redBody .max h d tb x) s)
/-- red.max.un (R158). -/
def execRedMaxUn (h : Hint) (d : Src) (tb : Rec) (x : Src) (s : State) : Out :=
  .next (runWord (shMs tb d x) (redBody .maxUn h d tb x) s)
/-- red.and (R158). -/
def execRedAnd (h : Hint) (d : Src) (tb : Rec) (x : Src) (s : State) : Out :=
  .next (runWord (shMs tb d x) (redBody .and h d tb x) s)
/-- red.or (R158). -/
def execRedOr (h : Hint) (d : Src) (tb : Rec) (x : Src) (s : State) : Out :=
  .next (runWord (shMs tb d x) (redBody .or h d tb x) s)
/-- red.xor (R158). -/
def execRedXor (h : Hint) (d : Src) (tb : Rec) (x : Src) (s : State) : Out :=
  .next (runWord (shMs tb d x) (redBody .xor h d tb x) s)

/-! ### Prefetch (R159) -/

/-- A line is brought into a core's L1 whole, where it is not there already. -/
def State.l1Warm (s : State) (ver : Bool) (gc ctx vline phys : Nat) (v : ReadAs) (h : Hint) (d : LineData) : State :=
  match s.l1Hit gc ctx vline v h 0 256 with
  | some r => r.1
  | none => (s.l1Fill false ver gc ctx vline phys v h 0 256 d).1

/-- The place of a prefetch, where every check passes; a walk is silent. -/
def pfPlace (s : State) (t : Nat) (tb : Rec) (ix : Val) : Option (Nat × Xlat × ReadAs × State) :=
  match (placeAccess t tb ix scaled 1 1 anyRec rdRights anyHome (pure ())).run s with
  | .ok p _ =>
    match p.home, p.cs with
    | .main, c :: _ =>
      let va := p.r.base + c.1
      let die := (s.thread t).id.die
      match s.quietLook die (s.ctxOf t) va .read with
      | .ok x s => some (va, x, p.view, s)
      | .bad _ | .hold => none
    | _, _ => none
  | .error _ _ => none

/-- pf (R159): the line is brought into L1 unless the hint is no-allocate; a thread that would fail is dropped. -/
def pfBody (h : Hint) (tb : Rec) (x : Src) (t : Nat) : M (Cost × Bool) := plain do
  let ix ← readSrc t .raw false x
  let s ← get
  match pfPlace s t tb ix with
  | none => pure ()
  | some (va, xl, v, s) =>
    let line := xl.src / 256
    let v := if xl.ver then v else .latest
    let th := s.thread t
    let s := s.codeCheck (s.ctxOf t) line
    if s.poisoned line || !s.lineAwake line then set s
    else match (if xl.ver then s.homeLine line v else some (memLine s.homes.mem line)) with
      | none => set s
      | some d =>
        let s := (s.l2Read th.id.die line xl.ver h).noteReplica th.id.die (xl.pa / 256) xl.dup
        if h = .noAllocate then set s
        else set (s.l1Warm xl.ver th.gcore (s.ctxOf t) (va / 256) (xl.pa / 256) v h d)

/-- pf (R159). -/
def execPf (h : Hint) (tb : Rec) (x : Src) (s : State) : Out :=
  .next (runWord (shM tb [x]) (pfBody h tb x) s)

/-! ### FIFO banks (R160) -/

/-- Entries a FIFO bank can hold (R133). -/
def fifoSize : Nat := 16384

/-- The bank is in FIFO mode and owned by the thread's team. -/
def fifoOk (s : State) (t : Nat) (fq : Fin 32) : Bool :=
  let b := s.bank (s.thread t).gcore fq.val
  b.mode == .fifo && b.own == some (s.thread t).id.work

/-- The active threads of the thread's own bundle that still take part in the word, in ascending thread index: one of a ganged pair's two
bundles (R136, R294). -/
def activeMates (t : Nat) : M (List Nat) := do
  let s ← get
  return (((s.bundles.find (s.thread t).bundle).map (·.tids)).getD []).filter fun u => (s.thread u).pos.g && !(s.thread u).done && !(s.thread u).part

/-- Marks threads as having had their part of the word performed. -/
def setPart (us : List Nat) : M Unit :=
  modify fun s => us.foldl (fun s u => s.modThread u fun th => { th with part := true }) s

/-- Appends entries to a FIFO bank. -/
def Bank.push (b : Bank) (vs : List Word64) : Bank := { b with items := b.items ++ vs, tail := b.tail + vs.length }
/-- Removes the oldest entries. -/
def Bank.pop (b : Bank) (n : Nat) : Bank := { b with items := b.items.drop n, head := b.head + n }

/-- The data entries of one thread's push, in register order (R160). -/
def pushData (w : Width) (d : Src) (u : Nat) : M (List Word64) := do
  srcRules u false (groupSrcs d (Width.count w))
  let vs ← (groupSrcs d (Width.count w)).mapM (readSrc u .raw true)
  return vs.map (·.val)

/-- The data of a bundle's push, in ascending thread index; a thread whose data takes a cause takes no part (R160). -/
def pushGather (w : Width) (d : Src) (t : Nat) : M (List (Nat × List Word64)) := do
  let _ ← pushData w d t
  let us ← activeMates t
  us.filterMapM fun u => do
    let s ← get
    match (pushData w d u).run s with
    | .ok vs s' => do set s'; return some (u, vs)
    | .error (.hold h) s' => do set s'; throw (.hold h)
    | .error (.trap _ _) _ => return none

/-- An access to a FIFO bank, which has no bytes. -/
def fifoAccess : Access := ⟨.scratch, .latest, []⟩

/-- qpush (R160): the bundle's push is one step on the ring, made for all its threads at once. -/
def qpushBody (w : Width) (d : Src) (fq : Fin 32) (t : Nat) : M (Cost × Bool) := plain do
  let th ← getT t
  if !th.part then
    srcRules t false (groupSrcs d (Width.count w))
    if !fifoOk (← get) t fq then fault 0x2A
    let got ← pushGather w d t
    let s ← get
    let gc := th.gcore
    if fifoSize - (s.bank gc fq.val).items.length < got.length * Width.count w then wait 0xB .event
    if got.any fun x => decide ((s.thread x.1).cnt.st ≥ 255) then wait 0x3 .poll
    let _ ← got.mapM fun x => do
      raiseSt x.1
      launchOp fun i s => mkOp s x.1 0 fifoAccess (.qpush fq.val) .normal i false
    modify fun s => s.modBank gc fq.val fun b => b.push ((got.map (·.2)).flatten)
    setPart (got.map (·.1))

/-- Starts the delivery of popped entries to a thread. -/
def popTo (u : Nat) (d : Dst) (p : Option PReg) (vals : List Word64) (ok : Option Bool) : M Unit := do
  raiseLd u
  let i ← launchOp fun i s => mkOp s u 0 fifoAccess (.qpop vals ok) .normal i false
  writePend u d i (vals.map fun _ => .i64)
  match p with
  | some p => modT u fun th => th.modRegs fun x => x.expect p i 0
  | none => pure ()

/-- qpop and qpop.nb (R160). -/
def qpopBody (w : Width) (d : Dst) (fq : Fin 32) (nb : Option PReg) (t : Nat) : M (Cost × Bool) := plain do
  let th ← getT t
  if !th.part then
    if !fifoOk (← get) t fq then fault 0x2A
    let n := Width.count w
    let us ← activeMates t
    let s ← get
    let gc := th.gcore
    let items := (s.bank gc fq.val).items
    let enough := decide (items.length ≥ us.length * n)
    if !enough && nb.isNone then wait 0xB .event
    if us.any fun u => decide ((s.thread u).cnt.ld ≥ 255) then wait 0x3 .poll
    let _ ← us.zipIdx.mapM fun x =>
      popTo x.1 d nb (if enough then (items.drop (x.2 * n)).take n else List.replicate n 0) (nb.map fun _ => enough)
    if enough then modify fun s => s.modBank gc fq.val fun b => b.pop (us.length * n)
    setPart us

/-- Shell of a word that names a FIFO bank in place of a record, which no candidate may use. -/
def shQ (xs : List Src) : Shell := (⟨litWords xs, false, 0, true, [], false⟩ : Shell)

/-- qpush (R160). -/
def execQpush (w : Width) (_h : Hint) (d : Src) (fq : Fin 32) (s : State) : Out :=
  .next (runWord (shQ [d]) (qpushBody w d fq) s)
/-- qpop (R160). -/
def execQpop (w : Width) (_h : Hint) (d : Dst) (fq : Fin 32) (s : State) : Out :=
  .next (runWord (shQ []) (qpopBody w d fq none) s)
/-- qpop.nb (R160). -/
def execQpopNb (w : Width) (_h : Hint) (d : Dst) (fq : Fin 32) (p : PReg) (s : State) : Out :=
  .next (runWord (shQ []) (qpopBody w d fq (some p)) s)

/-! ### bank.mode (R132, R161) -/

/-- Whether R132 lets the thread's team make the switch; `none` where it does nothing. -/
def switchOk (b : Bank) (w : Nat) (m : BankMode) : Option Bool :=
  if b.mode = m ∧ (m = .cache ∨ b.own.isSome) then none
  else if b.mode = .cache then some true
  else some (b.own == some w)

/-- A bundle that reached a bank still stands at that word and holds there (R161). -/
def State.atBank (s : State) (key : Nat × Nat) : Bool :=
  match s.bundles.find key.1 with
  | some b => b.serial == key.2 && b.tids.any fun u => (s.thread u).hold.any fun h => h.leaf == 0xB
  | none => false

/-- A bundle reaches a bank, and takes its place behind those that reached it before (R161). -/
def State.reachBank (s : State) (gc n : Nat) (key : Nat × Nat) : State :=
  s.modCore gc fun c =>
    if c.modeQ.contains (n, key) then c
    else { c with modeQ := (c.modeQ.filter fun x => s.atBank x.2) ++ [(n, key)] }

/-- Bundles that reached the bank earlier and have not had their switch in full. -/
def State.aheadAtBank (s : State) (gc n : Nat) (key : Nat × Nat) : Bool :=
  (((s.core gc).modeQ.filter fun x => x.1 == n).takeWhile fun x => x.2 != key).any fun x => s.atBank x.2

/-- bank.mode (R161): queued once per bundle, for its lowest-indexed active thread; all its active threads hold until
the switch is complete. -/
def bankModeBody (n : Fin 32) (m : BankMode) (t : Nat) : M (Cost × Bool) := plain do
  let th ← getT t
  if !th.part then
    let s ← get
    let gc := th.gcore
    let key := s.wordKey t
    if !((s.core gc).switches.any fun x => decide (x.key = key)) then
      let s := s.reachBank gc n.val key
      set s
      if s.aheadAtBank gc n.val key || (s.core gc).switches.any fun x => x.bank == n.val then wait 0xB .poll
      match switchOk (s.bank gc n.val) th.id.work m with
      | some false => fault 0x2A
      | none => setPart (← activeMates t)
      | some true =>
        let dur := if m = .cache then 8 else 512
        set (s.modCore gc fun c => { c with switches := c.switches ++ [⟨n.val, m, s.lcOf t + dur, th.id.work, t, key⟩] })
        wait 0xB .event
    else wait 0xB .event

/-- bank.mode (R161). -/
def execBankMode (st : Stall) (n : Fin 32) (m : BankMode) (s : State) : Out :=
  .next (runWord (shT st []).ban (bankModeBody n m) s)

/-! ### Signature insertion (R162) -/

/-- s of R162; 0 where extent / 16 is no power of two. -/
def sigSlots (r : RecF) : Nat :=
  let s := r.extent / 16
  if s ≠ 0 ∧ r.extent % 16 = 0 ∧ 2 ^ Nat.log2 s = s then s else 0

/-- An all-zero signature is read as (0, 1). -/
def sigNorm (h0 h1 : Word64) : Word64 × Word64 := if h0 = 0 ∧ h1 = 0 then (0, 1) else (h0, h1)

/-- The checks of a signature insertion before translation, and its probed slots in order. -/
def placeSig (t tb : Nat) (h0 : Word64) : M Placed := do
  let s ← get
  let b := s.recBits t tb
  let r := recF b
  let n := sigSlots r
  let slots := (List.range (min n 64)).map fun j => (16 * ((h0.toNat + j) % n), 16)
  let first := r.base + ((slots.head?).map (·.1)).getD 0
  if !linearRec r || n = 0 then faultAt 0x21 first
  let (h, v) ← checkRecord t r atRights (fun h => h != .scratch && h != .host) first
  if (← txStamp t r.view).isSome then faultAt 0x95 first
  modT t fun th => { th with checked := some b }
  return ⟨r, h, v, slots, first⟩

/-- sigin (R162): it holds until the table has answered, so that 0x2B is precise. -/
def siginBody (h : Hint) (d : KReg) (tb : Rec) (t : Nat) : M (Cost × Bool) := do
  let vs ← awaitOp t do
    srcRules t false [.k d, .k (Fin.ofNat 32 (d.val + 1))]
    let a ← readSrc t .raw true (.k d)
    let b ← readSrc t .raw true (.k (Fin.ofNat 32 (d.val + 1)))
    let (h0, h1) := sigNorm a.val b.val
    let p ← placeSig t tb.val h0
    inTurn t
    let ac ← placeXlat t p .atomic
    raiseLd t
    launchOp fun i s => mkOp s t tb.val ac (.sigin h0 h1) h i true
  landed t .q vs
  return (oneBeat, false)

/-- sigin (R162). -/
def execSigin (h : Hint) (d : KReg) (tb : Rec) (s : State) : Out :=
  .next (runWord (shM tb []).ban (siginBody h d tb) s)

/-! ### Records (R163-R165) -/

/-- The record word number: read as an index, a multiple of c, within the record (R163). -/
def recWordNo (t : Nat) (x : Src) (c : Nat) : M Nat := do
  let ix ← readSrc t .raw false x
  match ix.index with
  | none => fault 0x2D
  | some j => if j % c ≠ 0 ∨ j + c > 8 then fault 0x20 else return j

/-- rec.rd (R163). -/
def recRdBody (w : Width) (h : Hint) (d : Dst) (tb : Rec) (x : Src) (t : Nat) : M (Cost × Bool) := plain do
  let c := Width.count w
  let j ← recWordNo t x c
  raiseLd t
  let i ← launchOp fun i s => mkOp s t tb.val ⟨.main, .latest, []⟩ (.recRd j c) h i false
  writePend t d i (List.replicate c .i64)

/-- Word 5 with bits [63:56] equal to 0xFE makes a host record (R165). -/
def makesHost (j : Nat) (vs : List Word64) : Bool :=
  vs.zipIdx.any fun v => j + v.2 == 5 && v.1.toNat / 2 ^ 56 == 0xFE

/-- rec.wr (R163, R165). -/
def recWrBody (w : Width) (h : Hint) (d : Src) (tb : Rec) (x : Src) (t : Nat) : M (Cost × Bool) := plain do
  let c := Width.count w
  srcRules t false (groupSrcs d c ++ [x])
  let vs ← (groupSrcs d c).mapM (readSrc t .raw true)
  let j ← recWordNo t x c
  let r ← recOf t tb
  let vals := vs.map (·.val)
  if r.home = 0xFE || makesHost j vals then fault 0x22
  raiseSt t
  let _ ← launchOp fun i s => mkOp s t tb.val ⟨.main, .latest, []⟩ (.recWr j vals) h i false

/-- rec.rd (R163). -/
def execRecRd (w : Width) (h : Hint) (d : Dst) (tb : Rec) (x : Src) (s : State) : Out :=
  .next (runWord (shM tb [x]) (recRdBody w h d tb x) s)
/-- rec.wr (R163). -/
def execRecWr (w : Width) (h : Hint) (d : Src) (tb : Rec) (x : Src) (s : State) : Out :=
  .next (runWord (shMs tb d x).ban (recWrBody w h d tb x) s)

/-! ### lcload (R327) -/

/-- lcload. -/
def lcloadBody (h : Hint) (d : Dst) (tb : Rec) (x : Src) (t : Nat) : M (Cost × Bool) := do
  if (← getT t).stage ≥ 2 then do
    landed t d (← awaitOp t (pure 0))
    return (oneBeat, false)
  let ix ← readSrc t .raw false x
  let p ← placeAccess t tb ix (fun _ i => i * 512) 512 16 linearRec rdRights anyHome (pure ())
  let a ← placeXlat t p .read (← byL1 t)
  raiseLd t
  match a.home with
  | .main | .scratch =>
    let i ← launchOp fun i s => mkOp s t tb.val a .lcload h i false
    writePend t d i [.i64]
    bankCost t
  | _ =>
    landed t d (← awaitOp t (launchOp fun i s => mkOp s t tb.val a .lcload h i true))
    return (oneBeat, false)

/-- lcload (R327). -/
def execLcload (h : Hint) (d : Dst) (tb : Rec) (x : Src) (s : State) : Out :=
  .next (runWord (shM tb [x]).ban (lcloadBody h d tb x) s)

/-! ### Acquire and release (R282-R285) -/

/-- acq (R284). -/
def acqBody (t : Nat) : M (Cost × Bool) := do
  let th ← getT t
  if th.cnt.ld ≠ 0 then wait 0xD (.counts true false)
  modify fun s => s.acquire th.gcore
  return (⟨1, 4⟩, false)

/-- Waits for the store and load counts (R284). A thread without a write of its own in the side log does not wait for the
log's other entries (DESIGN CHOICE, log entry 85). -/
def relBody (t : Nat) : M (Cost × Bool) := do
  let th ← getT t
  if th.cnt.st ≠ 0 ∨ th.cnt.ld ≠ 0 then wait 0xE (.counts true true)
  return (oneBeat, false)

/-- acqrel (R284). -/
def acqrelBody (t : Nat) : M (Cost × Bool) := do
  let _ ← relBody t
  acqBody t

/-- acq (R284). -/
def execAcq (c : RCtl) (s : State) : Out := .next (runWord (shR c []) acqBody s)
/-- rel (R284, R285). -/
def execRel (c : RCtl) (s : State) : Out := .next (runWord (shR c []).relPoint relBody s)
/-- acqrel (R284, R285). -/
def execAcqrel (c : RCtl) (s : State) : Out := .next (runWord (shR c []).relPoint acqrelBody s)

end Sys2Proof.Machine
end

