-- ==== Sys2Proof/Machine/Versions.lean ====
section
/-! DEFINITION. Snapshots, transactions and publications: the version words (R109-R115), the commit (R96), the collector
(R105, R106) and the loss of a write for want of a slot (R107). -/

namespace Sys2Proof.Machine

/-- Shell of a version word (R109), which no candidate may use. -/
def shV (xs : List Src) : Shell := ⟨litWords xs, false, 0, true, [], false⟩

/-! ### Views (R110, R111) -/

/-- The greatest of the dies' copies of the package low-water stamp: below it versions may have been reclaimed (R105, R106). -/
def State.lowWater (s : State) : Nat := (List.range 4).foldl (fun m d => max m (s.die d).lw) 0

/-- snap.open and txb (R110). A requested stamp is tested against the greatest of the dies' copies of the low-water stamp
(DESIGN CHOICE, log entry 86); the meridian is that of the lane cycle in which the thread runs (R288). -/
def openView (tx : Bool) (d : Dst) (x : Src) (t : Nat) : M (Cost × Bool) := plain do
  let st ← readSrc t .single false x
  let s ← get
  let th := s.thread t
  if th.view.isSome then fault 0x93
  let mer := s.merNow t
  let v ← if st.val = 0 then logged t (BitVec.ofNat 64 (max mer 1))
    else if st.val.toNat > mer ∨ st.val.toNat < s.lowWater then fault 0x92
    else pure st.val
  modify fun s => s.pruneRegs
  modT t fun th => { th with view := some ⟨v.toNat, tx, 0, false⟩ }
  writeVals t d [(v, .i64)] 0

/-- snap.close (R111). -/
def closeView (t : Nat) : M (Cost × Bool) := plain do
  match (← getT t).view with
  | none => pure ()
  | some v => if v.tx then fault 0x93 else modT t fun th => { th with view := none }

/-- snap.open (R110). -/
def execSnapOpen (d : Dst) (x : Src) (s : State) : Out := .next (runWord (shV [x]) (openView false d x) s)
/-- snap.close (R111). -/
def execSnapClose (s : State) : Out := .next (runWord (shV []) closeView s)
/-- txb (R110). -/
def execTxb (d : Dst) (x : Src) (s : State) : Out := .next (runWord (shV [x]) (openView true d x) s)

/-! ### Ending a transaction (R112-R114) -/

/-- Marks the versions of an owner as locking (R112). -/
def Homes.lock (h : Homes) (o : Owner) : Homes :=
  { h with vlines := h.vlines.mapVals fun v => v.mapPend fun p => if p.owner = o then { p with locking := true } else p }

/-- Closes the thread's transaction with a reason for sr.txwhy (R108). -/
def State.closeTx (s : State) (t : Nat) (why : Word64) : State :=
  let s := (s.discard (.tx t) (some t)).dropTxLines t
  s.modThread t fun th => { th with view := none, txwhy := why }

/-- txc (R112): it waits for the thread's stores, locks, and goes on when its commit has ended. -/
def txcBody (p : PReg) (t : Nat) : M (Cost × Bool) := plain do
  let s ← get
  let th := s.thread t
  match th.view with
  | none =>
    if th.stage ≥ 2 then
      set (s.acquire th.gcore)
      writePred t p .T 0
    else fault 0x93
  | some v =>
    if !v.tx then fault 0x93
    if th.cnt.st ≠ 0 then wait 0xE (.counts false true)
    if v.doom ≠ 0 then
      set (s.closeTx t (BitVec.ofNat 64 v.doom))
      writePred t p .F 0
    else
      if th.stage ≥ 2 then wait 0xE .event
      let i ← fresh
      modify fun s => { s.modHomes fun h => h.lock (.tx t) with
        commits := s.commits.put i ⟨.tx t, t, th.id.die, none, v.far, i, 0, s.ctxOf t, th.gcore⟩ }
      modT t fun th => { th with stage := i + 2 }
      wait 0xE .event

/-- txa (R113). -/
def txaBody (x : Src) (t : Nat) : M (Cost × Bool) := plain do
  let v ← readSrc t .single false x
  let s ← get
  match (s.thread t).view with
  | some w => if w.tx then set (s.closeTx t (BitVec.ofNat 64 (v.val.toNat % 256 * 256 + 5))) else fault 0x93
  | none => fault 0x93

/-- txchk (R114). -/
def txchkBody (p : PReg) (t : Nat) : M (Cost × Bool) := plain do
  match (← getT t).view with
  | some v => writePred t p (if !v.tx then .U else if v.doom = 0 then .T else .F) 0
  | none => writePred t p .U 0

/-- txc (R112). -/
def execTxc (p : PReg) (s : State) : Out := .next (runWord (shV []) (txcBody p) s)
/-- txa (R113). -/
def execTxa (x : Src) (s : State) : Out := .next (runWord (shV [x]) (txaBody x) s)
/-- txchk (R114). -/
def execTxchk (p : PReg) (s : State) : Out := .next (runWord (shV []) (txchkBody p) s)

/-! ### vpub (R115) -/

/-- vpub hands over a publication; its stamp is delivered when the publication has committed. -/
def vpubBody (d : Dst) (tb : Rec) (t : Nat) : M (Cost × Bool) := plain do
  let s ← get
  let r := recF ((s.ctx (s.ctxOf t)).recAt tb.val)
  let _ ← checkRecord t r wrRights anyHome r.base
  let i ← fresh
  writePend t d i [.fut]
  modify fun s =>
    let th := s.thread t
    { s with commits := s.commits.put i ⟨.pub (s.ctxOf t) tb.val, t, th.id.die, none, false, i, tb.val, s.ctxOf t, th.gcore⟩ }

/-- vpub (R115). -/
def execVpub (d : Dst) (tb : Rec) (s : State) : Out :=
  .next (runWord { shV [] with recs := [tb] } (vpubBody d tb) s)

/-! ### Commits (R95, R96, R112, R115) -/

/-- A version of the owner that has no stamp yet. -/
def Pending.unstamped (p : Pending) (o : Owner) : Bool := decide (p.owner = o) && p.stamp.isNone

/-- The greatest stamp of another committed or locked version on a line the owner locks, 0 where it locks none (R95). -/
def Homes.newest (h : Homes) (o : Owner) : Nat :=
  h.vlines.foldl (fun n lv =>
    if lv.2.pend.any fun p => p.unstamped o then lv.2.pend.foldl (fun n p => max n (p.stamp.getD 0)) (max n lv.2.stamp)
    else n) 0

/-- Bytes of `a` where the mask is 1, of `b` elsewhere. -/
def mergeLine (m : BitVec 256) (a b : LineData) : LineData :=
  (List.range 256).foldl (fun d i => if m.getLsbD i then setLineByte d i (lineByte a i) else d) b

/-- Stamps an owner's versions; what they did not write is completed from the newest committed ones (R115). -/
def Homes.stampAll (h : Homes) (o : Owner) (c : Nat) : Homes :=
  { h with vlines := h.vlines.map fun lv => (lv.1, lv.2.mapPend fun p =>
      if p.unstamped o then
        { p with locking := true, stamp := some c, data := mergeLine p.mask p.data (memLine h.mem lv.1) }
      else p) }

/-- Words of a line in which a mask has a bit. -/
def maskWords (line : Nat) (m : BitVec 256) : List Nat :=
  ((List.range 64).filter fun w => decide ((m.extractLsb' (4 * w) 4) ≠ 0)).map (line * 64 + ·)


/-- A committed version shows in every core: a core whose L1 holds bytes of its own in the words written clears their mask
bits (R123; DEDUCED, log entry 87), and a publication's words have no owner (R187). -/
def State.showLine (s : State) (o : Owner) (line : Nat) (m : BitVec 256) : State :=
  match o with
  | .tx _ => (maskWords line m).foldl (fun s w => match s.homes.owner.find w with
      | some gc => s.revoke gc w
      | none => s) s
  | _ => s.disown (maskWords line m)

/-- A locked version becomes the committed one: it lies at the line's own place, and the displaced one takes its slot (R92,
R96). A replay group's write to a line without versions changes it in place (R386). -/
def VLine.commit (v : VLine) (o : Owner) (p : Pending) (kept : Bool) (old : LineData) : VLine :=
  { v with stamp := if kept then p.stamp.getD v.stamp else v.stamp,
           owner := if kept then o else v.owner,
           older := if kept then ⟨v.stamp, old, v.owner, p.slot⟩ :: v.older else v.older,
           pend := v.pend.filter fun q => decide (q ≠ p),
           intent := match o with
             | .tx t => if v.intent = some t then none else v.intent
             | _ => v.intent }

/-- Turns an owner's versions of a stamp into committed ones (R96). -/
def State.install (s : State) (o : Owner) (c : Nat) : State :=
  s.homes.vlines.foldl (fun s lv =>
    match lv.2.pend.find? fun p => decide (p.owner = o) && decide (p.stamp = some c) with
    | none => s
    | some p =>
      let line := lv.1
      let old := memLine s.homes.mem line
      let kept := s.homes.heads.contains (line / 256)
      let s := (s.modVLine line fun v => v.commit o p kept old).showLine o line p.mask
      (s.modHomes fun h => { h.uncollapse (line / 256) with
        mem := h.mem.writeN (line * 256) ((List.range 256).map (lineByte (if kept then p.data else mergeLine p.mask p.data old)))
        poison := if p.mask = BitVec.allOnes 256 then h.poison.filter (· != line) else h.poison }).recode line) s

/-- An engine operation of the core that writes through the record, handed over before `i`, has not ended (R115). -/
def State.enginesBefore (s : State) (gc ctx tb i : Nat) : Bool :=
  (s.core gc).engines.toList.any fun e => e.ops.any fun o =>
    decide (o.2.order < i) && o.2.ctx == ctx && o.2.tbD == tb && decide (o.2.st ≠ .ended)

/-- Swaps base and shadow base of a record, where there is a shadow (R115). -/
def swapShadow (r : BitVec 512) : BitVec 512 :=
  let b := (r.extractLsb' 0 64)
  let sh := (r.extractLsb' 128 64)
  if sh = 0 then r
  else
    let clear : BitVec 512 := r &&& ~~~(BitVec.ofNat 512 ((2 ^ 64 - 1) + ((2 ^ 64 - 1) <<< 128)))
    clear ||| sh.setWidth 512 ||| (b.setWidth 512 <<< 128)

/-- Another publication has locked a line that an owner is to lock. Stamps of a line increase in the order of the locks, and its versions
become visible in that order (R91), so the later lock waits until the earlier commit has completed (DEDUCED, log entry 107). -/
def State.lockedBefore (s : State) (o : Owner) : Bool :=
  s.homes.vlines.any fun lv => (lv.2.pend.any fun p => p.unstamped o) && lv.2.pend.any fun p => p.stamp.isSome

/-- The greatest stamp on the lines that a commit locks (R95); of those that a publication locks on another device it is free (DESIGN
CHOICE, log entry 27). A transaction's are at or below its start stamp (R101). -/
def State.newest (s : State) (o : Owner) (remote : Bool) : Nat × State :=
  let n := s.homes.newest o
  match o, remote with
  | .pub _ _, true => (max n (Config.farNewest s.sched.draw), s.modSched fun c => { c with draw := c.draw + 1 })
  | _, _ => (n, s)

/-- LOCK_COMPLETE: the commit stamp is taken (R95, R112, R115). A doomed or ended transaction commits nothing. -/
def State.lockComplete (s : State) (i : Nat) : State :=
  match s.commits.find i with
  | none => s
  | some k =>
    if k.stamp.isSome || !s.clocked k.die || s.lockedBefore k.owner then s
    else
      let remote := match k.owner with
        | .pub ctx tb => s.homes.farGroups.contains (ctx, tb)
        | _ => k.remote
      let take (s : State) : State :=
        let (n, s) := s.newest k.owner remote
        let c := max ((s.die k.die).mer + 2) (n + 1)
        { s.modHomes fun h => h.stampAll k.owner c with
          commits := s.commits.put i { k with stamp := some c, remote := remote } }
      match k.owner with
      | .tx t =>
        match (s.thread t).view with
        | some v =>
          if v.tx && v.doom == 0 then take s
          else { s.modThread t fun th => { th with hold := none } with commits := s.commits.drop i }
        | none => { s with commits := s.commits.drop i }
      | .pub ctx tb =>
        if s.enginesBefore k.core ctx tb i then s
        else ((take s).modHomes fun h => { h with farGroups := h.farGroups.filter (· != (ctx, tb)) }).modCtx ctx fun c =>
          { c with recs := c.recs.put tb (swapShadow (c.recAt tb)) }
      | _ => take s

/-- With its commit the interval's writes to host memory go out too, and nothing is held any more (R386). -/
def State.sendHeld (s : State) (w : Nat) : State :=
  let cells := ((s.work w).rpl.map (·.heldHost)).getD []
  (s.modHomes fun h => { h with host := cells.foldl (fun m c => m.write c.1 c.2) h.host }).modWork w fun x =>
    { x with rpl := x.rpl.map fun r => { r with held := [], heldHost := [] } }

/-- The lines that an owner's commit of a stamp is to show. -/
def Homes.ownLines (h : Homes) (o : Owner) (c : Nat) : List Nat :=
  (h.vlines.filter fun lv => lv.2.pend.any fun p => decide (p.owner = o) && decide (p.stamp = some c)).map (·.1)

/-- Loads of a transaction that are in flight when it commits read what it wrote, which then stands under the commit's stamp; those of
other lines read under its start stamp as before (R99; DEDUCED, log entry 108). -/
def State.settleLoads (s : State) (t c : Nat) : State :=
  let mine := s.homes.ownLines (.tx t) c
  { s with ops := s.ops.mapVals fun o => match o.view with
      | .tx _ u => if u = t ∧ !o.performed ∧ o.pieces.any (fun p => mine.contains (p.pa / 256)) then { o with view := .snap c } else o
      | _ => o }

/-- COMMIT_COMPLETE: the commit wait is over, and every version becomes visible at once (R96). It waits for lines whose tier is off and
while the committing die relocks (R394, R395), and for copies and replicas of its lines to go (R84, R85, R119). -/
def State.commitComplete (s : State) (i : Nat) : State :=
  match s.commits.find i with
  | none => s
  | some k =>
    match k.stamp with
    | none => s
    | some c =>
      let lines := s.homes.ownLines k.owner c
      if (s.die k.die).mer < c + (if k.remote then 51 else 3) || !s.clocked k.die || !lines.all s.lineAwake then s
      else if lines.any s.copiesLeft then lines.foldl (fun s l => s.startCollapse l) s
      else
        let s := (match k.owner with
          | .tx t => s.settleLoads t c
          | _ => s).install k.owner c
        let s := { s with commits := s.commits.drop i }
        match k.owner with
        | .tx t =>
          (s.dropTxLines t).modThread t fun th =>
            { th with txstamp := BitVec.ofNat 64 c, txwhy := 0, view := none, hold := none }
        | .rpl w => s.sendHeld w
        | _ => s.modThread k.tid fun th => th.land k.tok [(BitVec.ofNat 64 c, .i64)] []

/-- LOCK_COMPLETE (R112). -/
def execLockComplete (commit : Nat) (s : State) : Out := .next (s.lockComplete commit)
/-- COMMIT_COMPLETE (R96). -/
def execCommitComplete (commit : Nat) (s : State) : Out := .next (s.commitComplete commit)

/-! ### The collector (R105, R106) -/

/-- The older versions kept: those down to the newest whose stamp is at or below the low-water stamp (R106). -/
def keepOlder (lw newest : Nat) : List Older → List Older
  | [] => []
  | o :: r => if newest ≤ lw then [] else o :: keepOlder lw o.stamp r

/-- The least meridian of the package. -/
def State.leastMer (s : State) : Nat := (List.range 4).foldl (fun m d => min m (s.die d).mer) (s.die 0).mer

/-- The package low-water stamp (R105). With nothing open it is the least of the dies' meridians, at or below every stamp that
a view may still take (DEDUCED, log entry 86). -/
def State.lowNow (s : State) : Nat :=
  match s.openStamps with
  | [] => s.leastMer
  | v :: r => r.foldl min v

/-- COLLECTOR_RECOMPUTE: the low-water stamp never falls; versions that no view can read are reclaimed and their slots
freed (R105, R106). -/
def State.collect (s : State) (d : Nat) : State :=
  let x := s.die d
  let lw := max x.lw s.lowNow
  let mine := s.homes.vlines.filter fun lv => lineDie lv.1 == d
  let gone := (mine.map fun lv =>
    ((lv.2.older.drop (keepOlder lw lv.2.stamp lv.2.older).length).filterMap (·.slot))).flatten
  let trim (lv : Nat × VLine) : Nat × VLine :=
    if lineDie lv.1 = d then (lv.1, { lv.2 with older := keepOlder lw lv.2.stamp lv.2.older }) else lv
  let s := (s.modHomes fun h => { h with vlines := h.vlines.map trim }).freeSlots d gone
  s.modDie d fun x => { x with lw := lw, lwAt := x.mer,
                               store := x.store.map fun v => { v with counted := v.slots - v.taken.length } }

/-- COLLECTOR_RECOMPUTE (R105). -/
def execCollectorRecompute (die : Nat) (s : State) : Out := .next (s.collect die)

/-! ### Lost for want of a slot (R107) -/

/-- VERSION_STORE_EXHAUSTED: the window of a write that waits for a slot is over: each line that finds none is lost (R107). -/
def State.exhausted (s : State) (i : Nat) : State :=
  match s.ops.find i with
  | none => s
  | some o =>
    match o.window with
    | none => s
    | some w =>
      if o.performed || o.trial || !o.revs.isEmpty || (s.die o.die).mer < w then s
      else match s.perform o with
        | .part a =>
          if a.starved.isEmpty then s
          else
            let lines := (byLine a.starved).map fun l => (l.1 * 256, (0x91 : Cause))
            let a := { a with left := a.left.filter (fun p => !a.starved.contains p), starved := [], lost := a.lost ++ lines }
            (a.settle i o).ackOp i
        | _ => s

/-- VERSION_STORE_EXHAUSTED (R107). -/
def execVersionStoreExhausted (op : Nat) (s : State) : Out := .next (s.exhausted op)

end Sys2Proof.Machine
end

