-- ==== Sys2Proof/Machine/Bins.lean ====
section
/-! DEFINITION. Where threads gather: PC bins, soft barriers, parked collectives, and the bundles they form again
(R288-R299). -/

namespace Sys2Proof.Machine

/-! ### Forming bundles (R288, R295) -/

/-- Sorts threads by thread index. -/
def State.byTig (s : State) (ts : List Nat) : List Nat :=
  ((List.range 64).map fun i => ts.filter fun t => (s.thread t).id.tig == i).flatten

/-- Cuts threads, in ascending thread index, into bundles of at most 16 with at most 4 on a lane (R288, R295). -/
def State.cut (s : State) : List Nat → List Nat → List (List Nat)
  | [], acc => if acc.isEmpty then [] else [acc]
  | t :: r, acc =>
    if acc.length < 16 && decide (s.onLane acc (s.thread t).id.lane < 4) then s.cut r (acc ++ [t])
    else acc :: s.cut r [t]

/-- The slice of a thread (R287). -/
def Thread.slice (th : Thread) : Nat := th.id.lane / 4

/-- Forms bundles of released threads: by place in the code, up to 16 a slice; those of a 64-thread group's two slices
at one place are ganged pairwise (R289, R294, R295). -/
def State.formBundles (s : State) (ts : List Nat) (busy : Nat) : State :=
  let ts := s.byTig ts
  let keys := (ts.map fun t => ((s.thread t).pos.pc, (s.thread t).pos.win)).eraseDups
  keys.foldl (fun s k =>
    let here := ts.filter fun t => decide (((s.thread t).pos.pc, (s.thread t).pos.win) = k)
    let lone := here.filter fun t => (s.thread t).inTrial
    let some' := here.filter fun t => !(s.thread t).inTrial
    let a := s.cut (some'.filter fun t => (s.thread t).slice % 2 = 0) []
    let b := s.cut (some'.filter fun t => (s.thread t).slice % 2 = 1) []
    let s := lone.foldl (fun s t => s.newBundle [t] none busy) s
    let big := match here with
      | t :: _ => (s.groupOf t).size == 64
      | [] => false
    (List.range (max a.length b.length)).foldl (fun s i =>
      let id := s.sched.nextId
      let x := a.getD i []
      let y := b.getD i []
      let s := s.newBundle x none busy
      s.newBundle y (if big && !x.isEmpty then some id else none) busy) s) s

/-! ### PC bins (R290, R291) -/

/-- Bins of a slice. -/
def State.binsOf (s : State) (die core slice : Nat) : List (Nat × Bin) :=
  s.bins.filter fun kv => kv.2.die == die && kv.2.core == core && kv.2.slice == slice

/-- A bin has room for a thread on its lane. -/
def State.binRoom (s : State) (b : Bin) (t : Nat) : Bool :=
  decide (b.tids.length < 16) && decide (s.onLane (b.tids.map (·.1)) (s.thread t).id.lane < 4)

/-- A bin of the slice that a thread opens, where one is empty (R290). -/
def State.openBin (s : State) (t addr : Nat) (coll : Bool) : Option State :=
  let th := s.thread t
  if (s.binsOf th.id.die th.id.core th.slice).length < 8 then
    let i := s.sched.nextId
    let s := s.modSched fun c => { c with nextId := i + 1 }
    some { s with bins := s.bins.put i ⟨th.id.die, th.id.core, th.slice, th.id.group, addr, [(t, (s.die th.id.die).lc)], [], coll⟩ }
  else none

/-- Files a thread under (group, address) as reform files it: it joins a bin with room, or opens an empty bin, or finds none (R290).
One that finds its lane full in a bin of its key waits there for the release, after which it opens a new bin (R291). -/
def State.fileBin (s : State) (t addr : Nat) (coll : Bool) : Option State :=
  let th := s.thread t
  let mine := (s.binsOf th.id.die th.id.core th.slice).filter fun kv =>
    kv.2.group == th.id.group && kv.2.addr == addr && kv.2.coll == coll
  match mine.find? fun kv => s.binRoom kv.2 t with
  | some kv => some { s with bins := s.bins.upd kv.1 fun b => { b with tids := b.tids ++ [(t, (s.die th.id.die).lc)] } }
  | none =>
    match mine.head? with
    | some kv => if coll then s.openBin t addr coll else some { s with bins := s.bins.upd kv.1 fun b => { b with full := b.full ++ [t] } }
    | none => s.openBin t addr coll

/-- Files a thread at the address it stands at; with no bin free it goes on at once, alone (R290). -/
def State.fileReform (s : State) (t : Nat) : State :=
  match s.fileBin t (s.thread t).pos.pc false with
  | some s => s.modThread t fun th => { th with place := .bin }
  | none => s.newBundle [t] none (s.lcOf t)

/-- Releases a bin as one bundle; threads that found their lane full open a new bin (R291). -/
def State.releaseBin (s : State) (i : Nat) : State :=
  match s.bins.find i with
  | none => s
  | some b =>
    let ts := s.byTig (b.tids.map (·.1))
    let s := { s with bins := s.bins.drop i }
    let s := (s.newBundle ts none (s.die b.die).lc).rawEvent (b.die * 64 + b.core) 3
    (s.byTig b.full).foldl (fun s t => s.fileReform t) s

/-- A thread parks at a collective's clause, in a bin or in its context (R296). -/
def State.park (s : State) (t : Nat) : State :=
  let b := (s.thread t).bundle
  let s := (s.leaveBundle t).sync b
  let s := s.modThread t fun th => { th with place := .coll, done := false, hold := none, pos := { th.pos with win := 1 } }
  (s.fileBin t (s.thread t).pos.pc true).getD s

/-- The class and opcode of the word at a place. -/
def Pos.opcode (p : Pos) : Option (Cls × Nat) := (Cls.ofCode (bits p.hdr 25 3)).map fun c => (c, (bits p.word 24 8).toNat)

/-- A thread that stands somewhere a bin does not wait for: in another bin, at a barrier or collective, at a qpop or an
interlocked read, which a waiting read of a future is too (R291). -/
def Thread.elsewhere (th : Thread) : Bool :=
  th.place == .bin || th.place == .coll || th.place == .soft || (match th.hold with
    | some ⟨0xC, _⟩ => th.pos.opcode != some (.copy, 0x12)
    | some ⟨0xB, _⟩ => th.pos.opcode == some (.control, 0x14) || th.pos.opcode == some (.control, 0x15) ||
        th.pos.opcode == some (.memory, 0x42) || th.pos.opcode == some (.lane, 0x7A) || th.pos.opcode == some (.matrix, 0x10)
    | some ⟨_, .token _⟩ => decide (th.stage < 2)
    | _ => false)

/-- The first two release conditions of R291, for a bin filed by reform. -/
def State.binDue (s : State) (b : Bin) : Bool :=
  !b.coll && (decide (b.tids.length ≥ 16) || !b.full.isEmpty ||
    s.threads.all fun kv => !(kv.2.id.group == b.group && kv.2.slice == b.slice) ||
      (b.tids.any fun x => x.1 == kv.1) || kv.2.elsewhere)

/-- The group's team is in replay mode, where nothing is released for its time (R385). -/
def State.groupReplays (s : State) (g : Nat) : Bool := (s.work (s.group g).work).rpl.isSome

/-- The team's threads may be released. -/
def State.goes (s : State) (w : Nat) : Bool := decide ((s.work w).sw = .running)

/-- The third release condition: the bin's oldest occupant has waited 64 lane cycles (R291). -/
def State.binOld (s : State) (b : Bin) : Bool :=
  !b.coll && s.goes (s.group b.group).work && !s.groupReplays b.group && b.tids.any fun x => decide (x.2 + 64 ≤ (s.die b.die).lc)

/-- Releases the bins of a die for which a condition of R291 holds. What is due is decided for the cycle as a whole, before anything is
released. -/
def State.releaseBins (s : State) (die : Nat) : State :=
  let bins := s.bins.filter fun kv => kv.2.die == die && ((s.goes (s.group kv.2.group).work && s.binDue kv.2) || s.binOld kv.2)
  bins.foldl (fun r kv =>
    let r := r.releaseBin kv.1
    if s.binOld kv.2 then r.rawEvent (kv.2.die * 64 + kv.2.core) 4 else r) s

/-- BIN_TIMEOUT: at the end of a lane cycle the oldest occupant has waited 64 lane cycles; whatever else is due then goes with it
(R291). -/
def State.binTimeout (s : State) (i : Nat) : State :=
  match s.bins.find i with
  | none => s
  | some b => if s.sched.issue.isEmpty && s.binOld b then s.releaseBins b.die else s

/-- BIN_TIMEOUT (R291). -/
def execBinTimeout (bin : Nat) (s : State) : Out := .next (s.binTimeout bin)

/-! ### Soft barriers (R295) -/

/-- Threads of a group by thread index. -/
def State.tidAt (s : State) (g tig : Nat) : Option Nat :=
  (s.threads.find? fun kv => kv.2.id.group == g && kv.2.id.tig == tig).map (·.1)

/-- Releases the soft barrier: the arrived threads form bundles, and the set empties (R295). -/
def State.releaseSoft (s : State) (g : Nat) : State :=
  let ts := (s.group g).softA.filterMap fun a => s.tidAt g a.1
  let s := s.modGroup g fun x => { x with softA := [] }
  match ts with
  | t :: _ => (s.formBundles ts (s.lcOf t)).rawEvent (s.thread t).gcore 5
  | [] => s

/-- The first two release conditions of R295. -/
def State.softDue (s : State) (g : Nat) : Bool :=
  let x := s.group g
  let live := (s.groupLive g).map fun t => (s.thread t).id.tig
  !x.softA.isEmpty && (decide (x.softA.length ≥ x.thresh) ||
    (x.enrolled.filter fun i => live.contains i).all fun i => x.softA.any fun a => a.1 == i)

/-- SOFT_BARRIER_TIMEOUT: the oldest arrival has waited 1,024 lane cycles (R295). -/
def State.softTimeout (s : State) (g : Nat) : State :=
  let lc := match s.groupLive g with
    | t :: _ => s.lcOf t
    | [] => 0
  if !s.groupReplays g && (s.group g).softA.any fun a => decide (a.2 + 1024 ≤ lc) then s.releaseSoft g else s

/-- SOFT_BARRIER_TIMEOUT (R295). -/
def execSoftBarrierTimeout (group : Nat) (s : State) : Out := .next (s.softTimeout group)

/-! ### Collectives (R296-R299) -/

/-- Whether a clause's first word is a group collective (R296). -/
def isCollective (c : Cls) (w : Word32) : Bool :=
  let op := (bits w 24 8).toNat
  match c with
  | .control => (decide (0x20 ≤ op) && decide (op ≤ 0x26)) || (decide (0x28 ≤ op) && decide (op ≤ 0x2E))
  | .matrix => op == 0 || op == 1 || (decide (0x10 ≤ op) && decide (op ≤ 0x13))
  | .lane => op == 0x7A
  | _ => false

/-- When every live thread of a group is parked: at one clause, it issues (R297); at several, each takes 0x60
(R298). The collective words have not been decoded then, and 0x60 stands before a cause that their decoding would give, since nothing
issues (DEDUCED, log entry 109). -/
def State.collective (s : State) (g : Nat) : State :=
  let ts := s.groupLive g
  match ts with
  | [] => s
  | t :: _ =>
    if ts.all fun u => (s.thread u).place == .coll then
      let same := ts.all fun u => (s.thread u).pos.pc == (s.thread t).pos.pc
      let bs := s.bins.filter fun kv => kv.2.coll && kv.2.group == g
      let s := ts.foldl (fun s u => s.leaveBins u) s
      let s := bs.foldl (fun s kv => s.rawEvent (kv.2.die * 64 + kv.2.core) 3) s
      if same then s.formBundles ts (s.lcOf t)
      else ts.foldl (fun s u => (s.modThread u fun th => { th with place := .running }).deliver u 0x60 0) s
    else s

/-! ### Shells of words after which the thread does not simply go on -/

/-- Runs a word after which `fin` disposes of the thread (exit, reform, sbar.join and the like). One that ends the thread takes its
deferred causes whether it is in its handler or not (R88, R364). -/
def runEnd (sh : Shell) (body : Nat → M Bool) (fin : Nat → State → State) (s : State) : State :=
  let t := s.sched.cur
  let th := s.thread t
  match th.trialCheck sh with
  | some c => s.barred t (th.active sh.ng) body c
  | none =>
    if th.active sh.ng then
      match if sh.rel then s.nextDeferred t else none with
      | some (c, v, s') => s'.deliver t c v
      | none =>
      match (body t).run s with
      | .ok true s' => if s'.overfull th.id.work then s.endInterval th.id.work
                       else
                         let n := (s'.thread t).retry
                         fin t (((s'.charge t th.pos (oneBeat.again n) sh.idle th.inTrial true).mismatches th.gcore n 0).retire t th.pos)
      | .ok false s' => if s'.overfull th.id.work then s.endInterval th.id.work
                        else s'.complete t sh oneBeat th.pos th.inTrial true false
      | .error (.hold h) s' => s.holdWord s' t h
      | .error (.trap c v) s' => (s.spent s' t c).fail t c v
    else s.complete t sh oneBeat th.pos th.inTrial false false

/-- The thread leaves its bundle at the header after its clause. -/
def State.stepOut (s : State) (t : Nat) : State :=
  let b := (s.thread t).bundle
  let s := s.modThread t fun th => (th.goTo th.nextHeader)
  let s := s.modThread t fun th => { th.newWord with done := false, hold := none }
  (s.leaveBundle t).sync b

/-- The marker of a collective's verdict in a thread's stage. -/
def verdictBase : Nat := 0x100

/-- The group's threads that have arrived at the collective a thread stands at and have not gone past it, in ascending thread index
(R297); a thread in trial mode is a group of one (R299, R315). -/
def State.arrivals (s : State) (t : Nat) : List Nat :=
  let th := s.thread t
  if th.inTrial then [t]
  else (s.groupLive th.id.group).filter fun u =>
    let x := s.thread u
    x.place == .running && x.pos.pc == th.pos.pc && x.pos.win == th.pos.win && !x.done && !x.part

/-- The participants: those whose guard holds (R297). -/
def State.partners (s : State) (t : Nat) (ng : Bool) : List Nat := (s.arrivals t).filter fun u => (s.thread u).active ng

/-- Gathers what a collective reads of each participant; one that takes a cause of its own drops out. -/
def gatherAll {α : Type} (t : Nat) (gather : Nat → M α) (ps : List Nat) : M (List (Nat × α)) :=
  ps.filterMapM fun u => do
    let s0 ← get
    match (gather u).run s0 with
    | .ok a s1 => do set s1; return some (u, a)
    | .error (.hold h) s1 => do set s1; throw (.hold h)
    | .error (.trap c v) _ => if u = t then throw (.trap c v) else return none

/-- Threads of a collective have had it performed: they go on, or take the verdict `k`. -/
def State.marked (s : State) (ts : List Nat) (k : Nat) : State :=
  ts.foldl (fun s u => s.modThread u fun x => { x with part := true, stage := k }) s

/-- A collective's work for its group, at thread `t`: gathers every participant's operands and performs for all at once, in
ascending thread index. A rule that the group's values break together is every participant's cause; with `whole` it is that of every
thread that has arrived, and none goes on before the others (R203, R205). A participant whose own operand takes a cause is not passed,
and takes it at its own word. -/
def collWork {α : Type} (whole ng : Bool) (gather : Nat → M α) (perform : List (Nat × α) → M Unit) (t : Nat) : M Unit := do
  let s0 ← get
  let ps := s0.partners t ng
  let got ← gatherAll t gather ps
  let ok := got.map (·.1)
  let ts := if whole then (s0.arrivals t).filter fun u => !ps.contains u || ok.contains u else ok
  let s1 ← get
  match (perform got).run s1 with
  | .ok _ s2 => set (s2.marked ts 0)
  | .error (.hold h) s2 => do set s2; throw (.hold h)
  | .error (.trap c _) _ => set (s1.marked (if whole then s0.arrivals t else ok) (verdictBase + c.toNat))

/-- A thread that has had its collective performed goes past it, or takes the verdict. -/
def State.pastColl (s : State) (t : Nat) (sh : Shell) (p : Pos) : State :=
  let th := s.thread t
  if th.stage ≥ verdictBase then s.fail t (BitVec.ofNat 8 (th.stage - verdictBase)) 0
  else s.complete t sh oneBeat p th.inTrial (th.active sh.ng) false

/-- Runs a collective's word for one thread. The first participant to step performs for all; the others then only go on (R297,
R310). -/
def runColl {α : Type} (whole : Bool) (sh : Shell) (gather : Nat → M α) (perform : List (Nat × α) → M Unit) (s : State) : State :=
  let t := s.sched.cur
  let th := s.thread t
  let work := collWork whole sh.ng gather perform
  match th.trialCheck sh with
  | some c => s.barred t (th.active sh.ng) work c
  | none =>
    if th.part then s.pastColl t sh th.pos
    else if !th.active sh.ng && !(whole && !(s.partners t sh.ng).isEmpty) then s.complete t sh oneBeat th.pos th.inTrial false false
    else
      match (work t).run s with
      | .ok _ s' => if s'.overfull th.id.work then s.endInterval th.id.work else s'.pastColl t sh th.pos
      | .error (.hold h) s' => s.holdWord s' t h
      | .error (.trap c v) s' => (s.spent s' t c).fail t c v

end Sys2Proof.Machine
end

