-- ==== Sys2Proof/Machine/Control.lean ====
section
/-! DEFINITION. The control words but for the trial words: branches, exit, reform, barriers and the group collectives
(R300-R310). -/

namespace Sys2Proof.Machine

/-! ### Branches (R303-R305) -/

/-- Shell of a B word. -/
def shB (ext : Nat) : Shell := ⟨ext, false, 0, false, [], false⟩

/-- The target of an offset counted from the word at the thread's place: an address, or in trial mode a word offset
(R304, R318). -/
def Thread.target (th : Thread) (off : BitVec 19) : Int :=
  if th.inTrial then (th.trialOff : Int) + off.toInt else ((th.pos.pc + 4 * th.pos.win : Nat) : Int) + 4 * off.toInt

/-- Transfers control: a trial's target outside the candidate takes 0x66 (R318). -/
def transfer (t : Nat) (x : Int) (extra : Nat) : M (Cost × Bool) := do
  let th ← getT t
  let len := (th.trial.map (·.len)).getD 0
  if th.inTrial then
    if x < 0 ∨ x ≥ (len : Int) then fault 0x66
    modT t fun th => th.goTo x.toNat
  else modT t fun th => th.goTo (x % 2 ^ 64).toNat
  return (⟨1, extra⟩, true)

/-- The condition of br and call (R304). -/
def condHolds (t : Nat) (p : PReg) (c : Cond) : M Bool := do
  match c with
  | .always => return true
  | c => return Cond.holds c (← readPred t p)

/-- br (R304). -/
def brBody (p : PReg) (c : Cond) (off : BitVec 19) (t : Nat) : M (Cost × Bool) := do
  if ← condHolds t p c then transfer t ((← getT t).target off) 2 else return (oneBeat, false)

/-- br3 (R304). -/
def br3Body (p : PReg) (oT oF oU : BitVec 19) (t : Nat) : M (Cost × Bool) := do
  let off := match ← readPred t p with
    | .T => oT | .F => oF | .U => oU
  transfer t ((← getT t).target off) 2

/-- call (R304): the link is pushed when it is taken. -/
def callBody (p : PReg) (c : Cond) (off : BitVec 19) (t : Nat) : M (Cost × Bool) := do
  if ← condHolds t p c then
    let th ← getT t
    let r ← transfer t (th.target off) 2
    writeVals t .q [(BitVec.ofNat 64 th.nextHeader, .i64)] 1
    return r
  else return (oneBeat, false)

/-- brt (R304). -/
def brtBody (a : Src) (offs : List (BitVec 19)) (t : Nat) : M (Cost × Bool) := do
  let i ← readUnsigned t a
  match offs[i]? with
  | none => fault 0x61
  | some off => transfer t ((← getT t).target off) 2

/-- Goes to the target a register gives (R304, R318). -/
def jumpTo (t x : Nat) : M (Cost × Bool) := do
  if !(← getT t).inTrial && x % 4 != 0 then fault 0x64
  transfer t x 6

/-- jmp (R304). -/
def jmpBody (a : Src) (t : Nat) : M (Cost × Bool) := do jumpTo t (← readUnsigned t a)

/-- ret (R304): only I64 is a link. -/
def retBody (a : Src) (t : Nat) : M (Cost × Bool) := do
  let v ← readSrc t .single false a
  if v.imm || v.kind ≠ .i64 then fault 0x2D
  jumpTo t v.val.toNat

/-- br (R304). -/
def execBr (p : PReg) (c : Cond) (off : BitVec 19) (s : State) : Out := .next (runWord (shB 0) (brBody p c off) s)
/-- br3 (R304). -/
def execBr3 (p : PReg) (offT offF offU : BitVec 19) (s : State) : Out :=
  .next (runWord (shB 2) (br3Body p offT offF offU) s)
/-- call (R304). -/
def execCall (p : PReg) (c : Cond) (off : BitVec 19) (s : State) : Out := .next (runWord (shB 0) (callBody p c off) s)
/-- brt (R304). -/
def execBrt (c : RCtl) (a : Src) (offs : List (BitVec 19)) (s : State) : Out :=
  .next (runWord { shR c [a] with ext := litWords [a] + offs.length } (brtBody a offs) s)
/-- jmp (R304). -/
def execJmp (c : RCtl) (a : Src) (s : State) : Out := .next (runWord (shR c [a]) (jmpBody a) s)
/-- ret (R304). -/
def execRet (c : RCtl) (a : Src) (s : State) : Out := .next (runWord (shR c [a]) (retBody a) s)
/-- nop (R304). -/
def execNop (c : RCtl) (s : State) : Out := .next (runWord (shR c []) (fun _ => plain (pure ())) s)

/-- exit (R304): the thread ends once its stores have drained; a deferred cause is taken here (R88). -/
def execExitT (c : RCtl) (s : State) : Out :=
  .next (runEnd (shR c []).ban.relPoint (fun t => do waitStores t; return true) (fun t s => s.endThread t) s)

/-! ### reform and soft barriers (R290, R295, R306, R307) -/

/-- reform (R290, R293). -/
def execReform (c : RCtl) (s : State) : Out :=
  .next (runEnd (shR c []) (fun t => do return !(← getT t).inTrial) (fun t s => (s.stepOut t).fileReform t) s)

/-- sbar.enrol (R307). -/
def enrolBody (m : SbarMode) (t : Nat) : M (Cost × Bool) := plain do
  let th ← getT t
  let i := th.id.tig
  let join (g : Group) : Group := { g with enrolled := if g.enrolled.contains i then g.enrolled else g.enrolled ++ [i] }
  modify fun s => s.modGroup th.id.group fun g =>
    match m with
    | .enrolSet h => { join g with thresh := h.toNat }
    | .keep => join g
    | .leave => { g with enrolled := g.enrolled.filter (· != i), softA := g.softA.filter fun a => a.1 != i }

/-- sbar.enrol (R307). -/
def execSbarEnrol (st : Stall) (m : SbarMode) (s : State) : Out := .next (runWord (shT st []).ban (enrolBody m) s)

/-- A thread of E arrives and is held (R295). -/
def State.arriveSoft (s : State) (t : Nat) : State :=
  let s := s.stepOut t
  let th := s.thread t
  let s := s.modThread t fun th => { th with place := .soft }
  s.modGroup th.id.group fun g => { g with softA := g.softA ++ [(th.id.tig, s.lcOf t)] }

/-- sbar.join (R295): a thread outside E passes. -/
def execSbarJoin (st : Stall) (s : State) : Out :=
  .next (runEnd (shT st []).ban
    (fun t => do let s ← get; return (s.groupOf t).enrolled.contains (s.thread t).id.tig)
    (fun t s => s.arriveSoft t) s)

/-! ### Named barriers (R300, R301, R308) -/

/-- A barrier at its grant. -/
def Barrier.blank : Barrier := ⟨none, 0, 0, []⟩

/-- Barrier `n` of the thread's team. -/
def State.bar (s : State) (t n : Nat) : Barrier := (s.workOf t).bars.getD n Barrier.blank

/-- The checks of R308, in order. -/
def barChecks (t n : Nat) (a : Option Src) : M Nat := do
  let s ← get
  if n ≥ (s.workOf t).kernel.nb then fault 0x62
  match a with
  | none => return 0
  | some a =>
    let c ← readUnsigned t a
    if c = 0 ∨ c > (s.workOf t).kernel.team then fault 0x63
    match (s.bar t n).exp with
    | some e => if e ≠ c then fault 0x63
    | none => pure ()
    return c

/-- Lower threads of the bundle that have not arrived come first (R301). -/
def arriveTurn (t : Nat) : M Unit := do
  let s ← get
  let tig := (s.thread t).id.tig
  if (s.mates t).any fun u =>
      let x := s.thread u
      decide (x.id.tig < tig) && !x.done && x.pos.g && x.stage == 0 then wait 0xB .poll

/-- The generations that completed within the 60 lane cycles that a held thread may still wait (R308). -/
def Barrier.lately (b : Barrier) (lc : Nat) : List (Nat × Nat × Nat) := b.ends.filter fun e => decide (lc < e.2.1 + 60)

/-- An arrival (R300): after the thread's stores. What its source breaks of the decode rules comes before its own causes (R43). -/
def arrive (t n : Nat) (a : Src) : M Unit := do
  srcRules t false [a]
  let c ← barChecks t n (some a)
  arriveTurn t
  waitStores t
  let s ← get
  let b := s.bar t n
  let full := decide (b.arr + 1 ≥ c)
  let b' : Barrier := if full then ⟨none, 0, b.gen + 1, (b.gen, s.lcOf t, (s.thread t).gcore) :: b.lately (s.lcOf t)⟩
    else ⟨some c, b.arr + 1, b.gen, b.ends⟩
  set (s.modWork (s.thread t).id.work fun w => { w with bars := w.bars.put n b' })
  modT t fun th => { th with arrived := (n, b.gen) :: th.arrived.filter fun x => x.1 != n }

/-- The lane cycle from which a thread held for a generation goes on: 8 after it completed on its core, 60 after it completed on the
other core of a pair (R308). -/
def Barrier.resumes (b : Barrier) (g gc : Nat) : Nat :=
  match b.ends.find? fun e => e.1 == g with
  | some (_, lc, c) => lc + (if c = gc then 8 else 60)
  | none => 0

/-- Holds until the generation the thread last arrived in has completed, or, where it never arrived, the one in
progress (R300), and a thread that was held until it resumes (R308). The release of a team on a twin pair performs an acquire
(R268). -/
def barWaitFor (t n : Nat) : M Unit := do
  let s ← get
  let th := s.thread t
  let b := s.bar t n
  let g := if th.stage ≥ 2 then th.stage - 2
    else match th.arrived.find? fun x => x.1 == n with
      | some x => x.2
      | none => b.gen
  if b.gen ≤ g then
    if th.stage < 2 then modT t fun th => { th with stage := g + 2 }
    wait 0xB .poll
  if th.stage ≥ 2 && decide (s.lcOf t < b.resumes g th.gcore) then wait 0xB .poll
  if (s.work th.id.work).cores.length > 1 then set (s.acquire th.gcore)

/-- bar.arrive (R308). -/
def execBarArrive (st : Stall) (a : Src) (n : BitVec 7) (s : State) : Out :=
  .next (runWord (shT st [a]).ban (fun t => plain (arrive t n.toNat a)) s)

/-- bar.wait (R308). -/
def execBarWait (st : Stall) (n : BitVec 7) (s : State) : Out :=
  .next (runWord (shT st []).ban (fun t => plain do let _ ← barChecks t n.toNat none; barWaitFor t n.toNat) s)

/-- bar.sync (R308): an arrival, then a wait. -/
def barSyncBody (a : Src) (n : Nat) (t : Nat) : M (Cost × Bool) := plain do
  if (← getT t).stage = 0 then
    arrive t n a
    modT t fun th => { th with stage := 1 }
  barWaitFor t n

/-- bar.sync (R308). -/
def execBarSync (st : Stall) (a : Src) (n : BitVec 7) (s : State) : Out :=
  .next (runWord (shT st [a]).ban (barSyncBody a n.toNat) s)

/-! ### Group collectives (R309, R310) -/

/-- Beats until a collective's result reaches its readers: 4 more where the group spans two slices (R309). -/
def State.collBeats (s : State) (u L : Nat) : Nat :=
  if (s.groupOf u).size = 64 && !(s.thread u).inTrial then L + 4 else L

/-- Gives a thread a collective's result of latency `L`, which interlocks (R309). -/
def giveResult (u : Nat) (d : Dst) (v : Word64) (k : Kind) (L : Nat) : M Unit := do
  later false u d none [(v, k)] ((← get).collBeats u L)

/-- Copies a value with its kind, and with them its residue, to a thread's destination (R309, R310). -/
def giveVal (u : Nat) (d : Dst) (v : Val) : M Unit := giveResult u d v.val v.kind 4

/-- A value source and an index source of a collective (R309). -/
def gatherTwo (a b : Src) (u : Nat) : M (Val × Nat) := do
  srcRules u false [a, b]
  let v ← readSrc u .single true a
  let i ← readUnsigned u b
  return (v, i)

/-- Thread index within the group for a collective; a thread in trial mode is a group of one (R299, R315). -/
def State.ctig (s : State) (u : Nat) : Nat := (s.thread u).id.tig

/-- shfl (R310): `f` gives the thread read from, where there is one. -/
def shflPerform (f : Nat → Nat → Option Nat) (d : Dst) (ps : List (Nat × (Val × Nat))) : M Unit := do
  let s ← get
  ps.forM fun p =>
    let j := f (s.ctig p.1) p.2.2
    let size := (s.groupOf p.1).size
    let src : Option Val := match j with
      | some j => if j < size then (ps.find? fun q => s.ctig q.1 == j).map (fun q => q.2.1) else none
      | none => none
    giveVal p.1 d (src.getD p.2.1)

/-- shfl.idx (R310). -/
def execShflIdx (c : RCtl) (d : Dst) (a b : Src) (s : State) : Out :=
  .next (runColl false (shR c [a, b]) (gatherTwo a b) (shflPerform (fun _ b => some b) d) s)
/-- shfl.up (R310). -/
def execShflUp (c : RCtl) (d : Dst) (a b : Src) (s : State) : Out :=
  .next (runColl false (shR c [a, b]) (gatherTwo a b) (shflPerform (fun t b => if b > t then none else some (t - b)) d) s)
/-- shfl.down (R310). -/
def execShflDown (c : RCtl) (d : Dst) (a b : Src) (s : State) : Out :=
  .next (runColl false (shR c [a, b]) (gatherTwo a b) (shflPerform (fun t b => some (t + b)) d) s)
/-- shfl.xor (R310). -/
def execShflXor (c : RCtl) (d : Dst) (a b : Src) (s : State) : Out :=
  .next (runColl false (shR c [a, b]) (gatherTwo a b) (shflPerform (fun t b => some (t ^^^ b)) d) s)

/-- vote.all's result (R310). -/
def voteAllOf (vs : List Tri) : Tri := if vs.any (· == .F) then .F else if vs.all (· == .T) then .T else .U
/-- vote.any's result (R310). -/
def voteAnyOf (vs : List Tri) : Tri := if vs.any (· == .T) then .T else if vs.all (· == .F) then .F else .U

/-- A vote into a predicate. -/
def votePerform (f : List Tri → Tri) (p : PReg) (ps : List (Nat × Tri)) : M Unit :=
  ps.forM fun u => do later false u.1 .none (some (p, f (ps.map (·.2)))) [] ((← get).collBeats u.1 2)

/-- vote.ballot's mask (R310). -/
def ballotPerform (d : Dst) (ps : List (Nat × Tri)) : M Unit := do
  let s ← get
  let m := ((ps.filter fun q => q.2 == .T).map fun q => 2 ^ s.ctig q.1).sum
  ps.forM fun u => giveResult u.1 d (BitVec.ofNat 64 m) .i64 2

/-- A vote's operand (R309). -/
def voteOperand (x : PReg) (u : Nat) : M Tri := do
  predRules u [x]
  readPred u x

/-- vote.all (R310). -/
def execVoteAll (c : RCtl) (p x : PReg) (s : State) : Out :=
  .next (runColl false (shR c []) (voteOperand x) (votePerform voteAllOf p) s)
/-- vote.any (R310). -/
def execVoteAny (c : RCtl) (p x : PReg) (s : State) : Out :=
  .next (runColl false (shR c []) (voteOperand x) (votePerform voteAnyOf p) s)
/-- vote.ballot (R310). -/
def execVoteBallot (c : RCtl) (d : Dst) (x : PReg) (s : State) : Out :=
  .next (runColl false (shR c []) (voteOperand x) (ballotPerform d) s)

/-- How gred combines values (R310): on `w`-bit integers, on floating codes of a family where it has such a form, and
whether F kinds are read as bits. -/
structure GredOp where
  int : Nat → Nat → Nat → Nat
  flt : Num.FFmt → Nat → Nat → Nat
  bits : Bool

/-- RN of the sum of two codes (R310). -/
def faddRn (f : Num.FFmt) (x y : Nat) : Nat :=
  Num.encodeF f .rn (Num.add .rn (Num.decodeF f x) (Num.decodeF f y))

/-- A gred value's class: integer (and width), or a family. -/
def Val.isInt (v : Val) : Bool := v.imm || v.kind == .i32 || v.kind == .i64

/-- gred's fold over the participants (R310). -/
def gredPerform (op : GredOp) (d : Dst) (ps : List (Nat × Val)) : M Unit := do
  let vs := ps.map (·.2)
  let give (v : Nat) (k : Kind) : M Unit :=
    ps.forM fun u => giveResult u.1 d (BitVec.ofNat 64 v) k (if vs.all Val.isInt then 6 else 12)
  let run (f : Nat → Nat → Nat) (xs : List Nat) : Nat :=
    match xs with
    | [] => 0
    | x :: r => r.foldl f x
  if vs.all Val.isInt then
    let w := if vs.any Val.is64 then 64 else 32
    give (run (op.int w) (vs.map fun v => v.word w false) % 2 ^ w) (if w = 64 then .i64 else .i32)
  else if vs.all fun v => !v.imm && v.kind == .f32 then
    if op.bits then give (run (op.int 32) (vs.map fun v => v.val.toNat % 2 ^ 32)) .i32
    else give (run (op.flt Num.f32) (vs.map fun v => v.val.toNat % 2 ^ 32)) .f32
  else if vs.all fun v => !v.imm && v.kind == .f64 then
    if op.bits then give (run (op.int 64) (vs.map fun v => v.val.toNat)) .i64
    else give (run (op.flt Num.f64) (vs.map fun v => v.val.toNat)) .f64
  else fault 0x2D

/-- gred's operand (R309). -/
def gredOperand (a : Src) (u : Nat) : M Val := readSrc u .single false a

/-- The shell of gred. -/
def runGred (op : GredOp) (c : RCtl) (d : Dst) (a : Src) (s : State) : Out :=
  .next (runColl false (shR c [a]) (gredOperand a) (gredPerform op d) s)

/-- gred.add (R310). -/
def execGredAdd (c : RCtl) (d : Dst) (a : Src) (s : State) : Out :=
  runGred ⟨fun w x y => (x + y) % 2 ^ w, faddRn, false⟩ c d a s
/-- gred.min (R310). -/
def execGredMin (c : RCtl) (d : Dst) (a : Src) (s : State) : Out :=
  runGred ⟨fun w x y => if Num.signedOf w y < Num.signedOf w x then y else x, Num.pmin, false⟩ c d a s
/-- gred.max (R310). -/
def execGredMax (c : RCtl) (d : Dst) (a : Src) (s : State) : Out :=
  runGred ⟨fun w x y => if Num.signedOf w x < Num.signedOf w y then y else x, Num.pmax, false⟩ c d a s
/-- gred.and (R310). -/
def execGredAnd (c : RCtl) (d : Dst) (a : Src) (s : State) : Out :=
  runGred ⟨fun _ x y => x &&& y, fun _ x _ => x, true⟩ c d a s
/-- gred.or (R310). -/
def execGredOr (c : RCtl) (d : Dst) (a : Src) (s : State) : Out :=
  runGred ⟨fun _ x y => x ||| y, fun _ x _ => x, true⟩ c d a s
/-- gred.xor (R310). -/
def execGredXor (c : RCtl) (d : Dst) (a : Src) (s : State) : Out :=
  runGred ⟨fun _ x y => x ^^^ y, fun _ x _ => x, true⟩ c d a s

/-- bcast (R310): the index is the lowest participant's; where it names no participant, the lowest one's value. -/
def bcastPerform (d : Dst) (ps : List (Nat × (Val × Nat))) : M Unit := do
  let s ← get
  match ps with
  | [] => pure ()
  | p :: _ =>
    let v := ((ps.find? fun q => s.ctig q.1 == p.2.2).map (·.2.1)).getD p.2.1
    ps.forM fun u => giveVal u.1 d v

/-- bcast (R310). -/
def execBcast (c : RCtl) (d : Dst) (a b : Src) (s : State) : Out :=
  .next (runColl false (shR c [a, b]) (gatherTwo a b) (bcastPerform d) s)

end Sys2Proof.Machine
end

