-- ==== Sys2Proof/Machine/LaneInt.lean ====
section
/-! DEFINITION. Integer, bit, shift, compare and predicate words, selection and moves of the lane class
(R209, R210, R217-R226). -/

namespace Sys2Proof.Machine

/-- The result kind of an integer form (R212). -/
def intKind (w : Nat) : Kind := if w = 64 then .i64 else .i32

/-- The width of an integer form from its counted sources (R212). -/
def intWidth (vs : List Val) : Nat := if vs.any Val.is64 then 64 else 32

/-- A binary integer form (R212, R218): `f w a b` on the `w`-bit words. -/
def intBin (bits un : Bool) (f : Nat → Nat → Nat → Nat) (L : Nat) (d : Dst) (a b : Src) (t : Nat) : M (Cost × Bool) :=
  plain do
    let (x, y) ← readInt2 t bits a b
    let w := intWidth [x, y]
    writeVal t d (f w (x.word w un) (y.word w un) % 2 ^ w) (intKind w) L

/-- A unary integer form (R218). -/
def intUn (bits : Bool) (f : Nat → Nat → Nat) (L : Nat) (d : Dst) (a : Src) (t : Nat) : M (Cost × Bool) :=
  plain do
    let x ← readInt t bits a
    let w := intWidth [x]
    writeVal t d (f w (x.word w false) % 2 ^ w) (intKind w) L

/-- A division form (R219, R215): cause 0x40 on a zero divisor, an interlocked result otherwise. -/
def intDiv (un : Bool) (f : Nat → Nat → Nat → Nat) (d : Dst) (a b : Src) (t : Nat) : M (Cost × Bool) :=
  plain do
    let (x, y) ← readInt2 t false a b
    let w := intWidth [x, y]
    if y.word w un = 0 then fault 0x40
    iterate t d none [(BitVec.ofNat 64 (f w (x.word w un) (y.word w un)), intKind w)] (if w = 64 then 34 else 18)

/-- A shift form by a register count; the width is a's alone (R220), and F kinds are read as bits (R212, R218). -/
def intShift (f : Nat → Nat → Nat → Nat) (d : Dst) (a b : Src) (t : Nat) : M (Cost × Bool) :=
  plain do
    let (x, n) ← readInt2 t true a b
    let w := intWidth [x]
    writeVal t d (f w (x.word w false) n.val.toNat % 2 ^ w) (intKind w) 1

/-- A form with an immediate as b, the width from a (R221). -/
def intImm (bits : Bool) (f : Nat → Nat → Nat → Nat) (imm : Nat → Nat) (d : Dst) (a : Src) (t : Nat) : M (Cost × Bool) :=
  plain do
    let x ← readInt t bits a
    let w := intWidth [x]
    writeVal t d (f w (x.word w false) (imm w) % 2 ^ w) (intKind w) 1

/-- An integer compare into a predicate (R223). -/
def intCmp (un : Bool) (f : Nat → Nat → Nat → Bool) (p : PReg) (a b : Src) (t : Nat) : M (Cost × Bool) :=
  plain do
    let (x, y) ← readInt2 t false a b
    let w := intWidth [x, y]
    writePred t p (Tri.ofBool (f w (x.word w un) (y.word w un))) 1

/-! ### The functions of R218-R222 on words -/

/-- Signed reading. -/
def sg (w a : Nat) : Int := Num.signedOf w a
/-- The word of an integer, mod 2^w. -/
def wr (w : Nat) (i : Int) : Nat := Num.wrapInt w i

/-- Addition mod 2^w. -/
def fAdd (w a b : Nat) : Nat := (a + b) % 2 ^ w
/-- Subtraction mod 2^w. -/
def fSub (w a b : Nat) : Nat := (a + (2 ^ w - b % 2 ^ w)) % 2 ^ w
/-- Multiplication mod 2^w. -/
def fMul (w a b : Nat) : Nat := a * b % 2 ^ w
/-- High half of the signed product. -/
def fMulHi (w a b : Nat) : Nat := wr w (Int.fdiv (sg w a * sg w b) (2 ^ w))
/-- High half of the unsigned product. -/
def fMulHiUn (w a b : Nat) : Nat := a * b / 2 ^ w
/-- Quotient toward zero. -/
def fDiv (w a b : Nat) : Nat := wr w (Int.tdiv (sg w a) (sg w b))
/-- Unsigned quotient. -/
def fDivUn (_ a b : Nat) : Nat := a / b
/-- Remainder with the sign of a. -/
def fRem (w a b : Nat) : Nat := wr w (Int.tmod (sg w a) (sg w b))
/-- Unsigned remainder. -/
def fRemUn (_ a b : Nat) : Nat := a % b
/-- Signed minimum. -/
def fMin (w a b : Nat) : Nat := if sg w b < sg w a then b else a
/-- Unsigned minimum. -/
def fMinUn (_ a b : Nat) : Nat := min a b
/-- Signed maximum. -/
def fMax (w a b : Nat) : Nat := if sg w a < sg w b then b else a
/-- Unsigned maximum. -/
def fMaxUn (_ a b : Nat) : Nat := max a b
/-- Absolute value mod 2^w. -/
def fAbs (w a : Nat) : Nat := if sg w a < 0 then fSub w 0 a else a
/-- Negation mod 2^w. -/
def fNeg (w a : Nat) : Nat := fSub w 0 a
/-- Complement. -/
def fNot (w a : Nat) : Nat := 2 ^ w - 1 - a % 2 ^ w
/-- Left shift; 0 from w on. -/
def fShl (w a n : Nat) : Nat := if n ≥ w then 0 else a <<< n % 2 ^ w
/-- Logical right shift; 0 from w on. -/
def fShr (w a n : Nat) : Nat := if n ≥ w then 0 else a >>> n
/-- Arithmetic right shift; all sign bits from w on. -/
def fSar (w a n : Nat) : Nat := wr w (Int.fdiv (sg w a) (2 ^ min n w))
/-- Rotate left by n mod w. -/
def fRotl (w a n : Nat) : Nat := (a <<< (n % w)) % 2 ^ w + a >>> (w - n % w)
/-- Number of 1 bits below w. -/
def fPopc (w a : Nat) : Nat := (List.range w).countP fun i => a.testBit i
/-- Number of 0 bits above the highest 1 bit. -/
def fClz (w a : Nat) : Nat := if a = 0 then w else w - 1 - Nat.log2 a
/-- Bit i moved to bit w - 1 - i. -/
def fBrev (w a : Nat) : Nat := (List.range w).foldl (fun r i => 2 * r + (if a.testBit i then 1 else 0)) 0
/-- Bits [pos+len-1 : pos], zero-extended (R222). -/
def fBfx (w a b c : Nat) : Nat := (a % 2 ^ w) >>> (b % 64) % 2 ^ min (c % 128) 64
/-- Bits from pos replaced by the low bits of b (R222). -/
def fBfi (w a b c : Nat) : Nat :=
  let m := ((2 ^ min (c / 256 % 128) 64 - 1) <<< (c % 64)) % 2 ^ w
  (a &&& (2 ^ w - 1 - m)) ||| ((b <<< (c % 64)) &&& m)

/-- iadd (R218). -/
def execIadd (c : RCtl) (d : Dst) (a : Src) (b : Src) (s : State) : Out :=
  .next (runWord (shR c [a, b]) (intBin false false fAdd 1 d a b) s)

/-- isub (R218). -/
def execIsub (c : RCtl) (d : Dst) (a : Src) (b : Src) (s : State) : Out :=
  .next (runWord (shR c [a, b]) (intBin false false fSub 1 d a b) s)

/-- imul (R218). -/
def execImul (c : RCtl) (d : Dst) (a : Src) (b : Src) (s : State) : Out :=
  .next (runWord (shR c [a, b]) (intBin false false fMul 2 d a b) s)

/-- imulhi (R218). -/
def execImulhi (c : RCtl) (d : Dst) (a : Src) (b : Src) (s : State) : Out :=
  .next (runWord (shR c [a, b]) (intBin false false fMulHi 2 d a b) s)

/-- imulhi.un (R218). -/
def execImulhiUn (c : RCtl) (d : Dst) (a : Src) (b : Src) (s : State) : Out :=
  .next (runWord (shR c [a, b]) (intBin false true fMulHiUn 2 d a b) s)

/-- idiv (R219). -/
def execIdiv (c : RCtl) (d : Dst) (a : Src) (b : Src) (s : State) : Out :=
  .next (runWord (shR c [a, b]) (intDiv false fDiv d a b) s)

/-- idiv.un (R219). -/
def execIdivUn (c : RCtl) (d : Dst) (a : Src) (b : Src) (s : State) : Out :=
  .next (runWord (shR c [a, b]) (intDiv true fDivUn d a b) s)

/-- irem (R219). -/
def execIrem (c : RCtl) (d : Dst) (a : Src) (b : Src) (s : State) : Out :=
  .next (runWord (shR c [a, b]) (intDiv false fRem d a b) s)

/-- irem.un (R219). -/
def execIremUn (c : RCtl) (d : Dst) (a : Src) (b : Src) (s : State) : Out :=
  .next (runWord (shR c [a, b]) (intDiv true fRemUn d a b) s)

/-- imin (R218). -/
def execImin (c : RCtl) (d : Dst) (a : Src) (b : Src) (s : State) : Out :=
  .next (runWord (shR c [a, b]) (intBin false false fMin 1 d a b) s)

/-- imin.un (R218). -/
def execIminUn (c : RCtl) (d : Dst) (a : Src) (b : Src) (s : State) : Out :=
  .next (runWord (shR c [a, b]) (intBin false true fMinUn 1 d a b) s)

/-- imax (R218). -/
def execImax (c : RCtl) (d : Dst) (a : Src) (b : Src) (s : State) : Out :=
  .next (runWord (shR c [a, b]) (intBin false false fMax 1 d a b) s)

/-- imax.un (R218). -/
def execImaxUn (c : RCtl) (d : Dst) (a : Src) (b : Src) (s : State) : Out :=
  .next (runWord (shR c [a, b]) (intBin false true fMaxUn 1 d a b) s)

/-- iabs (R218). -/
def execIabs (c : RCtl) (d : Dst) (a : Src) (s : State) : Out :=
  .next (runWord (shR c [a]) (intUn false fAbs 1 d a) s)

/-- ineg (R218). -/
def execIneg (c : RCtl) (d : Dst) (a : Src) (s : State) : Out :=
  .next (runWord (shR c [a]) (intUn false fNeg 1 d a) s)

/-- and (R218). -/
def execAndB (c : RCtl) (d : Dst) (a : Src) (b : Src) (s : State) : Out :=
  .next (runWord (shR c [a, b]) (intBin true false (fun _ a b => a &&& b) 1 d a b) s)

/-- or (R218). -/
def execOrB (c : RCtl) (d : Dst) (a : Src) (b : Src) (s : State) : Out :=
  .next (runWord (shR c [a, b]) (intBin true false (fun _ a b => a ||| b) 1 d a b) s)

/-- xor (R218). -/
def execXorB (c : RCtl) (d : Dst) (a : Src) (b : Src) (s : State) : Out :=
  .next (runWord (shR c [a, b]) (intBin true false (fun _ a b => a ^^^ b) 1 d a b) s)

/-- not (R218). -/
def execNotB (c : RCtl) (d : Dst) (a : Src) (s : State) : Out :=
  .next (runWord (shR c [a]) (intUn true fNot 1 d a) s)

/-- shl (R220). -/
def execShl (c : RCtl) (d : Dst) (a : Src) (b : Src) (s : State) : Out :=
  .next (runWord (shR c [a, b]) (intShift fShl d a b) s)

/-- shr (R220). -/
def execShr (c : RCtl) (d : Dst) (a : Src) (b : Src) (s : State) : Out :=
  .next (runWord (shR c [a, b]) (intShift fShr d a b) s)

/-- sar (R220). -/
def execSar (c : RCtl) (d : Dst) (a : Src) (b : Src) (s : State) : Out :=
  .next (runWord (shR c [a, b]) (intShift fSar d a b) s)

/-- rotl (R220). -/
def execRotl (c : RCtl) (d : Dst) (a : Src) (b : Src) (s : State) : Out :=
  .next (runWord (shR c [a, b]) (intShift fRotl d a b) s)

/-- popc (R218). -/
def execPopc (c : RCtl) (d : Dst) (a : Src) (s : State) : Out :=
  .next (runWord (shR c [a]) (intUn true fPopc 2 d a) s)

/-- clz (R218). -/
def execClz (c : RCtl) (d : Dst) (a : Src) (s : State) : Out :=
  .next (runWord (shR c [a]) (intUn true fClz 2 d a) s)

/-- brev (R218). -/
def execBrev (c : RCtl) (d : Dst) (a : Src) (s : State) : Out :=
  .next (runWord (shR c [a]) (intUn true fBrev 2 d a) s)

/-- icmp.eq (R223). -/
def execIcmpEq (c : RCtl) (p : PReg) (a : Src) (b : Src) (s : State) : Out :=
  .next (runWord (shR c [a, b]) (intCmp false (fun _ a b => a == b) p a b) s)

/-- icmp.ne (R223). -/
def execIcmpNe (c : RCtl) (p : PReg) (a : Src) (b : Src) (s : State) : Out :=
  .next (runWord (shR c [a, b]) (intCmp false (fun _ a b => a != b) p a b) s)

/-- icmp.lt (R223). -/
def execIcmpLt (c : RCtl) (p : PReg) (a : Src) (b : Src) (s : State) : Out :=
  .next (runWord (shR c [a, b]) (intCmp false (fun w a b => decide (sg w a < sg w b)) p a b) s)

/-- icmp.le (R223). -/
def execIcmpLe (c : RCtl) (p : PReg) (a : Src) (b : Src) (s : State) : Out :=
  .next (runWord (shR c [a, b]) (intCmp false (fun w a b => decide (sg w a ≤ sg w b)) p a b) s)

/-- icmp.lt.un (R223). -/
def execIcmpLtUn (c : RCtl) (p : PReg) (a : Src) (b : Src) (s : State) : Out :=
  .next (runWord (shR c [a, b]) (intCmp true (fun _ a b => decide (a < b)) p a b) s)

/-- icmp.le.un (R223). -/
def execIcmpLeUn (c : RCtl) (p : PReg) (a : Src) (b : Src) (s : State) : Out :=
  .next (runWord (shR c [a, b]) (intCmp true (fun _ a b => decide (a ≤ b)) p a b) s)

/-- A two-source predicate word (R225). -/
def predBin (f : Tri → Tri → Tri) (p x y : PReg) (t : Nat) : M (Cost × Bool) :=
  plain do
    predRules t [x, y]
    let a ← readPred t x
    let b ← readPred t y
    writePred t p (f a b) 1

/-- pand (R225). -/
def execPand (c : RCtl) (p : PReg) (x : PReg) (y : PReg) (s : State) : Out :=
  .next (runWord (shR c []) (predBin Tri.and p x y) s)

/-- por (R225). -/
def execPor (c : RCtl) (p : PReg) (x : PReg) (y : PReg) (s : State) : Out :=
  .next (runWord (shR c []) (predBin Tri.or p x y) s)

/-- pxor (R225). -/
def execPxor (c : RCtl) (p : PReg) (x : PReg) (y : PReg) (s : State) : Out :=
  .next (runWord (shR c []) (predBin Tri.xor p x y) s)

/-- pnot's body (R225). -/
def predNot (p x : PReg) (t : Nat) : M (Cost × Bool) := plain do writePred t p (← readPred t x).not 1

/-- pnot (R225). -/
def execPnot (c : RCtl) (p : PReg) (x : PReg) (s : State) : Out :=
  .next (runWord (shR c []) (predNot p x) s)

/-- The entries that a mov of width `n` copies, with value and kind (R210): the one source, or the whole named group. -/
def movSources (t n : Nat) (a : Src) : M (List (Word64 × Kind)) := do
  if n = 1 then
    let v ← readSrc t .single true a
    return [(v.val, v.kind)]
  else
    srcRules t false (groupSrcs a n)
    (groupSrcs a n).mapM fun x => do
      match x with
      | .k i =>
        let e ← readEntry t (← getT t).regs.k[i]
        return (e.val, e.kind)
      | _ => fault 0x03

/-- mov's body (R210). An entry that has been read matches its residue (R206), so the copy of its value has the same one. -/
def movBody (w : Width) (d : Dst) (a : Src) (t : Nat) : M (Cost × Bool) :=
  plain do writeVals t d (← movSources t (Width.count w) a) 1

/-- mov (R210). -/
def execMov (c : RCtl) (w : Width) (d : Dst) (a : Src) (s : State) : Out :=
  .next (runWord (shR c [a]) (movBody w d a) s)

/-- reg.free's body (R210): the named registers become EMPTY, both members of a pair that holds an IV64. -/
def freeBody (w : Width) (a : KReg) (t : Nat) : M (Cost × Bool) :=
  plain do
    let n := Width.count w
    modT t fun th => th.modRegs fun x => { x with k := setKs x.k a.val (List.replicate n Entry.blank) }

/-- reg.free (R210). -/
def execRegFree (c : RCtl) (w : Width) (a : KReg) (s : State) : Out :=
  .next (runWord (shR c []) (freeBody w a) s)

/-- movi's body (R210). -/
def moviBody (d : Dst) (i : BitVec 10) (t : Nat) : M (Cost × Bool) :=
  plain (writeVal t d (i.signExtend 32).toNat .i32 1)

/-- movi (R210). -/
def execMovi (st : Stall) (d : Dst) (i : BitVec 10) (s : State) : Out :=
  .next (runWord (shT st []) (moviBody d i) s)

/-- iaddi (R221). -/
def execIaddi (st : Stall) (d : Dst) (a : Src) (i : BitVec 10) (s : State) : Out :=
  .next (runWord (shT st [a]) (intImm false fAdd (fun w => (i.signExtend w).toNat) d a) s)

/-- andi (R221). -/
def execAndi (st : Stall) (d : Dst) (a : Src) (i : BitVec 10) (s : State) : Out :=
  .next (runWord (shT st [a]) (intImm true (fun _ a b => a &&& b) (fun w => (i.signExtend w).toNat) d a) s)

/-- ori (R221). -/
def execOri (st : Stall) (d : Dst) (a : Src) (i : BitVec 10) (s : State) : Out :=
  .next (runWord (shT st [a]) (intImm true (fun _ a b => a ||| b) (fun _ => i.toNat) d a) s)

/-- xori (R221). -/
def execXori (st : Stall) (d : Dst) (a : Src) (i : BitVec 10) (s : State) : Out :=
  .next (runWord (shT st [a]) (intImm true (fun _ a b => a ^^^ b) (fun _ => i.toNat) d a) s)

/-- shli (R220, R221). -/
def execShli (st : Stall) (d : Dst) (a : Src) (n : BitVec 6) (s : State) : Out :=
  .next (runWord (shT st [a]) (intImm true fShl (fun _ => n.toNat) d a) s)

/-- shri (R220, R221). -/
def execShri (st : Stall) (d : Dst) (a : Src) (n : BitVec 6) (s : State) : Out :=
  .next (runWord (shT st [a]) (intImm true fShr (fun _ => n.toNat) d a) s)

/-- sari (R220, R221). -/
def execSari (st : Stall) (d : Dst) (a : Src) (n : BitVec 6) (s : State) : Out :=
  .next (runWord (shT st [a]) (intImm true fSar (fun _ => n.toNat) d a) s)

/-- imad's body (R222). -/
def imadBody (d : Dst) (a b c : Src) (t : Nat) : M (Cost × Bool) :=
  plain do
    let (x, y, z) ← readInt3 t false a b c
    let w := intWidth [x, y, z]
    writeVal t d ((x.word w false * y.word w false + z.word w false) % 2 ^ w) (intKind w) 2

/-- bfx and bfi: the width is a's alone (R222). -/
def bitField (f : Nat → Nat → Nat → Nat → Nat) (d : Dst) (a b c : Src) (t : Nat) : M (Cost × Bool) :=
  plain do
    let (x, y, z) ← readInt3 t true a b c
    let w := intWidth [x]
    writeVal t d (f w (x.word w false) (y.word w false) (z.word w false) % 2 ^ w) (intKind w) 2

/-- imad (R222). -/
def execImad (st : Stall) (d : Dst) (a : Src) (b : Src) (c : Src) (s : State) : Out :=
  .next (runWord (shT st [a, b, c]) (imadBody d a b c) s)

/-- bfx (R222). -/
def execBfx (st : Stall) (d : Dst) (a : Src) (b : Src) (c : Src) (s : State) : Out :=
  .next (runWord (shT st [a, b, c]) (bitField fBfx d a b c) s)

/-- bfi (R222). -/
def execBfi (st : Stall) (d : Dst) (a : Src) (b : Src) (c : Src) (s : State) : Out :=
  .next (runWord (shT st [a, b, c]) (bitField fBfi d a b c) s)

end Sys2Proof.Machine
end

