-- ==== Sys2Proof/Machine/LaneFloat.lean ====
section
/-! DEFINITION. Floating, interval and conversion words of the lane class, three-valued compares and csel
(R213-R215, R224, R226-R234). -/

namespace Sys2Proof.Machine

open Sys2Proof.Num (FFmt Iv)

/-- Issue beats and latency by family and form (R215): F32, F64, IV32, IV64. -/
structure Fig where
  f32 : Nat × Nat
  f64 : Nat × Nat
  iv32 : Nat × Nat
  iv64 : Nat × Nat
  deriving DecidableEq, Repr

/-- The figures that apply. -/
def Fig.pick (f : Fig) (wide iv : Bool) : Nat × Nat :=
  if iv then (if wide then f.iv64 else f.iv32) else (if wide then f.f64 else f.f32)

/-- fadd, fsub, fmul, fmin, fmax, fabs, fneg, fcvt, ivmake, ivmeet, ivjoin. -/
def figStd : Fig := ⟨(1, 3), (2, 4), (2, 4), (4, 6)⟩
/-- fma. -/
def figFma : Fig := ⟨(1, 3), (2, 4), (4, 6), (4, 6)⟩
/-- ivlo, ivhi, ivmid, ivwid. -/
def figExt : Fig := ⟨(1, 3), (2, 4), (1, 3), (2, 4)⟩

/-- ivmake, ivmeet and ivjoin, whose results are intervals whatever their sources. -/
def figPair : Fig := ⟨(2, 4), (4, 6), (2, 4), (4, 6)⟩
/-- fcmp (R215). -/
def figCmp : Fig := ⟨(1, 1), (1, 1), (1, 3), (2, 4)⟩

/-- Point kind of a family. -/
def pointKind (wide : Bool) : Kind := if wide then .f64 else .f32

/-- The entries of an interval result (R62). -/
def ivEntries (wide : Bool) (lo hi : Nat) : List (Word64 × Kind) :=
  if wide then [(BitVec.ofNat 64 lo, .iv64), (BitVec.ofNat 64 hi, .iv64)]
  else [(BitVec.ofNat 64 (hi * 2 ^ 32 + lo), .iv32)]

/-- The beats that a suppressed form occupies, by the kinds that its sources hold (R38, R215). -/
def Fig.occ (f : Fig) (xs : List Src) (t : Nat) (s : State) : Cost :=
  let ks := xs.filterMap (s.kindOf t)
  ⟨(f.pick (ks.any Kind.wide) (ks.any Kind.isIv)).1, 0⟩

/-- The same of itof, whose result is F64 where its source is 64-bit (R232). -/
def occInt (xs : List Src) (t : Nat) (s : State) : Cost :=
  ⟨if (xs.filterMap (s.kindOf t)).any fun k => k == .i64 || k == .f64 then 2 else 1, 0⟩

/-- Sources that make an interval of the F64 family. -/
def wideIv (ks : List Kind) : Bool := ks.any Kind.isIv && allWide ks

/-- Reads the sources in order, tests their kinds and brings them into one family (R213), after the rules of the word's
destination (R43). -/
def readFamily (t : Nat) (xs : List Src) (own : M Unit := pure ()) : M (Bool × List FVal) := do
  srcRules t true xs own
  let rs ← xs.mapM fun x => do return (x, ← readSrc t .pair false x)
  let vs ← rs.mapM fun p => p.2.toF p.1
  let wide ← family vs
  return (wide, vs.map fun v => v.inFam wide)

/-- The empty-interval fault where there is no result (R229). -/
def orEmpty {α : Type} (o : Option α) : M α :=
  match o with
  | some a => pure a
  | none => fault 0x41

/-- A form of R227-R231: on points one rounding, on intervals the outward image. -/
def floatForm (pt : FFmt → List Nat → Nat) (iv : FFmt → List Iv → Option (Nat × Nat)) (fig : Fig)
    (d : Dst) (xs : List Src) (t : Nat) : M (Cost × Bool) := do
  let (wide, vs) ← readFamily t xs (pairRule t d xs wideIv)
  let f := famFmt wide
  let isIv := vs.any (·.iv)
  let (bt, L) := fig.pick wide isIv
  if isIv then
    let ivs ← vs.mapM fun v => v.interval wide
    let (lo, hi) ← orEmpty (iv f ivs)
    writeIv t d wide lo hi L
  else writeVal t d (pt f (vs.map (·.lo))) (pointKind wide) L
  return (⟨bt, 0⟩, false)

/-- An iterative form of R215: one issue beat, an interlocked result. -/
def floatIter (pt : FFmt → List Nat → Nat) (iv : FFmt → List Iv → Option (Nat × Nat)) (l32 l64 li32 li64 : Nat)
    (d : Dst) (xs : List Src) (t : Nat) : M (Cost × Bool) :=
  plain do
    let (wide, vs) ← readFamily t xs (pairRule t d xs wideIv)
    let f := famFmt wide
    let isIv := vs.any (·.iv)
    let L := if isIv then (if wide then li64 else li32) else (if wide then l64 else l32)
    if isIv then
      let ivs ← vs.mapM fun v => v.interval wide
      let (lo, hi) ← orEmpty (iv f ivs)
      iterate t d none (ivEntries wide lo hi) L
    else iterate t d none [(BitVec.ofNat 64 (pt f (vs.map (·.lo))), pointKind wide)] L

/-- A binary point operation, rounded once; a NaN is canonical (R227, R228). -/
def pt2 (r : Rnd) (op : Num.XVal → Num.XVal → Num.XVal) (f : FFmt) : List Nat → Nat
  | [a, b] => Num.encodeF f r (op (Num.decodeF f a) (Num.decodeF f b))
  | _ => 0

/-- A unary point operation. -/
def pt1 (r : Rnd) (op : Num.XVal → Num.XVal) (f : FFmt) : List Nat → Nat
  | [a] => Num.encodeF f r (op (Num.decodeF f a))
  | _ => 0

/-- A binary interval operation. -/
def iv2 (op : Iv → Iv → Option Iv) (f : FFmt) : List Iv → Option (Nat × Nat)
  | [a, b] => (op a b).map (Iv.codes f)
  | _ => none

/-- A unary interval operation. -/
def iv1 (op : Iv → Option Iv) (f : FFmt) : List Iv → Option (Nat × Nat)
  | [a] => (op a).map (Iv.codes f)
  | _ => none

/-- An exact one. -/
def oneX : Num.XVal := .fin false 1 1

/-- fma on points: a × b + c formed exactly and rounded once (R227). -/
def ptFma (r : Rnd) (f : FFmt) : List Nat → Nat
  | [a, b, c] => Num.encodeF f r (Num.add r (Num.mul (Num.decodeF f a) (Num.decodeF f b)) (Num.decodeF f c))
  | _ => 0

/-- fma on intervals (R231). -/
def ivFma (f : FFmt) : List Iv → Option (Nat × Nat)
  | [a, b, c] => some ((Iv.fma a b c).codes f)
  | _ => none

/-- fabs and fneg of a point (R228): a NaN source gives the canonical NaN. -/
def ptSign (g : Bool → Bool) (f : FFmt) : List Nat → Nat
  | [a] => match Num.decodeF f a with
    | .nan _ => f.nanCode
    | _ => a % 2 ^ (f.eb + f.mb) + (if g (a ≥ 2 ^ (f.eb + f.mb)) then 2 ^ (f.eb + f.mb) else 0)
  | _ => 0

/-- 2^x of an interval (R229). -/
def ivExp2 (f : FFmt) : List Iv → Option (Nat × Nat)
  | [a] => some (Num.exp2Code f .rd a.lo, Num.exp2Code f .ru a.hi)
  | _ => none

/-- log₂ of an interval (R229). -/
def ivLog2 (f : FFmt) : List Iv → Option (Nat × Nat)
  | [a] => if a.hi.le Num.zeroX then none
    else some (if a.lo.le Num.zeroX then f.signed true f.infCode else Num.log2Code f .rd a.lo, Num.log2Code f .ru a.hi)
  | _ => none

/-- A function of one code. -/
def code1 (g : FFmt → Num.XVal → Nat) (f : FFmt) : List Nat → Nat
  | [a] => g f (Num.decodeF f a)
  | _ => 0

/-- A function of two codes. -/
def code2 (g : FFmt → Nat → Nat → Nat) (f : FFmt) : List Nat → Nat
  | [a, b] => g f a b
  | _ => 0

/-- fadd (R227, R229). -/
def execFadd (c : RCtl) (r : Rnd) (d : Dst) (a : Src) (b : Src) (s : State) : Out :=
  .next (runForm (shR c [a, b]) (figStd.occ [a, b]) (floatForm (pt2 r (Num.add r)) (iv2 fun x y => some (x.add y)) figStd d [a, b]) s)

/-- fsub (R227, R229). -/
def execFsub (c : RCtl) (r : Rnd) (d : Dst) (a : Src) (b : Src) (s : State) : Out :=
  .next (runForm (shR c [a, b]) (figStd.occ [a, b]) (floatForm (pt2 r fun x y => Num.add r x (Num.neg y)) (iv2 fun x y => some (x.sub y)) figStd d [a, b]) s)

/-- fmul (R227, R229). -/
def execFmul (c : RCtl) (r : Rnd) (d : Dst) (a : Src) (b : Src) (s : State) : Out :=
  .next (runForm (shR c [a, b]) (figStd.occ [a, b]) (floatForm (pt2 r Num.mul) (iv2 fun x y => some (x.mul y)) figStd d [a, b]) s)

/-- fdiv (R227, R230). -/
def execFdiv (c : RCtl) (r : Rnd) (d : Dst) (a : Src) (b : Src) (s : State) : Out :=
  .next (runWord (shR c [a, b]) (floatIter (pt2 r Num.div) (iv2 Iv.div) 10 16 20 32 d [a, b]) s)

/-- fsqrt (R227, R229); its b field is no operand (DEDUCED, log entry 20). -/
def execFsqrt (c : RCtl) (r : Rnd) (d : Dst) (a : Src) (b : Src) (s : State) : Out :=
  .next (runWord (shR c [a, b]) (floatIter (pt1 r Num.sqrt) (iv1 Iv.sqrt) 12 20 24 40 d [a]) s)

/-- frcp (R227, R229); its b field is no operand (DEDUCED, log entry 20). -/
def execFrcp (c : RCtl) (r : Rnd) (d : Dst) (a : Src) (b : Src) (s : State) : Out :=
  .next (runWord (shR c [a, b]) (floatIter (pt1 r (Num.div oneX)) (iv1 (Iv.div ⟨oneX, oneX⟩)) 10 16 20 32 d [a]) s)

/-- fmin (R228, R229). -/
def execFmin (c : RCtl) (d : Dst) (a : Src) (b : Src) (s : State) : Out :=
  .next (runForm (shR c [a, b]) (figStd.occ [a, b]) (floatForm (code2 Num.pmin) (iv2 fun x y => some ⟨Num.minX x.lo y.lo, Num.minX x.hi y.hi⟩) figStd d [a, b]) s)

/-- fmax (R228, R229). -/
def execFmax (c : RCtl) (d : Dst) (a : Src) (b : Src) (s : State) : Out :=
  .next (runForm (shR c [a, b]) (figStd.occ [a, b]) (floatForm (code2 Num.pmax) (iv2 fun x y => some ⟨Num.maxX x.lo y.lo, Num.maxX x.hi y.hi⟩) figStd d [a, b]) s)

/-- fexp2 (R228, R229). -/
def execFexp2 (c : RCtl) (d : Dst) (a : Src) (b : Src) (s : State) : Out :=
  .next (runWord (shR c [a, b]) (floatIter (code1 fun f => Num.exp2Code f .rn) ivExp2 14 24 28 48 d [a]) s)

/-- flog2 (R228, R229). -/
def execFlog2 (c : RCtl) (d : Dst) (a : Src) (b : Src) (s : State) : Out :=
  .next (runWord (shR c [a, b]) (floatIter (code1 fun f => Num.log2Code f .rn) ivLog2 14 24 28 48 d [a]) s)

/-- fabs (R228, R229). -/
def execFabs (c : RCtl) (d : Dst) (a : Src) (b : Src) (s : State) : Out :=
  .next (runForm (shR c [a, b]) (figStd.occ [a]) (floatForm (ptSign fun _ => false) (iv1 fun x => some x.abs) figStd d [a]) s)

/-- fneg (R228, R229). -/
def execFneg (c : RCtl) (d : Dst) (a : Src) (b : Src) (s : State) : Out :=
  .next (runForm (shR c [a, b]) (figStd.occ [a]) (floatForm (ptSign fun s => !s) (iv1 fun x => some ⟨Num.neg x.hi, Num.neg x.lo⟩) figStd d [a]) s)

/-- The bounds an fcmp compares: a point x as [x, x], never the empty-interval fault (R224). -/
def FVal.bounds (v : FVal) (wide : Bool) : Iv := ⟨Num.decodeF (famFmt wide) v.lo, Num.decodeF (famFmt wide) v.hi⟩

/-- fcmp's body (R224); a NaN operand makes every result U. -/
def floatCmp (g : Iv → Iv → Tri) (p : PReg) (a b : Src) (t : Nat) : M (Cost × Bool) := do
  let (wide, vs) ← readFamily t [a, b]
  let isIv := vs.any (·.iv)
  let v := match vs with
    | [x, y] =>
      let i := x.bounds wide
      let j := y.bounds wide
      if i.lo.isNan || i.hi.isNan || j.lo.isNan || j.hi.isNan then .U else g i j
    | _ => .U
  writePred t p v (if isIv then (if wide then 4 else 3) else 1)
  return (⟨if isIv && wide then 2 else 1, 0⟩, false)

/-- fcmp.eq (R224). -/
def execFcmpEq (c : RCtl) (p : PReg) (a : Src) (b : Src) (s : State) : Out :=
  .next (runForm (shR c [a, b]) (figCmp.occ [a, b]) (floatCmp cmpEq p a b) s)

/-- fcmp.ne (R224). -/
def execFcmpNe (c : RCtl) (p : PReg) (a : Src) (b : Src) (s : State) : Out :=
  .next (runForm (shR c [a, b]) (figCmp.occ [a, b]) (floatCmp cmpNe p a b) s)

/-- fcmp.lt (R224). -/
def execFcmpLt (c : RCtl) (p : PReg) (a : Src) (b : Src) (s : State) : Out :=
  .next (runForm (shR c [a, b]) (figCmp.occ [a, b]) (floatCmp cmpLt p a b) s)

/-- fcmp.le (R224). -/
def execFcmpLe (c : RCtl) (p : PReg) (a : Src) (b : Src) (s : State) : Out :=
  .next (runForm (shR c [a, b]) (figCmp.occ [a, b]) (floatCmp cmpLe p a b) s)

/-- fcvt's body (R232, R60): points by the suffix, intervals outward, their zero bounds as +0 (R66). -/
def fcvtBody (r : Rnd) (d : Dst) (a : Src) (t : Nat) : M (Cost × Bool) := do
  let v ← readF t a (pairRule t d [a] fun ks => ks == [.iv32])
  let (bt, L) := figStd.pick v.wide v.iv
  if v.iv then
    if !v.wide then
      let (lo, hi) := (v.bounds false).codes Num.f64
      writeIv t d true lo hi L
    else
      let (lo, hi) := (v.bounds true).codes Num.f32
      writeIv t d false lo hi L
  else if v.wide then writeVal t d (Num.convert 0xD 0xC r v.lo) .f32 L
  else writeVal t d (Num.convert 0xC 0xD r v.lo) .f64 L
  return (⟨bt, 0⟩, false)

/-- ftoi's body (R232, R59, R60). -/
def ftoiBody (r : Rnd) (d : Dst) (a : Src) (t : Nat) : M (Cost × Bool) := do
  let v ← readF t a
  if v.iv then fault 0x2D
  let w := if v.wide then 64 else 32
  let (bt, L) := figStd.pick v.wide false
  writeVal t d (wr w (Num.toInt w r (Num.decodeF (famFmt v.wide) v.lo))) (intKind w) L
  return (⟨bt, 0⟩, false)

/-- itof's and itof.un's body (R232). -/
def itofBody (un : Bool) (r : Rnd) (d : Dst) (a : Src) (t : Nat) : M (Cost × Bool) := do
  let x ← readInt t false a
  let w := intWidth [x]
  let i : Int := if un then (x.word w true : Int) else sg w (x.word w false)
  let (bt, L) := figStd.pick x.is64 false
  writeVal t d (Num.encodeF (famFmt x.is64) r (Num.ofInt i)) (pointKind x.is64) L
  return (⟨bt, 0⟩, false)

/-- fcvt (R232). -/
def execFcvt (c : RCtl) (r : Rnd) (d : Dst) (a : Src) (s : State) : Out :=
  .next (runForm (shR c [a]) (figStd.occ [a]) (fcvtBody r d a) s)

/-- ftoi (R232). -/
def execFtoi (c : RCtl) (r : Rnd) (d : Dst) (a : Src) (s : State) : Out :=
  .next (runForm (shR c [a]) (figStd.occ [a]) (ftoiBody r d a) s)

/-- itof (R232). -/
def execItof (c : RCtl) (r : Rnd) (d : Dst) (a : Src) (s : State) : Out :=
  .next (runForm (shR c [a]) (occInt [a]) (itofBody false r d a) s)

/-- itof.un (R232). -/
def execItofUn (c : RCtl) (r : Rnd) (d : Dst) (a : Src) (s : State) : Out :=
  .next (runForm (shR c [a]) (occInt [a]) (itofBody true r d a) s)

/-- ivmake's body (R233): interval sources take 0x2D before the bound tests; a -0 bound is kept (R66). -/
def ivmakeBody (d : Dst) (a b : Src) (t : Nat) : M (Cost × Bool) := do
  let (wide, vs) ← readFamily t [a, b] (pairRule t d [a, b] allWide)
  let (bt, L) := figStd.pick wide true
  match vs with
  | [x, y] =>
    if x.iv || y.iv then fault 0x2D
    let f := famFmt wide
    let lo := Num.decodeF f x.lo
    let hi := Num.decodeF f y.lo
    if !lo.isFin || !hi.isFin || hi.lt lo then fault 0x41
    writeIv t d wide x.lo y.lo L
  | _ => pure ()
  return (⟨bt, 0⟩, false)

/-- ivlo and ivhi: a point is returned as it is (R233). -/
def ivBound (hi : Bool) (d : Dst) (a : Src) (t : Nat) : M (Cost × Bool) := do
  let v ← readF t a
  let (bt, L) := figExt.pick v.wide v.iv
  writeVal t d (if hi then v.hi else v.lo) (pointKind v.wide) L
  return (⟨bt, 0⟩, false)

/-- ivmid and ivwid (R233, R234). -/
def ivPoint (g : FFmt → Iv → Nat) (d : Dst) (a : Src) (t : Nat) : M (Cost × Bool) := do
  let v ← readF t a
  let i ← v.interval v.wide
  let (bt, L) := figExt.pick v.wide v.iv
  writeVal t d (g (famFmt v.wide) i) (pointKind v.wide) L
  return (⟨bt, 0⟩, false)

/-- The intersection; none when disjoint (R233). -/
def meet (x y : Iv) : Option Iv :=
  let lo := Num.maxX x.lo y.lo
  let hi := Num.minX x.hi y.hi
  if hi.lt lo then none else some ⟨lo, hi⟩

/-- The hull (R233). -/
def hull (x y : Iv) : Iv := ⟨Num.minX x.lo y.lo, Num.maxX x.hi y.hi⟩

/-- ivmeet and ivjoin: points are read as intervals (R233, R214). -/
def ivPair (g : Iv → Iv → Option Iv) (d : Dst) (a b : Src) (t : Nat) : M (Cost × Bool) := do
  let (wide, vs) ← readFamily t [a, b] (pairRule t d [a, b] allWide)
  let (bt, L) := figStd.pick wide true
  let ivs ← vs.mapM fun v => v.interval wide
  let (lo, hi) ← orEmpty (iv2 g (famFmt wide) ivs)
  writeIv t d wide lo hi L
  return (⟨bt, 0⟩, false)

/-- ivmake (R233). -/
def execIvmake (c : RCtl) (d : Dst) (a : Src) (b : Src) (s : State) : Out :=
  .next (runForm (shR c [a, b]) (figPair.occ [a, b]) (ivmakeBody d a b) s)

/-- ivlo (R233). -/
def execIvlo (c : RCtl) (d : Dst) (a : Src) (s : State) : Out :=
  .next (runForm (shR c [a]) (figExt.occ [a]) (ivBound false d a) s)

/-- ivhi (R233). -/
def execIvhi (c : RCtl) (d : Dst) (a : Src) (s : State) : Out :=
  .next (runForm (shR c [a]) (figExt.occ [a]) (ivBound true d a) s)

/-- ivmeet (R233). -/
def execIvmeet (c : RCtl) (d : Dst) (a : Src) (b : Src) (s : State) : Out :=
  .next (runForm (shR c [a, b]) (figPair.occ [a, b]) (ivPair meet d a b) s)

/-- ivjoin (R233). -/
def execIvjoin (c : RCtl) (d : Dst) (a : Src) (b : Src) (s : State) : Out :=
  .next (runForm (shR c [a, b]) (figPair.occ [a, b]) (ivPair (fun x y => some (hull x y)) d a b) s)

/-- ivmid (R234). -/
def execIvmid (c : RCtl) (d : Dst) (a : Src) (s : State) : Out :=
  .next (runForm (shR c [a]) (figExt.occ [a]) (ivPoint (fun f i => i.mid f) d a) s)

/-- ivwid (R233). -/
def execIvwid (c : RCtl) (d : Dst) (a : Src) (s : State) : Out :=
  .next (runForm (shR c [a]) (figExt.occ [a]) (ivPoint (fun f i => i.wid f) d a) s)

/-- A csel source as a floating value, where it is one (R213, R226). -/
def Val.asF (v : Val) (x : Src) : Option FVal :=
  match x with
  | .lit b => some ⟨false, true, false, b.toNat, b.toNat⟩
  | _ =>
    if v.imm then none
    else match v.kind with
      | .f32 => some ⟨false, false, false, v.val.toNat % 2 ^ 32, v.val.toNat % 2 ^ 32⟩
      | .f64 => some ⟨true, false, false, v.val.toNat, v.val.toNat⟩
      | .iv32 => some ⟨false, false, true, v.val.toNat % 2 ^ 32, v.val.toNat / 2 ^ 32⟩
      | .iv64 => some ⟨true, false, true, v.val.toNat, v.hi.toNat⟩
      | _ => none

/-- Writes a value as it was read: value and kind, and with them its residue (R206); an IV64 to a named pair (R211, R226). -/
def writeAs (t : Nat) (d : Dst) (v : Val) (L : Nat) : M Unit := do
  if v.kind = .iv64 then
    checkPair t d
    writeVals t d [(v.val, .iv64), (v.hi, .iv64)] L
  else writeVals t d [(v.val, v.kind)] L

/-- Whether kinds are all of floating families. -/
def floating (ks : List Kind) : Bool := ks.all fun k => k == .f32 || k == .f64 || k == .iv32 || k == .iv64

/-- Whether csel's result is an IV64 (R226, R211): the source that its predicate selects is one, or the hull is of the F64 family. -/
def cselWide (s : State) (t : Nat) (a b : Src) (p : PReg) : Bool :=
  let ks := [a, b].filterMap (s.kindOf t)
  let q := if p.val = 0 then Tri.T else (s.thread t).regs.p[p.val].v
  match q with
  | .T => s.kindOf t a == some .iv64
  | .F => s.kindOf t b == some .iv64
  | .U => if floating ks && allWide ks then true else s.kindOf t b == some .iv64

/-- csel's body (R226): both sources are read; on U the hull of two sources of one floating family, else b. -/
def cselBody (d : Dst) (a b : Src) (p : PReg) (t : Nat) : M (Cost × Bool) :=
  plain do
    srcRules t true [a, b] do
      predRules t [p]
      if cselWide (← get) t a b p then checkPair t d
    let x ← readSrc t .pair true a
    let y ← readSrc t .pair true b
    let q ← readPred t p
    match q with
    | .T => writeAs t d x 1
    | .F => writeAs t d y 1
    | .U =>
      match x.asF a, y.asF b with
      | some i, some j =>
        if i.lit || j.lit || i.wide == j.wide then
          let wide := (!i.lit && i.wide) || (!j.lit && j.wide)
          let ii ← (i.inFam wide).interval wide
          let jj ← (j.inFam wide).interval wide
          let (lo, hi) := (hull ii jj).codes (famFmt wide)
          writeIv t d wide lo hi 1
        else writeAs t d y 1
      | _, _ => writeAs t d y 1

/-- fma (R227, R231). -/
def execFma (st : Stall) (r : Rnd) (d : Dst) (a : Src) (b : Src) (c : Src) (s : State) : Out :=
  .next (runForm (shT st [a, b, c]) (figFma.occ [a, b, c]) (floatForm (ptFma r) ivFma figFma d [a, b, c]) s)

/-- csel (R226). -/
def execCsel (st : Stall) (d : Dst) (a : Src) (b : Src) (p : PReg) (s : State) : Out :=
  .next (runWord (shT st [a, b]) (cselBody d a b p) s)

end Sys2Proof.Machine
end

