-- ==== Sys2Proof/Machine/Place.lean ====
section
/-! DEFINITION. Cards and where their teams go: card fields (R334, R335), pool commitments and contexts (R200, R287), the
resources of R132, R252 and R300, and the placement of a team (R341). -/

namespace Sys2Proof.Machine

/-! ### Cards (R334, R335, R48) -/

/-- A field of a card. -/
def Card.f (c : Card) (lo w : Nat) : Nat := (c.bits.extractLsb' lo w).toNat
/-- Entry address. -/
def Card.entry (c : Card) : Nat := c.f 0 52
/-- Deadline. -/
def Card.deadline (c : Card) : Nat := c.f 64 48
/-- Quay named by the card. -/
def Card.quayNo (c : Card) : Nat := c.f 112 6
/-- Whether it is a launch card. -/
def Card.isLaunch (c : Card) : Bool := c.f 118 2 == 1
/-- Whether it writes the completion signal. -/
def Card.sigen (c : Card) : Bool := c.bits.getLsbD 120
/-- Whether it takes a launch snapshot. -/
def Card.lsnap (c : Card) : Bool := c.bits.getLsbD 121
/-- Budget of a slice. -/
def Card.budget (c : Card) : Nat := c.f 128 32
/-- Signal record. -/
def Card.srec (c : Card) : Nat := c.f 160 8
/-- Signal offset in bytes. -/
def Card.sbyte (c : Card) : Nat := c.f 168 24 * 8
/-- g0 of a job, or a launch's uniform block. -/
def Card.arg (c : Card) : Nat := c.f 192 64
/-- Teams of the card. -/
def Card.teams (c : Card) : Nat := if c.isLaunch then c.f 256 32 else 1
/-- Team index of its first team. -/
def Card.tbase (c : Card) : Nat := if c.isLaunch then c.f 288 32 else 0

/-- An operand tile (R334). -/
structure Tile where
  recNo : Nat
  die : Nat
  lines : Nat
  off : Nat
  deriving DecidableEq, Repr

/-- Operand tile `i`. -/
def Card.tile (c : Card) (i : Nat) : Tile :=
  let b := 256 + 64 * i
  ⟨c.f (b + 56) 8, c.f (b + 54) 2, c.f (b + 32) 22, c.f b 32⟩

/-- The group's uniform constants (R197, R335). -/
def Card.uniforms (c : Card) : Vector (Word64 × Kind) 7 :=
  Vector.ofFn fun i =>
    if c.isLaunch then
      (BitVec.ofNat 64 (leVal ((c.ublock.drop (8 * i.val)).take 8)), Kind.ofCode ((c.ublock.getD (56 + i.val) 0).toNat))
    else if i.val = 0 then (BitVec.ofNat 64 c.arg, .i64)
    else if i.val ≤ 4 then
      let t := c.tile (i.val - 1)
      if t.lines = 0 then (0, .empty) else (BitVec.ofNat 64 (t.off * 256), .i64)
    else if i.val = 5 then (BitVec.ofNat 64 c.deadline, .i64)
    else (BitVec.ofNat 64 (c.homeDie * 64 + c.quay), .i32)

/-- Reads a kernel header; `none` where it breaks R48 or R201. -/
def kernelOf (hdr : BitVec 128) : Option Kernel :=
  let f (lo w : Nat) : Nat := (hdr.extractLsb' lo w).toNat
  let g := f 6 2
  let k : Kernel := ⟨f 48 16, f 37 5, f 32 5, f 24 7, f 19 5, f 8 11, 16 * 2 ^ g, f 0 6⟩
  let p := if k.group = 16 then 4 else 8
  if f 64 64 = 0 ∧ f 42 6 = 0 ∧ f 31 1 = 0 ∧ g ≤ 2 ∧ k.fq ≤ 16 ∧ k.acc ≤ 16 ∧ k.nb ≤ 96 ∧ k.sp ≤ 16 ∧
      1 ≤ k.team ∧ k.team ≤ 1024 ∧ k.team % k.group = 0 ∧ k.named ≤ 32 ∧ p * (16 + k.named) ≤ 256 ∧ 7 ≤ k.backing
  then some k else none

/-! ### Contexts and pools (R199, R200, R287) -/

/-- Threads a group places on each lane (R200); a spawned child stands alone on its lane (R237). -/
def perLane (size : Nat) : Nat := if size = 1 then 1 else if size = 16 then 4 else 8

/-- A team whose threads hold lane contexts. -/
def Work.resident (w : Work) : Bool :=
  match w.sw with
  | .saved _ => false
  | _ => true

/-- A team whose restore is under way. -/
def Work.restoring (w : Work) : Bool :=
  match w.sw with
  | .restoring _ => true
  | _ => false

/-- Threads resident on a lane. -/
def State.laneThreads (s : State) (die core lane : Nat) : List (Nat × Thread) :=
  s.threads.filter fun kv => kv.2.id.die == die && kv.2.id.core == core && kv.2.id.lane == lane &&
    (s.work kv.2.id.work).resident

/-- Pool entries committed on a lane (R200, R202). -/
def State.committed (s : State) (die core lane : Nat) : Nat :=
  ((s.laneThreads die core lane).map fun kv =>
    let g := s.group kv.2.id.group
    if g.spill = some 1 then 0 else 16 + g.n).sum

/-- Free context slots of a lane (R199). -/
def State.freeSlotsOf (s : State) (die core lane : Nat) : List Nat :=
  (List.range 8).filter fun i => !((s.laneThreads die core lane).any fun kv => kv.2.id.slot == i)

/-- A lane has contexts and pool for `p` threads of `n` named registers. -/
def State.laneRoom (s : State) (die core lane p n : Nat) : Bool :=
  decide ((s.freeSlotsOf die core lane).length ≥ p) && decide (s.committed die core lane + p * (16 + n) ≤ 256)

/-- First lanes of the slices, or even-odd slice pairs, that have room for a group (R287). -/
def State.sliceRoom (s : State) (die core size n : Nat) (berth : Nat → Bool) : List Nat :=
  let span := if size = 64 then 2 else 1
  (List.range 16).filter fun sl => sl % span == 0 && (List.range span).all fun i => berth (sl + i) &&
    (List.range (4 * span)).all fun l => s.laneRoom die core (4 * sl + l) (perLane size) n

/-- Takes one of several places that the spec leaves open (DESIGN CHOICE, log entry 21). -/
def State.pick (s : State) (xs : List Nat) (d : Nat) : Nat × State :=
  match xs with
  | [] => (d, s)
  | [x] => (x, s)
  | xs => ((xs[Config.choice s.sched.draw % xs.length]?).getD d, s.modSched fun c => { c with draw := c.draw + 1 })

/-- Adds a thread; its lane-cycle count starts at 0 (R33). -/
def State.addThread (s : State) (id : Ident) (pc : Nat) : Nat × State :=
  let t := s.sched.nextId
  let s := s.modSched fun c => { c with nextId := t + 1 }
  (t, { s with threads := s.threads.put t { Thread.blank with id := id, pos := Pos.atHeader pc, since := s.sched.tick } })

/-- Adds a group. -/
def State.addGroup (s : State) (g : Group) : Nat × State :=
  let i := s.sched.nextId
  let s := s.modSched fun c => { c with nextId := i + 1 }
  (i, { s with groups := s.groups.put i g })

/-! ### A team's own resources (R132, R252, R300) -/

/-- Banks of a core that no team owns, nor is about to own by a switch, highest-numbered first (R132). -/
def State.freeBanks (s : State) (gc : Nat) : List Nat :=
  ((List.range 32).filter fun i => (s.bank gc i).own.isNone && !((s.core gc).switches.any fun x => x.bank == i)).reverse

/-- Named barriers in use on a core. -/
def Core.barsUsed (c : Core) : Nat := (c.barOwn.map (·.2)).sum

/-- Whether a core has the banks, barriers and tiles of a kernel. -/
def State.resourceRoom (s : State) (gc : Nat) (k : Kernel) : Bool :=
  decide ((s.freeBanks gc).length ≥ k.sp + k.fq) && decide ((s.core gc).barsUsed + k.nb ≤ 96) &&
    decide ((s.core gc).tileOwn.length + k.acc ≤ 16)

/-- Takes a bank for a team in a mode, cleared (R132); the lines of a cache way go with it. -/
def State.takeBank (s : State) (gc w : Nat) (m : BankMode) (i : Nat) : State :=
  let s := s.modCore gc fun c => { c with l1 := c.l1.filter fun l => l.way != i }
  s.modBank gc i fun _ => { Bank.reset m with own := some w }

/-- Grants a team its banks, barriers and tiles on a core (R132, R252, R300). -/
def State.grant (s : State) (gc w : Nat) (k : Kernel) : State :=
  let bs := s.freeBanks gc
  let s := (bs.take k.sp).foldl (fun s i => s.takeBank gc w .scratchpad i) s
  let s := ((bs.drop k.sp).take k.fq).foldl (fun s i => s.takeBank gc w .fifo i) s
  let free := (List.range 16).filter fun i => ((s.core gc).tileOwn.find i).isNone
  let ts := free.take k.acc
  let s := s.modCore gc fun c =>
    { c with barOwn := if k.nb = 0 then c.barOwn else c.barOwn.put w k.nb,
             tileOwn := ts.foldl (fun t i => t.put i w) c.tileOwn,
             acc := c.acc.filter fun kv => !(ts.contains (kv.1 / 8192)) }
  s.modWork w fun x => { x with tiles := x.tiles.put gc ts }

/-- Gives a team's banks, barriers and tiles back; its banks return to cache mode (R132). -/
def State.ungrant (s : State) (gc w : Nat) : State :=
  s.modCore gc fun c =>
    { c with banks := c.banks.map fun b => if b.own = some w then Bank.reset .cache else b,
             switches := c.switches.filter fun x => x.work != w,
             barOwn := c.barOwn.drop w, tileOwn := c.tileOwn.filter fun kv => kv.2 != w }

/-! ### Placing a team (R287, R289, R341) -/

/-- Berths that a team of a stage may use (R347, R349): a core, or a slice of it. -/
def State.berthOk (s : State) (die stage core slice : Nat) : Bool :=
  let d := (s.die die).disp
  let b := if d.slicePair then core * 8 + slice / 2 else core
  d.berths.getD b 0 == stage && (match d.serving.find b with
    | some st => st == stage
    | none => true)

/-- Whether a core takes `groups` groups of a kernel. -/
def State.coreTakes (s : State) (die core stage groups : Nat) (k : Kernel) : Bool :=
  let gc := die * 64 + core
  let p := perLane k.group
  let span := if k.group = 64 then 2 else 1
  let slots := ((List.range 16).filter fun sl => sl % span == 0 && (List.range span).all fun i => s.berthOk die stage core (sl + i)).map fun sl =>
    (List.range (4 * span)).foldl (fun m l =>
      min m (min ((s.freeSlotsOf die core (4 * sl + l)).length / p) ((256 - s.committed die core (4 * sl + l)) / (p * (16 + k.named))))) 8
  s.corePresent gc && decide (slots.sum ≥ groups) && s.resourceRoom gc k

/-- Groups of a team on the first of its cores (R286). -/
def firstHalf (k : Kernel) : Nat :=
  let g := k.team / k.group
  if k.team ≤ 512 then g else (g + 1) / 2

/-- The core or twin pair of a die that qualifies (R17, R341): the lowest-numbered. -/
def State.qualifies (s : State) (die stage : Nat) (k : Kernel) : Option (List Nat) :=
  let g := k.team / k.group
  if k.team ≤ 512 then ((List.range 64).find? fun c => s.coreTakes die c stage g k).map fun c => [c]
  else ((List.range 32).find? fun i => s.coreTakes die (2 * i) stage (firstHalf k) k &&
      s.coreTakes die (2 * i + 1) stage (g - firstHalf k) k).map fun i => [2 * i, 2 * i + 1]

/-- A team shape fits some present core or twin pair of a die (R17). -/
def State.shapeFits (s : State) (die : Nat) (k : Kernel) : Bool :=
  let here (c : Nat) : Bool := s.corePresent (die * 64 + c)
  let p := perLane k.group
  let perSlice := min (8 / p) (256 / (p * (16 + k.named)))
  let perCore := perSlice * (if k.group = 64 then 8 else 16)
  let fits := decide (k.sp + k.fq ≤ 32)
  if k.team ≤ 512 then fits && decide (k.team / k.group ≤ perCore) && (List.range 64).any here
  else fits && decide (firstHalf k ≤ perCore) && (List.range 32).any fun i => here (2 * i) && here (2 * i + 1)

/-- Places one group on a core: its threads take free contexts of their home lanes (R287), and form its entry bundles
(R289). -/
def State.placeGroup (s : State) (w num die core stage pc : Nat) (k : Kernel) (g : Vector (Word64 × Kind) 7) : State :=
  let (gi, s) := s.addGroup { Group.blank with work := w, num := num, size := k.group, n := k.named, g := g }
  let (sl, s) := s.pick (s.sliceRoom die core k.group k.named fun sl => s.berthOk die stage core sl) 0
  let (ts, s) := (List.range k.group).foldl (fun (a : List Nat × State) t =>
    let lane := 4 * (sl + if k.group = 64 then t / 32 else 0) + t % 4
    let (slot, s) := a.2.pick (a.2.freeSlotsOf die core lane) 0
    let (i, s) := s.addThread ⟨w, gi, t, die, core, lane, slot⟩ pc
    (a.1 ++ [i], s)) ([], s)
  let lc := (s.die die).lc
  (List.range (k.group / 16)).foldl (fun s b =>
    let part := (ts.drop (16 * b)).take 16
    let mate := if k.group = 64 ∧ b ≥ 2 then
        match ts[16 * (b - 2)]? with
        | some t => some (s.thread t).bundle
        | none => none
      else none
    s.newBundle part mate lc) s

/-- Places a whole team of a card on its cores at once, from the card's entry (R341). -/
def State.placeTeam (s : State) (ci team : Nat) (die stage : Nat) (cores : List Nat) : Nat × State :=
  let c := s.card ci
  let k := c.kernel
  let w := s.sched.nextId
  let s := s.modSched fun x => { x with nextId := w + 1 }
  let gcs := cores.map fun x => die * 64 + x
  let work : Work := { Work.blank with
    card := ci, ctx := c.ctx, team := team, die := die, cores := gcs, kernel := k, bud := ⟨(s.die die).mer, 0, none, false⟩ }
  let s := { s with works := s.works.put w work }
  let s := gcs.foldl (fun s gc => (s.grant gc w k).acquire gc) s
  let n := k.team / k.group
  let s := (List.range n).foldl (fun s i =>
    let core := if i < firstHalf k then cores.getD 0 0 else cores.getD 1 0
    s.placeGroup w i die core stage c.entry k c.uniforms) s
  (w, s)

end Sys2Proof.Machine
end

