-- ==== Sys2Proof/Machine/Grow.lean ====
section
/-! DEFINITION. Words that change what a lane holds: reg.grow with its spills and fills (R201-R205), ivsplit and the
starting of its children (R235-R237). -/

namespace Sys2Proof.Machine

/-! ### reg.grow (R203, R205) -/

/-- An operand of reg.grow: I32 or I64, signed; a literal reads as I32 (R35, R205). -/
def growOperand (a : Src) (u : Nat) : M Int := do
  let v ← readSrc u .single false a
  if v.imm || v.kind = .i32 then return Num.signedOf 32 (v.val.toNat % 2 ^ 32)
  else if v.kind = .i64 then return Num.signedOf 64 v.val.toNat
  else fault 0x2D

/-- Lanes that a group's threads stand on. -/
def State.groupLanes (s : State) (g : Nat) : List (Nat × Nat × Nat) :=
  ((s.groupLive g).map fun t => let i := (s.thread t).id; (i.die, i.core, i.lane)).eraseDups

/-- Every lane of the group has `extra` uncommitted entries for each of its p threads (R203). -/
def State.growRoom (s : State) (g extra : Nat) : Bool :=
  let p := perLane (s.group g).size
  (s.groupLanes g).all fun l => decide (s.committed l.1 l.2.1 l.2.2 + p * extra ≤ 256)

/-- Frees the registers at and above `n` (R203). The lower member of an IV64 pair that `n` splits stays as it is: R195 keeps a register
below the new count, and R196 speaks of writes (DEDUCED, log entry 110). -/
def Regs.cutTo (r : Regs) (n : Nat) : Regs :=
  { r with k := Vector.ofFn fun i => if i.val < n then r.k[i] else Entry.blank }

/-- Sets a group's named count (R203): registers above the smaller count are EMPTY. -/
def State.setNamed (s : State) (g n : Nat) : State :=
  let m := min n (s.group g).n
  let s := (s.groupLive g).foldl (fun s t => s.modThread t fun th => th.modRegs fun r => r.cutTo m) s
  s.modGroup g fun x => { x with n := n, grow := none }

/-- reg.grow for its group (R203, R205), or for a thread in trial mode alone (R316). -/
def growPerform (t : Nat) (ps : List (Nat × Int)) : M Unit := do
  let s ← get
  let th := s.thread t
  let g := s.groupOf t
  let top := ps.foldl (fun m p => max m p.2) (-1)
  if ps.isEmpty then pure ()
  else if th.inTrial then
    if top ≠ (g.n : Int) then fault 0x44
  else
    if g.grow.isSome then wait 0xB .event
    let n := top.toNat
    if ps.any (fun p => decide (p.2 < 0)) || n > 32 || perLane g.size * (16 + n) > 256 then fault 0x44
    if n ≤ g.n then set (s.setNamed th.id.group n)
    else if s.growRoom th.id.group (n - g.n) then set (s.setNamed th.id.group n)
    else
      let k ← fresh
      modify fun s => s.modGroup th.id.group fun x => { x with grow := some (n, k) }
      wait 0xB .event

/-- reg.grow (R203). -/
def execRegGrow (c : RCtl) (a : Src) (s : State) : Out :=
  .next (runColl true (shR c [a]) (growOperand a) (growPerform s.sched.cur) s)

/-- Groups of a core that are held at reg.grow or waiting for a fill, in the order in which they were held (R203, R204). -/
def State.heldGroups (s : State) (die core : Nat) : List (Nat × Nat) :=
  let gs := s.groups.filter fun kv => kv.2.grow.isSome && (s.work kv.2.work).resident && (s.groupLanes kv.1).any fun l => l.1 == die && l.2.1 == core
  let key (kv : Nat × Group) : Nat := (kv.2.grow.map (·.2)).getD 0
  (gs.insertionSort fun a b => key a ≤ key b).map fun kv => (kv.1, (kv.2.grow.map (·.1)).getD 0)

/-- Lets a granted group's threads go past the reg.grow that they have arrived at, those that have not stepped it yet too (R203). -/
def State.freeGroup (s : State) (g : Nat) : State :=
  (s.groupLive g).foldl (fun s t => s.modThread t fun th =>
    if th.place = .running ∧ th.pos.win = 1 ∧ th.pos.opcode = some (.lane, 0x7A) ∧ !th.done then
      { th with hold := none, part := true, stage := 0 } else th) s

/-- The held request that is to be granted next on a core: the oldest whose lanes have room, for what it adds, or where it is spilled for
all that it will hold (R203, R204). -/
def State.nextGrant (s : State) (die core : Nat) : Option (Nat × Nat) :=
  (s.heldGroups die core).find? fun g =>
    match (s.group g.1).spill with
    | none => s.growRoom g.1 (g.2 - (s.group g.1).n)
    | some 1 => s.growRoom g.1 (16 + g.2)
    | some _ => false

/-- REG_GROW_GRANT: the oldest held request whose lanes have room is granted (R203), where it is not spilled. -/
def State.growGrant (s : State) (die core : Nat) : State :=
  match s.nextGrant die core with
  | some g => if (s.group g.1).spill.isNone then (s.setNamed g.1 g.2).freeGroup g.1 else s
  | none => s

/-- Resident groups with a live thread on a core. -/
def State.coreGroups (s : State) (die core : Nat) : List Nat :=
  (s.groups.filter fun kv => (s.work kv.2.work).resident && (s.groupLanes kv.1).any fun l => l.1 == die && l.2.1 == core).map (·.1)

/-- ALL_BLOCKED_SPILL: when every resident, unspilled group of a core is held at reg.grow, the most recently held begins
its spill (R204). -/
def State.allBlocked (s : State) (die core : Nat) : State :=
  let un := (s.coreGroups die core).filter fun g => (s.group g).spill.isNone
  let held := (s.heldGroups die core).filter fun g => (s.group g.1).spill.isNone
  let busy := (s.coreGroups die core).any fun g => (s.group g).spill == some 0 || (s.group g).spill == some 2
  if !un.isEmpty && !busy && un.length == held.length then
    match held.getLast? with
    | some g => s.modGroup g.1 fun x => { x with spill := some 0 }
    | none => s
  else s

/-- SPILL_COMPLETE: the live entries lie in the backing regions and the commitment is released (R202). -/
def State.spillDone (s : State) (g : Nat) : State :=
  if (s.group g).spill = some 0 then s.modGroup g fun x => { x with spill := some 1 } else s

/-- GROUP_FILL: a spilled group is filled, with its request granted, once its lanes have room for 16 + n' a thread and no older held
request has room (R203, R204). -/
def State.groupFill (s : State) (g : Nat) : State :=
  match (s.group g).spill, (s.group g).grow with
  | some 1, some (n, _) =>
    if s.growRoom g (16 + n) && (s.groupLanes g).all fun l => (s.nextGrant l.1 l.2.1).any fun x => x.1 == g then
      (s.setNamed g n).modGroup g fun x => { x with spill := some 2 }
    else s
  | _, _ => s

/-- An entry whose residue does not match (R206). -/
def Entry.bad (e : Entry) : Bool := e.kind != .empty && e.res != residue e.val

/-- One entry as it is filled or restored: where its residue does not match, it is read once more (R206, R207). Whether it
matches then is free (DESIGN CHOICE, log entry 90). -/
def State.mend (s : State) (gc : Nat) (e : Entry) : State × Entry × Bool :=
  if e.bad then
    let n := s.sched.draw
    let s := s.modSched fun c => { c with draw := n + 1 }
    if Config.retryMatches n then (s.mismatches gc 1 0, { e with res := residue e.val }, true)
    else (s.mismatches gc 2 1, e, false)
  else (s, e, true)

/-- The same of a predicate and its parity (R198). -/
def State.mendP (s : State) (gc : Nat) (c : PCell) : State × PCell × Bool :=
  if c.wait.isNone ∧ c.par ≠ c.v.parity then
    let n := s.sched.draw
    let s := s.modSched fun c => { c with draw := n + 1 }
    if Config.retryMatches n then (s.mismatches gc 1 0, { c with par := c.v.parity }, true)
    else (s.mismatches gc 2 1, c, false)
  else (s, c, true)

/-- Every one of a list, and whether all matched. -/
def State.mendAll {α : Type} (f : State → α → State × α × Bool) (s : State) (xs : List α) : State × List α × Bool :=
  xs.foldl (fun a x => let (s, y, ok) := f a.1 x; (s, a.2.1 ++ [y], a.2.2 && ok)) (s, [], true)

/-- A register set as it is filled or restored (R206, R207). A predicate, which is not spilled, has its parity read at a group's fill
all the same (DESIGN CHOICE, log entry 111: R198 puts parity under the residue checks' rule, which names fills). -/
def State.mendRegs (s : State) (gc : Nat) (r : Regs) : State × Regs × Bool :=
  let (s, q, ok) := State.mendAll (fun s => s.mend gc) s r.q.toList
  let (s, k, ok') := State.mendAll (fun s => s.mend gc) s r.k.toList
  let (s, p, ok'') := State.mendAll (fun s => s.mendP gc) s r.p.toList
  (s, ⟨Vector.ofFn fun i => q.getD i.val Entry.blank, Vector.ofFn fun i => k.getD i.val Entry.blank,
    Vector.ofFn fun i => p.getD i.val (PCell.of .F)⟩, ok && ok' && ok'')

/-- A thread's registers are read back; a second mismatch is cause 0x42 (R207). -/
def State.mendThread (s : State) (t : Nat) : State :=
  let (s, r, ok) := s.mendRegs (s.thread t).gcore (s.thread t).regs
  let s := s.modThread t fun th => { th with regs := r }
  if ok then s else s.deliver t 0x42 0

/-- A thread's trap shadow is read back while it is in its handler (R365): whether it matched, with a second reading (R207). -/
def State.mendShadow (s : State) (t : Nat) : State × Bool :=
  let tr := (s.thread t).trap
  if tr.cause.toNat / 256 % 2 = 1 then
    let (s, r, ok) := s.mendRegs (s.thread t).gcore ⟨tr.shq, Vector.replicate 32 Entry.blank, tr.shp⟩
    (s.modThread t fun th => { th with trap := { th.trap with shq := r.q, shp := r.p } }, ok)
  else (s, true)

/-- FILL_COMPLETE: each residue is checked, the commitment stands again and the group issues (R202, R207). -/
def State.fillDone (s : State) (g : Nat) : State :=
  if (s.group g).spill = some 2 then
    let s := (s.modGroup g fun x => { x with spill := none }).freeGroup g
    (s.groupLive g).foldl (fun s t => s.mendThread t) s
  else s

/-- REG_GROW_GRANT (R203). -/
def execRegGrowGrant (die core : Nat) (s : State) : Out := .next (s.growGrant die core)
/-- ALL_BLOCKED_SPILL (R204). -/
def execAllBlockedSpill (die core : Nat) (s : State) : Out := .next (s.allBlocked die core)
/-- SPILL_COMPLETE (R202). -/
def execSpillComplete (group : Nat) (s : State) : Out := .next (s.spillDone group)
/-- GROUP_FILL (R204). -/
def execGroupFill (group : Nat) (s : State) : Out := .next (s.groupFill group)
/-- FILL_COMPLETE (R202). -/
def execFillComplete (group : Nat) (s : State) : Out := .next (s.fillDone group)

/-! ### Register images (R201, R236) -/

/-- A tag-and-residue byte (R201). -/
def Entry.tag (e : Entry) : Nat := if e.kind = .empty then 0 else e.kind.code + 8 * e.res.toNat

/-- The 54 words of values and tag bytes of a register set: k0-k31, q1-q16, then their 48 bytes (R201, R236). -/
def Regs.image (r : Regs) : List Word64 :=
  let es := r.k.toList ++ r.q.toList
  let tags := es.map Entry.tag
  (es.map fun e => if e.kind = .empty then 0 else e.val) ++
    (List.range 6).map fun i => BitVec.ofNat 64 (leVal (((tags.drop (8 * i)).take 8).map (BitVec.ofNat 8)))

/-- An entry of a register image. -/
def imageEntry (ws : List Word64) (i : Nat) : Entry :=
  let tag := (ws.getD (48 + i / 8) 0).toNat / 2 ^ (8 * (i % 8)) % 256
  let k := Kind.ofCode (tag % 8)
  if k = .empty then Entry.blank else ⟨ws.getD i 0, k, BitVec.ofNat 3 (tag / 8), 0, none, (0, .empty)⟩

/-- The registers of an image. -/
def imageRegs (ws : List Word64) (p : Vector PCell 8) : Regs :=
  ⟨Vector.ofFn fun i => imageEntry ws (32 + i.val), Vector.ofFn fun i => imageEntry ws i.val, p⟩

/-! ### ivsplit (R235, R236) -/

/-- The team's spawn FIFO on the core: the lowest-numbered FIFO bank it owns (R235). -/
def State.spawnFifo (s : State) (gc w : Nat) : Option Nat :=
  (List.range 32).find? fun i => (s.bank gc i).own == some w && (s.bank gc i).mode == .fifo

/-- The word of a record that holds identity and control (R236). -/
def spawnCtl (n grp tig : Nat) (sck : Bool) (p : Vector PCell 8) (u : PReg) : Nat :=
  let code (i : Nat) : Nat := if i = u.val then 2 else ((p[i]?).map fun c => c.v.code).getD 0
  field n 58 6 + field (if sck then 1 else 0) 57 1 + field grp 37 6 + field tig 31 6 +
    ((List.range 7).map fun i => field (code (i + 1)) (43 + 2 * i) 2).sum

/-- A spawn record (R236). -/
def spawnRecord (th : Thread) (g : Group) (team : Nat) (r : Regs) (u : PReg) : List Word64 :=
  [BitVec.ofNat 64 (th.nextHeader % 2 ^ 52), BitVec.ofNat 64 (spawnCtl g.n g.num th.id.tig th.sck r.p u), BitVec.ofNat 64 team] ++
    r.image ++ List.replicate 7 0

/-- The tokens or moment that the entries and predicates which a spawn record copies still wait for (R235). -/
def Regs.coming (r : Regs) (lc : Nat) : Option Hold :=
  let es := r.k.toList ++ r.q.toList
  let ps := r.p.toList
  match (es.filterMap fun e => e.wait.map (·.1)) ++ ps.filterMap fun c => c.wait.map (·.1) with
  | t :: ts => some ⟨0xA, .token (t :: ts)⟩
  | [] => if (es.any fun e => decide (lc < e.ready)) || ps.any fun c => decide (lc < c.ready) then some ⟨0xA, .poll⟩ else none

/-- The spawn FIFO of the thread's team, where it has room for a record and the thread may spawn (R235). -/
def State.spawnRoom (s : State) (t : Nat) : Option Nat :=
  let th := s.thread t
  if th.inTrial then none
  else (s.spawnFifo th.gcore th.id.work).filter fun b => decide (fifoSize - (s.bank th.gcore b).items.length ≥ 64)

/-- ivsplit (R235): its results are an iterative form's, of latency 6 (R215), and their zero bounds are +0 (R66). -/
def ivsplitBody (d : Dst) (a : Src) (p : PReg) (t : Nat) : M (Cost × Bool) := plain do
  inTurn t
  let s ← get
  let th := s.thread t
  if th.iter.any (·.solo) then wait 0xA .event
  if !th.inTrial then
    match th.regs.coming (s.lcOf t) with
    | some h => wait h.leaf h.on
    | none => pure ()
  let v ← readF t a (pairRule t d [a] allWide)
  let iv ← v.interval v.wide
  let f := famFmt v.wide
  let entries (x : Num.Iv) : List (Word64 × Kind) := ivEntries v.wide (x.codes f).1 (x.codes f).2
  let m := Num.decodeF f (iv.mid f)
  let s ← get
  match s.spawnRoom t with
  | none => iterate t d (some (p, .F)) (entries iv) 6
  | some b =>
    let th := s.thread t
    let r := th.regs.put d ((entries ⟨m, iv.hi⟩).map fun e => Entry.mk' e.1 e.2 0)
    let rec' := spawnRecord th (s.groupOf t) (s.workOf t).team r p
    iterate t d (some (p, .T)) (entries ⟨iv.lo, m⟩) 6
    modify fun s => s.modBank th.gcore b fun x => x.push rec'

/-- ivsplit (R235). -/
def execIvsplit (c : RCtl) (d : Dst) (a : Src) (p : PReg) (s : State) : Out :=
  .next (runWord (shR c [a]) (ivsplitBody d a p) s)

/-- SPAWN_START: the oldest record is popped once a lane has a free context and room, and its child is placed there
(R237). `team` is the team's own number in this model. -/
def State.spawnStart (s : State) (die core w : Nat) : State :=
  let gc := die * 64 + core
  match s.spawnFifo gc w with
  | none => s
  | some b =>
    let items := (s.bank gc b).items
    if items.length < 64 then s
    else
      let ws := items.take 64
      let ctl := (ws.getD 1 0).toNat
      let n := ctl / 2 ^ 58
      let lanes := (List.range 64).filter fun l => s.laneRoom die core l 1 n
      if lanes.isEmpty then s
      else
        let (lane, s) := s.pick lanes 0
        let (slot, s) := s.pick (s.freeSlotsOf die core lane) 0
        let s := s.modBank gc b fun x => x.pop 64
        let img := (ws.drop 3).take 54
        let preds : Vector PCell 8 := Vector.ofFn fun i =>
          PCell.of (if i.val = 0 then .F else Tri.ofCode (ctl / 2 ^ (43 + 2 * (i.val - 1)) % 4))
        let (s, r, ok) := s.mendRegs gc (imageRegs img preds)
        let pc := (ws.getD 0 0).toNat % 2 ^ 52
        let grp := ctl / 2 ^ 37 % 64
        let tig := ctl / 2 ^ 31 % 64
        let x := s.work w
        if !ok then
          let f : FaultRec := ⟨(s.die die).mer, 0, pc, 0, 0x42, 1, x.ctx, (ws.getD 2 0).toNat % 2 ^ 32, grp, tig, die, core,
            lane, slot, 0⟩
          s.postQ x.ctx f
        else
          let (gi, s) := s.addGroup { Group.blank with
            work := w, num := grp, size := 1, n := n, g := (s.card x.card).uniforms }
          let (t, s) := s.addThread ⟨w, gi, tig, die, core, lane, slot⟩ pc
          let s := s.modThread t fun th => { th with regs := r, sck := ctl / 2 ^ 57 % 2 == 1 }
          s.newBundle [t] none (s.die die).lc

/-- SPAWN_START (R237). -/
def execSpawnStart (die core team : Nat) (s : State) : Out := .next (s.spawnStart die core team)

end Sys2Proof.Machine
end

