-- ==== Sys2Proof/Machine/Trials.lean ====
section
/-! DEFINITION. The trial words and the end of a trial (R312-R331). -/

namespace Sys2Proof.Machine

/-- The 512 bytes of a context's code window part; before its first lcload they are free values (R313, DESIGN CHOICE, log entry 6). -/
def State.window (s : State) (t : Nat) : List Byte × State :=
  let th := s.thread t
  let i := th.id.lane * 8 + th.id.slot
  match (s.core th.gcore).windows.find i with
  | some w => (w, s)
  | none =>
    let n := s.sched.draw
    let w := (List.range 512).map fun j => Config.windowByte (n + j)
    (w, (s.modSched fun c => { c with draw := n + 512 }).modCore th.gcore fun c => { c with windows := c.windows.put i w })

/-- A candidate's code word, from the window part (R312). -/
def windowWord (w : List Byte) (j : Nat) : Word32 := BitVec.ofNat 32 (leVal ((w.drop (16 + 4 * j)).take 4))

/-- A fuel operand (R328, R331). -/
def readFuel (t : Nat) (x : Src) : M Nat := do return min (← readUnsigned t x) (2 ^ 32 - 1)

/-- try (R328). -/
def tryBody (d : Dst) (a b : Src) (t : Nat) : M Bool := do
  let s ← get
  if s.ops.any fun kv => kv.2.tid == t && decide (kv.2.act = .lcload) && !kv.2.performed then wait 0xE .poll
  let (fuel, grant) ← readUnsigned2 t a b
  let fuel := min fuel (2 ^ 32 - 1)
  modify fun s => s.doom t 7
  let (w, s) := (← get).window t
  set s
  let len := leVal (w.take 2)
  let bad := len = 0 || len > 124 || leVal ((w.drop 2).take 2) != 0
  let out := match d with
    | .k r => r.val
    | _ => 0
  modT t fun th =>
    { th with h0 := 0, h1 := 0,
              trial := some ⟨len, leVal ((w.drop 4).take 4), fuel, fuel, BitVec.ofNat 64 grant, out, th.nextHeader,
                if bad then some ⟨1, 0x69, 0⟩ else none, false, 0⟩ }
  modT t fun th => th.goTo 0
  return true

/-- A thread enters its trial: it goes on alone, 4 lane cycles after the try issued (R315, R326); a malformed slot ends
the trial at once (R328). -/
def State.enterTrial (t : Nat) (s : State) : State :=
  let s := s.alone t 4
  match (s.thread t).trial.bind (·.ending) with
  | some e => s.endTrial t e
  | none => s

/-- try (R328). -/
def execTryT (c : RCtl) (d : Dst) (a b : Src) (s : State) : Out :=
  .next (runEnd (shR c [a, b]).ban (tryBody d a b) State.enterTrial s)

/-- tend (R329): it costs its unit of fuel and ends the trial. -/
def tendBody (t : Nat) : M (Cost × Bool) := do
  let th ← getT t
  if !th.inTrial then fault 0x6A
  modT t fun th => { th with trial := th.trial.map fun r => { r with fuel := r.fuel - 1 } }
  modify fun s => s.endTrial t ⟨0, 0, th.trialOff⟩
  return (oneBeat, true)

/-- tend (R329). -/
def execTend (c : RCtl) (s : State) : Out := .next (runWord (shR c []) tendBody s)

/-- rotl64. -/
def rotl64 (x : Word64) (n : Nat) : Word64 := x.rotateLeft n

/-- The fold of R330 on a thread's signature halves. -/
def Thread.fold (th : Thread) (v : Word64) : Thread :=
  let h0 := rotl64 (th.h0 ^^^ v) 13
  { th with h0 := h0, h1 := th.h1 + h0 }

/-- fold (R330): a FUT takes 0x2D without waiting (R173). -/
def foldBody (a : Src) (t : Nat) : M (Cost × Bool) := plain do
  let v ← readSrc t .single true a
  if v.kind = .fut then fault 0x2D
  modT t fun th => th.fold v.val

/-- fold (R330). -/
def execFold (c : RCtl) (a : Src) (s : State) : Out := .next (runWord (shR c [a]) (foldBody a) s)

/-- fuel (R331): the word's own unit counts as charged. -/
def fuelBody (d : Dst) (a : Src) (t : Nat) : M (Cost × Bool) := do
  let x ← readFuel t a
  let th ← getT t
  match th.trial with
  | some r =>
    if r.susp then
      writeVal t d 0 .i32 1
      return (oneBeat, false)
    else if r.fuel - 1 < x then
      modT t fun th => { th with trial := th.trial.map fun r => { r with fuel := 0 } }
      modify fun s => s.endTrial t ⟨1, 0x65, th.trialOff⟩
      return (oneBeat, true)
    else
      modT t fun th => { th with trial := th.trial.map fun r => { r with fuel := r.fuel - x } }
      writeVal t d (r.fuel - 1 - x) .i32 1
      return (oneBeat, false)
  | none =>
    writeVal t d 0 .i32 1
    return (oneBeat, false)

/-- fuel (R331). -/
def execFuel (c : RCtl) (d : Dst) (a : Src) (s : State) : Out := .next (runWord (shR c [a]) (fuelBody d a) s)

/-! ### The end of a trial (R321, R322) -/

/-- The outcome record (R322). -/
def outcome (r : Trial) (e : Ending) (h0 h1 : Word64) (sig icause status : Nat) : List Word64 :=
  [BitVec.ofNat 64 (r.id % 2 ^ 32 + field status 32 8 + field e.cause.toNat 40 8 + field sig 48 8 + field icause 56 8),
   BitVec.ofNat 64 ((r.allow - r.fuel) % 2 ^ 32 + field e.off 32 16), h0, h1]

/-- Leaves trial mode: the outcome is written, nothing is pushed, and the thread goes on after the try's clause. -/
def State.leaveTrial (s : State) (t : Nat) (r : Trial) (e : Ending) (sig icause status : Nat) : State :=
  let s := s.modThread t fun th =>
    th.modRegs fun x => { x with k := setKs x.k r.out ((outcome r e th.h0 th.h1 sig icause status).map fun v => Entry.mk' v .i64 0) }
  let s := s.modThread t fun th => { (th.goTo r.back).newWord with trial := none, hold := none, done := false }
  let th := s.thread t
  let s := s.modBundle th.bundle fun b => { b with busy := max b.busy (s.lcOf t + 6) }
  (s.occupy th.gcore [th.id.lane] (s.lcOf t + 6)).rawEvent th.gcore 6

/-- The trial's insertion into the context's signature set (R321, R324): what it answers, or that it must still wait. -/
def State.endInsert (s : State) (t tb : Nat) : Except State (State × Nat × Nat) :=
  let th := s.thread t
  let (h0, h1) := sigNorm th.h0 th.h1
  let place : M Access := do placeXlat t (← placeSig t tb h0) .atomic
  match place.run s with
  | .error (.hold _) s' => .error s'
  | .error (.trap c _) s' => .ok (s.sliceActs s' c, 3, c.toNat)
  | .ok a s =>
    match s.perform (mkOp s t tb a (.sigin h0 h1) .normal 0 true) with
    | .done s out => .ok (s, if out.headD (1, .i32) = (1, .i32) then 1 else 2, 0)
    | .part w =>
      match w.lost with
      | (_, c) :: _ => .ok (w.s, 3, c.toNat)
      | [] => .error (w.revs.foldl (fun s r => s.answerRevoke r.1 r.2) w.s)
    | .hold => .error s
    | .trap s c _ => .ok (s, 3, c.toNat)

/-- TRIAL_END (R321): once the candidate's accesses have performed, the trial folds, inserts and writes its outcome. An insertion
ends a checkpoint interval, as a sigin does (R386). -/
def State.trialEnd (s : State) (t : Nat) : State :=
  let th := s.thread t
  match th.trial with
  | none => s
  | some r =>
    match r.ending with
    | none => s
    | some e =>
      if th.cnt.ld ≠ 0 ∨ th.cnt.st ≠ 0 then s
      else if e.cause = 0x69 then s.leaveTrial t r e 0 0 e.st
      else
        let f := s.modThread t fun th => th.fold (BitVec.ofNat 64 (e.st * 256 + e.cause.toNat))
        let ss := (s.ctx (s.ctxOf t)).sigset.toNat
        if ss / 256 % 2 = 0 then f.leaveTrial t r e 0 0 e.st
        else match f.endInsert t (ss % 256) with
          | .error w =>
            -- the halves keep their value until the insertion has answered; a walk may have been attached
            w.modThread t fun x => { x with h0 := th.h0, h1 := th.h1 }
          | .ok (s, sig, ic) => (s.leaveTrial t r e sig ic (if sig = 2 then 2 else e.st)).endInterval th.id.work

/-- TRIAL_END (R321). -/
def execTrialEnd (t : Nat) (s : State) : Out := .next (s.trialEnd t)

end Sys2Proof.Machine
end

