-- ==== Sys2Proof/Machine/Engines.lean ====
section
/-! DEFINITION. The copy, slab and transform engines (08): their checks (R168, R169, R177, R178), acceptance and starting
(R170), what an operation does (R175-R182, R186-R189), futures (R171-R174, R183, R184) and drain (R185). -/

namespace Sys2Proof.Machine

/-! ### CRC-32C (R182) -/

/-- Eight steps of the reflected polynomial. -/
def crcBits : Nat → Nat → Nat
  | 0, c => c
  | n + 1, c => crcBits n (if c % 2 = 1 then c / 2 ^^^ 0x82F63B78 else c / 2)

/-- CRC-32C of bytes (R182). -/
def crc32c (bs : List Byte) : BitVec 32 :=
  BitVec.ofNat 32 ((bs.foldl (fun c b => crcBits 8 (c ^^^ b.toNat)) 0xFFFFFFFF) ^^^ 0xFFFFFFFF)

/-! ### Packed elements (R51) -/

/-- Element `i` of width `w` of a packed stream. -/
def elemOf (v : Nat) (w i : Nat) : Nat := v / 2 ^ (w * i) % 2 ^ w

/-- Packs elements of width `w` into bytes. -/
def packBytes (w n : Nat) (es : List Nat) : List Byte :=
  leBytes n (es.zipIdx.map fun e => (e.1 % 2 ^ w) * 2 ^ (w * e.2)).sum

/-! ### Scales (R67, R68, R180) -/

/-- A reserved scale layout code. -/
def RecF.badScale (r : RecF) : Bool := decide (r.scl > 2)

/-- Index of sA(row, j) for M rows and c chunks (R67). -/
def scaleA (scl M c row j : Nat) : Nat := if scl = 2 then j * M + row else row * c + j
/-- Index of sB(j, u) for t column tiles and c chunks (R67). -/
def scaleB (scl t c j u : Nat) : Nat := if scl = 2 then u * c + j else j * t + u

/-! ### Operations and their ends -/

/-- Change one operation. -/
def State.modEng (s : State) (gc e i : Nat) (f : EngOp → EngOp) : State :=
  s.modEngine gc e fun x => { x with ops := x.ops.upd i f }

/-- Operations of an engine, oldest first. -/
def State.engOps (s : State) (gc e : Nat) : List (Nat × EngOp) := (s.engine gc e).ops

/-- A status word (R172). -/
def engStatus (chunks outcome cause : Nat) : BitVec 32 :=
  BitVec.ofNat 32 (field chunks 16 16 + field outcome 8 4 + field cause 0 8)

/-- The operation ends: its slot holds its status (R172, R174). -/
def State.engEnd (s : State) (gc e i : Nat) (st : BitVec 32) (crc : Word64) : State :=
  match (s.engine gc e).ops.find i with
  | none => s
  | some o => s.modEngine gc e fun x =>
      { x with ops := x.ops.drop i,
               slots := match o.slot with
                 | some k => x.slots.upd k fun sl => { sl with status := some st, crc := crc }
                 | none => x.slots }

/-- Whether an operation moves nothing (R168, R177). -/
def EngWhat.empty : EngWhat → Bool
  | .copy _ _ _ _ n => n == 0
  | .slabld _ _ _ _ n => n == 0
  | _ => false

/-- An operation that has started and is not parked (R170, R184). -/
def EngOp.active (o : EngOp) : Bool :=
  match o.st with
  | .running | .walking _ => true
  | _ => false

/-- An engine's next operation takes the next slot of the ring, once the operation that last held it has completed; a
reuse adds 1 to the generation; the future is delivered and the issue counts fall (R170, R171, R252). One that moves nothing
completes at once (R168, R177). -/
def State.accept (s : State) (gc e : Nat) (low : EngOp → Nat) : State :=
  let x := s.engine gc e
  match x.ops.find? fun o => decide (o.2.st = .queued) with
  | none => s
  | some (i, o) =>
    let sl := x.slots.getD x.next Slot.blank
    if sl.busy && sl.status.isNone then s
    else
      let gen := if sl.busy then sl.gen + 1 else sl.gen
      let h : Word64 := BitVec.ofNat 64 (field s.dev.fab.toNat 56 8 + field gc 48 8 + field e 46 2 + field x.next 40 6 +
        field gen.toNat 24 16 + field (low o) 0 24)
      let n := s.sched.nextId
      let s := ((s.modSched fun c => { c with nextId := n + 1 }).rawEvent gc 9).modEngine gc e fun x =>
        { x with slots := x.slots.put x.next ⟨gen, true, none, 0⟩, next := (x.next + 1) % 64,
                 ops := x.ops.upd i fun o => { o with st := .accepted, slot := some x.next, taken := n } }
      let s := (o.tid :: o.others).foldl (fun s t =>
        (s.modThread t fun th => th.land o.tok [(h, .fut)] []).lowerEn t) s
      if o.what.empty then s.engEnd gc e i (engStatus 0 0 0) 0 else s

/-! ### Issue checks (R169) -/

/-- A record as an engine word uses it: its fields, the rights it needs, the byte its causes name. -/
structure Side where
  r : RecF
  x : Rights
  at0 : Nat
  deriving DecidableEq, Repr

/-- Rights of an engine read. -/
def engRd : Rights := ⟨true, false, false, true⟩
/-- Rights of an engine write. -/
def engWr : Rights := ⟨false, true, false, true⟩

/-- Check 1 of R144 on one record. -/
def Side.check1 (t : Nat) (d : Side) : M ReadAs := do
  if !d.r.valid then faultAt 0x21 d.at0
  if d.r.view = 3 then fault 0x06
  match (← get).readAs t d.r.view with
  | some (.tx st _) => return .snap st
  | some v => return v
  | none => faultAt 0x90 d.at0

/-- Check 3 of R144 on one record; every home takes engine accesses, so that check 2 passes. -/
def Side.check3 (d : Side) : M Unit := do
  if !d.r.grants d.x then faultAt 0x22 d.at0

/-- Checks 1 to 4 over the records of a word, each check on every record before the next (R169). -/
def engChecks (t : Nat) (sides : List Side) (kinds : Bool) : M (List ReadAs) := do
  let vs ← sides.mapM (Side.check1 t)
  let _ ← sides.mapM Side.check3
  if !kinds then faultAt 0x2D ((sides.head?.map (·.at0)).getD 0)
  return vs

/-- Size of the team's scratchpad where the record lies in it. -/
def State.sizeFor (s : State) (t : Nat) (r : RecF) : Option Nat :=
  if r.home = 0xFC then some (s.spSize (s.thread t).gcore (s.thread t).id.work) else none

/-- The first of `k` rows whose run of `n` bytes breaks check 6. -/
def RecF.badRow (r : RecF) (size : Option Nat) (row col n : Nat) : Nat → Option Nat
  | 0 => none
  | k + 1 => match r.badRow size row col n k with
    | some a => some a
    | none => r.firstBad size (n / 16 + 1) (row + k) col n

/-- The first logical byte offset of a run over rows that breaks check 6. -/
def RecF.badRun (r : RecF) (size : Option Nat) : Nat → Nat → Nat → Option Nat
  | 0, _, _ => none
  | k + 1, L, n =>
    if n = 0 then none
    else
      let p := r.rowCol L
      match r.firstBad size 1 p.1 p.2 (min n 16) with
      | some a => some a
      | none => r.badRun size k (L + 16) (n - 16)

/-- Takes 0x20 where a check 6 failed. -/
def boundsAt (x : Option Nat) : M Unit :=
  match x with
  | some a => faultAt 0x20 a
  | none => pure ()

/-- Destination bytes beyond 65,535 chunks take 0x82 (R169). -/
def sizeCheck (n : Nat) : M Unit := faultIf (decide ((n + 4095) / 4096 > 65535)) 0x82

/-- What an engine word hands over, and the views that its operation reads its destination's and its source's record under
(R100). -/
structure Handed where
  what : EngWhat
  viewD : ReadAs
  viewS : ReadAs

/-- The operation `i` that a thread hands over, its future going to other threads too. -/
def newEngOp (s : State) (t : Nat) (others : List Nat) (tbD i : Nat) (h : Handed) : EngOp where
  tid := t
  others := others
  ctx := s.ctxOf t
  work := (s.thread t).id.work
  group := (s.thread t).id.group
  tbD := tbD
  what := h.what
  tok := i
  slot := none
  st := .queued
  taken := 0
  progress := 0
  cancel := false
  retried := false
  viewD := h.viewD
  viewS := h.viewS
  begun := false
  start := 0
  got := []
  buf := none
  order := i

/-- Hands an operation to an engine: the issue count rises and its future is on its way (R21, R169). -/
def handOff (t : Nat) (d : Dst) (e tbD : Nat) (h : Handed) : M Unit := do
  raiseEn t
  let i ← fresh
  writePend t d i [.fut]
  let s ← get
  set (s.modEngine (s.thread t).gcore e fun x => { x with ops := x.ops.put i (newEngOp s t [] tbD i h) })

/-- The side of a record and an index operand. -/
def sideOf (t : Nat) (tb : Rec) (ix : Val) (x : Rights) : M (Side × BitVec 512) := do
  let s ← get
  let b := (s.ctx (s.ctxOf t)).recAt tb.val
  let r := recF b
  return (⟨r, x, match ix.index with
    | some i => r.first (scaled r i)
    | none => 0⟩, b)

/-- The index of an operand whose kind has been checked. -/
def Val.ix (v : Val) : Nat := v.index.getD 0

/-! ### The words (R175, R177, R180) -/

/-- The checks of copy, in order (R168, R169, R175). A destination in scratchpad that is shadowed is checked as for base, against the
team's space too; what lies at shadow + offset beyond that space is written nowhere (R188; DESIGN CHOICE, log entry 114). -/
def copyChecks (tbD tbS : Rec) (a b c : Src) (t : Nat) : M Handed := do
  srcRules t false [a, b, c]
  let va ← readSrc t .raw false a
  let vb ← readSrc t .raw false b
  let vc ← readSrc t .raw false c
  let (sd, wd) ← sideOf t tbD va engWr
  let (ss, ws) ← sideOf t tbS vb engRd
  let vs ← engChecks t [ss, sd] (va.index.isSome && vb.index.isSome && vc.index.isSome)
  let dL := scaled sd.r va.ix
  let sL := scaled ss.r vb.ix
  let n := vc.ix
  if sL % 16 ≠ 0 then faultAt 0x23 ss.at0
  if dL % 16 ≠ 0 then faultAt 0x23 sd.at0
  if n % 16 ≠ 0 then faultAt 0x23 ss.at0
  let s ← get
  boundsAt (ss.r.badRun (s.sizeFor t ss.r) (n / 16) sL n)
  boundsAt (sd.r.badRun (s.sizeFor t sd.r) (n / 16) dL n)
  faultIf ss.r.badScale 0x06
  sizeCheck n
  return ⟨.copy wd ws dL sL n, .latest, vs.headD .latest⟩

/-- copy (R175). -/
def copyBody (d : Dst) (tbD tbS : Rec) (a b c : Src) (t : Nat) : M (Cost × Bool) := plain do
  inTurn t
  handOff t d 0 tbD.val (← copyChecks tbD tbS a b c t)

/-- The first of `n` whole rows from `row` on that breaks check 6: rows lie in ascending order, so that it is the first to end
beyond the record's extent or the scratchpad space. -/
def RecF.badRows (r : RecF) (size : Option Nat) (row n : Nat) : Option Nat :=
  let lim := min r.extent ((size.map (· - r.base)).getD r.extent)
  let k := max row (if lim < r.rowlen then 0 else (lim - r.rowlen) / r.stride + 1)
  if k < row + n then r.firstBad size (r.rowlen / 16 + 1) k 0 r.rowlen else none

/-- The checks of slabld, in order (R68, R169, R177). -/
def slabldChecks (tbS : Rec) (a b c : Src) (t : Nat) : M Handed := do
  srcRules t false [a, b, c]
  let va ← readSrc t .raw false a
  let vb ← readSrc t .raw false b
  let vc ← readSrc t .raw false c
  let (ss, ws) ← sideOf t tbS vb engRd
  let vs ← engChecks t [ss] (va.index.isSome && vb.index.isSome && vc.index.isSome)
  let L := scaled ss.r vb.ix
  let n := vc.ix
  if L % 16 ≠ 0 then faultAt 0x23 ss.at0
  let s ← get
  let srow := L / ss.r.rowlen
  if ss.r.rowlen ≠ 0 then boundsAt (ss.r.badRows (s.sizeFor t ss.r) srow n)
  let off := va.ix % 2 ^ 17
  let col0 := va.ix / 2 ^ 17
  if ss.r.rowlen = 0 then fault 0x83
  if L % ss.r.rowlen ≠ 0 || va.ix ≥ 2 ^ 24 || off % 16 ≠ 0 || off + ss.r.rowlen > 131072 || col0 + n > 128 then fault 0x83
  faultIf ss.r.badScale 0x06
  return ⟨.slabld ws srow col0 off n, .latest, vs.headD .latest⟩

/-- slabld (R177). -/
def slabldBody (d : Dst) (tbS : Rec) (a b c : Src) (t : Nat) : M (Cost × Bool) := plain do
  inTurn t
  handOff t d 1 256 (← slabldChecks tbS a b c t)

/-- N of a sparse code (R242). -/
def Sparse.n : Sparse → Nat
  | .n8 => 8 | .n16 => 16 | .n32 => 32

/-- Geometry of an xform (R179, R181, R245): element widths, rows and columns of the dense source tile and of the
result, bytes of a value row and of an index row, rows written and bytes of each. -/
structure XGeom where
  wS : Nat
  wD : Nat
  rows : Nat
  cols : Nat
  resR : Nat
  resC : Nat
  rowB : Nat
  idxB : Nat
  outN : Nat
  outB : Nat
  deriving DecidableEq, Repr

/-- The geometry of an xform between two records. -/
def xgeom (d s : RecF) (t : XCtl) : XGeom :=
  let wS := (Num.format s.fmt).width
  let wD := if t.cv then (Num.format d.fmt).width else wS
  let rows := match t.sp with
    | some n => s.trows * 64 / n.n
    | none => s.trows
  let resR := if t.tr then s.tcols else rows
  let resC := if t.tr then rows else s.tcols
  { wS := wS, wD := wD, rows := rows, cols := s.tcols, resR := resR, resC := resC,
    rowB := (s.tcols * wS + 7) / 8, idxB := (s.tcols * 6 + 7) / 8,
    outN := if t.pk then resC else resR,
    outB := if t.pk then (resR * wD + 127) / 128 * 16 else (resC * wD + 7) / 8 }

/-- Uses that take 0x81 (R178). -/
def xbad (d s : RecF) (t : XCtl) : Bool :=
  let g := xgeom d s t
  (!t.cv && (t.sc || t.rnd != .rn || s.fmt != d.fmt)) || s.fmt == 0xF || d.fmt == 0xF || (t.sv && !t.sc) ||
  s.rowlen == 0 || d.rowlen == 0 || s.trows == 0 || s.tcols == 0 ||
  (match t.sp with
    | some n => s.trows % n.n != 0
    | none => false) ||
  g.cols * g.wS % 8 != 0 || (!t.pk && g.resC * g.wD % 8 != 0)

/-- The checks of xform, in order (R169, R178-R181); a shadowed destination in scratchpad as in copy's (DESIGN CHOICE, log entry 114). -/
def xformChecks (tbD tbS : Rec) (x : XCtl) (a b : Src) (t : Nat) : M Handed := do
  srcRules t false [a, b]
  let va ← readSrc t .raw false a
  let vb ← readSrc t .raw false b
  let (sd, wd) ← sideOf t tbD va engWr
  let (ss, ws) ← sideOf t tbS vb engRd
  let vs ← engChecks t [ss, sd] (va.index.isSome && vb.index.isSome)
  let dL := scaled sd.r va.ix
  let sL := scaled ss.r vb.ix
  if sL % 16 ≠ 0 then faultAt 0x23 ss.at0
  if dL % 16 ≠ 0 then faultAt 0x23 sd.at0
  let g := xgeom sd.r ss.r x
  let s ← get
  let (srow, scol) := ss.r.rowCol sL
  let (drow, dcol) := sd.r.rowCol dL
  boundsAt (ss.r.badRow (s.sizeFor t ss.r) srow scol g.rowB ss.r.trows)
  if x.sp.isSome then boundsAt (ss.r.badRow (s.sizeFor t ss.r) (srow + ss.r.trows) scol g.idxB ss.r.trows)
  boundsAt (sd.r.badRow (s.sizeFor t sd.r) drow dcol g.outB g.outN)
  faultIf (xbad sd.r ss.r x) 0x81
  if ss.r.badScale || (x.sc && sd.r.badScale) then fault 0x06
  sizeCheck (g.outN * g.outB)
  return ⟨.xform wd ws x dL sL, if x.sc then vs.getD 1 .latest else .latest, vs.headD .latest⟩

/-- xform (R178-R181). -/
def xformBody (d : Dst) (tbD tbS : Rec) (x : XCtl) (a b : Src) (t : Nat) : M (Cost × Bool) := plain do
  inTurn t
  handOff t d 2 tbD.val (← xformChecks tbD tbS x a b t)

/-- copy (R175). -/
def execCopy (d : Dst) (tbD tbS : Rec) (a b c : Src) (s : State) : Out :=
  .next (runWord (shE [a, b, c]) (copyBody d tbD tbS a b c) s)
/-- slabld (R177). -/
def execSlabld (d : Dst) (tbS : Rec) (a b c : Src) (s : State) : Out :=
  .next (runWord (shE [a, b, c]) (slabldBody d tbS a b c) s)
/-- xform (R180). -/
def execXform (d : Dst) (tbD tbS : Rec) (t : XCtl) (a b : Src) (s : State) : Out :=
  .next (runWord (shE [a, b]) (xformBody d tbD tbS t a b) s)

/-! ### What an operation reads and writes (R186-R189) -/

/-- Why an engine does not go on. -/
inductive EngStop where
  | hold
  | park (va : Nat)
  | fail (c : Nat)
  deriving DecidableEq, Repr

/-- A computation of an engine. -/
abbrev EM := EStateM EngStop State

/-- An engine at work: its core, its number, the operation's. -/
structure EngAt where
  gc : Nat
  e : Nat
  i : Nat
  deriving DecidableEq, Repr

/-- Translates for an engine: a miss waits for a walk, and where that finds a page without an entry the operation is parked (R79, R186). -/
def engXlat (p : EngAt) (o : EngOp) (va : Nat) (write : Bool) : EM Xlat := do
  let s ← get
  match s.look (p.gc / 64) o.ctx va (.engine write) with
  | .ok x => return x
  | .bad c => throw (.fail c.toNat)
  | .miss =>
    set (s.attachWalk (p.gc / 64) o.ctx va (.engine write) (.eng p.gc p.e p.i))
    throw (.park va)

/-- Reads main memory of this device at a virtual address, at the home slice or a copy of the line, never from L1 (R83, R187). -/
def engReadMain (p : EngAt) (o : EngOp) (v : ReadAs) (va n : Nat) : EM (List Byte) := do
  let x ← engXlat p o va false
  let s ← get
  let line := x.src / 256
  if !s.lineAwake line then throw .hold
  match (if x.ver then s.homeLine line v else some (memLine s.homes.mem line)) with
  | none => throw .hold
  | some d =>
    let die := p.gc / 64
    let s := ((s.noteReplica die (x.pa / 256) x.dup).codeCheck o.ctx line).l2Read die line x.ver .normal
    set s
    if s.poisoned line then throw (.fail 0x29)
    return (List.range n).map fun i => lineByte d (x.src % 256 + i)

/-- An access of an engine to another device fails where its path is gone or that device refuses it (R105, R147, R186). -/
def engFar (rd : Bool) (dev : Nat) (v : ReadAs) : EM Unit := do
  let s ← get
  if !s.pathTo dev then throw (.fail 0x2E)
  let (c, s) := s.askFar rd dev v
  set s
  match c with
  | some c => throw (.fail c.toNat)
  | none => pure ()

/-- An engine's request to the host goes out after those issued before it (R273). -/
def engHost : EM Unit := do
  if (← get).ops.any fun kv => kv.2.home == .host && !kv.2.performed then throw .hold

/-- The team's banks stand on no core, or on one that is still to be made ready (R369). -/
def Switch.away : Switch → Bool
  | .saved _ | .restoring _ => true
  | _ => false

/-- An engine's access to the scratchpad of a team that is switched out waits until the team's banks stand on their core again (R186;
DEDUCED, log entry 113). -/
def engScratch (o : EngOp) : EM Unit := do
  if ((← get).works.find o.work).any fun x => x.sw.away then throw .hold

/-- Reads up to 16 bytes at an offset of a record. -/
def engRead (p : EngAt) (o : EngOp) (r : RecF) (v : ReadAs) (off n : Nat) : EM (List Byte) := do
  let s ← get
  let a := r.base + off
  match r.homeOf s.dev.fab with
  | .main => engReadMain p o v a n
  | .scratch =>
    engScratch o
    if (s.spPoison p.gc o.work a n).isSome then throw (.fail 0x29)
    return s.spRead p.gc o.work a n
  | .host => do
    engHost
    return s.homes.host.readN a n
  | .remote d => do
    engFar true d v
    let (s, bs) := (← get).remoteBytes n
    set s
    return bs

/-- A publication of the group that is not stamped yet and was handed over before the operation: its writes join the
next one (R115). -/
def State.pubAhead (s : State) (o : EngOp) : Bool :=
  s.commits.any fun k => decide (k.1 < o.order) && decide (k.2.owner = .pub o.ctx o.tbD) && k.2.stamp.isNone

/-- Writes bytes of one line at an offset of a record: shadowed, versioned or as they happen, the words' owners revoked first
(R187, R188). -/
def engWrite (p : EngAt) (o : EngOp) (r : RecF) (off : Nat) (bs : List Byte) : EM Unit := do
  let s ← get
  let a := (if r.shadow = 0 then r.base else r.shadow) + off
  match r.homeOf s.dev.fab with
  | .main =>
    let x ← engXlat p o a true
    let s ← get
    if x.ver && s.pubAhead o then throw .hold
    let line := x.pa / 256
    let rs : Runs := [(x.pa % 256, bs)]
    let s := if s.lineAwake line then s.disown (rs.words line) else s
    match if x.ver then s.pubWrite o.ctx o.tbD line rs else s.homeWrite o.ctx .normal false line rs none with
    | .ok s => set (s.l2Settle line)
    | .hold s _ => do set s; throw .hold
    | .noSlot => throw .hold
    | .poisoned s => do set s; throw (.fail 0x29)
  | .scratch =>
    engScratch o
    set (s.spWrite p.gc o.work a bs)
  | .host => do
    engHost
    set (s.modHomes fun h => { h with host := h.host.writeN a bs })
  | .remote d => do
    engFar false d .latest
    modify fun s => s.modHomes fun h =>
      { h with farGroups := if h.farGroups.contains (o.ctx, o.tbD) then h.farGroups else (o.ctx, o.tbD) :: h.farGroups }

/-! ### Chunks (R172, R184) -/

/-- A part of a run: its place, its length, its position in the run. -/
abbrev Part3 := Nat × Nat × Nat

/-- Pieces of a run of `n` bytes at a row's column. -/
def RecF.runPieces (r : RecF) (row col n at_ : Nat) : List Part3 :=
  (List.range ((n + 15) / 16)).map fun c => (r.place row (col + 16 * c), min 16 (n - 16 * c), at_ + 16 * c)

/-- Joins pieces that lie one after another in one destination line and begin in one 4,096-byte chunk; `base` gives lines. An aligned
16-byte piece is written whole with the chunk that it begins in (R281; DEDUCED, log entry 112). -/
def joinPieces (base : Nat) : List Part3 → List (List Part3) → List (List Part3)
  | [], acc => acc.reverse.map List.reverse
  | x :: r, [] => joinPieces base r [[x]]
  | x :: r, [] :: acc => joinPieces base r ([x] :: acc)
  | x :: r, (y :: g) :: acc =>
    if x.1 = y.1 + y.2.1 ∧ (base + x.1) / 256 = (base + y.1) / 256 ∧ x.2.2 / 4096 = y.2.2 / 4096 ∧ x.2.2 = y.2.2 + y.2.1
    then joinPieces base r ((x :: y :: g) :: acc)
    else joinPieces base r ([x] :: (y :: g) :: acc)

/-- The pieces of a run, by destination line and chunk. -/
def RecF.groups (r : RecF) (ps : List Part3) : List (List Part3) :=
  joinPieces (if r.shadow = 0 then r.base else r.shadow) ps []

/-- Takes steps in order, keeping what each gave: an operation that waits or parks goes on from there (R186). With the first of them
its chunk is in progress (R184). -/
def goOn (p : EngAt) (plan : List (EM (List Byte))) : EM (List (List Byte)) := do
  let have_ := (((← get).engine p.gc p.e).ops.find p.i).map (·.got.length)
  let _ ← (plan.drop (have_.getD 0)).mapM fun a => do
    let bs ← a
    modify fun s => s.modEng p.gc p.e p.i fun o => { o with begun := true, got := bs :: o.got }
  return ((((← get).engine p.gc p.e).ops.find p.i).map (·.got.reverse)).getD []

/-- Moves groups of pieces, from the operation's progress on, up to the end of the chunk in progress: each group is read, then
written to one destination line. `keep`: what has been read serves later chunks too. It answers whether the operation is at its end. -/
def moveChunk (p : EngAt) (keep : Bool) (read : List Part3 → EM (List Byte)) (write : Nat → List Byte → EM Unit) :
    List (List Part3) → EM Bool
  | [] => return true
  | [] :: r => moveChunk p keep read write r
  | (x :: g) :: r => do
    let done := ((((← get).engine p.gc p.e).ops.find p.i).map (·.progress)).getD 0
    if x.2.2 < done then moveChunk p keep read write r
    else
      let bs ← read (x :: g)
      write x.1 bs
      let n := done + bs.length
      modify fun s => s.modEng p.gc p.e p.i fun o =>
        if keep then { o with progress := n } else { o with progress := n, got := [], begun := n / 4096 == done / 4096 }
      if n / 4096 ≠ done / 4096 then return r.isEmpty else moveChunk p keep read write r

/-- copy (R175): logical byte m goes to logical byte m, 16-byte chunk by 16-byte chunk. -/
def runCopy (p : EngAt) (o : EngOp) (dst src : BitVec 512) (dL sL n : Nat) : EM Bool :=
  let d := recF dst
  let s := recF src
  let ps := (List.range (n / 16)).map fun i =>
    let q := d.rowCol (dL + 16 * i)
    (d.place q.1 q.2, 16, 16 * i)
  let one (y : Part3) : EM (List Byte) := let q := s.rowCol (sL + y.2.2); engRead p o s o.viewS (s.place q.1 q.2) y.2.1
  moveChunk p false (fun g => do return (← goOn p (g.map one)).flatten) (engWrite p o d) (d.groups ps)

/-- slabld (R177): 16-byte slab rows. -/
def runSlabld (p : EngAt) (o : EngOp) (src : BitVec 512) (srow col0 off n : Nat) : EM Bool :=
  let s := recF src
  let per := s.rowlen / 16
  let ps := (List.range (n * per)).map fun i => [((col0 + i / per) * 131072 + off + 16 * (i % per), 16, 16 * i)]
  let one (y : Part3) : EM (List Byte) := engRead p o s o.viewS (s.place (srow + y.2.2 / s.rowlen) (y.2.2 % s.rowlen)) y.2.1
  moveChunk p false (fun g => do return (← goOn p (g.map one)).flatten)
    (fun a bs => modify fun st => st.modCore p.gc fun c => { c with slab := c.slab.writeN a bs }) ps

/-! ### Transforms (R179-R182) -/

/-- Sorts pieces by place. -/
def byPlace (ps : List (Nat × List Byte)) : List Byte := ((ps.insertionSort fun a b => a.1 ≤ b.1).map (·.2)).flatten

/-- Pieces of the source tile's value rows, or of its index rows, as an xform reads them (R179, R245). -/
def tilePieces (r : RecF) (row col n k : Nat) : List Part3 :=
  ((List.range k).map fun i => r.runPieces (row + i) col n 0).flatten

/-- The rows that pieces of `n` bytes a row hold. -/
def rowVals (n k : Nat) (bs : List (List Byte)) : List Nat :=
  let per := (n + 15) / 16
  (List.range k).map fun i => leVal ((bs.drop (i * per)).take per).flatten

/-- The value of a scale; layout 0 gives 1.0. -/
def scaleVal (r : RecF) (xs : List Nat) (i : Nat) : Num.XVal :=
  if r.scl = 0 then .fin false 1 1 else Num.decodeF Num.f32 (xs.getD i 0)

/-- Number of scales of a tile of `rows` by `cols` (R67, R180). -/
def scaleCount (sv : Bool) (rows cols : Nat) : Nat :=
  if sv then (rows + 127) / 128 * ((cols + 127) / 128) else rows * ((cols + 127) / 128)

/-- Index of the scale of element (i, j) of a tile (R67, R180). -/
def scaleIdx (scl : Nat) (sv : Bool) (rows cols i j : Nat) : Nat :=
  let c := (cols + 127) / 128
  if sv then scaleB scl c ((rows + 127) / 128) (i / 128) (j / 128) else scaleA scl rows c i (j / 128)

/-- The code of a dense source element, `none` where expand placed a zero (R179, R245). -/
def denseElem (x : XCtl) (wS : Nat) (vals idx : List Nat) (i j : Nat) : Option Nat :=
  match x.sp with
  | none => some (elemOf (vals.getD i 0) wS j)
  | some n =>
    let slots := (List.range n.n).map fun k => i / 64 * n.n + k
    (slots.reverse.find? fun r => elemOf (idx.getD r 0) 6 j == i % 64).map fun r => elemOf (vals.getD r 0) wS j

/-- A result element's code (R180). A NaN source keeps its sign through the scales; a NaN that comes of a scale, of ∞ × 0, 0 / 0
or ∞ / ∞ has sign 0 (DESIGN CHOICE, log entry 35). Without cv the source's bits are moved as they are, a negative zero of SM among them:
R50's rule is for values that an engine forms (DEDUCED, log entry 115). -/
def xformElem (x : XCtl) (d s : RecF) (c : Option Nat) (sS sD : Num.XVal) : Nat :=
  if x.cv then
    let v := match c with
      | some c => (Num.format s.fmt).value c
      | none => .fin false 0 1
    let v := if x.sc then (match v with
        | .nan g => .nan g
        | v => Num.div (Num.mul v sS) sD) else v
    (Num.format d.fmt).round x.rnd v
  else c.getD 0

/-- The result's bytes, row after row as they are written (R179, R181). -/
def xformOut (x : XCtl) (d s : RecF) (vals idx sS sD : List Nat) : List Byte :=
  let g := xgeom d s x
  let elem (i j : Nat) : Nat :=
    let q := if x.tr then (j, i) else (i, j)
    xformElem x d s (denseElem x g.wS vals idx q.1 q.2)
      (scaleVal s sS (scaleIdx s.scl x.sv g.rows g.cols q.1 q.2)) (scaleVal d sD (scaleIdx d.scl x.sv g.resR g.resC i j))
  ((List.range g.outN).map fun k =>
    if x.pk then packBytes g.wD g.outB ((List.range g.resR).map fun i => elem i k)
    else packBytes g.wD g.outB ((List.range g.resC).map fun j => elem k j)).flatten

/-- Pieces of the source tile's value rows (R182). -/
def xformSource (x : XCtl) (d s : RecF) (sL : Nat) : List Part3 :=
  let q := s.rowCol sL
  tilePieces s q.1 q.2 (xgeom d s x).rowB s.trows

/-- The reads of a record's `n` scales, in index order; layout 0 reads nothing (R67). -/
def scaleReads (p : EngAt) (o : EngOp) (r : RecF) (v : ReadAs) (n : Nat) : List (EM (List Byte)) :=
  if r.scl = 0 then [] else (List.range n).map fun i => engReadMain p o v (r.sbase + 4 * i) 4

/-- Forms the result of an xform, once its source has been read: values, indices, then the scales of the source and of the
destination, each record's under its own view (R100, R179, R180). -/
def xformForm (p : EngAt) (o : EngOp) (x : XCtl) (d s : RecF) (sL : Nat) : EM (List Byte) := do
  match o.buf with
  | some b => return b
  | none =>
    let g := xgeom d s x
    let q := s.rowCol sL
    let one (y : Part3) : EM (List Byte) := engRead p o s o.viewS y.1 y.2.1
    let vs := xformSource x d s sL
    let is := if x.sp.isSome then tilePieces s (q.1 + s.trows) q.2 g.idxB s.trows else []
    let nS := if x.sc ∧ s.scl ≠ 0 then scaleCount x.sv g.rows g.cols else 0
    let nD := if x.sc then scaleCount x.sv g.resR g.resC else 0
    let bs ← goOn p ((vs ++ is).map one ++ scaleReads p o s o.viewS nS ++ scaleReads p o d o.viewD nD)
    let sc := (bs.drop (vs.length + is.length)).map leVal
    let out := xformOut x d s (rowVals g.rowB s.trows bs) (rowVals g.idxB s.trows (bs.drop vs.length)) (sc.take nS) (sc.drop nS)
    modify fun st => st.modEng p.gc p.e p.i fun o => { o with buf := some out }
    return out

/-- Pieces of the result's rows. -/
def xformPieces (x : XCtl) (d s : RecF) (dL : Nat) : List Part3 :=
  let g := xgeom d s x
  let q := d.rowCol dL
  ((List.range g.outN).map fun k => d.runPieces (q.1 + k) q.2 g.outB (k * g.outB)).flatten

/-- xform (R178-R182). -/
def runXform (p : EngAt) (o : EngOp) (dst src : BitVec 512) (x : XCtl) (dL sL : Nat) : EM Bool := do
  let d := recF dst
  let s := recF src
  let out ← xformForm p o x d s sL
  moveChunk p true (fun g => return (g.map fun y => (out.drop y.2.2).take y.2.1).flatten) (engWrite p o d)
    (d.groups (xformPieces x d s dL))

/-- dcrc of what an xform has written (R182). -/
def EngOp.dcrc (o : EngOp) : BitVec 32 :=
  match o.what with
  | .xform dst src x dL _ =>
    let out := o.buf.getD []
    let ps := (xformPieces x (recF dst) (recF src) dL).filter fun q => decide (q.2.2 < o.progress)
    crc32c (byPlace (ps.map fun q => (q.1, (out.drop q.2.2).take q.2.1)))
  | _ => 0

/-- scrc of what an xform has read of its source tile (R182). -/
def EngOp.scrc (o : EngOp) : BitVec 32 :=
  match o.what with
  | .xform dst src x _ sL =>
    crc32c (byPlace (((xformSource x (recF dst) (recF src) sL).zip o.got.reverse).map fun z => (z.1.1, z.2)))
  | _ => 0

/-- Runs an operation from its progress on, to the end of its chunk. -/
def runEngOp (p : EngAt) (o : EngOp) : EM Bool :=
  match o.what with
  | .copy dst src dL sL n => runCopy p o dst src dL sL n
  | .slabld src srow col0 off n => runSlabld p o src srow col0 off n
  | .xform dst src x dL sL => runXform p o dst src x dL sL
  | _ => return true

/-- Destination bytes of an operation of engines 0-2. -/
def EngWhat.total : EngWhat → Nat
  | .copy _ _ _ _ n => n
  | .slabld src _ _ _ n => n * (recF src).rowlen
  | .xform dst src x _ _ => let g := xgeom (recF dst) (recF src) x; g.outN * g.outB
  | _ => 0

/-- Completed chunks of an operation (R172); of the array, chunks promoted or rows moved (R254). -/
def EngOp.chunks (o : EngOp) : Nat :=
  match o.what with
  | .copy _ _ _ _ _ | .slabld _ _ _ _ _ | .xform _ _ _ _ _ =>
    if o.progress < o.what.total then o.progress / 4096 else (o.progress + 4095) / 4096
  | _ => o.progress

/-- The records that an operation of an engine or of the array moves data through. -/
def EngWhat.recs : EngWhat → List (BitVec 512)
  | .copy d s _ _ _ | .xform d s _ _ _ => [d, s]
  | .slabld s _ _ _ _ => [s]
  | .mma a _ _ _ _ _ _ _ _ _ _ _ _ => [a]
  | .accLd r _ _ _ _ _ | .accSt r _ _ _ _ _ => [r]
  | .accSwap _ | .accZero _ => []

/-- An operation moves data of a home. -/
def EngOp.touches (o : EngOp) (fab : BitVec 8) (h : Home) : Bool := o.what.recs.any fun b => (recF b).homeOf fab == h

/-- Ends an operation with an outcome (R172, R182, R254). -/
def State.engClose (s : State) (p : EngAt) (outcome cause : Nat) : State :=
  match (s.engine p.gc p.e).ops.find p.i with
  | none => s
  | some o => s.engEnd p.gc p.e p.i (engStatus o.chunks outcome cause) (BitVec.ofNat 64 (o.dcrc.toNat * 2 ^ 32 + o.scrc.toNat))

/-- The operation is at its end: done, or cancelled where that was asked for while its last chunk was in progress (R184). -/
def State.engFinish (s : State) (p : EngAt) : State :=
  s.engClose p (if ((s.engine p.gc p.e).ops.find p.i).any (·.cancel) then 1 else 0) 0

/-! ### Acceptance, start and end (R170, R172) -/

/-- ENGINE_ACCEPT (R170). -/
def State.engAccept (s : State) (gc e : Nat) : State := if e < 3 then s.accept gc e fun _ => 0 else s

/-- The time at a die, in 288ths of a tick. -/
def State.now (s : State) (d : Nat) : Nat := (s.die d).mer * 288 + (s.die d).rest

/-- An operation starts. -/
def State.engBegin (s : State) (gc e i : Nat) : State :=
  s.modEng gc e i fun o => { o with st := .running, start := s.now (gc / 64) }

/-- ENGINE_START: the oldest accepted operation, with at most 4 running and 16 unfinished (R170). -/
def State.engStart (s : State) (gc e : Nat) : State :=
  if e ≥ 3 then s
  else
    let os := s.engOps gc e
    let run := os.countP fun o => o.2.active
    let parked := os.countP fun o => match o.2.st with
      | .parked _ => true
      | _ => false
    if run ≥ 4 || run + parked ≥ 16 then s
    else match os.find? fun o => decide (o.2.st = .accepted) with
      | some (i, _) => s.engBegin gc e i
      | none => s

/-- The operation waits for a page: for a walk, or for the host where it has been asked already (R79, R186). -/
def State.engWait (s : State) (p : EngAt) (o : EngOp) (va : Nat) : State :=
  let asked := (s.die (p.gc / 64)).walks.any fun w => w.ctx == o.ctx && w.region == va / 65536 && w.posted.isSome
  s.modEng p.gc p.e p.i fun o => { o with st := if asked then .parked va else .walking va }

/-- ENGINE_COMPLETE: the running operation in a slot comes to the end of its chunk, and with its last chunk, or where it has been
cancelled, to its own; it may wait or park on the way (R172, R184, R186). -/
def State.engComplete (s : State) (gc e slot : Nat) : State :=
  if e ≥ 3 then s
  else
    let os := s.engOps gc e
    match os.find? fun o => decide (o.2.slot = some slot) with
    | none => s
    | some (i, o) =>
      let p : EngAt := ⟨gc, e, i⟩
      let run := (os.filter fun o => o.2.active).take 4
      if o.st ≠ .running || !(run.any fun x => x.1 == i) then s
      else match (runEngOp p o).run s with
        | .ok whole s => if whole || o.cancel then s.engFinish p else s
        | .error .hold s => s
        | .error (.park va) s => s.engWait p o va
        | .error (.fail c) s => s.engClose p 2 c

/-- The walk that an operation waits for found no page, and the host is asked for it: the operation is parked (R186). -/
def State.engPark (s : State) (gc e i : Nat) : State :=
  s.modEng gc e i fun o => match o.st with
    | .walking va => { o with st := .parked va }
    | _ => o

/-- The page that an operation waits for has been found, or the host has answered for it (R186): it goes on, or fails. -/
def State.engResume (s : State) (gc e i : Nat) (c : Option Cause) : State :=
  match c with
  | some c => s.engClose ⟨gc, e, i⟩ 2 c.toNat
  | none => s.modEng gc e i fun o => match o.st with
    | .walking _ | .parked _ => { o with st := .running }
    | _ => o

/-- ENGINE_ACCEPT (R170). -/
def execEngineAccept (die core eng : Nat) (s : State) : Out :=
  .next (s.ifRuns die fun s => s.engAccept (die * 64 + core) eng)
/-- ENGINE_START (R170). -/
def execEngineStart (die core eng : Nat) (s : State) : Out :=
  .next (s.ifRuns die fun s => s.engStart (die * 64 + core) eng)
/-- ENGINE_COMPLETE (R172). -/
def execEngineComplete (die core eng slot : Nat) (s : State) : Out :=
  .next (s.ifRuns die fun s => s.engComplete (die * 64 + core) eng slot)

/-! ### fut.test, fut.cancel and drain (R183-R185) -/

/-- A value that may name an operation: FUT, or I64 that holds a handle. -/
def futHandle (s : State) (v : Val) : Option Handle :=
  let h := handleOf v.val
  if !v.imm && (v.kind = .fut || v.kind = .i64) && s.wellFormed h then some h else none

/-- fut.test (R183). A handle whose slot holds another generation, or was never used, names a completed operation. -/
def futTestBody (d : Dst) (a : Src) (p : PReg) (t : Nat) : M (Cost × Bool) := plain do
  let v ← readSrc t .single true a
  let s ← get
  match futHandle s v with
  | some h =>
    writeVals t d [(v.val, .fut)] 0
    writePred t p (if (s.futStatus h).isSome then .T else .F) 0
  | none =>
    writeVals t d [(v.val, .i64)] 0
    writePred t p .U 0

/-- fut.test (R183). -/
def execFutTest (c : RCtl) (d : Dst) (a : Src) (p : PReg) (s : State) : Out :=
  .next (runWord (shR c [a]).ban (futTestBody d a p) s)

/-- Array cycles in a millisecond at a P-state (R12). -/
def arrayClock : PState → Nat
  | .p0 => 700000 | .p1 => 600000 | .p2 => 500000 | .p3 => 400000

/-- A chunk or row of the running operation is in progress: a source byte of it has been read (R184); an mma's chunks begin 16
array cycles after its start (R253, R255), and rows of the visible bank follow each other at once. -/
def State.inProgress (s : State) (gc : Nat) (o : EngOp) : Bool :=
  match o.what with
  | .mma _ _ _ _ _ _ _ _ _ _ _ _ _ =>
    o.retried || o.progress != 0 ||
      decide (16 * 288 * 1000000 ≤ (s.now (gc / 64) - o.start) * arrayClock (s.die (gc / 64)).pst)
  | .accLd _ _ _ _ _ _ | .accSt _ _ _ _ _ _ => true
  | _ => o.begun

/-- fut.cancel on an operation of an engine (R184) or of the array (R255). -/
def State.cancelOp (s : State) (gc e i : Nat) : State :=
  match (s.engine gc e).ops.find i with
  | none => s
  | some o =>
    if o.st = .queued then s
    else if o.active ∧ s.inProgress gc o then s.modEng gc e i fun o => { o with cancel := true }
    else s.engClose ⟨gc, e, i⟩ 1 0

/-- fut.cancel (R184). A FUT that is no well-formed handle names no operation, and nothing is cancelled (DESIGN CHOICE, log entry
91). -/
def futCancelBody (a : Src) (t : Nat) : M (Cost × Bool) := plain do
  let v ← readSrc t .single true a
  let s ← get
  if v.kind = .fut && !v.imm && !s.wellFormed (handleOf v.val) then pure ()
  else match futHandle s v with
    | none => fault 0x80
    | some h =>
      let sl := s.slotOf h
      if sl.busy && sl.gen.toNat == h.gen then
        match (s.engOps h.core h.eng).find? fun o => decide (o.2.slot = some h.slot) with
        | some (i, _) => set (s.cancelOp h.core h.eng i)
        | none => pure ()

/-- fut.cancel (R184). -/
def execFutCancel (c : RCtl) (a : Src) (s : State) : Out := .next (runWord (shR c [a]).ban (futCancelBody a) s)

/-- Where an operation of engines 0-2 writes (R185). -/
def EngOp.dest (fab : BitVec 8) (o : EngOp) : Option DrainSet :=
  let of (b : BitVec 512) : DrainSet := match (recF b).homeOf fab with
    | .main => .main | .scratch => .scratch | .host => .host | .remote _ => .fabric
  match o.what with
  | .copy d _ _ _ _ => some (of d)
  | .xform d _ _ _ _ => some (of d)
  | .slabld _ _ _ _ _ => some .slab
  | _ => none

/-- drain (R185): the operations that the core's engines had accepted when it issued are awaited. -/
def drainBody (m : DrainSet) (t : Nat) : M (Cost × Bool) := plain do
  if (← getT t).stage < 2 then
    let i ← fresh
    modT t fun th => { th with stage := i + 2 }
  let s ← get
  let th := s.thread t
  let mark := th.stage - 2
  let left := (List.range 3).any fun e => (s.engOps th.gcore e).any fun o =>
    decide (o.2.st ≠ .queued) && decide (o.2.taken < mark) && (match o.2.dest s.dev.fab with
      | some d => m == .all || d == m
      | none => false)
  if left then wait 0xC .poll
  set (s.acquire th.gcore)

/-- drain (R185). -/
def execDrain (st : Stall) (m : DrainSet) (s : State) : Out := .next (runWord (shT st []).ban (drainBody m) s)

end Sys2Proof.Machine
end

