-- ==== Sys2Proof/Machine/Matrix.lean ====
section
/-! DEFINITION. The brick array and the accumulator tiles: the six class-3 words (R258-R262), the arithmetic of a chunk
(R239-R251), and the order in which the array acts (R252-R256). -/

namespace Sys2Proof.Machine

/-! ### Width pairs (R239-R242) -/

/-- What a width pair forms: digits' product, products a cell forms in an array cycle, tile rows. -/
structure Pair where
  k : Nat
  rows : Nat
  int : Bool
  wA : Nat
  wB : Nat
  deriving DecidableEq, Repr

/-- Whether a format is a sign-magnitude one. -/
def isSM : Num.Format → Bool
  | .sm _ => true
  | _ => false

/-- The pair of two format codes; `none` where the array does not take them (R240). -/
def pairOf (fA fB : BitVec 4) : Option Pair :=
  let a := Num.format fA
  let b := Num.format fB
  match Num.digits a, Num.digits b with
  | some x, some y =>
    let k := if x * y ≤ 32 then 2 ^ Nat.log2 (32 / (x * y)) else 1
    some ⟨k, if x * y ≤ 32 then 32 else 16, isSM a && isSM b, a.width, b.width⟩
  | _, _ => none

/-- A pair reserved with sparsity (R242). -/
def Pair.noSparse (p : Pair) : Bool := decide (p.k * (p.wB + 6) > 128)

/-! ### A chunk (R248, R249) -/

/-- A finite element as an integer in units of the format's lowest place. -/
def unitOf : Num.Format → Nat
  | .fl f => 2 ^ (f.bias + f.mb - 1)
  | _ => 1

/-- What a chunk's products come to: some NaN, infinities of either sign, and the exact finite sum in units. -/
structure ChunkSum where
  nan : Bool
  pinf : Bool
  ninf : Bool
  sum : Int
  deriving DecidableEq, Repr

/-- Adds one exact product. -/
def ChunkSum.add (c : ChunkSum) (uA uB : Nat) (a b : Num.XVal) : ChunkSum :=
  match a, b with
  | .fin s n d, .fin t m e => { c with sum := c.sum + Num.sInt (s != t) (n * (uA / d) * (m * (uB / e))) }
  | a, b => match Num.mul a b with
    | .nan _ => { c with nan := true }
    | .inf false => { c with pinf := true }
    | .inf true => { c with ninf := true }
    | .fin _ _ _ => c

/-- The exact sum of the products of elements (R248, R249). -/
def chunkSum (fA fB : Num.Format) (es : List (Nat × Nat)) : Num.XVal :=
  let uA := unitOf fA
  let uB := unitOf fB
  let c := es.foldl (fun (c : ChunkSum) x => c.add uA uB (fA.value x.1) (fB.value x.2)) ⟨false, false, false, 0⟩
  if c.nan || (c.pinf && c.ninf) then .nan false
  else if c.pinf then .inf false
  else if c.ninf then .inf true
  else .fin (decide (c.sum < 0)) c.sum.natAbs (uA * uB)

/-- A floating accumulator after a chunk: both roundings RN32 (R248). -/
def accFloat (acc : Nat) (p sA sB : Num.XVal) : Nat :=
  let t := Num.encodeF Num.f32 .rn (Num.mul (Num.mul p sA) sB)
  Num.encodeF Num.f32 .rn (Num.add .rn (Num.decodeF Num.f32 acc) (Num.decodeF Num.f32 t))

/-- An integer accumulator after a chunk, and whether it clamped (R248). -/
def accInt (acc : Nat) (p : Num.XVal) : Nat × Bool :=
  let x : Int := Num.signedOf 32 acc + (match p with
    | .fin s n d => Num.sInt s (n / d)
    | _ => 0)
  let y := Num.clampInt (-2147483648) 2147483647 x
  (Num.wrapInt 32 y, decide (x ≠ y))

/-! ### Tiles (R252) -/

/-- The physical tile a team's tile name stands for on a core. -/
def State.physTile (s : State) (gc w n : Nat) : Option Nat := ((s.work w).tiles.getD gc [])[n]?

/-- Key of an accumulator word: bank 0 is the working bank, bank 1 the visible one. -/
def accKey (tile bank row col : Nat) : Nat := tile * 8192 + bank * 4096 + row * 128 + col

/-- Writes an accumulator word; a zero word is not listed. -/
def putAcc (t : Tbl (BitVec 32)) (k v : Nat) : Tbl (BitVec 32) :=
  if v % 2 ^ 32 = 0 then t.drop k else t.put k (BitVec.ofNat 32 v)

/-- Reads an accumulator word. -/
def getAcc (t : Tbl (BitVec 32)) (k : Nat) : Nat := (t.getD k 0).toNat

/-! ### The shell of a class-3 word (R258, R299) -/

/-- Runs a class-3 word: it performs once for the group, for the lowest-indexed thread whose guard is true; a cause is
every live thread's; `after` is what each thread that has arrived still waits for. -/
def runMatrix (sh : Shell) (body : Nat → List Nat → M Unit) (after : Nat → M Unit) (s : State) : State :=
  let t := s.sched.cur
  let th := s.thread t
  match th.trialCheck sh with
  | some c => s.barred t (th.active sh.ng) (fun u => do body u []; return (oneBeat, false)) c
  | none =>
    let go (s : State) : State :=
      match (after t).run s with
      | .ok _ s => s.complete t sh oneBeat th.pos false (th.active sh.ng) false
      | .error (.hold h) s' => s.holdWord s' t h
      | .error (.trap c v) _ => s.fail t c v
    if th.part then go s
    else
      let ps := s.arrivals t
      match ps.filter fun u => (s.thread u).active sh.ng with
      | [] => s.complete t sh oneBeat th.pos false false false
      | l :: os =>
        match (body l os).run s with
        | .ok _ s' => if s'.overfull th.id.work then s.endInterval th.id.work
                      else go (ps.foldl (fun s u => s.modThread u fun x => { x with part := true }) s')
        | .error (.hold h) s' => s.holdWord s' t h
        | .error (.trap c v) s' => ps.foldl (fun s u => s.fail u c v) (s.spent s' l c)

/-- Nothing to wait for. -/
def noAfter (_ : Nat) : M Unit := pure ()

/-- Hands an operation to the array for the leader and the other threads whose guard is true (R258). -/
def handArray (l : Nat) (os : List Nat) (d : Dst) (tbD : Nat) (h : Handed) : M Unit := do
  let s ← get
  if (l :: os).any fun u => decide ((s.thread u).cnt.en ≥ 255) then wait 0x3 .poll
  let _ ← (l :: os).mapM raiseEn
  let i ← fresh
  let _ ← (l :: os).mapM fun u => writePend u d i [.fut]
  let s ← get
  set (s.modEngine (s.thread l).gcore 3 fun x => { x with ops := x.ops.put i (newEngOp s l os tbD i h) })

/-- The team's tile is granted (R260, R261). -/
def checkTile (l : Nat) (tile : Fin 16) : M Unit := do
  if tile.val ≥ ((← get).workOf l).kernel.acc then fault 0x86

/-! ### mma and mma.sp (R243-R247, R260) -/

/-- The fields of the control word (R247). -/
structure MCtl where
  u : Nat
  nk : Nat
  vc : Nat
  bad : Bool
  deriving DecidableEq, Repr

/-- Reads a control word. -/
def mctl (v : Nat) : MCtl := ⟨v / 2 ^ 16 % 256, v / 256 % 256, v % 64, decide (v / 2 ^ 24 ≠ 0) || decide (v / 64 % 4 ≠ 0)⟩

/-- Bytes that a column holds of a B of `K` (R244, R245). -/
def bBytes (p : Pair) (sp : Option Sparse) (K : Nat) : Nat :=
  match sp with
  | none => 16 * ((K * p.wB + 127) / 128)
  | some n => let r := K * n.n / 64; 16 * ((r * p.wB + 127) / 128) + 16 * ((r * 6 + 127) / 128)

/-- The checks of mma and mma.sp, in order (R260). -/
def mmaChecks (tile : Fin 16) (tbA tbB : Rec) (fA fB : BitVec 4) (sp : Option Sparse) (ovw : Bool) (a b c : Src) (l : Nat) :
    M Handed := do
  srcRules l false [a, b, c]
  let va ← readSrc l .raw false a
  let vb ← readSrc l .raw false b
  let vc ← readSrc l .raw false c
  let p ← match pairOf fA fB with
    | some p => pure p
    | none => fault 0x84
  if sp.isSome && p.noSparse then fault 0x84
  checkTile l tile
  if !(va.index.isSome && vb.index.isSome && vc.index.isSome) then fault 0x2D
  let (sa, wa) ← sideOf l tbA va rdRights
  let r := sa.r
  if !r.valid then faultAt 0x21 sa.at0
  if r.home ≠ 0xFC ∨ r.rowlen = 0 then fault 0x85
  sa.check3
  if r.badScale then fault 0x06
  let m := mctl vc.ix
  let (row0, col) := r.rowCol (scaled r va.ix)
  let kBits := (r.rowlen - col) * 8
  if m.bad || m.vc > p.rows || col % (16 * p.wA) ≠ 0 || (m.nk = 0 && (kBits = 0 || kBits % (128 * p.wA) ≠ 0)) then fault 0x85
  let nk := if m.nk = 0 then kBits / (128 * p.wA) else m.nk
  let live := if m.vc = 0 then p.rows else m.vc
  let s ← get
  boundsAt (r.badRow (s.sizeFor l r) row0 col (nk * 16 * p.wA) live)
  let off := vb.ix
  if off % 16 ≠ 0 || off ≥ 2 ^ 17 || off + bBytes p sp (nk * 128) > 131072 then fault 0x83
  let wb := (s.ctx (s.ctxOf l)).recAt tbB.val
  let v ← if p.int then pure ReadAs.latest else do
    let rb := recF wb
    let sb : Side := ⟨rb, rdRights, rb.sbase⟩
    let v ← sb.check1 l
    sb.check3
    if rb.badScale then fault 0x06
    if m.u ≥ (rb.tcols + 127) / 128 then fault 0x85
    pure v
  return ⟨.mma wa wb tile.val fA fB sp ovw row0 col off m.u nk live, .latest, v⟩

/-- mma and mma.sp (R260). -/
def mmaBody (d : Dst) (tile : Fin 16) (tbA tbB : Rec) (fA fB : BitVec 4) (sp : Option Sparse) (ovw : Bool) (a b c : Src)
    (l : Nat) (os : List Nat) : M Unit := do
  handArray l os d 256 (← mmaChecks tile tbA tbB fA fB sp ovw a b c l)

/-- mma (R260). -/
def execMma (d : Dst) (tile : Fin 16) (tbA tbB : Rec) (fA fB : BitVec 4) (ovw : Bool) (a b c : Src) (s : State) : Out :=
  .next (runMatrix (shE [a, b, c]) (mmaBody d tile tbA tbB fA fB none ovw a b c) noAfter s)
/-- mma.sp (R260). -/
def execMmaSp (d : Dst) (tile : Fin 16) (tbA tbB : Rec) (fA fB : BitVec 4) (sp : Sparse) (ovw : Bool) (a b c : Src)
    (s : State) : Out :=
  .next (runMatrix (shE [a, b, c]) (mmaBody d tile tbA tbB fA fB (some sp) ovw a b c) noAfter s)

/-! ### acc.swap and acc.zero (R261) -/

/-- A swap of the thread's group has not taken place yet: it holds every thread that has arrived. -/
def swapWait (t : Nat) : M Unit := do
  let s ← get
  let mine (o : EngOp) : Bool := o.group == (s.thread t).id.group && (match o.what with
    | .accSwap _ => true
    | _ => false)
  if (s.engOps (s.thread t).gcore 3).any fun o => mine o.2 then wait 0xB .event

/-- A word that hands a tile over without a future (R261). -/
def tileBody (n : Fin 16) (what : EngWhat) (l : Nat) (os : List Nat) : M Unit := do
  checkTile l n
  handArray l os .none 256 ⟨what, .latest, .latest⟩

/-- acc.swap (R261). -/
def execAccSwap (st : Stall) (n : Fin 16) (s : State) : Out :=
  .next (runMatrix (shT st []).ban (tileBody n (.accSwap n.val)) swapWait s)
/-- acc.zero (R261). -/
def execAccZero (st : Stall) (n : Fin 16) (s : State) : Out :=
  .next (runMatrix (shT st []).ban (tileBody n (.accZero n.val)) noAfter s)

/-! ### acc.ld and acc.st (R262) -/

/-- The checks of acc.ld and acc.st, in order (R68, R262). -/
def accChecks (ld : Bool) (tile : Fin 16) (tb : Rec) (fM fT : BitVec 4) (a c : Src) (l : Nat) : M Handed := do
  srcRules l false [a, c]
  let va ← readSrc l .raw false a
  let vc ← readSrc l .raw false c
  if fM = 0xF || !(fT = 0xC || fT = 0xE) then fault 0x84
  checkTile l tile
  if !(va.index.isSome && vc.index.isSome) then fault 0x2D
  if vc.ix > 32 then fault 0x85
  let rows := if vc.ix = 0 then 32 else vc.ix
  let (sd, w) ← sideOf l tb va (if ld then engRd else engWr)
  let vs ← engChecks l [sd] true
  let L := scaled sd.r va.ix
  if L % 16 ≠ 0 then faultAt 0x23 sd.at0
  let n := 16 * (Num.format fM).width
  let s ← get
  let z := s.sizeFor l sd.r
  let p := sd.r.rowCol L
  boundsAt (if sd.r.rowlen = 0 then sd.r.badRun z (rows * (n / 16)) L (rows * n) else sd.r.badRow z p.1 p.2 n rows)
  faultIf (ld && sd.r.badScale) 0x06
  return if ld then ⟨.accLd w tile.val fM fT L rows, .latest, vs.headD .latest⟩ else ⟨.accSt w tile.val fM fT L rows, .latest, .latest⟩

/-- acc.ld and acc.st (R262). -/
def accBody (ld : Bool) (d : Dst) (tile : Fin 16) (tb : Rec) (fM fT : BitVec 4) (a c : Src) (l : Nat) (os : List Nat) :
    M Unit := do
  handArray l os d (if ld then 256 else tb.val) (← accChecks ld tile tb fM fT a c l)

/-- acc.ld (R262). -/
def execAccLd (d : Dst) (tile : Fin 16) (tb : Rec) (fM fT : BitVec 4) (a c : Src) (s : State) : Out :=
  .next (runMatrix (shE [a, c]) (accBody true d tile tb fM fT a c) noAfter s)
/-- acc.st (R262). -/
def execAccSt (d : Dst) (tile : Fin 16) (tb : Rec) (fM fT : BitVec 4) (a c : Src) (s : State) : Out :=
  .next (runMatrix (shE [a, c]) (accBody false d tile tb fM fT a c) noAfter s)

/-! ### The array at work -/

/-- Bits [23:0] of an array handle (R254). -/
def EngOp.arrayLow (o : EngOp) : Nat :=
  match o.what with
  | .mma _ _ t _ _ sp _ _ _ _ _ _ _ => field t 20 4 + field (if sp.isSome then 1 else 0) 16 4
  | .accLd _ t _ _ _ _ => field t 20 4 + field 2 16 4
  | .accSt _ t _ _ _ _ => field t 20 4 + field 3 16 4
  | _ => 0

/-- ARRAY_ACCEPT (R252). -/
def State.arrayAccept (s : State) (gc : Nat) : State := s.accept gc 3 EngOp.arrayLow

/-- What part of a tile an operation acts on. -/
inductive Part where
  | working | visible | both
  deriving DecidableEq, Repr

/-- The tile, as its team names it, and the part of it, of an array operation (R252). -/
def EngWhat.part : EngWhat → Nat × Part
  | .mma _ _ t _ _ _ _ _ _ _ _ _ _ => (t, .working)
  | .accZero t => (t, .working)
  | .accSwap t => (t, .both)
  | .accLd _ t _ _ _ _ => (t, .visible)
  | .accSt _ t _ _ _ _ => (t, .visible)
  | _ => (16, .both)

/-- Whether two operations of a tile keep their order. -/
def Part.meets (a b : Part) : Bool := a == .both || b == .both || a == b

/-- A slice's end by yield: every live thread is parked at one, and at least one is (R343). -/
def State.yieldEnd (s : State) (w : Nat) : Bool :=
  let ts := s.liveOf w
  !ts.isEmpty && ts.all fun t => (s.thread t).place == .yielded

/-- The team is about to be switched out: the array begins no further chunk of its mma (R256, R343, R366, R387). -/
def State.leaving (s : State) (w : Nat) : Bool :=
  (match (s.work w).sw with
    | .stopping _ => true
    | _ => false) || s.yieldEnd w ||
  (s.work w).rpl.any fun r => r.stop.any fun c => decide (c ≤ r.cnt) || r.ended

/-- An operation's team holds its tiles now (R256). -/
def State.arrayLive (s : State) (o : EngOp) : Bool :=
  match (s.work o.work).sw with
  | .running | .stopping _ => true
  | _ => false

/-- No operation accepted before stands in the way on the operation's tile (R252). -/
def State.tileFree (s : State) (gc i : Nat) (o : EngOp) : Bool :=
  s.arrayLive o && decide (o.st ≠ .queued) && !((s.engOps gc 3).any fun x =>
    decide (x.1 < i) && x.2.work == o.work && x.2.what.part.1 == o.what.part.1 && x.2.what.part.2.meets o.what.part.2)

/-- Whether an operation is an mma or mma.sp. -/
def EngWhat.isMma : EngWhat → Bool
  | .mma _ _ _ _ _ _ _ _ _ _ _ _ _ => true
  | _ => false

/-- MMA_START: the oldest mma, across all tiles, starts once its tile is free for it and no other runs (R252, R253). An mma that is parked
at a scale page keeps its turn, since R252 runs them one at a time in acceptance order (R186, R246; DEDUCED, log entry 116); a restored
team's stopped mma waits for the one that runs (R256; DEDUCED, log entry 117). -/
def State.mmaStart (s : State) (gc : Nat) : State :=
  let ms := (s.engOps gc 3).filter fun x => x.2.what.isMma && s.arrayLive x.2 && decide (x.2.st ≠ .queued)
  match ms with
  | (i, o) :: _ =>
    if (ms.all fun x => decide (x.2.st = .accepted)) && !s.leaving o.work && s.tileFree gc i o then s.engBegin gc 3 i else s
  | [] => s

/-- The array stops a team's mma: one that has begun resumes at its next chunk when the team is restored (R256). -/
def State.mmaStop (s : State) (gc i : Nat) : State :=
  s.modEng gc 3 i fun o => { o with st := .accepted, got := [] }

/-- No chunk of a team's mma is in progress on its cores (R256). -/
def State.arrayStill (s : State) (w : Nat) : Bool :=
  (s.work w).cores.all fun gc => (s.engOps gc 3).all fun x =>
    !(x.2.work == w && x.2.what.isMma && decide (x.2.st = .running) && s.inProgress gc x.2)

/-- A team's mma, before their first chunk or waiting for a page, are stopped as it is saved (R256). -/
def State.arrayStop (s : State) (w : Nat) : State :=
  (s.work w).cores.foldl (fun s gc => ((s.engOps gc 3).filter fun x =>
    x.2.work == w && x.2.what.isMma && decide (x.2.st ≠ .queued)).foldl (fun s x => s.mmaStop gc x.1) s) s

/-- Reads `n` scratchpad bytes of an A row (R243). Those of a poisoned word are read as they lie: R130 and R365 name loads and engines,
and an mma has no failure for it (DEDUCED, log entry 118). -/
def aBytes (s : State) (gc w : Nat) (r : RecF) (row col n : Nat) : Nat :=
  leVal ((r.runPieces row col n 0).map fun x => s.spRead gc w (r.base + x.1) x.2.1).flatten

/-- The K elements of a chunk in a column of B: positions along K within the chunk, and values (R244, R245). -/
def bChunk (slab : Memory) (p : Pair) (sp : Option Sparse) (K off j n : Nat) : List (Nat × Nat) :=
  let base := n * 131072 + off
  match sp with
  | none =>
    let v := leVal (slab.readN (base + 16 * p.wB * j) (16 * p.wB))
    (List.range 128).map fun k => (k, elemOf v p.wB k)
  | some x =>
    let c := 2 * x.n
    let v := leVal (slab.readN (base + c * p.wB / 8 * j) (c * p.wB / 8))
    let ib := base + 16 * ((K * x.n / 64 * p.wB + 127) / 128)
    let q := leVal (slab.readN (ib + c * 6 / 8 * j) (c * 6 / 8))
    (List.range c).map fun k => (64 * (k / x.n) + elemOf q 6 k, elemOf v p.wB k)

/-- The products of one cell's chunk. -/
def cellElems (row : Nat) (wA : Nat) (b : List (Nat × Nat)) : List (Nat × Nat) := b.map fun x => (elemOf row wA x.1, x.2)

/-- Sets a bit of sr.mx.sat on a core (R248); those set in one lane cycle are noted, since a setsr in it leaves them set (R250). -/
def State.saturate (s : State) (w gc tile : Nat) : State :=
  let b := BitVec.ofNat 16 (2 ^ tile)
  let lc := (s.die (gc / 64)).lc
  s.modWork w fun x =>
    let at_ := x.satNow.getD gc (0, 0)
    { x with sat := x.sat.put gc (x.sat.getD gc 0 ||| b),
             satNow := x.satNow.put gc (lc, (if at_.1 = lc then at_.2 else 0) ||| b) }

/-- One chunk of an mma: every live row and column is promoted (R248). A scale base that is no multiple of 4 is used as it stands
(DESIGN CHOICE, log entry 92). -/
def promote (p : EngAt) (o : EngOp) (ra rb : BitVec 512) (tile : Nat) (fA fB : BitVec 4) (sp : Option Sparse) (ovw : Bool)
    (row0 col off u nk live : Nat) : EM Unit := do
  let r := recF ra
  let q := recF rb
  let pr := (pairOf fA fB).getD ⟨1, 32, true, 8, 8⟩
  let s ← get
  let ph := (s.physTile p.gc o.work tile).getD 16
  let j := o.progress
  let cA := (r.tcols + 127) / 128
  let jA := col * 8 / (128 * pr.wA) + j
  let readA := if pr.int || r.scl = 0 then [] else (List.range live).map fun i =>
    engReadMain p o .latest (r.sbase + 4 * scaleA r.scl r.trows cA (row0 + i) jA) 4
  let readB := if pr.int || q.scl = 0 then [] else
    [engReadMain p o o.viewS (q.sbase + 4 * scaleB q.scl ((q.tcols + 127) / 128) cA jA u) 4]
  let sc := (← goOn p (readA ++ readB)).map leVal
  let sA := sc.take readA.length
  let sB := sc.drop readA.length
  let s ← get
  let slab := (s.core p.gc).slab
  let bs := (List.range 128).map fun n => bChunk slab pr sp (nk * 128) off j n
  let rows := (List.range live).map fun i => aBytes s p.gc o.work r (row0 + i) (col + 16 * pr.wA * j) (16 * pr.wA)
  let start := if pr.int then 0 else 0x80000000
  let one (acc : Tbl (BitVec 32) × Bool) (i n : Nat) : Tbl (BitVec 32) × Bool :=
    let k := accKey ph 0 i n
    let old := if ovw && j == 0 then start else getAcc acc.1 k
    let x := chunkSum (Num.format fA) (Num.format fB) (cellElems (rows.getD i 0) pr.wA (bs.getD n []))
    if pr.int then
      let y := accInt old x
      (putAcc acc.1 k y.1, acc.2 || y.2)
    else (putAcc acc.1 k (accFloat old x (scaleVal r sA i) (scaleVal q sB 0)), acc.2)
  let out := (List.range live).foldl (fun a i => (List.range 128).foldl (fun a n => one a i n) a) ((s.core p.gc).acc, false)
  let s := (s.modCore p.gc fun c => { c with acc := out.1 }).modEng p.gc p.e p.i fun o =>
    { o with progress := j + 1, retried := false, got := [] }
  set (if out.2 then s.saturate o.work p.gc tile else s)

/-- What becomes of an array operation after a chunk or a row: with its last, or where it has been cancelled, it ends; it may wait,
park or fail instead (R186, R254, R255). -/
def EngAt.turn (p : EngAt) (r : EStateM.Result EngStop State Unit) (after : State → State) (last : Bool) : State :=
  match r with
  | .ok _ s => if last then (after s).engFinish p else after s
  | .error (.park va) s => match (s.engine p.gc p.e).ops.find p.i with
    | some o => s.engWait p o va
    | none => s
  | .error (.fail c) s => s.engClose p 2 c
  | .error .hold s => s

/-- CHUNK_PROMOTION: the running mma's chunk is promoted, or, where its residues mismatch, computed again once and then
fails (R248, R251). With it the mma of a team that is to be switched out stops (R256). -/
def State.chunkPromotion (s : State) (gc : Nat) (bad : Bool) : State :=
  match (s.engOps gc 3).find? fun x => x.2.what.isMma && decide (x.2.st = .running) && s.arrayLive x.2 with
  | none => s
  | some (i, o) =>
    match o.what with
    | .mma ra rb tile fA fB sp ovw row0 col off u nk live =>
      let p : EngAt := ⟨gc, 3, i⟩
      if bad then
        let s := s.almanac 1 1
        if o.retried then (s.almanac 2 1).engClose p 2 0x87 else s.modEng gc 3 i fun o => { o with retried := true }
      else p.turn ((promote p o ra rb tile fA fB sp ovw row0 col off u nk live).run s)
        (fun s => let s := s.rawEvent gc 10; if s.leaving o.work then s.mmaStop gc i else s) (decide (o.progress + 1 ≥ nk) || o.cancel)
    | _ => s

/-- Accumulator words with a tile's banks exchanged. -/
def swapBanks (acc : Tbl (BitVec 32)) (tile : Nat) : Tbl (BitVec 32) :=
  acc.foldl (fun t kv =>
    let k := if kv.1 / 8192 = tile then (if kv.1 % 8192 < 4096 then kv.1 + 4096 else kv.1 - 4096) else kv.1
    t.put k kv.2) []

/-- The operation at the front of a physical tile that is a swap, or a zeroing. -/
def State.tileHead (s : State) (gc tile : Nat) (swap : Bool) : Option (Nat × EngOp) :=
  (s.engOps gc 3).find? fun x => s.physTile gc x.2.work x.2.what.part.1 == some tile && s.tileFree gc x.1 x.2 &&
    (match x.2.what with
      | .accSwap _ => swap
      | .accZero _ => !swap
      | _ => false)

/-- ACC_BANK_EXCHANGE: the tile is quiescent, its banks are exchanged and the group goes on (R252, R261). -/
def State.accExchange (s : State) (gc tile : Nat) : State :=
  match s.tileHead gc tile true with
  | none => s
  | some (i, o) =>
    let s := s.modCore gc fun c => { c with acc := swapBanks c.acc tile }
    let s := s.engEnd gc 3 i (engStatus 0 0 0) 0
    (s.groupLive o.group).foldl (fun s t => s.modThread t fun th => { th with hold := none }) s

/-- ACC_ZERO_COMPLETE: the tile's working bank is all zero (R261). -/
def State.accZeroed (s : State) (gc tile : Nat) : State :=
  match s.tileHead gc tile false with
  | none => s
  | some (i, _) =>
    let s := s.modCore gc fun c =>
      { c with acc := c.acc.filter fun kv => !(kv.1 / 8192 == tile && decide (kv.1 % 8192 < 4096)) }
    s.engEnd gc 3 i (engStatus 0 0 0) 0

/-- Conversion of acc.ld and acc.st; equal formats copy bits (R262). -/
def accConv (src dst : BitVec 4) (c : Nat) : Nat := if src = dst then c else Num.convert src dst .rn c

/-- Pieces of bank row `i` in memory (R262). -/
def accPieces (r : RecF) (L n i : Nat) : List (Nat × Nat × Nat) :=
  if r.rowlen = 0 then (List.range (n / 16)).map fun c => (r.place 0 (L + i * n + 16 * c), 16, 16 * c)
  else let p := r.rowCol L; r.runPieces (p.1 + i) p.2 n 0

/-- Moves the bank row that an operation is at (R262). -/
def moveRow (p : EngAt) (o : EngOp) (ld : Bool) (w : BitVec 512) (tile : Nat) (fM fT : BitVec 4) (L : Nat) : EM Unit := do
  let r := recF w
  let wM := (Num.format fM).width
  let i := o.progress
  let ps := accPieces r L (16 * wM) i
  let s ← get
  let ph := (s.physTile p.gc o.work tile).getD 16
  if ld then
    let v := leVal (← goOn p (ps.map fun x => engRead p o r o.viewS x.1 x.2.1)).flatten
    modify fun s => s.modCore p.gc fun c => { c with acc := (List.range 128).foldl (fun t n =>
      putAcc t (accKey ph 1 i n) (accConv fM fT (elemOf v wM n))) c.acc }
  else
    let acc := (s.core p.gc).acc
    let bs := packBytes wM (16 * wM) ((List.range 128).map fun n => accConv fT fM (getAcc acc (accKey ph 1 i n)))
    let _ ← goOn p ((r.groups ps).map fun g => do
      match g with
      | [] => return []
      | x :: _ =>
        engWrite p o r x.1 ((g.map fun y => (bs.drop y.2.2).take y.2.1).flatten)
        return [])
  modify fun s => s.modEng p.gc p.e p.i fun o => { o with progress := i + 1, got := [] }

/-- ACC_MOVE_COMPLETE: the acc.ld or acc.st in a slot, first of its tile's visible bank, moves a row, and ends with its last (R252,
R262). -/
def State.accMove (s : State) (gc slot : Nat) : State :=
  match (s.engOps gc 3).find? fun x => decide (x.2.slot = some slot) && s.tileFree gc x.1 x.2 with
  | none => s
  | some (i, o) =>
    let p : EngAt := ⟨gc, 3, i⟩
    let run (ld : Bool) (w : BitVec 512) (tile : Nat) (fM fT : BitVec 4) (L rows : Nat) : State :=
      match o.st with
      | .walking _ | .parked _ => s
      | _ =>
        let s := if o.st = .running then s else s.engBegin gc 3 i
        p.turn ((moveRow p o ld w tile fM fT L).run s) id (decide (o.progress + 1 ≥ rows) || o.cancel)
    match o.what with
    | .accLd w tile fM fT L rows => run true w tile fM fT L rows
    | .accSt w tile fM fT L rows => run false w tile fM fT L rows
    | _ => s

/-- ARRAY_ACCEPT (R252). -/
def execArrayAccept (die core : Nat) (s : State) : Out :=
  .next (s.ifRuns die fun s => s.arrayAccept (die * 64 + core))
/-- MMA_START (R253). -/
def execMmaStart (die core : Nat) (s : State) : Out :=
  .next (s.ifRuns die fun s => s.mmaStart (die * 64 + core))
/-- CHUNK_PROMOTION (R248). -/
def execChunkPromotion (die core : Nat) (bad : Bool) (s : State) : Out :=
  .next (s.ifRuns die fun s => s.chunkPromotion (die * 64 + core) bad)
/-- ACC_BANK_EXCHANGE (R261). -/
def execAccBankExchange (die core tile : Nat) (s : State) : Out :=
  .next (s.ifRuns die fun s => s.accExchange (die * 64 + core) tile)
/-- ACC_ZERO_COMPLETE (R261). -/
def execAccZeroComplete (die core tile : Nat) (s : State) : Out :=
  .next (s.ifRuns die fun s => s.accZeroed (die * 64 + core) tile)
/-- ACC_MOVE_COMPLETE (R262). -/
def execAccMoveComplete (die core slot : Nat) (s : State) : Out :=
  .next (s.ifRuns die fun s => s.accMove (die * 64 + core) slot)

end Sys2Proof.Machine
end

