-- ==== Sys2Proof/Machine/Switch.lean ====
section
/-! DEFINITION. Pre-emption, saving a team and restoring it (R366-R370, R90, R104, R256, R332, R383). -/

namespace Sys2Proof.Machine

/-! ### Stopping points (R366) -/

/-- Class and opcode of the word a thread stands at. -/
def Thread.wordOp (th : Thread) : Option Cls × Nat := (Cls.ofCode (bits th.pos.hdr 25 3), (bits th.pos.word 24 8).toNat)

/-- A word held before it performs: a held translation, or a qpop, bar.wait or bar.sync that holds (R366). -/
def Thread.heldAtStop (th : Thread) : Bool :=
  match th.hold with
  | none => false
  | some h =>
    (h.leaf == 0x7 && decide (th.stage < 2)) ||
    (h.leaf == 0xB && (th.wordOp == (some .memory, 0x42) || th.wordOp == (some .control, 0x14) || th.wordOp == (some .control, 0x15)))

/-- The thread stands at a stopping point; one that has completed its part of a bundle's word stands where its bundle
does. -/
def Thread.stopped (th : Thread) : Bool :=
  th.place != .running || decide (th.pos.win = 0) || th.done || th.heldAtStop

/-- An operation stands in a side log, or has performed. -/
def State.opSettled (s : State) (i : Nat) (o : MemOp) : Bool := (o.performed && o.revs.isEmpty) || s.inSide i

/-- All accesses of a thread have performed or are recorded, and no result is on its way (R367). -/
def State.settled (s : State) (t : Nat) : Bool :=
  let th := s.thread t
  (s.ops.all fun kv => kv.2.tid != t || s.opSettled kv.1 kv.2) && th.iter.isEmpty &&
    (th.regs.q.toList.all fun e => e.wait.isNone) && (th.regs.k.toList.all fun e => e.wait.isNone) &&
    (th.regs.p.toList.all fun e => e.wait.isNone)

/-- Whether a team may be saved now (R366, R367): its threads stand and have settled, and no chunk of its running mma is in progress
(R256). -/
def State.stopReady (s : State) (w : Nat) : Bool :=
  ((s.liveOf w).all fun t => (s.thread t).stopped && s.settled t) && s.arrayStill w

/-! ### Saving (R367) -/

/-- Size of the save area of a team. -/
def State.areaSize (s : State) (w : Nat) : Nat :=
  let x := s.work w
  let banks := (x.cores.map fun gc => ((s.core gc).banks.toList.countP fun b => b.own == some w)).sum
  let tiles := (x.tiles.map fun kv => kv.2.length).sum
  1024 * ((4 + 16 + 80) * x.cores.length + 128 * banks + 32 * tiles) + 1536 * (s.liveOf w).length

/-- Images of the banks a team owns on a core, in ascending number. -/
def State.bankImages (s : State) (gc w : Nat) : List BankImage :=
  ((List.range 32).filter fun i => (s.bank gc i).own == some w).map fun i =>
    let b := s.bank gc i
    ⟨gc, i, b.mode == .fifo, b.bytes, b.items, b.head, b.tail, b.poison⟩

/-- Images of a team's tiles on a core, by the names the team gives them. -/
def State.tileImages (s : State) (gc w : Nat) : List TileImage :=
  (((s.work w).tiles.getD gc []).zipIdx).map fun ti =>
    ⟨gc, ti.2, ((s.core gc).acc.filter fun kv => kv.1 / 8192 == ti.1).map fun kv => (kv.1 % 8192, kv.2)⟩

/-- A side-log entry is one of the team's. -/
def State.sideOfWork (s : State) (w : Nat) (e : SideEntry) : Bool :=
  e.ops.any fun i => (s.ops.find i).any fun o => o.who.work == w

/-- Adds one bank of context counters to another. -/
def CtxBank.add (a b : CtxBank) : CtxBank :=
  ⟨Vector.ofFn fun i => a.leaves[i] + b.leaves[i], Vector.ofFn fun i => a.events[i] + b.events[i]⟩

/-- A bank of zeros. -/
def CtxBank.zero : CtxBank := ⟨Vector.replicate 16 0, Vector.replicate 4 0⟩

/-- Adds a context's bank on a core into its die's accumulator, and clears it (R383). -/
def State.foldBank (s : State) (gc ctx : Nat) : State :=
  match (s.core gc).obs.banks.find ctx with
  | none => s
  | some b =>
    (s.modCtx ctx fun c => { c with acc := c.acc.put (gc / 64) ((c.acc.getD (gc / 64) CtxBank.zero).add b) }).modCore gc fun c =>
      { c with obs := { c.obs with banks := c.obs.banks.drop ctx } }

/-- A thread as it is saved: an access that it holds is issued again from its checks on when it is restored (R82, R369), and where
its slice has ended, an untaken 0xA0 has gone with it (R344). -/
def Thread.asSaved (th : Thread) (why : SwitchWhy) : Thread :=
  { th with xlat := [], checked := none, missed := [], budgetDue := th.budgetDue && why == .host,
            hold := if th.hold.any (fun h => h.leaf == 0x2 || h.leaf == 0x7) && decide (th.stage < 2) then none else th.hold }

/-- The threads of a team wait for no walk, and its bins lie in no slice (R82, R292, R367). -/
def State.asSaved (s : State) (w : Nat) (why : SwitchWhy) : State :=
  let ts := s.liveOf w
  let s := ts.foldl (fun s t => s.modThread t fun th => th.asSaved why) s
  let stays (x : Waiter) : Bool := match x with
    | .thread t => !ts.contains t
    | _ => true
  let s := s.modDie (s.work w).die fun d => { d with walks := d.walks.map fun y => { y with waiters := y.waiters.filter stays } }
  { s with bins := s.bins.mapVals fun b => if (s.group b.group).work = w then { b with core := 64 } else b }

/-- The team is saved: its area is drawn from the pool, and its banks, tiles, barriers, contexts and pool commitment are
free for others (R90, R256, R332, R367). -/
def State.save (s : State) (w : Nat) (why : SwitchWhy) : State :=
  let x := s.work w
  let n := s.areaSize w
  let wins := (s.liveOf w).filterMap fun t =>
    let th := s.thread t
    if th.trial.isSome then ((s.core th.gcore).windows.find (th.id.lane * 8 + th.id.slot)).map fun b => (t, b) else none
  let side := (x.cores.map fun gc => (s.core gc).side.filter (s.sideOfWork w)).flatten
  let s := s.modWork w fun y =>
    { y with sw := .saved why, area := n, wins := wins, side := side,
             banks := (x.cores.map fun gc => s.bankImages gc w).flatten,
             accs := (x.cores.map fun gc => s.tileImages gc w).flatten,
             bud := { y.bud with spent := y.bud.spent + ((s.die x.die).mer - y.bud.start) } }
  let s := s.arrayStop w
  let s := x.cores.foldl (fun s gc =>
    let keep := (s.core gc).side.filter fun e => !(s.sideOfWork w e)
    ((s.modCore gc fun c => { c with side := keep }).foldBank gc x.ctx).ungrant gc w) s
  let s := (s.asSaved w why).modDie x.die fun d => { d with disp := { d.disp with pool := d.disp.pool - n } }
  s.modCard x.card fun c => { c with st := .ready, requeued := c.requeued ++ [w] }

/-- Tries to save a team; with no room, 0xA4 goes to the host, and the team goes on or waits as R367 gives. -/
def State.trySave (s : State) (w : Nat) (why : SwitchWhy) (report : Bool) : State :=
  let x := s.work w
  if s.areaSize w ≤ (s.die x.die).disp.pool then s.save w why
  else
    let r : FaultRec := ⟨(s.die x.die).mer, 0, 0, 0, 0xA4, 2, x.ctx, x.team, 0, 0, x.die, x.cores.headD 0 % 64, 0, 0, 0⟩
    let s := if report then s.postX r else s
    s.modWork w fun y => { y with sw := if why = .host then .running else .noRoom why }

/-- CONTEXT_SAVE_COMPLETE: a team that is to be switched out, and whose threads all stand at stopping points, is saved
(R343, R344, R366-R368). -/
def State.contextSave (s : State) (w : Nat) : State :=
  match s.works.find w with
  | none => s
  | some x =>
    match x.sw with
    | .running => if s.yieldEnd w && s.stopReady w then s.trySave w .yielded true else s
    | .stopping why => if s.stopReady w then s.trySave w why true else s
    | _ => s

/-- SAVE_RETRY: the first team of the die that waits for save-pool space is saved if it fits (R367). -/
def State.saveRetry (s : State) (die : Nat) : State :=
  let waiting (x : Work) : Option SwitchWhy := match x.sw with
    | .noRoom why => if x.die = die then some why else none
    | _ => none
  match s.works.find? fun kv => (waiting kv.2).isSome && decide (s.areaSize kv.1 ≤ (s.die die).disp.pool) with
  | some (w, x) => s.trySave w ((waiting x).getD .forced) false
  | none => s

/-- Host command 0x08 (R366). -/
def State.preempt (s : State) (w : Nat) : State × Bool :=
  match s.works.find w with
  | some x => if x.sw = .running then (s.modWork w fun x => { x with sw := .stopping .host }, true) else (s, false)
  | none => (s, false)

/-! ### Restoring (R369) -/

/-- Gives a thread its new place. -/
def State.reseat (s : State) (t core lane slot : Nat) : State :=
  s.modThread t fun th => { th with id := { th.id with core := core, lane := lane, slot := slot } }

/-- Seats the live threads of a group on a core: a child of a spawn on any lane with room, any other group on a slice
or slice pair (R287, R237). -/
def State.seatGroup (s : State) (g core stage : Nat) : Option State :=
  let x := s.group g
  let die := (s.work x.work).die
  let ts := s.groupLive g
  if x.size = 1 then
    let lanes := (List.range 64).filter fun l => s.laneRoom die core l 1 x.n && s.berthOk die stage core (l / 4)
    if lanes.isEmpty then none
    else
      let (lane, s) := s.pick lanes 0
      some (ts.foldl (fun s t => let (slot, s) := s.pick (s.freeSlotsOf die core lane) 0; s.reseat t core lane slot) s)
  else
    let places := s.sliceRoom die core x.size x.n fun sl => s.berthOk die stage core sl
    if places.isEmpty then none
    else
      let (sl, s) := s.pick places 0
      some (ts.foldl (fun s t =>
        let i := (s.thread t).id.tig
        let lane := 4 * (sl + if x.size = 64 then i / 32 else 0) + i % 4
        let (slot, s) := s.pick (s.freeSlotsOf die core lane) 0
        s.reseat t core lane slot) s)

/-- Bundles and bins of a team stand where their threads do now. -/
def State.reseatBundles (s : State) (w : Nat) : State :=
  let lc := (s.die (s.work w).die).lc
  let fixB (b : Bundle) : Bundle := match b.tids with
    | t :: _ => if (s.thread t).id.work = w then
        { b with core := (s.thread t).id.core, slice := (s.thread t).slice, busy := lc } else b
    | [] => b
  let fixN (b : Bin) : Bin := match b.tids with
    | t :: _ => if (s.thread t.1).id.work = w then
        { b with core := (s.thread t.1).id.core, slice := (s.thread t.1).slice, tids := b.tids.map fun x => (x.1, lc) } else b
    | [] => b
  { s with bundles := s.bundles.mapVals fixB, bins := s.bins.mapVals fixN }

/-- Free banks of a core for a team's images, in ascending number. -/
def State.banksFor (s : State) (gc n : Nat) : List Nat := ((s.freeBanks gc).take n).insertionSort fun a b => a ≤ b

/-- Writes a team's banks and tiles back on a core (R369), `old` being the core it was saved from. -/
def State.regrant (s : State) (gc old w : Nat) : State :=
  let x := s.work w
  let imgs := x.banks.filter fun b => b.core == old
  let s := ((s.banksFor gc imgs.length).zip imgs).foldl (fun s bi =>
    let s := s.takeBank gc w (if bi.2.fifo then .fifo else .scratchpad) bi.1
    s.modBank gc bi.1 fun b =>
      { b with bytes := bi.2.bytes, items := bi.2.items, head := bi.2.head, tail := bi.2.tail, poison := bi.2.poison }) s
  let free := (List.range 16).filter fun i => ((s.core gc).tileOwn.find i).isNone
  let ts := free.take x.kernel.acc
  let mine := x.accs.filter fun a => a.core == old
  let words (acc : Tbl (BitVec 32)) : Tbl (BitVec 32) :=
    mine.foldl (fun t a => a.words.foldl (fun t kv => t.put (ts.getD a.tile 16 * 8192 + kv.1) kv.2) t)
      (acc.filter fun kv => !(ts.contains (kv.1 / 8192)))
  let s := s.modCore gc fun c =>
    { c with barOwn := if x.kernel.nb = 0 then c.barOwn else c.barOwn.put w x.kernel.nb,
             tileOwn := ts.foldl (fun t i => t.put i w) c.tileOwn, acc := words c.acc }
  s.modWork w fun y => { y with tiles := (y.tiles.drop old).put gc ts, sat := (y.sat.drop old).put gc (x.sat.getD old 0) }

/-- Banks that a saved team needs on the core it was saved from. -/
def Work.bankNeed (x : Work) (old : Nat) : Nat := x.banks.countP fun b => b.core == old

/-- The team has unfinished array operations, or tiles: it returns to its own cores (R369). So does one with an engine operation on its
scratchpad, which waits for its banks (R186; DEDUCED, log entry 113). -/
def State.tied (s : State) (w : Nat) : Bool :=
  (s.work w).kernel.acc != 0 || (s.work w).cores.any fun gc =>
    ((s.engOps gc 3).any fun o => o.2.work == w) ||
      (List.range 3).any fun e => (s.engOps gc e).any fun o => o.2.work == w && o.2.touches s.dev.fab .scratch

/-- Begins the restore of a saved team on cores of its die: places, banks and tiles (R369). A yielded slice begins
afresh (R343, R344). -/
def State.restoreAt (s : State) (w stage : Nat) (cores : List Nat) : Option State :=
  let x := s.work w
  match x.sw with
  | .saved why =>
    let gcs := cores.map fun c => x.die * 64 + c
    let fits := (gcs.zip x.cores).all fun p => decide ((s.freeBanks p.1).length ≥ x.bankNeed p.2) &&
      decide ((s.core p.1).barsUsed + x.kernel.nb ≤ 96) && decide ((s.core p.1).tileOwn.length + x.kernel.acc ≤ 16) &&
      s.corePresent p.1
    if !fits || gcs.length ≠ x.cores.length then none
    else
      let gs := (s.groups.filter fun kv => kv.2.work == w && !(s.groupLive kv.1).isEmpty).map (·.1)
      let coreOf (s : State) (g : Nat) : Nat := match s.groupLive g with
        | t :: _ => if (s.thread t).gcore = x.cores.headD 0 then cores.headD 0 else cores.getD 1 0
        | [] => 0
      -- until it is seated, a thread stands on no core
      let off := (s.liveOf w).foldl (fun s t => s.modThread t fun th => { th with id := { th.id with core := 64 } }) s
      let seated := gs.foldl (fun (a : Option State) g => a.bind fun s' => s'.seatGroup g (coreOf s g) stage)
        (some (off.modWork w fun y => { y with sw := .restoring why }))
      seated.map fun s =>
        let s := (gcs.zip x.cores).foldl (fun s p => s.regrant p.1 p.2 w) s
        let s := s.reseatBundles w
        let s := (s.liveOf w).foldl (fun s t => match x.wins.find t with
          | some b => s.modCore (s.thread t).gcore fun c =>
              { c with windows := c.windows.put ((s.thread t).id.lane * 8 + (s.thread t).id.slot) b }
          | none => s) s
        let s := s.modDie x.die fun d => { d with disp := { d.disp with pool := d.disp.pool + x.area } }
        s.modWork w fun y => { y with cores := gcs, banks := [], accs := [], wins := [], area := 0,
                                      bars := y.bars.mapVals fun b => { b with ends := [] },
                                      bud := { y.bud with start := (s.die x.die).mer,
                                                          spent := if why = .host then y.bud.spent else 0,
                                                          trapAt := if why = .host then y.bud.trapAt else none,
                                                          trapped := if why = .host then y.bud.trapped else false } }
  | _ => none

/-- Where a saved team may be restored now (R341, R369). -/
def State.restoreSpot (s : State) (w stage : Nat) : Option State :=
  let x := s.work w
  if s.tied w then s.restoreAt w stage (x.cores.map (· % 64))
  else if x.cores.length ≤ 1 then (List.range 64).findSome? fun c => s.restoreAt w stage [c]
  else (List.range 32).findSome? fun i => s.restoreAt w stage [2 * i, 2 * i + 1]

/-- Returns the side-log entries of a restored team, ahead of any new store (R90). They enter the log though it may then hold more
than 256 entries (DESIGN CHOICE, log entry 94). -/
def State.returnSide (s : State) (w : Nat) : State :=
  (s.work w).side.foldl (fun s e =>
    let gc := match e.ops.findSome? fun i => (s.ops.find i).bind fun o => s.threads.find o.tid with
      | some th => th.gcore
      | none => (s.work w).cores.headD 0
    let s := { s with ops := e.ops.foldl (fun t i => t.upd i fun o => { o with die := gc / 64, core := gc % 64 }) s.ops }
    s.modCore gc fun c => { c with side := c.side ++ [e] }) s

/-- A restored thread's registers and trap shadow are checked (R206, R365). -/
def State.mendRestored (s : State) (t : Nat) : State :=
  let (s, ok) := s.mendShadow t
  if ok then s.mendThread t else s.deliver t 0x42 0

/-- RESTORE_COMPLETE: residues are checked, side-log entries returned, an acquire performed on each core, and every
thread goes on at its stopping point; where its slice had ended, one that has yielded goes on at the header after its yield (R206,
R343, R369). -/
def State.restoreDone (s : State) (w : Nat) : State :=
  match (s.work w).sw with
  | .restoring why =>
    let s := (s.returnSide w).modWork w fun y => { y with sw := .running, side := [] }
    let s := (s.work w).cores.foldl (fun s gc => s.acquire gc) s
    let ys := (s.liveOf w).filter fun t => (s.thread t).place == .yielded && why != .host
    let lc := (s.die (s.work w).die).lc
    let gs := (ys.map fun t => (s.thread t).id.group).eraseDups
    let s := gs.foldl (fun s g => s.formBundles (ys.filter fun t => (s.thread t).id.group == g) lc) s
    (s.liveOf w).foldl (fun s t => s.mendRestored t) s
  | _ => s

/-- CONTEXT_SAVE_COMPLETE (R368). -/
def execContextSaveComplete (team : Nat) (s : State) : Out := .next (s.contextSave team)
/-- SAVE_RETRY (R367). -/
def execSaveRetry (die : Nat) (s : State) : Out := .next (s.saveRetry die)
/-- RESTORE_COMPLETE (R369). -/
def execRestoreComplete (team : Nat) (s : State) : Out := .next (s.restoreDone team)

end Sys2Proof.Machine
end

