-- ==== Sys2Proof/Machine/Counters.lean ====
section
/-! DEFINITION. Counters of a core and of a context (R377-R384), and the completion of host commands (R391). -/

namespace Sys2Proof.Machine

/-! ### Host commands (R391, R400) -/

/-- Commands of one ring complete in ring order (R391): of those that have begun, in the order in which they came, the ones that
complete now, since their status is known and that of every earlier one of their ring, and the others. `stuck` are rings with an
earlier command whose status is not known. -/
def ringDone (stuck : List (Fin 16)) : List (Ticket × Option Nat) → List (Ticket × Nat) × List (Ticket × Option Nat)
  | [] => ([], [])
  | (k, st) :: r => match if stuck.contains k.fn then none else st with
    | some v => let a := ringDone stuck r; ((k, v) :: a.1, a.2)
    | none => let a := ringDone (k.fn :: stuck) r; (a.1, (k, st) :: a.2)

/-- Completes the commands that may complete (R391). -/
def Device.flush (d : Device) : Device :=
  let a := ringDone [] d.order
  { d with order := a.2, done := d.done ++ a.1 }

/-- A command whose completion comes later takes its place in the ring. -/
def State.begin_ (s : State) (tag : Ticket) : State := s.modDev fun d => { d with order := d.order ++ [(tag, none)] }

/-- Gives the oldest command of a tag that has none its status. -/
def setStatus (tag : Ticket) (st : Nat) : List (Ticket × Option Nat) → List (Ticket × Option Nat)
  | [] => []
  | x :: r => if x.1 = tag ∧ x.2.isNone then (tag, some st) :: r else x :: setStatus tag st r

/-- The status of a command that has begun is known: 0 done, 1 refused (R391). -/
def State.settle (s : State) (tag : Ticket) (st : Nat) : State :=
  s.modDev fun d => Device.flush { d with order := setStatus tag st d.order }

/-- Completes a command with its status (R391). -/
def State.finish (s : State) (tag : Ticket) (st : Nat) : State :=
  s.modDev fun d => Device.flush { d with order := d.order ++ [(tag, some st)] }

/-- The dies that a command's die field names: one, or all for 0xFF (R391). -/
def diesOf (die : Nat) : Option (List Nat) :=
  if die < 4 then some [die] else if die = 0xFF then some (List.range 4) else none

/-- Acts on every die that a command's die field names; a field that names none is refused (R391). -/
def State.eachDie (s : State) (die : Nat) (f : State → Nat → State) : State × Bool :=
  match diesOf die with
  | some ds => (ds.foldl f s, true)
  | none => (s, false)

/-- Runs a command: a device whose firmware failed its check accepts none but 0x0D (R400). -/
def State.command (s : State) (tag : Ticket) (f : State → State × Bool) : State :=
  if !s.dev.fwOk then s.finish tag 1
  else
    let r := f s
    r.1.finish tag (if r.2 then 0 else 1)

/-! ### The event logic matrix (R380-R382) -/

/-- Ends a run of the histogram, adding it to the greatest bin whose edge it reaches (R382). -/
def Obs.endRun (o : Obs) : Obs :=
  if o.run = 0 then o
  else
    match ((List.range 8).filter fun i => decide ((o.edge.toList.getD i 0).toNat ≤ o.run)).getLast? with
    | none => { o with run := 0 }
    | some i => { o with run := 0, bins := Vector.ofFn fun j => if j.val = i then o.bins[j] + 1 else o.bins[j] }

/-- Bits of a unit's control register that may be written (R381). -/
def ctlMask : Word64 := 0xFFFFFFFFF0000000

/-- Writes a unit's control register, ending any run (R381, R382). -/
def Obs.setCtl (o : Obs) (u : Nat) (v : Word64) : Obs :=
  let o := o.endRun
  { o with ctl := Vector.ofFn fun j => if j.val = u then v &&& ctlMask else o.ctl[j] }

/-- Value of a source in a cycle (R380). -/
def sourceVal (leaves : List Nat) (raw : Vector Nat 12) (src : Nat) : Nat :=
  if src < 16 then leaves.countP (· == src) else if src < 28 then raw.toList.getD (src - 16) 0 else 0

/-- Condition of a unit in a cycle, and what its count rises by (R381). -/
def unitStep (mode thr a b prev : Nat) : Bool × Nat :=
  match mode with
  | 1 => (decide (a > 0), a)
  | 2 => let c := decide (a > 0) && decide (b > 0); (c, if c then 1 else 0)
  | 3 => let c := decide (a > 0) && prev == 0; (c, if c then 1 else 0)
  | 4 => let c := decide (a ≥ thr); (c, if c then 1 else 0)
  | _ => (false, 0)

/-- One cycle of the event logic matrix. -/
def Obs.elm (o : Obs) (leaves : List Nat) : Obs :=
  let f (i : Nat) (l w : Nat) : Nat := ((o.ctl.toList.getD i 0).extractLsb' l w).toNat
  let val (i l : Nat) : Nat := sourceVal leaves o.raw (f i l 8)
  let st (i : Nat) : Bool × Nat := unitStep (f i 29 3) (f i 48 16) (val i 32) (val i 40) (o.prevA.toList.getD i 0)
  let o1 := { o with cnt := Vector.ofFn fun i => o.cnt[i] + BitVec.ofNat 64 (st i.val).2,
                     prevA := Vector.ofFn fun i => val i.val 32 }
  match (List.range 8).find? fun i => f i 28 1 == 1 with
  | none => o1
  | some i => if (st i).1 then { o1 with run := o1.run + 1 } else o1.endRun

/-! ### A core's cycle (R377, R379, R383) -/

/-- One cycle of a context's bank: the leaves of its own slots, and the four event counts, whose sources are the core's (R380,
R383). -/
def CtxBank.step (b : CtxBank) (mine leaves : List Nat) (raw : Vector Nat 12) (srcs : Vector (BitVec 8) 4) : CtxBank :=
  { leaves := Vector.ofFn fun i => b.leaves[i] + BitVec.ofNat 64 (mine.countP (· == i.val)),
    events := Vector.ofFn fun i => b.events[i] + BitVec.ofNat 64 (sourceVal leaves raw srcs[i].toNat) }

/-- One lane cycle of a core's counters: `slots` gives each slice's leaf and the context it counts under, `resident` the contexts
that keep a bank. -/
def Obs.tick (o : Obs) (org : Bool) (srcs : Vector (BitVec 8) 4) (resident : List Nat) (slots : List (Nat × Option Nat)) : Obs :=
  let leaves := slots.map (·.1)
  let o := { o with slots := o.slots + 16 }
  let o :=
    if org then
      let ctxs := (slots.filterMap (·.2) ++ resident).eraseDups
      { o with banks := ctxs.foldl (fun t c =>
          let mine := slots.filterMap fun x => if x.2 = some c then some x.1 else none
          t.put c ((t.getD c CtxBank.zero).step mine leaves o.raw srcs)) o.banks }
    else
      { o.elm leaves with leaves := Vector.ofFn fun i => o.leaves[i] + BitVec.ofNat 64 (leaves.countP (· == i.val)) }
  { o with raw := Vector.replicate 12 0 }

/-! ### Organisation and packets (R379, R383, R384) -/

/-- Clears every counter of a die, its accumulators among them (R379, R383). -/
def State.clearCounters (s : State) (die : Nat) : State :=
  { s.modDie die fun d => { d with obsAt := d.lc } with
    ctxs := s.ctxs.mapVals fun c => { c with acc := c.acc.drop die }
    cores := s.cores.map fun kv => if kv.1 / 64 = die then (kv.1, { kv.2 with obs := Obs.reset }) else kv }

/-- Host command 0x0B but for the packets (R379, R383, R384). -/
def State.counterArg (s : State) (c : CounterArg) : State × Bool :=
  match c with
  | .organisation die ctxBanked => s.eachDie die fun s d =>
      if (s.die d).org = ctxBanked then s else (s.clearCounters d).modDie d fun x => { x with org := ctxBanked }
  | .sources die a b c d => s.eachDie die fun s i => s.modDie i fun x => { x with srcs := #v[a, b, c, d] }
  | .auto ctx on => (s.modCtx ctx fun c => { c with auto := on }, true)

/-- Cores that hold a bank of a context. -/
def State.bankCores (s : State) (ctx : Nat) : List Nat :=
  (s.cores.filter fun kv => (kv.2.obs.banks.find ctx).isSome).map (·.1)

/-- A start packet: the context's accumulators are cleared and counting begins (R384). -/
def State.startCount (s : State) (ctx : Nat) : State :=
  let s := (s.bankCores ctx).foldl (fun s gc =>
    s.modCore gc fun c => { c with obs := { c.obs with banks := c.obs.banks.drop ctx } }) s
  s.modCtx ctx fun c => { c with acc := [], counting := some (s.die 0).mer }

/-- The 256-byte launch record (R384). -/
def launchRecord (ctx serial start stop : Nat) (b : CtxBank) : List Byte :=
  leBytes 8 (field ctx 32 16 + field serial 0 32) ++ leBytes 8 start ++ leBytes 8 stop ++
    (b.leaves.toList.map fun v => leBytes 8 v.toNat).flatten ++ (b.events.toList.map fun v => leBytes 8 v.toNat).flatten ++
    List.replicate 72 0

/-- A stop packet (R384): banks folded, the launch record written with a launch's serial, accumulators cleared. A stop without a
start writes zero counts; its start time is a free value (DESIGN CHOICE, log entry 22). -/
def State.stopCount (s : State) (ctx serial : Nat) : State :=
  let s := (s.bankCores ctx).foldl (fun s gc => s.foldBank gc ctx) s
  let c := s.ctx ctx
  let sum := (c.acc.map (·.2)).foldl CtxBank.add CtxBank.zero
  let (start, b, s) := match c.counting with
    | some m => (m, sum, s)
    | none => ((Config.openValue s.sched.draw).toNat, CtxBank.zero, s.modSched fun x => { x with draw := x.draw + 1 })
  let s := s.devWrite ctx c.launchRec (launchRecord ctx serial start (s.die 0).mer b)
  s.modCtx ctx fun c => { c with acc := [], counting := none }

/-- ELM_CTL_WRITE: a write of a unit's control register in organisation 0 (R379, R382). -/
def execElmCtlWrite (die core unit : Nat) (v : BitVec 64) (s : State) : Out :=
  .next (if (s.die die).org then s
    else s.modCore (die * 64 + core) fun c => { c with obs := c.obs.setCtl unit v })
/-- COUNTER_ORGANISATION (R379). -/
def execCounterOrganisation (tag : Ticket) (c : CounterArg) (s : State) : Out :=
  .next (s.command tag fun s => s.counterArg c)
/-- START_PACKET (R384). -/
def execStartPacket (tag : Ticket) (ctx : Nat) (s : State) : Out :=
  .next (s.command tag fun s => (s.startCount ctx, true))
/-- STOP_PACKET (R384). -/
def execStopPacket (tag : Ticket) (ctx : Nat) (s : State) : Out :=
  .next (s.command tag fun s => (s.stopCount ctx (s.ctx ctx).serial, true))

end Sys2Proof.Machine
end

