-- ==== Sys2Proof/Machine/Tasks.lean ====
section
/-! DEFINITION. Cards, quays, the dispatcher and the harbourmaster (15). -/

namespace Sys2Proof.Machine

/-! ### Quays and the status quay (R338, R346) -/

/-- A quay no host has configured. -/
def Quay.blank : Quay := ⟨false, false, false, 6, 0, 0, 0, 0, [], 0⟩

/-- A quay of a die. -/
def State.quay (s : State) (die q : Nat) : Quay := (s.die die).disp.quays.getD q Quay.blank

/-- Change the dispatcher's state of a die. -/
def State.modDisp (s : State) (die : Nat) (f : Dispatch → Dispatch) : State :=
  s.modDie die fun d => { d with disp := f d.disp }

/-- Change a quay. -/
def State.modQuay (s : State) (die q : Nat) (f : Quay → Quay) : State :=
  s.modDisp die fun d => { d with quays := d.quays.put q (f (d.quays.getD q Quay.blank)) }

/-- Posts an entry to a die's status quay; a full ring loses it (R346). -/
def State.postStatus (s : State) (die type reason qDie q card : Nat) : State :=
  let st := s.quay die 63
  let head := (s.die die).disp.statusHead
  if !st.en || head ≥ 2 ^ st.size then s.modQuay die 63 fun x => { x with late := x.late + 1 }
  else
    let e := field (s.die die).mer 0 64 + field type 64 8 + field reason 72 8 + field q 80 6 + field qDie 86 2 + field card 128 384
    let s := s.devWrite 0 (st.base + 64 * head) (leBytes 64 e)
    s.modDisp die fun d => { d with statusHead := head + 1 }

/-- A status entry about a card. -/
def State.cardStatus (s : State) (die type reason : Nat) (c : Card) : State :=
  s.postStatus die type reason c.homeDie c.quay (c.bits.toNat % 2 ^ 384)

/-! ### Acceptance (R336, R337) -/

/-- Reads bytes at virtual addresses without posting a page request (R336): they cannot be read (`some` error, the reason `r`), or must
wait for a tier or die that is off, or for a commit (no reason; R98, R394, R395). -/
def State.quietBytes (s : State) (die ctx r : Nat) : Nat → Nat → Except (Option Nat) (List Byte × State)
  | _, 0 => .ok ([], s)
  | va, n + 1 => do
    let (bs, s) ← s.quietBytes die ctx r va n
    match s.quietLook die ctx (va + n) .read with
    | .ok x s =>
      let line := x.pa / 256
      if !s.lineAwake line || (x.ver && (s.vline line).undecided none) then .error none
      else
        let s := s.codeCheck ctx line
        if s.poisoned line then .error (some r) else .ok (bs ++ [s.homes.mem.read x.pa], s)
    | .bad _ => .error (some r)
    | .hold => .error none

/-- Reason 1 of R336: the card's fields. -/
def cardFields (c : Card) : Bool :=
  c.f 122 6 == 0 && c.f 52 12 == 0 && c.f 0 2 == 0 && decide (c.f 118 2 ≤ 1) &&
  (if c.isLaunch then c.f 256 32 != 0 && c.f 320 64 == 0 && c.f 384 64 == 0 && c.f 448 64 == 0 && c.f 244 12 == 0 && c.f 192 6 == 0
   else !c.lsnap)

/-- Reason 5 of R336 for one tile, `sp` being the size of the scratchpad its team will have. -/
def tileOk (ctx : Context) (sp : Nat) (x : Tile) : Bool :=
  x.lines == 0 ||
    (let r := recF (ctx.recAt x.recNo)
     r.valid && r.rd && (r.badRun (if r.home = 0xFC then some sp else none) (16 * x.lines) (x.off * 256) (x.lines * 256)).isNone)

/-- Reason 6 of R336: a uniform block within R335. -/
def uniformOk (b : List Byte) : Bool :=
  (b.getD 63 0) == 0 && (List.range 7).all fun j =>
    let k := (b.getD (56 + j) 0).toNat
    (decide (k ≤ 5) || k == 7) && (!(k == 1 || k == 3) || leVal ((b.drop (8 * j + 4)).take 4) == 0)

/-- Reason 7 of R336. -/
def signalOk (ctx : Context) (c : Card) : Bool :=
  !c.sigen ||
    (let r := recF (ctx.recAt c.srec)
     let p := r.rowCol c.sbyte
     r.valid && r.wr && r.home != 0xFC && decide (r.place p.1 p.2 + 8 ≤ r.extent))

/-- The checks of R336 in order: the reason of the first that fails, none where a check has to wait, or the card as accepted. -/
def State.admission (s : State) (ctx die : Nat) (bits : BitVec 512) : Except (Option Nat) (Card × State) := do
  let c : Card := { Card.blank with ctx := ctx, bits := bits, homeDie := die, target := die, st := .waiting }
  let c := { c with quay := c.quayNo }
  let x := s.ctx ctx
  if !cardFields c then throw (some 1)
  if c.quay = 63 || !(s.quay die c.quay).en then throw (some 2)
  if c.entry < 16 then throw (some 3)
  let (hb, s) ← s.quietBytes die ctx 3 (c.entry - 16) 16
  let k ← match kernelOf (BitVec.ofNat 128 (leVal hb)) with
    | some k => pure k
    | none => throw (some 3)
  if !s.shapeFits die k then throw (some 4)
  if !c.isLaunch && !((List.range 4).all fun i => tileOk x (k.sp * 131072) (c.tile i)) then throw (some 5)
  let (ub, s) ← if c.isLaunch then do
      let (b, s) ← s.quietBytes die ctx 6 c.arg 64
      if uniformOk b then pure (b, s) else throw (some 6)
    else pure ([], s)
  if !signalOk x c then throw (some 7)
  let s := (s.modCtx ctx fun y => { y with serial := if c.isLaunch then y.serial + 1 else y.serial }).pruneRegs
  return ({ c with kernel := k, ublock := ub, serial := (s.ctx ctx).serial,
                   snap := if c.lsnap then some (max (s.die die).mer 1) else none }, s)

/-- Adds an accepted card. -/
def State.addCard (s : State) (c : Card) : Nat × State :=
  let i := s.sched.nextId
  let s := s.modSched fun x => { x with nextId := i + 1 }
  (i, { s with cards := s.cards.put i c })

/-- A quay's ring has room (R338). -/
def State.ringRoom (s : State) (die q : Nat) : Bool :=
  let x := s.quay die q
  decide (x.ring.length < 2 ^ x.size)

/-- Files a card into its quay's ring (R337). -/
def State.fileCard (s : State) (i : Nat) : State :=
  let c := s.card i
  (s.modQuay c.homeDie c.quay fun q => { q with ring := q.ring ++ [i] }).modCard i fun c => { c with st := .ring }

/-- A die serves submissions: it is neither gated nor relocking (R394, R395). -/
def State.serves (s : State) (die : Nat) : Bool := s.clocked die && !(s.die die).gated

/-- A card from outside is checked and filed; a full ring drops it (R336, R337). `none` while the check must wait. -/
def State.submitNow (s : State) (ctx die : Nat) (bits : BitVec 512) : Option State :=
  match s.admission ctx die bits with
  | .error none => none
  | .error (some r) => some (s.postStatus die 2 r die (bits.extractLsb' 112 6).toNat (bits.toNat % 2 ^ 384))
  | .ok (c, s) => some (if s.ringRoom die c.quay then let (i, s) := s.addCard c; s.fileCard i else s.cardStatus die 4 0 c)

/-- The oldest submission to a die that is held (R390, R394, R395). -/
def State.firstHeld (s : State) (die : Nat) : Option (Nat × Card) :=
  s.cards.find? fun kv => decide (kv.2.st = .held) && kv.2.homeDie == die

/-- A card from outside: held behind those that are held, and where its die or what its check reads serves no requests now (R336, R390,
R394, R395). -/
def State.submit (s : State) (ctx die : Nat) (bits : BitVec 512) : State :=
  let c : Card := { Card.blank with ctx := ctx, bits := bits, homeDie := die, target := die, st := .held }
  let held : State := (s.addCard { c with quay := c.quayNo }).2
  if !s.serves die || (s.firstHeld die).isSome then held else (s.submitNow ctx die bits).getD held

/-- The oldest submission that is held goes on, where it names the quay. -/
def State.heldFile (s : State) (die q : Nat) : State :=
  match s.firstHeld die with
  | some (i, c) =>
    if c.quay = q ∧ s.serves die then ({ s with cards := s.cards.drop i }.submitNow c.ctx die c.bits).getD s else s
  | none => s

/-- CARD_FILE: a submission that is held is checked, and the oldest accepted card held for room is filed (R337). -/
def State.cardFile (s : State) (die q : Nat) : State :=
  let s := s.heldFile die q
  match s.cards.find? fun kv => decide (kv.2.st = .waiting) && kv.2.homeDie == die && kv.2.quay == q with
  | some (i, _) => if s.ringRoom die q then s.fileCard i else s
  | none => s

/-! ### job.push and launch (R352) -/

/-- A record with rowlen 0 (R352). -/
def rowless (r : RecF) : Bool := r.rowlen == 0

/-- Reads a card at its record (R352). -/
def readCard (t : Nat) (tb : Rec) (x : Src) : M (BitVec 512) := do
  let ix ← readSrc t .raw false x
  let p ← placeAccess t tb ix (fun _ i => i * 64) 64 16 rowless rdRights anyHome (pure ())
  let a ← placeXlat t p .read
  let s ← get
  let o := mkOp s t tb.val a (.load 8 8 false .i64 false) .normal 0 true
  if s.sideBlocked s.sched.nextId o then wait 0x6 .poll
  match s.readPieces o true with
  | none => wait 0x6 .poll
  | some (s, bs) =>
    set s
    return BitVec.ofNat 512 (leVal bs)

/-- job.push and launch (R337, R352). -/
def pushBody (isLaunch : Bool) (d : Dst) (tb : Rec) (x : Src) (t : Nat) : M (Cost × Bool) := plain do
  let th ← getT t
  if th.stage < 2 then
    inTurn t
    waitStores t
    let bits ← readCard t tb x
    raiseEn t
    modify fun s => s.lowerEn t
    let s ← get
    let kind := (bits.extractLsb' 118 2).toNat
    if kind ≠ (if isLaunch then 1 else 0) then
      writeVals t d [(1, .i32)] 0
    else match s.admission (s.ctxOf t) th.id.die bits with
      | .error none => wait 0xE .poll
      | .error (some r) => writeVals t d [(BitVec.ofNat 64 r, .i32)] 0
      | .ok (c, s) =>
        let (i, s) := s.addCard c
        if s.ringRoom c.homeDie c.quay && !(s.cards.any fun kv =>
            decide (kv.1 < i) && decide (kv.2.st = .waiting) && kv.2.homeDie == c.homeDie && kv.2.quay == c.quay) then
          set (s.fileCard i)
          writeVals t d [(0, .i32)] 0
        else
          set s
          modT t fun th => { th with stage := i + 2 }
          wait 0xE .poll
  else
    if (← get).cards.any fun kv => kv.1 == th.stage - 2 && decide (kv.2.st = .waiting) then wait 0xE .poll
    writeVals t d [(0, .i32)] 0

/-- Shell of job.push and launch, which no candidate may use. -/
def shP (tb : Rec) (x : Src) : Shell := (shM tb [x]).ban

/-- job.push (R352). -/
def execJobPush (d : Dst) (tb : Rec) (x : Src) (s : State) : Out := .next (runWord (shP tb x) (pushBody false d tb x) s)
/-- launch (R352). -/
def execLaunch (d : Dst) (tb : Rec) (x : Src) (s : State) : Out := .next (runWord (shP tb x) (pushBody true d tb x) s)

/-! ### job.done and yield (R353) -/

/-- job.done: the operand joins the work's result, and the thread ends as exit ends it. -/
def jobDoneBody (a : Src) (t : Nat) : M Bool := do
  let v ← readSrc t .single false a
  if !(v.imm || v.kind = .i32 || v.kind = .i64) then fault 0x2D
  waitStores t
  modify fun s => s.modCard (s.workOf t).card fun c => { c with result := c.result ||| v.val.setWidth 32 }
  return true

/-- job.done (R353). -/
def execJobDone (c : RCtl) (a : Src) (s : State) : Out :=
  .next (runEnd (shR c [a]).ban.relPoint (jobDoneBody a) (fun t s => s.endThread t) s)

/-- The thread parks for a slice end (R343). -/
def State.parkYield (s : State) (t : Nat) : State := (s.stepOut t).modThread t fun th => { th with place := .yielded }

/-- yield (R353). -/
def execYield (c : RCtl) (s : State) : Out :=
  .next (runEnd (shR c []).ban (fun t => do waitStores t; return true) (fun t s => s.parkYield t) s)

/-! ### qstat (R354) -/

/-- Cards of a quay that are drawn but not all placed. -/
def State.drawnOf (s : State) (die q : Nat) : List (Nat × Card) :=
  s.cards.filter fun kv => kv.2.homeDie == die && kv.2.quay == q &&
    (decide (kv.2.st = .drawn) || decide (kv.2.st = .ready) || decide (kv.2.st = .picked))

/-- Occupancy of a quay (R347). -/
def State.occupancy (s : State) (die q : Nat) : Nat := (s.quay die q).ring.length + (s.drawnOf die q).length

/-- Resident teams of a quay's cards. -/
def State.residentOf (s : State) (die q : Nat) : Nat :=
  s.works.countP fun kv => kv.2.resident && (s.card kv.2.card).homeDie == die && (s.card kv.2.card).quay == q

/-- The state word. -/
def State.quayState (s : State) (die q : Nat) : Nat :=
  let ready := (s.drawnOf die q).countP fun kv => decide (kv.2.st ≠ .drawn)
  field (min (s.occupancy die q) 65535) 48 16 + field ready 32 16 + field (s.residentOf die q) 16 16 +
    field (min (s.quay die q).late 255) 8 8

/-- The configuration word. -/
def State.quayConfig (s : State) (die q : Nat) : Nat :=
  let x := s.quay die q
  let b (v : Bool) (i : Nat) : Nat := if v then 2 ^ i else 0
  field x.hi 48 16 + field x.lo 32 16 + field x.size 27 5 + field x.stage 24 3 + b x.fifo 23 + b x.steer 22 + b x.en 21 +
    field (s.die die).disp.wf 4 4 + field (s.die die).disp.we 0 4

/-- qstat. -/
def qstatBody (d : Dst) (a b : Src) (t : Nat) : M (Cost × Bool) := plain do
  let (q, sel) ← readUnsigned2 t a b
  if sel > 1 then fault 0x06
  let s ← get
  let die := (s.thread t).id.die
  let v := if sel = 0 then s.quayState die (q % 64) else s.quayConfig die (q % 64)
  writeVals t d [(BitVec.ofNat 64 v, .i64)] 0

/-- qstat (R354). -/
def execQstat (c : RCtl) (d : Dst) (a b : Src) (s : State) : Out :=
  .next (runWord (shR c [a, b]).ban (qstatBody d a b) s)

/-! ### Drawing and fetching tiles (R338, R339) -/

/-- The longest tile of a card; ties go to the lowest. -/
def Card.longest (c : Card) : Option Tile :=
  if c.isLaunch then none
  else ((List.range 4).map c.tile).foldl (fun b x =>
    if x.lines = 0 then b else match b with
      | none => some x
      | some y => if y.lines < x.lines then some x else b) none

/-- Cards that a die's card store holds (R338). -/
def State.stored (s : State) (die : Nat) : Nat :=
  s.cards.countP fun kv => kv.2.homeDie == die &&
    (decide (kv.2.st = .drawn) || decide (kv.2.st = .ready) || decide (kv.2.st = .picked))

/-- A card enters the card store of a die: its tile fetch starts, or it is ready (R338). -/
def State.drawAs (s : State) (i die : Nat) : State :=
  let c := s.card i
  let ls := if c.isLaunch then []
    else (List.range 4).filterMap fun k => if (c.tile k).lines = 0 then none else some (k, (c.tile k).lines)
  let o := (s.die die).disp.order
  let s := s.modCard i fun c => { c with homeDie := die, target := die, lines := ls, order := o, st := if ls.isEmpty then .ready else .drawn }
  s.modDisp die fun d => { d with order := o + 1 }

/-- A die's store takes one more card of a quay. -/
def State.storeRoom (s : State) (die q : Nat) : Bool :=
  decide ((s.drawnOf die q).length < 256) && decide (s.stored die < 4096)

/-- CARD_DRAW: the quay's oldest card is drawn; its target die is fixed (R338, R339). -/
def State.cardDraw (s : State) (die q : Nat) : State :=
  let x := s.quay die q
  match x.ring with
  | [] => s
  | i :: rest =>
    let c := s.card i
    let out (s : State) : State := s.modQuay die q fun y => { y with ring := rest }
    let here : State := if s.storeRoom die q then (out s).drawAs i die else s
    if !x.steer then here
    else match c.longest with
      | none => here
      | some t =>
        match (recF ((s.ctx c.ctx).recAt t.recNo)).homeOf s.dev.fab with
        | .remote dev => if s.pathTo dev then let s := out s; { s with cards := s.cards.drop i } else s
        | _ =>
          if t.die ≠ die && (s.quay t.die q).en && s.shapeFits t.die c.kernel then
            if s.storeRoom t.die q then (out s).drawAs i t.die else s
          else here

/-- Whether the checks of an access before its translation pass for a run of a card's tile line (R144, R339). -/
def Card.tileReads (c : Card) (r : RecF) (o : Nat) : Bool :=
  r.valid && r.rd && (r.view == 0 || (r.view == 1 && c.snap.isSome)) && decide (o + 16 ≤ r.extent)

/-- Fetches the runs of a tile line in order: a run that an access would fault on, one of a versioned page and one of another device
are left; `none` while a portion or die that is off holds the fetch (R339, R394, R395). -/
def State.fetchRuns (s : State) (c : Card) (r : RecF) (L : Nat) : List Nat → Option State
  | [] => some s
  | j :: rest =>
    let p := r.rowCol (L + 16 * j)
    let o := r.place p.1 p.2
    if !c.tileReads r o then s.fetchRuns c r L rest
    else match s.quietLook c.target c.ctx (r.base + o) .read with
      | .hold => none
      | .bad _ => s.fetchRuns c r L rest
      | .ok y s =>
        let line := y.pa / 256
        if y.ver then s.fetchRuns c r L rest
        else if !s.lineAwake line then none
        else
          let s := s.codeCheck c.ctx line
          (if s.poisoned line then s else s.l2Read c.target line false .normal).fetchRuns c r L rest

/-- The fetch of one tile line toward the target die (R339). -/
def State.fetchLine (s : State) (c : Card) (k line : Nat) : Option State :=
  let x := c.tile k
  let r := recF ((s.ctx c.ctx).recAt x.recNo)
  if !s.serves c.target then none
  else if r.homeOf s.dev.fab ≠ .main then some s
  else s.fetchRuns c r ((x.off + line) * 256) (List.range 16)

/-- TILE_LINE_ARRIVAL: the next line of a drawn card is fetched, skipped or dropped, or is still held; the last makes the card ready
(R338, R339). -/
def State.tileLine (s : State) (i : Nat) : State :=
  let c := s.card i
  if c.st ≠ .drawn then s
  else match c.lines with
    | [] => s.modCard i fun c => { c with st := .ready }
    | (k, n) :: r =>
      match s.fetchLine c k ((c.tile k).lines - n) with
      | none => s
      | some s =>
        let ls := if n ≤ 1 then r else (k, n - 1) :: r
        s.modCard i fun c => { c with lines := ls, st := if ls.isEmpty then .ready else .drawn }

/-! ### Picking (R340, R341) -/

/-- Whether one deadline is earlier than another (R340). -/
def earlier (d1 d2 : Nat) : Bool :=
  let x := (d2 + 2 ^ 48 - d1 % 2 ^ 48) % 2 ^ 48
  decide (1 ≤ x) && decide (x ≤ 2 ^ 47 - 1)

/-- The better of two EDF cards: earlier deadline, lower quay, drawn first (R341). -/
def edfBetter (a b : Nat × Card) : Nat × Card :=
  if earlier b.2.deadline a.2.deadline then b
  else if earlier a.2.deadline b.2.deadline then a
  else if b.2.quay < a.2.quay ∨ (b.2.quay = a.2.quay ∧ b.2.order < a.2.order) then b else a

/-- The ready card an EDF pick takes. -/
def State.edfCard (s : State) (die : Nat) : Option Nat :=
  match s.cards.filter fun kv => kv.2.homeDie == die && decide (kv.2.st = .ready) && !(s.quay die kv.2.quay).fifo with
  | [] => none
  | c :: r => some (r.foldl edfBetter c).1

/-- The card a FIFO pick takes: the oldest drawn card of the FIFO quays, if it is ready. -/
def State.fifoCard (s : State) (die : Nat) : Option Nat :=
  match s.cards.filter fun kv => kv.2.homeDie == die && (s.quay die kv.2.quay).fifo &&
      (decide (kv.2.st = .drawn) || decide (kv.2.st = .ready)) with
  | [] => none
  | c :: r =>
    let o := r.foldl (fun a b => if b.2.order < a.2.order then b else a) c
    if o.2.st = .ready then some o.1 else none

/-- DISPATCH_PICK: the next pick of the round, when none waits to be placed (R341). -/
def State.dispatchPick (s : State) (die : Nat) : State :=
  let d := (s.die die).disp
  if d.picked.isSome then s
  else
    let e := s.edfCard die
    let f := s.fifoCard die
    let take (i : Nat) (edf : Bool) (used : Nat) : State :=
      (s.modCard i fun c => { c with st := .picked }).modDisp die fun d => { d with picked := some i, edf := edf, used := used }
    let idle : State := s.modDisp die fun d => { d with edf := true, used := 0 }
    let eTake := if d.edf ∧ d.used < d.we then e else none
    let fTake := if !d.edf ∧ d.used < d.wf then f else none
    match eTake, fTake with
    | some i, _ => take i true (d.used + 1)
    | none, some i => take i false (d.used + 1)
    | none, none =>
      let (n1, n2) := if d.edf then (f, e) else (e, f)
      match n1, n2 with
      | some i, _ => take i (!d.edf) 1
      | none, some i => take i d.edf 1
      | none, none => idle

/-! ### Placing (R341-R343) -/

/-- A card is late at its dispatch (R340). -/
def Card.isLate (c : Card) (mer : Nat) : Bool := c.deadline != 0 && earlier c.deadline (mer % 2 ^ 48)

/-- What follows a placement: the pick is over, the card goes on or stays ready for its next team, a late one is
reported, and a launch's first placement starts counting where the host has set auto (R340, R342, R384). -/
def State.placed (s : State) (die i w : Nat) (fresh : Bool) : State :=
  let c := s.card i
  let s := if c.isLate (s.die die).mer then
      (s.modQuay die c.quay fun q => { q with late := q.late + 1 }).cardStatus die 1 0 c else s
  let s := if fresh && c.isLaunch && c.next == 0 && (s.ctx c.ctx).auto then s.startCount c.ctx else s
  let next := if fresh then c.next + 1 else c.next
  let rq := if fresh then c.requeued else c.requeued.drop 1
  let s := s.modCard i fun c => { c with next := next, requeued := rq, live := if fresh then c.live ++ [w] else c.live,
                                         st := if rq.isEmpty && decide (next ≥ c.teams) then .running else .ready }
  s.modDisp die fun d => { d with picked := none }

/-- TEAM_PLACEMENT: the picked card's team is placed, or a requeued one restored, once a berth qualifies (R341-R343,
R369). -/
def State.teamPlacement (s : State) (die : Nat) : State :=
  match (s.die die).disp.picked with
  | none => s
  | some i =>
    let c := s.card i
    let stage := (s.quay die c.quay).stage
    match c.requeued with
    | w :: _ => match s.restoreSpot w stage with
      | some s => s.placed die i w false
      | none => s
    | [] => match s.qualifies die stage c.kernel with
      | some cores =>
        let (w, s) := s.placeTeam i ((c.tbase + c.next) % 2 ^ 32) die stage cores
        s.placed die i w true
      | none => s

/-! ### Completion (R343, R345) -/

/-- The team's spawn FIFO on a core holds a whole record (R237). -/
def State.spawnLeft (s : State) (w : Nat) : Bool :=
  (s.work w).cores.any fun gc => match s.spawnFifo gc w with
    | some b => decide ((s.bank gc b).items.length ≥ 64)
    | none => false

/-- Where a card's completion signal is stored, or the cause that stops it (R345). -/
def State.signalSpot (s : State) (c : Card) : Except Cause (RecF × Nat) := do
  let r := recF ((s.ctx c.ctx).recAt c.srec)
  if !r.valid then throw 0x21
  if r.view = 3 then throw 0x06
  if r.view = 2 || (r.view = 1 && c.snap.isNone) then throw 0x90
  if r.home = 0xFC then throw 0x2C
  if !r.wr then throw 0x22
  let p := r.rowCol c.sbyte
  let o := r.place p.1 p.2
  if o + 8 > r.extent then throw 0x20
  return (r, r.base + o)

/-- A card's completion store faults: a status entry of type 6 names the cause (R345). -/
def State.signalFails (s : State) (c : Card) (x : Cause) : State := s.cardStatus c.homeDie 6 x.toNat c

/-- The completion store finds no version slot: it waits for one as long as any store does, in the window of its line's home, and is then
lost (R107, R345). -/
def State.signalWaits (s : State) (i : Nat) (c : Card) (line vline : Nat) : State × Bool :=
  let now := (s.die c.homeDie).mer
  match c.sigWait with
  | none =>
    let w := ((s.die (lineDie line)).store.map (·.window)).getD 0
    (s.modCard i fun c => { c with sigWait := some (now + w) }, false)
  | some w =>
    if now < w then (s, false)
    else ((s.postQ c.ctx (s.asyncRec c.homeDie 0 c.ctx 0 0x91 (vline * 256))).signalFails c 0x91, true)

/-- The completion store to main memory (R345), a write with no owning core. -/
def State.signalMain (s : State) (i : Nat) (c : Card) (va : Nat) (bs : List Byte) : State × Bool :=
  match s.quietLook c.homeDie c.ctx va .write with
  | .bad x => (s.signalFails c x, true)
  | .hold => (s, false)
  | .ok y s =>
    let line := y.pa / 256
    let rs : Runs := [(y.pa % 256, bs)]
    let s := if s.lineAwake line then s.disown (rs.words line) else s
    match s.homeWrite c.ctx .normal y.ver line rs none with
    | .ok s => (s.l2Settle line, true)
    | .hold s _ => (s, false)
    | .noSlot => s.signalWaits i c line (va / 256)
    | .poisoned s => (s.signalFails c 0x29, true)

/-- Stores the completion signal of card `i`, if it has one (R345): whether that is over, or the store still waits. -/
def State.signal (s : State) (i : Nat) : State × Bool :=
  let c := s.card i
  let bs := leBytes 4 1 ++ leBytes 4 c.result.toNat
  if !c.sigen then (s, true)
  else if !s.clocked c.homeDie then (s, false)
  else match s.signalSpot c with
    | .error x => (s.signalFails c x, true)
    | .ok (r, va) =>
      match r.homeOf s.dev.fab with
      | .main => s.signalMain i c va bs
      | .host =>
        if s.ops.any fun kv => kv.2.home == .host && !kv.2.performed then (s, false)
        else (s.modHomes fun h => { h with host := h.host.writeN va bs }, true)
      | .remote d => (if s.pathTo d then s else s.signalFails c 0x2E, true)
      | .scratch => (s.signalFails c 0x2C, true)

/-- Ends the array operations of a team that has gone. -/
def State.dropArray (s : State) (w : Nat) : State :=
  (s.work w).cores.foldl (fun s gc =>
    ((s.engOps gc 3).filter fun o => o.2.work == w).foldl (fun s o => s.engClose ⟨gc, 3, o.1⟩ 1 0) s) s

/-- A team in replay mode has writes to commit, or a stop to come to, before it is over (R386, R387). -/
def Replay.open_ (r : Replay) : Bool := !r.held.isEmpty || !r.heldHost.isEmpty || r.stop.isSome

/-- A card with no team left to place is not placed (R341). -/
def State.unready (s : State) (i : Nat) : State :=
  let c := s.card i
  if (c.st = .ready ∨ c.st = .picked) ∧ c.requeued.isEmpty ∧ c.next ≥ c.teams then
    let s := s.modCard i fun c => { c with st := .running }
    (List.range 4).foldl (fun s d => s.modDisp d fun x =>
      { x with picked := if x.picked = some i then none else x.picked }) s
  else s

/-- The team is gone: its resources are free (R132, R343). -/
def State.endTeam (s : State) (w : Nat) : State :=
  let x := s.work w
  let s := s.dropArray w
  let s := (s.liveOf w).foldl (fun s t => s.endThread t) s
  let s := x.cores.foldl (fun s gc => s.ungrant gc w) s
  let s := { s with groups := s.groups.filter fun kv => kv.2.work != w, works := s.works.drop w }
  let s := s.modDie x.die fun d => { d with disp := { d.disp with pool := d.disp.pool + x.area } }
  let s := s.modCard x.card fun c => { c with live := c.live.filter (· != w), requeued := c.requeued.filter (· != w) }
  s.unready x.card

/-- Writes of a work's threads, of those that have ended too, are still to perform (R274, R345). -/
def State.writesLeft (s : State) (w : Nat) : Bool := s.ops.any fun kv => kv.2.who.work == w && !kv.2.performed && kv.2.writes

/-- COMPLETION_SIGNAL: every thread of the team has ended, and the team ends; with a card's last team the signal is
stored, and a launch's counting stops where the host has set auto (R237, R343, R345, R384). -/
def State.complete' (s : State) (w : Nat) : State :=
  match s.works.find w with
  | none => s
  | some x =>
    if !(s.liveOf w).isEmpty || s.writesLeft w || s.spawnLeft w || x.rpl.any Replay.open_ then s
    else
      let c := s.card x.card
      let last := decide (c.next ≥ c.teams) && c.live == [w]
      if !last then s.endTeam w
      else match s.signal x.card with
        | (s, false) => s
        | (s, true) =>
          let s := s.endTeam w
          let s := if c.isLaunch && (s.ctx c.ctx).auto then s.stopCount c.ctx c.serial else s
          { s with cards := s.cards.drop x.card }

/-! ### Budgets (R344, R355) -/

/-- Ticks that count for the slice's budget. -/
def State.budgetTicks (s : State) (w : Nat) : Nat :=
  let x := s.work w
  x.bud.spent + if x.resident then (s.die x.die).mer - x.bud.start else 0

/-- BUDGET_EXHAUSTED: each live thread takes 0xA0 at its next header, once per slice (R344). -/
def State.budgetOut (s : State) (w : Nat) : State :=
  match s.works.find w with
  | none => s
  | some x =>
    let b := (s.card x.card).budget
    if b = 0 || x.bud.trapAt.isSome || !x.resident || s.budgetTicks w < b then s
    else
      let s := s.modWork w fun y => { y with bud := { y.bud with trapAt := some (s.budgetTicks w) } }
      (s.liveOf w).foldl (fun s t => s.modThread t fun th => { th with budgetDue := true }) s

/-- FORCED_SLICE_END: budget/4 ticks after the trap the dispatcher ends the slice (R344). -/
def State.forceEnd (s : State) (w : Nat) : State :=
  match s.works.find w with
  | none => s
  | some x =>
    match x.bud.trapAt with
    | none => s
    | some at_ =>
      let c := s.card x.card
      if x.sw = .running ∧ s.budgetTicks w ≥ at_ + c.budget / 4 then
        (s.modWork w fun y => { y with sw := .stopping .forced }).cardStatus c.homeDie 3 0 c
      else s

/-! ### The harbourmaster (R347-R349) -/

/-- Berths of a die. -/
def State.berthsOf (s : State) (die : Nat) : List Nat :=
  if (s.die die).disp.slicePair then (List.range 512).filter fun b => s.corePresent (die * 64 + b / 8)
  else (List.range 64).filter fun c => s.corePresent (die * 64 + c)

/-- Berths of a stage. -/
def State.stageBerths (s : State) (die stage : Nat) : List Nat :=
  (s.berthsOf die).filter fun b => (s.die die).disp.berths.getD b 0 == stage

/-- Enabled quays of a stage. -/
def State.stageQuays (s : State) (die stage : Nat) : List (Nat × Quay) :=
  (s.die die).disp.quays.filter fun kv => kv.1 != 63 && kv.2.en && kv.2.stage == stage

/-- By how much a stage's most pressed quay exceeds its high threshold. -/
def State.pressure (s : State) (die stage : Nat) : Nat :=
  (s.stageQuays die stage).foldl (fun m kv => max m (s.occupancy die kv.1 - kv.2.hi)) 0

/-- A stage is slack (R348). -/
def State.slack (s : State) (die stage : Nat) : Bool :=
  (s.stageQuays die stage).all fun kv => decide (s.occupancy die kv.1 < kv.2.lo)

/-- Berths of a stage above its floor. -/
def State.above (s : State) (die stage : Nat) : Nat :=
  (s.stageBerths die stage).length - (s.die die).disp.floors.getD stage 0

/-- The stage with the greatest measure; ties go to the lower number. -/
def bestStage (xs : List Nat) (f : Nat → Nat) : Option Nat :=
  xs.foldl (fun b x => match b with
    | none => some x
    | some y => if f y < f x then some x else b) none

/-- HARBOURMASTER_EVALUATION (R348). -/
def State.harbour (s : State) (die : Nat) : State :=
  let d := (s.die die).disp
  if (s.die die).mer < d.evalAt then s
  else
    let s := s.modDisp die fun d => { d with evalAt := d.evalAt + 10000 }
    let pressed := (List.range 8).filter fun st => decide (0 < s.pressure die st)
    match bestStage pressed (s.pressure die) with
    | none => s
    | some r =>
      let donors := (List.range 8).filter fun st => st != r && s.slack die st && decide (0 < s.above die st)
      match bestStage donors (s.above die) with
      | none => s
      | some g =>
        match (s.stageBerths die g).getLast? with
        | none => s
        | some b =>
          let s := s.modDisp die fun d => { d with berths := d.berths.put b r, serving := d.serving.put b g }
          s.postStatus die 5 0 die 0 (field b 0 16 + field g 16 3 + field r 19 3)

/-- A resident team of a stage has a thread on a berth. -/
def State.onBerth (s : State) (die berth stage : Nat) : Bool :=
  s.threads.any fun kv => kv.2.id.die == die && (s.work kv.2.id.work).resident &&
    (if (s.die die).disp.slicePair then kv.2.id.core * 8 + kv.2.slice / 2 == berth else kv.2.id.core == berth) &&
    (let c := s.card (s.work kv.2.id.work).card; (s.quay c.homeDie c.quay).stage == stage)

/-- BERTH_HANDOVER: with no team of the donor stage left on it, a moved berth serves its new stage (R349). -/
def State.handover (s : State) (die berth : Nat) : State :=
  match (s.die die).disp.serving.find berth with
  | none => s
  | some g => if s.onBerth die berth g then s else s.modDisp die fun d => { d with serving := d.serving.drop berth }

/-! ### Submissions (R339, R390) -/

/-- SUBMISSION_WRITE (R390): windows are numbered by function and window. -/
def State.submissionWrite (s : State) (window offset : Nat) (data : List Byte) : State :=
  let drop (s : State) : State := s.postStatus 0 4 0 0 63 (leVal (data.take 48))
  if !s.dev.fwOk then s
  else match s.dev.windows.find window with
    | none => drop s
    | some (ctx, die) =>
      if offset ≠ 0 || data.length ≠ 64 then drop s else s.submit ctx die (BitVec.ofNat 512 (leVal data))

/-- FORWARDED_CARD_ARRIVAL: accepted afresh into the same-numbered quay (R339), while the wharf carries traffic (R393). -/
def State.forwarded (s : State) (die q ctx : Nat) (card : BitVec 512) : State :=
  if s.dev.wharfUp && (card.extractLsb' 112 6).toNat = q then s.submit ctx die card else s

/-- CARD_FILE (R337). -/
def execCardFile (die quay : Nat) (s : State) : Out := .next (s.cardFile die quay)
/-- CARD_DRAW (R338). -/
def execCardDraw (die quay : Nat) (s : State) : Out := .next (s.cardDraw die quay)
/-- TILE_LINE_ARRIVAL (R339). -/
def execTileLineArrival (_die card : Nat) (s : State) : Out := .next (s.tileLine card)
/-- DISPATCH_PICK (R341). -/
def execDispatchPick (die : Nat) (s : State) : Out := .next (s.dispatchPick die)
/-- TEAM_PLACEMENT (R341). -/
def execTeamPlacement (die : Nat) (s : State) : Out := .next (s.teamPlacement die)
/-- BUDGET_EXHAUSTED (R344). -/
def execBudgetExhausted (team : Nat) (s : State) : Out := .next (s.budgetOut team)
/-- FORCED_SLICE_END (R344). -/
def execForcedSliceEnd (team : Nat) (s : State) : Out := .next (s.forceEnd team)
/-- COMPLETION_SIGNAL (R345). -/
def execCompletionSignal (work : Nat) (s : State) : Out := .next (s.complete' work)
/-- HARBOURMASTER_EVALUATION (R348). -/
def execHarbourmasterEvaluation (die : Nat) (s : State) : Out := .next (s.harbour die)
/-- BERTH_HANDOVER (R349). -/
def execBerthHandover (die berth : Nat) (s : State) : Out := .next (s.handover die berth)
/-- SUBMISSION_WRITE (R390). -/
def execSubmissionWrite (window offset : Nat) (data : List (BitVec 8)) (s : State) : Out :=
  .next (s.submissionWrite window offset data)
/-- FORWARDED_CARD_ARRIVAL (R339). -/
def execForwardedCardArrival (die quay ctx : Nat) (card : BitVec 512) (s : State) : Out :=
  .next (s.forwarded die quay ctx card)

end Sys2Proof.Machine
end

