-- ==== Sys2Proof/Machine/System.lean ====
section
/-! DEFINITION. The special registers (R208-R210, R15, R76, R108, R134, R325, R355, R360, R379) and the system words
(R371-R376). -/

namespace Sys2Proof.Machine

/-! ### Reading special registers (R208) -/

/-- A register whose value has not been written yet keeps its old entry bound until it is, and a queue entry that still waits for its
value is bound to none (R199). -/
def Entry.bound (e : Entry) (named : Bool) : Bool := if e.wait.isSome then named && e.old.2 != .empty else e.kind != .empty

/-- Bound entries of a thread (R199, R208). -/
def Regs.live (r : Regs) : Nat := r.q.toList.countP (·.bound false) + r.k.toList.countP (·.bound true)

/-- sr.cap.dev (R15, R16). -/
def Device.capWord (d : Device) : Nat :=
  let n (i : Nat) : Nat := (List.range 64).countP fun j => (d.cores.getD i 0).getLsbD j
  field d.step.toNat 56 8 + field d.prod.toNat 48 8 + field (n 3) 40 8 + field (n 2) 32 8 + field (n 1) 24 8 +
    field (n 0) 16 8 + field d.farGiB.toNat 8 8

/-- Code of a bank's mode in sr.bank (R134). -/
def bankCode : BankMode → Nat
  | .cache => 0 | .scratchpad => 1 | .fifo => 2

/-- sr.bank (R134). -/
def Core.bankWord (c : Core) : Nat := (c.banks.toList.zipIdx.map fun b => bankCode b.1.mode * 2 ^ (2 * b.2)).sum

/-- sr.bank.own (R134). -/
def Core.ownWord (c : Core) (w : Nat) : Nat :=
  (c.banks.toList.zipIdx.map fun b => if b.1.own = some w then 2 ^ b.2 else 0).sum

/-- sr.pt.root (R76). -/
def rootWord (r : Word64) : Nat := r.toNat / 2 ^ 40 % 16 * 2 ^ 40 + r.toNat / 2 ^ 14 % 2 ^ 21 * 2 ^ 14

/-- sr.ver.cfg (R108). -/
def Die.verWord (d : Die) : Nat :=
  match d.store with
  | some v => field v.counted 32 32 + field v.window 0 32
  | none => 0

/-- sr.trial (R325): a suspended trial is no trial mode (R362). -/
def Thread.trialWord (th : Thread) : Nat :=
  match th.trial with
  | some r => if r.susp then 0 else 2 ^ 32 + r.fuel % 2 ^ 32
  | none => 0

/-- sr.job (R355). -/
def State.jobWord (s : State) (t : Nat) : Nat :=
  let c := s.card (s.workOf t).card
  field c.quay 58 6 + field c.homeDie 56 2 + field (if c.isLaunch then 1 else 0) 48 1 + field c.deadline 0 48

/-- sr.budget (R355): what is left in the lane cycle in which the thread's lane runs it (R288). -/
def State.budgetWord (s : State) (t : Nat) : Nat :=
  let w := (s.thread t).id.work
  let late := s.merNow t - (s.die (s.thread t).id.die).mer
  let b := (s.card (s.work w).card).budget
  (if (s.work w).bud.trapped then 2 ^ 32 else 0) + if b = 0 then 0xFFFFFFFF else b - (s.budgetTicks w + late)

/-- The counter registers 0x180-0x1BF (R379). -/
def State.counterWord (s : State) (t n : Nat) : Word64 :=
  let th := s.thread t
  let o := (s.core th.gcore).obs
  let b := o.banks.getD (s.ctxOf t) CtxBank.zero
  let org := (s.die th.id.die).org
  let at_ {k : Nat} (v : Vector Word64 k) (i : Nat) : Word64 := v.toList.getD i 0
  if n < 0x190 then (if org then at_ b.leaves (n - 0x180) else at_ o.leaves (n - 0x180))
  else if n = 0x190 then o.slots
  else if n = 0x191 then (if org then 1 else 0)
  else if org then (if 0x1A8 ≤ n ∧ n ≤ 0x1AB then at_ b.events (n - 0x1A8) else 0)
  else if n < 0x1A8 then at_ o.ctl (n - 0x1A0)
  else if n < 0x1B0 then at_ o.cnt (n - 0x1A8)
  else if n < 0x1B8 then at_ o.edge (n - 0x1B0)
  else at_ o.bins (n - 0x1B8)

/-- sr.rpl (R387). -/
def State.replayWord (s : State) (t : Nat) : Nat :=
  match (s.workOf t).rpl with
  | some r => field r.ivl 32 32 + field r.cnt 0 21
  | none => 0

/-- The 64 bits of a special register (R208). -/
def State.sreg (s : State) (t n : Nat) : Word64 :=
  let th := s.thread t
  let d := s.die th.id.die
  let w (x : Nat) : Word64 := BitVec.ofNat 64 x
  match n with
  | 0x000 => if th.sck then 1 else 0
  | 0x001 => w (field th.regs.live 8 6 + field (s.groupOf t).n 0 6)
  | 0x010 => th.dec.op
  | 0x011 => th.dec.a
  | 0x012 => th.dec.b
  | 0x013 => th.dec.c
  | 0x014 => th.dec.word
  | 0x020 => w s.dev.capWord
  | 0x021 => s.dev.cores.getD 0 0
  | 0x022 => s.dev.cores.getD 1 0
  | 0x023 => s.dev.cores.getD 2 0
  | 0x024 => s.dev.cores.getD 3 0
  | 0x025 => s.dev.fab.setWidth 64
  | 0x030 => w (rootWord (s.ctx (s.ctxOf t)).root)
  | 0x040 => w ((th.view.map (·.stamp)).getD 0)
  | 0x041 => w ((s.launchSnap t).getD 0)
  | 0x042 => th.txwhy
  | 0x043 => th.txstamp
  | 0x044 => w d.lw
  | 0x045 => w d.verWord
  | 0x050 => w (s.core th.gcore).bankWord
  | 0x051 => w ((s.core th.gcore).ownWord th.id.work)
  | 0x060 => th.xcrc
  | 0x070 => (((s.work th.id.work).sat.getD th.gcore 0)).setWidth 64
  | 0x080 => s.ncycNow t
  | 0x090 => (s.ctx (s.ctxOf t)).trapVec
  | 0x091 => th.trap.epc
  | 0x092 => th.trap.cause
  | 0x093 => th.trap.val
  | 0x100 => th.h0
  | 0x101 => th.h1
  | 0x102 => (s.ctx (s.ctxOf t)).sigset
  | 0x103 => w th.trialWord
  | 0x140 => w (s.jobWord t)
  | 0x141 => w (s.budgetWord t)
  | 0x1C0 => w (s.replayWord t)
  | n => s.counterWord t n

/-- getsr (R210). -/
def getsrBody (d : Dst) (i : BitVec 10) (t : Nat) : M (Cost × Bool) := plain do
  let v := (← get).sreg t i.toNat
  writeVals t d [(v, .i64)] 2

/-- getsr (R210). -/
def execGetsr (st : Stall) (d : Dst) (i : BitVec 10) (s : State) : Out :=
  .next (runWord (shT st []) (getsrBody d i) s)

/-! ### Writing special registers (R210) -/

/-- Writes one of eight registers. -/
def put8 (v : Vector Word64 8) (i : Nat) (x : Word64) : Vector Word64 8 := Vector.ofFn fun j => if j.val = i then x else v[j]

/-- Writes a counter register in organisation 0 (R379, R381, R382). -/
def Obs.write (o : Obs) (n : Nat) (x : Word64) : Obs :=
  if n < 0x1A8 then o.setCtl (n - 0x1A0) x
  else if n < 0x1B0 then { o with cnt := put8 o.cnt (n - 0x1A8) x }
  else if n < 0x1B8 then { o with edge := put8 o.edge (n - 0x1B0) x }
  else { o with bins := put8 o.bins (n - 0x1B8) x }

/-- Bits of sr.trap.vec that may be written: addr and en (R360). -/
def vecMask : Word64 := 0x000FFFFFFFFFFFFD
/-- Bits of sr.trap.epc that may be written: addr and mode (R360). -/
def epcMask : Word64 := 0x000FFFFFFFFFFFFF

/-- Bits of sr.mx.sat that the array has set on a core in the present lane cycle (R250). -/
def State.satLate (s : State) (w gc : Nat) : BitVec 16 :=
  let at_ := (s.work w).satNow.getD gc (0, 0)
  if at_.1 = (s.die (gc / 64)).lc then at_.2 else 0

/-- Writes the RW fields of a special register (R210). -/
def State.setSreg (s : State) (t n : Nat) (x : Word64) : State :=
  let th := s.thread t
  match n with
  | 0x000 => s.modThread t fun th => { th with sckNext := some (x.getLsbD 0) }
  | 0x070 => s.modWork th.id.work fun w =>
      { w with sat := w.sat.put th.gcore (x.setWidth 16 ||| s.satLate th.id.work th.gcore) }
  | 0x090 => s.modCtx (s.ctxOf t) fun c => { c with trapVec := x &&& vecMask }
  | 0x091 => s.modThread t fun th =>
      { th with trap := { th.trap with epc := (th.trap.epc &&& ~~~epcMask) ||| (x &&& epcMask) } }
  | 0x100 => s.modThread t fun th => { th with h0 := x }
  | 0x101 => s.modThread t fun th => { th with h1 := x }
  | 0x102 => s.modCtx (s.ctxOf t) fun c => { c with sigset := x &&& 0x1FF }
  | n => if (s.die th.id.die).org then s
         else s.modCore th.gcore fun c => { c with obs := c.obs.write n x }

/-- setsr (R210): a counter register needs the observation grant (R379). -/
def setsrBody (a : Src) (i : BitVec 10) (t : Nat) : M (Cost × Bool) := plain do
  let s ← get
  if i.toNat ≥ 0x180 && !(s.ctx (s.ctxOf t)).observe then fault 0x08
  let x ← readBits t a
  modify fun s => s.setSreg t i.toNat x

/-- setsr (R210). -/
def execSetsr (st : Stall) (a : Src) (i : BitVec 10) (s : State) : Out :=
  .next (runWord (shT st [a]).ban (setsrBody a i) s)

/-! ### trap, rft and halt (R372-R374) -/

/-- trap (R372). -/
def trapBody (a : Src) (n : Fin 16) (t : Nat) : M (Cost × Bool) := do
  let v ← readBits t a
  throw (.trap (BitVec.ofNat 8 (0x10 + n.val)) v)

/-- trap (R372). -/
def execTrap (st : Stall) (a : Src) (n : Fin 16) (s : State) : Out :=
  .next (runWord (shT st [a]).ban (trapBody a n) s)

/-- Whether the thread is in its handler: act of sr.trap.cause (R360). -/
def Thread.inHandler (th : Thread) : Bool := th.trap.cause.toNat / 256 % 2 == 1

/-- Stands within a clause that is still to be fetched whole (R82, R361). -/
def Pos.within (pc win : Nat) (g : Bool) : Pos := ⟨pc, win, 0, [], false, g⟩

/-- Where rft goes on (R361, R362): in the clause at epc's address, at a header, or in the candidate whose cause it was. -/
def Thread.resume (th : Thread) : Thread :=
  let e := th.trap.epc.toNat
  let mode := e % 4
  let addr := e / 4 % 2 ^ 50 * 4
  let win := e / 2 ^ 59 % 16
  let g := th.trap.epc.getLsbD 63
  match th.trial.filter (fun r => r.susp && th.trap.cand && mode == 0) with
  | some r => { th with trial := some { r with susp := false }, pos := Pos.atHeader r.pc }
  | none =>
    if mode = 2 ∨ win = 0 then th.goTo addr
    else if mode = 0 then { th with pos := Pos.within addr win g }
    else { th with pos := Pos.within addr (win + 1 + e / 2 ^ 55 % 16) g }

/-- rft (R373); the shadow that it restores is checked (R365). -/
def rftBody (d : Dst) (a : Src) (t : Nat) : M (Cost × Bool) := do
  let th ← getT t
  let e := th.trap.epc.toNat
  srcRules t false [a]
  if !th.inHandler then fault 0x6B
  if e % 4 = 3 ∨ (e / 2 ^ 59 % 16 = 0 ∧ e % 4 = 1) then fault 0x6B
  let v ← readSrc t .single true a
  let (s, ok) := (← get).mendShadow t
  set s
  if !ok then fault 0x42
  modT t fun th => th.modRegs fun r => ⟨th.trap.shq, r.k, th.trap.shp⟩
  writeVals t d [(v.val, v.kind)] 0
  modT t fun th => { th with trap := { th.trap with cause := th.trap.cause &&& 0xFF } }
  modT t Thread.resume
  return (⟨1, 6⟩, true)

/-- rft (R373). -/
def execRft (c : RCtl) (d : Dst) (a : Src) (s : State) : Out := .next (runWord (shR c [a]).ban (rftBody d a) s)

/-- halt (R374). -/
def haltBody (a : Src) (t : Nat) : M (Cost × Bool) := do
  waitStores t
  let v ← readBits t a
  throw (.trap 0xA2 v)

/-- halt (R374). -/
def execHalt (c : RCtl) (a : Src) (s : State) : Out := .next (runWord (shR c [a]).ban (haltBody a) s)

/-! ### ctx.save, ctx.load and time (R375, R376) -/

/-- Shell of ctx.save and ctx.load. -/
def shC (tb : Rec) (x : Src) : Shell := (shM tb [x]).ban

/-- The registers of a saved image: a named destination holds 1, or the image's queue has it pushed (R375). -/
def Regs.saved (r : Regs) (d : Dst) : Regs :=
  match d with
  | .none => r
  | .q => { r with q := pushQ r.q (Entry.mk' 1 .i32 0) }
  | .k i => { r with k := setK r.k i.val (Entry.mk' 1 .i32 0) }

/-- The 512 bytes of a thread's image (R236, R375); no predicate of it is set to U. -/
def contextImage (th : Thread) (g : Group) (team : Nat) (r : Regs) : List Byte :=
  ((spawnRecord th g team r 0).map fun w => leBytes 8 w.toNat).flatten

/-- The logical offset of an image (R375). -/
def imageOff (_ : RecF) (i : Nat) : Nat := i * 512

/-- ctx.save (R375). -/
def ctxSaveBody (h : Hint) (d : Dst) (tb : Rec) (x : Src) (t : Nat) : M (Cost × Bool) := plain do
  let th ← getT t
  if th.cnt.ld ≠ 0 then wait 0x3 (.counts true false)
  let s ← get
  match th.regs.coming (s.lcOf t) with
  | some h => wait h.leaf h.on
  | none => pure ()
  let ix ← readSrc t .raw false x
  let p ← placeAccess t tb ix imageOff 512 16 linearRec wrRights anyHome (pure ())
  let s ← get
  let bs := contextImage (s.thread t) (s.groupOf t) (s.workOf t).team ((s.thread t).regs.saved d)
  let tx ← txStamp t p.r.view
  issueWrite t tb p bs (fun b => .store b (8 * b.length)) h tx
  writeVals t d [(0, .i32)] 0

/-- ctx.save (R375). -/
def execCtxSave (h : Hint) (d : Dst) (tb : Rec) (x : Src) (s : State) : Out :=
  .next (runWord (shC tb x) (ctxSaveBody h d tb x) s)

/-- The thread as an image gives it (R375). -/
def Thread.fromImage (th : Thread) (n : Nat) (ws : List Word64) : Thread :=
  let ctl := (ws.getD 1 0).toNat
  let preds : Vector PCell 8 := Vector.ofFn fun i =>
    PCell.of (if i.val = 0 then .F else Tri.ofCode (ctl / 2 ^ (43 + 2 * (i.val - 1)) % 4))
  { th.goTo (ws.getD 0 0).toNat with
    regs := (imageRegs ((ws.drop 3).take 54) preds).cutTo n, sck := ctl / 2 ^ 57 % 2 == 1, sckNext := none }

/-- ctx.load (R375): it holds until its image has been read, so that its causes are precise. -/
def ctxLoadBody (h : Hint) (tb : Rec) (x : Src) (t : Nat) : M (Cost × Bool) := do
  let vs ← awaitOp t do
    let ix ← readSrc t .raw false x
    let p ← placeAccess t tb ix imageOff 512 16 linearRec rdRights anyHome (pure ())
    let a ← placeXlat t p .read (← byL1 t)
    raiseLd t
    launchOp fun i s => mkOp s t tb.val a .ctxLoad h i true
  let n := ((← get).groupOf t).n
  modify fun s => (s.lowerLd t).modThread t fun th => th.fromImage n (vs.map (·.1))
  return (oneBeat, true)

/-- ctx.load (R375). -/
def execCtxLoad (h : Hint) (tb : Rec) (x : Src) (s : State) : Out :=
  .next (runWord (shC tb x) (ctxLoadBody h tb x) s)

/-- time (R376). -/
def timeBody (d : Dst) (cyc : Bool) (t : Nat) : M (Cost × Bool) := plain do
  let s ← get
  let v ← logged t (if cyc then s.cycNow t else BitVec.ofNat 64 (s.merNow t))
  writeVals t d [(v, .i64)] 2

/-- time (R376). -/
def execTime (c : RCtl) (d : Dst) (cyc : Bool) (s : State) : Out :=
  .next (runWord (shR c []).ban (timeBody d cyc) s)

end Sys2Proof.Machine
end

