-- ==== Sys2Proof/Machine/Returns.lean ====
section
/-! DEFINITION. The events of memory: accesses performing and their results and acknowledgements (R21, R120, R153, R264),
the side log's replay (R87, R88), replicas and copies (R83-R85, R119), bank switches and FIFO waits (R132, R160), host and
wharf accesses (R147, R389). -/

namespace Sys2Proof.Machine

/-! ### Results (R21, R40, R153) -/

/-- Writes a returned result to its destination and lowers the load count; a word that holds for its result takes it
itself, and what the host reads leaves the port (R21, R153, R389). -/
def State.landOp (s : State) (i : Nat) : State :=
  match s.ops.find i with
  | none => s
  | some o =>
    if !o.performed || o.blocking then s
    else
      let s := { s with ops := s.ops.drop i }
      if o.tid = 0 then
        if o.tb = 0 then s.modDev fun d => { d with hostReads := d.hostReads ++ [o.out.map fun v => v.1.setWidth 8] } else s
      else
        let preds := match o.act with
          | .qpop _ (some b) => [if b then Tri.T else Tri.F]
          | _ => []
        (s.modThread o.tid fun th => th.land i o.out preds).lowerLd o.tid

/-- An operation may perform now: the order of its thread, the side logs, the other threads' checks and the clocks of its die
allow it (R87, R144, R264, R395). -/
def State.clearToGo (s : State) (i : Nat) (o : MemOp) : Bool :=
  !o.performed && s.clocked o.die && o.revs.isEmpty && !s.blockedBy i o && !s.sideBlocked i o && !s.inSide i && !s.matesCheck o

/-- Lines of main memory, by their virtual numbers, that an operation's parts lie on. -/
def MemOp.vlines (o : MemOp) : List Nat := o.pieces.map fun p => p.va / 256

/-- A load of main memory that is one of the threads' parts of the same word as `o` (R145). -/
def MemOp.loadWith (o x : MemOp) : Bool :=
  o.tid != 0 && x.key == o.key && x.home == .main && o.home == .main && x.loads && o.loads && !x.performed

/-- The loads of a word that requests join: `ls` are lines requested already, to which each round adds the lines of every load that
shares one of them. -/
def joined (xs : List (Nat × MemOp)) : Nat → List Nat → List Nat
  | 0, ls => ls
  | n + 1, ls => joined xs n (ls ++ (xs.filter fun kv => kv.2.vlines.any ls.contains).flatMap fun kv => kv.2.vlines)

/-- The operations that are served with operation `i`: each line of the word is requested once, so that the loads of its threads that
share lines have them from one request (R145). -/
def State.servedWith (s : State) (i : Nat) (o : MemOp) : List Nat :=
  match s.ops.filter fun kv => o.loadWith kv.2 with
  | [] => [i]
  | xs => let ls := joined xs xs.length o.vlines
          (xs.filter fun kv => kv.1 == i || kv.2.vlines.any ls.contains).map (·.1)

/-- An operation that may go performs. -/
def State.tryOne (s : State) (i : Nat) : State :=
  match s.ops.find i with
  | none => s
  | some o => if s.clearToGo i o then s.afterTry i o (s.perform o) else s

/-- LOAD_DATA_RETURN: an access that returns data performs, and its result is written (R153). The loads of its word that share a line
with it perform with it (R145). -/
def State.loadReturn (s : State) (i : Nat) : State :=
  match s.ops.find i with
  | none => s
  | some o =>
    if !o.returns then s
    else if o.performed then s.ifClocked o.die fun s => s.landOp i
    else if !s.clearToGo i o then s
    else ((s.servedWith i o).foldl State.tryOne s).landOp i

/-- LOAD_DATA_RETURN (R153). -/
def execLoadDataReturn (op : Nat) (s : State) : Out := .next (s.loadReturn op)

/-! ### Acknowledgements (R21, R120) -/

/-- STORE_ACKNOWLEDGE: a write performs and is acknowledged (R21, R120). -/
def State.storeAck (s : State) (i : Nat) : State :=
  match s.ops.find i with
  | none => s
  | some o =>
    if o.returns then s
    else if o.performed then s.ifClocked o.die fun s => s.ackOp i
    else if !s.clearToGo i o then s
    else (s.afterTry i o (s.perform o)).ackOp i

/-- STORE_ACKNOWLEDGE (R21). -/
def execStoreAcknowledge (op : Nat) (s : State) : Out := .next (s.storeAck op)

/-- WORD_REVOCATION: the core clears the word's mask bits and acknowledges (R120, R122). -/
def State.revoked (s : State) (gc word : Nat) : State :=
  if s.ops.any fun kv => kv.2.revs.contains (gc, word) then
    let s := s.answerRevoke gc word
    { s with ops := s.ops.mapVals fun o => { o with revs := o.revs.filter (fun r => decide (r ≠ (gc, word))) } }
  else s

/-- WORD_REVOCATION (R120). -/
def execWordRevocation (core word : Nat) (s : State) : Out := .next (s.ifClocked (core / 64) fun s => s.revoked core word)

/-- ITERATIVE_RESULT: results of iterative lane operations and of collectives that are due are delivered (R215, R309). -/
def State.iterDone (s : State) (t : Nat) : State :=
  let lc := s.lcOf t
  ((s.thread t).iter.filter fun o => decide (o.due ≤ lc)).foldl (fun s o =>
    s.modThread t fun th =>
      let left := th.iter.filter fun x => x.tok != o.tok
      let th := th.land o.tok o.vals o.preds
      { th with iter := left,
                hold := if th.hold = some ⟨0xA, .event⟩ ∧ !(left.any (·.solo)) then none else th.hold }) s

/-- ITERATIVE_RESULT (R215). -/
def execIterativeResult (t : Nat) (s : State) : Out := .next (s.iterDone t)

/-! ### The side log's replay (R86-R89) -/

/-- A write of the side log with its translation (R87). -/
def MemOp.translated (o : MemOp) (x : Xlat) : MemOp :=
  { o with pieces := o.pieces.map fun p =>
      let a := x.pa / 256 * 256 + p.va % 256
      { p with pa := a, src := a, ver := x.ver } }

/-- A write of the side log does not perform: its line is lost with a cause (R88). -/
def State.loseSide (s : State) (i line : Nat) (c : Cause) : State :=
  match s.ops.find i with
  | some o => (s.loseLine o (line * 256) c).dropOp i o
  | none => s

/-- The head entry is discarded: each of its writes is lost with cause 0x28. An entry that several threads issued posts one
record for each thread's part of it (R88; DESIGN CHOICE, log entry 93). -/
def State.loseHead (s : State) (gc : Nat) : State :=
  match (s.core gc).side with
  | [] => s
  | e :: rest => e.ops.foldl (fun s i => s.loseSide i e.line 0x28) (s.modCore gc fun c => { c with side := rest })

/-- Performs one write of the head entry as its word would have (R87): a transactional store to a page with ver 0 is lost with
cause 0x94 (R103; DESIGN CHOICE, log entry 93). -/
def State.replayOp (s : State) (x : Xlat) (line i : Nat) : State :=
  match s.ops.find i with
  | none => s
  | some o =>
    if o.performed then s
    else if o.transactional && !x.ver then s.loseSide i line 0x94
    else
      let o := o.translated x
      let s := { s with ops := s.ops.put i o }
      if !o.revs.isEmpty || s.blockedBy i o || s.matesCheck o then s else s.afterTry i o (s.perform o)

/-- Performs the head entry's writes in order, as far as they go; an entry whose writes have all performed or gone
leaves the log (R87). -/
def State.replayHead (s : State) (gc : Nat) (e : SideEntry) (x : Xlat) : State :=
  let s := e.ops.foldl (fun s i => s.replayOp x e.line i) s
  let left := e.ops.any fun i => match s.ops.find i with
    | some o => !o.performed
    | none => false
  if left then s
  else e.ops.foldl (fun s i => s.ackOp i) (s.modCore gc fun c => { c with side := c.side.drop 1 })

/-- Looks an address up for a core; a leaf that only the die holds is cached at the core (R78). -/
def State.lookFill (s : State) (gc ctx va : Nat) (k : Xkind) : Look × State :=
  match lookIn (s.core gc).tlb ctx va k with
  | .miss => match s.look (gc / 64) ctx va k with
    | .ok x => (.ok x, s.fillTlb gc ctx va)
    | r => (r, s)
  | _ => (s.lookCore gc ctx va k, s)

/-- SIDE_LOG_REPLAY (R87, R88). -/
def State.sideReplay (s : State) (die core : Nat) : State :=
  let gc := die * 64 + core
  match (s.core gc).side with
  | [] => s
  | e :: _ =>
    match s.lookFill gc e.ctx (e.line * 256) .write with
    | (.ok x, s) => s.replayHead gc e x
    | (.bad _, s) => s.loseHead gc
    | (.miss, s) =>
      if s.missRoom gc e.ctx (e.line / 256) then s.attachWalk die e.ctx (e.line * 256) .write (.side core) else s

/-- SIDE_LOG_REPLAY (R87). -/
def execSideLogReplay (die core : Nat) (s : State) : Out := .next (s.ifClocked die fun s => s.sideReplay die core)

/-! ### Replicas and copies (R83-R85, R119) -/

/-- Copies `n` bytes within the memory. -/
def Memory.copyRange (m : Memory) (src dst n : Nat) : Memory :=
  let cells := (m.filter fun c => decide (src ≤ c.1) && decide (c.1 < src + n)).map fun c => (dst + (c.1 - src), c.2)
  cells.foldl (fun m c => m.write c.1 c.2) (m.filter fun c => !(decide (dst ≤ c.1) && decide (c.1 < dst + n)))

/-- Poison goes with the lines of a page that is copied (R84, R130). -/
def copyPoison (ps : List Nat) (src dst : Nat) : List Nat :=
  (ps.filter fun l => l / 256 != dst) ++ (ps.filter fun l => l / 256 == src).map fun l => dst * 256 + l % 256

/-- REPLICA_COPY_COMPLETE: the page lies in its frame; a copy of a collapsing page is discarded (R83, R85). -/
def State.copied (s : State) (die page : Nat) : State :=
  let x := s.die die
  match x.replicas.find? fun r => r.page == page && !r.complete, x.pool with
  | some r, some (base, _) =>
    if s.homes.collapsing.contains page then
      s.modDie die fun d => { d with replicas := d.replicas.filter fun q => q.page != page }
    else
      let at_ := tierBase false die + base + r.frame * 65536
      if !s.lineAwake (page * 256) || !s.lineAwake (at_ / 256) then s else
      let s := s.modHomes fun h =>
        { h with mem := h.mem.copyRange (page * 65536) at_ 65536, poison := copyPoison h.poison page (at_ / 65536) }
      s.modDie die fun d => { d with replicas := d.replicas.map fun q => if q.page = page then { q with complete := true } else q }
  | _, _ => s

/-- REPLICA_COPY_COMPLETE (R83). -/
def execReplicaCopyComplete (die page : Nat) (s : State) : Out := .next (s.copied die page)

/-- A write to the page may still be waiting for its collapse (R85). -/
def State.collapseWanted (s : State) (page : Nat) : Bool :=
  (s.ops.any fun kv => !kv.2.performed && !kv.2.loads && kv.2.pieces.any fun p => p.pa / 65536 == page) ||
    (s.threads.any fun kv => kv.2.trial.any fun r => r.ending.isSome) ||
    (s.works.any fun kv => (s.liveOf kv.1).isEmpty && (s.card kv.2.card).sigen) ||
    (s.commits.any fun kv => kv.2.stamp.any fun c => (s.homes.ownLines kv.2.owner c).any fun l => l / 256 == page) ||
    s.cores.any fun kv => kv.2.engines.toList.any fun e => e.ops.any fun o => o.2.active

/-- A page that no write waits for any more, after its last replica has gone, is collapsing no longer (R85). -/
def State.endCollapse (s : State) (page : Nat) : State :=
  if (s.replicaDies page).isEmpty && !s.collapseWanted page then s.modHomes fun h => h.uncollapse page else s

/-- Reads in flight that have been translated to a die's replica of a page (R85). -/
def State.replicaReads (s : State) (die page : Nat) : Bool :=
  match (s.die die).replicas.find? (fun r => r.page == page), (s.die die).pool with
  | some r, some (base, _) =>
    let f := (tierBase false die + base) / 65536 + r.frame
    s.ops.any fun kv => !kv.2.performed && kv.2.home == .main && kv.2.pieces.any fun p => p.src != p.pa && p.src / 65536 == f
  | _, _ => false

/-- REPLICA_DROP_ACK: a die drops its complete replica of a collapsing page once its reads already translated to it have
completed (R85). No translation goes to a replica of a collapsing page (`State.spot`). -/
def State.dropReplica (s : State) (die page : Nat) : State :=
  if !s.homes.collapsing.contains page then s
  else if (s.die die).replicas.any fun r => r.page == page && r.complete then
    if s.replicaReads die page then s
    else s.modDie die fun d => { d with replicas := d.replicas.filter fun q => q.page != page }
  else s.endCollapse page

/-- REPLICA_DROP_ACK (R85). -/
def execReplicaDropAck (die page : Nat) (s : State) : Out := .next (s.ifClocked die fun s => s.dropReplica die page)

/-- COPY_INVALIDATE_ACK: a die has invalidated its copy of a line (R119). -/
def State.copyGone (s : State) (die line : Nat) : State :=
  if s.homes.purging.contains line && (s.homes.copies.getD line []).contains die then (s.l2Drop die line).copyOff die line else s

/-- COPY_INVALIDATE_ACK (R119). -/
def execCopyInvalidateAck (die line : Nat) (s : State) : Out := .next (s.ifClocked die fun s => s.copyGone die line)

/-! ### Banks (R132, R160, R161) -/

/-- The instruction at a thread's place in its clause. -/
def State.instrAt (s : State) (t : Nat) : Option (Instr × Nat) :=
  let th := s.thread t
  match Cls.ofCode (bits th.pos.hdr 25 3) with
  | none => none
  | some c =>
    match decode c (s.groupOf t).n (th.pos.win == 1) th.pos.word (th.pos.words.drop th.pos.win) with
    | .ok i e => some (i, e)
    | .trap _ => none

/-- The thread's qpush or qpop on the bank could perform now, for the active threads of its own bundle (R136, R160). -/
def State.fifoReady (s : State) (t bank : Nat) : Bool :=
  let th := s.thread t
  let us := (((s.bundles.find th.bundle).map (·.tids)).getD []).filter fun u =>
    (s.thread u).pos.g && !(s.thread u).done && !(s.thread u).part
  let b := s.bank th.gcore bank
  match s.instrAt t with
  | some (.qpush w _ _ fq, _) => fq.val == bank && decide (us.length * Width.count w ≤ fifoSize - b.items.length)
  | some (.qpop w _ _ fq, _) => fq.val == bank && decide (us.length * Width.count w ≤ b.items.length)
  | _ => false

/-- Threads of a core that wait at a word of one of its banks. -/
def State.fifoWaiters (s : State) (gc bank : Nat) : List Nat :=
  (s.threads.filter fun kv => kv.2.gcore == gc && decide (kv.2.hold = some ⟨0xB, .event⟩) && s.fifoReady kv.1 bank).map (·.1)

/-- FIFO_WAIT_RESUME: the word that waits for room or entries goes on (R160). -/
def State.fifoResume (s : State) (gc bank : Nat) : State :=
  (s.fifoWaiters gc bank).foldl (fun s t => s.modThread t fun th => { th with hold := none }) s

/-- FIFO_WAIT_RESUME (R160). -/
def execFifoWaitResume (die core bank : Nat) (s : State) : Out := .next (s.fifoResume (die * 64 + core) bank)

/-- Accesses of a team to its scratchpad or FIFO banks on a core that have not performed (R132). -/
def State.bankBusy (s : State) (gc w : Nat) : Bool :=
  (s.ops.any fun kv => !kv.2.performed && kv.2.home == .scratch && kv.2.who.work == w && kv.2.die * 64 + kv.2.core == gc) ||
    (List.range 4).any fun e => (s.engOps gc e).any fun o => o.2.work == w && o.2.touches s.dev.fab .scratch

/-- BANK_MODE_SWITCH_COMPLETE: the bank has its new mode, cleared or emptied, and the bundle goes on (R132, R161). -/
def State.bankSwitched (s : State) (gc bank : Nat) : State :=
  match (s.core gc).switches.find? fun x => x.bank == bank with
  | none => s
  | some x =>
    if (s.die (gc / 64)).lc < x.due || s.bankBusy gc x.work then s
    else
      let s := s.takeBank gc x.work x.mode bank
      let s := if x.mode = .cache then s.modBank gc bank fun _ => Bank.reset .cache else s
      let s := s.modCore gc fun c => { c with switches := c.switches.filter fun y => y.bank != bank }
      (s.threads.filter fun kv => kv.2.bundle == x.key.1 && decide (kv.2.hold = some ⟨0xB, .event⟩)).foldl (fun s kv =>
        s.modThread kv.1 fun th => { th with hold := none, part := true }) s

/-- BANK_MODE_SWITCH_COMPLETE (R132). -/
def execBankModeSwitchComplete (die core bank : Nat) (s : State) : Out := .next (s.bankSwitched (die * 64 + core) bank)

/-! ### Host memory and the host's own accesses (R147, R148, R389) -/

/-- The place of an operation of the engines that reaches the host, by its number. -/
def State.engAtHost (s : State) (i : Nat) : Option EngAt :=
  s.cores.findSome? fun kv => ((List.range 4).find? fun e =>
    ((s.engOps kv.1 e).any fun o => o.1 == i && o.2.active && o.2.touches s.dev.fab .host)).map fun e => ⟨kv.1, e, i⟩

/-- HOST_COMPLETION_TIMEOUT: a request to the host times out (R147); an engine's operation fails with it (R186). -/
def State.hostTimeout (s : State) (i : Nat) : State :=
  match s.ops.find i with
  | none => match s.engAtHost i with
    | some p => s.engClose p 2 0x2E
    | none => s
  | some o =>
    if o.home ≠ .host || o.performed then s
    else
      let at0 := ((o.pieces.head?).map (·.va)).getD 0
      if o.loads || o.blocking then s.trapOp i o 0x2E at0
      else if o.returns then s.loseAtom i o (at0 / 256 * 256) 0x2E
      else (s.loseLine o (at0 / 256 * 256) 0x2E).dropOp i o

/-- HOST_COMPLETION_TIMEOUT (R147). -/
def execHostCompletionTimeout (op : Nat) (s : State) : Out := .next (s.hostTimeout op)

/-- An access of no thread of this device (R389, R147), a part of it on each line. Whether a line is versioned is asked when the access
performs (`State.atHeads`). `tb` is 0 for the host, 256 for another device. -/
def outsideOp (tb pa n : Nat) (act : Act) (v : ReadAs) : MemOp :=
  ⟨0, ⟨0, 0, 0, lineDie (pa / 256), 0, 0, 0⟩, 0, tb, lineDie (pa / 256), 0, act, .main, linePieces (fun _ => false) pa n, v, .normal, 0,
    false, [], none, false, (0, 0), false, [], []⟩

/-- Puts an outside access in flight and lets it perform where it can. -/
def State.launchOutside (s : State) (o : MemOp) : State :=
  let i := s.sched.nextId
  let s := s.modSched fun c => { c with nextId := i + 1 }
  let s := { s with ops := s.ops.put i o }
  if o.returns then s.loadReturn i else s.storeAck i

/-- The host's write without its parts that are no memory's (R389). -/
def State.memParts (s : State) (o : MemOp) : MemOp := { o with pieces := o.pieces.filter fun p => s.isMem p.pa }

/-- A host write through BAR 2: bytes that are no memory's are dropped (R389). -/
def State.hostWrite (s : State) (pa : Nat) (bs : List Byte) : State :=
  let o := s.memParts (outsideOp 0 pa bs.length (.store bs (8 * bs.length)) .latest)
  if !s.dev.fwOk || bs.isEmpty || o.pieces.isEmpty then s else s.launchOutside o

/-- A host read through BAR 2: what is no memory reads as all ones (R389). -/
def State.hostRead (s : State) (pa n : Nat) : State :=
  if !s.dev.fwOk then s
  else if !((linePieces (fun _ => false) pa n).any fun p => s.isMem p.pa) then s.modDev fun d => { d with hostReads := d.hostReads ++ [List.replicate n 0xFF] }
  else s.launchOutside (outsideOp 0 pa n (.load 1 n false .i32 true) .latest)

/-- A host write through BAR 0: an entry of 32 bytes put into the function's command ring. One with an op that R391 does not list
completes with status 2. The others are taken as the events of their commands, which bring the operands, since R391 gives no layout for
those (DESIGN CHOICE, log entry 120). -/
def State.entryWrite (s : State) (fn : Fin 16) (bs : List Byte) : State :=
  let op := leVal (bs.take 1)
  if bs.length ≠ 32 ∨ 1 ≤ op ∧ op ≤ 0x0E then s
  else s.finish ⟨fn, BitVec.ofNat 32 (leVal ((bs.drop 4).take 4))⟩ 2

/-- The errors of one kind that SECDED has corrected by now: no event brings them, and nothing else shows them, so their number since the
count was last read is free. The count of the corrected errors of counter k is counter k + 0x8000 (R130, R365, R399; DESIGN CHOICE, log
entry 122). -/
def State.countCorrected (s : State) (k : Nat) : State :=
  if k < 0x8000 then s
  else (s.modSched fun c => { c with draw := c.draw + 1 }).almanac k (Config.corrected s.sched.draw)

/-- The almanac's counters in a run of its bytes. -/
def countersOf (off n : Nat) : List Nat := (List.range ((off + n + 7) / 8 - off / 8)).map (off / 8 + ·)

/-- A host read through BAR 0 gives the almanac, counter k in the eight bytes from 8k on (R399; DESIGN CHOICE, log entry 120). -/
def State.almanacRead (s : State) (off n : Nat) : State :=
  let s := (countersOf off n).foldl State.countCorrected s
  let byte (a : Nat) : Byte := BitVec.ofNat 8 (s.dev.almanac.getD (a / 8) 0 / 2 ^ (8 * (a % 8)))
  s.modDev fun d => { d with hostReads := d.hostReads ++ [(List.range n).map fun i => byte (off + i)] }

/-- HOST_MEMORY_WRITE (R389, R391). -/
def execHostMemoryWrite (pa : HostAt) (data : List (BitVec 8)) (s : State) : Out :=
  .next (match pa with
    | .control fn _ => s.entryWrite fn data
    | .memory a => s.hostWrite a data)
/-- HOST_MEMORY_READ (R389, R399). -/
def execHostMemoryRead (pa : HostAt) (len : Nat) (s : State) : Out :=
  .next (match pa with
    | .control _ off => s.almanacRead off len
    | .memory a => s.hostRead a len)

/-- A read of another device under a snapshot registers it at the first, by its name there and its stamp; one that lies below this
package's low-water stamp is refused there (R105). -/
def State.farRegister (s : State) (die name st : Nat) : Option State :=
  if s.dev.farSnaps.contains (name, st) then some s
  else if st < (s.die die).lw then none
  else some (s.modDev fun d => { d with farSnaps := (name, st) :: d.farSnaps })

/-- REMOTE_ACCESS_ARRIVAL: another device's access performs at the home slice here (R147). With `closes` it says that its
snapshot has closed, which is counted no longer (R105; DESIGN CHOICE, log entry 13). -/
def State.remoteArrival (s : State) (a : RemoteArg) : State :=
  if !s.dev.wharfUp || !s.isMem a.pa then s
  else if a.write then
    if a.data.isEmpty then s
    else s.launchOutside (s.memParts (outsideOp 256 a.pa a.data.length (.store a.data (8 * a.data.length)) .latest))
  else if a.closes then s.modDev fun d => { d with farSnaps := d.farSnaps.filter fun x => x.1 != a.snap }
  else
    let read (s : State) (v : ReadAs) : State := s.launchOutside (outsideOp 256 a.pa a.len (.load 1 a.len false .i32 true) v)
    match a.stamp with
    | none => read s .latest
    | some x => match s.farRegister (lineDie (a.pa / 256)) a.snap x with
      | some s => read s (.snap x)
      | none => s

/-- REMOTE_ACCESS_ARRIVAL (R147). -/
def execRemoteAccessArrival (a : RemoteArg) (s : State) : Out := .next (s.remoteArrival a)

end Sys2Proof.Machine
end

