-- ==== Sys2Proof/Machine/HostCmds.lean ====
section
/-! DEFINITION. Host commands 0x01 to 0x08 and 0x0E (R391), and the end of a page walk (R79-R81). -/

namespace Sys2Proof.Machine

/-! ### Binding and records (R76, R139, R390, R393) -/

/-- Command 0x01 (R391): the windows are those of the 16 functions, 64 of each (R388, R389). -/
def State.bind (s : State) (ctx : Nat) (b : BindArg) : State × Bool :=
  if b.windows.any fun w => decide (1024 ≤ w.1) || decide (4 ≤ w.2) then (s, false)
  else
    let s := s.modCtx ctx fun c =>
      { c with root := b.root, bound := true, peers := b.peers, observe := b.observe, launchRec := b.launchRecord }
    let nums := b.peers.map fun p => p.1.toNat
    (s.modDev fun d =>
      { d with windows := b.windows.foldl (fun t w => t.put w.1 (ctx, w.2)) d.windows,
               peers := d.peers ++ nums.filter fun p => !d.peers.contains p }, true)

/-- BIND_CONTEXT (R391). -/
def execBindContext (tag : Ticket) (ctx : Nat) (b : BindArg) (s : State) : Out := .next (s.command tag fun s => s.bind ctx b)

/-- WRITE_RECORD, host records included (R139, R165). -/
def execWriteRecord (tag : Ticket) (ctx : Nat) (tb : Fin 256) (r : BitVec 512) (s : State) : Out :=
  .next (s.command tag fun s => (s.modCtx ctx fun c => { c with recs := c.recs.put tb.val r }, true))

/-- Command 0x0E: refused while a context is bound, and for a number no device may have (R393). -/
def State.setFabric (s : State) (num : BitVec 8) : State × Bool :=
  if (s.ctxs.any fun kv => kv.2.bound) || num == 0 || decide (0xFB < num.toNat) then (s, false)
  else (s.modDev fun d => { d with fab := num }, true)

/-- SET_FABRIC_NUMBER (R393). -/
def execSetFabricNumber (tag : Ticket) (num : BitVec 8) (s : State) : Out := .next (s.command tag fun s => s.setFabric num)

/-! ### Translation invalidates (R75) -/

/-- Every translation cache drops its entries for a range of a context, and the L1s their lines of it. -/
def State.dropRange (s : State) (ctx base len : Nat) : State :=
  let hit (lo n : Nat) : Bool := decide (lo < base + len) && decide (base < lo + n)
  let s := (List.range 4).foldl (fun s d => s.modDie d fun x =>
    { x with tlb := x.tlb.filter fun e => !(e.ctx == ctx && hit (e.region * 2 ^ e.shift) (2 ^ e.shift)) }) s
  let trim (c : Core) : Core :=
    { c with tlb := c.tlb.filter fun e => !(e.ctx == ctx && hit (e.region * 2 ^ e.shift) (2 ^ e.shift)),
             l1 := c.l1.filter fun l => !(l.ctx == ctx && hit (l.line * 256) 256) }
  { s with cores := s.cores.mapVals trim }

/-- Accesses already translated in a range that have neither performed nor been side-logged. -/
def State.oldAccesses (s : State) (ctx base len : Nat) : List Nat :=
  (s.ops.filter fun kv => kv.2.ctx == ctx && kv.2.home == .main && !kv.2.performed && !s.inSide kv.1 &&
    kv.2.pieces.any fun p => decide (p.va < base + len) && decide (base < p.va + p.len)).map (·.1)

/-- Command 0x03 begins (R75). -/
def State.invalidate (s : State) (tag : Ticket) (ctx base len : Nat) : State :=
  if !s.dev.fwOk then s.finish tag 1
  else
    let ops := s.oldAccesses ctx base len
    ((s.dropRange ctx base len).begin_ tag).modDev fun d => { d with invs := d.invs ++ [⟨tag, ctx, base, len, ops⟩] }

/-- TRANSLATION_INVALIDATE (R75). -/
def execTranslationInvalidate (tag : Ticket) (ctx base len : Nat) (s : State) : Out := .next (s.invalidate tag ctx base len)

/-- An access that an invalidate waits for is still to perform. -/
def State.stillOld (s : State) (i : Nat) : Bool :=
  match s.ops.find i with
  | some o => !o.performed && !s.inSide i
  | none => false

/-- TRANSLATION_INVALIDATE_COMPLETE: once every old access has performed (R75). -/
def State.invalidated (s : State) (tag : Ticket) : State :=
  match s.dev.invs.find? fun x => x.tag == tag with
  | none => s
  | some x =>
    if x.ops.any s.stillOld then s
    else ((s.dropRange x.ctx x.base x.len).modDev fun d => { d with invs := d.invs.erase x }).settle tag 0

/-- TRANSLATION_INVALIDATE_COMPLETE (R75). -/
def execTranslationInvalidateComplete (tag : Ticket) (s : State) : Out := .next (s.invalidated tag)

/-! ### Page walks and page requests (R79-R82) -/

/-- A thread's held access goes on, or has the cause the walk or the host gave it. -/
def State.wakeThread (s : State) (t region : Nat) (c : Option Cause) : State :=
  s.modThread t fun th =>
    { th with xlat := match c with
                | some c => th.xlat ++ [(region, c)]
                | none => th.xlat,
              hold := match th.hold with
                | some h => if h.on = .event ∧ (h.leaf = 0x2 ∨ h.leaf = 0x7) then none else some h
                | none => none }

/-- A core's translation miss entry completes: its L1 translation cache takes the leaf (R78, R79). -/
def State.missDone (s : State) (die : Nat) (w : Walk) (x : Waiter) : State :=
  match s.waiterCore die x with
  | some gc => s.fillTlb gc w.ctx w.va
  | none => s

/-- Ends a walk for all that is attached to it: held accesses of threads, parked engine streams (R186), and side logs,
whose head is lost where the page is refused (R88). -/
def State.answer (s : State) (die : Nat) (w : Walk) (c : Option Cause) : State :=
  let s := s.modDie die fun d => { d with walks := d.walks.filter fun x => !(x.ctx == w.ctx && x.region == w.region) }
  w.waiters.foldl (fun s x => match x, c with
    | .thread t, c => (if c.isNone then s.missDone die w x else s).wakeThread t w.region c
    | .eng gc e i, c => s.engResume gc e i c
    | .side core, some _ =>
      (match (s.core (die * 64 + core)).side with
        | h :: _ => if h.line / 256 = w.region ∧ h.ctx = w.ctx then s.loseHead (die * 64 + core) else s
        | [] => s)
    | .side _, none => s.missDone die w x) s

/-- The least number that no request of the queue has. -/
def freeIndex (q : Tbl PageReq) : Option Nat := (List.range 4096).find? fun i => (q.find i).isNone

/-- The walks of a die that the 64 walkers have (R78): the oldest that the host has not been asked about. -/
def Die.walking (d : Die) : List Walk := (d.walks.filter fun w => w.posted.isNone).take 64

/-- PAGE_WALK_COMPLETE: the oldest walk of a die that can finish does; where there is no page yet it posts a request
(R79-R81), and operations of engines that wait for it are parked (R186). -/
def State.walkDone (s : State) (die : Nat) : State :=
  let d := s.die die
  let room (w : Walk) : Bool := decide (s.walk w.ctx w.va ≠ .absent) || (freeIndex d.pq).isSome
  match d.walking.find? fun w => s.walkAwake w.ctx w.va && room w with
  | none => s
  | some w =>
    match s.walk w.ctx w.va with
    | .leaf level e a => (s.cacheLeaf die w.ctx w.va level e a w.write).answer die w none
    | .bad => s.answer die w (some 0x27)
    | .absent =>
      match freeIndex d.pq with
      | none => s
      | some i =>
        let s := s.modDie die fun d =>
          { d with pq := d.pq.put i ⟨w.va / 256 * 256, w.ctx, die, w.kind⟩,
                   walks := d.walks.map fun x => if x.ctx = w.ctx ∧ x.region = w.region then { x with posted := some i } else x }
        w.waiters.foldl (fun s x => match x with
          | .eng gc e i => s.engPark gc e i
          | .thread _ | .side _ => s) s

/-- PAGE_WALK_COMPLETE (R79). -/
def execPageWalkComplete (die : Nat) (s : State) : Out := .next (s.walkDone die)

/-- The walk that a request holds. -/
def State.postedWalk (s : State) (die i : Nat) : Option Walk := (s.die die).walks.find? fun w => w.posted == some i

/-- Answers the request of an index on each die that a command names: refused where none of them has one (R80; DESIGN CHOICE
for die 0xFF, log entry 100). -/
def State.onRequest (s : State) (die i : Nat) (f : State → Nat → State) : State × Bool :=
  if ((diesOf die).getD []).any fun d => ((s.die d).pq.find i).isSome then
    s.eachDie die fun s d => if ((s.die d).pq.find i).isSome then f s d else s
  else (s, false)

/-- Command 0x04: the walk starts again (R80). -/
def State.resolve (s : State) (die i : Nat) : State × Bool :=
  s.onRequest die i fun s d => s.modDie d fun x =>
    { x with pq := x.pq.drop i, walks := x.walks.map fun w => if w.posted = some i then { w with posted := none } else w }

/-- Command 0x05: the held accesses take 0x24 (R80, R81). -/
def State.refuse (s : State) (die i : Nat) : State × Bool :=
  s.onRequest die i fun s d =>
    let w := s.postedWalk d i
    let s := s.modDie d fun x => { x with pq := x.pq.drop i }
    match w with
    | some w => s.answer d w (some 0x24)
    | none => s

/-- RESOLVE_PAGE (R80). -/
def execResolvePage (tag : Ticket) (die index : Nat) (s : State) : Out := .next (s.command tag fun s => s.resolve die index)
/-- REFUSE_PAGE (R80). -/
def execRefusePage (tag : Ticket) (die index : Nat) (s : State) : Out := .next (s.command tag fun s => s.refuse die index)

/-! ### Regions (R70, R83, R93, R108, R128, R363, R367) -/

/-- Reads in flight that were translated to a die's replica pool go to the owners' pages: the pool is laid out anew (R83, R84). -/
def State.leavePool (s : State) (die : Nat) : State :=
  let home (p : Piece) : Piece := if p.src ≠ p.pa ∧ lineDie (p.src / 256) = die then { p with src := p.pa } else p
  { s with ops := s.ops.mapVals fun o => { o with pieces := o.pieces.map home } }

/-- Command 0x06 (R391). -/
def State.carve (s : State) (c : CarveArg) : State × Bool :=
  let on (die : Nat) (f : Die → Die) : State × Bool := s.eachDie die fun s d => s.modDie d f
  match c with
  | .versionStore die base slots window => on die fun d => { d with store := some ⟨base, slots, [], window, slots⟩ }
  | .metadata die tier base => on die fun d =>
      if tier = .near then { d with metaNear := some base } else { d with metaFar := some base }
  | .replicaPool die base frames => s.eachDie die fun s d =>
      (s.leavePool d).modDie d fun x => { x with pool := if frames = 0 then none else some (base, frames), replicas := [] }
  | .savePool die bytes => on die fun d => { d with disp := { d.disp with pool := bytes } }
  | .faultQuay ctx base slots => (s.modCtx ctx fun c => { c with fq := some ⟨base, slots, 0, 0⟩ }, true)
  | .hostErrorRing die slots => s.eachDie die fun s i => s.modDev fun d => { d with errSlots := d.errSlots.put i slots }

/-- CARVE_REGION (R391). -/
def execCarveRegion (tag : Ticket) (c : CarveArg) (s : State) : Out := .next (s.command tag fun s => s.carve c)

/-! ### Quays, weights, stages, floors, berth mode (R338, R341, R347) -/

/-- Command 0x07 (R391). -/
def State.quayArg (s : State) (c : QuayArg) : State × Bool :=
  match c with
  | .quay die q en fifo steer size stage hi lo base =>
    if 6 ≤ size ∧ size ≤ 16 ∧ stage ≤ 7 then s.eachDie die fun s d => s.modQuay d q.val fun x =>
        { x with en := en, fifo := fifo, steer := steer, size := size, stage := stage, hi := hi, lo := lo, base := base }
    else (s, false)
  | .weights die we wf =>
    if 1 ≤ we ∧ we ≤ 15 ∧ 1 ≤ wf ∧ wf ≤ 15 then s.eachDie die fun s d => s.modDisp d fun x => { x with we := we, wf := wf }
    else (s, false)
  | .stage die berth stage =>
    if stage ≤ 7 then s.eachDie die fun s d => s.modDisp d fun x =>
        { x with berths := x.berths.put berth stage, serving := x.serving.drop berth }
    else (s, false)
  | .floor die stage berths =>
    if stage ≤ 7 then s.eachDie die fun s d => s.modDisp d fun x => { x with floors := x.floors.put stage berths } else (s, false)
  | .berthMode die slicePair => s.eachDie die fun s d => s.modDisp d fun x => { x with slicePair := slicePair }

/-- CONFIGURE_QUAY (R338). -/
def execConfigureQuay (tag : Ticket) (c : QuayArg) (s : State) : Out := .next (s.command tag fun s => s.quayArg c)

/-- PRE_EMPT_TEAM (R366). -/
def execPreEmptTeam (tag : Ticket) (team : Nat) (s : State) : Out := .next (s.command tag fun s => s.preempt team)

end Sys2Proof.Machine
end

