-- ==== Sys2Proof/Machine/Power.lean ====
section
/-! DEFINITION. Uncorrectable errors (R130, R365), power states and relocks (R394-R396), wharf links (R392), firmware and
device reset (R400). -/

namespace Sys2Proof.Machine

/-! ### Ending a team from outside (R356, R365, R395) -/

/-- Every thread of a team ends, and what the team has saved, queued or held is lost; its completion follows (R343). -/
def State.killTeam (s : State) (w : Nat) : State :=
  let x := s.work w
  let s := (s.liveOf w).foldl (fun s t => s.endThread t) s
  let lost := (x.side.map fun e => e.ops).flatten
  let empty (b : Bank) : Bank := if b.own = some w then { b with items := [], head := 0, tail := 0 } else b
  let s := x.cores.foldl (fun s gc => s.modCore gc fun c => { c with banks := c.banks.map empty }) s
  let s := s.discard (.rpl w) none
  let s := { s with ops := s.ops.filter fun kv => !lost.contains kv.1,
                    commits := s.commits.filter fun kv => decide (kv.2.owner ≠ Owner.rpl w) }
  s.modWork w fun y =>
    { y with rpl := none, banks := [], accs := [], side := [], wins := [],
             sw := if y.resident then .running else y.sw }

/-- Teams whose threads hold contexts of a die. -/
def State.teamsOn (s : State) (die : Nat) : List Nat :=
  (s.works.filter fun kv => kv.2.resident && kv.2.die == die).map (·.1)

/-! ### Errors (R130, R365, R399) -/

/-- Almanac number of the SRAM errors of a core's bank. -/
def bankErrors (gc bank : Nat) : Nat := 0x2000 + 32 * gc + bank

/-- An uncorrectable metadata word: its 16 lines are poisoned, and 0xB0 is posted with the first line's address (R130). Nothing is read in
a tier that is off (R394). -/
def State.metaError (s : State) (ctx die line : Nat) : State :=
  if lineDie line ≠ die || !s.homes.cmps.contains (line / 256) || !s.lineAwake line then s else s.metaWord ctx line

/-- UNCORRECTABLE_COMPRESSION_METADATA (R130). -/
def execUncorrectableCompressionMetadata (ctx die line : Nat) (s : State) : Out := .next (s.metaError ctx die line)

/-- An uncorrectable error in data (R365): a line is poisoned, whose error counts for the slice that holds it, or for its tier's channel
(R399); an L1 sector is filled anew at its next use, a scratchpad
word is poisoned until written. -/
def State.dataError (s : State) (ctx die : Nat) (p : DataPlace) : State :=
  match p with
  | .line pa =>
    let line := pa / 256
    if !s.lineAwake line then s
    else
      let s := (s.poisonLine line).almanac (if s.l2Holds (lineDie line) line then sliceErrors line else tierErrors line) 1
      s.postQ ctx (s.asyncRec die 0 ctx 0 0xB1 (line * 256))
  | .l1Sector gc vline sector =>
    let clear (l : L1Line) : L1Line := if l.ctx = ctx ∧ l.line = vline then
        { l with valid := l.valid &&& ~~~(BitVec.ofNat 4 (2 ^ (sector % 4))),
                 mask := l.mask &&& ~~~(BitVec.ofNat 256 ((2 ^ 64 - 1) <<< (64 * (sector % 4)))) } else l
    let ways := ((s.core gc).l1.filter fun l => l.ctx == ctx && l.line == vline).map (·.way)
    let s := s.modCore gc fun c => { c with l1 := c.l1.map clear }
    s.almanac (bankErrors gc (ways.headD 0)) 1
  | .scratchWord gc addr =>
    let b := addr / 131072 % 32
    let s := s.modBank gc b fun b =>
      { b with poison := if b.poison.contains (addr % 131072 / 4) then b.poison else b.poison ++ [addr % 131072 / 4] }
    s.almanac (bankErrors gc b) 1

/-- UNCORRECTABLE_DATA (R365). -/
def execUncorrectableData (ctx die : Nat) (place : DataPlace) (s : State) : Out := .next (s.dataError ctx die place)

/-- An error in a save area: 0xB2 to the host, and the team is ended (R365). -/
def State.saveError (s : State) (w : Nat) : State :=
  match s.works.find w with
  | none => s
  | some x =>
    if x.resident && !x.restoring then s
    else
      let s := (s.postX (s.asyncRec x.die 0 x.ctx x.team 0xB2 0)).almanac (0x1800 + x.die) 1
      s.killTeam w

/-- UNCORRECTABLE_CONTEXT_STATE (R365). -/
def execUncorrectableContextState (team : Nat) (s : State) : Out := .next (s.saveError team)

/-- An error in control state: 0xB4 to the host, and every team on the core is ended (R365). -/
def State.machineCheck (s : State) (die core : Nat) : State :=
  let gc := die * 64 + core
  let s := (s.postX (s.asyncRec die core 0 0 0xB4 0)).almanac (0x4000 + gc) 1
  (s.teamsOn die).foldl (fun s w => if (s.work w).cores.contains gc then s.killTeam w else s) s

/-- INTERNAL_MACHINE_CHECK (R365). -/
def execInternalMachineCheck (die core : Nat) (s : State) : Out := .next (s.machineCheck die core)

/-! ### Power states (R394, R395) -/

/-- A die power command takes effect: gating needs a die without teams, a change of P-state relocks, and any of them
ends a halt. The lane cycle in progress is still to be counted, where one is: not one that would begin at the very tick (R395, R396; DEDUCED,
log entry 119). -/
def State.acceptPower (s : State) (die : Nat) (p : DiePower) : State × Bool :=
  let d := s.die die
  match p with
  | .gate =>
    if !(s.teamsOn die).isEmpty then (s, false)
    else
      let s := if d.gated then s else s.almanac (0x400 + 4 * die + 2) 1
      (s.modDie die fun d => { d with gated := true, halted := false }, true)
  | .run q =>
    let s := s.modDie die fun d => { d with gated := false, halted := false }
    if d.pst = q then (s, true)
    else
      let last := !d.gated && !d.halted && d.rest != 0
      ((s.almanac (0x400 + 4 * die + 1) 1).modDie die fun d =>
        { d with relock := some (q, d.mer + 2000), lastCycle := last, p1 := if last then d.p1 else 0 }, true)

/-- A die power command of a tag still waits for a relock to end. -/
def State.powerWaits (s : State) (tag : Ticket) : Bool :=
  (List.range 4).any fun d => (s.die d).pending.any fun x => x.1 == tag

/-- A command is settled once no die holds it. -/
def State.settlePower (s : State) (tag : Ticket) (ok : Bool) : State :=
  if s.powerWaits tag then s else s.settle tag (if ok then 0 else 1)

/-- DIE_POWER_STATE (R394, R395): a die that relocks takes the command when its relock ends. -/
def State.diePower (s : State) (tag : Ticket) (die : Nat) (p : DiePower) : State :=
  match diesOf die with
  | none => s.finish tag 1
  | some ds =>
    if !s.dev.fwOk || (p == .gate && ds.any fun d => !(s.teamsOn d).isEmpty) then s.finish tag 1
    else
      let s := ds.foldl (fun s d =>
        if (s.die d).relock.isSome then s.modDie d fun x => { x with pending := x.pending ++ [(tag, p)] }
        else (s.acceptPower d p).1) (s.begin_ tag)
      s.settlePower tag true

/-- DIE_POWER_STATE (R394). -/
def execDiePowerState (tag : Ticket) (die : Nat) (p : DiePower) (s : State) : Out := .next (s.diePower tag die p)

/-- Command 0x0A (R394). -/
def State.tierPower (s : State) (die : Nat) (tier : Tier) (on : Bool) : State × Bool :=
  s.eachDie die fun s d => s.modDie d fun x =>
    { x with near := if tier = .near then on else x.near, far := if tier = .far then on else x.far }

/-- TIER_POWER_STATE (R394). -/
def execTierPowerState (tag : Ticket) (die : Nat) (tier : Tier) (on : Bool) (s : State) : Out :=
  .next (s.command tag fun s => s.tierPower die tier on)

/-- Commands that came during a relock are taken in their order, up to one that relocks again. -/
def State.takePending (die : Nat) : List (Ticket × DiePower) → State → State
  | [], s => s.modDie die fun d => { d with pending := [] }
  | (tag, p) :: r, s =>
    if (s.die die).relock.isSome then s.modDie die fun d => { d with pending := (tag, p) :: r }
    else
      let a := (s.modDie die fun d => { d with pending := r }).acceptPower die p
      State.takePending die r (a.1.settlePower tag a.2)

/-- RELOCK_END: the new clocks run (R395). -/
def State.relocked (s : State) (die : Nat) : State :=
  match (s.die die).relock with
  | some (p, at_) =>
    if (s.die die).mer < at_ then s
    else
      let s := s.modDie die fun d => { d with pst := p, relock := none, lastCycle := false, p1 := 0, rest := 0 }
      State.takePending die (s.die die).pending s
  | none => s

/-- RELOCK_END (R395). -/
def execRelockEnd (die : Nat) (s : State) : Out := .next (s.relocked die)

/-- THERMAL_TRIP: the die halts, 0xB3 goes to the host, and every team on the die is ended (R395). -/
def State.trip (s : State) (die : Nat) : State :=
  let s := (s.modDie die fun d => { d with halted := true, lastCycle := false }).almanac (0x400 + 4 * die) 1
  let s := s.postX (s.asyncRec die 0 0 0 0xB3 0)
  (s.teamsOn die).foldl (fun s w => s.killTeam w) s

/-- THERMAL_TRIP (R395). -/
def execThermalTrip (die : Nat) (s : State) : Out := .next (s.trip die)

/-! ### Wharf links (R392) -/

/-- FLIT_CRC_FAILURE: the flit is resent; after 8 failures of one flit the link retrains and carries nothing (R392). `again`: the flit is
one that has been resent, and its failures add up. -/
def State.flitFailed (s : State) (link : Nat) (again : Bool) : State :=
  match if link < 8 then s.dev.links.find link else none with
  | some l =>
    if !l.up then s
    else
      let s := s.almanac (0x300 + 2 * link) 1
      let n := if again then l.fails + 1 else 1
      if n < 8 then s.modDev fun d => { d with links := d.links.put link { l with fails := n } }
      else (s.almanac (0x300 + 2 * link + 1) 1).modDev fun d => { d with links := d.links.put link { l with up := false, fails := 0 } }
  | none => s

/-- FLIT_CRC_FAILURE (R392). -/
def execFlitCrcFailure (link : FlitFail) (s : State) : Out := .next (s.flitFailed link.link link.again)

/-- LINK_RETRAINED: the link carries traffic to the device it joins (R392). Die d owns the links 2d and 2d + 1, so there are 8 (R9). -/
def execLinkRetrained (link : Trained) (s : State) : Out :=
  .next (if link.link < 8 then s.modDev fun d => { d with links := d.links.put link.link ⟨true, 0, link.peer⟩ } else s)

/-! ### Firmware and device reset (R400) -/

/-- FIRMWARE_BLOCK_WRITE: accepted even where the image failed its check (R400). -/
def execFirmwareBlockWrite (tag : Ticket) (block : Nat) (data : BitVec 64) (s : State) : Out :=
  .next ((s.modDev fun d => { d with fwBlocks := d.fwBlocks.put block data, fwFresh := true }).finish tag 0)

/-- FIRMWARE_COMMIT: refused while any team is resident. A device whose image failed its check is recovered only where a block has been
written since (R400). -/
def execFirmwareCommit (tag : Ticket) (s : State) : Out :=
  .next (if s.works.any fun kv => kv.2.resident then s.finish tag 1
    else (s.modDev fun d => { d with fwOk := d.fwOk || d.fwFresh, fwFresh := false }).finish tag 0)

/-- DEVICE_RESET: the reset state, with the fuses, the almanac, the firmware blocks and the host's own memory kept, and
the outcome of the image's check (R399, R400). -/
def State.deviceReset (s : State) (ok : Bool) : State :=
  let d := s.dev
  let h := s.homes.host
  { State.reset with
    sched := { s.sched with issue := [], cur := 0 }
    homes := { Homes.reset with host := h }
    dev := { Device.reset with
      step := d.step, prod := d.prod, farGiB := d.farGiB, cores := d.cores, lanes := d.lanes, almanac := d.almanac, fwBlocks := d.fwBlocks,
      fwOk := ok } }

/-- DEVICE_RESET (R400). -/
def execDeviceReset (firmwareOk : Bool) (s : State) : Out := .next (s.deviceReset firmwareOk)

end Sys2Proof.Machine
end

