-- ==== Sys2Proof/Machine/Replay.lean ====
section
/-! DEFINITION. Replay mode (R385-R387): checkpoints, the commit of an interval's writes, rolling back, and stops. -/

namespace Sys2Proof.Machine

/-- Change a team's replay state. -/
def State.modReplay (s : State) (w : Nat) (f : Replay → Replay) : State :=
  s.modWork w fun x => { x with rpl := x.rpl.map f }

/-- An access, a result or a commit of a team's threads is under way; a word of a team in replay mode performs completely before the
next starts (R385). -/
def State.busyWork (s : State) (w : Nat) : Bool :=
  let mine (t : Nat) : Bool := (s.threads.find t).any fun th => th.id.work == w
  (s.ops.any fun kv => kv.2.who.work == w) || (s.threads.any fun kv => kv.2.id.work == w && !kv.2.iter.isEmpty) ||
    s.commits.any fun kv => match kv.2.owner with
    | .tx t => mine t
    | .rpl v => v == w
    | .pub _ _ | .plain => false

/-! ### Checkpoints (R386, R367) -/

/-- A team's state as a checkpoint holds it. -/
def State.imageOf (s : State) (w : Nat) : TeamImage :=
  let x := s.work w
  let ts := s.liveOf w
  let wins := ts.filterMap fun t =>
    let th := s.thread t
    ((s.core th.gcore).windows.find (th.id.lane * 8 + th.id.slot)).map fun b => (t, b)
  { threads := s.threads.filter fun kv => kv.2.id.work == w
    groups := s.groups.filter fun kv => kv.2.work == w
    bundles := s.bundles.filter fun kv => kv.2.tids.any ts.contains
    bins := s.bins.filter fun kv => kv.2.tids.any fun x => ts.contains x.1
    bars := x.bars
    sat := x.sat
    cores := x.cores
    banks := (x.cores.map fun gc => s.bankImages gc w).flatten
    accs := (x.cores.map fun gc => s.tileImages gc w).flatten
    wins := wins
    pend := (s.homes.vlines.map fun lv => (lv.2.pend.filter fun p => match p.owner with
      | .tx t => ts.contains t
      | _ => false).map fun p => (lv.1, p)).flatten }

/-- An interval starts: the checkpoint of the team's state, and a snapshot (R386, R110). -/
def State.checkpoint (s : State) (w ivl : Nat) : State :=
  let s := s.pruneRegs
  let snap := max (s.die (s.work w).die).mer 1
  let img := s.imageOf w
  s.modReplay w fun r =>
    let old := match r.checks with
      | c :: cs => { c with log := r.log } :: cs
      | [] => []
    { r with ivl := ivl, cnt := 0, checks := ⟨ivl, snap, r.turn, [], img⟩ :: old, log := [], cursor := 0, ended := false,
             held := [], heldHost := [] }

/-- In replay mode every bundle is a single thread (R385). -/
def State.splitBundles (s : State) (w : Nat) : State :=
  let bs := s.bundles.filter fun kv => decide (kv.2.tids.length > 1) && kv.2.tids.any fun t => (s.thread t).id.work == w
  bs.foldl (fun s kv =>
    let s := { s with bundles := s.bundles.drop kv.1 }
    kv.2.tids.foldl (fun s t => (s.oneBundle [t] none kv.2.busy).modThread t fun th => { th with done := false }) s) s

/-! ### The end of an interval (R386, R96) -/

/-- The lines that a team holds writes of. -/
def Replay.lines (r : Replay) : List Nat := (r.held.map fun h => h.1 / 256).eraseDups

/-- The version stores have a slot for each versioned line that the team wrote (R94, R106). -/
def State.replaySlots (s : State) (r : Replay) : Bool :=
  (List.range 4).all fun d =>
    let n := r.lines.countP fun l => lineDie l == d && s.homes.heads.contains (l / 256)
    n == 0 || (match (s.die d).store with
      | some v => decide (v.taken.length + n ≤ v.slots)
      | none => false)

/-- One line's held bytes as a pending version of the replay group. -/
def Replay.pend (r : Replay) (w line : Nat) (slot : Option Nat) : Pending :=
  let mine := r.held.filter fun h => h.1 / 256 == line
  ⟨.rpl w, mine.foldl (fun m h => m ||| BitVec.ofNat 256 (2 ^ (h.1 % 256))) 0,
    mine.foldl (fun d h => setLineByte d (h.1 % 256) h.2) 0, true, none, slot⟩

/-- The interval's writes become a commit (R386, R96). -/
def State.commitHeld (s : State) (w : Nat) (r : Replay) : State :=
  let s := r.lines.foldl (fun s line =>
    let slot := if s.homes.heads.contains (line / 256) then s.freeSlot (lineDie line) else none
    let s := match slot with
      | some k => (s.takeSlot (lineDie line) k).doomIntent line
      | none => s
    s.modVLine line fun v => { v with pend := v.pend ++ [r.pend w line slot] }) s
  let i := s.sched.nextId
  let x := s.work w
  { s.modSched fun c => { c with nextId := i + 1 } with
    commits := s.commits.put i ⟨.rpl w, 0, x.die, none, false, i, 0, x.ctx, x.cores.headD 0⟩ }

/-- REPLAY_INTERVAL_END: with its last word performed, the interval's writes commit, and once they have, the next
interval starts (R386). A team placed in replay mode starts its first interval here. -/
def State.intervalEnd (s : State) (w : Nat) : State :=
  match (s.work w).rpl with
  | none => s
  | some r =>
    if !r.ended || r.stop.isSome || s.busyWork w || !(s.work w).resident then s
    else if r.checks.isEmpty then (s.splitBundles w).checkpoint w 0
    else if r.held.isEmpty && r.heldHost.isEmpty then s.checkpoint w (r.ivl + 1)
    else if s.replaySlots r && r.lines.all s.lineAwake then s.commitHeld w r
    else s

/-- REPLAY_INTERVAL_END (R386). -/
def execReplayIntervalEnd (team : Nat) (s : State) : Out := .next (s.intervalEnd team)

/-! ### Placing a team in replay mode (R385) -/

/-- Command 0x0C: replay mode with an interval limit. A team that stands at a stop goes on. -/
def State.replayOn (s : State) (w limit : Nat) : State × Bool :=
  match s.works.find w with
  | none => (s, false)
  | some x =>
    if limit = 0 || decide (2 ^ 20 < limit) then (s, false)
    else match x.rpl with
      | none => ((s.modWork w fun y => { y with rpl := some ⟨limit, 0, 0, [], [], 0, none, false, (64, 64), none, true, [], []⟩ }), true)
      | some r =>
        let s := s.modReplay w fun r => { r with limit := limit, stop := none, reached := false }
        (if r.reached then
          s.modCard x.card fun c => { c with st := if c.st = .running then .ready else c.st, requeued := c.requeued ++ [w] }
        else s, true)

/-- REPLAY_MODE (R385). -/
def execReplayMode (tag : Ticket) (team limit : Nat) (s : State) : Out :=
  .next (s.command tag fun s => s.replayOn team limit)

/-! ### Rolling back (R387) -/

/-- Everything of the team that stands on the machine is dropped but the team itself. -/
def State.clearTeam (s : State) (w : Nat) : State :=
  let x := s.work w
  let ts := s.liveOf w
  let s := if x.resident then x.cores.foldl (fun s gc => (s.foldBank gc x.ctx).ungrant gc w) s else s
  let s := s.discard (.rpl w) none
  let s := ts.foldl (fun s t => match (s.thread t).view with
    | some v => if v.tx then (s.discard (.tx t) (some t)).dropTxLines t else s
    | none => s) s
  let gone := (s.ops.filter fun kv => kv.2.who.work == w).map (·.1)
  let keepE (es : List SideEntry) : List SideEntry :=
    (es.map fun e => { e with ops := e.ops.filter fun i => !gone.contains i }).filter fun e => !e.ops.isEmpty
  let trim (c : Core) : Core := { c with side := keepE c.side }
  { s with
    ops := s.ops.filter fun kv => !gone.contains kv.1
    commits := s.commits.filter fun kv => !(match kv.2.owner with
      | .tx t => ts.contains t
      | .rpl v => v == w
      | .pub _ _ | .plain => false)
    cores := s.cores.mapVals trim
    bundles := s.bundles.filter fun kv => !(kv.2.tids.any ts.contains)
    bins := s.bins.filter fun kv => !(kv.2.tids.any fun x => ts.contains x.1)
    groups := s.groups.filter fun kv => kv.2.work != w
    threads := s.threads.filter fun kv => kv.2.id.work != w }

/-- Adds entries to a table. -/
def Tbl.addAll {α : Type} (t u : Tbl α) : Tbl α := u.foldl (fun t kv => t.put kv.1 kv.2) t

/-- A pending version of a rolled-back thread's transaction stands again, or the transaction is doomed (R101). -/
def State.rependTx (s : State) (line : Nat) (p : Pending) : State :=
  match p.owner with
  | .tx t =>
    match s.freeSlot (lineDie line) with
    | some k =>
      if (s.vline line).pend.isEmpty && (s.vline line).intent.isNone then
        (s.takeSlot (lineDie line) k).modVLine line fun v => { v with pend := [{ p with slot := some k }], intent := some t }
      else s.doom t 4
    | none => s.doom t 4
  | _ => s

/-- The team is rolled back to a checkpoint: it stands saved there, and is to be placed again (R387, R369). -/
def State.rollback (s : State) (w : Nat) (c : Checkpoint) (log : List ReplayLog) (stop : Nat) : State :=
  let s := s.clearTeam w
  let img := c.image
  let s := { s with
    threads := s.threads.addAll (img.threads.mapVals fun th => th.asSaved .host), groups := s.groups.addAll img.groups,
    bundles := s.bundles.addAll img.bundles, bins := s.bins.addAll (img.bins.mapVals fun b => { b with core := 64 }) }
  let s := img.pend.foldl (fun s lp => s.rependTx lp.1 lp.2) s
  let s := s.modWork w fun x =>
    { x with sw := .saved .host, cores := img.cores, bars := img.bars, sat := img.sat, banks := img.banks, accs := img.accs,
             wins := img.wins, side := [],
             bud := { x.bud with spent := if x.resident then s.budgetTicks w else x.bud.spent } }
  let s := s.modReplay w fun r =>
    { r with ivl := c.ivl, cnt := 0, checks := r.checks.dropWhile fun k => k.ivl != c.ivl, log := log, cursor := 0,
             stop := some stop, reached := false, turn := c.turn, last := none, ended := false, held := [], heldHost := [] }
  s.modCard (s.work w).card fun k =>
    { k with st := if k.st = .running then .ready else k.st,
             requeued := if k.requeued.contains w then k.requeued else k.requeued ++ [w] }

/-- Command 0x0C with a stop: refused where the team has no such checkpoint (R387). -/
def State.replayTo (s : State) (w ivl c : Nat) : State × Bool :=
  match (s.work w).rpl with
  | none => (s, false)
  | some r =>
    match r.checks.find? fun k => k.ivl == ivl with
    | none => (s, false)
    | some k => (s.rollback w k (if ivl = r.ivl then r.log else k.log) c, true)

/-- REPLAY_STOP (R387). -/
def execReplayStop (tag : Ticket) (team interval count : Nat) (s : State) : Out :=
  .next (s.command tag fun s => s.replayTo team interval count)

/-! ### The stop (R387, R363) -/

/-- Threads of a team that may be started, by (group, thread index). -/
def State.rotation (s : State) (w : Nat) : List (Nat × Nat × Nat) :=
  ((s.liveOf w).map fun t => ((s.groupOf t).num, (s.thread t).id.tig, t)).insertionSort fun a b =>
    a.1 < b.1 ∨ a.1 = b.1 ∧ a.2.1 ≤ b.2.1

/-- The rotation from the thread after the one that started last (R385). -/
def State.rotated (s : State) (w : Nat) : List Nat :=
  let turn := ((s.work w).rpl.map (·.turn)).getD (0, 0)
  let ts := s.rotation w
  let after (x : Nat × Nat × Nat) : Bool := decide (turn.1 < x.1) || (turn.1 == x.1 && decide (turn.2 < x.2.1))
  if turn.1 ≥ 64 then ts.map (·.2.2) else ((ts.filter after) ++ ts.filter fun x => !after x).map (·.2.2)

/-- The record of kind 4 (R363). -/
def State.stopRecord (s : State) (w : Nat) (r : Replay) : FaultRec :=
  let v : Word64 := BitVec.ofNat 64 (field r.ivl 32 32 + field r.cnt 0 32)
  match r.last with
  | some (t, i, word) =>
    let p := match s.threads.find t with
      | some th => (th.pos.pc, th.pos.win)
      | none => (0, 0)
    { s.identRec i 4 0 v with pc := p.1, windex := p.2, word := word }
  | none =>
    match s.rotated w with
    | t :: _ => { s.threadRec t 4 0 v with word := 0 }
    | [] => { s.asyncRec (s.work w).die 0 (s.work w).ctx (s.work w).team 0 v.toNat with kind := 4 }

/-- REPLAY_STOP_REACHED: at the named count, or at the interval's end, the team is saved where it stands, once no chunk of its mma is in
progress (R256), and the record is posted (R387). -/
def State.stopReached (s : State) (w : Nat) : State :=
  match (s.work w).rpl with
  | none => s
  | some r =>
    match r.stop with
    | none => s
    | some c =>
      if r.reached || (decide (r.cnt < c) && !r.ended) || s.busyWork w || !s.arrayStill w || decide ((s.work w).sw ≠ .running) ||
          decide ((s.die (s.work w).die).disp.pool < s.areaSize w) then s
      else
        let rec0 := s.stopRecord w r
        let rec0 := { rec0 with val := BitVec.ofNat 64 (field r.ivl 32 32 + field c 0 32) }
        let s := (s.save w .host).modReplay w fun r => { r with reached := true }
        let s := s.modCard (s.work w).card fun k => { k with requeued := k.requeued.filter (· != w) }
        (s.unready (s.work w).card).postQ (s.work w).ctx rec0

/-- REPLAY_STOP_REACHED (R387). -/
def execReplayStopReached (team : Nat) (s : State) : Out := .next (s.stopReached team)

end Sys2Proof.Machine
end

