-- ==== Sys2Proof/Machine/Issue.lean ====
section
/-! DEFINITION. Clause headers (R18-R20, R82, R401), what makes a bundle a candidate, the lane cycle and the slice
arbiter (R33, R350, R377, R378, R396). -/

namespace Sys2Proof.Machine

/-! ### Fetching a clause (R82) -/

/-- One word of code, translated and read where it lies, at a copy of its line or a replica of its page too (R82, R83, R119, R130). -/
def fetchWord (t va : Nat) : M Word32 := do
  let x ← translate t va .fetch
  let d := (← getT t).id.die
  let line := x.src / 256
  modify fun s => (s.noteReplica d (x.pa / 256) x.dup).codeCheck (s.ctxOf t) line
  let s ← get
  if s.poisoned line then faultAt 0x29 va
  if !s.lineAwake line || (x.ver && (s.vline line).undecided none) then wait 0x2 .poll
  set (s.l2Read d line x.ver .normal)
  return BitVec.ofNat 32 (leVal (s.homes.mem.readN x.src 4))

/-- A clause whole: its header, checked before any of its words is (R43), and its words. -/
def fetchClause (t pc : Nat) : M (Word32 × Header × List Word32) := do
  let h ← fetchWord t pc
  match decodeHeader h with
  | none => do
    modT t fun th => { th with pos := { th.pos with hdr := h } }
    fault 0x01
  | some f => do
    let ws ← (List.range f.count).mapM fun i => fetchWord t (pc + 4 * (i + 1))
    return (h, f, ws)

/-! ### At a header (R20, R88, R296, R344, R401) -/

/-- The thread's waits are met (R20). -/
def waitsMet (f : Header) (c : Counts) : Bool :=
  (f.ldwait == 15 || decide (c.ld ≤ f.ldwait)) && (f.stwait == 15 || decide (c.st ≤ f.stwait)) &&
    (f.enwait == 15 || decide (c.en ≤ f.enwait))

/-- The clause guard for a thread (R20, R37). -/
def readGuard (t : Nat) (f : Header) : M Bool := do
  if f.gcond = .always then return true
  else return Cond.holds f.gcond (← readPred t f.gpred)

/-- Cause 0xA0 at a header, outside the handler (R344, R362). -/
def State.budgetCause (s : State) (t : Nat) : Option State :=
  let th := s.thread t
  if th.budgetDue && !th.inHandler then
    let s := (s.modThread t fun th => { th with budgetDue := false }).modWork th.id.work fun w =>
      { w with bud := { w.bud with trapped := true } }
    some (s.deliver t 0xA0 0)
  else none

/-- Causes that a thread has waiting for a header: a deferred one where the header waits for stores (R88), then 0xA0. -/
def State.headerCause (s : State) (t : Nat) (h : Word32) (f : Header) : State :=
  let s := s.modThread t fun th => { th with pos := { th.pos with hdr := h } }
  match if f.stwait < 15 then s.dueDeferred t else none with
  | some (c, v, s') => s'.deliver t c v
  | none => (s.budgetCause t).getD s

/-- Mismatches that a thread met in reading its guard (R207): they are counted, and each took 4 beats. -/
def State.guardRetries (s : State) (t : Nat) : State :=
  let th := s.thread t
  if th.retry = 0 then s
  else
    let u := s.lcOf t + 4 * th.retry * s.beatLen t
    ((s.mismatches th.gcore th.retry 0).modBundle th.bundle fun b =>
      { b with busy := max b.busy u, till := max b.till u, lead := 0xA }).modThread t fun th => { th with retry := 0 }

/-- A thread enters a clause: the guard is read, and a new sck takes effect (R20, R209). -/
def State.enterClause (s : State) (t : Nat) (h : Word32) (ws : List Word32) (g : Bool) : State :=
  (s.guardRetries t).modThread t fun th =>
    { th with pos := ⟨th.pos.pc, 1, h, ws, true, g⟩, sck := th.sckNext.getD th.sck, sckNext := none, hold := none }

/-- A thread takes a cause in reading its guard; a mismatch that the retry repeats is counted twice (R207). -/
def State.guardCause (s : State) (t : Nat) (c : Cause) : State :=
  (if c = 0x42 then s.mismatches (s.thread t).gcore 2 1 else s).deliver t c 0

/-- The guards of a bundle's threads; a thread's cause in reading its own is its own. -/
def readGuards (f : Header) : List Nat → State → List (Nat × Bool) → List (Nat × Cause) → Except (Nat × Hold)
    (State × List (Nat × Bool) × List (Nat × Cause))
  | [], s, gs, cs => .ok (s, gs, cs)
  | t :: r, s, gs, cs =>
    match (readGuard t f).run s with
    | .ok g s => readGuards f r s (gs ++ [(t, g)]) cs
    | .error (.hold h) _ => .error (t, h)
    | .error (.trap c _) _ => readGuards f r s gs (cs ++ [(t, c)])

/-- The threads enter the clause, once waits and guards allow; those at a collective park (R20, R296). -/
def State.enterAll (s : State) (ts : List Nat) (h : Word32) (f : Header) (ws : List Word32) (lone : Bool) : State :=
  match ts with
  | [] => s
  | t :: _ =>
    if !(ts.all fun u => waitsMet f (s.thread u).cnt) then s.modThread t fun th => { th with hold := some ⟨0x3, .poll⟩ }
    else match readGuards f ts s [] [] with
      | .error (u, k) => s.modThread u fun th => { th with hold := some k }
      | .ok (s, gs, cs) =>
        let s := gs.foldl (fun s ug => s.enterClause ug.1 h ws ug.2) s
        let s := cs.foldl (fun s uc => s.guardCause uc.1 uc.2) s
        if !lone && isCollective f.cls (ws.headD 0) then gs.foldl (fun s ug => s.park ug.1) s else s

/-- A thread stands at the header at `pc` of bundle `b`. -/
def State.atHeaderOf (s : State) (b pc t : Nat) : Bool :=
  let th := s.thread t
  th.bundle == b && th.pos.pc == pc && th.pos.win == 0

/-- A thread comes to its place within a clause that has been fetched: past its words it goes on at the next header, and at a
collective it parks with its group (R297, R361). -/
def State.resumeIn (s : State) (t : Nat) (h : Word32) (f : Header) (ws : List Word32) : State :=
  let th := s.thread t
  if th.pos.win > ws.length then
    s.modThread t fun x => { x.goTo (x.pos.pc + 4 * (1 + ws.length)) with hold := none }
  else
    let s := s.modThread t fun x => { x with pos := { x.pos with hdr := h, words := ws, fetched := true }, hold := none }
    if th.pos.win = 1 ∧ isCollective f.cls (ws.headD 0) then s.park t else s

/-- The header of an ordinary clause, for all threads of a bundle. Where the fetch comes to a cause, what it did at the slices and in the
translation caches stays (R129, R130). -/
def State.codeHeader (s : State) (t : Nat) : State :=
  let th := s.thread t
  let ts := s.byTig (s.mates t)
  match (fetchClause t th.pos.pc).run s with
  | .error (.hold h) s' => s'.modThread t fun x => { x with hold := some h }
  | .error (.trap c v) s' =>
    let h := (s'.thread t).pos.hdr
    ts.foldl (fun s u => (s.modThread u fun x => { x with pos := { x.pos with win := 0, hdr := h } }).deliver u c v) s'
  | .ok (h, f, ws) s =>
    if th.pos.win ≠ 0 then ts.foldl (fun s u => s.resumeIn u h f ws) s
    else
      let bs := ts.map fun u => (u, (s.thread u).bundle)
      let s := ts.foldl (fun s u => s.headerCause u h f) s
      let ts := (bs.filter fun ub => s.atHeaderOf ub.2 th.pos.pc ub.1).map (·.1)
      s.enterAll ts h f ws false

/-- The header of a candidate's clause (R315, R318, R401). -/
def State.trialHeader (s : State) (t : Nat) : State :=
  let th := s.thread t
  let len := (th.trial.map (·.len)).getD 0
  let pc := th.pos.pc
  if pc ≥ len then s.deliver t 0x66 0
  else
    let (w, s) := s.window t
    let h := windowWord w pc
    let s := s.modThread t fun th => { th with pos := { th.pos with hdr := h } }
    match decodeHeader h with
    | none => s.deliver t 0x01 0
    | some f =>
      if f.cls = .matrix || f.cls = .copy || f.cls = .task || f.cls = .system then s.deliver t 0x67 0
      else if pc + f.count ≥ len then s.deliver t 0x66 0
      else match s.budgetCause t with
        | some s => s
        | none => s.enterAll [t] h f ((List.range f.count).map fun i => windowWord w (pc + 1 + i)) true

/-- CLAUSE_HEADER: the bundle of the current thread at its header, or within a clause that is to be fetched (R20, R82,
R361). -/
def execClauseHeader (s : State) : Out :=
  let t := s.sched.cur
  .next (if (s.threads.find t).isNone then s
    else if (s.thread t).inTrial then s.trialHeader t else s.codeHeader t)

/-! ### Candidates (R350, R366) -/

/-- A result that a hold waits for is still to come. -/
def State.tokenOpen (s : State) (t tok : Nat) : Bool :=
  let th := s.thread t
  let on (w : Option (Nat × Nat)) : Bool := w.any fun x => x.1 == tok
  (match s.ops.find tok with
    | some o => !o.performed
    | none => false) ||
    (th.iter.any fun o => o.tok == tok) || (th.regs.q.toList.any fun e => on e.wait) ||
    (th.regs.k.toList.any fun e => on e.wait) || th.regs.p.toList.any fun c => on c.wait

/-- A held thread may try again. -/
def State.holdPasses (s : State) (t : Nat) (h : Hold) : Bool :=
  match h.on with
  | .poll => true
  | .event => false
  | .counts ld st => (!ld || (s.thread t).cnt.ld == 0) && (!st || (s.thread t).cnt.st == 0)
  | .token ks => !(ks.any (s.tokenOpen t))

/-- A thread that is not held, or may try again. -/
def State.free (s : State) (t : Nat) : Bool := (s.thread t).hold.all fun h => s.holdPasses t h

/-- A thread whose bundle is still to fetch its clause. -/
def Thread.needsHeader (th : Thread) : Bool := decide (th.pos.win = 0) || !th.pos.fetched

/-- A team in replay mode lets a thread go on: with a word that has started and is to perform completely before the next one does, and
else while the interval is not over and the stop has not been reached (R385-R387). -/
def State.replayLets (s : State) (t : Nat) : Bool :=
  let w := (s.thread t).id.work
  match (s.work w).rpl with
  | none => true
  | some r =>
    let idle := (s.bundles.all fun kv => !(kv.2.tids.any fun u => (s.thread u).id.work == w) || decide (kv.2.busy ≤ s.lcOf t))
    idle && (if s.busyWork w then decide ((s.thread t).stage ≠ 0) else !r.ended && !(r.stop.any fun c => decide (r.cnt ≥ c)))

/-- A bundle is a ready candidate: its die runs, its team is neither stopped nor stopping at its place, its group is not
spilled, it is not occupied, and a thread of it can go on; at a header all can (R20, R202, R350, R366). -/
def State.candidate (s : State) (b : Nat) : Bool :=
  let gs := s.gangOf b
  match (gs.map fun nb => nb.2.tids).flatten with
  | [] => false
  | t :: r =>
    let ts := t :: r
    let left := ts.filter fun u => !(s.thread u).done
    let th := s.thread (left.headD t)
    let d := s.die th.id.die
    let w := s.work th.id.work
    !d.gated && !d.halted && d.relock.isNone && gs.all (fun nb => decide (nb.2.busy ≤ d.lc)) &&
      (match w.sw with
        | .running => true
        | .stopping _ => !(left.all fun u => (s.thread u).stopped)
        | _ => false) &&
      (s.group th.id.group).spill.isNone &&
      ts.all (fun u => (s.thread u).place == .running && (s.thread u).trial.all fun x => x.ending.isNone || x.susp) &&
      (if th.needsHeader then left.all s.free else left.any s.free) && left.any s.replayLets

/-- Lanes of a core that a bundle and its gang use. -/
def State.lanesFree (s : State) (b : Nat) : Bool :=
  (s.gangOf b).all fun nb =>
    let c := s.core (nb.2.die * 64 + nb.2.core)
    (s.lanesOf nb.2.tids).all fun l => decide (c.laneBusy.getD l 0 ≤ (s.die nb.2.die).lc)

/-- The bundle is a thread in trial mode (R315). -/
def State.loneTrial (s : State) (b : Nat) : Bool :=
  match s.bundles.find b with
  | some x => x.tids.any fun t => (s.thread t).inTrial
  | none => false

/-- The slice has not started a bundle in this lane cycle. -/
def State.sliceFree (s : State) (b : Nat) : Bool :=
  s.loneTrial b || (s.gangOf b).all fun nb =>
    decide ((s.core (nb.2.die * 64 + nb.2.core)).started.getD nb.2.slice 0 ≤ (s.die nb.2.die).lc)

/-! ### The end of a lane cycle (R291, R295, R297) -/

/-- Bins, soft barriers and collectives of a die whose conditions hold are released (R291, R295, R297). -/
def State.releases (s : State) (die : Nat) : State :=
  let gs := (s.groups.filter fun kv => (s.work kv.2.work).die == die && s.goes kv.2.work && kv.2.spill.isNone).map (·.1)
  let soft := gs.filter s.softDue
  let s := s.releaseBins die
  let s := soft.foldl (fun s g => s.releaseSoft g) s
  gs.foldl (fun s g => s.collective g) s

/-- A candidate that was ready in the lane cycle that is over, and was not started, ages (R350). -/
def State.ages (s : State) (die : Nat) : State :=
  { s with bundles := s.bundles.mapVals fun b =>
      if b.die = die ∧ b.passed then { b with age := min 15 (b.age + 1), passed := false } else b }

/-! ### A lane cycle passes (R33, R377, R378, R396) -/

/-- Whether a load would hit in its core's L1. -/
def State.hitsL1 (s : State) (o : MemOp) : Bool :=
  o.pieces.all fun p =>
    (s.l1Hit (o.die * 64 + o.core) o.ctx (p.va / 256) (if p.ver then o.view else .latest) o.hint (p.src % 256) p.len).isSome

/-- What a read waits for that waits on an access (R377): an L1 hit, an L2 slice, or what lies further off. The record table and
the scratchpad count with L1 (DESIGN CHOICE, log entry 77). -/
def State.opLeaf (s : State) (o : MemOp) : Nat :=
  match o.act, o.home with
  | .qpop _ _, _ => 0xB
  | _, .scratch => 0x5
  | _, .main =>
    if o.loads && s.hitsL1 o then 0x5
    else if o.pieces.all fun p => s.l2Holds (lineDie (p.src / 256)) (p.src / 256) || s.l2Holds o.die (p.src / 256) then 0x6
    else 0x7
  | _, _ => 0x7

/-- The leaf of a read that waits for a token (R377): an access, a future that has yet to come, or a lane result. -/
def State.tokenLeaf (s : State) (t tok : Nat) : Nat :=
  match s.ops.find tok with
  | some o => s.opLeaf o
  | none =>
    if (s.thread t).iter.any fun o => o.tok == tok then 0xA
    else if (s.commits.find tok).isSome || (List.range 4).any fun e => (s.engOps (s.thread t).gcore e).any fun o => o.2.tok == tok then 0xC
    else 0xA

/-- The leaf of a thread's wait: the lowest code among its reasons (R378). -/
def State.holdLeaf (s : State) (t : Nat) (h : Hold) : Nat :=
  match h.on with
  | .token ks => (ks.filter (s.tokenOpen t)).foldl (fun m k => min m (s.tokenLeaf t k)) (if ks.any (s.tokenOpen t) then 0xE else 0xA)
  | _ => h.leaf.toNat

/-- Why a bundle's lanes run no beat, where it has a reason of its own: its added beats, its S beats, or what its first thread that
waits is waiting for (R377, R378). -/
def State.waitLeaf (s : State) (x : Bundle) : Option Nat :=
  let lc := (s.die x.die).lc
  if lc < x.till then some x.lead.toNat
  else if lc < x.busy then some 0xA
  else (s.byTig x.tids).findSome? fun t => (s.thread t).hold.map (s.holdLeaf t)

/-- The older of two waiting bundles; ties go to the lower thread index (R378). -/
def State.olderOf (s : State) (a b : Bundle) : Bundle :=
  let i (x : Bundle) : Nat := (x.tids.map fun t => (s.thread t).id.tig).foldl min 64
  if a.age < b.age ∨ (a.age = b.age ∧ i b < i a) then b else a

/-- The leaf of a slice's slot, and the context it counts under: that of the threads whose beats run, or of the thread that waits
(R377, R378, R383). -/
def State.slotLeaf (s : State) (gc sl : Nat) : Nat × Option Nat :=
  let c := s.core gc
  let lc := (s.die (gc / 64)).lc
  let here := s.threads.filter fun kv => kv.2.gcore == gc && kv.2.slice == sl && (s.work kv.2.id.work).resident
  match here with
  | [] => (0xF, none)
  | (t, _) :: _ =>
    let bs := (s.bundles.filter fun kv => kv.2.die * 64 + kv.2.core == gc && kv.2.slice == sl).map (·.2)
    let ctx (x : Bundle) : Option Nat := x.tids.head?.map s.ctxOf
    let useful := c.useful.getD sl (0, 0)
    let wasted := c.wasted.getD sl (0, 0)
    if lc < useful.1 then (0x0, some useful.2)
    else if lc < wasted.1 then (0x1, some wasted.2)
    else match bs.filterMap fun x => (s.waitLeaf x).map fun l => (x, l) with
      | [] => (if bs.isEmpty then 0xB else 0xA, some (s.ctxOf t))
      | x :: r => let y := r.foldl (fun a b => if s.olderOf a.1 b.1 = a.1 then a else b) x; (y.2, ctx y.1)

/-- The contexts that keep a bank of counters on a core: those of the teams that reside there (R383). -/
def State.coreContexts (s : State) (gc : Nat) : List Nat :=
  ((s.works.filter fun kv => kv.2.resident && kv.2.cores.contains gc).map fun kv => kv.2.ctx).eraseDups

/-- Counters of a die's cores in a lane cycle. -/
def State.tickCores (s : State) (die : Nat) : State :=
  let d := s.die die
  { s with cores := s.cores.map fun kv =>
      if kv.1 / 64 = die then (kv.1, { kv.2 with obs := kv.2.obs.tick d.org d.srcs (s.coreContexts kv.1) ((List.range 16).map (s.slotLeaf kv.1)) })
      else kv }

/-- A lane cycle of a die's own clocks. -/
def Die.cycle (d : Die) : Die :=
  let r := d.rest + cycleLength d.pst
  { d with lc := d.lc + 1, rest := r % 288, mer := d.mer + r / 288, p1 := d.p1 + 1,
           ncyc := d.ncyc + BitVec.ofNat 64 (cycleSixteenths d.pst (d.p1 + 1)) }

/-- The lane cycle in progress when a relock began is counted, at its old clock; its time is the tick's (R395, R396). -/
def Die.lastOf (d : Die) : Die :=
  { d with lc := d.lc + 1, ncyc := d.ncyc + BitVec.ofNat 64 (cycleSixteenths d.pst (d.p1 + 1)), p1 := 0, lastCycle := false }

/-- A tick of a relock (R396). -/
def Die.relockTick (d : Die) : Die :=
  { d with mer := d.mer + 1, p1 := d.p1 + 1, ncyc := d.ncyc + if (d.p1 + 1) % 5 = 0 then 28 else 29 }

/-- A lane cycle counts: in its cores' counters, and in the lane-cycle counts of its resident threads (R33, R377). -/
def State.countCycle (s : State) (die : Nat) (f : Die → Die) : State :=
  let s := s.tickCores die
  let count (th : Thread) : Thread :=
    if th.id.die = die ∧ (s.work th.id.work).resident then { th with cyc := th.cyc + 1 } else th
  { s with threads := s.threads.mapVals count }.modDie die f

/-- Ticks in an hour (R12). -/
def hourTicks : Nat := 3600000000000

/-- The almanac counts an hour that a powered die has passed, in the bin of its temperature, which is free (R399; DESIGN CHOICE, log
entry 103). -/
def State.hourGone (s : State) (die mer : Nat) : State :=
  if (s.die die).gated || mer / hourTicks == (s.die die).mer / hourTicks then s
  else (s.modSched fun c => { c with draw := c.draw + 1 }).almanac (0x600 + 16 * die + Config.heat s.sched.draw % 16) 1

/-- Time passes on a die: a lane cycle, or a tick where its clocks do not run. -/
def State.passCycle (s : State) (die : Nat) : State :=
  let d := s.die die
  (if d.lastCycle then s.countCycle die Die.lastOf
    else if d.relock.isSome then s.modDie die Die.relockTick
    else if d.gated || d.halted then s.modDie die fun d => { d with mer := d.mer + 1 }
    else s.countCycle die Die.cycle).hourGone die d.mer

/-! ### Slice arbitration (R350, R385) -/

/-- Where a candidate stands in the arbiter's order: age, rotation over the lanes, group, thread index. -/
def State.rank (s : State) (x : Bundle) : Nat × Nat × Nat × Nat :=
  let lc := (s.die x.die).lc
  let lane := (x.tids.map fun t => (s.thread t).id.lane % 4).foldl min 3
  let g := (s.group x.group).num
  let i := (x.tids.map fun t => (s.thread t).id.tig).foldl min 64
  (15 - x.age, (lane + 4 - lc % 4) % 4, g, i)

/-- Lexicographic order. -/
def rankLe (a b : Nat × Nat × Nat × Nat) : Bool :=
  decide (a.1 < b.1) || (a.1 == b.1 && (decide (a.2.1 < b.2.1) || (a.2.1 == b.2.1 &&
    (decide (a.2.2.1 < b.2.2.1) || (a.2.2.1 == b.2.2.1 && decide (a.2.2.2 ≤ b.2.2.2))))))

/-- The ready candidates of a die, in the order in which the arbiter considers them; a team in replay mode has its own
rotation. A ganged pair is named by its first bundle. -/
def State.candidates (s : State) (die : Nat) : List Nat :=
  let bs := s.bundles.filter fun kv => kv.2.die == die && s.candidate kv.1 && ((s.gangOf kv.1).head?).any fun x => x.1 == kv.1
  let replays (x : Bundle) : Bool := s.groupReplays x.group
  let free := (bs.filter fun kv => !replays kv.2).insertionSort fun a b => rankLe (s.rank a.2) (s.rank b.2) = true
  let teams := (s.works.filter fun kv => kv.2.rpl.isSome && kv.2.die == die).map (·.1)
  let turns := (teams.map fun w => (s.rotated w).map fun t => (s.thread t).bundle).flatten
  free.map (·.1) ++ turns.filter fun b => bs.any fun kv => kv.1 == b

/-- The die's meridian once it has passed its next cycle. -/
def Die.nextMer (d : Die) : Nat :=
  if d.lastCycle then d.mer else if d.relock.isSome || d.gated || d.halted then d.mer + 1 else d.mer + (d.rest + cycleLength d.pst) / 288

/-- Time may pass on a die: the four dies count one common meridian, of which no copy leads another by more than 2 ticks (R9, R275,
R397). -/
def State.inStep (s : State) (die : Nat) : Bool := decide ((s.die die).nextMer ≤ s.leastMer + 2)

/-- A relock of the die has run its time (R395). -/
def Die.relockDone (d : Die) : Bool := d.relock.any fun r => decide (r.2 ≤ d.mer)

/-- The lane cycle that is over releases what is due, and the next one begins; the first after a relock begins with the relock's end
(R395). -/
def State.nextCycle (s : State) (die : Nat) : State :=
  let d := s.die die
  if d.relockDone then s.relocked die
  else (if d.relock.isSome && !d.lastCycle then s else (s.releases die).ages die).passCycle die

/-- SLICE_ARBITRATION: the lane cycle that is over releases what is due, the next one begins, and the candidates are
considered in order (R350). A die that is ahead of the others waits for them. -/
def State.arbitrate (s : State) (die : Nat) : State :=
  if !s.inStep die then s
  else
    let s := s.nextCycle die
    let cs := s.candidates die
    s.modSched fun c => { c with issue := c.issue ++ cs.map .bundle }

/-- SLICE_ARBITRATION (R350). -/
def execSliceArbitration (die : Nat) (s : State) : Out := .next (s.arbitrate die)

end Sys2Proof.Machine
end

