-- ==== Sys2Proof/Machine/Dispatch.lean ====
section
/-! DEFINITION. The meaning of every instruction word and device event, by name. -/

namespace Sys2Proof.Machine

/-- The meaning of an instruction. -/
def exec (i : Instr) (s : State) : Host.Outcome State Fault Refusal :=
  match i with
  | .iadd c d a b => Sys2Proof.Machine.execIadd c d a b s
  | .isub c d a b => Sys2Proof.Machine.execIsub c d a b s
  | .imul c d a b => Sys2Proof.Machine.execImul c d a b s
  | .imulhi c d a b => Sys2Proof.Machine.execImulhi c d a b s
  | .imulhiUn c d a b => Sys2Proof.Machine.execImulhiUn c d a b s
  | .idiv c d a b => Sys2Proof.Machine.execIdiv c d a b s
  | .idivUn c d a b => Sys2Proof.Machine.execIdivUn c d a b s
  | .irem c d a b => Sys2Proof.Machine.execIrem c d a b s
  | .iremUn c d a b => Sys2Proof.Machine.execIremUn c d a b s
  | .imin c d a b => Sys2Proof.Machine.execImin c d a b s
  | .iminUn c d a b => Sys2Proof.Machine.execIminUn c d a b s
  | .imax c d a b => Sys2Proof.Machine.execImax c d a b s
  | .imaxUn c d a b => Sys2Proof.Machine.execImaxUn c d a b s
  | .iabs c d a => Sys2Proof.Machine.execIabs c d a s
  | .ineg c d a => Sys2Proof.Machine.execIneg c d a s
  | .andB c d a b => Sys2Proof.Machine.execAndB c d a b s
  | .orB c d a b => Sys2Proof.Machine.execOrB c d a b s
  | .xorB c d a b => Sys2Proof.Machine.execXorB c d a b s
  | .notB c d a => Sys2Proof.Machine.execNotB c d a s
  | .shl c d a b => Sys2Proof.Machine.execShl c d a b s
  | .shr c d a b => Sys2Proof.Machine.execShr c d a b s
  | .sar c d a b => Sys2Proof.Machine.execSar c d a b s
  | .rotl c d a b => Sys2Proof.Machine.execRotl c d a b s
  | .popc c d a => Sys2Proof.Machine.execPopc c d a s
  | .clz c d a => Sys2Proof.Machine.execClz c d a s
  | .brev c d a => Sys2Proof.Machine.execBrev c d a s
  | .icmpEq c p a b => Sys2Proof.Machine.execIcmpEq c p a b s
  | .icmpNe c p a b => Sys2Proof.Machine.execIcmpNe c p a b s
  | .icmpLt c p a b => Sys2Proof.Machine.execIcmpLt c p a b s
  | .icmpLe c p a b => Sys2Proof.Machine.execIcmpLe c p a b s
  | .icmpLtUn c p a b => Sys2Proof.Machine.execIcmpLtUn c p a b s
  | .icmpLeUn c p a b => Sys2Proof.Machine.execIcmpLeUn c p a b s
  | .fcmpEq c p a b => Sys2Proof.Machine.execFcmpEq c p a b s
  | .fcmpNe c p a b => Sys2Proof.Machine.execFcmpNe c p a b s
  | .fcmpLt c p a b => Sys2Proof.Machine.execFcmpLt c p a b s
  | .fcmpLe c p a b => Sys2Proof.Machine.execFcmpLe c p a b s
  | .pand c p x y => Sys2Proof.Machine.execPand c p x y s
  | .por c p x y => Sys2Proof.Machine.execPor c p x y s
  | .pxor c p x y => Sys2Proof.Machine.execPxor c p x y s
  | .pnot c p x => Sys2Proof.Machine.execPnot c p x s
  | .fadd c r d a b => Sys2Proof.Machine.execFadd c r d a b s
  | .fsub c r d a b => Sys2Proof.Machine.execFsub c r d a b s
  | .fmul c r d a b => Sys2Proof.Machine.execFmul c r d a b s
  | .fdiv c r d a b => Sys2Proof.Machine.execFdiv c r d a b s
  | .fsqrt c r d a b => Sys2Proof.Machine.execFsqrt c r d a b s
  | .frcp c r d a b => Sys2Proof.Machine.execFrcp c r d a b s
  | .fmin c d a b => Sys2Proof.Machine.execFmin c d a b s
  | .fmax c d a b => Sys2Proof.Machine.execFmax c d a b s
  | .fexp2 c d a b => Sys2Proof.Machine.execFexp2 c d a b s
  | .flog2 c d a b => Sys2Proof.Machine.execFlog2 c d a b s
  | .fabs c d a b => Sys2Proof.Machine.execFabs c d a b s
  | .fneg c d a b => Sys2Proof.Machine.execFneg c d a b s
  | .fcvt c r d a => Sys2Proof.Machine.execFcvt c r d a s
  | .ftoi c r d a => Sys2Proof.Machine.execFtoi c r d a s
  | .itof c r d a => Sys2Proof.Machine.execItof c r d a s
  | .itofUn c r d a => Sys2Proof.Machine.execItofUn c r d a s
  | .ivmake c d a b => Sys2Proof.Machine.execIvmake c d a b s
  | .ivlo c d a => Sys2Proof.Machine.execIvlo c d a s
  | .ivhi c d a => Sys2Proof.Machine.execIvhi c d a s
  | .ivmeet c d a b => Sys2Proof.Machine.execIvmeet c d a b s
  | .ivjoin c d a b => Sys2Proof.Machine.execIvjoin c d a b s
  | .ivmid c d a => Sys2Proof.Machine.execIvmid c d a s
  | .ivwid c d a => Sys2Proof.Machine.execIvwid c d a s
  | .ivsplit c d a p => Sys2Proof.Machine.execIvsplit c d a p s
  | .mov c w d a => Sys2Proof.Machine.execMov c w d a s
  | .regFree c w a => Sys2Proof.Machine.execRegFree c w a s
  | .regGrow c a => Sys2Proof.Machine.execRegGrow c a s
  | .movi st d imm => Sys2Proof.Machine.execMovi st d imm s
  | .iaddi st d a imm => Sys2Proof.Machine.execIaddi st d a imm s
  | .andi st d a imm => Sys2Proof.Machine.execAndi st d a imm s
  | .ori st d a imm => Sys2Proof.Machine.execOri st d a imm s
  | .xori st d a imm => Sys2Proof.Machine.execXori st d a imm s
  | .shli st d a n => Sys2Proof.Machine.execShli st d a n s
  | .shri st d a n => Sys2Proof.Machine.execShri st d a n s
  | .sari st d a n => Sys2Proof.Machine.execSari st d a n s
  | .getsr st d imm => Sys2Proof.Machine.execGetsr st d imm s
  | .fma st r d a b c => Sys2Proof.Machine.execFma st r d a b c s
  | .imad st d a b c => Sys2Proof.Machine.execImad st d a b c s
  | .bfx st d a b c => Sys2Proof.Machine.execBfx st d a b c s
  | .bfi st d a b c => Sys2Proof.Machine.execBfi st d a b c s
  | .csel st d a b p => Sys2Proof.Machine.execCsel st d a b p s
  | .ldS8 h d tb x => Sys2Proof.Machine.execLdS8 h d tb x s
  | .ldZ8 h d tb x => Sys2Proof.Machine.execLdZ8 h d tb x s
  | .ldS16 h d tb x => Sys2Proof.Machine.execLdS16 h d tb x s
  | .ldZ16 h d tb x => Sys2Proof.Machine.execLdZ16 h d tb x s
  | .ld32 w h d tb x => Sys2Proof.Machine.execLd32 w h d tb x s
  | .ld64 w h d tb x => Sys2Proof.Machine.execLd64 w h d tb x s
  | .st8 h d tb x => Sys2Proof.Machine.execSt8 h d tb x s
  | .st16 h d tb x => Sys2Proof.Machine.execSt16 h d tb x s
  | .st32 w h d tb x => Sys2Proof.Machine.execSt32 w h d tb x s
  | .st64 w h d tb x => Sys2Proof.Machine.execSt64 w h d tb x s
  | .ldAcq32 w h d tb x => Sys2Proof.Machine.execLdAcq32 w h d tb x s
  | .ldAcq64 w h d tb x => Sys2Proof.Machine.execLdAcq64 w h d tb x s
  | .stRel32 w h d tb x => Sys2Proof.Machine.execStRel32 w h d tb x s
  | .stRel64 w h d tb x => Sys2Proof.Machine.execStRel64 w h d tb x s
  | .ldiv32 h d tb x => Sys2Proof.Machine.execLdiv32 h d tb x s
  | .ldiv64 h d tb x => Sys2Proof.Machine.execLdiv64 h d tb x s
  | .stiv32 h d tb x => Sys2Proof.Machine.execStiv32 h d tb x s
  | .stiv64 h d tb x => Sys2Proof.Machine.execStiv64 h d tb x s
  | .atomAdd h d tb x => Sys2Proof.Machine.execAtomAdd h d tb x s
  | .atomMin h d tb x => Sys2Proof.Machine.execAtomMin h d tb x s
  | .atomMinUn h d tb x => Sys2Proof.Machine.execAtomMinUn h d tb x s
  | .atomMax h d tb x => Sys2Proof.Machine.execAtomMax h d tb x s
  | .atomMaxUn h d tb x => Sys2Proof.Machine.execAtomMaxUn h d tb x s
  | .atomAnd h d tb x => Sys2Proof.Machine.execAtomAnd h d tb x s
  | .atomOr h d tb x => Sys2Proof.Machine.execAtomOr h d tb x s
  | .atomXor h d tb x => Sys2Proof.Machine.execAtomXor h d tb x s
  | .atomXchg h d tb x => Sys2Proof.Machine.execAtomXchg h d tb x s
  | .atomCas h d tb x => Sys2Proof.Machine.execAtomCas h d tb x s
  | .redAdd h d tb x => Sys2Proof.Machine.execRedAdd h d tb x s
  | .redMin h d tb x => Sys2Proof.Machine.execRedMin h d tb x s
  | .redMinUn h d tb x => Sys2Proof.Machine.execRedMinUn h d tb x s
  | .redMax h d tb x => Sys2Proof.Machine.execRedMax h d tb x s
  | .redMaxUn h d tb x => Sys2Proof.Machine.execRedMaxUn h d tb x s
  | .redAnd h d tb x => Sys2Proof.Machine.execRedAnd h d tb x s
  | .redOr h d tb x => Sys2Proof.Machine.execRedOr h d tb x s
  | .redXor h d tb x => Sys2Proof.Machine.execRedXor h d tb x s
  | .pf h tb x => Sys2Proof.Machine.execPf h tb x s
  | .qpush w h d fq => Sys2Proof.Machine.execQpush w h d fq s
  | .qpop w h d fq => Sys2Proof.Machine.execQpop w h d fq s
  | .qpopNb w h d fq p => Sys2Proof.Machine.execQpopNb w h d fq p s
  | .sigin h d tb => Sys2Proof.Machine.execSigin h d tb s
  | .recRd w h d tb x => Sys2Proof.Machine.execRecRd w h d tb x s
  | .recWr w h d tb x => Sys2Proof.Machine.execRecWr w h d tb x s
  | .lcload h d tb x => Sys2Proof.Machine.execLcload h d tb x s
  | .bankMode st n m => Sys2Proof.Machine.execBankMode st n m s
  | .acq c => Sys2Proof.Machine.execAcq c s
  | .rel c => Sys2Proof.Machine.execRel c s
  | .acqrel c => Sys2Proof.Machine.execAcqrel c s
  | .snapOpen d x => Sys2Proof.Machine.execSnapOpen d x s
  | .snapClose => Sys2Proof.Machine.execSnapClose s
  | .txb d x => Sys2Proof.Machine.execTxb d x s
  | .txc p => Sys2Proof.Machine.execTxc p s
  | .txa x => Sys2Proof.Machine.execTxa x s
  | .txchk p => Sys2Proof.Machine.execTxchk p s
  | .vpub d tb => Sys2Proof.Machine.execVpub d tb s
  | .br p c off => Sys2Proof.Machine.execBr p c off s
  | .br3 p offT offF offU => Sys2Proof.Machine.execBr3 p offT offF offU s
  | .call p c off => Sys2Proof.Machine.execCall p c off s
  | .brt c a offs => Sys2Proof.Machine.execBrt c a offs s
  | .jmp c a => Sys2Proof.Machine.execJmp c a s
  | .ret c a => Sys2Proof.Machine.execRet c a s
  | .exitT c => Sys2Proof.Machine.execExitT c s
  | .nop c => Sys2Proof.Machine.execNop c s
  | .reform c => Sys2Proof.Machine.execReform c s
  | .sbarEnrol st m => Sys2Proof.Machine.execSbarEnrol st m s
  | .sbarJoin st => Sys2Proof.Machine.execSbarJoin st s
  | .barArrive st a n => Sys2Proof.Machine.execBarArrive st a n s
  | .barWait st n => Sys2Proof.Machine.execBarWait st n s
  | .barSync st a n => Sys2Proof.Machine.execBarSync st a n s
  | .shflIdx c d a b => Sys2Proof.Machine.execShflIdx c d a b s
  | .shflUp c d a b => Sys2Proof.Machine.execShflUp c d a b s
  | .shflDown c d a b => Sys2Proof.Machine.execShflDown c d a b s
  | .shflXor c d a b => Sys2Proof.Machine.execShflXor c d a b s
  | .voteAll c p x => Sys2Proof.Machine.execVoteAll c p x s
  | .voteAny c p x => Sys2Proof.Machine.execVoteAny c p x s
  | .voteBallot c d x => Sys2Proof.Machine.execVoteBallot c d x s
  | .gredAdd c d a => Sys2Proof.Machine.execGredAdd c d a s
  | .gredMin c d a => Sys2Proof.Machine.execGredMin c d a s
  | .gredMax c d a => Sys2Proof.Machine.execGredMax c d a s
  | .gredAnd c d a => Sys2Proof.Machine.execGredAnd c d a s
  | .gredOr c d a => Sys2Proof.Machine.execGredOr c d a s
  | .gredXor c d a => Sys2Proof.Machine.execGredXor c d a s
  | .bcast c d a b => Sys2Proof.Machine.execBcast c d a b s
  | .tryT c d a b => Sys2Proof.Machine.execTryT c d a b s
  | .tend c => Sys2Proof.Machine.execTend c s
  | .fold c a => Sys2Proof.Machine.execFold c a s
  | .fuel c d a => Sys2Proof.Machine.execFuel c d a s
  | .mma d tile tbA tbB fA fB ovw a b c => Sys2Proof.Machine.execMma d tile tbA tbB fA fB ovw a b c s
  | .mmaSp d tile tbA tbB fA fB sp ovw a b c => Sys2Proof.Machine.execMmaSp d tile tbA tbB fA fB sp ovw a b c s
  | .accSwap st n => Sys2Proof.Machine.execAccSwap st n s
  | .accZero st n => Sys2Proof.Machine.execAccZero st n s
  | .accLd d tile tb fM fT a c => Sys2Proof.Machine.execAccLd d tile tb fM fT a c s
  | .accSt d tile tb fM fT a c => Sys2Proof.Machine.execAccSt d tile tb fM fT a c s
  | .copy d tbD tbS a b c => Sys2Proof.Machine.execCopy d tbD tbS a b c s
  | .slabld d tbS a b c => Sys2Proof.Machine.execSlabld d tbS a b c s
  | .xform d tbD tbS t a b => Sys2Proof.Machine.execXform d tbD tbS t a b s
  | .futTest c d a p => Sys2Proof.Machine.execFutTest c d a p s
  | .futCancel c a => Sys2Proof.Machine.execFutCancel c a s
  | .drain st m => Sys2Proof.Machine.execDrain st m s
  | .jobPush d tb x => Sys2Proof.Machine.execJobPush d tb x s
  | .jobDone c a => Sys2Proof.Machine.execJobDone c a s
  | .yield c => Sys2Proof.Machine.execYield c s
  | .launch d tb x => Sys2Proof.Machine.execLaunch d tb x s
  | .qstat c d a b => Sys2Proof.Machine.execQstat c d a b s
  | .trap st a n => Sys2Proof.Machine.execTrap st a n s
  | .rft c d a => Sys2Proof.Machine.execRft c d a s
  | .halt c a => Sys2Proof.Machine.execHalt c a s
  | .ctxSave h d tb x => Sys2Proof.Machine.execCtxSave h d tb x s
  | .ctxLoad h tb x => Sys2Proof.Machine.execCtxLoad h tb x s
  | .time c d cyc => Sys2Proof.Machine.execTime c d cyc s
  | .setsr st a imm => Sys2Proof.Machine.execSetsr st a imm s
  | .clauseHeader => Sys2Proof.Machine.execClauseHeader s
  | .loadDataReturn op => Sys2Proof.Machine.execLoadDataReturn op s
  | .storeAcknowledge op => Sys2Proof.Machine.execStoreAcknowledge op s
  | .iterativeResult t => Sys2Proof.Machine.execIterativeResult t s
  | .pageWalkComplete die => Sys2Proof.Machine.execPageWalkComplete die s
  | .replicaCopyComplete die page => Sys2Proof.Machine.execReplicaCopyComplete die page s
  | .replicaDropAck die page => Sys2Proof.Machine.execReplicaDropAck die page s
  | .copyInvalidateAck die line => Sys2Proof.Machine.execCopyInvalidateAck die line s
  | .wordRevocation core word => Sys2Proof.Machine.execWordRevocation core word s
  | .sideLogReplay die core => Sys2Proof.Machine.execSideLogReplay die core s
  | .bankModeSwitchComplete die core bank => Sys2Proof.Machine.execBankModeSwitchComplete die core bank s
  | .lockComplete commit => Sys2Proof.Machine.execLockComplete commit s
  | .commitComplete commit => Sys2Proof.Machine.execCommitComplete commit s
  | .collectorRecompute die => Sys2Proof.Machine.execCollectorRecompute die s
  | .versionStoreExhausted op => Sys2Proof.Machine.execVersionStoreExhausted op s
  | .engineAccept die core eng => Sys2Proof.Machine.execEngineAccept die core eng s
  | .engineStart die core eng => Sys2Proof.Machine.execEngineStart die core eng s
  | .engineComplete die core eng slot => Sys2Proof.Machine.execEngineComplete die core eng slot s
  | .arrayAccept die core => Sys2Proof.Machine.execArrayAccept die core s
  | .mmaStart die core => Sys2Proof.Machine.execMmaStart die core s
  | .chunkPromotion die core bad => Sys2Proof.Machine.execChunkPromotion die core bad s
  | .accBankExchange die core tile => Sys2Proof.Machine.execAccBankExchange die core tile s
  | .accMoveComplete die core slot => Sys2Proof.Machine.execAccMoveComplete die core slot s
  | .spawnStart die core team => Sys2Proof.Machine.execSpawnStart die core team s
  | .binTimeout bin => Sys2Proof.Machine.execBinTimeout bin s
  | .softBarrierTimeout group => Sys2Proof.Machine.execSoftBarrierTimeout group s
  | .regGrowGrant die core => Sys2Proof.Machine.execRegGrowGrant die core s
  | .allBlockedSpill die core => Sys2Proof.Machine.execAllBlockedSpill die core s
  | .spillComplete group => Sys2Proof.Machine.execSpillComplete group s
  | .groupFill group => Sys2Proof.Machine.execGroupFill group s
  | .fifoWaitResume die core bank => Sys2Proof.Machine.execFifoWaitResume die core bank s
  | .trialEnd t => Sys2Proof.Machine.execTrialEnd t s
  | .cardFile die quay => Sys2Proof.Machine.execCardFile die quay s
  | .cardDraw die quay => Sys2Proof.Machine.execCardDraw die quay s
  | .tileLineArrival die card => Sys2Proof.Machine.execTileLineArrival die card s
  | .dispatchPick die => Sys2Proof.Machine.execDispatchPick die s
  | .teamPlacement die => Sys2Proof.Machine.execTeamPlacement die s
  | .budgetExhausted team => Sys2Proof.Machine.execBudgetExhausted team s
  | .forcedSliceEnd team => Sys2Proof.Machine.execForcedSliceEnd team s
  | .completionSignal work => Sys2Proof.Machine.execCompletionSignal work s
  | .harbourmasterEvaluation die => Sys2Proof.Machine.execHarbourmasterEvaluation die s
  | .berthHandover die berth => Sys2Proof.Machine.execBerthHandover die berth s
  | .sliceArbitration die => Sys2Proof.Machine.execSliceArbitration die s
  | .contextSaveComplete team => Sys2Proof.Machine.execContextSaveComplete team s
  | .saveRetry die => Sys2Proof.Machine.execSaveRetry die s
  | .replayIntervalEnd team => Sys2Proof.Machine.execReplayIntervalEnd team s
  | .replayStopReached team => Sys2Proof.Machine.execReplayStopReached team s
  | .translationInvalidateComplete tag => Sys2Proof.Machine.execTranslationInvalidateComplete tag s
  | .relockEnd die => Sys2Proof.Machine.execRelockEnd die s
  | .fillComplete group => Sys2Proof.Machine.execFillComplete group s
  | .restoreComplete team => Sys2Proof.Machine.execRestoreComplete team s
  | .accZeroComplete die core tile => Sys2Proof.Machine.execAccZeroComplete die core tile s
  | .elmCtlWrite die core unit v => Sys2Proof.Machine.execElmCtlWrite die core unit v s
  | .uncorrectableCompressionMetadata ctx die line => Sys2Proof.Machine.execUncorrectableCompressionMetadata ctx die line s
  | .uncorrectableData ctx die place => Sys2Proof.Machine.execUncorrectableData ctx die place s
  | .uncorrectableContextState team => Sys2Proof.Machine.execUncorrectableContextState team s
  | .internalMachineCheck die core => Sys2Proof.Machine.execInternalMachineCheck die core s
  | .bindContext tag ctx b => Sys2Proof.Machine.execBindContext tag ctx b s
  | .writeRecord tag ctx tb r => Sys2Proof.Machine.execWriteRecord tag ctx tb r s
  | .translationInvalidate tag ctx base len => Sys2Proof.Machine.execTranslationInvalidate tag ctx base len s
  | .resolvePage tag die index => Sys2Proof.Machine.execResolvePage tag die index s
  | .refusePage tag die index => Sys2Proof.Machine.execRefusePage tag die index s
  | .carveRegion tag c => Sys2Proof.Machine.execCarveRegion tag c s
  | .configureQuay tag c => Sys2Proof.Machine.execConfigureQuay tag c s
  | .preEmptTeam tag team => Sys2Proof.Machine.execPreEmptTeam tag team s
  | .diePowerState tag die p => Sys2Proof.Machine.execDiePowerState tag die p s
  | .tierPowerState tag die tier on => Sys2Proof.Machine.execTierPowerState tag die tier on s
  | .thermalTrip die => Sys2Proof.Machine.execThermalTrip die s
  | .counterOrganisation tag c => Sys2Proof.Machine.execCounterOrganisation tag c s
  | .startPacket tag ctx => Sys2Proof.Machine.execStartPacket tag ctx s
  | .stopPacket tag ctx => Sys2Proof.Machine.execStopPacket tag ctx s
  | .replayMode tag team limit => Sys2Proof.Machine.execReplayMode tag team limit s
  | .replayStop tag team interval count => Sys2Proof.Machine.execReplayStop tag team interval count s
  | .firmwareBlockWrite tag block data => Sys2Proof.Machine.execFirmwareBlockWrite tag block data s
  | .firmwareCommit tag => Sys2Proof.Machine.execFirmwareCommit tag s
  | .setFabricNumber tag num => Sys2Proof.Machine.execSetFabricNumber tag num s
  | .submissionWrite window offset data => Sys2Proof.Machine.execSubmissionWrite window offset data s
  | .hostMemoryWrite pa data => Sys2Proof.Machine.execHostMemoryWrite pa data s
  | .hostMemoryRead pa len => Sys2Proof.Machine.execHostMemoryRead pa len s
  | .hostCompletionTimeout op => Sys2Proof.Machine.execHostCompletionTimeout op s
  | .flitCrcFailure link => Sys2Proof.Machine.execFlitCrcFailure link s
  | .deviceReset firmwareOk => Sys2Proof.Machine.execDeviceReset firmwareOk s
  | .linkRetrained link => Sys2Proof.Machine.execLinkRetrained link s
  | .remoteAccessArrival a => Sys2Proof.Machine.execRemoteAccessArrival a s
  | .forwardedCardArrival die quay ctx card => Sys2Proof.Machine.execForwardedCardArrival die quay ctx card s

end Sys2Proof.Machine
end

