-- ==== Sys2Proof/Machine/Sched.lean ====
section
/-! DEFINITION. What the machine does by itself: the words of a lane cycle's starts, and the device events that are due,
in the model's own order (DESIGN CHOICE, log entry 24). -/

namespace Sys2Proof.Machine

/-! ### Words (R22, R43) -/

/-- What the decoder reads at a thread's place with `n` named registers. -/
def State.decodeWith (s : State) (t n : Nat) : Decoded :=
  let th := s.thread t
  match Cls.ofCode (bits th.pos.hdr 25 3) with
  | none => .trap 0x01
  | some c => decode c n (th.pos.win == 1) th.pos.word (th.pos.words.drop th.pos.win)

/-- What the decoder reads at a thread's place. A word that its group has performed already was decoded before that (R203). -/
def State.decodeAt (s : State) (t : Nat) : Decoded := s.decodeWith t (if (s.thread t).part then 32 else (s.groupOf t).n)

/-- The thread that the next word is of. -/
def State.withCur (s : State) (t : Nat) : State := s.modSched fun c => { c with cur := t }

/-- The decode cause of a word: 0x04 comes before 0x05, and a word that breaks no rule but its named count may meet it by what a source
of it holds, an IV64 named by its odd member (R43, R211). -/
def State.refusal (s : State) (t : Nat) (c : Cause) : Cause :=
  if c = 0x05 then
    match s.decodeWith t 32 with
    | .ok i _ =>
      match exec i (s.withCur t) with
      | .next s' => if s' = (s.withCur t).deliver t 0x04 0 then 0x04 else c
      | _ => c
    | .trap _ => c
  else c

/-- Steps a thread's word: the instruction its decoder reads, or the decode cause (R43). A thread that is held, has
completed the word, or stands at a header does nothing. -/
def State.wordStep (s : State) (t : Nat) : Out :=
  let th := s.thread t
  if (s.threads.find t).isNone || th.needsHeader || th.done || !s.free t then .next s
  else match s.decodeAt t with
    | .ok i _ => exec i (s.withCur t)
    | .trap c => .next (s.deliver t (s.refusal t c) 0)

/-- The words of a bundle's threads that are still to be stepped, in ascending thread index. -/
def State.wordsOf (s : State) (b : Nat) : List Start :=
  let ts := ((s.gangOf b).map fun nb => nb.2.tids).flatten
  ((s.byTig ts).filter fun t => !(s.thread t).done && !(s.thread t).needsHeader).map .word

/-- The threads of a bundle and its gang that are still to step, in ascending thread index. -/
def State.leftOf (s : State) (b : Nat) : List Nat :=
  (s.byTig (((s.gangOf b).map fun nb => nb.2.tids).flatten)).filter fun t => !(s.thread t).done

/-- A thread would go on if its word were stepped now: it is tried on the state as it stands. -/
def State.wouldGo (s : State) (t : Nat) : Bool :=
  match s.wordStep t with
  | .next s' => (s'.thread t).hold.isNone || decide ((s'.thread t).stage ≠ (s.thread t).stage)
  | _ => false

/-- The threads of a bundle would enter the clause at their header if they were started now (R20). -/
def State.wouldEnter (s : State) (ts : List Nat) : Bool :=
  match exec .clauseHeader (s.withCur (ts.headD 0)) with
  | .next s' => ts.all fun t => (s'.thread t).hold.isNone
  | _ => false

/-- A bundle is ready: it is a candidate, and a thread of it, at a header every one, does not wait any longer (R20, R350). -/
def State.ready (s : State) (b : Nat) : Bool :=
  s.candidate b && (match s.leftOf b with
    | [] => false
    | t :: r => if (s.thread t).needsHeader then s.wouldEnter (t :: r) else (t :: r).any fun u => s.free u && s.wouldGo u)

/-- An older candidate at age 15 reserves lanes of this one (R350). -/
def State.reserved (s : State) (b : Nat) : Bool :=
  (s.gangOf b).any fun nb =>
    let ls := s.lanesOf nb.2.tids
    s.bundles.any fun kv => kv.1 != b && kv.2.die == nb.2.die && kv.2.core == nb.2.core && kv.2.slice == nb.2.slice &&
      kv.2.age == 15 && decide (nb.2.age < 15) && ((s.lanesOf kv.2.tids).any fun l => ls.contains l) && s.ready kv.1

/-- A bundle may start now (R350). -/
def State.mayStart (s : State) (b : Nat) : Bool := s.candidate b && s.lanesFree b && s.sliceFree b && !s.reserved b

/-- A ready candidate that is not started is to age at the end of the lane cycle (R350). -/
def State.passOver (s : State) (b : Nat) : State :=
  if s.ready b then (s.gangOf b).foldl (fun s nb => s.modBundle nb.1 fun x => { x with passed := true }) s else s

/-- Puts starts before those that are left. -/
def State.pushIssue (s : State) (xs : List Start) : State := s.modSched fun c => { c with issue := xs ++ c.issue }

/-- Steps one start. -/
def State.startStep (s : State) : Start → Out
  | .word t => s.wordStep t
  | .words b => .next (if s.candidate b then s.pushIssue (s.wordsOf b) else s)
  | .bundle b =>
    if !s.mayStart b then .next (s.passOver b)
    else match s.leftOf b with
      | [] => .next s
      | t :: _ =>
        if (s.thread t).needsHeader then exec .clauseHeader ((s.pushIssue [.words b]).withCur t)
        else .next (s.pushIssue (s.wordsOf b))

/-! ### Events that may be due -/

/-- Accesses, revocations, results and trials. -/
def State.accessEvents (s : State) : List Instr :=
  (s.ops.map fun kv => if kv.2.returns then Instr.loadDataReturn kv.1 else .storeAcknowledge kv.1) ++
  (s.ops.filterMap fun kv => if kv.2.window.isSome then some (Instr.versionStoreExhausted kv.1) else none) ++
  ((s.ops.map fun kv => kv.2.revs.map fun r => Instr.wordRevocation r.1 r.2).flatten) ++
  (s.threads.filterMap fun kv => if kv.2.iter.isEmpty then none else some (Instr.iterativeResult kv.1)) ++
  (s.threads.filterMap fun kv => if kv.2.trial.any fun r => r.ending.isSome then some (Instr.trialEnd kv.1) else none)

/-- The head of a side log has its translation, or is still to ask for it. -/
def State.sideMoves (s : State) (gc : Nat) : Bool :=
  match (s.core gc).side with
  | [] => false
  | e :: _ =>
    decide (s.look (gc / 64) e.ctx (e.line * 256) .write ≠ .miss) ||
      !((s.die (gc / 64)).walks.any fun w => w.ctx == e.ctx && w.region == e.line / 256 && w.waiters.contains (.side (gc % 64)))

/-- Translation, replicas, copies, banks, commits and collectors. -/
def State.memoryEvents (s : State) : List Instr :=
  ((List.range 4).map fun d =>
    (if (s.die d).walks.any fun w => w.posted.isNone then [Instr.pageWalkComplete d] else []) ++
    ((s.die d).replicas.filterMap fun r => if r.complete then none else some (Instr.replicaCopyComplete d r.page)) ++
    (s.homes.collapsing.map fun p => Instr.replicaDropAck d p) ++
    (if (s.die d).lwAt + 1000 ≤ (s.die d).mer then [Instr.collectorRecompute d] else [])).flatten ++
  ((s.homes.purging.map fun l => (s.homes.copies.getD l []).map fun d => Instr.copyInvalidateAck d l).flatten) ++
  ((s.cores.map fun kv =>
    (if s.sideMoves kv.1 then [Instr.sideLogReplay (kv.1 / 64) (kv.1 % 64)] else []) ++
    (kv.2.switches.map fun x => Instr.bankModeSwitchComplete (kv.1 / 64) (kv.1 % 64) x.bank) ++
    ((List.range 32).filterMap fun b =>
      if (s.bank kv.1 b).mode = .fifo then some (Instr.fifoWaitResume (kv.1 / 64) (kv.1 % 64) b) else none)).flatten) ++
  ((s.commits.map fun kv => [Instr.lockComplete kv.1, .commitComplete kv.1]).flatten) ++
  (s.dev.invs.map fun x => Instr.translationInvalidateComplete x.tag)

/-- Engines and the array of each core. -/
def State.engineEvents (s : State) : List Instr :=
  (s.cores.map fun kv =>
    let d := kv.1 / 64
    let c := kv.1 % 64
    let slots (e : Nat) : List Nat := (s.engOps kv.1 e).filterMap fun o => o.2.slot
    if (List.range 4).all fun e => (s.engOps kv.1 e).isEmpty then []
    else
      ((List.range 3).map fun e => [Instr.engineAccept d c e, .engineStart d c e] ++
        (slots e).map fun k => Instr.engineComplete d c e k).flatten ++
      [Instr.arrayAccept d c, .mmaStart d c, .chunkPromotion d c false] ++
      ((List.range 16).map fun t => [Instr.accBankExchange d c t, .accZeroComplete d c t]).flatten ++
      (slots 3).map fun k => Instr.accMoveComplete d c k).flatten

/-- Bins, barriers, growing, spilling and spawning. -/
def State.groupEvents (s : State) : List Instr :=
  (s.bins.map fun kv => Instr.binTimeout kv.1) ++
  ((s.groups.map fun kv =>
    (if kv.2.softA.isEmpty then [] else [Instr.softBarrierTimeout kv.1]) ++
    (if kv.2.spill.isNone then [] else [Instr.spillComplete kv.1, .fillComplete kv.1, .groupFill kv.1])).flatten) ++
  ((s.works.map fun kv => (kv.2.cores.map fun gc =>
    [Instr.regGrowGrant (gc / 64) (gc % 64), .allBlockedSpill (gc / 64) (gc % 64), .spawnStart (gc / 64) (gc % 64) kv.1]).flatten).flatten)

/-- Cards, teams, the dispatcher and the harbourmaster. -/
def State.taskEvents (s : State) : List Instr :=
  ((List.range 4).map fun d =>
    ((s.die d).disp.quays.map fun q => [Instr.cardFile d q.1, .cardDraw d q.1]).flatten ++
    [Instr.dispatchPick d, .teamPlacement d, .saveRetry d, .harbourmasterEvaluation d] ++
    ((s.die d).disp.serving.map fun b => Instr.berthHandover d b.1) ++
    (if (s.die d).relock.isSome then [Instr.relockEnd d] else [])).flatten ++
  (s.cards.filterMap fun kv => if kv.2.st = .held then some (Instr.cardFile kv.2.homeDie kv.2.quay) else none) ++
  (s.cards.filterMap fun kv => if kv.2.st = .drawn then some (Instr.tileLineArrival kv.2.target kv.1) else none) ++
  ((s.works.map fun kv => [Instr.budgetExhausted kv.1, .forcedSliceEnd kv.1, .restoreComplete kv.1, .replayIntervalEnd kv.1,
    .replayStopReached kv.1, .contextSaveComplete kv.1, .completionSignal kv.1]).flatten)

/-- An event that would change the machine. -/
def State.changes (s : State) (i : Instr) : Bool :=
  match exec i s with
  | .next s' => decide (s' ≠ s)
  | _ => false

/-- The first event that is due. -/
def State.due (s : State) : Option Instr :=
  (s.accessEvents ++ s.memoryEvents ++ s.engineEvents ++ s.groupEvents ++ s.taskEvents).find? s.changes

/-- The die whose time stands earliest; ties go to the lowest number. -/
def State.behind (s : State) : Nat :=
  let at_ (d : Nat) : Nat := (s.die d).mer * 288 + (s.die d).rest
  (List.range 4).foldl (fun b d => if at_ d < at_ b then d else b) 0

/-- A step of the machine's own: a start that is left, else an event that is due, else the next lane cycle. -/
def State.ownStep (s : State) : Out :=
  match s.sched.issue with
  | x :: r => (s.modSched fun c => { c with issue := r }).startStep x
  | [] => exec (s.due.getD (.sliceArbitration s.behind)) s

end Sys2Proof.Machine
end

