-- ==== Sys2Proof/Machine/Step.lean ====
section
/-! DEFINITION. One step of the machine, and the placing of one instruction where the next step fetches it. -/

namespace Sys2Proof.Machine

/-- One step: what the agenda names next, else what the machine does by itself (DESIGN CHOICE, log entry 24). An agenda entry must be an
event. -/
def step (s : State) : Host.Outcome State Fault Refusal :=
  match s.sched.agenda with
  | [] => s.ownStep
  | none :: r => (s.modSched fun c => { c with agenda := r }).ownStep
  | some i :: r =>
    if i.cls.isSome then .fault .malformedAgenda else exec i (s.modSched fun c => { c with agenda := r })

/-- Where withFetchWord places its clause: virtual and near-tier address. -/
def fetchBase : Nat := 0x10000

/-- `s` with a thread, its team and its clause placed on die 0, core 0, so that the next step runs the instruction whose
words are `w`, numbered as the opcode table numbers them (DESIGN CHOICE, log entry 25). -/
def State.withFetchWord (s : State) (nbits w : Nat) : State :=
  let i := s.sched.nextId
  let cls := ((decodeTableWord nbits w).bind Instr.cls).getD .lane
  let w0 : Word32 := BitVec.ofNat 32 w
  let ext := min (extCount cls w0) 14
  let ws := (List.range (ext + 1)).map fun k => (BitVec.ofNat 32 ((w % 2 ^ nbits) >>> (32 * k)) : Word32)
  let hdr : Word32 := BitVec.ofNat 32 ((1 + ext) * 2 ^ 28 + cls.code.toNat * 2 ^ 25 + 0xFFF * 2 ^ 8)
  let th : Thread := { Thread.blank with
    id := ⟨i, i + 1, 0, 0, 0, 0, 0⟩, pos := ⟨fetchBase, 1, hdr, ws, true, true⟩, bundle := i + 3 }
  let k : Kernel := { Kernel.blank with team := 16, group := 16, named := 32 }
  let bytes := ((hdr :: ws).map fun x => leBytes 4 x.toNat).flatten
  { s with
    threads := s.threads.put (i + 2) th
    groups := s.groups.put (i + 1) { Group.blank with work := i, n := 32 }
    bundles := s.bundles.put (i + 3) ⟨i + 1, 0, 0, 0, [i + 2], i + 3, 0, false, 0, 0x2, 0, 0⟩
    works := s.works.put i { Work.blank with card := i + 4, ctx := 1, kernel := k }
    cards := s.cards.put (i + 4) { Card.blank with ctx := 1, kernel := k, st := .running, next := 1, live := [i] }
    ctxs := s.ctxs.put 1 { s.ctx 1 with bound := true }
    homes := { s.homes with mem := s.homes.mem.writeN fetchBase bytes }
    sched := { s.sched with nextId := i + 5, agenda := [], issue := [.word (i + 2)] } }

end Sys2Proof.Machine
end

