-- ==== Sys2Proof/Safety.lean ====
section
/-! DEFINITION. What counts as a safe run, and the terms in which claims speak of a step: what issue alone may change, when
a word runs, and what passing a word does to its thread. -/

namespace Sys2Proof.Machine

/-! ### Runs -/

/-- `s'` is reached from `s` by steps that neither fault nor refuse. -/
inductive Reaches (s : State) : State → Prop where
  | here : Reaches s s
  | step {u v : State} (h : Reaches s u) (e : Machine.step u = .next v) : Reaches s v

/-- A state from which every run goes on: no step of it faults or refuses. -/
def Safe (s : State) : Prop := ∀ u, Reaches s u → ∃ v, Machine.step u = .next v

/-- The agenda holds events only, as every agenda the outside world supplies does (DESIGN CHOICE, log entry 24). -/
def State.agendaOk (s : State) : Bool :=
  s.sched.agenda.all fun x => match x with
    | some i => i.cls.isNone
    | none => true

/-- The memories of the home slices and of the host are in canonical form. -/
def State.memOk (s : State) : Bool := s.homes.mem.wf && s.homes.host.wf

/-! ### What issue alone may change -/

/-- A thread but for the bookkeeping of the bundle it issues with. -/
def Thread.shown (th : Thread) : Thread := { th with done := false, bundle := 0, place := .running }

/-- A core but for the lane cycles until which lanes are taken and beats run. -/
def Core.shown (c : Core) : Core := { c with laneBusy := [], started := [], useful := [], wasted := [] }

/-- A team but for what replay mode logs. -/
def Work.shown (w : Work) : Work := { w with rpl := none }

/-- The states differ in nothing but the bookkeeping of issue: bundles, lanes taken, names given, and replay's counts. -/
structure Still (s s' : State) : Prop where
  threads : ∀ u, (s'.threads.find u).map Thread.shown = (s.threads.find u).map Thread.shown
  cores : ∀ n, (s'.core n).shown = (s.core n).shown
  works : ∀ w, (s'.works.find w).map Work.shown = (s.works.find w).map Work.shown
  groups : s'.groups = s.groups
  bins : s'.bins = s.bins
  cards : s'.cards = s.cards
  ops : s'.ops = s.ops
  commits : s'.commits = s.commits
  dies : s'.dies = s.dies
  homes : s'.homes = s.homes
  ctxs : s'.ctxs = s.ctxs
  dev : s'.dev = s.dev
  agenda : s'.sched.agenda = s.sched.agenda
  issue : s'.sched.issue = s.sched.issue
  cur : s'.sched.cur = s.sched.cur
  draw : s'.sched.draw = s.sched.draw
  tick : s'.sched.tick = s.sched.tick

/-- A thread but for what reading a source may change: sr.xcrc, and whether its word was issued again. -/
def Thread.unread (th : Thread) : Thread := { th with xcrc := 0, retry := 0 }

/-- What reading a source may change (R39, R123, R173, R174, R207, R386): a waiting read of a future is an acquire and sets
sr.xcrc; a result read too early draws a free value, and so does a mismatch, after which the word is issued again; replay mode
logs. Everything else is as before. -/
structure Reads (s s' : State) : Prop where
  threads : ∀ u, (s'.threads.find u).map Thread.unread = (s.threads.find u).map Thread.unread
  cores : ∀ n, { s'.core n with l1 := [] } = { s.core n with l1 := [] }
  works : ∀ w, (s'.works.find w).map Work.shown = (s.works.find w).map Work.shown
  groups : s'.groups = s.groups
  bundles : s'.bundles = s.bundles
  bins : s'.bins = s.bins
  cards : s'.cards = s.cards
  ops : s'.ops = s.ops
  commits : s'.commits = s.commits
  dies : s'.dies = s.dies
  homes : s'.homes = s.homes
  ctxs : s'.ctxs = s.ctxs
  dev : s'.dev = s.dev
  sched : { s'.sched with draw := 0 } = { s.sched with draw := 0 }

/-! ### When a word runs, and what passing it does -/

/-- The conditions under which the current thread runs a word at all: the thread exists; its guard is true or the word is
not guarded (R37); a word that takes deferred causes finds none (R88); and a running candidate may use the word, has been
granted the records it names, has fuel left and is not ending (R316, R317, R319). -/
def State.able (s : State) (ng banned rel : Bool) (recs : List Rec) : Prop :=
  let th := s.thread s.sched.cur
  (s.threads.find s.sched.cur).isSome ∧ (th.pos.g || ng) = true ∧
  (rel = true → th.deferred = [] ∨ (th.trap.cause.toNat / 256) % 2 = 1) ∧
  ∀ r, th.trial = some r → r.ending = none ∧
    (r.susp = false → banned = false ∧ (∀ x ∈ recs, x.val < 64 ∧ r.grant.getLsbD x.val = true) ∧ r.fuel ≠ 0)

/-- The current thread's word, read so far, ends in the ordinary way: it met no mismatch and has not been issued again (R207), and
its team has room in its replay log or is not in replay mode (R386). -/
def State.roomy (s : State) : Prop :=
  (s.thread s.sched.cur).retry = 0 ∧ s.overfull (s.thread s.sched.cur).id.work = false

/-- A running candidate's thread has spent a unit of fuel (R319). -/
def Thread.burn (th : Thread) : Thread :=
  if th.inTrial then { th with trial := th.trial.map fun r => { r with fuel := r.fuel - 1 } } else th

/-- A thread that waits for nothing. -/
def Thread.settle (th : Thread) : Thread := { th.newWord with hold := none }

/-- A thread past a word of `1 + ext` words: a candidate's word costs a unit of fuel (R319). -/
def Thread.past (th : Thread) (ext : Nat) : Thread := (th.burn.advance ext).settle

/-- The current thread passes a word of `1 + ext` words, and nothing else changes but the bookkeeping of issue. -/
def Passes (s s' : State) (ext : Nat) : Prop := Still (s.modThread s.sched.cur fun th => th.past ext) s'

/-- The current thread's word has placed it already, and nothing else changes but the bookkeeping of issue. -/
def Arrives (s s' : State) : Prop := Still (s.modThread s.sched.cur fun th => th.burn.settle) s'

/-- The current thread's registers change. -/
def State.modRegs (s : State) (f : Regs → Regs) : State := s.modThread s.sched.cur fun th => th.modRegs f

/-- The current thread's destination receives entries (R34). -/
def State.gives (s : State) (d : Dst) (es : List Entry) : State := s.modRegs fun r => r.put d es

/-- The lane cycle `L` beats after the current thread's word issues (R39). -/
def State.after (s : State) (L : Nat) : Nat := s.readyAt s.sched.cur L

/-- The entries that an operation will fill: those of an IV64 are known for such (R40, R196). -/
def pendings (tok : Nat) (vs : List (Word64 × Kind)) : List Entry :=
  vs.mapIdx fun j v => Entry.pendK tok j (if v.2 = .iv64 then .iv64 else .empty)

/-- An operation of a thread is in flight to a destination, and to a predicate where it has one; it delivers `L` beats
after it issued (R40, R215, R309). `solo` says that it is an iterative one, of which a thread has one at a time. -/
def State.awaits (s : State) (t : Nat) (solo : Bool) (d : Dst) (p : Option (PReg × Tri)) (vs : List (Word64 × Kind)) (L : Nat) : State :=
  let tok := s.sched.nextId
  let out (r : Regs) : Regs := match p with
    | some x => (r.put d (pendings tok vs)).expect x.1 tok 0
    | none => r.put d (pendings tok vs)
  (s.modSched fun c => { c with nextId := tok + 1 }).modThread t fun th =>
    { th.modRegs out with iter := th.iter ++ [⟨tok, solo, s.readyAt t L, vs, (p.map fun x => [x.2]).getD []⟩] }

/-- An iterative operation of the current thread is in flight to a destination (R215). -/
def State.iterates (s : State) (d : Dst) (vs : List (Word64 × Kind)) (L : Nat) : State :=
  s.awaits s.sched.cur true d none vs L

/-- The current thread has no iterative operation in flight (R215). -/
def State.idle (s : State) : Prop := ((s.thread s.sched.cur).iter.any (·.solo)) = false

/-- The current thread's word takes a cause, which its work came to in state `s1` (R43, R356, R371). -/
def State.takes (s s1 : State) (c : Cause) (v : Word64 := 0) : State := (s.spent s1 s.sched.cur c).fail s.sched.cur c v

end Sys2Proof.Machine
end

