-- ==== Sys2Proof/WellFormed.lean ====
section
/-! DEFINITION. Well-formed instructions: the terms of `Instr` that have words, at a named count `nr` (R34-R36 and each
instruction's own limits). -/

namespace Sys2Proof

/-- A named group is aligned to its width and lies within the named count (R36). -/
def namedWf (nr : Nat) (r : KReg) (w : Width) : Bool := r.val % w.count == 0 && decide (r.val + w.count ≤ nr)

/-- A source at a width: only named registers are wide (R32, R36). -/
def Src.wf (nr : Nat) (w : Width) : Src → Bool
  | .k r => namedWf nr r w
  | _ => w == .w1

/-- A destination at a width: only named registers are wide (R34, R36). -/
def Dst.wf (nr : Nat) (w : Width) : Dst → Bool
  | .k r => namedWf nr r w
  | _ => w == .w1

/-- try's destination is a named quad (R328). -/
def quadWf (nr : Nat) : Dst → Bool
  | .k r => namedWf nr r .w4
  | _ => false

/-- An enrolment threshold is 1 to 64 (R307). -/
def SbarMode.wf : SbarMode → Bool
  | .enrolSet h => decide (1 ≤ h.toNat) && decide (h.toNat ≤ 64)
  | _ => true

/-- An instruction that has words in a group of named count `nr`. A device event has none, and no limits. -/
def Instr.wf (nr : Nat) : Instr → Bool
  | .iadd _ d a b => d.wf nr .w1 && a.wf nr .w1 && b.wf nr .w1
  | .isub _ d a b => d.wf nr .w1 && a.wf nr .w1 && b.wf nr .w1
  | .imul _ d a b => d.wf nr .w1 && a.wf nr .w1 && b.wf nr .w1
  | .imulhi _ d a b => d.wf nr .w1 && a.wf nr .w1 && b.wf nr .w1
  | .imulhiUn _ d a b => d.wf nr .w1 && a.wf nr .w1 && b.wf nr .w1
  | .idiv _ d a b => d.wf nr .w1 && a.wf nr .w1 && b.wf nr .w1
  | .idivUn _ d a b => d.wf nr .w1 && a.wf nr .w1 && b.wf nr .w1
  | .irem _ d a b => d.wf nr .w1 && a.wf nr .w1 && b.wf nr .w1
  | .iremUn _ d a b => d.wf nr .w1 && a.wf nr .w1 && b.wf nr .w1
  | .imin _ d a b => d.wf nr .w1 && a.wf nr .w1 && b.wf nr .w1
  | .iminUn _ d a b => d.wf nr .w1 && a.wf nr .w1 && b.wf nr .w1
  | .imax _ d a b => d.wf nr .w1 && a.wf nr .w1 && b.wf nr .w1
  | .imaxUn _ d a b => d.wf nr .w1 && a.wf nr .w1 && b.wf nr .w1
  | .iabs _ d a => d.wf nr .w1 && a.wf nr .w1
  | .ineg _ d a => d.wf nr .w1 && a.wf nr .w1
  | .andB _ d a b => d.wf nr .w1 && a.wf nr .w1 && b.wf nr .w1
  | .orB _ d a b => d.wf nr .w1 && a.wf nr .w1 && b.wf nr .w1
  | .xorB _ d a b => d.wf nr .w1 && a.wf nr .w1 && b.wf nr .w1
  | .notB _ d a => d.wf nr .w1 && a.wf nr .w1
  | .shl _ d a b => d.wf nr .w1 && a.wf nr .w1 && b.wf nr .w1
  | .shr _ d a b => d.wf nr .w1 && a.wf nr .w1 && b.wf nr .w1
  | .sar _ d a b => d.wf nr .w1 && a.wf nr .w1 && b.wf nr .w1
  | .rotl _ d a b => d.wf nr .w1 && a.wf nr .w1 && b.wf nr .w1
  | .popc _ d a => d.wf nr .w1 && a.wf nr .w1
  | .clz _ d a => d.wf nr .w1 && a.wf nr .w1
  | .brev _ d a => d.wf nr .w1 && a.wf nr .w1
  | .icmpEq _ _ a b => a.wf nr .w1 && b.wf nr .w1
  | .icmpNe _ _ a b => a.wf nr .w1 && b.wf nr .w1
  | .icmpLt _ _ a b => a.wf nr .w1 && b.wf nr .w1
  | .icmpLe _ _ a b => a.wf nr .w1 && b.wf nr .w1
  | .icmpLtUn _ _ a b => a.wf nr .w1 && b.wf nr .w1
  | .icmpLeUn _ _ a b => a.wf nr .w1 && b.wf nr .w1
  | .fcmpEq _ _ a b => a.wf nr .w1 && b.wf nr .w1
  | .fcmpNe _ _ a b => a.wf nr .w1 && b.wf nr .w1
  | .fcmpLt _ _ a b => a.wf nr .w1 && b.wf nr .w1
  | .fcmpLe _ _ a b => a.wf nr .w1 && b.wf nr .w1
  | .pand _ _ _ _ => true
  | .por _ _ _ _ => true
  | .pxor _ _ _ _ => true
  | .pnot _ _ _ => true
  | .fadd _ _ d a b => d.wf nr .w1 && a.wf nr .w1 && b.wf nr .w1
  | .fsub _ _ d a b => d.wf nr .w1 && a.wf nr .w1 && b.wf nr .w1
  | .fmul _ _ d a b => d.wf nr .w1 && a.wf nr .w1 && b.wf nr .w1
  | .fdiv _ _ d a b => d.wf nr .w1 && a.wf nr .w1 && b.wf nr .w1
  | .fsqrt _ _ d a b => d.wf nr .w1 && a.wf nr .w1 && b.wf nr .w1
  | .frcp _ _ d a b => d.wf nr .w1 && a.wf nr .w1 && b.wf nr .w1
  | .fmin _ d a b => d.wf nr .w1 && a.wf nr .w1 && b.wf nr .w1
  | .fmax _ d a b => d.wf nr .w1 && a.wf nr .w1 && b.wf nr .w1
  | .fexp2 _ d a b => d.wf nr .w1 && a.wf nr .w1 && b.wf nr .w1
  | .flog2 _ d a b => d.wf nr .w1 && a.wf nr .w1 && b.wf nr .w1
  | .fabs _ d a b => d.wf nr .w1 && a.wf nr .w1 && b.wf nr .w1
  | .fneg _ d a b => d.wf nr .w1 && a.wf nr .w1 && b.wf nr .w1
  | .fcvt _ _ d a => d.wf nr .w1 && a.wf nr .w1
  | .ftoi _ _ d a => d.wf nr .w1 && a.wf nr .w1
  | .itof _ _ d a => d.wf nr .w1 && a.wf nr .w1
  | .itofUn _ _ d a => d.wf nr .w1 && a.wf nr .w1
  | .ivmake _ d a b => d.wf nr .w1 && a.wf nr .w1 && b.wf nr .w1
  | .ivlo _ d a => d.wf nr .w1 && a.wf nr .w1
  | .ivhi _ d a => d.wf nr .w1 && a.wf nr .w1
  | .ivmeet _ d a b => d.wf nr .w1 && a.wf nr .w1 && b.wf nr .w1
  | .ivjoin _ d a b => d.wf nr .w1 && a.wf nr .w1 && b.wf nr .w1
  | .ivmid _ d a => d.wf nr .w1 && a.wf nr .w1
  | .ivwid _ d a => d.wf nr .w1 && a.wf nr .w1
  | .ivsplit _ d a _ => d.wf nr .w1 && a.wf nr .w1
  | .mov _ w d a => d.wf nr w && a.wf nr w
  | .regFree _ w a => namedWf nr a w
  | .regGrow _ a => a.wf nr .w1
  | .movi _ d _ => d.wf nr .w1
  | .iaddi _ d a _ => d.wf nr .w1 && a.wf nr .w1
  | .andi _ d a _ => d.wf nr .w1 && a.wf nr .w1
  | .ori _ d a _ => d.wf nr .w1 && a.wf nr .w1
  | .xori _ d a _ => d.wf nr .w1 && a.wf nr .w1
  | .shli _ d a _ => d.wf nr .w1 && a.wf nr .w1
  | .shri _ d a _ => d.wf nr .w1 && a.wf nr .w1
  | .sari _ d a _ => d.wf nr .w1 && a.wf nr .w1
  | .getsr _ d i => d.wf nr .w1 && (sregAccess i.toNat).isSome
  | .fma _ _ d a b c => d.wf nr .w1 && a.wf nr .w1 && b.wf nr .w1 && c.wf nr .w1
  | .imad _ d a b c => d.wf nr .w1 && a.wf nr .w1 && b.wf nr .w1 && c.wf nr .w1
  | .bfx _ d a b c => d.wf nr .w1 && a.wf nr .w1 && b.wf nr .w1 && c.wf nr .w1
  | .bfi _ d a b c => d.wf nr .w1 && a.wf nr .w1 && b.wf nr .w1 && c.wf nr .w1
  | .csel _ d a b _ => d.wf nr .w1 && a.wf nr .w1 && b.wf nr .w1
  | .ldS8 _ d _ x => d.wf nr .w1 && x.wf nr .w1
  | .ldZ8 _ d _ x => d.wf nr .w1 && x.wf nr .w1
  | .ldS16 _ d _ x => d.wf nr .w1 && x.wf nr .w1
  | .ldZ16 _ d _ x => d.wf nr .w1 && x.wf nr .w1
  | .ld32 w _ d _ x => d.wf nr w && x.wf nr .w1
  | .ld64 w _ d _ x => d.wf nr w && x.wf nr .w1
  | .st8 _ d _ x => d.wf nr .w1 && x.wf nr .w1
  | .st16 _ d _ x => d.wf nr .w1 && x.wf nr .w1
  | .st32 w _ d _ x => d.wf nr w && x.wf nr .w1
  | .st64 w _ d _ x => d.wf nr w && x.wf nr .w1
  | .ldAcq32 w _ d _ x => [Width.w1, Width.w2].contains w && d.wf nr w && x.wf nr .w1
  | .ldAcq64 w _ d _ x => [Width.w1, Width.w2].contains w && d.wf nr w && x.wf nr .w1
  | .stRel32 w _ d _ x => [Width.w1, Width.w2].contains w && d.wf nr w && x.wf nr .w1
  | .stRel64 w _ d _ x => [Width.w1, Width.w2].contains w && d.wf nr w && x.wf nr .w1
  | .ldiv32 _ d _ x => d.wf nr .w1 && x.wf nr .w1
  | .ldiv64 _ d _ x => d.wf nr .w2 && x.wf nr .w1
  | .stiv32 _ d _ x => d.wf nr .w1 && x.wf nr .w1
  | .stiv64 _ d _ x => namedWf nr d .w2 && x.wf nr .w1
  | .atomAdd _ d _ x => d.wf nr .w1 && x.wf nr .w1
  | .atomMin _ d _ x => d.wf nr .w1 && x.wf nr .w1
  | .atomMinUn _ d _ x => d.wf nr .w1 && x.wf nr .w1
  | .atomMax _ d _ x => d.wf nr .w1 && x.wf nr .w1
  | .atomMaxUn _ d _ x => d.wf nr .w1 && x.wf nr .w1
  | .atomAnd _ d _ x => d.wf nr .w1 && x.wf nr .w1
  | .atomOr _ d _ x => d.wf nr .w1 && x.wf nr .w1
  | .atomXor _ d _ x => d.wf nr .w1 && x.wf nr .w1
  | .atomXchg _ d _ x => d.wf nr .w1 && x.wf nr .w1
  | .atomCas _ d _ x => namedWf nr d .w2 && x.wf nr .w1
  | .redAdd _ d _ x => d.wf nr .w1 && x.wf nr .w1
  | .redMin _ d _ x => d.wf nr .w1 && x.wf nr .w1
  | .redMinUn _ d _ x => d.wf nr .w1 && x.wf nr .w1
  | .redMax _ d _ x => d.wf nr .w1 && x.wf nr .w1
  | .redMaxUn _ d _ x => d.wf nr .w1 && x.wf nr .w1
  | .redAnd _ d _ x => d.wf nr .w1 && x.wf nr .w1
  | .redOr _ d _ x => d.wf nr .w1 && x.wf nr .w1
  | .redXor _ d _ x => d.wf nr .w1 && x.wf nr .w1
  | .pf _ _ x => x.wf nr .w1
  | .qpush w _ d _ => d.wf nr w
  | .qpop w _ d _ => d.wf nr w
  | .qpopNb w _ d _ _ => d.wf nr w
  | .sigin _ d _ => namedWf nr d .w2
  | .recRd w _ d _ x => d.wf nr w && x.wf nr .w1
  | .recWr w _ d _ x => d.wf nr w && x.wf nr .w1
  | .lcload _ d _ x => d.wf nr .w1 && x.wf nr .w1
  | .bankMode _ _ _ => true
  | .acq _ => true
  | .rel _ => true
  | .acqrel _ => true
  | .snapOpen d x => d.wf nr .w1 && x.wf nr .w1
  | .snapClose => true
  | .txb d x => d.wf nr .w1 && x.wf nr .w1
  | .txc _ => true
  | .txa x => x.wf nr .w1
  | .txchk _ => true
  | .vpub d _ => d.wf nr .w1
  | .br p c _ => (c != .always || p == 0)
  | .br3 _ _ _ _ => true
  | .call p c _ => (c != .always || p == 0)
  | .brt _ a offs => a.wf nr .w1 && decide (1 ≤ offs.length) && decide (offs.length + a.lits.length ≤ 14)
  | .jmp _ a => a.wf nr .w1
  | .ret _ a => a.wf nr .w1
  | .exitT _ => true
  | .nop _ => true
  | .reform _ => true
  | .sbarEnrol _ m => m.wf
  | .sbarJoin _ => true
  | .barArrive _ a _ => a.wf nr .w1
  | .barWait _ _ => true
  | .barSync _ a _ => a.wf nr .w1
  | .shflIdx _ d a b => d.wf nr .w1 && a.wf nr .w1 && b.wf nr .w1
  | .shflUp _ d a b => d.wf nr .w1 && a.wf nr .w1 && b.wf nr .w1
  | .shflDown _ d a b => d.wf nr .w1 && a.wf nr .w1 && b.wf nr .w1
  | .shflXor _ d a b => d.wf nr .w1 && a.wf nr .w1 && b.wf nr .w1
  | .voteAll _ _ _ => true
  | .voteAny _ _ _ => true
  | .voteBallot _ d _ => d.wf nr .w1
  | .gredAdd _ d a => d.wf nr .w1 && a.wf nr .w1
  | .gredMin _ d a => d.wf nr .w1 && a.wf nr .w1
  | .gredMax _ d a => d.wf nr .w1 && a.wf nr .w1
  | .gredAnd _ d a => d.wf nr .w1 && a.wf nr .w1
  | .gredOr _ d a => d.wf nr .w1 && a.wf nr .w1
  | .gredXor _ d a => d.wf nr .w1 && a.wf nr .w1
  | .bcast _ d a b => d.wf nr .w1 && a.wf nr .w1 && b.wf nr .w1
  | .tryT _ d a b => quadWf nr d && a.wf nr .w1 && b.wf nr .w1
  | .tend _ => true
  | .fold _ a => a.wf nr .w1
  | .fuel _ d a => d.wf nr .w1 && a.wf nr .w1
  | .mma d _ _ _ _ _ _ a b c => d.wf nr .w1 && a.wf nr .w1 && b.wf nr .w1 && c.wf nr .w1
  | .mmaSp d _ _ _ _ _ _ _ a b c => d.wf nr .w1 && a.wf nr .w1 && b.wf nr .w1 && c.wf nr .w1
  | .accSwap _ _ => true
  | .accZero _ _ => true
  | .accLd d _ _ _ _ a c => d.wf nr .w1 && a.wf nr .w1 && c.wf nr .w1
  | .accSt d _ _ _ _ a c => d.wf nr .w1 && a.wf nr .w1 && c.wf nr .w1
  | .copy d _ _ a b c => d.wf nr .w1 && a.wf nr .w1 && b.wf nr .w1 && c.wf nr .w1
  | .slabld d _ a b c => d.wf nr .w1 && a.wf nr .w1 && b.wf nr .w1 && c.wf nr .w1
  | .xform d _ _ _ a b => d.wf nr .w1 && a.wf nr .w1 && b.wf nr .w1
  | .futTest _ d a _ => d.wf nr .w1 && a.wf nr .w1
  | .futCancel _ a => a.wf nr .w1
  | .drain _ _ => true
  | .jobPush d _ x => d.wf nr .w1 && x.wf nr .w1
  | .jobDone _ a => a.wf nr .w1
  | .yield _ => true
  | .launch d _ x => d.wf nr .w1 && x.wf nr .w1
  | .qstat _ d a b => d.wf nr .w1 && a.wf nr .w1 && b.wf nr .w1
  | .trap _ a _ => a.wf nr .w1
  | .rft _ d a => d.wf nr .w1 && a.wf nr .w1
  | .halt _ a => a.wf nr .w1
  | .ctxSave _ d _ x => d.wf nr .w1 && x.wf nr .w1
  | .ctxLoad _ _ x => x.wf nr .w1
  | .time _ d _ => d.wf nr .w1
  | .setsr _ a i => a.wf nr .w1 && sregAccess i.toNat == some true
  | .clauseHeader => true
  | .loadDataReturn _ => true
  | .storeAcknowledge _ => true
  | .iterativeResult _ => true
  | .pageWalkComplete _ => true
  | .replicaCopyComplete _ _ => true
  | .replicaDropAck _ _ => true
  | .copyInvalidateAck _ _ => true
  | .wordRevocation _ _ => true
  | .sideLogReplay _ _ => true
  | .bankModeSwitchComplete _ _ _ => true
  | .lockComplete _ => true
  | .commitComplete _ => true
  | .collectorRecompute _ => true
  | .versionStoreExhausted _ => true
  | .engineAccept _ _ _ => true
  | .engineStart _ _ _ => true
  | .engineComplete _ _ _ _ => true
  | .arrayAccept _ _ => true
  | .mmaStart _ _ => true
  | .chunkPromotion _ _ _ => true
  | .accBankExchange _ _ _ => true
  | .accMoveComplete _ _ _ => true
  | .spawnStart _ _ _ => true
  | .binTimeout _ => true
  | .softBarrierTimeout _ => true
  | .regGrowGrant _ _ => true
  | .allBlockedSpill _ _ => true
  | .spillComplete _ => true
  | .groupFill _ => true
  | .fifoWaitResume _ _ _ => true
  | .trialEnd _ => true
  | .cardFile _ _ => true
  | .cardDraw _ _ => true
  | .tileLineArrival _ _ => true
  | .dispatchPick _ => true
  | .teamPlacement _ => true
  | .budgetExhausted _ => true
  | .forcedSliceEnd _ => true
  | .completionSignal _ => true
  | .harbourmasterEvaluation _ => true
  | .berthHandover _ _ => true
  | .sliceArbitration _ => true
  | .contextSaveComplete _ => true
  | .saveRetry _ => true
  | .replayIntervalEnd _ => true
  | .replayStopReached _ => true
  | .translationInvalidateComplete _ => true
  | .relockEnd _ => true
  | .fillComplete _ => true
  | .restoreComplete _ => true
  | .accZeroComplete _ _ _ => true
  | .elmCtlWrite _ _ _ _ => true
  | .uncorrectableCompressionMetadata _ _ _ => true
  | .uncorrectableData _ _ _ => true
  | .uncorrectableContextState _ => true
  | .internalMachineCheck _ _ => true
  | .bindContext _ _ _ => true
  | .writeRecord _ _ _ _ => true
  | .translationInvalidate _ _ _ _ => true
  | .resolvePage _ _ _ => true
  | .refusePage _ _ _ => true
  | .carveRegion _ _ => true
  | .configureQuay _ _ => true
  | .preEmptTeam _ _ => true
  | .diePowerState _ _ _ => true
  | .tierPowerState _ _ _ _ => true
  | .thermalTrip _ => true
  | .counterOrganisation _ _ => true
  | .startPacket _ _ => true
  | .stopPacket _ _ => true
  | .replayMode _ _ _ => true
  | .replayStop _ _ _ _ => true
  | .firmwareBlockWrite _ _ _ => true
  | .firmwareCommit _ => true
  | .setFabricNumber _ _ => true
  | .submissionWrite _ _ _ => true
  | .hostMemoryWrite _ _ => true
  | .hostMemoryRead _ _ => true
  | .hostCompletionTimeout _ => true
  | .flitCrcFailure _ => true
  | .deviceReset _ => true
  | .linkRetrained _ => true
  | .remoteAccessArrival _ => true
  | .forwardedCardArrival _ _ _ _ => true

end Sys2Proof
end

