-- ==== Sys2Proof/Certificates/Slice0/Obligations.lean ====
section
/-! DEFINITION. The statements for the provers, and the terms they are written in. `exec i s = .next s'` with `Passes`, `Arrives` or
`Still` says the instruction completes and, field by field of the state, that nothing changes but what is named. -/

namespace Sys2Proof.Claims
end Sys2Proof.Claims

open Sys2Proof Sys2Proof.Machine Sys2Proof.Claims

/-! ### Words written out from the layouts of R25-R31 -/

namespace Sys2Proof.Claims

/-- An R word (R25): opcode, dst, a, b, W, S, G. -/
def layR (op : BitVec 8) (d a b : BitVec 6) (w s g : BitVec 2) : Word32 := op ++ d ++ a ++ b ++ w ++ s ++ g
/-- A T word (R26): sub, dst, a, b, c, S. -/
def layT (sub : BitVec 3) (d a b c : BitVec 6) (s : BitVec 2) : Word32 := 0b111#3 ++ sub ++ d ++ a ++ b ++ c ++ s
/-- An I word (R27): opcode, dst, a, imm10, S. -/
def layI (op : BitVec 8) (d a : BitVec 6) (i : BitVec 10) (s : BitVec 2) : Word32 := op ++ d ++ a ++ i ++ s
/-- An M word (R28): opcode, data, record, index, W, H. -/
def layM (op : BitVec 8) (d : BitVec 6) (r : BitVec 8) (x : BitVec 6) (w h : BitVec 2) : Word32 := op ++ d ++ r ++ x ++ w ++ h
/-- A B word (R29): opcode, pred, cond, offset19. -/
def layB (op : BitVec 8) (p : BitVec 3) (c : BitVec 2) (o : BitVec 19) : Word32 := op ++ p ++ c ++ o
/-- E0 (R30): opcode, dst, a, b, c. -/
def layE (op : BitVec 8) (d a b c : BitVec 6) : Word32 := op ++ d ++ a ++ b ++ c
/-- E1 (R30): rec1, rec2, tile, fmtA, fmtB, sp, md. -/
def layE1 (r1 r2 : BitVec 8) (t fA fB : BitVec 4) (sp md : BitVec 2) : Word32 := r1 ++ r2 ++ t ++ fA ++ fB ++ sp ++ md
/-- A clause header (R19): count, class, gpred, gcond, ldwait, stwait, enwait, eight zeros. -/
def layHdr (n : BitVec 4) (c p : BitVec 3) (g : BitVec 2) (l s e : BitVec 4) : Word32 := n ++ c ++ p ++ g ++ l ++ s ++ e ++ 0#8

end Sys2Proof.Claims

/-- Words laid out by hand from the encodings of the spec decode to the instructions they stand for, one or more of each class; and
words that break one rule of R43 give its cause. A check on a few words only. -/
def Obligations.WordsDecodedRight : Prop :=
  decode .lane 32 true (layR 0x00 19 0 56 0 1 0) [0xFFFFFFFE] = .ok (.iadd ⟨.s1, false⟩ (.k 3) (.q 0) (.lit 0xFFFFFFFE)) 1 ∧
  decode .lane 32 true (layR 0x22 0b101000 16 57 0 0 1) [] = .ok (.icmpLt ⟨.s0, true⟩ 5 (.k 0) (.g 0)) 0 ∧
  decode .lane 32 true (layR 0x4E 0 15 48 0 3 0) [] = .ok (.fdiv ⟨.s4, false⟩ .ru .q (.q 15) .zero) 0 ∧
  decode .lane 32 true (layR 0x78 24 28 48 2 0 0) [] = .ok (.mov ⟨.s0, false⟩ .w4 (.k 8) (.k 12)) 0 ∧
  decode .lane 32 true (layI 0x80 20 48 0x3FF 2) [] = .ok (.movi .s2 (.k 4) 0x3FF) 0 ∧
  decode .lane 32 true (layT 7 0 16 17 0b011000 0) [] = .ok (.csel .s0 .q (.k 0) (.k 1) 3) 0 ∧
  decode .memory 32 true (layM 0x04 20 7 50 2 1) [] = .ok (.ld32 .w4 .evictFirst (.k 4) 7 .tig) 0 ∧
  decode .memory 32 true (layM 0x29 18 200 0 1 0) [] = .ok (.atomCas .normal 2 200 (.q 0)) 0 ∧
  decode .memory 32 true (layM 0x43 16 0b00010001 0b001010 0 0) [] = .trap 0x06 ∧
  decode .memory 32 true (layM 0x43 16 0b00010001 0b101000 0 0) [] = .ok (.qpopNb .w1 .normal (.k 0) 17 5) 0 ∧
  decode .control 32 true (layB 0x00 2 1 0x7FFFF) [] = .ok (.br 2 .t 0x7FFFF) 0 ∧
  decode .control 32 true (layR 0x05 48 0 48 0 0 0) [] = .ok (.ret ⟨.s0, false⟩ (.q 0)) 0 ∧
  decode .matrix 32 true (layE 0x00 16 17 18 19) [layE1 4 5 6 9 9 0 1] =
    .ok (.mma (.k 0) 6 4 5 9 9 true (.k 1) (.k 2) (.k 3)) 1 ∧
  decode .copy 32 true (layR 0x10 16 17 0b001000 0 0 0) [] = .ok (.futTest ⟨.s0, false⟩ (.k 0) (.k 1) 1) 0 ∧
  decode .task 32 true (layM 0x00 16 64 48 0 0) [] = .ok (.jobPush (.k 0) 64 .zero) 0 ∧
  decode .system 32 true (layI 0x00 48 48 9 0) [] = .ok (.trap .s0 .zero 9) 0 ∧
  decodeHeader (layHdr 5 1 2 1 15 0 3) = some ⟨5, .memory, 2, .t, 15, 0, 3⟩ ∧
  decodeHeader (layHdr 0 1 2 1 15 0 3) = none ∧ decodeHeader (layHdr 5 7 2 1 15 0 3) = none ∧
  decodeHeader (layHdr 5 1 2 0 15 0 3) = none ∧ decodeHeader (layHdr 5 1 2 1 15 0 3 + 1) = none ∧
  decode .lane 32 true (layR 0x0F 19 0 0 0 0 0) [] = .trap 0x02 ∧ decode .lane 32 true (layR 0x00 19 0 0 0 0 2) [] = .trap 0x06 ∧
  decode .lane 32 true (layR 0x00 1 0 0 0 0 0) [] = .trap 0x03 ∧ decode .lane 32 true (layR 0x78 17 28 48 2 0 0) [] = .trap 0x04 ∧
  decode .lane 16 true (layR 0x00 32 0 0 0 0 0) [] = .trap 0x05 ∧ decode .lane 32 true (layR 0x00 19 56 0 0 0 0) [] = .trap 0x07

/-! ### Words and their place -/

namespace Sys2Proof.Claims

/-- A legal clause header (R19): 1 to 15 words, waits of four bits, and p0 named where the guard is always true. -/
def headerLegal (h : Header) : Prop :=
  1 ≤ h.count ∧ h.count ≤ 15 ∧ h.ldwait ≤ 15 ∧ h.stwait ≤ 15 ∧ h.enwait ≤ 15 ∧ (h.gcond = .always → h.gpred = 0)

/-- The word that a thread of `s` reads by its clause's class, and where the decoder is handed it (R22, R43). A word that its group has
performed already was decoded before that, so no named count binds it now (R203). -/
def readsWord (s : State) (t : Nat) (d : Decoded) : Prop :=
  let p := (s.thread t).pos
  ∃ c, Cls.ofCode (bits p.hdr 25 3) = some c ∧ decode c (if (s.thread t).part then 32 else (s.groupOf t).n) (p.win == 1)
    (p.words.getD (p.win - 1) 0) (p.words.drop p.win) = d

/-- Words that their rules place first in their clause (R203, R258, R296). -/
def standsFirst (i : Instr) : Bool :=
  match i with
  | .regGrow _ _ | .shflIdx _ _ _ _ | .shflUp _ _ _ _ | .shflDown _ _ _ _ | .shflXor _ _ _ _ | .voteAll _ _ _ | .voteAny _ _ _
  | .voteBallot _ _ _ | .gredAdd _ _ _ | .gredMin _ _ _ | .gredMax _ _ _ | .gredAnd _ _ _ | .gredOr _ _ _ | .gredXor _ _ _
  | .bcast _ _ _ _ => true
  | i => i.cls == some .matrix

/-- Words that their rules place last in their clause (R235, R306, R307, R328, R351, R375). -/
def standsLast (i : Instr) : Bool :=
  match i with
  | .ivsplit _ _ _ _ | .reform _ | .sbarJoin _ | .tryT _ _ _ _ | .jobDone _ _ | .yield _ | .ctxSave _ _ _ _ | .ctxLoad _ _ _ => true
  | _ => false

/-- The word stands where its rules have it: `first` in its clause, with `more` words after it (R43). -/
def wellPlaced (i : Instr) (first : Bool) (more : List Word32) : Prop :=
  (standsFirst i = true → first = true) ∧ (standsLast i = true → more = [])

/-- The cause of a word that the decoder refuses with `c`: of a word that breaks no rule but its named count, 0x04 where what a source
holds breaks the rule of an IV64 named by its odd member, which comes first (R43, R211). -/
def causeOf (s : State) (t : Nat) (c k : Cause) : Prop :=
  (c ≠ 0x05 → k = c) ∧
  ∀ cls, Cls.ofCode (bits (s.thread t).pos.hdr 25 3) = some cls → c = 0x05 →
    let d := decode cls 32 ((s.thread t).pos.win == 1) ((s.thread t).pos.word) ((s.thread t).pos.words.drop (s.thread t).pos.win)
    ((∀ i e, d ≠ .ok i e) → k = 0x05) ∧
    ∀ i e, d = .ok i e → (exec i (s.withCur t) = .next ((s.withCur t).deliver t 0x04 0) → k = 0x04) ∧
      (exec i (s.withCur t) ≠ .next ((s.withCur t).deliver t 0x04 0) → k = 0x05)

/-- The thread of a start is there, past its header, has not completed the word, and waits for nothing. -/
def startable (s : State) (t : Nat) : Prop :=
  (s.threads.find t).isSome ∧ (s.thread t).needsHeader = false ∧ (s.thread t).done = false ∧ s.free t = true

/-- What holds in every state of the machine: memories in canonical form, an agenda of events. -/
def inv (s : State) : Prop := s.memOk = true ∧ s.agendaOk = true

/-- Words a candidate may not use (R316); the classes of R316's first row are turned away at the header already. -/
def trialBanned (i : Instr) : Bool :=
  match i with
  | .snapOpen _ _ | .snapClose | .txb _ _ | .txc _ | .txa _ | .txchk _ | .vpub _ _ | .qpush _ _ _ _ | .qpop _ _ _ _
  | .qpopNb _ _ _ _ _ | .bankMode _ _ _ | .recWr _ _ _ _ _ | .sigin _ _ _ | .lcload _ _ _ _ | .tryT _ _ _ _ | .exitT _
  | .barArrive _ _ _ | .barWait _ _ | .barSync _ _ _ | .sbarEnrol _ _ | .sbarJoin _ => true
  | i => i.cls == some .matrix || i.cls == some .copy || i.cls == some .task || i.cls == some .system

/-- The record that a candidate's memory word names (R317). -/
def namedRecord (i : Instr) : Option Rec :=
  match i.cls, encode i with
  | some .memory, w :: _ => if fmtOf .memory w = .m ∧ !trialBanned i then some (Sys2Proof.recF w) else none
  | _, _ => none

/-- A word that obeys the clause guard: every word but an R word with G 01 (R37). -/
def obeysGuard (i : Instr) : Bool :=
  match i.cls, encode i with
  | some c, w :: _ => !(fmtOf c w == .r && bits w 0 2 == 1)
  | _, _ => true

/-- The words that take a deferred cause (R88). -/
def takesDeferred (i : Instr) : Prop :=
  match i with
  | .rel _ | .acqrel _ | .stRel32 _ _ _ _ _ | .stRel64 _ _ _ _ _ | .exitT _ | .jobDone _ _ => True
  | _ => False

/-- The word of a group collective in which a thread whose guard is false may still take part (R203, R258). -/
def wholeGroup (i : Instr) : Bool :=
  match i with
  | .regGrow _ _ => true
  | i => i.cls == some .matrix

/-- What becomes of a candidate's word that a check of R401 turns away with `k`: the trial ends with `k`, unless the word's sources
break a rule of R43 first, or are still on their way. -/
def turnedAway (i : Instr) (s : State) (k : Cause) : Prop :=
  let t := s.sched.cur
  ((s.thread t).pos.g = false → obeysGuard i = true → exec i s = .next (s.deliver t k 0)) ∧
  (exec i s = .next (s.deliver t k 0) ∨
    (∃ c v, 0x02 ≤ c.toNat ∧ c.toNat ≤ 0x0A ∧ c ≠ 0x06 ∧ exec i s = .next (s.deliver t c v)) ∨
    ∃ s' l ks, exec i s = .next s' ∧ (s'.thread t).hold = some ⟨l, .token ks⟩ ∧ (s'.thread t).pos = (s.thread t).pos ∧
      (s'.thread t).regs = (s.thread t).regs)

/-- Words without sources that a candidate may not use. -/
def bannedPlain : List Instr :=
  [.exitT ⟨.s0, false⟩, .exitT ⟨.s0, true⟩, .snapClose, .sbarJoin .s0]

/-- The candidate's record is granted (R317). -/
def granted (r : Trial) (i : Instr) : Prop := ∀ x ∈ namedRecord i, x.val < 64 ∧ r.grant.getLsbD x.val = true

end Sys2Proof.Claims

/-- Decoding is exact, both ways: the words of every well-formed instruction decode to it and to nothing else, wherever they stand in a
clause and whatever words follow them, but for the words that their rules place first or last, which take 0x06 elsewhere (R43); and whatever
the decoder reads from any words is well-formed, stands in its place, and has exactly those words; a clause that
ends before a word's extension words gives 0x07 (R23); likewise for headers (R19, R22, R25-R36, R42). -/
def Obligations.DecodeEncode : Prop :=
  (∀ (i : Instr) (nr : Nat) (c : Cls), nr ≤ 32 → i.wf nr = true → i.cls = some c →
    ∃ w ext, encode i = w :: ext ∧ ext.length ≤ 14 ∧ ∀ (first : Bool) (more : List Word32),
      (wellPlaced i first more → decode c nr first w (ext ++ more) = .ok i ext.length) ∧
      (¬ wellPlaced i first more → decode c nr first w (ext ++ more) = .trap 0x06)) ∧
  (∀ (i : Instr) (nr : Nat) (c : Cls) (w : Word32) (ext : List Word32) (n : Nat) (first : Bool), nr ≤ 32 → i.wf nr = true →
    i.cls = some c → encode i = w :: ext → n < ext.length → decode c nr first w (ext.take n) = .trap 0x07) ∧
  (∀ (c : Cls) (nr : Nat) (first : Bool) (w : Word32) (ws : List Word32) (i : Instr) (e : Nat), nr ≤ 32 →
    decode c nr first w ws = .ok i e → i.wf nr = true ∧ i.cls = some c ∧ e ≤ ws.length ∧ encode i = w :: ws.take e ∧
      wellPlaced i first (ws.drop e)) ∧
  (∀ h : Header, headerLegal h → decodeHeader (encodeHeader h) = some h) ∧
  ∀ (w : Word32) (h : Header), decodeHeader w = some h → headerLegal h ∧ encodeHeader h = w

/-- A start runs the word that stands at its thread's place, read by the clause's class; a word the decoder refuses has its cause
delivered, the first in the order of R43 (0x04 for what a source holds comes before 0x05); an event of the agenda runs; otherwise the machine goes on by itself, with the next lane cycle where nothing is due.
The order of starts and events is the model's choice (log entry 24). -/
def Obligations.StepRunsDecoded : Prop :=
  (∀ (s : State) (t : Nat) (r : List Start), s.sched.agenda = [] → s.sched.issue = .word t :: r → startable s t →
    (∀ i e, readsWord s t (.ok i e) → step s = exec i ((s.modSched fun c => { c with issue := r }).withCur t)) ∧
    ∀ c k, readsWord s t (.trap c) → causeOf (s.modSched fun c => { c with issue := r }) t c k →
      step s = .next ((s.modSched fun c => { c with issue := r }).deliver t k 0)) ∧
  (∀ (s : State) (i : Instr) (r : List (Option Instr)), s.sched.agenda = some i :: r →
    (i.cls = none → step s = exec i (s.modSched fun c => { c with agenda := r })) ∧
    (i.cls ≠ none → step s = .fault .malformedAgenda)) ∧
  (∀ (s : State), s.sched.agenda = [] → s.sched.issue = [] →
    let due := s.accessEvents ++ s.memoryEvents ++ s.engineEvents ++ s.groupEvents ++ s.taskEvents
    ((∀ i ∈ due, s.changes i = false) → step s = exec (.sliceArbitration s.behind) s) ∧
    ∀ a i b, due = a ++ i :: b → (∀ j ∈ a, s.changes j = false) → s.changes i = true → step s = exec i s) ∧
  ∀ (s : State) (t : Nat) (r : List Start), s.sched.agenda = [] → s.sched.issue = .word t :: r → s.threads.find t = none →
    step s = .next (s.modSched fun c => { c with issue := r })

/-- Every step keeps the memories in canonical form and the agenda an agenda of events. -/
def Obligations.StepKeepsInvariant : Prop := ∀ s s' : State, inv s → step s = .next s' → inv s'

/-- Every instruction and event answers a next state: none faults, none is refused; and with an agenda of events every run goes on
for ever. -/
def Obligations.EveryRunGoesOn : Prop :=
  (∀ (i : Instr) (s : State), ∃ s', exec i s = .next s') ∧ ∀ s : State, s.agendaOk = true → Safe s

/-- The machine at reset meets the invariant; core banks are as R131 and sr.bank as R134 give; the meridian and lane cycles stand at
0, no context is bound, and nothing is resident, in flight, cached or open. The product, its fuses and the P-state are the model's
choice (log entries 4 and 10), and so are the contents of memory, 0 everywhere (log entry 5), and where the counters start (log entry
12). -/
def Obligations.ResetState : Prop :=
  let s := State.reset
  inv s ∧
  (∀ gc < 256, ∀ i < 32, (s.bank gc i).mode = (if i < 16 then .cache else .scratchpad) ∧ (s.bank gc i).own = none) ∧
  (∀ d < 4, (s.die d).mer = 0 ∧ (s.die d).lc = 0 ∧ (s.die d).tlb = [] ∧ (s.die d).walks = [] ∧ (s.die d).replicas = [] ∧
    (s.die d).store = none ∧ (s.die d).halted = false ∧ (s.die d).gated = false) ∧
  (∀ gc < 256, (s.core gc).l1 = [] ∧ (s.core gc).side = [] ∧ (s.core gc).obs.leaves = Vector.replicate 16 0 ∧
    ∀ e < 4, (s.engine gc e).slots = [] ∧ (s.engine gc e).ops = []) ∧
  (∀ c, (s.ctx c).bound = false ∧ ∀ tb, (s.ctx c).recAt tb = 0) ∧
  s.threads = [] ∧ s.groups = [] ∧ s.works = [] ∧ s.cards = [] ∧ s.ops = [] ∧ s.commits = [] ∧ s.homes.vlines = [] ∧
  (∀ a, s.homes.mem.read a = Memory.unlisted)

/-- A word that its clause guard suppresses passes and has no effect of its own, whatever the instruction (R37, R38), a class-3
word and reg.grow where the guards of the whole group are false (R258, R203); in trial mode it still costs a unit of fuel (R319). A
candidate's word meets the checks of R401 after the decode rules that its sources may break: a banned word ends the trial with 0x67, a
record not granted with 0x68, no fuel with 0x65, and none of them issues. A word that waits for stores takes the thread's first
deferred cause before anything else (R88). -/
def Obligations.GuardsAndTrialChecks : Prop :=
  (∀ (i : Instr) (c : Cls) (w : Word32) (ext : List Word32) (s : State), i.cls = some c → encode i = w :: ext →
    (s.threads.find s.sched.cur).isSome → obeysGuard i = true → (s.thread s.sched.cur).pos.g = false →
    (s.thread s.sched.cur).part = false → (s.thread s.sched.cur).retry = 0 →
    (wholeGroup i = true → ∀ u ∈ s.groupLive (s.thread s.sched.cur).id.group, (s.thread u).pos.g = false) →
    (∀ r, (s.thread s.sched.cur).trial = some r → r.ending = none ∧ (r.susp = false →
      trialBanned i = false ∧ granted r i ∧ r.fuel ≠ 0)) →
    ∃ s', exec i s = .next s' ∧ Passes s s' ext.length) ∧
  (∀ (i : Instr) (s : State) (r : Trial), i.cls ≠ none → i ≠ .clauseHeader → (s.thread s.sched.cur).trial = some r → r.susp = false →
    (trialBanned i = true → turnedAway i s 0x67) ∧ (i ∈ bannedPlain → exec i s = .next (s.deliver s.sched.cur 0x67 0)) ∧
    (trialBanned i = false → ¬ granted r i → turnedAway i s 0x68) ∧
    (trialBanned i = false → granted r i → r.fuel = 0 → turnedAway i s 0x65 ∧
      ((∃ c, i = .nop c) → exec i s = .next (s.deliver s.sched.cur 0x65 0)))) ∧
  ∀ (i : Instr) (s : State) (c : Cause) (v : Word64) (r : List (Cause × Word64)), takesDeferred i →
    (s.thread s.sched.cur).trial = none → ((s.thread s.sched.cur).pos.g = true ∨ obeysGuard i = false) →
    ((s.thread s.sched.cur).trap.cause.toNat / 256) % 2 = 0 → (s.thread s.sched.cur).deferred = (c, v) :: r →
    exec i s = .next ((s.modThread s.sched.cur fun th => { th with deferred := r }).deliver s.sched.cur c v)

/-! ### Causes, operands and addresses -/

namespace Sys2Proof.Claims

/-- A cause goes to the handler: its context has one, the thread is not in it, and the cause is none of those that always go to
the fault quay (R356-R358). -/
def toHandler (s : State) (t : Nat) (c : Cause) : Prop :=
  c ≠ 0x42 ∧ c ≠ 0xA1 ∧ c ≠ 0xA2 ∧ (s.thread t).trap.cause.getLsbD 8 = false ∧ (s.ctx (s.ctxOf t)).trapVec.getLsbD 0 = true

/-- A thread's record of kind 1 (R363); its val is the line's address for 0x28, 0x29 and 0x91. -/
def faultRec (s : State) (t : Nat) (c : Cause) (v : Word64) : FaultRec :=
  let th := s.thread t
  let w := s.work th.id.work
  let val := if c = 0x28 ∨ c = 0x29 ∨ c = 0x91 then BitVec.ofNat 64 (v.toNat / 256 * 256) else v
  ⟨(s.die th.id.die).mer, val, th.pos.pc, th.pos.win, c, 1, w.ctx, w.team, (s.group th.id.group).num, th.id.tig, th.id.die,
    th.id.core, th.id.lane, th.id.slot, th.pos.word⟩

/-- A record as the 64 bytes posted (R363): the value at bytes 48-55, the cause at 40, the kind at 39. Where a copy, a replica, an owner
or a tier that is off stands in the way, the write of them is in flight (R84, R119, R120, R394). -/
def posted (s s' : State) (ctx : Nat) (r : FaultRec) : Prop :=
  ∀ f, (s.ctx ctx).fq = some f →
    let a := f.base + 64 * f.head
    let bs := leBytes 64 r.bits.toNat
    ((s'.ctx ctx).fq = some (if f.head < f.slots then { f with head := f.head + 1 } else { f with lost := f.lost + 1 })) ∧
    s'.homes.mem = (if f.head < f.slots ∧ s.unhindered a 64 = true then s.homes.mem.writeN a bs else s.homes.mem) ∧
    (f.head < f.slots → s.unhindered a 64 = false → ∃ o, s'.ops.find s.sched.nextId = some o ∧ o.tid = 0 ∧ o.act = .store bs 512 ∧
      o.home = .main ∧ o.pieces = linePieces (fun _ => false) a 64 ∧ o.performed = false)

/-- The thread's record is posted, its transaction doomed first (R101, R363). -/
def recorded (s s' : State) (t : Nat) (c : Cause) (v : Word64) : Prop := posted (s.doom t 6) s' (s.ctxOf t) (faultRec s t c v)

/-- The thread that a cause sends to its handler (R358-R360), in bundle `b`. `p` is the place its header stands at, `m` the mode. -/
def handled (s : State) (t : Nat) (c : Cause) (v : Word64) (b : Nat) : Thread :=
  let th := s.thread t
  let m := if 0x10 ≤ c.toNat ∧ c.toNat ≤ 0x1F then 1 else 0
  let a : Nat := if th.inTrial then th.pos.pc else th.pos.pc / 4
  { th with
    pos := Pos.atHeader ((s.ctx (s.ctxOf t)).trapVec.toNat / 4 % 2 ^ 50 * 4)
    trap := ⟨BitVec.ofNat 64 ((if th.pos.win ≠ 0 ∧ th.pos.g = true then 2 ^ 63 else 0) + th.pos.win % 16 * 2 ^ 59 +
        th.pos.ext % 16 * 2 ^ 55 + a % 2 ^ 50 * 4 + m),
      BitVec.ofNat 64 (0x100 + c.toNat), v, th.regs.q, th.regs.p, th.inTrial⟩
    dec := s.decRegs t c
    view := th.view.map fun x => if x.tx ∧ x.doom = 0 then { x with doom := 6 } else x
    trial := th.trial.map fun r => if r.susp then r else { r with susp := true, pc := th.pos.pc }
    place := .running, done := false, hold := none, stage := 0, part := false, xlat := [], checked := none, missed := [], retry := 0,
    bundle := b }

/-- An entry that can be read now (R39, R40). -/
def ripe (s : State) (t : Nat) (e : Entry) : Prop := e.wait = none ∧ e.ready ≤ s.lcOf t

/-- A source code names the entry (R32): queue age, or named register. -/
def names (s : State) (t : Nat) (x : Src) (e : Entry) : Prop :=
  (∃ a, x = .q a ∧ e = (s.thread t).regs.q[a]) ∨ ∃ k, x = .k k ∧ e = (s.thread t).regs.k[k]

/-- What the codes of R32 that name no register read: a number without a kind. -/
def immediate (s : State) (t : Nat) : Src → Option Nat
  | .zero => some 0
  | .lane => some (s.thread t).id.lane
  | .tig => some (s.thread t).id.tig
  | .grp => some (s.groupOf t).num
  | .team => some (s.workOf t).team
  | .fuel => some (if (s.thread t).inTrial then ((s.thread t).trial.map (·.fuel)).getD 0 else 0)
  | .tlo => let d := s.die (s.thread t).id.die; some ((d.mer * 288 + d.rest + s.turn t * cycleLength d.pst) / 288 % 2 ^ 32)
  | .cyc => some (((s.thread t).cyc.toNat + s.turn t) % 2 ^ 32)
  | .lit v => some v.toNat
  | _ => none

/-- The pair partner of a named register (R196). -/
def partner (i : Nat) : Nat := if i % 2 = 0 then i + 1 else i - 1

end Sys2Proof.Claims

/-- Taking a cause (R356-R362). In its handler's context the thread goes on alone at the handler's header 18 lane cycles later, with
the trap registers, the shadow and the decoded fields of R358, its registers as they were, and an open transaction doomed. Where
there is no handler, or the thread is in it (cause 0xA1 then), or the cause is one of 0x42, 0xA1 and 0xA2, a record of kind 1 is
posted and the thread is gone. In trial mode a cause but 0xA0 only ends the trial, with st 1 and the offending offset. -/
def Obligations.TakingACause : Prop :=
  (∀ (s : State) (t : Nat) (c : Cause) (v : Word64), (s.threads.find t).isSome → (s.thread t).inTrial = false ∨ c = 0xA0 →
    toHandler s t c →
    ∃ b, (s.deliver t c v).threads.find t = some (handled s t c v b) ∧
      (s.deliver t c v).bundles.find b = some ⟨(s.thread t).id.group, (s.thread t).id.die, (s.thread t).id.core,
        (s.thread t).id.lane / 4, [t], b, 0, false, s.lcOf t + 18, 0x2, s.lcOf t + 18, 0⟩ ∧
      (s.deliver t c v).homes.mem = s.homes.mem ∧ (s.deliver t c v).ctxs = s.ctxs) ∧
  (∀ (s : State) (t : Nat) (c : Cause) (v : Word64), (s.threads.find t).isSome → (s.thread t).inTrial = false ∨ c = 0xA0 →
    ¬ toHandler s t c →
    let q := c = 0x42 ∨ c = 0xA1 ∨ c = 0xA2
    let h := (s.thread t).trap.cause.getLsbD 8 = true
    (s.deliver t c v).threads.find t = none ∧ (q ∨ ¬ h → recorded s (s.deliver t c v) t c v) ∧
    (¬ q ∧ h → recorded s (s.deliver t c v) t 0xA1 (BitVec.ofNat 64 c.toNat))) ∧
  ∀ (s : State) (t : Nat) (c : Cause) (v : Word64), (s.threads.find t).isSome → (s.thread t).inTrial = true → c ≠ 0xA0 →
    (s.deliver t c v).thread t = { s.thread t with
      trial := (s.thread t).trial.map fun r => { r with ending := some ⟨1, c, (s.thread t).pos.pc + (s.thread t).pos.win⟩ }
      hold := some ⟨0xE, .event⟩, done := false, stage := 0, part := false, xlat := [], checked := none, missed := [], retry := 0 } ∧
    (s.deliver t c v).homes = s.homes ∧ (s.deliver t c v).ctxs = s.ctxs ∧ (s.deliver t c v).bundles = s.bundles

/-- Operand forms. A register source reads its entry (R32, R192, R193); it holds where a result is still to come (R40), faults 0x09 under
sck, and otherwise reads the entry's old content or its new one, free (R39, R40; log entry 3), where the result is too young; EMPTY is
0x43; a wrong residue has the word issued once more, and is 0x42 if it stays (R191, R206, R207; which it is is free, log entry 90).
Special codes and literals read numbers without a kind (R32, R35). p0 reads T and discards writes (R198). A result is pushed, and written
to the named register where one is named; a wide one goes to its group only (R34); a write to half of a pair empties the other half
(R196). -/
def Obligations.OperandForms : Prop :=
  (∀ (s : State) (t : Nat) (rd : Reading) (cp : Bool) (x : Src) (e : Entry), names s t x e →
    let run := (readSrc t rd cp x).run s
    let plain (v : Word64) (k : Kind) : EStateM.Result Stop State Val → State → Prop := fun r u => r = .ok ⟨v, k, residue v, false, 0⟩ u
    let reads (k : Kind) : Prop := k ≠ .empty ∧ k ≠ .iv64 ∧ (k = .fut → cp = true)
    let s1 := s.modSched fun c => { c with draw := c.draw + 1 }
    (ripe s t e → e.kind = .empty → run = .error (.trap 0x43 0) s) ∧
    (ripe s t e → reads e.kind → e.res.toNat = e.val.toNat % 7 → plain e.val e.kind run s) ∧
    (ripe s t e → reads e.kind → e.res.toNat ≠ e.val.toNat % 7 → (s.thread t).retry = 0 →
      (Config.retryMatches s.sched.draw = false → run = .error (.trap 0x42 0) s1) ∧
      (Config.retryMatches s.sched.draw = true → plain e.val e.kind run (s1.modThread t fun th => { th with retry := 1 }))) ∧
    (∀ tok j, e.wait = some (tok, j) → ∃ l, run = .error (.hold ⟨l, .token [tok]⟩) s) ∧
    (e.wait = none → s.lcOf t < e.ready → (s.thread t).sck = true → rd ≠ .pair ∨ e.kind ≠ .iv64 → run = .error (.trap 0x09 0) s) ∧
    (e.wait = none → s.lcOf t < e.ready → (s.thread t).sck = false →
      (Config.earlyNew s.sched.draw = true → reads e.kind → e.res.toNat = e.val.toNat % 7 → plain e.val e.kind run s1) ∧
      (Config.earlyNew s.sched.draw = false → e.old.2 = .empty → run = .error (.trap 0x43 0) s1) ∧
      (Config.earlyNew s.sched.draw = false → reads e.old.2 → plain e.old.1 e.old.2 run s1))) ∧
  (∀ (s : State) (t : Nat) (cp : Bool) (r : KReg), (s.thread t).regs.k[r].kind = .iv64 → ripe s t (s.thread t).regs.k[r] →
    (r.val % 2 = 1 → (readSrc t .pair cp (.k r)).run s = .error (.trap 0x04 0) s) ∧
    ((s.thread t).regs.k[r].res.toNat = (s.thread t).regs.k[r].val.toNat % 7 →
      (readSrc t .single cp (.k r)).run s = .error (.trap 0x2D 0) s)) ∧
  (∀ (s : State) (t : Nat) (rd : Reading) (cp : Bool) (x : Src) (n : Nat), (s.workOf t).rpl = none → immediate s t x = some n →
    ∃ v, (readSrc t rd cp x).run s = .ok v s ∧ v.val = BitVec.ofNat 64 n ∧ v.imm = true) ∧
  (∀ (s : State) (t : Nat) (rd : Reading) (cp : Bool) (i : Fin 7), let c := (s.groupOf t).g[i]
    (c.2 = .empty ∨ c.2 = .fut → (readSrc t rd cp (.g i)).run s = .error (.trap 0x43 0) s) ∧
    (c.2 ≠ .empty → c.2 ≠ .fut → (readSrc t rd cp (.g i)).run s = .ok ⟨c.1, c.2, residue c.1, false, 0⟩ s)) ∧
  (∀ (s : State) (t : Nat), (readPred t 0).run s = .ok .T s) ∧
  (∀ (s : State) (t : Nat) (p : PReg), p ≠ 0 → let c := (s.thread t).regs.p[p]
    let s1 := s.modSched fun x => { x with draw := x.draw + 1 }
    (c.wait = none → c.ready ≤ s.lcOf t → c.par = c.v.parity → (readPred t p).run s = .ok c.v s) ∧
    (c.wait = none → c.ready ≤ s.lcOf t → c.par ≠ c.v.parity → (s.thread t).retry = 0 → Config.retryMatches s.sched.draw = false →
      (readPred t p).run s = .error (.trap 0x42 0) s1) ∧
    (c.wait = none → s.lcOf t < c.ready → (s.thread t).sck = true → (readPred t p).run s = .error (.trap 0x09 0) s) ∧
    (c.wait = none → s.lcOf t < c.ready → (s.thread t).sck = false →
      (readPred t p).run s = .ok (if Config.earlyNew s.sched.draw then c.v else c.old) s1)) ∧
  (∀ (r : Regs) (p : PReg) (c : PCell), (r.setP 0 c) = r ∧ (p ≠ 0 → (r.setP p c).p[p] = c) ∧
    (∀ j : PReg, j ≠ p → (r.setP p c).p[j] = r.p[j]) ∧ (r.setP p c).k = r.k ∧ (r.setP p c).q = r.q) ∧
  (∀ (r : Regs) (e : Entry), r.put .none [e] = r ∧
    (r.put .q [e]).k = r.k ∧ (r.put .q [e]).p = r.p ∧ (r.put .q [e]).q[0] = e.over r.q[15] ∧
    (∀ a : Fin 15, (r.put .q [e]).q[a.val + 1] = r.q[a.val])) ∧
  (∀ (r : Regs) (i : KReg) (e : Entry), (r.put (.k i) [e]).q = (r.put .q [e]).q ∧ (r.put (.k i) [e]).p = r.p ∧
    (r.put (.k i) [e]).k[i] = e.over r.k[i] ∧
    ∀ j : KReg, j ≠ i → (r.put (.k i) [e]).k[j] =
      if j.val = partner i.val ∧ r.k[j].kind = .iv64 then Entry.blank else r.k[j]) ∧
  (∀ (r : Regs) (i : KReg) (es : List Entry), 2 ≤ es.length → i.val % es.length = 0 →
    (r.put (.k i) es).q = r.q ∧ (r.put (.k i) es).p = r.p ∧
    (∀ j : KReg, i.val ≤ j.val → j.val < i.val + es.length →
      (r.put (.k i) es).k[j] = (es.getD (j.val - i.val) Entry.blank).over r.k[j]) ∧
    (es.length % 2 = 0 → ∀ j : KReg, j.val < i.val ∨ i.val + es.length ≤ j.val → (r.put (.k i) es).k[j] = r.k[j]))

/-! ### Records and addresses -/

namespace Sys2Proof.Claims

/-- The physical offset of one logical byte (R143): the 16-byte chunk of its column is moved by the swizzle of its row. -/
def byteAt (r : RecF) (L : Nat) : Nat :=
  let row := if r.rowlen = 0 then 0 else L / r.rowlen
  let col := if r.rowlen = 0 then L else L % r.rowlen
  let k := match r.swz with
    | 1 => row % 4
    | 2 => row % 8
    | 3 => row % 16
    | _ => 0
  row * r.stride + 16 * ((col / 16) ^^^ k) + col % 16

/-- The record of R144's example. -/
def exampleRecord : RecF := Sys2Proof.Machine.recF (BitVec.ofNat 512 (2 ^ 511 + 1 * 2 ^ 372 + 3 * 2 ^ 360 + 2 * 2 ^ 356 + 1024 * 2 ^ 288 + 256 * 2 ^ 256 +
  65536 * 2 ^ 64 + 0x4000000000))

/-- An access of `n` bytes through the example at an index. -/
def exampleAt (i n : Nat) : Except Cause (List (Nat × Nat)) :=
  match (checkPlace 1 exampleRecord .main (i * 2 ^ exampleRecord.usz) n (min n 16)).run State.reset with
  | .ok cs _ => .ok cs
  | .error (.trap c _) _ => .error c
  | .error _ _ => .error 0

end Sys2Proof.Claims

/-- From a record and an index to a place (R140, R142-R144): checks 1 to 3 in their order, then alignment, then bounds; a passing access
is cut into chunks that lie where R143 puts each byte; the swizzle moves bytes within their row only, and no two bytes of a record to one
place. The examples of R71 and R144 come out as the spec says. -/
def Obligations.RecordAddressing : Prop :=
  (∀ (s : State) (t : Nat) (r : RecF) (x : Rights) (sup : Home → Bool) (v : Nat),
    let run := (checkRecord t r x sup v).run s
    let tr (c : Cause) (n : Nat) : EStateM.Result Stop State (Home × ReadAs) := .error (.trap c (BitVec.ofNat 64 n)) s
    (r.valid = false → run = tr 0x21 v) ∧
    (r.valid = true → r.view = 3 → run = tr 0x06 0) ∧
    (r.valid = true → r.view ≠ 3 → s.readAs t r.view = none → run = tr 0x90 v) ∧
    ∀ a, r.valid = true → r.view ≠ 3 → s.readAs t r.view = some a →
      (sup (r.homeOf s.dev.fab) = false → run = tr 0x2C v) ∧
      (sup (r.homeOf s.dev.fab) = true → r.grants x = false → run = tr 0x22 v) ∧
      (sup (r.homeOf s.dev.fab) = true → r.grants x = true → run = .ok (r.homeOf s.dev.fab, a) s)) ∧
  (∀ (s : State) (t : Nat) (r : RecF) (h : Home) (L n : Nat), 0 < n → (n < 16 ∨ n % 16 = 0) →
    let run := (checkPlace t r h L n (min n 16)).run s
    let col := if r.rowlen = 0 then L else L % r.rowlen
    let fits := r.rowlen = 0 ∨ col + n ≤ r.rowlen
    let inExtent := ∀ c ∈ r.chunks L n, c.1 + c.2 ≤ r.extent
    (L % min n 16 ≠ 0 → ∃ v, run = .error (.trap 0x23 v) s) ∧
    (L % min n 16 = 0 → (¬ fits ∨ ¬ inExtent) → ∃ v, run = .error (.trap 0x20 v) s) ∧
    (L % min n 16 = 0 → fits → inExtent →
      (h = .scratch → ∀ c ∈ r.chunks L n, r.base + c.1 + c.2 ≤ s.spSize (s.thread t).gcore (s.thread t).id.work) →
      run = .ok (r.chunks L n) s)) ∧
  (∀ (r : RecF) (L n : Nat), r.valid = true → 0 < n → (n ∣ 16 ∨ n % 16 = 0) → L % min n 16 = 0 →
    (r.rowlen = 0 ∨ L % r.rowlen + n ≤ r.rowlen) →
    ((r.chunks L n).map fun c => (List.range c.2).map (c.1 + ·)).flatten = (List.range n).map fun i => byteAt r (L + i)) ∧
  (∀ (r : RecF) (L L' : Nat), r.valid = true → (byteAt r L = byteAt r L' → L = L') ∧
    (r.rowlen ≠ 0 → L / r.rowlen * r.stride ≤ byteAt r L ∧ byteAt r L < L / r.rowlen * r.stride + r.rowlen)) ∧
  (exampleAt 70 4 = .ok [(1032, 4)] ∧ exampleAt 64 4 = .ok [(1040, 4)] ∧ exampleAt 124 32 = .error 0x20 ∧
    exampleAt 126 32 = .error 0x23 ∧ exampleRecord.valid = true ∧ { exampleRecord with stride := 200 }.valid = false) ∧
  (∀ va < 2 ^ 52, va = vaIndex 0 va * 2 ^ 41 + vaIndex 1 va * 2 ^ 30 + vaIndex 2 va * 2 ^ 21 + vaIndex 3 va * 2 ^ 16 + va % 2 ^ 16) ∧
  (let va := 0x0000012345678 * 4096 + 0x9AB
   vaIndex 0 va = 0 ∧ vaIndex 1 va = 0x48D ∧ vaIndex 2 va = 0x02B ∧ vaIndex 3 va = 7 ∧ va % 65536 = 0x89AB)

/-- Translation of an access (R71-R75, R78-R82): an address beyond 52 bits is refused; the core's cached entry gives its page's place, or
the cause of the right it lacks; the die's cached entry does the same where the core has none, and the core takes it; an address without
an entry, and a write through one that is not yet dirty, wait for a walk, or for one of the core's miss entries; an answer already given
is that cause. A walk reads one entry per level, ends at a leaf, where no entry is valid, or at an entry that is a format error. -/
def Obligations.Translation : Prop :=
  (∀ (s : State) (t va : Nat) (k : Xkind), let th := s.thread t
    let run := (translate t va k).run s
    let ctx := s.ctxOf t
    let l1 := tlbFind (s.core th.gcore).tlb ctx va
    let l2 := tlbFind (s.die th.id.die).tlb ctx va
    let lacks (e : Tlb) : Prop := k.writes = true ∧ e.pte.getLsbD 2 = true ∧ e.pte.getLsbD 5 = false
    let bars (e : Tlb) (c : Cause) : Prop := (k.writes = true ∧ e.pte.getLsbD 2 = false ∧ c = 0x25) ∨ (k = .fetch ∧ e.pte.getLsbD 3 = false ∧ c = 0x26)
    let serves (e : Tlb) : Prop := (k.writes = true → e.pte.getLsbD 2 = true ∧ e.pte.getLsbD 5 = true) ∧ (k = .fetch → e.pte.getLsbD 3 = true)
    let page (e : Tlb) (x : Xlat) : Prop := x.ver = e.pte.getLsbD 35 ∧
      x.pa = tierBase ((e.pte.extractLsb' 42 2).toNat == 1) (e.pte.extractLsb' 40 2).toNat +
        (e.pte.extractLsb' 8 27).toNat * 256 + va % 2 ^ e.shift
    let trap (c : Cause) : Prop := run = .error (.trap c (BitVec.ofNat 64 va)) s
    let s0 := s.lineMiss t (va / 256) 0
    let s1 := s0.lineMiss t (va / 256) 1
    (∀ c, (th.xlat.find? fun x => x.1 == va / 65536) = some (va / 65536, c) → trap c) ∧
    ((th.xlat.find? fun x => x.1 == va / 65536) = none →
      (2 ^ 52 ≤ va → trap 0x24) ∧
      (va < 2 ^ 52 →
        (∀ e, l1 = some e → (∀ c, bars e c → trap c) ∧ (serves e → ∃ x, run = .ok x s ∧ page e x)) ∧
        ((∀ e, l1 = some e → lacks e) →
          (∀ e, l2 = some e → (∀ c, bars e c → trap c) ∧ (serves e → ∃ x, run = .ok x (s0.fillTlb th.gcore ctx va) ∧ page e x)) ∧
          ((∀ e, l2 = some e → lacks e) → ∃ l, run = if s1.missRoom th.gcore ctx (va / 65536)
            then .error (.hold ⟨l, .event⟩) (s1.attachWalk th.id.die ctx va k (.thread t)) else .error (.hold ⟨l, .poll⟩) s1))))) ∧
  (∀ (mem : Memory) (far va level table n : Nat), level ≤ 3 →
    let a := table + 8 * vaIndex level va
    let e : Word64 := BitVec.ofNat 64 (leVal (mem.readN a 8))
    (e.getLsbD 0 = false → walkFrom mem far va (n + 1) level table = .absent) ∧
    (e.getLsbD 0 = true → (pte e).bad level far = true → walkFrom mem far va (n + 1) level table = .bad) ∧
    (e.getLsbD 0 = true → (pte e).bad level far = false → e.getLsbD 1 = true →
      walkFrom mem far va (n + 1) level table = .leaf level e a ∧ 1 ≤ level) ∧
    (e.getLsbD 0 = true → (pte e).bad level far = false → e.getLsbD 1 = false →
      level < 3 ∧ walkFrom mem far va (n + 1) level table = walkFrom mem far va n (level + 1)
        (tierBase ((e.extractLsb' 42 2).toNat == 1) (e.extractLsb' 40 2).toNat + (e.extractLsb' 8 27).toNat * 256)))

/-! ### The lane class -/

namespace Sys2Proof.Claims

/-- Two-source integer rows (R218): the instruction, whether F kinds are read as bits, whether the reading is unsigned,
the latency, and the result. -/
def intRows : List ((RCtl → Dst → Src → Src → Instr) × Bool × Bool × Nat × (∀ w : Nat, BitVec w → BitVec w → BitVec w)) := [
  (.iadd, false, false, 1, fun _ x y => x + y),
  (.isub, false, false, 1, fun _ x y => x - y),
  (.imul, false, false, 2, fun _ x y => x * y),
  (.imulhi, false, false, 2, fun w x y => BitVec.ofInt w (x.toInt * y.toInt / 2 ^ w)),
  (.imulhiUn, false, true, 2, fun w x y => BitVec.ofNat w (x.toNat * y.toNat / 2 ^ w)),
  (.imin, false, false, 1, fun _ x y => if y.slt x then y else x),
  (.iminUn, false, true, 1, fun _ x y => if y.ult x then y else x),
  (.imax, false, false, 1, fun _ x y => if x.slt y then y else x),
  (.imaxUn, false, true, 1, fun _ x y => if x.ult y then y else x),
  (.andB, true, false, 1, fun _ x y => x &&& y),
  (.orB, true, false, 1, fun _ x y => x ||| y),
  (.xorB, true, false, 1, fun _ x y => x ^^^ y)]

/-- One-source integer rows (R218). -/
def unaryRows : List ((RCtl → Dst → Src → Instr) × Bool × Nat × (∀ w : Nat, BitVec w → BitVec w)) := [
  (.iabs, false, 1, fun _ x => if x.slt 0 then -x else x),
  (.ineg, false, 1, fun _ x => -x),
  (.notB, true, 1, fun _ x => ~~~x),
  (.popc, true, 2, fun w x => BitVec.ofNat w ((List.range w).countP x.getLsbD)),
  (.clz, true, 2, fun w x => BitVec.ofNat w (if x = 0 then w else w - 1 - x.toNat.log2)),
  (.brev, true, 2, fun _ x => x.reverse)]

/-- Shift rows by a register count (R220). -/
def shiftRows : List ((RCtl → Dst → Src → Src → Instr) × (∀ w : Nat, BitVec w → Nat → BitVec w)) := [
  (.shl, fun _ x n => x <<< n), (.shr, fun _ x n => x >>> n), (.sar, fun _ x n => x.sshiftRight n),
  (.rotl, fun _ x n => x.rotateLeft n)]

/-- Rows with a ten-bit immediate (R221): whether F kinds are read as bits, and the result. -/
def immRows : List ((Stall → Dst → Src → BitVec 10 → Instr) × Bool × (∀ w : Nat, BitVec w → BitVec 10 → BitVec w)) := [
  (.iaddi, false, fun w x i => x + i.signExtend w),
  (.andi, true, fun w x i => x &&& i.signExtend w),
  (.ori, true, fun w x i => x ||| i.zeroExtend w),
  (.xori, true, fun w x i => x ^^^ i.zeroExtend w)]

/-- Shift rows by an immediate count (R220, R221). -/
def shiftImmRows : List ((Stall → Dst → Src → BitVec 6 → Instr) × (∀ w : Nat, BitVec w → Nat → BitVec w)) := [
  (.shli, fun _ x n => x <<< n), (.shri, fun _ x n => x >>> n), (.sari, fun _ x n => x.sshiftRight n)]

/-- Division rows (R219): whether the reading is unsigned, and the result. -/
def divRows : List ((RCtl → Dst → Src → Src → Instr) × Bool × (∀ w : Nat, BitVec w → BitVec w → BitVec w)) := [
  (.idiv, false, fun _ x y => x.sdiv y), (.idivUn, true, fun _ x y => x / y),
  (.irem, false, fun _ x y => x.srem y), (.iremUn, true, fun _ x y => x % y)]

/-- Integer compares (R223). -/
def icmpRows : List ((RCtl → PReg → Src → Src → Instr) × Bool × (∀ w : Nat, BitVec w → BitVec w → Bool)) := [
  (.icmpEq, false, fun _ x y => x == y), (.icmpNe, false, fun _ x y => x != y),
  (.icmpLt, false, fun _ x y => x.slt y), (.icmpLe, false, fun _ x y => x.sle y),
  (.icmpLtUn, true, fun _ x y => x.ult y), (.icmpLeUn, true, fun _ x y => x.ule y)]

/-- The table of R225: T, U and F are ordered so that pand is the lesser and por the greater. -/
def predRows : List ((RCtl → PReg → PReg → PReg → Instr) × (Tri → Tri → Tri)) := [
  (.pand, fun x y => if x = .F ∨ y = .F then .F else if x = .T ∧ y = .T then .T else .U),
  (.por, fun x y => if x = .T ∨ y = .T then .T else if x = .F ∧ y = .F then .F else .U),
  (.pxor, fun x y => if x = .U ∨ y = .U then .U else if x = y then .F else .T)]

/-- The width of an operation from the sources it counts (R212). -/
def widthOf (vs : List Val) : Nat := if vs.any (·.is64) then 64 else 32

/-- The `w` bits of a source: a 32-bit source of a 64-bit operation is extended by its sign, or by zeros (R212). -/
def srcBits (w : Nat) (un : Bool) (x : Val) : BitVec w :=
  if x.is64 then x.val.setWidth w
  else if un then ((x.val.setWidth 32 : BitVec 32).zeroExtend w) else ((x.val.setWidth 32 : BitVec 32).signExtend w)

/-- A word of `w` bits as a register entry readable from lane cycle `r` (R191, R212). -/
def wordEntry {w : Nat} (v : BitVec w) (r : Nat) : Entry :=
  Entry.mk' (v.setWidth 64) (if w = 64 then .i64 else .i32) r

end Sys2Proof.Claims

/-- Every two-source integer word writes the result of R218 at the width of R212, readable after its latency, and passes; only
its destination and its thread's place change. -/
def Sys2Proof.Claims.integerBinary : Prop :=
  ∀ m ∈ intRows, ∀ (s s1 s2 : State) (c : RCtl) (d : Dst) (a b : Src) (x y : Val),
    s.able c.ng false false [] →
    readInt s.sched.cur m.2.1 a s = .ok x s1 → readInt s.sched.cur m.2.1 b s1 = .ok y s2 → s2.roomy →
    ∃ s', exec (m.1 c d a b) s = .next s' ∧
      Passes (s2.gives d [wordEntry (m.2.2.2.2 (widthOf [x, y]) (srcBits _ m.2.2.1 x) (srcBits _ m.2.2.1 y)) (s2.after m.2.2.2.1)])
        s' (litWords [a, b])

/-- Every one-source integer word writes the result of R218 and passes. -/
def Sys2Proof.Claims.integerUnary : Prop :=
  ∀ m ∈ unaryRows, ∀ (s s1 : State) (c : RCtl) (d : Dst) (a : Src) (x : Val),
    s.able c.ng false false [] → readInt s.sched.cur m.2.1 a s = .ok x s1 → s1.roomy →
    ∃ s', exec (m.1 c d a) s = .next s' ∧
      Passes (s1.gives d [wordEntry (m.2.2.2 (widthOf [x]) (srcBits _ false x)) (s1.after m.2.2.1)]) s' (litWords [a])

/-- The integer words of R218: with two sources, and with one. -/
def Obligations.IntegerWords : Prop := integerBinary ∧ integerUnary

/-- The shift forms take their width from a alone and the whole count of b; the immediate forms have the effect of their R
forms (R220, R221). -/
def Obligations.ShiftsAndImmediates : Prop :=
  (∀ m ∈ shiftRows, ∀ (s s1 s2 : State) (c : RCtl) (d : Dst) (a b : Src) (x n : Val),
    s.able c.ng false false [] →
    readInt s.sched.cur true a s = .ok x s1 → readInt s.sched.cur true b s1 = .ok n s2 → s2.roomy →
    ∃ s', exec (m.1 c d a b) s = .next s' ∧
      Passes (s2.gives d [wordEntry (m.2 (widthOf [x]) (srcBits _ false x) n.val.toNat) (s2.after 1)]) s' (litWords [a, b])) ∧
  (∀ m ∈ immRows, ∀ (s s1 : State) (st : Stall) (d : Dst) (a : Src) (i : BitVec 10) (x : Val),
    s.able false false false [] → readInt s.sched.cur m.2.1 a s = .ok x s1 → s1.roomy →
    ∃ s', exec (m.1 st d a i) s = .next s' ∧
      Passes (s1.gives d [wordEntry (m.2.2 (widthOf [x]) (srcBits _ false x) i) (s1.after 1)]) s' (litWords [a])) ∧
  (∀ m ∈ shiftImmRows, ∀ (s s1 : State) (st : Stall) (d : Dst) (a : Src) (n : BitVec 6) (x : Val),
    s.able false false false [] → readInt s.sched.cur true a s = .ok x s1 → s1.roomy →
    ∃ s', exec (m.1 st d a n) s = .next s' ∧
      Passes (s1.gives d [wordEntry (m.2 (widthOf [x]) (srcBits _ false x) n.toNat) (s1.after 1)]) s' (litWords [a]))

/-- The division forms: a zero divisor takes cause 0x40 and writes nothing; otherwise, with no iterative operation in flight,
the result of R219 is under way to the destination, which is empty until it is delivered (R40, R215). -/
def Sys2Proof.Claims.division : Prop :=
  ∀ m ∈ divRows, ∀ (s s1 s2 : State) (c : RCtl) (d : Dst) (a b : Src) (x y : Val),
    s.able c.ng false false [] →
    readInt s.sched.cur false a s = .ok x s1 → readInt s.sched.cur false b s1 = .ok y s2 → s2.roomy →
    let w := widthOf [x, y]
    (srcBits w m.2.1 y = 0 → exec (m.1 c d a b) s = .next (s.takes s2 0x40)) ∧
    (srcBits w m.2.1 y ≠ 0 → s.idle → ∃ s', exec (m.1 c d a b) s = .next s' ∧
      Passes (s2.iterates d [((m.2.2 w (srcBits w m.2.1 x) (srcBits w m.2.1 y)).setWidth 64, if w = 64 then .i64 else .i32)]
        (if w = 64 then 34 else 18)) s' (litWords [a, b]))

/-- Integer compares write T or F, and predicate words the table of R225, to their predicate and pass; a write to p0 is
discarded. -/
def Sys2Proof.Claims.predicates : Prop :=
  (∀ m ∈ icmpRows, ∀ (s s1 s2 : State) (c : RCtl) (p : PReg) (a b : Src) (x y : Val),
    s.able c.ng false false [] →
    readInt s.sched.cur false a s = .ok x s1 → readInt s.sched.cur false b s1 = .ok y s2 → s2.roomy →
    ∃ s', exec (m.1 c p a b) s = .next s' ∧
      Passes (s2.modRegs fun r => r.tell p
        (if m.2.2 (widthOf [x, y]) (srcBits _ m.2.1 x) (srcBits _ m.2.1 y) then .T else .F) (s2.after 1)) s' (litWords [a, b])) ∧
  (∀ m ∈ predRows, ∀ (s s1 s2 : State) (c : RCtl) (p x y : PReg) (u v : Tri),
    s.able c.ng false false [] →
    readPred s.sched.cur x s = .ok u s1 → readPred s.sched.cur y s1 = .ok v s2 → s2.roomy →
    ∃ s', exec (m.1 c p x y) s = .next s' ∧ Passes (s2.modRegs fun r => r.tell p (m.2 u v) (s2.after 1)) s' 0) ∧
  (∀ (s s1 : State) (c : RCtl) (p x : PReg) (u : Tri),
    s.able c.ng false false [] → readPred s.sched.cur x s = .ok u s1 → s1.roomy →
    ∃ s', exec (.pnot c p x) s = .next s' ∧
      Passes (s1.modRegs fun r => r.tell p (match u with | .T => .F | .F => .T | .U => .U) (s1.after 1)) s' 0) ∧
  (∀ (r : Regs) (p q : PReg) (v : Tri) (n : Nat), (r.tell p v n).k = r.k ∧ (r.tell p v n).q = r.q ∧
    (r.tell p v n).p[q.val] = if q = p ∧ p.val ≠ 0 then ⟨v, n, none, (r.p[p.val]).held, v.parity⟩ else r.p[q.val])

/-- Division, and the words that write predicates. -/
def Obligations.DivisionAndPredicates : Prop := division ∧ predicates

/-- imad takes its width from all three sources, bfx and bfi from a alone (R222). -/
def Obligations.MultiplyAddAndFields : Prop :=
  ∀ (s s1 s2 s3 : State) (st : Stall) (d : Dst) (a b c : Src) (x y z : Val),
    s.able false false false [] →
    (readInt s.sched.cur false a s = .ok x s1 → readInt s.sched.cur false b s1 = .ok y s2 →
      readInt s.sched.cur false c s2 = .ok z s3 → s3.roomy →
      ∃ s', exec (.imad st d a b c) s = .next s' ∧
        Passes (s3.gives d [wordEntry (w := widthOf [x, y, z]) (srcBits _ false x * srcBits _ false y + srcBits _ false z) (s3.after 2)])
          s' (litWords [a, b, c])) ∧
    (readInt s.sched.cur true a s = .ok x s1 → readInt s.sched.cur true b s1 = .ok y s2 →
      readInt s.sched.cur true c s2 = .ok z s3 → s3.roomy →
      let w := widthOf [x]
      let field (pos len : Nat) (i : Nat) : Bool := decide (pos ≤ i) && decide (i < pos + len)
      (∃ (s' : State) (v : BitVec w), exec (.bfx st d a b c) s = .next s' ∧ Passes (s3.gives d [wordEntry v (s3.after 2)]) s' (litWords [a, b, c]) ∧
        ∀ i, v.getLsbD i = (decide (i < min (z.val.toNat % 128) 64) && decide (i < w) &&
          (srcBits w false x).getLsbD (y.val.toNat % 64 + i))) ∧
      (∃ (s' : State) (v : BitVec w), exec (.bfi st d a b c) s = .next s' ∧ Passes (s3.gives d [wordEntry v (s3.after 2)]) s' (litWords [a, b, c]) ∧
        ∀ i, v.getLsbD i = if field (z.val.toNat % 64) (min (z.val.toNat / 256 % 128) 64) i && decide (i < w)
          then (srcBits w false y).getLsbD (i - z.val.toNat % 64) else (srcBits w false x).getLsbD i))
namespace Sys2Proof.Claims

/-- A floating word: its sources, the operand fields that may take literal words, its result on the codes of points, its
outward image of intervals as the codes of its bounds, and its latencies on F32, F64, IV32 and IV64. -/
structure FloatForm where
  instr : Instr
  ng : Bool
  srcs : List Src
  lits : List Src
  point : Num.FFmt → List Nat → Nat
  image : Num.FFmt → List Num.Iv → Option (Nat × Nat)
  lat : Nat × Nat × Nat × Nat

/-- The exact value of the `i`th source's code. -/
def xval (f : Num.FFmt) (xs : List Nat) (i : Nat) : Num.XVal := Num.decodeF f (xs.getD i 0)

/-- The `i`th source interval. -/
def ival (xs : List Num.Iv) (i : Nat) : Num.Iv := xs.getD i Num.Iv.all

/-- The bounds of an exact image, rounded outward. -/
def outward (f : Num.FFmt) (x : Num.Iv) : Option (Nat × Nat) := some (Num.bound f .rd x.lo, Num.bound f .ru x.hi)

/-- The pipelined floating words (R227-R231): one rounding of the exact result on points, the image rounded outward on
intervals. -/
def floatForms (c : RCtl) (st : Stall) (r : Rnd) (d : Dst) (a b e : Src) : List FloatForm :=
  let std := (3, 4, 4, 6)
  [⟨.fadd c r d a b, c.ng, [a, b], [a, b], fun f x => Num.encodeF f r (Num.add r (xval f x 0) (xval f x 1)),
      fun f x => outward f ⟨Num.add .rn (ival x 0).lo (ival x 1).lo, Num.add .rn (ival x 0).hi (ival x 1).hi⟩, std⟩,
   ⟨.fsub c r d a b, c.ng, [a, b], [a, b], fun f x => Num.encodeF f r (Num.add r (xval f x 0) (Num.neg (xval f x 1))),
      fun f x => outward f ⟨Num.add .rn (ival x 0).lo (Num.neg (ival x 1).hi), Num.add .rn (ival x 0).hi (Num.neg (ival x 1).lo)⟩, std⟩,
   ⟨.fmul c r d a b, c.ng, [a, b], [a, b], fun f x => Num.encodeF f r (Num.mul (xval f x 0) (xval f x 1)),
      fun f x => outward f ((ival x 0).mul (ival x 1)), std⟩,
   ⟨.fma st r d a b e, false, [a, b, e], [a, b, e],
      fun f x => Num.encodeF f r (Num.add r (Num.mul (xval f x 0) (xval f x 1)) (xval f x 2)),
      fun f x => outward f (Num.Iv.fma (ival x 0) (ival x 1) (ival x 2)), (3, 4, 6, 6)⟩,
   ⟨.fmin c d a b, c.ng, [a, b], [a, b], fun f x => Num.pmin f (x.getD 0 0) (x.getD 1 0),
      fun f x => outward f ⟨Num.minX (ival x 0).lo (ival x 1).lo, Num.minX (ival x 0).hi (ival x 1).hi⟩, std⟩,
   ⟨.fmax c d a b, c.ng, [a, b], [a, b], fun f x => Num.pmax f (x.getD 0 0) (x.getD 1 0),
      fun f x => outward f ⟨Num.maxX (ival x 0).lo (ival x 1).lo, Num.maxX (ival x 0).hi (ival x 1).hi⟩, std⟩,
   ⟨.fabs c d a b, c.ng, [a], [a, b], fun f x => if (xval f x 0).isNan then f.nanCode else x.getD 0 0 % 2 ^ (f.eb + f.mb),
      fun f x => outward f (ival x 0).abs, std⟩,
   ⟨.fneg c d a b, c.ng, [a], [a, b], fun f x => if (xval f x 0).isNan then f.nanCode
        else x.getD 0 0 % 2 ^ (f.eb + f.mb) + (if x.getD 0 0 ≥ 2 ^ (f.eb + f.mb) then 0 else 2 ^ (f.eb + f.mb)),
      fun f x => outward f ⟨Num.neg (ival x 0).hi, Num.neg (ival x 0).lo⟩, std⟩]

/-- The iterative floating words (R215, R227-R230). -/
def iterForms (c : RCtl) (r : Rnd) (d : Dst) (a b : Src) : List FloatForm :=
  let one : Num.XVal := .fin false 1 1
  [⟨.fdiv c r d a b, c.ng, [a, b], [a, b], fun f x => Num.encodeF f r (Num.div (xval f x 0) (xval f x 1)),
      fun f x => ((ival x 0).div (ival x 1)).bind (outward f), (10, 16, 20, 32)⟩,
   ⟨.frcp c r d a b, c.ng, [a], [a, b], fun f x => Num.encodeF f r (Num.div one (xval f x 0)),
      fun f x => (Num.Iv.div ⟨one, one⟩ (ival x 0)).bind (outward f), (10, 16, 20, 32)⟩,
   ⟨.fsqrt c r d a b, c.ng, [a], [a, b], fun f x => Num.encodeF f r (Num.sqrt (xval f x 0)),
      fun f x => (ival x 0).sqrt.bind (outward f), (12, 20, 24, 40)⟩,
   ⟨.fexp2 c d a b, c.ng, [a], [a, b], fun f x => Num.exp2Code f .rn (xval f x 0),
      fun f x => some (Num.exp2Code f .rd (ival x 0).lo, Num.exp2Code f .ru (ival x 0).hi), (14, 24, 28, 48)⟩,
   ⟨.flog2 c d a b, c.ng, [a], [a, b], fun f x => Num.log2Code f .rn (xval f x 0),
      fun f x => if (ival x 0).hi.le Num.zeroX then none
        else some (if (ival x 0).lo.le Num.zeroX then f.signed true f.infCode else Num.log2Code f .rd (ival x 0).lo,
                   Num.log2Code f .ru (ival x 0).hi), (14, 24, 28, 48)⟩]

/-- The kind and value of a point of a family (R62, R213). -/
def pointOf (wide : Bool) (code : Nat) : Word64 × Kind := (BitVec.ofNat 64 code, if wide then .f64 else .f32)

/-- The kinds and values of an interval of a family: one entry, or a named pair with the lower bound in its even member
(R62). -/
def ivOf (wide : Bool) (lo hi : Nat) : List (Word64 × Kind) :=
  if wide then [(BitVec.ofNat 64 lo, .iv64), (BitVec.ofNat 64 hi, .iv64)] else [(BitVec.ofNat 64 (hi * 2 ^ 32 + lo), .iv32)]

/-- Entries of given values and kinds, readable from lane cycle `r`. -/
def entriesOf (vs : List (Word64 × Kind)) (r : Nat) : List Entry := vs.map fun v => Entry.mk' v.1 v.2 r

/-- A destination that may take an IV64: nothing, or an even named register whose pair lies below n (R211). -/
def pairOk (s : State) : Dst → Prop
  | .none => True
  | .q => False
  | .k i => i.val % 2 = 0 ∧ i.val + 1 < (s.groupOf s.sched.cur).n

/-- Where the kinds that a word's sources hold make its result an IV64, its destination may take one (R43, R211). -/
def pairFits (s : State) (d : Dst) (xs : List Src) (wide : List Kind → Bool) : Prop :=
  wide (xs.filterMap (s.kindOf s.sched.cur)) = true → pairOk s d

/-- The latency of a form on the family and kind computed. -/
def FloatForm.latency (m : FloatForm) (wide iv : Bool) : Nat :=
  if iv then (if wide then m.lat.2.2.2 else m.lat.2.2.1) else (if wide then m.lat.2.1 else m.lat.1)

/-- The sources of a form read as intervals: legal ones only (R214). -/
def legalIvs (wide : Bool) (vs : List FVal) (is : List Num.Iv) : Prop :=
  is = (vs.map fun v => (⟨Num.decodeF (famFmt wide) v.lo, Num.decodeF (famFmt wide) v.hi⟩ : Num.Iv)) ∧
  ∀ v ∈ vs, v.iv = true ∨ (Num.decodeF (famFmt wide) v.lo).isFin = true

end Sys2Proof.Claims

/-- The pipelined floating words: on points the exact result rounded once, on legal intervals the exact image rounded outward,
to the destination after the latency of R215. That field b of fabs and fneg is not read is the model's reading (log entry 20). -/
def Obligations.FloatResults : Prop :=
  ∀ (s s1 : State) (c : RCtl) (st : Stall) (r : Rnd) (d : Dst) (a b e : Src),
  ∀ m ∈ floatForms c st r d a b e, ∀ (wide : Bool) (vs : List FVal),
    s.able m.ng false false [] → (readFamily s.sched.cur m.srcs).run s = .ok (wide, vs) s1 → s1.roomy → pairFits s d m.srcs wideIv →
    (vs.any (·.iv) = false → ∃ s', exec m.instr s = .next s' ∧
      Passes (s1.gives d (entriesOf [pointOf wide (m.point (famFmt wide) (vs.map (·.lo)))] (s1.after (m.latency wide false))))
        s' (litWords m.lits)) ∧
    (∀ is lo hi, vs.any (·.iv) = true → (wide = true → pairOk s1 d) → legalIvs wide vs is →
      m.image (famFmt wide) is = some (lo, hi) → ∃ s', exec m.instr s = .next s' ∧
      Passes (s1.gives d (entriesOf (ivOf wide lo hi) (s1.after (m.latency wide true)))) s' (litWords m.lits))

/-- The iterative floating words, with no iterative operation in flight: the same results are under way to the destination
for the latency of R215. An empty image takes cause 0x41 and writes nothing. The model's own: field b of frcp, fsqrt, fexp2 and flog2
is not read (log entry 20), and a result that exact bounds do not decide is free (log entry 17). -/
def Obligations.IterativeResults : Prop :=
  ∀ (s s1 : State) (c : RCtl) (r : Rnd) (d : Dst) (a b : Src),
  ∀ m ∈ iterForms c r d a b, ∀ (wide : Bool) (vs : List FVal),
    s.able m.ng false false [] → (readFamily s.sched.cur m.srcs).run s = .ok (wide, vs) s1 → s1.roomy → pairFits s d m.srcs wideIv →
    (vs.any (·.iv) = false → s.idle → ∃ s', exec m.instr s = .next s' ∧
      Passes (s1.iterates d [pointOf wide (m.point (famFmt wide) (vs.map (·.lo)))] (m.latency wide false)) s' (litWords m.lits)) ∧
    (∀ is, vs.any (·.iv) = true → (wide = true → pairOk s1 d) → legalIvs wide vs is →
      (m.image (famFmt wide) is = none → exec m.instr s = .next (s.takes s1 0x41)) ∧
      (∀ lo hi, m.image (famFmt wide) is = some (lo, hi) → s.idle → ∃ s', exec m.instr s = .next s' ∧
        Passes (s1.iterates d (ivOf wide lo hi) (m.latency wide true)) s' (litWords m.lits)))

namespace Sys2Proof.Claims

/-- The bounds fcmp compares: a point x stands for [x, x] (R224). -/
def boundsOf (wide : Bool) (v : FVal) : Num.XVal × Num.XVal := (Num.decodeF (famFmt wide) v.lo, Num.decodeF (famFmt wide) v.hi)

/-- The table of R224 on bounds that are not NaN. -/
def fcmpRows : List ((RCtl → PReg → Src → Src → Instr) × (Num.XVal × Num.XVal → Num.XVal × Num.XVal → Tri)) :=
  let equal (x y : Num.XVal × Num.XVal) : Bool := x.1.eq x.2 && x.1.eq y.1 && x.1.eq y.2
  let apart (x y : Num.XVal × Num.XVal) : Bool := x.2.lt y.1 || y.2.lt x.1
  [(.fcmpLt, fun x y => if x.2.lt y.1 then .T else if y.2.le x.1 then .F else .U),
   (.fcmpLe, fun x y => if x.2.le y.1 then .T else if y.2.lt x.1 then .F else .U),
   (.fcmpEq, fun x y => if equal x y then .T else if apart x y then .F else .U),
   (.fcmpNe, fun x y => if apart x y then .T else if equal x y then .F else .U)]

/-- The conversions of R232 of a floating source, an interval's zero bounds written as +0 (R66): the result's values and kinds, whether it needs a pair. -/
def cvtOf (r : Rnd) (v : FVal) : List (Word64 × Kind) :=
  match v.wide, v.iv with
  | false, false => [pointOf true (Num.convert 0xC 0xD r v.lo)]
  | true, false => [pointOf false (Num.convert 0xD 0xC r v.lo)]
  | false, true => ivOf true (Num.bound Num.f64 .rd (Num.decodeF Num.f32 v.lo)) (Num.bound Num.f64 .ru (Num.decodeF Num.f32 v.hi))
  | true, true => ivOf false (Num.bound Num.f32 .rd (Num.decodeF Num.f64 v.lo)) (Num.bound Num.f32 .ru (Num.decodeF Num.f64 v.hi))

/-- The latency of a conversion by its source (R215). -/
def cvtLat (wide iv : Bool) : Nat := if iv then (if wide then 6 else 4) else (if wide then 4 else 3)

end Sys2Proof.Claims

/-- fcmp writes the relation of R224 on the bounds of its operands, U where one is NaN; csel passes on a's value, b's value, or,
undecided between two of one family, their hull. -/
def Obligations.CompareAndSelect : Prop :=
  (∀ m ∈ fcmpRows, ∀ (s s1 : State) (c : RCtl) (p : PReg) (a b : Src) (wide : Bool) (x y : FVal),
    s.able c.ng false false [] → (readFamily s.sched.cur [a, b]).run s = .ok (wide, [x, y]) s1 → s1.roomy →
    let i := boundsOf wide x
    let j := boundsOf wide y
    let v := if i.1.isNan || i.2.isNan || j.1.isNan || j.2.isNan then .U else m.2 i j
    let L := if x.iv || y.iv then (if wide then 4 else 3) else 1
    ∃ s', exec (m.1 c p a b) s = .next s' ∧ Passes (s1.modRegs fun r => r.tell p v (s1.after L)) s' (litWords [a, b])) ∧
  (∀ (s s1 s2 s3 : State) (st : Stall) (d : Dst) (a b : Src) (p : PReg) (x y : Val) (q : Tri),
    s.able false false false [] → readSrc s.sched.cur .pair true a s = .ok x s1 → readSrc s.sched.cur .pair true b s1 = .ok y s2 →
    readPred s.sched.cur p s2 = .ok q s3 → s3.roomy → (cselWide s s.sched.cur a b p = true → pairOk s d) →
    let as (v : Val) : List Entry := if v.kind = .iv64 then entriesOf [(v.val, .iv64), (v.hi, .iv64)] (s3.after 1)
      else entriesOf [(v.val, v.kind)] (s3.after 1)
    let one (i j : FVal) : Prop := i.lit = true ∨ j.lit = true ∨ i.wide = j.wide
    (∀ v, (q = .T ∧ v = x) ∨ (q = .F ∧ v = y) ∨
        (q = .U ∧ v = y ∧ ∀ i j, x.asF a = some i → y.asF b = some j → ¬ one i j) →
      (v.kind = .iv64 → pairOk s3 d) →
      ∃ s', exec (.csel st d a b p) s = .next s' ∧ Passes (s3.gives d (as v)) s' (litWords [a, b])) ∧
    (∀ i j is, q = .U → x.asF a = some i → y.asF b = some j → one i j →
      let wide := (!i.lit && i.wide) || (!j.lit && j.wide)
      (wide = true → pairOk s3 d) → legalIvs wide [i.inFam wide, j.inFam wide] is →
      ∃ s', exec (.csel st d a b p) s = .next s' ∧
        Passes (s3.gives d (entriesOf (ivOf wide (Num.bound (famFmt wide) .rd (Num.minX (ival is 0).lo (ival is 1).lo))
          (Num.bound (famFmt wide) .ru (Num.maxX (ival is 0).hi (ival is 1).hi))) (s3.after 1))) s' (litWords [a, b])))

/-- The conversions round once by their suffix, intervals outward, and never fault on a value (R232). That the latency goes by the source's kind is the model's reading (log entry 32). -/
def Obligations.Conversions : Prop :=
  (∀ (s s1 : State) (c : RCtl) (r : Rnd) (d : Dst) (a : Src) (v : FVal),
    s.able c.ng false false [] → (readF s.sched.cur a).run s = .ok v s1 → s1.roomy →
    (pairFits s d [a] (· == [.iv32]) → (v.iv = true → v.wide = false → pairOk s1 d) → ∃ s', exec (.fcvt c r d a) s = .next s' ∧
      Passes (s1.gives d (entriesOf (cvtOf r v) (s1.after (cvtLat v.wide v.iv)))) s' (litWords [a])) ∧
    (v.iv = false → ∃ s', exec (.ftoi c r d a) s = .next s' ∧
      Passes (s1.gives d [wordEntry (w := if v.wide then 64 else 32)
        (BitVec.ofInt _ (Num.toInt (if v.wide then 64 else 32) r (Num.decodeF (famFmt v.wide) v.lo))) (s1.after (cvtLat v.wide false))])
        s' (litWords [a])) ∧
    (v.iv = true → exec (.ftoi c r d a) s = .next (s.takes s1 0x2D))) ∧
  (∀ (s s1 : State) (c : RCtl) (r : Rnd) (d : Dst) (a : Src) (x : Val),
    s.able c.ng false false [] → readInt s.sched.cur false a s = .ok x s1 → s1.roomy →
    ∀ un ∈ [false, true], ∃ s', exec (if un then .itofUn c r d a else .itof c r d a) s = .next s' ∧
      Passes (s1.gives d (entriesOf [pointOf x.is64 (Num.encodeF (famFmt x.is64) r (Num.ofInt
        (if un then ((srcBits (widthOf [x]) true x).toNat : Int) else (srcBits (widthOf [x]) false x).toInt)))]
        (s1.after (cvtLat x.is64 false)))) s' (litWords [a]))

/-- The interval instructions give the results of R233 and R234; bounds in the wrong order and disjoint operands take cause
0x41. -/
def Obligations.IntervalWords : Prop :=
  (∀ (s s1 : State) (c : RCtl) (d : Dst) (a b : Src) (wide : Bool) (x y : FVal),
    s.able c.ng false false [] → (readFamily s.sched.cur [a, b]).run s = .ok (wide, [x, y]) s1 → s1.roomy →
    pairFits s d [a, b] allWide → (wide = true → pairOk s1 d) →
    let L := if wide then 6 else 4
    let f := famFmt wide
    let bad := exec (.ivmake c d a b) s = .next (s.takes s1 0x41)
    (x.iv = false → y.iv = false →
      (if (Num.decodeF f x.lo).isFin && (Num.decodeF f y.lo).isFin && !(Num.decodeF f y.lo).lt (Num.decodeF f x.lo) then
        ∃ s', exec (.ivmake c d a b) s = .next s' ∧ Passes (s1.gives d (entriesOf (ivOf wide x.lo y.lo) (s1.after L))) s' (litWords [a, b])
      else bad)) ∧
    (∀ is, legalIvs wide [x, y] is →
      let lo := Num.maxX (ival is 0).lo (ival is 1).lo
      let hi := Num.minX (ival is 0).hi (ival is 1).hi
      (hi.lt lo = true → exec (.ivmeet c d a b) s = .next (s.takes s1 0x41)) ∧
      (hi.lt lo = false → ∃ s', exec (.ivmeet c d a b) s = .next s' ∧
        Passes (s1.gives d (entriesOf (ivOf wide (Num.bound f .rd lo) (Num.bound f .ru hi)) (s1.after L))) s' (litWords [a, b])) ∧
      (∃ s', exec (.ivjoin c d a b) s = .next s' ∧
        Passes (s1.gives d (entriesOf (ivOf wide (Num.bound f .rd (Num.minX (ival is 0).lo (ival is 1).lo))
          (Num.bound f .ru (Num.maxX (ival is 0).hi (ival is 1).hi))) (s1.after L))) s' (litWords [a, b])))) ∧
  (∀ (s s1 : State) (c : RCtl) (d : Dst) (a : Src) (v : FVal),
    s.able c.ng false false [] → (readF s.sched.cur a).run s = .ok v s1 → s1.roomy →
    let L := if v.wide then 4 else 3
    let gives (i : Instr) (code : Nat) : Prop := ∃ s', exec i s = .next s' ∧
      Passes (s1.gives d (entriesOf [pointOf v.wide code] (s1.after L))) s' (litWords [a])
    gives (.ivlo c d a) v.lo ∧ gives (.ivhi c d a) v.hi ∧
    (∀ is, legalIvs v.wide [v] is →
      gives (.ivmid c d a) (Num.Iv.mid (famFmt v.wide) (ival is 0)) ∧
      gives (.ivwid c d a) (Num.encodeF (famFmt v.wide) .ru (Sys2Proof.Num.add .ru (ival is 0).hi (Num.neg (ival is 0).lo)))))
/-! ### The control class -/

namespace Sys2Proof.Claims

/-- Whether a branch with this condition is taken on a predicate's value (R304). -/
def taken : Cond → Tri → Bool
  | .always, _ => true
  | .t, v => v == .T
  | .f, v => v == .F
  | .u, v => v == .U

/-- The target of an offset counted from the branch word: w + 4 × offset, or, in a candidate, a word offset (R304, R318). -/
def branchTo (th : Thread) (off : BitVec 19) : Int :=
  if th.inTrial then ((th.pos.pc + th.pos.win : Nat) : Int) + off.toInt
  else ((th.pos.pc + 4 * th.pos.win : Nat) : Int) + 4 * off.toInt

/-- Where a thread goes on that is sent to `x`: a candidate's target lies within it (R318). -/
def landing (th : Thread) (x : Int) : Option Nat :=
  if th.inTrial then (if 0 ≤ x ∧ x < ((th.trial.map (·.len)).getD 0 : Nat) then some x.toNat else none)
  else some (x % 2 ^ 64).toNat

/-- The current thread stands at a header. -/
def goesTo (s : State) (y : Nat) : State := s.modThread s.sched.cur fun th => th.goTo y

/-- A word that sends its thread to `x` does so, or ends the trial with 0x66 where `x` lies outside the candidate. -/
def sends (i : Instr) (s s1 : State) (x : Int) : Prop :=
  match landing (s.thread s.sched.cur) x with
  | some y => ∃ s', exec i s = .next s' ∧ Arrives (goesTo s1 y) s'
  | none => exec i s = .next (s.takes s1 0x66)

end Sys2Proof.Claims

/-- Branches: where a taken branch goes, that an untaken one passes, and that call pushes the address of the header after its
clause when it is taken. -/
def Obligations.Branches : Prop :=
  ∀ (s s1 : State), s1.roomy →
    let t := s.sched.cur
    let th := s.thread t
    (∀ (p : PReg) (c : Cond) (off : BitVec 19) (v : Tri), s.able false false false [] →
      (c = .always ∧ s1 = s) ∨ (c ≠ .always ∧ readPred t p s = .ok v s1) →
      (taken c v = false → (∃ s', exec (.br p c off) s = .next s' ∧ Passes s1 s' 0) ∧ (∃ s', exec (.call p c off) s = .next s' ∧ Passes s1 s' 0)) ∧
      (taken c v = true → sends (.br p c off) s s1 (branchTo th off) ∧
        (∀ y, landing th (branchTo th off) = some y → ∃ s', exec (.call p c off) s = .next s' ∧
          Arrives ((goesTo s1 y).gives .q [Entry.mk' (BitVec.ofNat 64 th.nextHeader) .i64 (s1.after 1)]) s') ∧
        (landing th (branchTo th off) = none → exec (.call p c off) s = .next (s.takes s1 0x66)))) ∧
    (∀ (p : PReg) (oT oF oU : BitVec 19) (v : Tri), s.able false false false [] → readPred t p s = .ok v s1 →
      sends (.br3 p oT oF oU) s s1 (branchTo th (match v with | .T => oT | .F => oF | .U => oU))) ∧
    (∀ (c : RCtl) (a : Src) (offs : List (BitVec 19)) (i : Nat), s.able c.ng false false [] → readUnsigned t a s = .ok i s1 →
      (∀ off, offs[i]? = some off → sends (.brt c a offs) s s1 (branchTo th off)) ∧
      (offs.length ≤ i → exec (.brt c a offs) s = .next (s.takes s1 0x61))) ∧
    (∀ (c : RCtl) (a : Src) (x : Nat), s.able c.ng false false [] → readUnsigned t a s = .ok x s1 →
      (th.inTrial = true ∨ x % 4 = 0 → sends (.jmp c a) s s1 x) ∧
      (th.inTrial = false → x % 4 ≠ 0 → exec (.jmp c a) s = .next (s.takes s1 0x64))) ∧
    (∀ (c : RCtl) (a : Src) (v : Val), s.able c.ng false false [] → readSrc t .single false a s = .ok v s1 →
      (v.imm = true ∨ v.kind ≠ .i64 → exec (.ret c a) s = .next (s.takes s1 0x2D)) ∧
      (v.imm = false → v.kind = .i64 → th.inTrial = true ∨ v.val.toNat % 4 = 0 → sends (.ret c a) s s1 v.val.toNat) ∧
      (v.imm = false → v.kind = .i64 → th.inTrial = false → v.val.toNat % 4 ≠ 0 → exec (.ret c a) s = .next (s.takes s1 0x64)))

namespace Sys2Proof.Claims

/-- The other threads of two states are the same but for the bookkeeping of issue. -/
def othersStill (s s' : State) (t : Nat) : Prop :=
  ∀ u, u ≠ t → (s'.threads.find u).map Thread.shown = (s.threads.find u).map Thread.shown

/-- A change of the current thread's group. -/
def groupDoes (s : State) (f : Group → Group) : State := s.modGroup (s.thread s.sched.cur).id.group f

/-- Membership of the enrolled set (R295). -/
def enrols (i : Nat) (g : Group) : Group := { g with enrolled := if g.enrolled.contains i then g.enrolled else g.enrolled ++ [i] }

end Sys2Proof.Claims

/-- exit ends its thread once its stores have drained, with its pending versions gone and the thread out of E and A; nop does
nothing; reform takes the thread, at the header after its clause, to a bin of its address or on; the soft-barrier words change
E and h, and sbar.join holds a thread of E. -/
def Sys2Proof.Claims.endAndGather : Prop :=
  (∀ (s : State) (c : RCtl), s.able c.ng true true [] → (s.thread s.sched.cur).deferred = [] → (s.thread s.sched.cur).cnt.st = 0 → s.roomy →
    let t := s.sched.cur
    let id := (s.thread t).id
    ∃ s', exec (.exitT c) s = .next s' ∧ s'.threads.find t = none ∧ othersStill s s' t ∧ s'.homes.mem = s.homes.mem ∧
      s'.ctxs = s.ctxs ∧ s'.dev = s.dev ∧
      (∀ g, s.groups.find id.group = some g → ∃ g', s'.groups.find id.group = some g' ∧ id.tig ∉ g'.enrolled ∧
        ∀ x ∈ g'.softA, x.1 ≠ id.tig) ∧
      (∀ b x, (b, x) ∈ s'.bins → ∀ m ∈ x.tids, m.1 ≠ t) ∧
      ((s.thread t).view.any (·.tx) = true → ∀ l v, (l, v) ∈ s'.homes.vlines → ∀ p ∈ v.pend, p.owner ≠ .tx t)) ∧
  (∀ (s : State) (c : RCtl), s.able c.ng false false [] → s.roomy → ∃ s', exec (.nop c) s = .next s' ∧ Passes s s' 0) ∧
  (∀ (s : State) (c : RCtl), s.able c.ng false false [] → s.roomy →
    let t := s.sched.cur
    let th := s.thread t
    (th.inTrial = true → ∃ s', exec (.reform c) s = .next s' ∧ Passes s s' 0) ∧
    (th.inTrial = false → s.bins.sorted = true → ∃ s', exec (.reform c) s = .next s' ∧ othersStill s s' t ∧ s'.homes = s.homes ∧
      (s'.thread t).pos = Pos.atHeader th.nextHeader ∧ (s'.thread t).regs = th.regs ∧
      ((∃ b x, s'.bins.find b = some x ∧ x.group = th.id.group ∧ x.addr = th.nextHeader ∧ (s'.thread t).place = .bin ∧
          ((∃ m ∈ x.tids, m.1 = t) ∨ t ∈ x.full)) ∨
        (s'.bins = s.bins ∧ (s'.thread t).place = .running)))) ∧
  (∀ (s : State) (st : Stall) (m : SbarMode), s.able false true false [] → s.roomy →
    let i := (s.thread s.sched.cur).id.tig
    ∃ s', exec (.sbarEnrol st m) s = .next s' ∧ Passes (groupDoes s fun g => match m with
      | .enrolSet h => { enrols i g with thresh := h.toNat }
      | .keep => enrols i g
      | .leave => { g with enrolled := g.enrolled.filter (· != i), softA := g.softA.filter fun a => a.1 != i }) s' 0) ∧
  (∀ (s : State) (st : Stall), s.able false true false [] → s.roomy →
    let t := s.sched.cur
    let th := s.thread t
    let i := th.id.tig
    (i ∉ (s.groupOf t).enrolled → ∃ s', exec (.sbarJoin st) s = .next s' ∧ Passes s s' 0) ∧
    (∀ g, i ∈ (s.groupOf t).enrolled → s.groups.find th.id.group = some g → ∃ s', exec (.sbarJoin st) s = .next s' ∧
      othersStill s s' t ∧ s'.homes = s.homes ∧ (s'.thread t).place = .soft ∧ (s'.thread t).pos = Pos.atHeader th.nextHeader ∧
      s'.groups.find th.id.group = some { g with softA := g.softA ++ [(i, s.lcOf t)] }))

/-- Named barriers: an arrival counts, and the last one opens the next generation; a wait passes once its generation is over and the
release has reached its core; the checks of R308 stand in its order, after the decode rules that a source may break (R43). A barrier
remembers the generations that a thread may still wait for, those that ended within 60 lane cycles (log entry 98). -/
def Sys2Proof.Claims.namedBarriers : Prop :=
  ∀ (s s1 : State) (st : Stall) (a : Src) (n : BitVec 7) (c : Nat), s.able false true false [] →
    let t := s.sched.cur
    let th := s.thread t
    let w := s.workOf t
    let b := w.bars.getD n.toNat ⟨none, 0, 0, []⟩
    let full := b.arr + 1 ≥ c
    let b' : Barrier := if full then ⟨none, 0, b.gen + 1, (b.gen, s1.lcOf t, th.gcore) :: b.ends.filter fun e => s1.lcOf t < e.2.1 + 60⟩
      else ⟨some c, b.arr + 1, b.gen, b.ends⟩
    let arrived (x : State) : State := (x.modWork th.id.work fun w => { w with bars := w.bars.put n.toNat b' }).modThread t fun th =>
      { th with arrived := (n.toNat, b.gen) :: th.arrived.filter fun x => x.1 != n.toNat }
    let opens (x : State) : State := if (s.work th.id.work).cores.length > 1 then x.acquire th.gcore else x
    (w.kernel.nb ≤ n.toNat → exec (.barWait st n) s = .next (s.takes s 0x62) ∧
      ((srcRules t false [a]).run s = .ok () s → ∀ i, i = .barArrive st a n ∨ (i = .barSync st a n ∧ th.stage = 0) →
        exec i s = .next (s.takes s 0x62))) ∧
    (n.toNat < w.kernel.nb → readUnsigned t a s = .ok c s1 → s1.roomy → ∀ i, i = .barArrive st a n ∨ (i = .barSync st a n ∧ th.stage = 0) →
      (c = 0 ∨ w.kernel.team < c ∨ (∃ e, b.exp = some e ∧ e ≠ c) → exec i s = .next (s.takes s1 0x63)) ∧
      (1 ≤ c → c ≤ w.kernel.team → (∀ e, b.exp = some e → e = c) → th.cnt.st = 0 →
        (∀ u ∈ s1.mates t, (s1.thread u).id.tig < th.id.tig → (s1.thread u).done = true ∨ (s1.thread u).pos.g = false ∨ (s1.thread u).stage ≠ 0) →
        i = .barArrive st a n ∨ full → ∃ s', exec i s = .next s' ∧
          Passes (if i = .barArrive st a n then arrived s1 else opens (arrived s1)) s' (litWords [a]))) ∧
    (∀ i e, (i = .barWait st n ∧ e = 0 ∧ n.toNat < w.kernel.nb) ∨ (i = .barSync st a n ∧ e = litWords [a] ∧ 1 ≤ th.stage) → s.roomy →
      (th.stage < 2 ∧ (∃ x ∈ th.arrived, x.1 = n.toNat) ∧ ∀ x ∈ th.arrived, x.1 = n.toNat → x.2 < b.gen) ∨
        (2 ≤ th.stage ∧ th.stage - 2 < b.gen ∧
          ∀ x ∈ b.ends, x.1 = th.stage - 2 → x.2.1 + (if x.2.2 = th.gcore then 8 else 60) ≤ s.lcOf t) →
      ∃ s', exec i s = .next s' ∧ Passes (opens s) s' e)

/-- Ending and gathering threads, and the named barriers. -/
def Obligations.EndGatherAndBarriers : Prop := endAndGather ∧ namedBarriers

namespace Sys2Proof.Claims

/-- The participants' results of a collective, `L` beats after it issues, and 4 more in a group that spans two slices (R309, R310). -/
def together {α : Type} (s : State) (got : List (Nat × α)) (d : Dst) (p : Option (PReg × Tri)) (vs : Nat × α → List (Word64 × Kind))
    (L : Nat) : State :=
  got.foldl (fun u x => u.awaits x.1 false d p (vs x)
    (if (s.groupOf x.1).size = 64 ∧ (s.thread x.1).inTrial = false then L + 4 else L)) s

/-- The participants but for the current thread go past the word when their turn comes. -/
def marked {α : Type} (s : State) (got : List (Nat × α)) : State :=
  got.foldl (fun s p => s.modThread p.1 fun th => { th with part := true, stage := 0 }) s

/-- A collective performs for all its participants at once (R297), and `s2` holds their results. -/
def performs {α : Type} (i : Instr) (s s2 : State) (got : List (Nat × α)) (ext : Nat) : Prop :=
  ∃ s', exec i s = .next s' ∧ Passes (marked s2 got) s' ext

/-- The conditions under which the current thread is the first participant of its collective to be stepped. -/
def firstOf (s : State) (ng : Bool) : Prop := s.able ng false false [] ∧ (s.thread s.sched.cur).part = false

/-- Thread index of the thread that shfl reads (R310). -/
def shflRows : List ((RCtl → Dst → Src → Src → Instr) × (Nat → Nat → Option Nat)) :=
  [(.shflIdx, fun _ b => some b), (.shflUp, fun t b => if b > t then none else some (t - b)),
   (.shflDown, fun t b => some (t + b)), (.shflXor, fun t b => some (t ^^^ b))]

end Sys2Proof.Claims

/-- shfl and bcast copy values among the participants with kind and residue; the votes combine the participants' predicates
(R309, R310). -/
def Obligations.ShufflesAndVotes : Prop :=
  (∀ m ∈ shflRows, ∀ (s s1 : State) (c : RCtl) (d : Dst) (a b : Src) (got : List (Nat × (Val × Nat))),
    firstOf s c.ng → gatherAll s.sched.cur (gatherTwo a b) (s.partners s.sched.cur c.ng) s = .ok got s1 → s1.roomy →
    (∃ p ∈ got, p.1 = s.sched.cur) → (∀ p ∈ got, (s1.threads.find p.1).isSome) →
    let copied (v : Val) : Word64 × Kind := (v.val, v.kind)
    performs (m.1 c d a b) s (together s1 got d none (fun p => [copied
      (match (m.2 (s1.thread p.1).id.tig p.2.2).bind fun j => if j < (s1.groupOf p.1).size then
          got.find? fun q => (s1.thread q.1).id.tig == j else none with
       | some q => q.2.1
       | none => p.2.1)]) 4) got (litWords [a, b])) ∧
  (∀ (s s1 : State) (c : RCtl) (d : Dst) (a b : Src) (p : Nat × (Val × Nat)) (got : List (Nat × (Val × Nat))),
    firstOf s c.ng → gatherAll s.sched.cur (gatherTwo a b) (s.partners s.sched.cur c.ng) s = .ok (p :: got) s1 → s1.roomy →
    (∃ q ∈ p :: got, q.1 = s.sched.cur) →
    let copied (v : Val) : Word64 × Kind := (v.val, v.kind)
    performs (.bcast c d a b) s (together s1 (p :: got) d none (fun _ => [copied
      (match (p :: got).find? fun q => (s1.thread q.1).id.tig == p.2.2 with
       | some q => q.2.1
       | none => p.2.1)]) 4) (p :: got) (litWords [a, b])) ∧
  (∀ (s s1 : State) (c : RCtl) (x : PReg) (got : List (Nat × Tri)),
    firstOf s c.ng → gatherAll s.sched.cur (voteOperand x) (s.partners s.sched.cur c.ng) s = .ok got s1 → s1.roomy →
    (∃ p ∈ got, p.1 = s.sched.cur) → (∀ p ∈ got, (s1.threads.find p.1).isSome) →
    let vs := got.map (·.2)
    let all : Tri := if .F ∈ vs then .F else if .U ∈ vs then .U else .T
    let any : Tri := if .T ∈ vs then .T else if .U ∈ vs then .U else .F
    let mask := ((got.filter fun q => q.2 == .T).map fun q => 2 ^ (s1.thread q.1).id.tig).sum
    (∀ p : PReg, performs (.voteAll c p x) s (together s1 got .none (some (p, all)) (fun _ => []) 2) got 0) ∧
    (∀ p : PReg, performs (.voteAny c p x) s (together s1 got .none (some (p, any)) (fun _ => []) 2) got 0) ∧
    (∀ d : Dst, performs (.voteBallot c d x) s (together s1 got d none (fun _ => [(BitVec.ofNat 64 mask, .i64)]) 2) got 0))

namespace Sys2Proof.Claims

/-- gred's rows: on w-bit integers, on floating codes, and whether F kinds are read as bits (R310). -/
def gredRows : List ((RCtl → Dst → Src → Instr) × (∀ w : Nat, BitVec w → BitVec w → BitVec w) × (Num.FFmt → Nat → Nat → Nat) × Bool) :=
  [(.gredAdd, fun _ x y => x + y, fun f x y => Num.encodeF f .rn (Sys2Proof.Num.add .rn (Num.decodeF f x) (Num.decodeF f y)), false),
   (.gredMin, fun _ x y => if y.slt x then y else x, Num.pmin, false), (.gredMax, fun _ x y => if x.slt y then y else x, Num.pmax, false),
   (.gredAnd, fun _ x y => x &&& y, fun _ x _ => x, true), (.gredOr, fun _ x y => x ||| y, fun _ x _ => x, true),
   (.gredXor, fun _ x y => x ^^^ y, fun _ x _ => x, true)]

/-- Left-to-right fold of a list that is not empty. -/
def foldOf {α : Type} [Inhabited α] (f : α → α → α) : List α → α
  | [] => default
  | x :: r => r.foldl f x

end Sys2Proof.Claims

/-- gred folds the participants' values in ascending thread index, the order in which their operands are gathered, and gives each the
result; a mix of kinds takes cause 0x2D; a participant whose part is performed only goes on (R297, R310). -/
def Obligations.GroupReductions : Prop :=
  (∀ m ∈ gredRows, ∀ (s s1 : State) (c : RCtl) (d : Dst) (a : Src) (got : List (Nat × Val)),
    firstOf s c.ng → gatherAll s.sched.cur (gredOperand a) (s.partners s.sched.cur c.ng) s = .ok got s1 → s1.roomy →
    (∃ p ∈ got, p.1 = s.sched.cur) → (∀ p ∈ got, (s1.threads.find p.1).isSome) →
    let vs := got.map (·.2)
    let ints := vs.all fun v => v.imm || v.kind == .i32 || v.kind == .i64
    let of (k : Kind) := vs.all fun v => !v.imm && v.kind == k
    let w := if ints then widthOf vs else if of .f64 then 64 else 32
    let fmt := if w = 64 then Num.f64 else Num.f32
    let code : Nat := if ints then (foldOf (m.2.1 w) (vs.map (srcBits w false))).toNat
      else if m.2.2.2 then (foldOf (m.2.1 w) (vs.map fun v => (v.val.setWidth w : BitVec w))).toNat
      else foldOf (m.2.2.1 fmt) (vs.map fun v => v.val.toNat % 2 ^ w)
    let kind : Kind := if ints || m.2.2.2 then (if w = 64 then .i64 else .i32) else (if w = 64 then .f64 else .f32)
    ((ints || of .f32 || of .f64) = true →
      performs (m.1 c d a) s (together s1 got d none (fun _ => [(BitVec.ofNat 64 code, kind)]) (if ints then 6 else 12)) got (litWords [a])) ∧
    ((ints || of .f32 || of .f64) = false → exec (m.1 c d a) s = .next
      ((got.foldl (fun s p => s.modThread p.1 fun th => { th with part := true, stage := 0x12D }) s1).fail s.sched.cur 0x2D 0))) ∧
  (∀ (s s1 : State) (ng : Bool) (a : Src) (got : List (Nat × Val)), s.threads.sorted = true →
    gatherAll s.sched.cur (gredOperand a) (s.partners s.sched.cur ng) s = .ok got s1 →
    (got.map fun p => (s.thread p.1).id.tig).Pairwise (· < ·)) ∧
  (∀ (s : State) (c : RCtl) (d : Dst) (a b : Src) (p x : PReg), s.able c.ng false false [] → s.roomy →
    (s.thread s.sched.cur).part = true → (s.thread s.sched.cur).stage < 0x100 →
    (∀ m ∈ gredRows, ∃ s', exec (m.1 c d a) s = .next s' ∧ Passes s s' (litWords [a])) ∧
    (∀ m ∈ shflRows, ∃ s', exec (m.1 c d a b) s = .next s' ∧ Passes s s' (litWords [a, b])) ∧
    (∃ s', exec (.bcast c d a b) s = .next s' ∧ Passes s s' (litWords [a, b])) ∧
    (∀ i ∈ [.voteAll c p x, .voteAny c p x, .voteBallot c d x], ∃ s', exec i s = .next s' ∧ Passes s s' 0))

namespace Sys2Proof.Claims

/-- Registers that a W code names (R36). -/
def wcount : Width → Nat
  | .w1 => 1 | .w2 => 2 | .w4 => 4 | .w8 => 8

end Sys2Proof.Claims

/-- mov copies an entry with its value, kind and residue, a wide mov a group of named registers; reg.free empties named
registers, and both members of a pair that holds an IV64; movi writes its sign-extended immediate as I32, and getsr the special register as I64. -/
def Obligations.MovesAndGetsr : Prop :=
  (∀ (s s1 : State) (c : RCtl) (d : Dst) (a : Src) (v : Val), s.able c.ng false false [] →
    readSrc s.sched.cur .single true a s = .ok v s1 → s1.roomy →
    ∃ s', exec (.mov c .w1 d a) s = .next s' ∧ Passes (s1.gives d (entriesOf [(v.val, v.kind)] (s1.after 1))) s' (litWords [a])) ∧
  (∀ (s s1 : State) (c : RCtl) (w : Width) (d : Dst) (a : KReg) (es : List Entry), s.able c.ng false false [] → w ≠ .w1 →
    ((List.range (wcount w)).mapM fun j => readEntry s.sched.cur (s.thread s.sched.cur).regs.k[(Fin.ofNat 32 (a.val + j)).val]) s
      = .ok es s1 → s1.roomy →
    ∃ s', exec (.mov c w d (.k a)) s = .next s' ∧ Passes (s1.gives d (entriesOf (es.map fun e => (e.val, e.kind)) (s1.after 1))) s' 0) ∧
  (∀ (s : State) (c : RCtl) (w : Width) (a : KReg), s.able c.ng false false [] → s.roomy →
    let freed (i : Nat) : Bool := decide (a.val ≤ i) && decide (i < a.val + wcount w)
    ∃ s', exec (.regFree c w a) s = .next s' ∧ Passes (s.modRegs fun r => { r with
      k := Vector.ofFn fun i => if freed i.val || (r.k[i].kind == .iv64 && freed (partner i.val)) then Entry.blank else r.k[i] }) s' 0) ∧
  (∀ (s : State) (st : Stall) (d : Dst) (i : BitVec 10), s.able false false false [] → s.roomy →
    (∃ s', exec (.movi st d i) s = .next s' ∧
      Passes (s.gives d [Entry.mk' ((i.signExtend 32).setWidth 64) .i32 (s.after 1)]) s' 0) ∧
    (∃ s', exec (.getsr st d i) s = .next s' ∧
      Passes (s.gives d [Entry.mk' (s.sreg s.sched.cur i.toNat) .i64 (s.after 2)]) s' 0))

namespace Sys2Proof.Claims

/-- The threads of the bundle with lower thread indices have issued their parts. -/
def myTurn (s : State) : Prop :=
  ∀ u ∈ s.mates s.sched.cur, (s.thread u).id.tig < (s.thread s.sched.cur).id.tig → (s.thread u).done = true

/-- The record of R236 for a child with registers `r` and U in `p`. -/
def childWith (s : State) (r : Regs) (p : PReg) : List Word64 :=
  let th := s.thread s.sched.cur
  let g := s.groupOf s.sched.cur
  let named := r.k.toList ++ r.q.toList
  let shown (e : Entry) : Word64 := if e.kind = .empty then 0 else e.val
  let tag (e : Entry) : Nat := if e.kind = .empty then 0 else e.kind.code + 8 * e.res.toNat
  let pred (i : Nat) : Nat := (if i = p.val then Tri.U else ((r.p[i]?).map (·.v)).getD .F).code
  let ctl : Nat := g.n % 64 * 2 ^ 58 + (if th.sck then 2 ^ 57 else 0) +
    ((List.range 7).map fun i => pred (i + 1) * 2 ^ (43 + 2 * i)).sum + g.num % 64 * 2 ^ 37 + th.id.tig % 64 * 2 ^ 31
  [BitVec.ofNat 64 (th.nextHeader % 2 ^ 52), BitVec.ofNat 64 ctl, BitVec.ofNat 64 (s.workOf s.sched.cur).team] ++
    named.map shown ++
    ((List.range 6).map fun i => BitVec.ofNat 64 (((List.range 8).map fun j => (named.map tag).getD (8 * i + j) 0 * 256 ^ j).sum)) ++
    List.replicate 7 0

/-- The record of R236 for a child that holds `es` at `d` and U in `p`. -/
def childOf (s : State) (d : Dst) (es : List Entry) (p : PReg) : List Word64 :=
  childWith s ((s.thread s.sched.cur).regs.put d es) p

/-- The state with entries at the end of a FIFO bank of a core. -/
def queued (s : State) (gc b : Nat) (vs : List Word64) : State :=
  s.modBank gc b fun x => { x with items := x.items ++ vs, tail := x.tail + vs.length }

end Sys2Proof.Claims

/-- ivsplit keeps the whole interval and writes F where it may not spawn, and otherwise keeps the lower half, writes T and
pushes the record of R236 for the upper half to the team's spawn FIFO. Its results are an iterative form's, of latency 6 (R215), and a
zero bound is +0 (R66). -/
def Obligations.IntervalSplit : Prop :=
  ∀ (s s1 : State) (c : RCtl) (d : Dst) (a : Src) (p : PReg) (v : FVal), s.able c.ng false false [] → myTurn s →
    let t := s.sched.cur
    let th := s.thread t
    s.idle → (th.inTrial = true ∨ ((∀ e ∈ th.regs.k.toList ++ th.regs.q.toList, e.wait = none ∧ e.ready ≤ s.lcOf t) ∧
      ∀ e ∈ th.regs.p.toList, e.wait = none ∧ e.ready ≤ s.lcOf t)) →
    (readF t a).run s = .ok v s1 → s1.roomy → pairFits s d [a] allWide → (v.wide = true → pairOk s1 d) →
    let f := famFmt v.wide
    let lo := Num.decodeF f v.lo
    let hi := Num.decodeF f v.hi
    let m := Num.decodeF f (Num.Iv.mid f ⟨lo, hi⟩)
    let span (x y : Num.XVal) : List (Word64 × Kind) := ivOf v.wide (Num.bound f .rd x) (Num.bound f .ru y)
    (v.iv = false → lo.isFin = false → exec (.ivsplit c d a p) s = .next (s.takes s1 0x41)) ∧
    (v.iv = true ∨ lo.isFin = true →
      (th.inTrial = true ∨ (∀ b, s1.spawnFifo th.gcore th.id.work = some b → 16320 < (s1.bank th.gcore b).items.length) →
        ∃ s', exec (.ivsplit c d a p) s = .next s' ∧
          Passes (s1.awaits t true d (some (p, .F)) (span lo hi) 6) s' (litWords [a])) ∧
      (∀ b, th.inTrial = false → s1.spawnFifo th.gcore th.id.work = some b → (s1.bank th.gcore b).items.length ≤ 16320 →
        ∃ s', exec (.ivsplit c d a p) s = .next s' ∧
          Passes (queued (s1.awaits t true d (some (p, .T)) (span lo m) 6) th.gcore b
            (childOf s1 d (entriesOf (span m hi) 0) p)) s' (litWords [a])))

namespace Sys2Proof.Claims

/-- The threads of the group stand on lanes whose pools have room for `extra` more entries for each of them (R200, R203). -/
def poolsHave (s : State) (g extra : Nat) : Prop :=
  ∀ u ∈ s.groupLive g, let i := (s.thread u).id
    s.committed i.die i.core i.lane + perLane (s.group g).size * extra ≤ 256

/-- The group's named count becomes `n`; the registers above the smaller count are EMPTY in its threads (R203). -/
def renamed (s : State) (g n : Nat) : State :=
  ((s.groupLive g).foldl (fun s t => s.modThread t fun th => th.modRegs fun r =>
    { r with k := Vector.ofFn fun i => if i.val < min n (s.group g).n then r.k[i] else Entry.blank }) s).modGroup g
    fun x => { x with n := n, grow := none }

/-- The greatest value asked for. -/
def greatest (got : List (Nat × Int)) : Int := got.foldl (fun m p => max m p.2) (-1)

end Sys2Proof.Claims

/-- reg.grow completes, with the group's count at the greatest value that its threads ask for: where that is no growth, and where the
pools of its lanes have room. A value out of range is cause 0x44 of every thread of the group; a candidate's may only be the count that
stands; a thread whose part is performed only goes on. What a participant's own operand breaks is left for its own word
(R203, R205, R316). -/
def Obligations.RegisterGrowth : Prop :=
  ∀ (s s1 : State) (c : RCtl) (a : Src) (got : List (Nat × Int)), firstOf s c.ng →
    gatherAll s.sched.cur (growOperand a) (s.partners s.sched.cur c.ng) s = .ok got s1 → s1.roomy →
    (∃ p ∈ got, p.1 = s.sched.cur) → (s1.groupOf s.sched.cur).grow = none →
    let t := s.sched.cur
    let gi := (s.thread t).id.group
    let g := s1.group gi
    let mark (ts : List Nat) (k : Nat) (x : State) : State := ts.foldl (fun u i => u.modThread i fun th => { th with part := true, stage := k }) x
    let passing := (s.arrivals t).filter fun u => !(s.partners t c.ng).contains u || (got.map (·.1)).contains u
    let n := (greatest got).toNat
    let bad := (∃ p ∈ got, p.2 < 0) ∨ 32 < n ∨ 256 < perLane g.size * (16 + n)
    ((s.thread t).inTrial = false → ¬ bad → (n ≤ g.n ∨ poolsHave s1 gi (n - g.n)) →
      ∃ s', exec (.regGrow c a) s = .next s' ∧ Passes (mark passing 0 (renamed s1 gi n)) s' (litWords [a])) ∧
    ((s.thread t).inTrial = true → greatest got = (g.n : Int) →
      ∃ s', exec (.regGrow c a) s = .next s' ∧ Passes (mark passing 0 s1) s' (litWords [a])) ∧
    ((if (s.thread t).inTrial = true then greatest got ≠ (g.n : Int) else bad) →
      exec (.regGrow c a) s = .next ((mark (s.arrivals t) 0x144 s1).fail t 0x44 0)) ∧
    (∀ s0 : State, s0.able c.ng false false [] → s0.roomy → (s0.thread s0.sched.cur).part = true → (s0.thread s0.sched.cur).stage < 0x100 →
      ∃ s', exec (.regGrow c a) s0 = .next s' ∧ Passes s0 s' (litWords [a]))

/-! ### The memory class -/

namespace Sys2Proof.Claims

/-- An operation is put in flight under the next token. -/
def sent (s : State) (o : MemOp) : State :=
  { s.modSched fun c => { c with nextId := c.nextId + 1 } with ops := s.ops.put s.sched.nextId o }

/-- One more load of a thread is counted (R21). -/
def loadMore (s : State) (t : Nat) : State :=
  s.modThread t fun th => { th with cnt := { th.cnt with ld := th.cnt.ld + 1 } }

/-- One more store of a thread is counted (R21). -/
def storeMore (s : State) (t : Nat) : State :=
  s.modThread t fun th => { th with cnt := { th.cnt with st := th.cnt.st + 1 } }

/-- The operation of the current thread's word. -/
def opOf (s : State) (tb : Rec) (a : Access) (act : Act) (h : Hint) (blocking : Bool) : MemOp :=
  mkOp s s.sched.cur tb.val a act h s.sched.nextId blocking

/-- Entries of a destination that an operation will write (R40). -/
def empties (s : State) (n : Nat) : List Entry := (List.range n).map fun j => Entry.pend s.sched.nextId j

/-- The current thread's word has put an operation in flight and waits for it. -/
def awaits (i : Instr) (s s1 : State) (o : MemOp) : Prop :=
  exec i s = .next (s.holdWord ((sent s1 o).modThread s.sched.cur fun th => { th with stage := s1.sched.nextId + 2 }) s.sched.cur
    ⟨0x6, .token [s1.sched.nextId]⟩)

/-- The current thread's loads may hit in its core's L1, for which no translation is needed (R124): not in replay mode (R386). -/
def cached (s : State) : Bool := (s.workOf s.sched.cur).rpl.isNone

/-- Homes whose accesses do not hold their word (R147, R148). -/
def near (h : Home) : Prop := h = .main ∨ h = .scratch

/-- The load words (R153): instruction, bytes of an element, elements, and whether it is sign-extended. -/
def loadRows (w : Width) (h : Hint) (d : Dst) (tb : Rec) (x : Src) : List (Instr × Nat × Nat × Bool) :=
  [(.ldS8 h d tb x, 1, 1, true), (.ldZ8 h d tb x, 1, 1, false), (.ldS16 h d tb x, 2, 1, true), (.ldZ16 h d tb x, 2, 1, false),
   (.ld32 w h d tb x, 4, wcount w, false), (.ld64 w h d tb x, 8, wcount w, false)]

/-- The record a word names, as the word has read it or reads it now (R164). -/
def recNamed (s : State) (tb : Rec) : RecF := Sys2Proof.Machine.recF (s.recBits s.sched.cur tb.val)

/-- The kind of a load's entries: F32 or F64 where the record's format is so, I64 for 8 bytes, else I32 (R152). -/
def kindOf (size : Nat) (fmt : BitVec 4) : Kind :=
  if size = 4 ∧ fmt = 0xC then .f32 else if size = 8 then (if fmt = 0xD then .f64 else .i64) else .i32

end Sys2Proof.Claims

/-- A load whose access passes the checks of R144 goes out to memory with its destination empty until the data is written, and
its word passes; to the host or another device it holds its word; a check that fails is taken as its cause, and a check that
waits holds the word. -/
def Obligations.LoadsIssue : Prop :=
  ∀ (s s1 : State) (w : Width) (h : Hint) (d : Dst) (tb : Rec) (x : Src) (ix : Val), s.able false false false [tb] →
    (s.thread s.sched.cur).stage < 2 → readSrc s.sched.cur .raw false x s = .ok ix s1 →
    ∀ m ∈ loadRows w h d tb x, let n := m.2.1 * m.2.2.1
      (∀ a s2, resolve s.sched.cur tb ix n (min n 16) rdRights .read (cached s1) s1 = .ok a s2 → s2.roomy →
        (s2.thread s.sched.cur).cnt.ld < 255 →
        let act := Act.load m.2.1 m.2.2.1 m.2.2.2 (kindOf m.2.1 (recNamed s1 tb).fmt) false
        (near a.home → ∃ s', exec m.1 s = .next s' ∧
          Passes ((sent (loadMore s2 s.sched.cur) (opOf s2 tb a act h false)).gives d (empties s2 m.2.2.1)) s' (litWords [x])) ∧
        (¬ near a.home → awaits m.1 s (loadMore s2 s.sched.cur) (opOf s2 tb a act h true))) ∧
      (∀ c v s2, resolve s.sched.cur tb ix n (min n 16) rdRights .read (cached s1) s1 = .error (.trap c v) s2 →
        exec m.1 s = .next (s.takes s2 c v)) ∧
      (∀ k s2, resolve s.sched.cur tb ix n (min n 16) rdRights .read (cached s1) s1 = .error (.hold k) s2 →
        s2.overfull (s.thread s.sched.cur).id.work = false → exec m.1 s = .next (s.holdWord s2 s.sched.cur k))

namespace Sys2Proof.Claims

/-- Results of an operation, as entries. -/
def arrived (vs : List (Word64 × Kind)) (r : Nat) : List Entry := vs.map fun v => Entry.mk' v.1 v.2 r

/-- The operation is gone, its results stand at the destination and the load count has fallen (R21). -/
def taken' (s : State) (i : Nat) (d : Dst) (vs : List (Word64 × Kind)) : State :=
  let s1 : State := { s with ops := s.ops.drop i }
  (s1.gives d (arrived vs (s1.after 0))).modThread s.sched.cur fun th => { th with cnt := { th.cnt with ld := th.cnt.ld - 1 } }

/-- The words that hold for their own access, beside loads and atomics of the host and other devices, with their destinations. -/
def awaiting (w : Width) (h : Hint) (d : Dst) (tb : Rec) (x : Src) : List (Instr × Dst × Nat) :=
  [(.ldiv32 h d tb x, d, litWords [x]), (.ldiv64 h d tb x, d, litWords [x]), (.lcload h d tb x, d, litWords [x])] ++
    (loadRows w h d tb x).map fun m => (m.1, d, litWords [x])

/-- The far atomics (R158) with one data operand. -/
def atomRows : List ((Hint → Src → Rec → Src → Instr) × AtomOp) :=
  [(.atomAdd, .add), (.atomMin, .min), (.atomMinUn, .minUn), (.atomMax, .max), (.atomMaxUn, .maxUn), (.atomAnd, .and), (.atomOr, .or),
   (.atomXor, .xor), (.atomXchg, .xchg)]

/-- The reductions (R158). -/
def redRows : List ((Hint → Src → Rec → Src → Instr) × AtomOp) :=
  [(.redAdd, .add), (.redMin, .min), (.redMinUn, .minUn), (.redMax, .max), (.redMaxUn, .maxUn), (.redAnd, .and), (.redOr, .or),
   (.redXor, .xor)]

/-- The store words (R154, R155): instruction, bytes of an element, elements, and whether it releases. -/
def storeRows (w : Width) (h : Hint) (d : Src) (tb : Rec) (x : Src) : List (Instr × Nat × Nat × Bool) :=
  [(.st8 h d tb x, 1, 1, false), (.st16 h d tb x, 2, 1, false), (.st32 w h d tb x, 4, wcount w, false), (.st64 w h d tb x, 8, wcount w, false),
   (.stRel32 w h d tb x, 4, wcount w, true), (.stRel64 w h d tb x, 8, wcount w, true)]

end Sys2Proof.Claims

/-- A word that holds for its own access goes on once the access has performed: its results stand at its destination and the
load count has fallen. A candidate's store or reduction goes on the same way, its store count lower (R107, R320). -/
def Sys2Proof.Claims.awaitedResults : Prop :=
  ∀ (s : State) (i : Nat) (o : MemOp) (w : Width) (h : Hint) (d : Dst) (tb : Rec) (x : Src) (k : KReg) (e : Src),
    (s.thread s.sched.cur).stage = i + 2 → s.ops.find i = some o → o.performed = true →
    State.roomy { s with ops := s.ops.drop i } →
    (∀ m ∈ awaiting w h d tb x, s.able false (m.1 = .lcload h d tb x) false [tb] → ∃ s', exec m.1 s = .next s' ∧
      Passes (taken' s i d o.out) s' m.2.2) ∧
    (∀ m ∈ atomRows, s.able false false false [tb] → ∃ s', exec (m.1 h e tb x) s = .next s' ∧ Passes (taken' s i .q o.out) s' (litWords [e, x])) ∧
    (s.able false false false [tb] → ∃ s', exec (.atomCas h k tb x) s = .next s' ∧ Passes (taken' s i .q o.out) s' (litWords [x])) ∧
    (s.able false true false [tb] → ∃ s', exec (.sigin h k tb) s = .next s' ∧ Passes (taken' s i .q o.out) s' 0) ∧
    (s.able false false false [tb] → (s.thread s.sched.cur).cnt.ld = 1 → ∀ i' ∈ [Instr.ldAcq32 w h d tb x, .ldAcq64 w h d tb x],
      ∃ s', exec i' s = .next s' ∧ Passes ((taken' s i d o.out).acquire (s.thread s.sched.cur).gcore) s' (litWords [x])) ∧
    let put := State.lowerSt { s with ops := s.ops.drop i } s.sched.cur
    (∀ m ∈ storeRows w h e tb x, s.able false false m.2.2.2 [tb] → ∃ s', exec m.1 s = .next s' ∧ Passes put s' (litWords [e, x])) ∧
    (∀ m ∈ redRows, s.able false false false [tb] → ∃ s', exec (m.1 h e tb x) s = .next s' ∧ Passes put s' (litWords [e, x])) ∧
    (s.able false false false [tb] → (∃ s', exec (.stiv32 h e tb x) s = .next s' ∧ Passes put s' (litWords [e, x])) ∧
      ∃ s', exec (.stiv64 h k tb x) s = .next s' ∧ Passes put s' (litWords [x]))

/-- The words that hold for their access put it in flight first; their checks are those of their own rules (R155, R156, R162, R327). -/
def Sys2Proof.Claims.awaitedAccesses : Prop :=
  ∀ (s s1 s2 : State) (w : Width) (h : Hint) (d : Dst) (tb : Rec) (x : Src) (ix : Val) (a : Access),
    (s.thread s.sched.cur).stage = 0 → readSrc s.sched.cur .raw false x s = .ok ix s1 → s2.roomy →
    (s2.thread s.sched.cur).cnt.ld < 255 →
    let t := s.sched.cur
    (s.able false false false [tb] →
      (∀ m ∈ [(Instr.ldAcq32 w h d tb x, 4), (.ldAcq64 w h d tb x, 8)],
        resolve t tb ix (m.2 * wcount w) (min (m.2 * wcount w) 16) rdRights .read false s1 = .ok a s2 →
        awaits m.1 s (loadMore s2 t) (opOf s2 tb a (.load m.2 (wcount w) false (kindOf m.2 (recNamed s1 tb).fmt) true) h true)) ∧
      (∀ m ∈ [(Instr.ldiv32 h d tb x, false, 8), (.ldiv64 h d tb x, true, 16)],
        resolve t tb ix m.2.2 m.2.2 rdRights .read (cached s1) s1 = .ok a s2 →
        awaits m.1 s (loadMore s2 t) (opOf s2 tb a (.iload m.2.1) h true))) ∧
    (s.able false true false [tb] → ∀ p s3,
      placeAccess t tb ix (fun _ i => i * 512) 512 16 linearRec rdRights anyHome (pure ()) s1 = .ok p s3 → placeXlat t p .read (cached s3) s3 = .ok a s2 →
      (near a.home → ∃ s', exec (.lcload h d tb x) s = .next s' ∧
        Passes ((sent (loadMore s2 t) (opOf s2 tb a .lcload h false)).gives d (empties s2 1)) s' (litWords [x])) ∧
      (¬ near a.home → awaits (.lcload h d tb x) s (loadMore s2 t) (opOf s2 tb a .lcload h true)))

/-- The words that hold for their own access: that they put it in flight, and what they do once it has come back. -/
def Obligations.AwaitedWords : Prop := awaitedResults ∧ awaitedAccesses

namespace Sys2Proof.Claims

/-- What a write of the thread's word carries as its view: a plain write under an open transaction writes as one of its snapshot
(R97, R101). -/
def writeView (t : Nat) (v : ReadAs) (tx : Option Nat) : ReadAs :=
  match tx, v with
  | some st, _ => .tx st t
  | none, .tx st _ => .snap st
  | none, v => v

/-- The stamp of the open transaction that a write through a record's view belongs to (R101). -/
def txOf (s : State) (view : Nat) : Option Nat :=
  if view = 2 then ((s.thread s.sched.cur).view.filter (·.tx)).map (·.stamp) else none

/-- A write whose checks passed goes out to memory, or, where R86 says so, into the side log; its word passes either way. A
candidate's write goes out and holds its word (R107, R320). A cause of its translation is its word's, and so is 0x94 of a transactional
store to a page that is not versioned (R103), which of another device's page is a free value (log entry 13). -/
def writesOut (i : Instr) (s s3 : State) (tb : Rec) (p : Placed) (bs : List Byte) (act : List Byte → Act) (h : Hint) (tx : Option Nat)
    (ext : Nat) : Prop :=
  let t := s.sched.cur
  let v := writeView t p.view tx
  (∀ s4 s5 a, goesToSide t p s3 = .ok false s3 → placeXlat t p .write false s3 = .ok a s4 →
    (tx = none → s5 = s4) → (tx ≠ none → unversioned p.home a s4 = .ok false s5) → (s5.thread t).cnt.st < 255 →
    let lone := (s.thread t).inTrial
    let o := opOf s5 tb { a with view := v } (act bs) h lone
    let out := sent (storeMore s5 t) o
    out.roomy → (lone = false → ∃ s', exec i s = .next s' ∧ Passes out s' ext) ∧ (lone = true → awaits i s (storeMore s5 t) o)) ∧
  (∀ s4 s5 a, goesToSide t p s3 = .ok false s3 → placeXlat t p .write false s3 = .ok a s4 → tx ≠ none →
    unversioned p.home a s4 = .ok true s5 → exec i s = .next (s.takes s5 0x94 (BitVec.ofNat 64 p.first))) ∧
  (∀ s4 c v, goesToSide t p s3 = .ok false s3 → placeXlat t p .write false s3 = .error (.trap c v) s4 →
    exec i s = .next (s.takes s4 c v)) ∧
  (∀ s4 s5, goesToSide t p s3 = .ok true s4 →
    sideLog t tb { p with view := v } (p.cs.map fun c => (p.r.base + c.1, c.2)) bs act h s4 = .ok () s5 → s5.roomy →
    ∃ s', exec i s = .next s' ∧ Passes s5 s' ext ∧ s'.homes = s.homes)

/-- The bytes of an interval store (R157): an interval's two bounds, or a finite point twice. -/
def boundBytes (wide : Bool) (v o : Val) : Option (List Byte) :=
  let n := if wide then 8 else 4
  if v.imm then none
  else if v.kind = (if wide then .iv64 else .iv32) then some (if wide then leBytes 8 v.val.toNat ++ leBytes 8 o.val.toNat else leBytes 8 v.val.toNat)
  else if v.kind = (if wide then .f64 else .f32) ∧ (Num.decodeF (famFmt wide) (v.val.toNat % 2 ^ (8 * n))).isFin = true then
    let c := v.val.toNat % 2 ^ (8 * n)
    some (leBytes n c ++ leBytes n c)
  else none

end Sys2Proof.Claims

/-- Stores write the low bytes of their data entries in register order, through the checks of R144, in the thread order of their
bundle (R145); a release store runs when the thread's load and store counts are 0; stiv writes the bounds of an interval. -/
def Obligations.StoresIssue : Prop :=
  (∀ (s s1 s2 s3 : State) (w : Width) (h : Hint) (d : Src) (tb : Rec) (x : Src) (ix : Val) (vs : List Val) (p : Placed),
    ∀ m ∈ storeRows w h d tb x, s.able false false m.2.2.2 [tb] → myTurn s → (s.thread s.sched.cur).stage < 2 →
    (m.2.2.2 = true → (s.thread s.sched.cur).cnt.st = 0 ∧ (s.thread s.sched.cur).cnt.ld = 0) →
    (groupSrcs d m.2.2.1).mapM (readSrc s.sched.cur .raw true) s = .ok vs s1 → readSrc s.sched.cur .raw false x s1 = .ok ix s2 →
    (∀ c v u, placeAccess s.sched.cur tb ix scaled (m.2.1 * m.2.2.1) (min (m.2.1 * m.2.2.1) 16) anyRec wrRights anyHome (pure ()) s2 =
      .error (.trap c v) u → exec m.1 s = .next (s.takes u c v)) ∧
    (placeAccess s.sched.cur tb ix scaled (m.2.1 * m.2.2.1) (min (m.2.1 * m.2.2.1) 16) anyRec wrRights anyHome (pure ()) s2 = .ok p s3 →
      let bs := (vs.map fun v => leBytes m.2.1 v.val.toNat).flatten
      writesOut m.1 s s3 tb p bs (fun b => .store b (8 * (m.2.1 * m.2.2.1))) h (txOf s3 p.r.view) (litWords [d, x]))) ∧
  (∀ (s s1 s2 s3 : State) (h : Hint) (d : Src) (k : KReg) (tb : Rec) (x : Src) (ix v : Val) (o : Entry) (p : Placed) (bs : List Byte),
    s.able false false false [tb] → myTurn s → (s.thread s.sched.cur).stage < 2 →
    (readSrc s.sched.cur .raw true d s = .ok v s1 → readSrc s.sched.cur .raw false x s1 = .ok ix s2 → boundBytes false v v = some bs →
      placeAccess s.sched.cur tb ix scaled 8 8 anyRec wrRights anyHome (pure ()) s2 = .ok p s3 →
      writesOut (.stiv32 h d tb x) s s3 tb p bs (fun b => .store b 64) h (txOf s3 p.r.view) (litWords [d, x])) ∧
    (readSrc s.sched.cur .raw true (.k k) s = .ok v s1 → readSrc s.sched.cur .raw false x s1 = .ok ix s2 →
      (v.kind = .iv64 → readEntry s.sched.cur (s2.thread s.sched.cur).regs.k[(Fin.ofNat 32 (k.val + 1)).val] s2 = .ok o s2) →
      boundBytes true v ⟨o.val, o.kind, o.res, false, 0⟩ = some bs →
      placeAccess s.sched.cur tb ix scaled 16 16 anyRec wrRights anyHome (pure ()) s2 = .ok p s3 →
      writesOut (.stiv64 h k tb x) s s3 tb p bs (fun b => .store b 128) h (txOf s3 p.r.view) (litWords [x])))

/-- Atomics and reductions read their data and their index, pass the checks of R144 and R158, and go out to the home in the
thread order of their bundle; an atomic's queue entry is empty until the old value is written. That atom.cas's result has the kind of
its pair's even register is the model's reading (log entry 44). -/
def Obligations.AtomicsIssue : Prop :=
  ∀ (s s1 s2 s3 s4 : State) (h : Hint) (e : Src) (k : KReg) (tb : Rec) (x : Src) (ix v nv : Val) (p : Placed) (a : Access) (n : Nat),
    s.able false false false [tb] → myTurn s → (s.thread s.sched.cur).stage < 2 → atomWidth v = some n →
    let t := s.sched.cur
    (readSrc t .raw false e s = .ok v s1 → readSrc t .raw false x s1 = .ok ix s2 →
      (∀ m ∈ redRows, placeAtom t tb ix m.2 false v (fun _ => pure ()) redRights s2 = .ok p s3 →
        writesOut (m.1 h e tb x) s s3 tb p (leBytes n (v.val.toNat % 2 ^ (8 * n))) (fun _ => .atom m.2 n v.kind (v.val.toNat % 2 ^ (8 * n)) 0 false) h none
          (litWords [e, x])) ∧
      (∀ m ∈ atomRows, placeAtom t tb ix m.2 true v (fun _ => pure ()) atRights s2 = .ok p s3 → placeXlat t p .atomic false s3 = .ok a s4 →
        (s4.thread t).cnt.ld < 255 →
        let act := Act.atom m.2 n v.kind (v.val.toNat % 2 ^ (8 * n)) (v.val.toNat % 2 ^ (8 * n)) true
        let out := (sent (loadMore s4 t) (opOf s4 tb a act h false)).gives .q (empties s4 1)
        let quick := near a.home ∧ (s.thread t).inTrial = false
        (quick → out.roomy → ∃ s', exec (m.1 h e tb x) s = .next s' ∧ Passes out s' (litWords [e, x])) ∧
        (¬ quick → (sent s4 (opOf s4 tb a act h true)).roomy → awaits (m.1 h e tb x) s (loadMore s4 t) (opOf s4 tb a act h true)))) ∧
    (∀ u, readSrc t .raw false (.k k) s = .ok v u → readSrc t .raw false (.k (Fin.ofNat 32 (k.val + 1))) u = .ok nv s1 →
      readSrc t .raw false x s1 = .ok ix s2 → atomWidth nv = some n →
      placeAtom t tb ix .cas true v (fun _ => pure ()) atRights s2 = .ok p s3 → placeXlat t p .atomic false s3 = .ok a s4 →
      (s4.thread t).cnt.ld < 255 →
      let act := Act.atom .cas n v.kind (nv.val.toNat % 2 ^ (8 * n)) (v.val.toNat % 2 ^ (8 * n)) true
      let out := (sent (loadMore s4 t) (opOf s4 tb a act h false)).gives .q (empties s4 1)
      let quick := near a.home ∧ (s.thread t).inTrial = false
      (quick → out.roomy → ∃ s', exec (.atomCas h k tb x) s = .next s' ∧ Passes out s' (litWords [x])) ∧
      (¬ quick → (sent s4 (opOf s4 tb a act h true)).roomy → awaits (.atomCas h k tb x) s (loadMore s4 t) (opOf s4 tb a act h true)))

namespace Sys2Proof.Claims

/-- `s4` is `s` but that a line may have been brought into the L1 of core `gc`: memory is as it was, another line of an L1 only makes
room, and the line is there with all its bytes readable, those it had and the home's (R121, R159), or the L1 is as before. -/
def warmed (s s4 : State) (gc ctx vline : Nat) (h : Hint) (d : LineData) : Prop :=
  s4.homes.mem = s.homes.mem ∧ s4.homes.vlines = s.homes.vlines ∧ (∀ n, n ≠ gc → (s4.core n).l1 = (s.core n).l1) ∧
  (h = .noAllocate → (s4.core gc).l1 = (s.core gc).l1) ∧
  (∀ l ∈ (s4.core gc).l1, l.ctx ≠ ctx ∨ l.line ≠ vline → l ∈ (s.core gc).l1) ∧
  ((s4.core gc).l1 = (s.core gc).l1 ∨ ∃ l ∈ (s4.core gc).l1, l.ctx = ctx ∧ l.line = vline ∧ ∀ i < 256, l.readable i = true ∧
    (lineByte l.data i = lineByte d i ∨
      ∃ o ∈ (s.core gc).l1, o.ctx = ctx ∧ o.line = vline ∧ o.readable i = true ∧ lineByte l.data i = lineByte o.data i))

/-- The operations in flight, but for where reads of a page's replica go (R83). -/
def placesOf (s : State) : Tbl MemOp := s.ops.mapVals fun o => { o with pieces := o.pieces.map fun p => { p with src := p.pa } }

end Sys2Proof.Claims

/-- sigin reads its signature from its register pair, an all-zero one as (0, 1), and holds for the table's answer; rec.rd and
rec.wr complete with words of the record under way, or take 0x20, 0x22; pf completes always: where a check would fail, where the line is not
in this device's memory, is poisoned, off, or has no version for its view yet, nothing is brought in; otherwise the line that its address
names comes into L1, or all is as before, and memory does not change (R159, R162-R165). -/
def Obligations.SignaturesAndRecords : Prop :=
  ∀ (s s1 s2 s3 s4 : State) (h : Hint) (d : Dst) (e : Src) (k : KReg) (tb : Rec) (x : Src) (ix u v : Val) (w : Width) (p : Placed) (a : Access)
    (vs : List Val),
    let t := s.sched.cur
    (s.able false true false [tb] → myTurn s → (s.thread t).stage = 0 →
      readSrc t .raw true (.k k) s = .ok u s1 → readSrc t .raw true (.k (Fin.ofNat 32 (k.val + 1))) s1 = .ok v s2 →
      let h1 := if u.val = 0 ∧ v.val = 0 then 1 else v.val
      placeSig t tb.val u.val s2 = .ok p s3 → placeXlat t p .atomic false s3 = .ok a s4 → (s4.thread t).cnt.ld < 255 →
      (sent (loadMore s4 t) (opOf s4 tb a (.sigin u.val h1) h true)).roomy →
      awaits (.sigin h k tb) s (loadMore s4 t) (opOf s4 tb a (.sigin u.val h1) h true)) ∧
    (s.able false false false [tb] → readSrc t .raw false x s = .ok ix s1 → s1.roomy → ∀ j, ix.index = some j →
      (j % wcount w ≠ 0 ∨ 8 < j + wcount w → exec (.recRd w h d tb x) s = .next (s.takes s1 0x20)) ∧
      (j % wcount w = 0 → j + wcount w ≤ 8 → (s1.thread t).cnt.ld < 255 → ∃ s', exec (.recRd w h d tb x) s = .next s' ∧
        Passes ((sent (loadMore s1 t) (opOf s1 tb ⟨.main, .latest, []⟩ (.recRd j (wcount w)) h false)).gives d (empties s1 (wcount w))) s'
          (litWords [x]))) ∧
    (s.able false true false [tb] → (groupSrcs e (wcount w)).mapM (readSrc t .raw true) s = .ok vs s1 →
      readSrc t .raw false x s1 = .ok ix s2 → s2.roomy → ∀ j, ix.index = some j →
      (j % wcount w ≠ 0 ∨ 8 < j + wcount w → exec (.recWr w h e tb x) s = .next (s.takes s2 0x20)) ∧
      (j % wcount w = 0 → j + wcount w ≤ 8 →
      let host := (recNamed s2 tb).home = 0xFE ∨ ∃ i val, (vs.map (·.val))[i]? = some val ∧ j + i = 5 ∧ val.toNat / 2 ^ 56 = 0xFE
      (host → exec (.recWr w h e tb x) s = .next (s.takes s2 0x22)) ∧
      (¬ host → (s2.thread t).cnt.st < 255 → ∃ s', exec (.recWr w h e tb x) s = .next s' ∧
        Passes (sent (storeMore s2 t) (opOf s2 tb ⟨.main, .latest, []⟩ (.recWr j (vs.map (·.val))) h false)) s' (litWords [e, x])))) ∧
    (s.able false false false [tb] → readSrc t .raw false x s = .ok ix s1 → s1.roomy →
      let th := s.thread t
      let place := placeAccess t tb ix scaled 1 1 anyRec rdRights anyHome (pure ()) s1
      let comesTo (u : State) : Prop := ∃ s', exec (.pf h tb x) s = .next s' ∧ Passes u s' (litWords [x])
      (∀ y s2, place = .error y s2 → comesTo s1) ∧
      (∀ p s2, place = .ok p s2 → p.home ≠ .main → comesTo s1) ∧
      (∀ p s2 c r, place = .ok p s2 → p.home = .main → p.cs = c :: r →
        let va := p.r.base + c.1
        let look := s1.quietLook th.id.die (s1.ctxOf t) va .read
        (∀ y, look = .bad y ∨ look = .hold → comesTo s1) ∧
        ∀ xl s3, look = .ok xl s3 →
          let line := xl.src / 256
          let rd := if xl.ver then p.view else .latest
          let s4 := s3.codeCheck (s1.ctxOf t) line
          let there := if xl.ver then s4.homeLine line rd else some (memLine s4.homes.mem line)
          (s4.poisoned line = true ∨ s4.lineAwake line = false ∨ there = none → comesTo s4) ∧
          (∀ d, s4.poisoned line = false → s4.lineAwake line = true → there = some d → ∃ s5, comesTo s5 ∧
            warmed s4 s5 th.gcore (s1.ctxOf t) (va / 256) h d ∧ s5.threads = s4.threads ∧ placesOf s5 = placesOf s4 ∧
            ∀ n, (s5.core n).banks = (s4.core n).banks ∧ (s5.core n).side = (s4.core n).side ∧ (s5.core n).engines = (s4.core n).engines)))

namespace Sys2Proof.Claims

/-- The current thread's team owns the bank, and it is a FIFO. -/
def myFifo (s : State) (fq : Fin 32) : Prop :=
  let b := s.bank (s.thread s.sched.cur).gcore fq.val
  b.mode = .fifo ∧ b.own = some (s.thread s.sched.cur).id.work

/-- The threads of the bundle whose parts of the word are made now: of the thread's own bundle, also where that is ganged (R136, R294). -/
def taking (s : State) : List Nat :=
  (((s.bundles.find (s.thread s.sched.cur).bundle).map (·.tids)).getD []).filter fun u => (s.thread u).pos.g && !(s.thread u).done && !(s.thread u).part

/-- The parts of threads are marked as performed. -/
def parted (s : State) (us : List Nat) : State := us.foldl (fun s u => s.modThread u fun th => { th with part := true }) s

/-- The oldest entries of a FIFO bank of a core are gone. -/
def dequeued (s : State) (gc b n : Nat) : State := s.modBank gc b fun x => { x with items := x.items.drop n, head := x.head + n }

/-- Entries are under way from a FIFO bank to a thread. -/
def popping (s : State) (u : Nat) (d : Dst) (p : Option PReg) (vals : List Word64) (ok : Option Bool) : State :=
  let s1 := (sent (loadMore s u) (mkOp s u 0 ⟨.scratch, .latest, []⟩ (.qpop vals ok) .normal s.sched.nextId false)).modThread u fun th =>
    th.modRegs fun r => r.put d (empties s vals.length)
  match p with
  | some p => s1.modThread u fun th => th.modRegs fun r => r.expect p s.sched.nextId 0
  | none => s1

end Sys2Proof.Claims

/-- FIFO words (R160): a push adds the data of the bundle's threads in one step; a pop takes entries for all of them, or, for
qpop.nb, gives F and zeros; a thread whose part is made goes on; another team's bank takes cause 0x2A. -/
def Obligations.FifoWords : Prop :=
  ∀ (s : State) (w : Width) (h : Hint) (e : Src) (d : Dst) (fq : Fin 32) (p : PReg), s.able false true false [] → s.roomy →
    let t := s.sched.cur
    let gc := (s.thread t).gcore
    let items := (s.bank gc fq.val).items
    let k := (taking s).length * wcount w
    let pops (p : Option PReg) (ok : Bool) : State := parted (let s1 := (taking s).zipIdx.foldl (fun u x => popping u x.1 d p
        (if ok then (items.drop (x.2 * wcount w)).take (wcount w) else List.replicate (wcount w) 0) (p.map fun _ => ok)) s
      if ok then dequeued s1 gc fq.val k else s1) (taking s)
    ((s.thread t).part = true → (∃ s', exec (.qpush w h e fq) s = .next s' ∧ Passes s s' (litWords [e])) ∧
      (∃ s', exec (.qpop w h d fq) s = .next s' ∧ Passes s s' 0) ∧ (∃ s', exec (.qpopNb w h d fq p) s = .next s' ∧ Passes s s' 0)) ∧
    ((s.thread t).part = false → ¬ myFifo s fq → (∀ i ∈ [Instr.qpop w h d fq, .qpopNb w h d fq p], exec i s = .next (s.takes s 0x2A)) ∧
      ((srcRules t false (groupSrcs e (wcount w))).run s = .ok () s → exec (.qpush w h e fq) s = .next (s.takes s 0x2A))) ∧
    ((s.thread t).part = false → myFifo s fq →
      (∀ got s1, pushGather w e t s = .ok got s1 → s1.roomy → (s1.bank gc fq.val).items.length + got.length * wcount w ≤ 16384 →
        (got.map (·.1)).Nodup → (∀ x ∈ got, (s1.thread x.1).cnt.st < 255) → ∃ s', exec (.qpush w h e fq) s = .next s' ∧
          Passes (parted (queued (got.foldl (fun u x => sent (storeMore u x.1)
            (mkOp u x.1 0 ⟨.scratch, .latest, []⟩ (.qpush fq.val) .normal u.sched.nextId false)) s1) gc fq.val (got.map (·.2)).flatten)
            (got.map (·.1))) s' (litWords [e])) ∧
      ((taking s).Nodup → (∀ u ∈ taking s, (s.thread u).cnt.ld < 255) →
        (k ≤ items.length → ∃ s', exec (.qpop w h d fq) s = .next s' ∧ Passes (pops none true) s' 0) ∧
        (∃ s', exec (.qpopNb w h d fq p) s = .next s' ∧ Passes (pops (some p) (decide (k ≤ items.length))) s' 0)))

/-- bank.mode (R132, R161): a bundle takes its place behind those that reached the bank before it, and holds while one of them stands
there or the bank is switching; then a bank that is in its mode already needs no switch; one that the team may switch has its switch
queued, for which the bundle's threads hold, and goes on when it is complete; another team's takes cause 0x2A. Acquires and
releases pass once the thread's own counts are 0, whatever other threads have in the side log (R284; log entry 85). -/
def Obligations.BanksAcquireRelease : Prop :=
  (∀ (s : State) (st : Stall) (n : Fin 32) (m : BankMode), s.able false true false [] → s.roomy →
    let t := s.sched.cur
    let gc := (s.thread t).gcore
    let b := s.bank gc n.val
    let there := b.mode = m ∧ (m = .cache ∨ b.own ≠ none)
    let mine := b.mode = .cache ∨ b.own = some (s.thread t).id.work
    ((s.thread t).part = true → ∃ s', exec (.bankMode st n m) s = .next s' ∧ Passes s s' 0) ∧
    let s1 := s.reachBank gc n.val (s.wordKey t)
    ((s.thread t).part = false → (∀ y ∈ (s.core gc).switches, y.key ≠ s.wordKey t) →
      let waits := s1.aheadAtBank gc n.val (s.wordKey t) = true ∨ ∃ y ∈ (s.core gc).switches, y.bank = n.val
      (waits → exec (.bankMode st n m) s = .next (s.holdWord s1 t ⟨0xB, .poll⟩)) ∧
      (¬ waits → there → ∃ s', exec (.bankMode st n m) s = .next s' ∧ Passes (parted s1 (taking s)) s' 0) ∧
      (¬ waits → ¬ there → ¬ mine → exec (.bankMode st n m) s = .next (s.takes s1 0x2A)) ∧
      (¬ waits → ¬ there → mine → exec (.bankMode st n m) s = .next (s.holdWord (s1.modCore gc fun c => { c with switches := c.switches ++
        [⟨n.val, m, s.lcOf t + (if m = .cache then 8 else 512), (s.thread t).id.work, t, s.wordKey t⟩] }) t ⟨0xB, .event⟩)))) ∧
  (∀ (s : State) (gc n : Nat) (key : Nat × Nat), ∃ q, s.reachBank gc n key = s.modCore gc (fun c => { c with modeQ := q }) ∧
    (n, key) ∈ q ∧ (∀ x ∈ q, x ≠ (n, key) → x ∈ (s.core gc).modeQ) ∧ ∀ x ∈ (s.core gc).modeQ, s.atBank x.2 = true → x ∈ q) ∧
  (∀ (s : State) (c : RCtl), s.roomy → (s.thread s.sched.cur).cnt.ld = 0 →
    let fresh := s.acquire (s.thread s.sched.cur).gcore
    (s.able c.ng false false [] → ∃ s', exec (.acq c) s = .next s' ∧ Passes fresh s' 0) ∧
    (s.able c.ng false true [] → (s.thread s.sched.cur).cnt.st = 0 →
      (∃ s', exec (.rel c) s = .next s' ∧ Passes s s' 0) ∧ (∃ s', exec (.acqrel c) s = .next s' ∧ Passes fresh s' 0)) ∧
    (let gc := (s.thread s.sched.cur).gcore
     (fresh.core gc).l1 = ((s.core gc).l1.map fun l => if l.tag = 0 then { l with valid := 0 } else l) ∧
      ∀ n, n ≠ gc → fresh.core n = s.core n))

namespace Sys2Proof.Claims

/-- The current thread's view is changed. -/
def viewing (s : State) (v : Option View) : State := s.modThread s.sched.cur fun th => { th with view := v }

end Sys2Proof.Claims

/-- The version words (R110-R115): snap.open and txb open a view at a stamp; snap.close closes a snapshot; txa ends a
transaction and txchk tells its state; txc locks, and answers T once its commit has ended, or F of a doomed transaction; vpub hands
over a publication. The model's own: a requested stamp is tested against the greatest of the dies' copies of the low-water stamp (log
entry 86), txc locks at the word (log entry 49). -/
def Sys2Proof.Claims.versionWords : Prop :=
  ∀ (s s1 s2 : State) (d : Dst) (x : Src) (p : PReg) (v : Val) (n : Word64), s.able false true false [] →
    let t := s.sched.cur
    let th := s.thread t
    let bad (i : Instr) (u : State) (c : Cause) : Prop := exec i s = .next (s.takes u c)
    (readSrc t .single false x s = .ok v s1 → ∀ m ∈ [(Instr.snapOpen d x, false), (.txb d x, true)],
      (th.view ≠ none → bad m.1 s1 0x93) ∧
      (th.view = none → v.val ≠ 0 → s1.merNow t < v.val.toNat ∨ (∃ d < 4, v.val.toNat < (s.die d).lw) → bad m.1 s1 0x92) ∧
      (th.view = none → (v.val = 0 ∧ logged t (BitVec.ofNat 64 (max (s1.merNow t) 1)) s1 = .ok n s2) ∨
        (v.val ≠ 0 ∧ v.val.toNat ≤ s1.merNow t ∧ (∀ d < 4, (s.die d).lw ≤ v.val.toNat) ∧ n = v.val ∧ s2 = s1) → s2.roomy →
        ∃ s', exec m.1 s = .next s' ∧
          Passes ((viewing s2.pruneRegs (some ⟨n.toNat, m.2, 0, false⟩)).gives d [Entry.mk' n .i64 (s2.after 0)]) s' (litWords [x]))) ∧
    (s.roomy → (th.view = none → ∃ s', exec .snapClose s = .next s' ∧ Passes s s' 0) ∧
      (∀ w, th.view = some w → (w.tx = true → bad .snapClose s 0x93) ∧
        (w.tx = false → ∃ s', exec .snapClose s = .next s' ∧ Passes (viewing s none) s' 0))) ∧
    (s.roomy → ∃ s', exec (.txchk p) s = .next s' ∧ Passes (s.modRegs fun r => r.tell p
      (match th.view with | none => .U | some w => if w.tx then (if w.doom = 0 then .T else .F) else .U) (s.after 0)) s' 0) ∧
    (readSrc t .single false x s = .ok v s1 →
      (∀ w, th.view = some w → w.tx = true → s1.roomy → ∃ s', exec (.txa x) s = .next s' ∧
        Passes (s1.closeTx t (BitVec.ofNat 64 (v.val.toNat % 256 * 256 + 5))) s' (litWords [x])) ∧
      ((th.view = none ∨ ∃ w, th.view = some w ∧ w.tx = false) → bad (.txa x) s1 0x93)) ∧
    (s.roomy →
      (th.view = none → 2 ≤ th.stage → ∃ s', exec (.txc p) s = .next s' ∧
        Passes ((s.acquire th.gcore).modRegs fun r => r.tell p .T (s.after 0)) s' 0) ∧
      ((th.view = none ∧ th.stage < 2) ∨ (∃ w, th.view = some w ∧ w.tx = false) → bad (.txc p) s 0x93) ∧
      (∀ w, th.view = some w → w.tx = true → th.cnt.st = 0 →
        (w.doom ≠ 0 → ∃ s', exec (.txc p) s = .next s' ∧
          Passes ((s.closeTx t (BitVec.ofNat 64 w.doom)).modRegs fun r => r.tell p .F (s.after 0)) s' 0) ∧
        (w.doom = 0 → th.stage < 2 → exec (.txc p) s = .next (s.holdWord
          ({ ((s.modSched fun c => { c with nextId := c.nextId + 1 }).modHomes fun h => h.lock (.tx t)) with
              commits := s.commits.put s.sched.nextId ⟨.tx t, t, th.id.die, none, w.far, s.sched.nextId, 0, s.ctxOf t, th.gcore⟩ }.modThread t
            fun th => { th with stage := s.sched.nextId + 2 }) t ⟨0xE, .event⟩)))) ∧
    (∀ why, let s3 := s.closeTx t why
      (s3.thread t).view = none ∧ (s3.thread t).txwhy = why ∧ s3.homes.mem = s.homes.mem ∧
        ∀ l y, (l, y) ∈ s3.homes.vlines → y.intent ≠ some t ∧ ∀ q ∈ y.pend, q.owner ≠ .tx t)

/-- vpub (R115): a record that fails the checks is taken as its cause, which is the model's reading of the order of checks (log entry 43);
otherwise a publication is handed over and its stamp is under way to the destination. -/
def Sys2Proof.Claims.publicationHandedOver : Prop :=
  ∀ (s : State) (d : Dst) (tb : Rec), s.able false true false [tb] →
    let t := s.sched.cur
    let r := Sys2Proof.Machine.recF ((s.ctx (s.ctxOf t)).recAt tb.val)
    (∀ c v u, checkRecord t r wrRights anyHome r.base s = .error (.trap c v) u → exec (.vpub d tb) s = .next (s.takes u c v)) ∧
    (∀ y, checkRecord t r wrRights anyHome r.base s = .ok y s → s.roomy → ∃ s', exec (.vpub d tb) s = .next s' ∧
      Passes { ((s.modSched fun c => { c with nextId := c.nextId + 1 }).gives d (empties s 1)) with
        commits := s.commits.put s.sched.nextId ⟨.pub (s.ctxOf t) tb.val, t, (s.thread t).id.die, none, false, s.sched.nextId, tb.val,
          s.ctxOf t, (s.thread t).gcore⟩ } s' 0)

/-- Snapshots, transactions and publications, as their words act. -/
def Obligations.ViewsAndPublication : Prop := versionWords ∧ publicationHandedOver

/-! ### Trials -/

namespace Sys2Proof.Claims

/-- A running candidate ends: its access counts must fall to 0 before the trial's end is made (R320, R321). -/
def ends (s : State) (st : Nat) (c : Cause) (fuel : Nat → Nat) : State :=
  s.modThread s.sched.cur fun th => { th.newWord with
    trial := th.trial.map fun r => { r with fuel := fuel r.fuel, ending := some ⟨st, c, th.pos.pc + th.pos.win⟩ }
    hold := some ⟨0xE, .event⟩ }

/-- The fold of R330. -/
def folded (th : Thread) (v : Word64) : Thread :=
  let h0 := (th.h0 ^^^ v).rotateLeft 13
  { th with h0 := h0, h1 := th.h1 + h0 }

end Sys2Proof.Claims

/-- The trial words (R328-R331): try begins a candidate from the window with its fuel and grant, or ends it at once with 0x69;
tend ends it; fold changes the signature; fuel takes fuel, or ends the candidate with 0x65. -/
def Obligations.TrialWords : Prop :=
  ∀ (s s1 s2 : State) (c : RCtl) (d : Dst) (a b : Src) (x y : Nat),
    let t := s.sched.cur
    let th := s.thread t
    (s.able c.ng true false [] → (∀ kv ∈ s.ops, kv.2.tid = t → kv.2.act = .lcload → kv.2.performed = true) →
      readUnsigned2 t a b s = .ok (x, y) s2 →
      let u := (s2.doom t 7).window t
      let len := leVal (u.1.take 2)
      let good := len ≠ 0 ∧ len ≤ 124 ∧ leVal ((u.1.drop 2).take 2) = 0
      let fuel := min x (2 ^ 32 - 1)
      let r : Trial := ⟨len, leVal ((u.1.drop 4).take 4), fuel, fuel, BitVec.ofNat 64 y, match d with | .k k => k.val | _ => 0,
        th.nextHeader, if good then none else some ⟨1, 0x69, 0⟩, false, 0⟩
      u.2.roomy → ∃ s', exec (.tryT c d a b) s = .next s' ∧
        Still (u.2.modThread t fun th => { th.newWord with
          h0 := 0, h1 := 0, trial := some r, pos := Pos.atHeader 0, hold := if good then none else some ⟨0xE, .event⟩ }) s') ∧
    (s.able c.ng false false [] →
      (th.inTrial = false → exec (.tend c) s = .next (s.takes s 0x6A)) ∧
      (th.inTrial = true → s.roomy → ∃ s', exec (.tend c) s = .next s' ∧ Still (ends s 0 0 (· - 1)) s')) ∧
    (s.able c.ng false false [] → ∀ v, readSrc t .single true a s = .ok v s1 → s1.roomy →
      (v.kind = .fut → exec (.fold c a) s = .next (s.takes s1 0x2D)) ∧
      (v.kind ≠ .fut → ∃ s', exec (.fold c a) s = .next s' ∧ Passes (s1.modThread t fun th => folded th v.val) s' (litWords [a]))) ∧
    (s.able c.ng false false [] → readUnsigned t a s = .ok x s1 → s1.roomy →
      let want := min x (2 ^ 32 - 1)
      (th.inTrial = false → ∃ s', exec (.fuel c d a) s = .next s' ∧ Passes (s1.gives d [Entry.mk' 0 .i32 (s1.after 1)]) s' (litWords [a])) ∧
      (∀ r, th.trial = some r → r.susp = false →
        (r.fuel ≤ want → ∃ s', exec (.fuel c d a) s = .next s' ∧ Still (ends s1 1 0x65 fun _ => 0) s') ∧
        (want < r.fuel → ∃ s', exec (.fuel c d a) s = .next s' ∧
          Passes ((s1.modThread t fun th => { th with trial := th.trial.map fun r => { r with fuel := r.fuel - want } }).gives d
            [Entry.mk' (BitVec.ofNat 64 (r.fuel - 1 - want)) .i32 (s1.after 1)]) s' (litWords [a]))))

/-! ### Engines, the brick array, tasks and system words -/

namespace Sys2Proof.Claims

/-- An operation handed to engine `e` by its leader and the other threads of `os`: their issue counts rise, their destinations
are empty until the future is delivered, and the operation is queued (R21, R169, R258). -/
def handed (s : State) (l : Nat) (os : List Nat) (d : Dst) (e tbD : Nat) (h : Handed) : State :=
  let tok := s.sched.nextId
  let s1 := (l :: os).foldl (fun s u => s.modThread u fun th =>
    { th with cnt := { th.cnt with en := th.cnt.en + 1 }, regs := th.regs.put d [Entry.pend tok 0] })
    (s.modSched fun c => { c with nextId := tok + 1 })
  s1.modEngine (s.thread l).gcore e fun x => { x with ops := x.ops.put tok {
    tid := l, others := os, ctx := s.ctxOf l, work := (s.thread l).id.work, group := (s.thread l).id.group, tbD := tbD,
    what := h.what, tok := tok, slot := none, st := .queued, taken := 0, progress := 0, cancel := false, retried := false,
    viewD := h.viewD, viewS := h.viewS, begun := false, start := 0, got := [], buf := none, order := tok } }

/-- The copy-class words: instruction, checks, engine, destination record, extension words. -/
def engineRows (d : Dst) (tbD tbS : Rec) (x : XCtl) (a b c : Src) : List (Instr × (Nat → M Handed) × Nat × Nat × Nat) :=
  [(.copy d tbD tbS a b c, copyChecks tbD tbS a b c, 0, tbD.val, 1 + litWords [a, b, c]),
   (.slabld d tbS a b c, slabldChecks tbS a b c, 1, 256, 1 + litWords [a, b, c]),
   (.xform d tbD tbS x a b, xformChecks tbD tbS x a b, 2, tbD.val, 1 + litWords [a, b])]

/-- A record as a word names it, for a thread. -/
def recBits (s : State) (t : Nat) (tb : Rec) : BitVec 512 := (s.ctx (s.ctxOf t)).recAt tb.val

end Sys2Proof.Claims

/-- A copy, slabld or xform whose checks pass is handed to its engine with a future on its way, in the thread order of its bundle; a
check that fails is taken as its cause. What the checks let through keeps the rules of R68, R169, R175, R177 and R178. -/
def Sys2Proof.Claims.engineWords : Prop :=
  ∀ (s s1 : State) (d : Dst) (tbD tbS : Rec) (x : XCtl) (a b c : Src),
    let t := s.sched.cur
    (s.able false true false [] → myTurn s → ∀ m ∈ engineRows d tbD tbS x a b c,
      (∀ h, m.2.1 t s = .ok h s1 → s1.roomy → (s1.thread t).cnt.en < 255 → ∃ s', exec m.1 s = .next s' ∧
        Passes (handed s1 t [] d m.2.2.1 m.2.2.2.1 h) s' m.2.2.2.2) ∧
      (∀ k v, m.2.1 t s = .error (.trap k v) s1 → exec m.1 s = .next (s.takes s1 k v))) ∧
    (let D := Sys2Proof.Machine.recF (recBits s t tbD)
     let S := Sys2Proof.Machine.recF (recBits s t tbS)
     (∀ h, copyChecks tbD tbS a b c t s = .ok h s1 → D.valid = true ∧ S.valid = true ∧ D.wr = true ∧ D.en = true ∧ S.rd = true ∧
        S.en = true ∧ S.scl ≤ 2 ∧ ∃ dL sL n, h.what = .copy (recBits s t tbD) (recBits s t tbS) dL sL n ∧
          dL % 16 = 0 ∧ sL % 16 = 0 ∧ n % 16 = 0 ∧ n ≤ 65535 * 4096) ∧
     (∀ h, slabldChecks tbS a b c t s = .ok h s1 → S.valid = true ∧ S.rd = true ∧ S.en = true ∧ S.rowlen ≠ 0 ∧
        S.scl ≤ 2 ∧ ∃ row col off n, h.what = .slabld (recBits s t tbS) row col off n ∧ off % 16 = 0 ∧ off + S.rowlen ≤ 131072 ∧ col + n ≤ 128) ∧
     (∀ h, xformChecks tbD tbS x a b t s = .ok h s1 → D.valid = true ∧ S.valid = true ∧ D.wr = true ∧ D.en = true ∧ S.rd = true ∧
        S.en = true ∧ S.rowlen ≠ 0 ∧ D.rowlen ≠ 0 ∧ S.trows ≠ 0 ∧ S.tcols ≠ 0 ∧ S.scl ≤ 2 ∧ ∃ dL sL,
          h.what = .xform (recBits s t tbD) (recBits s t tbS) x dL sL ∧ dL % 16 = 0 ∧ sL % 16 = 0))

/-- fut.test answers whether a handle's operation has completed, without waiting; fut.cancel cancels it or takes 0x80; drain passes, as
an acquire, once no operation of its set that an engine had accepted before it is left (R183-R185). The model's own: a FUT that is no
handle names no operation (log entry 91), where a running operation stops (log entry 51), a handle whose generation has come round
again (log entry 18). -/
def Sys2Proof.Claims.futureWords : Prop :=
  (∀ (s s1 : State) (c : RCtl) (d : Dst) (a : Src) (p : PReg) (v : Val), s.able c.ng true false [] →
    readSrc s.sched.cur .single true a s = .ok v s1 → s1.roomy →
    let h := handleOf v.val
    let names := v.imm = false ∧ (v.kind = .fut ∨ v.kind = .i64) ∧ s1.wellFormed h = true
    let sl := s1.slotOf h
    let ended := sl.gen.toNat ≠ h.gen ∨ sl.busy = false ∨ sl.status ≠ none
    let tests (k : Kind) (q : Tri) : Prop := ∃ s', exec (.futTest c d a p) s = .next s' ∧
      Passes ((s1.gives d [Entry.mk' v.val k (s1.after 0)]).modRegs fun r => r.tell p q (s1.after 0)) s' (litWords [a])
    (names → ended → tests .fut .T) ∧ (names → ¬ ended → tests .fut .F) ∧ (¬ names → tests .i64 .U) ∧
    (v.kind = .fut → v.imm = false → s1.wellFormed h = false → ∃ s', exec (.futCancel c a) s = .next s' ∧ Passes s1 s' (litWords [a])) ∧
    (v.imm = true ∨ (v.kind ≠ .fut ∧ ¬ names) → exec (.futCancel c a) s = .next (s.takes s1 0x80)) ∧
    (names → (∀ i o, (s1.engOps h.core h.eng).find? (fun o => decide (o.2.slot = some h.slot)) = some (i, o) → sl.busy = true →
        sl.gen.toNat = h.gen → ∃ s', exec (.futCancel c a) s = .next s' ∧ Passes (s1.cancelOp h.core h.eng i) s' (litWords [a])) ∧
      (sl.busy = false ∨ sl.gen.toNat ≠ h.gen ∨ (s1.engOps h.core h.eng).find? (fun o => decide (o.2.slot = some h.slot)) = none → ∃ s', exec (.futCancel c a) s = .next s' ∧ Passes s1 s' (litWords [a])))) ∧
  (∀ (s : State) (st : Stall) (m : DrainSet), s.able false true false [] → s.roomy →
    let th := s.thread s.sched.cur
    let mark := if th.stage < 2 then s.sched.nextId else th.stage - 2
    (∀ e < 3, ∀ o ∈ s.engOps th.gcore e, o.2.st ≠ .queued → o.2.taken < mark → ∀ x, o.2.dest s.dev.fab = some x → m ≠ .all ∧ x ≠ m) →
    ∃ s', exec (.drain st m) s = .next s' ∧ Passes (s.acquire th.gcore) s' 0)

/-- Operations handed to the engines, and the words that deal with futures. -/
def Obligations.EngineAndFutureWords : Prop := engineWords ∧ futureWords

namespace Sys2Proof.Claims

/-- The threads of the current thread's group that stand at its word. -/
def atWord (s : State) : List Nat :=
  let th := s.thread s.sched.cur
  (s.groupLive th.id.group).filter fun u => let x := s.thread u
    x.place == .running && x.pos.pc == th.pos.pc && x.pos.win == th.pos.win && !x.done && !x.part

/-- The words of the brick array: instruction, guard, checks, destination, destination record, extension words. -/
def arrayRows (d : Dst) (tile : Fin 16) (tbA tbB : Rec) (fA fB : BitVec 4) (sp : Sparse) (ovw : Bool) (a b c : Src) (st : Stall) :
    List (Instr × (Nat → M Handed) × Dst × Nat × Nat) :=
  [(.mma d tile tbA tbB fA fB ovw a b c, mmaChecks tile tbA tbB fA fB none ovw a b c, d, 256, 1 + litWords [a, b, c]),
   (.mmaSp d tile tbA tbB fA fB sp ovw a b c, mmaChecks tile tbA tbB fA fB (some sp) ovw a b c, d, 256, 1 + litWords [a, b, c]),
   (.accLd d tile tbA fA fB a c, accChecks true tile tbA fA fB a c, d, 256, 1 + litWords [a, c]),
   (.accSt d tile tbA fA fB a c, accChecks false tile tbA fA fB a c, d, tbA.val, 1 + litWords [a, c]),
   (.accZero st tile, fun t => do checkTile t tile; return ⟨.accZero tile.val, .latest, .latest⟩, .none, 256, 0)]

end Sys2Proof.Claims

/-- The array's words perform once for their group, for the lowest-indexed thread whose guard is true: the operation is handed to
the array, and every thread of the group there goes past the word; acc.swap holds them until the exchange has been made. A tile
beyond the team's grant takes 0x86 in every such thread, whose other checks let nothing through (R258-R262). -/
def Sys2Proof.Claims.arrayWords : Prop :=
  ∀ (s : State) (d : Dst) (tile : Fin 16) (tbA tbB : Rec) (fA fB : BitVec 4) (sp : Sparse) (ovw : Bool) (a b c : Src) (st : Stall),
    s.able false true false [] →
    let t := s.sched.cur
    (∀ m ∈ arrayRows d tile tbA tbB fA fB sp ovw a b c st,
      ((s.thread t).part = true → s.roomy → ∃ s', exec m.1 s = .next s' ∧ Passes s s' m.2.2.2.2) ∧
      ((s.thread t).part = false → ∀ l os, (atWord s).filter (fun u => (s.thread u).pos.g) = l :: os →
        (∀ s1 h, m.2.1 l s = .ok h s1 → s1.roomy → (∀ u ∈ l :: os, (s1.thread u).cnt.en < 255) → (l :: os).Nodup →
          ∃ s', exec m.1 s = .next s' ∧ Passes (parted (handed s1 l os m.2.2.1 3 m.2.2.2.1 h) (atWord s)) s' m.2.2.2.2) ∧
        (∀ s1 k v, m.2.1 l s = .error (.trap k v) s1 →
          exec m.1 s = .next ((atWord s).foldl (fun s u => s.fail u k v) (s.spent s1 l k))))) ∧
    (∀ l os, (s.thread t).part = false → (atWord s).filter (fun u => (s.thread u).pos.g) = l :: os →
      (s.workOf l).kernel.acc ≤ tile.val → ∀ i ∈ [Instr.accZero st tile, .accSwap st tile],
        exec i s = .next ((atWord s).foldl (fun s u => s.fail u 0x86 0) (s.spent s l 0x86))) ∧
    (s.roomy → (s.thread t).part = true → (∀ o ∈ s.engOps (s.thread t).gcore 3, ∀ n, o.2.what = .accSwap n → o.2.group ≠ (s.thread t).id.group) →
      ∃ s', exec (.accSwap st tile) s = .next s' ∧ Passes s s' 0) ∧
    (∀ l os, s.roomy → (s.thread t).part = false → (atWord s).filter (fun u => (s.thread u).pos.g) = l :: os →
      (s.thread l).gcore = (s.thread t).gcore → tile.val < (s.workOf l).kernel.acc → (∀ u ∈ l :: os, (s.thread u).cnt.en < 255) → (l :: os).Nodup →
      let u := parted (handed s l os .none 3 256 ⟨.accSwap tile.val, .latest, .latest⟩) (atWord s)
      exec (.accSwap st tile) s = .next (u.holdWord u t ⟨0xB, .event⟩)) ∧
    (∀ e st' m k, (mmaChecks tile tbA tbB fA fB none ovw a b c e st' = .ok m k ∨ mmaChecks tile tbA tbB fA fB (some sp) ovw a b c e st' = .ok m k ∨
        accChecks true tile tbA fA fB a c e st' = .ok m k ∨ accChecks false tile tbA fA fB a c e st' = .ok m k) →
      tile.val < (st'.workOf e).kernel.acc ∧ (Sys2Proof.Machine.recF (recBits st' e tbA)).valid = true)

/-- acc.swap holds every thread of its group that has arrived, whatever its guard, until the exchange has been made (R261). -/
def Sys2Proof.Claims.swapHoldsItsGroup : Prop :=
  ∀ (s : State) (tile : Fin 16) (st : Stall),
    let t := s.sched.cur
    let th := s.thread t
    (s.threads.find t).isSome = true → th.trial = none → th.part = true →
    (∃ o ∈ s.engOps th.gcore 3, ∃ n, o.2.what = .accSwap n ∧ o.2.group = th.id.group) →
    exec (.accSwap st tile) s = .next (s.holdWord s t ⟨0xB, .event⟩)

/-- The array's words, and what acc.swap holds. -/
def Obligations.ArrayWords : Prop := arrayWords ∧ swapHoldsItsGroup

/-! ### Tasks -/

/-- job.push and launch answer 0 for a card that is filed, and the reason of R336 for one that is not; a full ring holds the word, and so
does a check that reads what is off now (R394);
qstat answers the quay's words; job.done ends its thread with its result; yield parks its thread (R352-R354). -/
def Obligations.TaskWords : Prop :=
  (∀ (s s1 : State) (d : Dst) (tb : Rec) (x : Src), s.able false true false [tb] →
    let t := s.sched.cur
    ∀ m ∈ [(Instr.jobPush d tb x, 0), (.launch d tb x, 1)],
      let answers (u : State) (n : Nat) : Prop := u.roomy → ∃ s', exec m.1 s = .next s' ∧
        Passes (u.gives d [Entry.mk' (BitVec.ofNat 64 n) .i32 (u.after 0)]) s' (litWords [x])
      (2 ≤ (s.thread t).stage → (∀ kv ∈ s.cards, kv.1 = (s.thread t).stage - 2 → kv.2.st ≠ .waiting) → answers s 0) ∧
      ((s.thread t).stage < 2 → myTurn s → (s.thread t).cnt.st = 0 → ∀ bits, readCard t tb x s = .ok bits s1 → (s1.thread t).cnt.en < 255 →
        (bits.extractLsb' 118 2 ≠ BitVec.ofNat 2 m.2 → answers s1 1) ∧
        (bits.extractLsb' 118 2 = BitVec.ofNat 2 m.2 →
          (∀ r, s1.admission (s1.ctxOf t) (s.thread t).id.die bits = .error (some r) → (1 ≤ r ∧ r ≤ 7) ∧ answers s1 r) ∧
          (s1.admission (s1.ctxOf t) (s.thread t).id.die bits = .error none → s1.overfull (s1.thread t).id.work = false →
            exec m.1 s = .next (s.holdWord s1 t ⟨0xE, .poll⟩)) ∧
          (∀ c u, s1.admission (s1.ctxOf t) (s.thread t).id.die bits = .ok (c, u) →
            let filed := (u.addCard c).2
            let i := (u.addCard c).1
            (filed.ringRoom c.homeDie c.quay = true → (∀ kv ∈ filed.cards, kv.1 < i → kv.2.st = .waiting → kv.2.homeDie = c.homeDie → kv.2.quay ≠ c.quay) →
              answers (filed.fileCard i) 0) ∧
            (filed.ringRoom c.homeDie c.quay = false → filed.roomy →
              exec m.1 s = .next (s.holdWord (filed.modThread t fun th => { th with stage := i + 2 }) t ⟨0xE, .poll⟩)))))) ∧
  (∀ (s s2 : State) (c : RCtl) (d : Dst) (a b : Src) (q k : Nat), s.able c.ng true false [] →
    readUnsigned2 s.sched.cur a b s = .ok (q, k) s2 → s2.roomy →
    (1 < k → exec (.qstat c d a b) s = .next (s.takes s2 0x06)) ∧
    (k ≤ 1 → ∃ s', exec (.qstat c d a b) s = .next s' ∧ Passes (s2.gives d [Entry.mk' (BitVec.ofNat 64
      (if k = 0 then s2.quayState (s2.thread s.sched.cur).id.die (q % 64) else s2.quayConfig (s2.thread s.sched.cur).id.die (q % 64))) .i64 (s2.after 0)])
      s' (litWords [a, b]))) ∧
  (∀ (s s1 : State) (c : RCtl) (a : Src) (v : Val), s.able c.ng true true [] → (s.thread s.sched.cur).deferred = [] →
    readSrc s.sched.cur .single false a s = .ok v s1 → s1.roomy →
    let t := s.sched.cur
    let card := (s1.workOf t).card
    (v.imm = false → v.kind ≠ .i32 → v.kind ≠ .i64 → exec (.jobDone c a) s = .next (s.takes s1 0x2D)) ∧
    (v.imm = true ∨ v.kind = .i32 ∨ v.kind = .i64 → (s.thread t).cnt.st = 0 → (s1.cards.find card).isSome = true →
      ∃ s', exec (.jobDone c a) s = .next s' ∧ s'.threads.find t = none ∧ s'.homes.mem = s1.homes.mem ∧
        (∀ k, k ≠ card → s'.cards.find k = s1.cards.find k) ∧ (s'.card card).result = (s1.card card).result ||| v.val.setWidth 32 ∧
        ∀ u, u ≠ t → (s'.threads.find u).map Thread.shown = (s1.threads.find u).map Thread.shown)) ∧
  (∀ (s : State) (c : RCtl), s.able c.ng true false [] → (s.thread s.sched.cur).cnt.st = 0 → s.roomy →
    let t := s.sched.cur
    let th := s.thread t
    ∃ s', exec (.yield c) s = .next s' ∧ s'.homes = s.homes ∧ (s'.thread t).place = .yielded ∧ (s'.thread t).regs = th.regs ∧
      (s'.thread t).pos = Pos.atHeader th.nextHeader ∧ othersStill s s' t)

/-! ### System words -/

namespace Sys2Proof.Claims

/-- The thread after rft: queue and predicates from the shadow, the copied value at its destination, act cleared, and the place that
sr.trap.epc names (R361, R362, R373). -/
def comesBack (th : Thread) (d : Dst) (v : Val) (now : Nat) : Thread :=
  let th1 := { th with regs := Regs.put ⟨th.trap.shq, th.regs.k, th.trap.shp⟩ d [Entry.mk' v.val v.kind now] }
  (Thread.resume { th1 with trap := { th1.trap with cause := th1.trap.cause &&& 0xFF } }).settle

/-- Fields of sr.trap.epc (R360): mode, address, windex, extension words, guard. -/
def epcOf (e : Word64) : Nat × Nat × Nat × Nat × Bool :=
  (e.toNat % 4, e.toNat / 4 % 2 ^ 50 * 4, e.toNat / 2 ^ 59 % 16, e.toNat / 2 ^ 55 % 16, e.getLsbD 63)

end Sys2Proof.Claims

/-- trap and halt take their causes with their operand as value, halt once its stores have drained, which posts a record of kind 1 and
stops the thread; rft goes back to what sr.trap.epc names, with the shadowed queue
and predicates; setsr writes a special register's writable fields, and time reads a clock (R210, R372-R376). -/
def Sys2Proof.Claims.systemWords : Prop :=
  ∀ (s s1 : State) (c : RCtl) (st : Stall) (d : Dst) (a : Src) (n : Fin 16) (v : Val),
    let t := s.sched.cur
    let th := s.thread t
    (s.able false true false [] → readSrc t .single false a s = .ok v s1 → exec (.trap st a n) s = .next (s.takes s1 (BitVec.ofNat 8 (0x10 + n.val)) v.val)) ∧
    (s.able c.ng true false [] → th.cnt.st = 0 → readSrc t .single false a s = .ok v s1 → exec (.halt c a) s = .next (s.takes s1 0xA2 v.val)) ∧
    (s.able c.ng true false [] → th.cnt.st ≠ 0 → s.overfull th.id.work = false → exec (.halt c a) s = .next (s.holdWord s t ⟨0xE, .counts false true⟩)) ∧
    ((s.deliver t 0xA2 v.val).threads.find t = none ∧ recorded s (s.deliver t 0xA2 v.val) t 0xA2 v.val ∨ th.inTrial = true) ∧
    (s.able c.ng true false [] →
      let e := epcOf th.trap.epc
      let good := th.trap.cause.toNat / 256 % 2 = 1 ∧ e.1 ≠ 3 ∧ ¬ (e.2.2.1 = 0 ∧ e.1 = 1)
      (¬ good → (srcRules t false [a]).run s = .ok () s → exec (.rft c d a) s = .next (s.takes s 0x6B)) ∧
      (good → readSrc t .single true a s = .ok v s1 → ∀ s2,
        (s1.mendShadow t = (s2, false) → exec (.rft c d a) s = .next (s.takes s2 0x42)) ∧
        (s1.mendShadow t = (s2, true) → s2.roomy → ∃ s', exec (.rft c d a) s = .next s' ∧
          Still (s2.modThread t fun th => comesBack th d v (s2.after 0)) s'))) ∧
    (∀ th : Thread, let e := epcOf th.trap.epc
      let plain := th.trial = none ∨ th.trap.cand = false
      (plain → (e.1 = 2 ∨ e.2.2.1 = 0) → (Thread.resume th).pos = Pos.atHeader e.2.1) ∧
      (plain → e.1 = 0 → e.2.2.1 ≠ 0 → (Thread.resume th).pos = ⟨e.2.1, e.2.2.1, 0, [], false, e.2.2.2.2⟩) ∧
      (plain → e.1 = 1 → e.2.2.1 ≠ 0 → (Thread.resume th).pos = ⟨e.2.1, e.2.2.1 + 1 + e.2.2.2.1, 0, [], false, e.2.2.2.2⟩) ∧
      (∀ r, th.trial = some r → r.susp = true → th.trap.cand = true → e.1 = 0 → (Thread.resume th).pos = Pos.atHeader r.pc ∧ (Thread.resume th).trial = some { r with susp := false })) ∧
    (∀ i : BitVec 10, s.able false true false [] →
      (0x180 ≤ i.toNat → (s.ctx (s.ctxOf t)).observe = false → exec (.setsr st a i) s = .next (s.takes s 0x08)) ∧
      (i.toNat < 0x180 ∨ (s.ctx (s.ctxOf t)).observe = true → readSrc t .single false a s = .ok v s1 → s1.roomy →
        ∃ s', exec (.setsr st a i) s = .next s' ∧ Passes (s1.setSreg t i.toNat v.val) s' (litWords [a]))) ∧
    (∀ cyc y, s.able c.ng true false [] → logged t (if cyc then s.cycNow t else BitVec.ofNat 64 (s.merNow t)) s = .ok y s1 → s1.roomy →
      ∃ s', exec (.time c d cyc) s = .next s' ∧ Passes (s1.gives d [Entry.mk' y .i64 (s1.after 2)]) s' 0)

/-- What setsr writes (R210): the RW fields of its register as R250, R325, R360, R379 and R381 give them, so that getsr reads them back,
and nothing of any other register, but that a unit's control register ends a run, which its histogram counts (R382); sr.ctl takes effect
at the next header, and the counters of organisation 1 ignore writes. -/
def Sys2Proof.Claims.specialRegisters : Prop :=
  ∀ (s : State) (t i : Nat) (x : Word64), (s.threads.find t).isSome → sregAccess i = some true →
    let th := s.thread t
    let u := s.setSreg t i x
    let org := (s.die th.id.die).org
    (i = 0x000 → (u.thread t).sckNext = some (x.getLsbD 0) ∧ u.sreg t i = s.sreg t i) ∧
    (i = 0x070 → (s.works.find th.id.work).isSome → u.sreg t i = (x.setWidth 16 ||| s.satLate th.id.work th.gcore).setWidth 64) ∧
    (i = 0x090 → u.sreg t i = x &&& 0x000FFFFFFFFFFFFD) ∧
    (i = 0x091 → u.sreg t i = (s.sreg t i &&& 0xFFF0000000000000) ||| (x &&& 0x000FFFFFFFFFFFFF)) ∧
    (i = 0x100 ∨ i = 0x101 → u.sreg t i = x) ∧ (i = 0x102 → u.sreg t i = x &&& 0x1FF) ∧
    (0x1A0 ≤ i → org = true → u = s) ∧
    (0x1A0 ≤ i → i < 0x1A8 → org = false → u.sreg t i = x &&& 0xFFFFFFFFF0000000) ∧
    (0x1A8 ≤ i → org = false → u.sreg t i = x) ∧
    (∀ j, sregAccess j = some false → u.sreg t j = s.sreg t j) ∧
    (∀ j, sregAccess j = some true → j ≠ i → ¬ (0x1A0 ≤ i ∧ i < 0x1A8 ∧ 0x1B8 ≤ j) → u.sreg t j = s.sreg t j) ∧
    (∀ k, k ≠ t → u.threads.find k = s.threads.find k) ∧ (u.thread t).regs = th.regs ∧ (u.thread t).pos = th.pos ∧
    u.homes = s.homes ∧ u.groups = s.groups ∧ u.dies = s.dies ∧ u.dev = s.dev ∧ u.ops = s.ops ∧ u.cards = s.cards

namespace Sys2Proof.Claims

/-- The registers of a saved image: its destination holds 1, pushed where it is q (R375). -/
def asSaved (r : Regs) (d : Dst) : Regs :=
  match d with
  | .none => r
  | .q => { r with q := pushQ r.q (Entry.mk' 1 .i32 0) }
  | .k i => { r with k := setK r.k i.val (Entry.mk' 1 .i32 0) }

end Sys2Proof.Claims

/-- ctx.save writes the thread's image of R375, in which its destination holds 1, and gives 0, its store in flight or in the side
log; ctx.load holds until its image has been read, and its thread goes on as the image says. -/
def Sys2Proof.Claims.contextImages : Prop :=
  ∀ (s s1 s2 : State) (h : Hint) (d : Dst) (tb : Rec) (x : Src) (ix : Val) (p : Placed), s.able false true false [tb] →
    let t := s.sched.cur
    let th := s.thread t
    (th.cnt.ld = 0 → (∀ e ∈ th.regs.k.toList ++ th.regs.q.toList, e.wait = none ∧ e.ready ≤ s.lcOf t) →
      (∀ e ∈ th.regs.p.toList, e.wait = none ∧ e.ready ≤ s.lcOf t) → readSrc t .raw false x s = .ok ix s1 →
      placeAccess t tb ix imageOff 512 16 linearRec wrRights anyHome (pure ()) s1 = .ok p s2 →
      let bs := ((childWith s (asSaved th.regs d) 0).map fun w => leBytes 8 w.toNat).flatten
      let tx := txOf s2 p.r.view
      let v := writeView t p.view tx
      let zero (u : State) : State := u.gives d [Entry.mk' 0 .i32 (u.after 0)]
      (∀ s4 s5 a, goesToSide t p s2 = .ok false s2 → placeXlat t p .write false s2 = .ok a s4 →
        (tx = none → s5 = s4) → (tx ≠ none → unversioned p.home a s4 = .ok false s5) → (s5.thread t).cnt.st < 255 →
        let out := sent (storeMore s5 t) (opOf s5 tb { a with view := v } (.store bs 4096) h false)
        out.roomy → ∃ s', exec (.ctxSave h d tb x) s = .next s' ∧ Passes (zero out) s' (litWords [x])) ∧
      (∀ s4 s5, goesToSide t p s2 = .ok true s4 →
        sideLog t tb { p with view := v } (p.cs.map fun c => (p.r.base + c.1, c.2)) bs (fun b => .store b (8 * b.length)) h s4 = .ok () s5 →
        s5.roomy → ∃ s', exec (.ctxSave h d tb x) s = .next s' ∧ Passes (zero s5) s' (litWords [x]))) ∧
    (∀ a s3, th.stage < 2 → readSrc t .raw false x s = .ok ix s1 →
      placeAccess t tb ix imageOff 512 16 linearRec rdRights anyHome (pure ()) s1 = .ok p s2 → placeXlat t p .read (cached s2) s2 = .ok a s3 →
      (s3.thread t).cnt.ld < 255 → s3.roomy → awaits (.ctxLoad h tb x) s (loadMore s3 t) (opOf s3 tb a .ctxLoad h true)) ∧
    (∀ i o, th.stage = i + 2 → s.ops.find i = some o → o.performed = true → State.roomy { s with ops := s.ops.drop i } →
      ∃ s', exec (.ctxLoad h tb x) s = .next s' ∧
        Still ({ s with ops := s.ops.drop i }.modThread t fun th => (({ th with cnt := { th.cnt with ld := th.cnt.ld - 1 } }).fromImage (s.groupOf t).n
          (o.out.map fun v : Word64 × Kind => v.1)).settle) s')

/-- The system words, the special registers they write, and the images of a thread. -/
def Obligations.SystemAndImages : Prop := systemWords ∧ contextImages ∧ specialRegisters

/-! ### Events of memory -/

namespace Sys2Proof.Claims

/-- An access that is in flight and whose turn has come (R87, R265, R266). -/
def ready (s : State) (i : Nat) (o : MemOp) : Prop :=
  s.ops.find i = some o ∧ o.performed = false ∧ s.clearToGo i o = true

/-- The thread of an access receives its results, and its load count falls (R21, R153). -/
def lands (s : State) (i : Nat) (t : Nat) (vs : List (Word64 × Kind)) (ps : List Tri) : State :=
  ({ s with ops := s.ops.drop i }.modThread t fun th => th.land i vs ps).modThread t fun th =>
    { th with cnt := { th.cnt with ld := th.cnt.ld - 1 } }

/-- The access has performed; the word that holds for it takes its results. -/
def performed (s : State) (i : Nat) (vs : List (Word64 × Kind)) : State :=
  { s with ops := s.ops.upd i fun o => { o with performed := true, pieces := [], revs := [], out := vs } }

/-- The result of an access reaches its thread, or the word that holds for it. -/
def reaches (u s' : State) (i : Nat) (o : MemOp) (vs : List (Word64 × Kind)) (ps : List Tri) : Prop :=
  (o.blocking = true → s' = performed u i vs) ∧
  (o.blocking = false → o.tid ≠ 0 → s' = lands (performed u i vs) i o.tid vs ps)

/-- The access has one part, of `n` bytes. -/
def onePart (o : MemOp) (p : Piece) (n : Nat) : Prop := o.pieces = [p] ∧ p.off = 0 ∧ p.len = n

/-- The part lies within a line of a versioned page in main memory, awake and sound, whose code can be read. -/
def versionedMain (s : State) (o : MemOp) (p : Piece) (n : Nat) : Prop :=
  o.home = .main ∧ onePart o p n ∧ 0 < n ∧ o.tid ≠ 0 ∧ p.src = p.pa ∧ p.ver = true ∧ (s.work o.who.work).rpl = none ∧
    s.lineAwake (p.pa / 256) = true ∧ p.va % 256 = p.pa % 256 ∧ p.pa % 256 + n ≤ 256 ∧ p.pa / 256 ∉ s.homes.poison

/-- No other load of the operation's word shares a line with it (R145). -/
def alone (s : State) (i : Nat) (o : MemOp) : Prop :=
  ∀ kv ∈ s.ops, o.loadWith kv.2 = true → kv = (i, o) ∨ ∀ l ∈ kv.2.vlines, l ∉ o.vlines

/-- The version of a line that a stamp reads: the newest whose stamp is at or below it (R98). -/
def versionAt (s : State) (line x : Nat) : Option LineData :=
  let v := s.vline line
  if v.stamp ≤ x then some (memLine s.homes.mem line) else (v.older.find? fun o => decide (o.stamp ≤ x)).map (·.data)

/-- A version of the line is locked, or has begun locking, that a read must wait for: at or below its stamp, or at all (R98). -/
def waitsFor (v : VLine) (x : Option Nat) : Prop :=
  ∃ p ∈ v.pend, p.locking = true ∧ ∀ c y, p.stamp = some c → x = some y → c ≤ y

/-- What a view reads of a versioned line: the newest version, the version at its stamp, or its transaction's own (R98, R99). -/
def seen (s : State) (line : Nat) : ReadAs → Option LineData
  | .latest => some (memLine s.homes.mem line)
  | .snap x => versionAt s line x
  | .tx x t => match (s.vline line).pend.find? fun p => decide (p.owner = .tx t) with
    | some p => some p.data
    | none => versionAt s line x

/-- A read of a view must wait for a commit at the line (R98, R99). -/
def mustWait (v : VLine) : ReadAs → Prop
  | .latest => waitsFor v none
  | .snap x => waitsFor v (some x)
  | .tx x t => (∀ p ∈ v.pend, p.owner ≠ .tx t) ∧ waitsFor v (some x)

/-- The part lies within an unversioned line of main memory, awake, and belongs to a team that is not in replay mode. -/
def plainMain (s : State) (o : MemOp) (p : Piece) (n : Nat) : Prop :=
  o.home = .main ∧ onePart o p n ∧ p.src = p.pa ∧ p.ver = false ∧ (s.work o.who.work).rpl = none ∧ s.lineAwake (p.pa / 256) = true ∧
    p.pa % 256 + n ≤ 256

/-- Bytes of main memory. -/
def memBytes (s : State) (pa n : Nat) : List Byte := (List.range n).map fun j => s.homes.mem.read (pa + j)

/-- The entries of a load (R152, R153). -/
def loaded (size count : Nat) (sx : Bool) (k : Kind) (bs : List Byte) : List (Word64 × Kind) :=
  (List.range count).map fun j =>
    let v := leVal ((bs.drop (j * size)).take size)
    (if sx then ((BitVec.ofNat (8 * size) v).signExtend 32).setWidth 64 else BitVec.ofNat 64 v, k)

/-- The table of R158: the new memory value of an operator, on integers of `w` bytes or on floating codes. -/
def newValue (op : AtomOp) (w : Nat) (k : Kind) (m v cmp : Nat) : Nat :=
  let x : BitVec (8 * w) := BitVec.ofNat (8 * w) m
  let y : BitVec (8 * w) := BitVec.ofNat (8 * w) v
  let sum (f : Num.FFmt) : Nat := Num.encodeF f .rn (Sys2Proof.Num.add .rn (Num.decodeF f m) (Num.decodeF f v))
  match op with
  | .add => if k = .f32 then sum Num.f32 else if k = .f64 then sum Num.f64 else (x + y).toNat
  | .min => if y.slt x then v else m
  | .minUn => if v < m then v else m
  | .max => if x.slt y then v else m
  | .maxUn => if m < v then v else m
  | .and => (x &&& y).toNat
  | .or => (x ||| y).toNat
  | .xor => (x ^^^ y).toNat
  | .xchg => v
  | .cas => if m = cmp then v else m

/-- The metadata byte that holds a line's code, where its page is compressed and its tier has a metadata region (R128). -/
def metaByte (s : State) (line : Nat) : Option Nat :=
  let near := decide (line * 256 < 0x2000000000)
  let die := lineDie line
  if s.homes.cmps.contains (line / 256) then
    ((if near then (s.die die).metaNear else (s.die die).metaFar)).map fun base =>
      let o := line * 256 - tierBase (!near) die
      tierBase false die + base + 128 * (o / 65536) + o / 256 % 256 / 2
  else none

/-- Nothing outlives a plain write of the bytes, and nothing makes it wait: no copy or replica is left elsewhere, the line is sound
or written whole, its code can be read (R129, R130), and no word has an owner other than `own` (R120). -/
def writable (s : State) (own : Option Nat) (pa n : Nat) : Prop :=
  s.homes.copies.getD (pa / 256) [] = [] ∧ (∀ d < 4, ∀ r ∈ (s.die d).replicas, r.page ≠ pa / 256 / 256) ∧
    (pa / 256 ∈ s.homes.poison → n = 256) ∧ s.oldOwners (wordsOf pa n) own = [] ∧
    ∀ a, metaByte s (pa / 256) = some a → (s.homes.mem.read a).toNat / (if pa / 256 % 2 = 0 then 1 else 16) % 16 ≤ 8

/-- The bytes at `pa` are `bs`, and every other byte of memory is as before, but for the metadata byte of a line of a compressed
page. -/
def writes (s s' : State) (pa : Nat) (bs : List Byte) : Prop :=
  ∀ a, metaByte s (pa / 256) ≠ some a →
    s'.homes.mem.read a = if pa ≤ a ∧ a < pa + bs.length then bs.getD (a - pa) 0 else s.homes.mem.read a

/-- The thread's open transaction is doomed with a reason, and its pending versions and its intents are gone (R101). -/
def doomedWith (s s' : State) (t r : Nat) : Prop :=
  (∀ w, (s.thread t).view = some w → (s'.thread t).view = some { w with doom := r }) ∧
  ∀ l y, (l, y) ∈ s'.homes.vlines → y.intent ≠ some t ∧ ∀ q ∈ y.pend, q.owner ≠ .tx t

/-- The line's bytes are those of a store over other data. -/
def putOver (d : LineData) (o : Nat) (bs : List Byte) (old : LineData) : Prop :=
  ∀ j < 256, lineByte d j = if o ≤ j ∧ j < o + bs.length then bs.getD (j - o) 0 else lineByte old j

/-- The record of a write that is lost (R88, R363). -/
def lostRec (s : State) (o : MemOp) (c : Cause) (line : Nat) : FaultRec :=
  ⟨(s.die o.who.die).mer, BitVec.ofNat 64 (line * 256), 0, 0, c, 3, o.ctx, (s.work o.who.work).team, (s.group o.who.group).num, o.who.tig,
    o.die, o.core, o.who.lane, o.who.slot, 0⟩

/-- A store that has performed leaves, and its thread's store count falls; a candidate's stays for the word that holds for it. -/
def acknowledged (s s' : State) (i : Nat) (o : MemOp) : Prop :=
  (o.blocking = false → s'.ops = s.ops.drop i ∧ ∀ u, s'.threads.find u = (s.threads.find u).map fun th =>
    if u = o.tid then { th with cnt := { th.cnt with st := th.cnt.st - 1 } } else th) ∧
  (o.blocking = true → s'.threads = s.threads ∧
    s'.ops.find i = some { o with performed := true, pieces := [], revs := [], out := [] })

/-- An access is gone, and the count that it held has fallen (R21). -/
def gone (s : State) (i : Nat) (o : MemOp) : State :=
  { s with ops := s.ops.drop i }.modThread o.tid fun th => { th with cnt :=
    if o.returns then { th.cnt with ld := th.cnt.ld - 1 } else { th.cnt with st := th.cnt.st - 1 } }

/-- The address of an access's first byte. -/
def firstAt (o : MemOp) : Nat := ((o.pieces.head?).map (·.va)).getD 0

end Sys2Proof.Claims

/-- A load whose turn has come binds the bytes of its home, or of its core's L1, and gives them to its thread, with the loads of its word
that share its lines (R145); of a versioned line it gives the version that its view reads, and waits for a commit that may come below its
stamp (R98, R99); an atomic writes the new value of R158 and gives the old one; a pop gives what was taken; ldiv takes 0x41 on bounds that
are not legal; a request to the host that times out takes 0x2E. A load that no longer holds its word delivers a poisoned line's bytes with
no cause (log entry 40). -/
def Obligations.LoadsPerform : Prop :=
  ∀ (s : State) (i : Nat) (o : MemOp), ready s i o →
    let gc := o.die * 64 + o.core
    let gives (u : State) (vs : List (Word64 × Kind)) (ps : List Tri) : Prop :=
      ∃ s', exec (.loadDataReturn i) s = .next s' ∧ reaches u s' i o vs ps
    (∀ size count sx k acq p, o.act = .load size count sx k acq → plainMain s o p (size * count) → size ≤ 8 → o.tid ≠ 0 →
      (o.blocking = true → p.pa / 256 ∉ s.homes.poison) → alone s i o →
      let line := p.pa / 256
      let u := s.l2Read o.die line false o.hint
      let r := u.l1Fill (u.askedFor o (p.va / 256)) false gc o.ctx (p.va / 256) line .latest o.hint (p.pa % 256) (size * count)
        (memLine s.homes.mem line)
      (acq = true → gives u (loaded size count sx k (memBytes s p.pa (size * count))) []) ∧
      (∀ v bs, acq = false → s.l1Hit gc o.ctx (p.va / 256) .latest o.hint (p.pa % 256) (size * count) = some (v, bs) →
        gives v (loaded size count sx k bs) []) ∧
      (acq = false → s.l1Hit gc o.ctx (p.va / 256) .latest o.hint (p.pa % 256) (size * count) = none →
        gives (r.1.ask o (p.va / 256)) (loaded size count sx k r.2) [])) ∧
    (∀ size count sx k acq p, o.act = .load size count sx k acq → versionedMain s o p (size * count) → size ≤ 8 → alone s i o →
      (acq = true ∨ ∀ l ∈ (s.core gc).l1, l.ctx ≠ o.ctx ∨ l.line ≠ p.va / 256) →
      let line := p.pa / 256
      (mustWait (s.vline line) o.view → exec (.loadDataReturn i) s = .next s) ∧
      (¬ mustWait (s.vline line) o.view → ∀ d, seen s line o.view = some d → ∃ u s', exec (.loadDataReturn i) s = .next s' ∧
        reaches u s' i o (loaded size count sx k ((List.range (size * count)).map fun j => lineByte d (p.pa % 256 + j))) [] ∧
        u.homes.mem = s.homes.mem ∧ u.homes.vlines = s.homes.vlines ∧ u.threads = s.threads)) ∧
    (o.returns = true → exec (.loadDataReturn i) s = .next (((s.servedWith i o).foldl State.tryOne s).landOp i) ∧
      (∀ j x, (j, x) ∈ s.ops → o.loadWith x = true → (∃ l ∈ x.vlines, l ∈ o.vlines) → o.loadWith o = true → j ∈ s.servedWith i o) ∧
      ∀ j ∈ s.servedWith i o, j = i ∨ ∃ x, (j, x) ∈ s.ops ∧ o.loadWith x = true) ∧
    (∀ size count sx k acq p, o.act = .load size count sx k acq → o.home = .scratch → onePart o p (size * count) → size ≤ 8 →
      gives s (loaded size count sx k (s.spRead gc o.who.work p.va (size * count))) []) ∧
    (∀ size count sx k acq p, o.act = .load size count sx k acq → o.home = .host → onePart o p (size * count) → size ≤ 8 →
      (s.work o.who.work).rpl = none →
      gives s (loaded size count sx k ((List.range (size * count)).map fun j => s.homes.host.read (p.va + j))) []) ∧
    (∀ vals ok, o.act = .qpop vals ok →
      gives s (vals.map fun v => (v, .i64)) (match ok with | some b => [if b then .T else .F] | none => [])) ∧
    (∀ j n, o.act = .recRd j n →
      gives s ((List.range n).map fun k => (((s.ctx o.ctx).recAt o.tb).extractLsb' (64 * (j + k)) 64, .i64)) []) ∧
    (∀ op w k v cmp p, o.act = .atom op w k v cmp true → plainMain s o p w → writable s none p.pa w → o.tid ≠ 0 → o.blocking = false →
      w ≤ 8 → v < 2 ^ (8 * w) →
      let m := leVal (memBytes s p.pa w)
      ∃ s', exec (.loadDataReturn i) s = .next s' ∧ writes s s' p.pa (leBytes w (newValue op w k m v cmp)) ∧ s'.ops.find i = none ∧
        ∀ u, s'.threads.find u = (s.threads.find u).map fun th => if u = o.tid then
          { th.land i [(BitVec.ofNat 64 m, k)] [] with cnt := { th.cnt with ld := th.cnt.ld - 1 } } else th) ∧
    (∀ wide p, o.act = .iload wide → o.home = .scratch → onePart o p (if wide then 16 else 8) →
      let f := famFmt wide
      let n := if wide then 8 else 4
      let bs := s.spRead gc o.who.work p.va p.len
      let lo := leVal (bs.take n)
      let hi := leVal (bs.drop n)
      let legal := Num.legal (Num.decodeF f lo) (Num.decodeF f hi)
      (legal = true → gives s (if wide then [(BitVec.ofNat 64 lo, .iv64), (BitVec.ofNat 64 hi, .iv64)] else [(BitVec.ofNat 64 (hi * 2 ^ 32 + lo), .iv32)]) []) ∧
      (legal = false → (s.threads.find o.tid).isSome = true → exec (.loadDataReturn i) s = .next ((gone s i o).fail o.tid 0x41 0))) ∧
    (o.home = .host →
      (o.loads = true ∨ o.blocking = true → (s.threads.find o.tid).isSome = true →
        exec (.hostCompletionTimeout i) s = .next ((gone s i o).fail o.tid 0x2E (BitVec.ofNat 64 (firstAt o)))) ∧
      (o.loads = false → o.blocking = false → o.returns = true →
        exec (.hostCompletionTimeout i) s = .next (s.loseAtom i o (firstAt o / 256 * 256) 0x2E)))

/-- A store whose turn has come writes its bytes, and nothing else in memory, is acknowledged, and the store count falls; the stores of
its word that share its line are written with it (R145); while a
word that it writes has another owner it waits for the revocation; an old owner's core clears the words of its L1 and acknowledges. A
transactional store takes intent and writes its transaction's pending version, or dooms it (R101, reasons 1, 3 and 4); a plain one of a
versioned line waits for a commit, dooms the intent's transaction (reason 2), keeps the old version in a slot where an open view may read it
and has the next stamp (R94, R95, R102).
rec.wr writes words of its record; a request to the host that times out is lost. A die that relocks answers nothing (chapter 18; log
entry 101). -/
def Obligations.StoresPerform : Prop :=
  ∀ (s : State) (i : Nat) (o : MemOp), ready s i o →
    let gc := o.die * 64 + o.core
    let own := if o.tid = 0 then none else some gc
    (∀ bs b p, o.act = .store bs b → plainMain s o p bs.length → o.transactional = false → s.fellows o (p.va / 256) = [] →
      (writable s own p.pa bs.length → ∃ s', exec (.storeAcknowledge i) s = .next s' ∧ writes s s' p.pa bs ∧ acknowledged s s' i o) ∧
      (writable { s with homes := { s.homes with owner := [] } } own p.pa bs.length → s.oldOwners (wordsOf p.pa bs.length).eraseDups own ≠ [] →
        exec (.storeAcknowledge i) s = .next { s with ops := s.ops.upd i fun x =>
          { x with revs := s.oldOwners (wordsOf p.pa bs.length).eraseDups own } })) ∧
    (∀ bs b p, o.act = .store bs b → plainMain s o p bs.length → o.transactional = false → p.va % 256 = p.pa % 256 →
      let line := p.pa / 256
      let rs : Runs := (p.pa % 256, bs) :: ((s.fellows o (p.va / 256)).map fun kv =>
        (kv.2.pieces.filter fun q => q.va / 256 == p.va / 256).map fun q => (q.va % 256, q.bytes kv.2.bytes)).flatten
      writable s own (line * 256) 256 → (∀ r ∈ rs, r.1 + r.2.length ≤ 256) →
      ∃ s', exec (.storeAcknowledge i) s = .next s' ∧
        (∀ a, metaByte s line ≠ some a → s'.homes.mem.read a = (rs.foldl (fun m r => m.writeN (line * 256 + r.1) r.2) s.homes.mem).read a) ∧
        ∀ kv ∈ s.fellows o (p.va / 256), ∀ x, s'.ops.find kv.1 = some x → ∀ q ∈ x.pieces, q.va / 256 ≠ p.va / 256) ∧
    (∀ bs b p st t, o.act = .store bs b → o.view = .tx st t → versionedMain s o p bs.length → s.fellows o (p.va / 256) = [] →
      writable s own p.pa bs.length →
      let line := p.pa / 256
      let v := s.vline line
      let mine (q : Pending) : Prop := q.owner = .tx t ∧ q.locking = false
      let goes (s' : State) : Prop := exec (.storeAcknowledge i) s = .next s' ∧ s'.homes.mem = s.homes.mem ∧
        (o.blocking = false → s'.ops.find i = (s.ops.drop i).find i ∧ (s'.thread o.tid).cnt.st = (s.thread o.tid).cnt.st - 1)
      (s.txLive t st = false → ∃ s', goes s' ∧ s'.homes.vlines = s.homes.vlines) ∧
      (s.txLive t st = true → (∃ q ∈ v.pend, mine q) → ∃ s', goes s' ∧ (s'.vline line).intent = v.intent ∧ ∃ f : Pending → Pending,
        (s'.vline line).pend = v.pend.map f ∧ (∀ q, ¬ mine q → f q = q) ∧
        ∀ q, mine q → (f q).owner = q.owner ∧ (f q).slot = q.slot ∧ putOver (f q).data (p.pa % 256) bs q.data) ∧
      (s.txLive t st = true → (∀ q ∈ v.pend, ¬ mine q) →
        let held := (∃ u, v.intent = some u ∧ u ≠ t) ∨ v.pend ≠ []
        (held → ∃ s', goes s' ∧ doomedWith s s' t 1) ∧
        (¬ held → st < v.stamp → ∃ s', goes s' ∧ doomedWith s s' t 3) ∧
        (¬ held → v.stamp ≤ st → s.freeSlot (lineDie line) = none → ∃ s', goes s' ∧ doomedWith s s' t 4) ∧
        (∀ n, ¬ held → v.stamp ≤ st → s.freeSlot (lineDie line) = some n → ∃ s' q, goes s' ∧
          s'.vline line = { v with pend := [q], intent := some t } ∧ q.owner = .tx t ∧ q.locking = false ∧ q.stamp = none ∧ q.slot = some n ∧
          putOver q.data (p.pa % 256) bs (memLine s.homes.mem line)))) ∧
    (∀ bs b p, o.act = .store bs b → o.transactional = false → versionedMain s o p bs.length → s.fellows o (p.va / 256) = [] →
      writable s own p.pa bs.length →
      let line := p.pa / 256
      let v := s.vline line
      let read := ∃ x ∈ s.openStamps, v.stamp ≤ x
      (waitsFor v none → exec (.storeAcknowledge i) s = .next s) ∧
      (¬ waitsFor v none → read → s.freeSlot (lineDie line) = none → ∃ s', exec (.storeAcknowledge i) s = .next s' ∧
        s'.homes = s.homes ∧ ∃ x, s'.ops.find i = some x ∧ x.performed = false ∧ (o.trial = false → x.window.isSome = true)) ∧
      (¬ waitsFor v none → ∀ slot, (read → slot ≠ none ∧ s.freeSlot (lineDie line) = slot) → (¬ read → slot = none) →
        ∃ s', exec (.storeAcknowledge i) s = .next s' ∧ writes s s' p.pa bs ∧
          (s'.vline line).stamp = max ((s.die (lineDie line)).mer + 2) (v.stamp + 1) ∧ (s'.vline line).owner = .plain ∧
          (s'.vline line).older = ⟨v.stamp, memLine s.homes.mem line, v.owner, slot⟩ :: v.older ∧
          ∀ t w, v.intent = some t → (s.thread t).view = some w → w.tx = true → w.doom = 0 → doomedWith s s' t 2)) ∧
    (∀ bs b p, o.act = .store bs b → o.home = .scratch → onePart o p bs.length →
      ∃ s', exec (.storeAcknowledge i) s = .next s' ∧ acknowledged s s' i o ∧ s'.homes = s.homes ∧
        ∀ n j, (s'.bank n j).bytes = ((s.spWrite gc o.who.work p.va bs).bank n j).bytes) ∧
    (∀ bs b p, o.act = .store bs b → o.home = .host → onePart o p bs.length → (s.work o.who.work).rpl = none →
      ∃ s', exec (.storeAcknowledge i) s = .next s' ∧ acknowledged s s' i o ∧ s'.homes.mem = s.homes.mem ∧
        ∀ a, s'.homes.host.read a = if p.va ≤ a ∧ a < p.va + bs.length then bs.getD (a - p.va) 0 else s.homes.host.read a) ∧
    (∀ j vals, o.act = .recWr j vals → j + vals.length ≤ 8 → ∃ s', exec (.storeAcknowledge i) s = .next s' ∧ acknowledged s s' i o ∧
      s'.homes = s.homes ∧ (∀ k < 8, ((s'.ctx o.ctx).recAt o.tb).extractLsb' (64 * k) 64 =
        if j ≤ k ∧ k < j + vals.length then vals.getD (k - j) 0 else ((s.ctx o.ctx).recAt o.tb).extractLsb' (64 * k) 64) ∧
      ∀ n, n ≠ o.tb → (s'.ctx o.ctx).recAt n = (s.ctx o.ctx).recAt n) ∧
    (∀ f, o.act = .qpush f → ∃ s', exec (.storeAcknowledge i) s = .next s' ∧ acknowledged s s' i o ∧ s'.cores = s.cores) ∧
    (o.home = .host → o.returns = false → o.blocking = false →
      exec (.hostCompletionTimeout i) s = .next (gone (s.loseLine o (firstAt o / 256 * 256) 0x2E) i o)) ∧
    (∀ c word, s.clocked (c / 64) = false → exec (.wordRevocation c word) s = .next s) ∧
    (∀ c word, s.clocked (c / 64) = true → (∃ k x, s.ops.find k = some x ∧ (c, word) ∈ x.revs) → ∃ s', exec (.wordRevocation c word) s = .next s' ∧
      s'.homes.mem = s.homes.mem ∧ s'.homes.owner.find word ≠ some c ∧
      (s'.core c).l1 = ((s.core c).l1.map fun l => if l.phys = word / 64 then
        { l with mask := l.mask &&& ~~~(BitVec.ofNat 256 (15 <<< (word % 64 * 4))) } else l) ∧
      ∀ k, s'.ops.find k = (s.ops.find k).map fun x => { x with revs := x.revs.filter fun r => decide (r ≠ (c, word)) })

/-- The side log replays its oldest entry: a line that translates has its write performed, a missing one waits for a walk where its
core has a miss entry, and one that may not be written is lost with 0x28, whatever refuses it (log entry 63): a record of kind 3 names
the line, its thread takes the cause at its next release point, and its store count falls (R78, R87, R88). The log of a die that relocks
stands still (log entry 101). An interlocked result is delivered once it is
due (R215, R309). A write that found no version slot within its window is lost with 0x91, line by line (R107). -/
def Obligations.SideLogAndIterative : Prop :=
  (∀ (s : State) (die core : Nat), let gc := die * 64 + core
    ((s.core gc).side = [] ∨ s.clocked die = false → exec (.sideLogReplay die core) s = .next s) ∧
    (∀ e rest, s.clocked die = true → (s.core gc).side = e :: rest →
      (s.lookCore gc e.ctx (e.line * 256) .write = .miss → exec (.sideLogReplay die core) s = .next
        (if s.missRoom gc e.ctx (e.line / 256) then s.attachWalk die e.ctx (e.line * 256) .write (.side core) else s)) ∧
      (∀ c, s.lookCore gc e.ctx (e.line * 256) .write = .bad c → ∃ s', exec (.sideLogReplay die core) s = .next s' ∧
        (s'.core gc).side = rest ∧ (∀ i ∈ e.ops, e.ops.Nodup → s.ops.sorted = true → s'.ops.find i = none) ∧
        ∀ i o, e.ops = [i] → s.ops.find i = some o → s.ops.sorted = true → i < s.sched.nextId → o.tid ≠ 0 → o.returns = false →
          s'.threads.find o.tid = (s.threads.find o.tid).map (fun th => { th with
            cnt := { th.cnt with st := th.cnt.st - 1 }, deferred := th.deferred ++ [(0x28, BitVec.ofNat 64 (e.line * 256))] }) ∧
          posted s s' o.ctx (lostRec s o 0x28 e.line)) ∧
      (∀ x i o bs b p, s.lookCore gc e.ctx (e.line * 256) .write = .ok x → e.ops = [i] → s.ops.find i = some o → o.performed = false →
        o.act = .store bs b → o.home = .main → o.tid ≠ 0 → onePart o p bs.length → p.va / 256 = e.line → p.va % 256 + bs.length ≤ 256 →
        x.ver = false → o.transactional = false → o.revs = [] → (s.work o.who.work).rpl = none → s.matesCheck o = false →
        let pa := x.pa / 256 * 256 + p.va % 256
        let o' : MemOp := { o with pieces := [{ p with pa := pa, src := pa, ver := false }] }
        s.lineAwake (pa / 256) = true → writable s (some (o.die * 64 + o.core)) pa bs.length →
        { s with ops := s.ops.put i o' }.blockedBy i o' = false → { s with ops := s.ops.put i o' }.fellows o' e.line = [] →
        ∃ s', exec (.sideLogReplay die core) s = .next s' ∧ writes s s' pa bs ∧ (s'.core gc).side = rest))) ∧
  (∀ (s : State) (t : Nat) (x : IterOp), (s.thread t).iter = [x] →
    (s.lcOf t < x.due → exec (.iterativeResult t) s = .next s) ∧
    (x.due ≤ s.lcOf t → exec (.iterativeResult t) s = .next (s.modThread t fun th =>
      { th.land x.tok x.vals x.preds with iter := [], hold := if th.hold = some ⟨0xA, .event⟩ then none else th.hold }))) ∧
  (∀ (s : State) (i : Nat) (o : MemOp) (w : Nat), s.ops.find i = some o → o.window = some w → o.performed = false → o.trial = false →
    ((s.die o.die).mer < w → exec (.versionStoreExhausted i) s = .next s) ∧
    (∀ a p ps, w ≤ (s.die o.die).mer → o.revs = [] → s.perform o = .part a → a.starved = p :: ps → a.left = a.starved → a.lost = [] →
      o.tid ≠ 0 → o.blocking = false →
      (o.returns = true → exec (.versionStoreExhausted i) s = .next (a.s.loseAtom i o (p.va / 256 * 256) 0x91)) ∧
      (o.returns = false → a.s.ops.find i = some o → ∃ s', exec (.versionStoreExhausted i) s = .next s' ∧ s'.ops.find i = none ∧
        s'.threads.find o.tid = (a.s.threads.find o.tid).map fun th => { th with
          cnt := { th.cnt with st := th.cnt.st - 1 }
          deferred := th.deferred ++ ((a.starved.map fun q => q.va / 256).eraseDups).map fun l =>
            ((0x91 : Cause), BitVec.ofNat 64 (l * 256)) })))

/-- A bank-mode switch that is due gives the bank its new mode, empty, and its lines are gone from L1; words that wait for a FIFO go on
when it has room; a replica is complete when its page has been copied, and is dropped for a collapse once no read is on its way to it;
a die's copy of a line goes when a write asks for it (R83-R85, R119, R132, R160). A die that relocks gives up no copy and no replica
(log entry 101). -/
def Obligations.BanksAndReplicas : Prop :=
  (∀ (s : State) (die core bank : Nat) (x : BankSwitch), bank < 32 → let gc := die * 64 + core
    s.threads.sorted = true → (s.core gc).switches.find? (fun x => x.bank == bank) = some x →
    ((s.die (gc / 64)).lc < x.due → exec (.bankModeSwitchComplete die core bank) s = .next s) ∧
    (x.due ≤ (s.die (gc / 64)).lc → s.bankBusy gc x.work = false → ∃ s', exec (.bankModeSwitchComplete die core bank) s = .next s' ∧
      s'.bank gc bank = { Bank.reset x.mode with own := if x.mode = .cache then none else some x.work } ∧
      (∀ j, j ≠ bank → s'.bank gc j = s.bank gc j) ∧ (∀ y ∈ (s'.core gc).switches, y.bank ≠ bank) ∧ (∀ l ∈ (s'.core gc).l1, l.way ≠ bank) ∧
      s'.homes = s.homes ∧ ∀ u, s'.threads.find u = (s.threads.find u).map fun th =>
        if th.bundle = x.key.1 ∧ th.hold = some ⟨0xB, .event⟩ then { th with hold := none, part := true } else th)) ∧
  (∀ (s : State) (die core bank : Nat), let gc := die * 64 + core
    ∃ s', exec (.fifoWaitResume die core bank) s = .next s' ∧ s'.homes = s.homes ∧ s'.cores = s.cores ∧
      ∀ u, s'.threads.find u = (s.threads.find u).map fun th => if u ∈ s.fifoWaiters gc bank then { th with hold := none } else th) ∧
  (∀ (s : State) (die page base frames : Nat) (r : Replica), s.homes.mem.wf = true → (s.die die).pool = some (base, frames) →
    (s.die die).replicas.find? (fun r => r.page == page && !r.complete) = some r →
    (page ∈ s.homes.collapsing → ∃ s', exec (.replicaCopyComplete die page) s = .next s' ∧ s'.homes = s.homes ∧
      ∀ q ∈ (s'.die die).replicas, q.page ≠ page) ∧
    let dst := tierBase false die + base + r.frame * 65536
    (page ∉ s.homes.collapsing → s.lineAwake (page * 256) = false ∨ s.lineAwake (dst / 256) = false →
      exec (.replicaCopyComplete die page) s = .next s) ∧
    (page ∉ s.homes.collapsing → s.lineAwake (page * 256) = true → s.lineAwake (dst / 256) = true →
      ∃ s', exec (.replicaCopyComplete die page) s = .next s' ∧
        (∀ a, s'.homes.mem.read a = if dst ≤ a ∧ a < dst + 65536 then s.homes.mem.read (page * 65536 + (a - dst)) else s.homes.mem.read a) ∧
        (s'.die die).replicas = (s.die die).replicas.map fun q => if q.page = page then { q with complete := true } else q)) ∧
  (∀ (s : State) (die page line : Nat), s.clocked die = false → exec (.replicaDropAck die page) s = .next s ∧
    exec (.copyInvalidateAck die line) s = .next s) ∧
  (∀ (s : State) (die page : Nat), s.clocked die = true → page ∈ s.homes.collapsing →
    ((∃ r ∈ (s.die die).replicas, r.page = page ∧ r.complete = true) →
      (s.replicaReads die page = true → exec (.replicaDropAck die page) s = .next s) ∧
      (s.replicaReads die page = false → ∃ s', exec (.replicaDropAck die page) s = .next s' ∧ s'.homes = s.homes ∧
        ∀ r ∈ (s'.die die).replicas, r.page ≠ page)) ∧
    ((∀ d < 4, ∀ r ∈ (s.die d).replicas, r.page ≠ page) → s.collapseWanted page = false → ∃ s', exec (.replicaDropAck die page) s = .next s' ∧
      s'.homes.mem = s.homes.mem ∧ page ∉ s'.homes.collapsing)) ∧
  (∀ (s : State) (die line : Nat), die < 4 → s.clocked die = true →
    (line ∈ s.homes.purging → die ∈ s.homes.copies.getD line [] → ∃ s', exec (.copyInvalidateAck die line) s = .next s' ∧
      s'.homes.mem = s.homes.mem ∧ s'.homes.copies.getD line [] = (s.homes.copies.getD line []).filter (· ≠ die) ∧
      (∀ l ∈ (s'.die die).l2, l.line ≠ line) ∧ ∀ l, l ≠ line → s'.homes.copies.find l = s.homes.copies.find l) ∧
    (line ∉ s.homes.purging ∨ die ∉ s.homes.copies.getD line [] → exec (.copyInvalidateAck die line) s = .next s))

namespace Sys2Proof.Claims

/-- An access from outside to one line of memory may perform at once: `v` is what a read reads. -/
def outsideAt (s : State) (tb pa n : Nat) (act : Act) (v : ReadAs) : Prop :=
  let o := outsideOp tb pa n act v
  s.isMem pa = true ∧ 0 < n ∧ pa % 256 + n ≤ 256 ∧ s.lineAwake (pa / 256) = true ∧ (s.work 0).rpl = none ∧
    { s.modSched (fun c => { c with nextId := c.nextId + 1 }) with ops := s.ops.put s.sched.nextId o }.clearToGo s.sched.nextId o = true

/-- The same to a line of a page that has no version heads. -/
def outside (s : State) (tb pa n : Nat) (act : Act) (v : ReadAs := .latest) : Prop := outsideAt s tb pa n act v ∧ pa / 65536 ∉ s.homes.heads

/-- A slot's header in the layout of R93. -/
def headerBits (stamp older num line state origin : Nat) : BitVec 256 :=
  BitVec.ofNat 64 stamp ++ BitVec.ofNat 32 older ++ BitVec.ofNat 32 num ++ BitVec.ofNat 64 (line * 256) ++ 0#60 ++ BitVec.ofNat 2 state ++
    BitVec.ofNat 2 origin

/-- The owner of a version as a slot's header gives it: number and origin (R93). -/
def ownerBits : Owner → Nat × Nat
  | .tx t => (t, 1)
  | .pub ctx tb => (ctx * 256 + tb, 2)
  | .rpl w => (w, 0)
  | .plain => (0, 0)

/-- Byte `o` of a slot that holds a line's data and a header. -/
def slotHolds (d : LineData) (h : BitVec 256) (o : Nat) : Byte := if o < 256 then lineByte d o else h.extractLsb' (8 * (o - 256)) 8

/-- Byte `o` of slot `k` of die `d` is at `a`, within no other die's slot area. -/
def inSlotArea (s : State) (d k o a : Nat) : Prop :=
  o < 288 ∧ (∃ v, (s.die d).store = some v ∧ k < v.slots ∧ a = tierBase false d + v.base + 288 * k + o) ∧
    ∀ e < 4, e ≠ d → ∀ w, (s.die e).store = some w → a < tierBase false e + w.base ∨ tierBase false e + w.base + 288 * w.slots ≤ a

/-- No version of a line of die `d`, other than line `l`, lies in slot `k`. -/
def slotFree (s : State) (d k : Nat) (l : Option Nat) : Prop :=
  ∀ m y, (m, y) ∈ s.homes.vlines → lineDie m = d → (∃ p ∈ y.pend, p.slot = some k) ∨ (∃ p ∈ y.older, p.slot = some k) → l = some m

/-- An access from outside that may not perform yet is in flight; whether its lines are versioned is looked at as it performs. -/
def launched (s s' : State) (o : MemOp) : Prop := s'.homes = s.homes ∧ ∃ ver,
  s'.ops.find s.sched.nextId = some { o with pieces := o.pieces.map fun p => { p with ver := ver } }

end Sys2Proof.Claims

/-- The host's writes and reads act on memory as its address map says (what is no memory drops writes and reads as all ones), on a line
of a page that has version heads as plain stores do, when they perform (R389; log entry 66); it reads the slots of a version store as R93
lays them out (log entry 67). Another device's accesses arrive through a link; a snapshot of it is counted from its first read here, by its
name there, until it closes, and one below this package's low-water stamp is refused (R105, R147; log entry 13). A device whose
firmware failed its check takes none (R400). An entry with an op that R391 does not list completes with status 2, and reads of BAR 0 give
the almanac, whose counts of corrected errors grow by free numbers (R391, R399; log entries 120 and 122). -/
def Obligations.OutsideAccesses : Prop :=
  ∀ (s : State) (pa n : Nat) (bs : List (BitVec 8)),
    let put : Instr := .hostMemoryWrite (.memory pa) bs
    let get : Instr := .hostMemoryRead (.memory pa) n
    let st : Act := .store bs (8 * bs.length)
    let ld : Act := .load 1 n false .i32 true
    (s.dev.fwOk = false → exec put s = .next s ∧ exec get s = .next s) ∧
    (s.dev.fwOk = true → (∀ a, pa ≤ a → a = pa ∨ a < pa + max n bs.length → s.isMem a = false) → exec put s = .next s ∧ exec get s = .next
      (s.modDev fun d => { d with hostReads := d.hostReads ++ [List.replicate n 0xFF] })) ∧
    (s.dev.fwOk = true → outside s 0 pa bs.length st → writable s none pa bs.length → ∃ s', exec put s = .next s' ∧ writes s s' pa bs) ∧
    (s.dev.fwOk = true → s.isMem pa = true → 0 < bs.length → pa % 256 + bs.length ≤ 256 → (s.work 0).rpl = none →
      s.lineAwake (pa / 256) = false → ∃ s', exec put s = .next s' ∧ launched s s' (outsideOp 0 pa bs.length st .latest)) ∧
    (s.dev.fwOk = true → outsideAt s 0 pa bs.length st .latest → pa / 65536 ∈ s.homes.heads → writable s none pa bs.length →
      let line := pa / 256
      let v := s.vline line
      let read := ∃ x ∈ s.openStamps, v.stamp ≤ x
      (waitsFor v none → ∃ s', exec put s = .next s' ∧ launched s s' (outsideOp 0 pa bs.length st .latest)) ∧
      (¬ waitsFor v none → read → s.freeSlot (lineDie line) = none → ∃ s', exec put s = .next s' ∧ s'.homes = s.homes ∧
        ∃ x, s'.ops.find s.sched.nextId = some x ∧ x.performed = false ∧ x.window.isSome = true) ∧
      (¬ waitsFor v none → ∀ slot, (read → slot ≠ none ∧ s.freeSlot (lineDie line) = slot) → (¬ read → slot = none) →
        ∃ s', exec put s = .next s' ∧ writes s s' pa bs ∧ (s'.vline line).stamp = max ((s.die (lineDie line)).mer + 2) (v.stamp + 1) ∧
          (s'.vline line).older = ⟨v.stamp, memLine s.homes.mem line, v.owner, slot⟩ :: v.older ∧
          ∀ t w, v.intent = some t → (s.thread t).view = some w → w.tx = true → w.doom = 0 → doomedWith s s' t 2)) ∧
    (s.dev.fwOk = true → outside s 0 pa n ld → ∃ s', exec get s = .next s' ∧
      s'.homes.mem = s.homes.mem ∧ s'.dev.hostReads = s.dev.hostReads ++ [s.hostSees pa (memBytes s pa n)] ∧
        ((∀ d < 4, ∀ v, (s.die d).store = some v → pa + n ≤ tierBase false d + v.base ∨ tierBase false d + v.base + 288 * v.slots ≤ pa) →
          s.hostSees pa (memBytes s pa n) = memBytes s pa n)) ∧
    (s.dev.fwOk = true → outsideAt s 0 pa n ld .latest → pa / 65536 ∈ s.homes.heads →
      (waitsFor (s.vline (pa / 256)) none → ∃ s', exec get s = .next s' ∧ launched s s' (outsideOp 0 pa n ld .latest)) ∧
      (¬ waitsFor (s.vline (pa / 256)) none → ∃ s', exec get s = .next s' ∧ s'.homes = s.homes ∧
        s'.dev.hostReads = s.dev.hostReads ++ [s.hostSees pa (memBytes s pa n)])) ∧
    (s.hostSees pa bs).length = bs.length ∧ (∀ i < bs.length, (s.hostSees pa bs)[i]? = (s.hostSees (pa + i) [bs.getD i 0])[0]?) ∧
    (∀ d k o b, d < 4 → inSlotArea s d k o pa → slotFree s d k none → s.hostSees pa [b] = [if o < 256 then b
      else if o = 256 then 12 ||| (b &&& 3) else if 264 ≤ o ∧ o < 280 then b else 0]) ∧
    (∀ d k o b l y pre p post, d < 4 → inSlotArea s d k o pa → (l, y) ∈ s.homes.vlines → lineDie l = d → slotFree s d k (some l) →
      (∀ z, (l, z) ∈ s.homes.vlines → z = y) → y.pend = pre ++ p :: post → (∀ q ∈ pre, q.slot ≠ some k) → p.slot = some k →
      s.hostSees pa [b] = [slotHolds p.data (headerBits (p.stamp.getD 0) ((y.older.findSome? (·.slot)).getD 0xFFFFFFFF) (ownerBits p.owner).1 l
        (if p.stamp.isSome then 1 else 0) (ownerBits p.owner).2) o]) ∧
    (∀ d k o b l y pre x post, d < 4 → inSlotArea s d k o pa → (l, y) ∈ s.homes.vlines → lineDie l = d → slotFree s d k (some l) →
      (∀ z, (l, z) ∈ s.homes.vlines → z = y) → (∀ p ∈ y.pend, p.slot ≠ some k) → y.older = pre ++ x :: post → (∀ q ∈ pre, q.slot ≠ some k) →
      x.slot = some k → s.hostSees pa [b] = [slotHolds x.data (headerBits x.stamp ((post.findSome? (·.slot)).getD 0xFFFFFFFF) (ownerBits x.owner).1 l 2
        (ownerBits x.owner).2) o]) ∧
    (∀ fn, exec (.hostMemoryWrite (.control fn pa) bs) s = .next (if bs.length = 32 ∧ (bs.getD 0 0 = 0 ∨ 0x0E < (bs.getD 0 0).toNat) then
        s.finish ⟨fn, BitVec.ofNat 32 (leVal ((bs.drop 4).take 4))⟩ 2 else s) ∧
      ∃ s1, exec (.hostMemoryRead (.control fn pa) n) s = .next (s1.modDev fun d => { d with hostReads := d.hostReads ++ [(List.range n).map fun i =>
        BitVec.ofNat 8 (s1.dev.almanac.getD ((pa + i) / 8) 0 / 2 ^ (8 * ((pa + i) % 8)))] }) ∧ (pa + n ≤ 0x40000 → s1 = s) ∧ s1.homes = s.homes ∧
        s1.threads = s.threads ∧ s1.dev.hostReads = s.dev.hostReads ∧ ∀ k, min (s.dev.almanac.getD k 0) (2 ^ 64 - 1) ≤ s1.dev.almanac.getD k 0 ∧
          (k < 0x8000 → s1.dev.almanac.getD k 0 = s.dev.almanac.getD k 0)) ∧
    (∀ a : RemoteArg, s.dev.fab = 0 ∨ (∀ l ∈ s.dev.links, l.2.up = false) ∨ s.isMem a.pa = false → exec (.remoteAccessArrival a) s = .next s) ∧
    (∀ a : RemoteArg, s.dev.fab ≠ 0 → (∃ l ∈ s.dev.links, l.2.up = true) →
      (a.write = true → outside s 256 a.pa a.data.length (.store a.data (8 * a.data.length)) →
        writable s none a.pa a.data.length → ∃ s', exec (.remoteAccessArrival a) s = .next s' ∧ writes s s' a.pa a.data) ∧
      (a.write = false → s.isMem a.pa = true → a.closes = true → exec (.remoteAccessArrival a) s =
        .next (s.modDev fun d => { d with farSnaps := d.farSnaps.filter fun x => x.1 != a.snap })) ∧
      (a.write = false → a.closes = false → a.stamp = none → outside s 256 a.pa a.len (.load 1 a.len false .i32 true) →
        ∃ s', exec (.remoteAccessArrival a) s = .next s' ∧ s'.homes = s.homes ∧ s'.threads = s.threads ∧ s'.dev = s.dev ∧
          s'.ops.find s.sched.nextId = none) ∧
      (∀ x, a.write = false → a.closes = false → a.stamp = some x → outside s 256 a.pa a.len (.load 1 a.len false .i32 true) (.snap x) →
        let old := (a.snap, x) ∈ s.dev.farSnaps
        (¬ old → x < (s.die (lineDie (a.pa / 256))).lw → exec (.remoteAccessArrival a) s = .next s) ∧
        (old ∨ (s.die (lineDie (a.pa / 256))).lw ≤ x → ∃ s', exec (.remoteAccessArrival a) s = .next s' ∧ s'.homes = s.homes ∧
          s'.threads = s.threads ∧ (a.snap, x) ∈ s'.dev.farSnaps ∧ x ∈ s'.openStamps ∧ (old → s'.dev = s.dev))))

namespace Sys2Proof.Claims

/-- The version of an owner and a stamp, or without one, that a line holds. -/
def versionOf (s : State) (o : Owner) (c : Option Nat) (line : Nat) : Option Pending :=
  (s.homes.vlines.find line).bind fun v => v.pend.find? fun p => decide (p.owner = o) && decide (p.stamp = c)

/-- The version an owner has pending on a line. -/
def pendingOf (s : State) (o : Owner) (line : Nat) : Option Pending :=
  (s.homes.vlines.find line).bind fun v => v.pend.find? fun p => decide (p.owner = o)

/-- The byte is no metadata byte of a line. -/
def noCode (s : State) (a : Nat) : Prop := ∀ l, metaByte s l ≠ some a

end Sys2Proof.Claims

/-- A transaction's commit takes its stamp once its lines are locked, unless it is doomed; it is over 3 meridians after the stamp
(51 where a line is another device's), and then every line of it holds its new version at once, no other byte of memory changes, and
its thread's transaction has ended with the stamp (R95, R96, R112). Locks of a line come one after the other (log entry 107), loads of the
transaction that are in flight read what it committed (log entry 108), and both wait for lines that sleep, copies of them, and a die that
relocks (R84, R119, R394, R395; log entry 101). -/
def Sys2Proof.Claims.transactionCommits : Prop :=
  ∀ (s : State) (i t : Nat) (k : Commit), s.commits.find i = some k → k.owner = .tx t →
    (s.clocked k.die = false ∨ s.lockedBefore k.owner = true → k.stamp = none → exec (.lockComplete i) s = .next s) ∧
    (s.lockedBefore k.owner = true ↔ ∃ l y, (l, y) ∈ s.homes.vlines ∧ (∃ p ∈ y.pend, p.owner = k.owner ∧ p.stamp = none) ∧
      ∃ p ∈ y.pend, p.stamp ≠ none) ∧
    (k.stamp = none → s.clocked k.die = true → s.lockedBefore k.owner = false → ∀ v, (s.thread t).view = some v → v.tx = true →
      let c := max ((s.die k.die).mer + 2) (s.homes.newest k.owner + 1)
      (v.doom ≠ 0 → ∃ s', exec (.lockComplete i) s = .next s' ∧ s'.commits.find i = none ∧ s'.homes = s.homes ∧ (s'.thread t).hold = none) ∧
      (v.doom = 0 → ∃ s', exec (.lockComplete i) s = .next s' ∧ s'.commits.find i = some { k with stamp := some c } ∧
        s'.homes.mem = s.homes.mem ∧ s'.threads = s.threads ∧ ∀ line p, pendingOf s k.owner line = some p → p.stamp = none →
          ∃ q, pendingOf s' k.owner line = some q ∧ q.stamp = some c ∧ q.locking = true ∧
            ∀ j < 256, lineByte q.data j = if p.mask.getLsbD j then lineByte p.data j else s.homes.mem.read (line * 256 + j))) ∧
    (∀ c, k.stamp = some c → (s.homes.vlines.map (·.1)).Nodup →
      let due := c + if k.remote then 51 else 3
      let mine (line : Nat) : Prop := versionOf s k.owner (some c) line ≠ none
      ((s.die k.die).mer < due ∨ s.clocked k.die = false ∨ (∃ line, mine line ∧ s.lineAwake line = false) →
        exec (.commitComplete i) s = .next s) ∧
      (due ≤ (s.die k.die).mer → s.clocked k.die = true → (∀ line, mine line → s.lineAwake line = true) →
        (∃ line, mine line ∧ s.copiesLeft line = true) → ∃ s', exec (.commitComplete i) s = .next s' ∧ s'.homes.mem = s.homes.mem ∧
        s'.commits = s.commits ∧ s'.threads = s.threads ∧ ∀ line, mine line →
          (s.homes.copies.getD line [] ≠ [] → line ∈ s'.homes.purging) ∧
          (∀ d < 4, ∀ r ∈ (s.die d).replicas, r.page = line / 256 → line / 256 ∈ s'.homes.collapsing)) ∧
      (due ≤ (s.die k.die).mer → s.clocked k.die = true → (∀ line, mine line → s.lineAwake line = true ∧ s.copiesLeft line = false) →
        (s.threads.find t).isSome = true → ∃ s', exec (.commitComplete i) s = .next s' ∧ s'.commits.find i = none ∧
        (∀ line v p, s.homes.vlines.find line = some v → versionOf s k.owner (some c) line = some p → line / 256 ∈ s.homes.heads →
          (∃ v', s'.homes.vlines.find line = some v' ∧ p ∉ v'.pend ∧ v'.stamp = c ∧ v'.older = ⟨v.stamp, memLine s.homes.mem line, v.owner, p.slot⟩ :: v.older ∧
            v'.intent ≠ some t) ∧
          ∀ j < 256, noCode s (line * 256 + j) → s'.homes.mem.read (line * 256 + j) = lineByte p.data j) ∧
        (∀ a, versionOf s k.owner (some c) (a / 256) = none → noCode s a → s'.homes.mem.read a = s.homes.mem.read a) ∧
        (let th := s'.thread t
         th.txstamp = BitVec.ofNat 64 c ∧ th.txwhy = 0 ∧ th.view = none ∧ th.hold = none ∧ th.regs = (s.thread t).regs) ∧
        ∀ j o st, s.ops.find j = some o → o.view = .tx st t → o.loads = true → o.performed = false →
          ((∃ p ∈ o.pieces, mine (p.pa / 256)) → (s'.ops.find j).map (·.view) = some (.snap c)) ∧
          ((∀ p ∈ o.pieces, ¬ mine (p.pa / 256)) → (s'.ops.find j).map (·.view) = some (.snap st))))

/-- A publication swaps the bases of its record when it takes its stamp, and gives the stamp to its word when it is over; the
collector's low-water stamp never falls and never passes the stamp of an open view that was not below it (R105, R106, R115). The newest
stamp of another device's lines is free (log entry 27); with nothing open the low-water stamp is the least of the meridians (log entry 86).
Locks of a line come one after the other (log entry 107), and wait as a transaction's do (log entry 101). -/
def Sys2Proof.Claims.publicationsAndCollector : Prop :=
  (∀ (s : State) (i ctx tb : Nat) (k : Commit), s.commits.find i = some k → k.owner = .pub ctx tb →
    (k.stamp = none → s.clocked k.die = false ∨ s.lockedBefore k.owner = true ∨ s.enginesBefore k.core ctx tb i = true →
      exec (.lockComplete i) s = .next s) ∧
    (k.stamp = none → s.clocked k.die = true → s.lockedBefore k.owner = false → s.enginesBefore k.core ctx tb i = false →
      let far := s.homes.farGroups.contains (ctx, tb)
      let n := if far then max (s.homes.newest k.owner) (Config.farNewest s.sched.draw) else s.homes.newest k.owner
      ∃ s', exec (.lockComplete i) s = .next s' ∧
      s'.commits.find i = some { k with stamp := some (max ((s.die k.die).mer + 2) (n + 1)), remote := far } ∧ s'.homes.mem = s.homes.mem ∧
      (let r := Sys2Proof.Machine.recF ((s.ctx ctx).recAt tb)
       let r' := Sys2Proof.Machine.recF ((s'.ctx ctx).recAt tb)
       if r.shadow = 0 then (s'.ctx ctx).recAt tb = (s.ctx ctx).recAt tb else r' = { r with base := r.shadow, shadow := r.base })) ∧
    (∀ c, k.stamp = some c → c + (if k.remote then 51 else 3) ≤ (s.die k.die).mer → s.clocked k.die = true →
      (∀ l ∈ s.homes.ownLines k.owner c, s.lineAwake l = true ∧ s.copiesLeft l = false) → ∃ s', exec (.commitComplete i) s = .next s' ∧
      s'.commits.find i = none ∧ s'.threads.find k.tid = (s.threads.find k.tid).map fun th => th.land k.tok [(BitVec.ofNat 64 c, .i64)] [])) ∧
  (∀ (s : State) (die : Nat), ∃ s', exec (.collectorRecompute die) s = .next s' ∧ s'.homes.mem = s.homes.mem ∧ s'.threads = s.threads ∧
    (s.die die).lw ≤ (s'.die die).lw ∧ (∀ v ∈ s.openStamps, (s'.die die).lw ≤ max (s.die die).lw v) ∧
    (s.openStamps = [] → ∀ d < 4, (s'.die die).lw ≤ max (s.die die).lw (s.die d).mer) ∧
    ∀ line v, s.homes.vlines.find line = some v → ∃ v', s'.homes.vlines.find line = some v' ∧ v'.stamp = v.stamp ∧ v'.pend = v.pend ∧
      v'.intent = v.intent ∧ v'.older <+: v.older)

/-- How transactions and publications commit, and what the collector keeps. -/
def Obligations.CommitsAndCollector : Prop := transactionCommits ∧ publicationsAndCollector

/-! ### Translation, and the completion of commands -/

/-- A page walk caches the leaf it finds, with a set and d for a write, and what waited for it goes on; it takes 0x27 from an entry
that is a format error, and asks the host where there is no page; the host's answer starts it again or gives 0x24; an invalidate leaves
no translation of its range (R75, R78-R81, R391). A request has the least free index (log entry 76); an answer with die 0xFF goes to every
die that has a request of the index (log entry 100). -/
def Obligations.TranslationEvents : Prop :=
  ∀ (s : State) (die : Nat) (w : Walk) (rest : List Walk),
    let keys (x : Walk) : Bool := x.ctx == w.ctx && x.region == w.region
    let told (u : State) (t : Nat) (c : Cause) : State := u.modThread t fun th => { th with
      xlat := th.xlat ++ [(w.region, c)]
      hold := match th.hold with
        | some h => if h.on = .event ∧ (h.leaf = 0x2 ∨ h.leaf = 0x7) then none else some h
        | none => none }
    ((s.die die).walks = w :: rest → w.posted = none → s.walkAwake w.ctx w.va = true →
      (∀ level e a, s.walk w.ctx w.va = .leaf level e a →
        let e' := e ||| 0x10 ||| if w.write = true ∧ (pte e).w = true then 0x20 else 0
        ∃ s', exec (.pageWalkComplete die) s = .next s' ∧ (s'.die die).tlb.head? = some ⟨w.ctx, leafShift level, w.va / 2 ^ leafShift level, e'⟩ ∧
          (s'.die die).walks = rest.filter (fun x => !keys x) ∧
          ∀ b, s'.homes.mem.read b = if a ≤ b ∧ b < a + 8 ∧ e' ≠ e ∧ s.unhindered a 8 = true then (leBytes 8 e'.toNat).getD (b - a) 0 else s.homes.mem.read b) ∧
      (s.walk w.ctx w.va = .bad → ∀ t, w.waiters = [.thread t] → exec (.pageWalkComplete die) s = .next
        (told (s.modDie die fun d => { d with walks := d.walks.filter fun x => !keys x }) t 0x27)) ∧
      (s.walk w.ctx w.va = .absent → (∀ gc e i, Waiter.eng gc e i ∉ w.waiters) → ∀ i, freeIndex (s.die die).pq = some i → exec (.pageWalkComplete die) s = .next (s.modDie die fun d => { d with
        pq := d.pq.put i ⟨w.va / 256 * 256, w.ctx, die, w.kind⟩
        walks := d.walks.map fun x => if x.ctx = w.ctx ∧ x.region = w.region then { x with posted := some i } else x }))) ∧
    (∀ tag i q, s.dev.fwOk = true → die < 4 → (s.die die).pq.find i = some q →
      exec (.resolvePage tag die i) s = .next ((s.modDie die fun d => { d with
        pq := d.pq.drop i, walks := d.walks.map fun w => if w.posted = some i then { w with posted := none } else w }).finish tag 0) ∧
      (s.postedWalk die i = some w → ∀ t, w.waiters = [.thread t] → exec (.refusePage tag die i) s = .next
        ((told (s.modDie die fun d => { d with pq := d.pq.drop i, walks := d.walks.filter fun x => !keys x }) t 0x24).finish tag 0))) ∧
    (∀ tag i, s.dev.fwOk = true → (die ≠ 0xFF ∧ (s.die die).pq.find i = none) ∨ (4 ≤ die ∧ die ≠ 0xFF) ∨
        (die = 0xFF ∧ ∀ d < 4, (s.die d).pq.find i = none) →
      exec (.resolvePage tag die i) s = .next (s.finish tag 1) ∧ exec (.refusePage tag die i) s = .next (s.finish tag 1)) ∧
    (∀ tag i, s.dev.fwOk = true → (∃ d < 4, ((s.die d).pq.find i).isSome) → ∃ s' : State, exec (.resolvePage tag 0xFF i) s = .next (s'.finish tag 0) ∧
      s'.homes = s.homes ∧ s'.threads = s.threads ∧ ∀ d < 4, (s'.die d).pq = (s.die d).pq.drop i ∧
        (((s.die d).pq.find i).isSome → (s'.die d).walks = (s.die d).walks.map fun w => if w.posted = some i then { w with posted := none } else w)) ∧
    (∀ tag ctx base len, s.dev.fwOk = true → ∃ s', exec (.translationInvalidate tag ctx base len) s = .next s' ∧ s'.homes = s.homes ∧
      s'.dev.order = s.dev.order ++ [(tag, none)] ∧ s'.dev.done = s.dev.done ∧
      (∀ e, (∃ d < 4, e ∈ (s'.die d).tlb) ∨ (∃ n, e ∈ (s'.core n).tlb) → e.ctx = ctx →
        ¬ (e.region * 2 ^ e.shift < base + len ∧ base < e.region * 2 ^ e.shift + 2 ^ e.shift)) ∧
      ∀ n l, l ∈ (s'.core n).l1 → l.ctx = ctx → ¬ (l.line * 256 < base + len ∧ base < l.line * 256 + 256)) ∧
    (∀ tag x, s.dev.invs.find? (fun x => x.tag == tag) = some x → (∀ i ∈ x.ops, s.stillOld i = false) → ∀ r : List (Ticket × Nat),
      (∀ y ∈ r, y.1.fn = tag.fn) → s.dev.order = (tag, none) :: r.map (fun y => (y.1, some y.2)) →
      ∃ s', exec (.translationInvalidateComplete tag) s = .next s' ∧ s'.homes = s.homes ∧ s'.dev.order = [] ∧
        s'.dev.done = s.dev.done ++ (tag, 0) :: r) ∧
    (∀ tag st, (∀ (j : Nat) (k : Ticket) (v : Nat), s.dev.order[j]? = some (k, some v) → ∃ i < j, ∃ x, s.dev.order[i]? = some (x, none) ∧ x.fn = k.fn) →
      ((∀ x ∈ s.dev.order, x.1.fn ≠ tag.fn) → (s.finish tag st) = s.modDev fun d => { d with done := d.done ++ [(tag, st)] }) ∧
      (∀ x, (x, none) ∈ s.dev.order → x.fn = tag.fn → (s.finish tag st) = s.modDev fun d => { d with order := d.order ++ [(tag, some st)] }))

/-! ### Events of the engines and of the brick array -/

namespace Sys2Proof.Claims

/-- Whether a running operation waits for a page. -/
def parkedOp : EngState → Bool
  | .parked _ => true
  | _ => false

/-- Whether an operation counts among those that run: one that only waits for a walk does. -/
def runningOp : EngState → Bool
  | .running => true
  | .walking _ => true
  | _ => false

/-- A record whose bytes lie in a team's scratchpad, row after row, without swizzle or shadow. -/
def plainScratch (r : RecF) : Prop := r.home = 0xFC ∧ r.shadow = 0 ∧ r.swz = 0

/-- No word of a scratchpad range is poisoned. -/
def unpoisoned (s : State) (gc w a n : Nat) : Prop :=
  ∀ x ∈ wordsOf a n, let q := s.spPlace gc w (x * 4); q.2 / 4 ∉ (s.bank gc q.1).poison

/-- The operation waits for a page of its context that a walk looks for, or that the host has been asked for (R79, R186). -/
def waitsForPage (s s' : State) (gc e i : Nat) (o : EngOp) (va : Nat) : Prop :=
  let asked := ∃ w ∈ (s.die (gc / 64)).walks, w.ctx = o.ctx ∧ w.region = va / 65536 ∧ w.posted ≠ none
  s'.homes = s.homes ∧ (asked → (s'.engine gc e).ops.find i = some { o with st := .parked va }) ∧
    (¬ asked → (s'.engine gc e).ops.find i = some { o with st := .walking va }) ∧
    ∃ w ∈ (s'.die (gc / 64)).walks, w.ctx = o.ctx ∧ w.region = va / 65536 ∧ .eng gc e i ∈ w.waiters

/-- An operation has ended with a status, and its engine does not hold it any more (R172). -/
def endedWith (s s' : State) (gc e i slot : Nat) (st : BitVec 32) : Prop :=
  (s'.engine gc e).ops.find i = none ∧ ((s'.engine gc e).slots.find slot).map (·.status) = ((s.engine gc e).slots.find slot).map fun _ => some st

end Sys2Proof.Claims

/-- The oldest operation handed to an engine takes the next slot of its ring once that is free, its future goes to every thread that
waits for it, and issue counts fall; one that moves nothing ends at once with status 0; the oldest accepted one starts while fewer than
4 run, those that only wait for a walk among them, and 16 are unfinished; a copy or a plain transform of one chunk leaves the bytes it read at its destination, and the
transform their CRC-32C; a poisoned source ends it with 0x29; a page that is missing is walked for, and one that the host has been asked
for parks it (R168, R170-R172, R175, R177, R180, R182, R186, R189). The engines of a die that relocks, is gated or is halted stand still
(log entry 101), and what an event moves is a unit of log entry 95. -/
def Obligations.EngineEvents : Prop :=
  (∀ (s : State) (die core e slot : Nat), s.dieRuns die = false → ∀ m ∈ [Instr.engineAccept die core e, .arrayAccept die core,
    .engineStart die core e, .engineComplete die core e slot], exec m s = .next s) ∧
  ∀ (s : State) (die core e : Nat), die < 4 → core < 64 → e < 4 → s.dieRuns die = true →
    let gc := die * 64 + core
    let x := s.engine gc e
    let sl := x.slots.getD x.next Slot.blank
    let queued : Nat × EngOp → Bool := fun o => decide (o.2.st = .queued)
    let running : Nat × EngOp → Bool := fun o => runningOp o.2.st
    let accept : Instr := if e < 3 then .engineAccept die core e else .arrayAccept die core
    x.next < 64 → x.ops.sorted = true →
    (x.ops.find? queued = none ∨ (sl.busy = true ∧ sl.status = none) → exec accept s = .next s) ∧
    (∀ i o, x.ops.find? queued = some (i, o) → sl.busy = false ∨ sl.status ≠ none → (o.tid :: o.others).Nodup →
      let gen := if sl.busy then sl.gen + 1 else sl.gen
      let free := o.what.empty
      ∃ (s' : State) (h : Word64), exec accept s = .next s' ∧
        handleOf h = ⟨s.dev.fab.toNat, gc, e, x.next, gen.toNat, if e < 3 then 0 else o.arrayLow⟩ ∧
        (s'.engine gc e).slots.find x.next = some ⟨gen, true, if free then some 0 else none, 0⟩ ∧ (s'.engine gc e).next = (x.next + 1) % 64 ∧
        (s'.engine gc e).ops.find i = (if free then none else
          some { o with st := .accepted, slot := some x.next, taken := s.sched.nextId }) ∧ s'.homes = s.homes ∧
        ∀ u, s'.threads.find u = (s.threads.find u).map fun th => if u ∈ o.tid :: o.others then
          let r := th.land o.tok [(h, .fut)] []
          { r with cnt := { r.cnt with en := r.cnt.en - 1 } } else th) ∧
    (e < 3 →
      let r := x.ops.countP running
      let p := x.ops.countP fun o => parkedOp o.2.st
      (4 ≤ r ∨ 16 ≤ r + p → exec (.engineStart die core e) s = .next s) ∧
      (r < 4 → r + p < 16 → ∀ i o, x.ops.find? (fun o => decide (o.2.st = .accepted)) = some (i, o) →
        exec (.engineStart die core e) s = .next (s.modEng gc e i fun o => { o with st := .running, start := s.now die }))) ∧
    (e < 3 → s.dev.fab ≠ 0xFC → x.ops.countP running ≤ 4 → ∀ slot i o, x.ops.find? (fun o => decide (o.2.slot = some slot)) = some (i, o) →
      o.progress = 0 → o.cancel = false → o.buf = none → o.got = [] →
      let done := exec (.engineComplete die core e slot) s
      (o.st ≠ .running → done = .next s) ∧
      (∀ dst src dL sL n, o.what = .copy dst src dL sL n → o.st = .running → 0 < n →
        let S := Sys2Proof.Machine.recF src
        S.homeOf s.dev.fab = .main → S.rowlen = 0 → S.swz = 0 → s.look die o.ctx (S.base + sL) (.engine false) = .miss →
        ∃ s', done = .next s' ∧ waitsForPage s s' gc e i o (S.base + sL)) ∧
      (∀ dst src dL sL, o.what = .copy dst src dL sL 16 → o.st = .running →
        let D := Sys2Proof.Machine.recF dst
        let S := Sys2Proof.Machine.recF src
        plainScratch D → plainScratch S → D.rowlen = 0 → S.rowlen = 0 →
        (¬ unpoisoned s gc o.work (S.base + sL) 16 → ∃ s', done = .next s' ∧ endedWith s s' gc e i slot 0x229 ∧
          s'.homes = s.homes ∧ ∀ b, s'.bank gc b = s.bank gc b) ∧
        (unpoisoned s gc o.work (S.base + sL) 16 → ∃ s', done = .next s' ∧ endedWith s s' gc e i slot 0x10000 ∧ s'.homes = s.homes ∧
          ∀ b, s'.bank gc b = (s.spWrite gc o.work (D.base + dL) (s.spRead gc o.work (S.base + sL) 16)).bank gc b)) ∧
      (∀ src row col off, o.what = .slabld src row col off 1 → o.st = .running →
        let S := Sys2Proof.Machine.recF src
        plainScratch S → S.rowlen = 16 → let a := S.base + row * S.stride
        unpoisoned s gc o.work a 16 → ∃ s', done = .next s' ∧ endedWith s s' gc e i slot 0x10000 ∧ s'.homes = s.homes ∧
          (s'.core gc).slab = (s.core gc).slab.writeN (col * 131072 + off) (s.spRead gc o.work a 16)) ∧
      (∀ dst src z dL sL m, o.what = .xform dst src z dL sL → o.st = .running → z.cv = false → z.sc = false → z.sp = none → z.tr = false → z.pk = false →
        let D := Sys2Proof.Machine.recF dst
        let S := Sys2Proof.Machine.recF src
        plainScratch D → plainScratch S → S.trows = 1 → S.tcols * (Num.format S.fmt).width = 8 * m → 0 < m → m ≤ 16 →
        let a (r : RecF) (L : Nat) : Nat := r.base + let q := r.rowCol L; q.1 * r.stride + q.2
        unpoisoned s gc o.work (a S sL) m → ∃ s', done = .next s' ∧ endedWith s s' gc e i slot 0x10000 ∧ s'.homes = s.homes ∧
          (let bs := s.spRead gc o.work (a S sL) m
           (∀ b, s'.bank gc b = (s.spWrite gc o.work (a D dL) bs).bank gc b) ∧ ∀ k, (s'.engine gc e).slots.find slot = some k →
             k.crc = BitVec.ofNat 64 ((crc32c bs).toNat * 2 ^ 32 + (crc32c bs).toNat)))) ∧
    crc32c [0x31, 0x32, 0x33, 0x34, 0x35, 0x36, 0x37, 0x38, 0x39] = 0xE3069283

namespace Sys2Proof.Claims

/-- The value of a sign-magnitude code of `w` bits (R50). -/
def smInt (w c : Nat) : Int := let m : Int := (c % 2 ^ (w - 1) : Nat); if c / 2 ^ (w - 1) % 2 = 1 then -m else m

/-- An mma of a width pair whose accumulators are integers. -/
def intPair (fA fB : BitVec 4) : Prop := fA.toNat ≤ 5 ∧ fB.toNat ≤ 5

/-- The rational number that a finite value stands for. -/
def ratVal : Num.XVal → Rat
  | .fin s n d => (if s then -(n : Rat) else n) / d
  | _ => 0

/-- A scale that a chunk has read, 1 for a record without scales (R67). -/
def scaleAt (r : RecF) (sc : List (List Byte)) (i : Nat) : Num.XVal :=
  if r.scl = 0 then .fin false 1 1 else Num.decodeF Num.f32 (leVal (sc.getD i []))

/-- Index of sA(row, j) of a record whose tile is `M` rows and `c` chunks (R67). -/
def indexA (r : RecF) (row j : Nat) : Nat := let c := (r.tcols + 127) / 128; if r.scl = 2 then j * r.trows + row else row * c + j

/-- An array operation of a slot stands first on its tile. -/
def movesFirst (s : State) (gc slot i : Nat) (o : EngOp) : Prop :=
  (s.engOps gc 3).find? (fun x => decide (x.2.slot = some slot) && s.tileFree gc x.1 x.2) = some (i, o)

end Sys2Proof.Claims

/-- The oldest mma starts when its tile is free for it and no other has begun (log entries 116, 117); a chunk of it adds the exact sum of
its products to every live accumulator of an integer pair, with the clamp of R248 and its sticky bit, and to one of a floating pair, times
the scales that it has read and with the two roundings and special values of R248 and R249; its status counts chunks; a residue mismatch
computes the chunk again, and the next one ends the operation with 0x87; a cancelled mma ends with its chunk, and a team that is to be
switched out stops its mma there (R256); a swap exchanges a tile's banks and lets its group go on, a zeroing clears its working bank, and
acc.ld and acc.st move a row of its visible bank (R67, R248-R253, R261, R262). The array of a die that relocks, is gated or is halted
stands still (log entry 101); an event is one chunk or row (log entry 95). -/
def Obligations.ArrayEvents : Prop :=
  (∀ (s : State) (die core tile slot : Nat) (bad : Bool), s.dieRuns die = false → ∀ m ∈ [Instr.mmaStart die core, .chunkPromotion die core bad,
    .accBankExchange die core tile, .accZeroComplete die core tile, .accMoveComplete die core slot], exec m s = .next s) ∧
  ∀ (s : State) (die core : Nat), die < 4 → core < 64 → s.dieRuns die = true →
    let gc := die * 64 + core
    let x := s.engine gc 3
    let acc (u : State) : Tbl (BitVec 32) := (u.core gc).acc
    x.ops.sorted = true → (acc s).sorted = true →
    let mine : Nat × EngOp → Bool := fun x => x.2.what.isMma && s.arrayLive x.2 && decide (x.2.st ≠ .queued)
    (x.ops.find? mine = none → exec (.mmaStart die core) s = .next s) ∧
    (∀ i o, x.ops.find? mine = some (i, o) →
      let goes := (∀ y ∈ x.ops, mine y = true → y.2.st = .accepted) ∧ s.leaving o.work = false ∧ s.tileFree gc i o = true
      (goes → exec (.mmaStart die core) s = .next (s.modEng gc 3 i fun o => { o with st := .running, start := s.now die })) ∧
      (¬ goes → exec (.mmaStart die core) s = .next s)) ∧
    (∀ i o ra rb tile fA fB sp ovw row0 col off u nk live slot, x.ops.find? (fun x => x.2.what.isMma && decide (x.2.st = .running) && s.arrayLive x.2) = some (i, o) →
      o.what = .mma ra rb tile fA fB sp ovw row0 col off u nk live → o.slot = some slot →
      (o.retried = false → exec (.chunkPromotion die core true) s = .next ((s.almanac 1 1).modEng gc 3 i fun o => { o with retried := true })) ∧
      (o.retried = true → ∃ s', exec (.chunkPromotion die core true) s = .next s' ∧ acc s' = acc s ∧
        endedWith s s' gc 3 i slot (engStatus o.progress 2 0x87)) ∧
      (∀ pr ph, intPair fA fB → pairOf fA fB = some pr → s.physTile gc o.work tile = some ph → live ≤ 32 → tile < 16 →
        let cell (r n : Nat) : Num.XVal := chunkSum (Num.format fA) (Num.format fB) (cellElems
          (aBytes s gc o.work (Sys2Proof.Machine.recF ra) (row0 + r) (col + 16 * pr.wA * o.progress) (16 * pr.wA)) pr.wA (bChunk (s.core gc).slab pr sp (nk * 128) off o.progress n))
        let new (r n : Nat) : Nat × Bool := accInt (if ovw = true ∧ o.progress = 0 then 0 else getAcc (acc s) (accKey ph 0 r n)) (cell r n)
        ∃ s', exec (.chunkPromotion die core false) s = .next s' ∧ s'.homes = s.homes ∧
          (∀ r < live, ∀ n < 128, getAcc (acc s') (accKey ph 0 r n) = (new r n).1) ∧
          (∀ k, (∀ r < live, ∀ n < 128, k ≠ accKey ph 0 r n) → getAcc (acc s') k = getAcc (acc s) k) ∧
          (∀ y, s.works.find o.work = some y → (((s'.work o.work).sat.getD gc 0).getLsbD tile = true ↔
            (y.sat.getD gc 0).getLsbD tile = true ∨ ∃ r < live, ∃ n < 128, (new r n).2 = true)) ∧
          (nk ≤ o.progress + 1 ∨ o.cancel = true → endedWith s s' gc 3 i slot (engStatus (o.progress + 1) (if o.cancel then 1 else 0) 0)) ∧
          (o.progress + 1 < nk → o.cancel = false → (s'.engine gc 3).ops.find i = some { o with
            progress := o.progress + 1, retried := false, got := [], st := if s.leaving o.work then .accepted else o.st })) ∧
      (∀ pr, ¬ intPair fA fB → pairOf fA fB = some pr →
        let A := Sys2Proof.Machine.recF ra
        let B := Sys2Proof.Machine.recF rb
        let j := o.progress
        let nA := if A.scl = 0 then 0 else live
        (∀ ph, s.physTile gc o.work tile = some ph → live ≤ 32 → tile < 16 → o.got.length = nA + (if B.scl = 0 then 0 else 1) →
          let cell (r n : Nat) : Num.XVal := chunkSum (Num.format fA) (Num.format fB) (cellElems
            (aBytes s gc o.work A (row0 + r) (col + 16 * pr.wA * j) (16 * pr.wA)) pr.wA (bChunk (s.core gc).slab pr sp (nk * 128) off j n))
          let new (r n : Nat) : Nat := accFloat (if ovw = true ∧ j = 0 then 0x80000000 else getAcc (acc s) (accKey ph 0 r n)) (cell r n)
            (scaleAt A o.got.reverse r) (scaleAt B o.got.reverse nA)
          ∃ s', exec (.chunkPromotion die core false) s = .next s' ∧ s'.homes = s.homes ∧ (s'.work o.work).sat = (s.work o.work).sat ∧
            (∀ r < live, ∀ n < 128, getAcc (acc s') (accKey ph 0 r n) = new r n) ∧
            (∀ k, (∀ r < live, ∀ n < 128, k ≠ accKey ph 0 r n) → getAcc (acc s') k = getAcc (acc s) k) ∧
            (nk ≤ j + 1 ∨ o.cancel = true → endedWith s s' gc 3 i slot (engStatus (j + 1) (if o.cancel then 1 else 0) 0))) ∧
        (A.scl ≠ 0 → 0 < live → o.got = [] →
          let va := A.sbase + 4 * indexA A row0 (col * 8 / (128 * pr.wA) + j)
          s.look die o.ctx va (.engine false) = .miss →
          ∃ s', exec (.chunkPromotion die core false) s = .next s' ∧ acc s' = acc s ∧ waitsForPage s s' gc 3 i o va))) ∧
    (∀ fA fB es, pairOf fA fB ≠ none →
      let ps := es.map fun x : Nat × Nat => Sys2Proof.Num.mul ((Num.format fA).value x.1) ((Num.format fB).value x.2)
      let nan := ∃ g, Num.XVal.nan g ∈ ps
      let inf (g : Bool) := Num.XVal.inf g ∈ ps
      let sum := chunkSum (Num.format fA) (Num.format fB) es
      (nan ∨ (inf true ∧ inf false) → sum = .nan false) ∧
      (¬ nan → ∀ g, inf g → ¬ inf (!g) → sum = .inf g) ∧
      (¬ nan → ¬ inf true → ¬ inf false → ∃ g n d, sum = .fin g n d ∧ 0 < d ∧ ratVal sum = (ps.map ratVal).sum ∧ (n = 0 → g = false))) ∧
    (∀ (a : Nat) (p sA sB : Num.XVal), let t := Num.encodeF Num.f32 .rn (Sys2Proof.Num.mul (Sys2Proof.Num.mul p sA) sB)
      let some3 (f : Num.XVal → Bool) : Prop := f p = true ∨ f sA = true ∨ f sB = true
      accFloat a p sA sB = Num.encodeF Num.f32 .rn (Sys2Proof.Num.add .rn (Num.decodeF Num.f32 a) (Num.decodeF Num.f32 t)) ∧
      (some3 Num.XVal.isNan ∨ (some3 Num.XVal.isZero ∧ some3 (fun x => !x.isNan && !x.isFin)) → accFloat a p sA sB = 0x7FC00000) ∧
      ((Num.decodeF Num.f32 t).isNan = false → accFloat 0x80000000 p sA sB = t)) ∧
    (∀ fA fB es, intPair fA fB →
      let z : Int := (es.map fun x : Nat × Nat => smInt (Num.format fA).width x.1 * smInt (Num.format fB).width x.2).sum
      chunkSum (Num.format fA) (Num.format fB) es = .fin (decide (z < 0)) z.natAbs 1 ∧
      ∀ a, accInt a (chunkSum (Num.format fA) (Num.format fB) es) =
        (Num.wrapInt 32 (max (-2147483648) (min 2147483647 (Num.signedOf 32 a + z))),
         decide (Num.signedOf 32 a + z < -2147483648 ∨ 2147483647 < Num.signedOf 32 a + z))) ∧
    (∀ tile i o, s.tileHead gc tile true = some (i, o) → ∃ s', exec (.accBankExchange die core tile) s = .next s' ∧
      (∀ r < 32, ∀ n < 128, getAcc (acc s') (accKey tile 0 r n) = getAcc (acc s) (accKey tile 1 r n) ∧
        getAcc (acc s') (accKey tile 1 r n) = getAcc (acc s) (accKey tile 0 r n)) ∧
      (∀ k, k / 8192 ≠ tile → getAcc (acc s') k = getAcc (acc s) k) ∧ (s'.engine gc 3).ops.find i = none ∧
      ∀ u, s'.threads.find u = (s.threads.find u).map fun th => if u ∈ s.groupLive o.group then { th with hold := none } else th) ∧
    (∀ tile i o, s.tileHead gc tile false = some (i, o) → ∃ s', exec (.accZeroComplete die core tile) s = .next s' ∧
      (∀ k, getAcc (acc s') k = if k / 8192 = tile ∧ k % 8192 < 4096 then 0 else getAcc (acc s) k) ∧
      (s'.engine gc 3).ops.find i = none ∧ s'.threads = s.threads) ∧
    (∀ slot i o ph, movesFirst s gc slot i o → s.physTile gc o.work (o.what.part.1) = some ph → o.progress = 0 → o.cancel = false → o.got = [] →
      (∀ va, o.st ≠ .parked va ∧ o.st ≠ .walking va) → s.dev.fab ≠ 0xFC → ∀ w tile fM fT L, let r := Sys2Proof.Machine.recF w
      plainScratch r → r.rowlen = 0 → let n := 16 * (Num.format fM).width
      (o.what = .accLd w tile fM fT L 1 → unpoisoned s gc o.work (r.base + L) n → ∃ s', exec (.accMoveComplete die core slot) s = .next s' ∧
        endedWith s s' gc 3 i slot 0x10000 ∧ s'.homes = s.homes ∧
        (∀ c < 128, getAcc (acc s') (accKey ph 1 0 c) =
          accConv fM fT (elemOf (leVal (s.spRead gc o.work (r.base + L) n)) (Num.format fM).width c) % 2 ^ 32) ∧
        ∀ k, (∀ c < 128, k ≠ accKey ph 1 0 c) → getAcc (acc s') k = getAcc (acc s) k) ∧
      (o.what = .accSt w tile fM fT L 1 → ∃ s', exec (.accMoveComplete die core slot) s = .next s' ∧
        endedWith s s' gc 3 i slot 0x10000 ∧ acc s' = acc s ∧ s'.homes = s.homes ∧
        ∀ b, s'.bank gc b = (s.spWrite gc o.work (r.base + L) (packBytes (Num.format fM).width n ((List.range 128).map fun c =>
          accConv fT fM (getAcc (acc s) (accKey ph 1 0 c))))).bank gc b))

/-! ### Events of bins, barriers, groups, trials and headers -/

namespace Sys2Proof.Claims

/-- The threads of a group that have arrived at reg.grow go past it, those that have not stepped it yet too, and no other thread
changes. -/
def letsGo (s s' : State) (g : Nat) : Prop :=
  ∀ u, s'.threads.find u = (s.threads.find u).map fun th =>
    if u ∈ s.groupLive g ∧ th.place = .running ∧ th.pos.win = 1 ∧ th.pos.opcode = some (.lane, 0x7A) ∧ th.done = false then { th with hold := none, part := true, stage := 0 } else th

/-- A held request could be granted now: its lanes have room for what it adds, or where its group is spilled for all that it will hold
(R203, R204). -/
def couldGrant (s : State) (g : Nat × Nat) : Bool :=
  match (s.group g.1).spill with
  | none => s.growRoom g.1 (g.2 - (s.group g.1).n)
  | some 1 => s.growRoom g.1 (16 + g.2)
  | some _ => false

/-- The bin is to be released at the end of its die's lane cycle: its conditions hold, or its oldest occupant has waited 64 lane cycles
(R291). -/
def dueNow (s : State) (b : Bin) : Prop := (s.goes (s.group b.group).work && s.binDue b) = true ∨ s.binOld b = true

/-- Every entry of a thread's registers keeps its residue, and every predicate its parity (R198, R206). -/
def soundRegs (r : Regs) : Prop :=
  (∀ e ∈ r.q.toList ++ r.k.toList, e.kind = .empty ∨ e.res = BitVec.ofNat 3 (e.val.toNat % 7)) ∧
    ∀ c ∈ r.p.toList, c.wait = none → c.par = c.v.parity

/-- A thread but for where it is gathered. -/
def Gathered (th : Thread) : Thread := { th with bundle := 0, place := .running }

end Sys2Proof.Claims

/-- At the end of a lane cycle a bin whose oldest occupant has waited 64 lane cycles is released as one bundle, with what else is due then,
a thread that found its lane full there opens a new bin, a soft barrier is released after 1,024 lane cycles; a held reg.grow is
granted when its lanes have room, the oldest first, spilled or not; where every group of a core is held, the one held last is spilled, its registers come back when there is
room, and its threads go on (R202-R204, R291, R295). -/
def Obligations.GatheringEvents : Prop :=
  ∀ s : State,
    (∀ i b, s.bins.find i = some b → let ts := s.byTig (b.tids.map (·.1))
      ((s.sched.issue ≠ [] ∨ b.coll = true ∨ (s.work (s.group b.group).work).sw ≠ .running ∨ (s.work (s.group b.group).work).rpl ≠ none ∨ ∀ x ∈ b.tids, (s.die b.die).lc < x.2 + 64) → exec (.binTimeout i) s = .next s) ∧
      (∀ j c, s.sched.issue = [] → s.binOld b = true → s.bins.sorted = true → s.bins.find j = some c → c.die = b.die → dueNow s c →
        j < s.sched.nextId → ∃ s', exec (.binTimeout i) s = .next s' ∧ s'.bins.find j = none) ∧
      (s.sched.issue = [] → b.coll = false → (s.work (s.group b.group).work).sw = .running → (s.work (s.group b.group).work).rpl = none →
        (∃ x ∈ b.tids, x.2 + 64 ≤ (s.die b.die).lc) → ts ≠ [] → s.bins.sorted = true →
        (∀ j c, s.bins.find j = some c → c.die = b.die → dueNow s c → j = i) → (∀ t ∈ ts, (s.workOf t).rpl = none) → ∃ s' n y, exec (.binTimeout i) s = .next s' ∧ (i < s.sched.nextId → s'.bins.find i = none) ∧
          s'.bundles.find n = some y ∧ y.tids = ts ∧ s'.homes = s.homes ∧
          (∀ u, u ∉ b.full → s'.threads.find u = (s.threads.find u).map fun th => if u ∈ ts then { th with bundle := n, place := .running } else th) ∧
          (∀ u, (s'.threads.find u).map Gathered = (s.threads.find u).map Gathered) ∧
          ∀ u, b.full = [u] → u ∉ ts → (s.threads.find u).isSome = true → (s.thread u).id.tig < 64 → i < s.sched.nextId →
            let th := s.thread u
            let bs := (s.binsOf th.id.die th.id.core th.slice).filter fun kv => decide (kv.1 ≠ i)
            bs.length < 8 → (∀ kv ∈ bs, (kv.2.group, kv.2.addr, kv.2.coll) ≠ (th.id.group, th.pos.pc, false)) →
              (s'.thread u).place = .bin ∧ ∃ k z, s'.bins.find k = some z ∧ z.tids = [(u, s.lcOf u)] ∧ z.addr = th.pos.pc)) ∧
    (∀ g t rest, s.groupLive g = t :: rest → s.threads.sorted = true → (∀ a ∈ (s.group g).softA, a.1 < 64) →
      ((s.work (s.group g).work).rpl ≠ none ∨ (∀ a ∈ (s.group g).softA, s.lcOf t < a.2 + 1024) → exec (.softBarrierTimeout g) s = .next s) ∧
      ((s.work (s.group g).work).rpl = none → (∃ a ∈ (s.group g).softA, a.2 + 1024 ≤ s.lcOf t) → ∃ s', exec (.softBarrierTimeout g) s = .next s' ∧
        (s'.group g).softA = [] ∧ s'.homes = s.homes ∧
        (∀ u, (s'.threads.find u).map Gathered = (s.threads.find u).map Gathered) ∧
        ∀ a ∈ (s.group g).softA, ∀ u, s.tidAt g a.1 = some u → (s'.thread u).place = .running)) ∧
    (∀ die core, s.nextGrant die core = (s.heldGroups die core).find? (couldGrant s)) ∧
    (∀ die core g n, s.groups.sorted = true → s.nextGrant die core = some (g, n) →
      ((s.group g).spill = none → ∃ s', exec (.regGrowGrant die core) s = .next s' ∧
        letsGo (renamed s g n) s' g ∧ s'.groups = (renamed s g n).groups ∧ s'.homes = s.homes) ∧
      ((s.group g).spill ≠ none → exec (.regGrowGrant die core) s = .next s)) ∧
    (∀ die core g n k, s.groups.sorted = true → g ∈ s.coreGroups die core → (s.group g).spill = none → (s.group g).grow = some (n, k) →
      (∀ h ∈ s.coreGroups die core, (s.group h).spill = none ∨ (s.group h).spill = some 1) →
      (∀ h ∈ s.coreGroups die core, (s.group h).spill = none → h ≠ g → ∃ n' k', (s.group h).grow = some (n', k') ∧ k' < k) →
      exec (.allBlockedSpill die core) s = .next (s.modGroup g fun x => { x with spill := some 0 })) ∧
    (∀ g, ((s.group g).spill = some 0 → exec (.spillComplete g) s = .next (s.modGroup g fun x => { x with spill := some 1 })) ∧
      (∀ n k, (s.group g).spill = some 1 → (s.group g).grow = some (n, k) →
        let first := ∀ l ∈ s.groupLanes g, ∃ m, s.nextGrant l.1 l.2.1 = some (g, m)
        (poolsHave s g (16 + n) → first → exec (.groupFill g) s = .next ((renamed s g n).modGroup g fun x => { x with spill := some 2 })) ∧
        (¬ poolsHave s g (16 + n) ∨ ¬ first → exec (.groupFill g) s = .next s)) ∧
      ((s.group g).spill = some 2 → (∀ t ∈ s.groupLive g, soundRegs (s.thread t).regs) → ∃ s', exec (.fillComplete g) s = .next s' ∧
        s'.group g = { s.group g with spill := none } ∧ letsGo s s' g ∧ s'.homes = s.homes)) ∧
    (∀ t, s.committed (s.thread t).id.die (s.thread t).id.core (s.thread t).id.lane = 0 → (s.threads.find t).isSome = true →
      (s.work (s.thread t).id.work).resident = true → (s.groupOf t).spill = some 1)

/-- The oldest record of a team's spawn FIFO becomes a thread of its own group of 1 on a lane with a free context and room, with the
registers, predicates, address and identity that the record holds, whoever pushed it (log entry 79); an image gives back the registers it
was made of (R201, R236, R237). -/
def Obligations.ChildrenStart : Prop :=
  (∀ (s : State) (die core w b : Nat), die < 4 → core < 64 → s.spawnFifo (die * 64 + core) w = some b →
    let gc := die * 64 + core
    let items := (s.bank gc b).items
    let word (i : Nat) : Nat := (items.getD i 0).toNat
    let f (lo n : Nat) : Nat := word 1 / 2 ^ lo % 2 ^ n
    let fits (l : Nat) : Prop := l < 64 ∧ 1 ≤ (s.freeSlotsOf die core l).length ∧ s.committed die core l + (16 + f 58 6) ≤ 256
    (items.length < 64 ∨ (∀ l, ¬ fits l) → exec (.spawnStart die core w) s = .next s) ∧
    (64 ≤ items.length → (∃ l, fits l) → (∀ kv ∈ s.threads, kv.1 < s.sched.nextId) →
      soundRegs (imageRegs ((items.drop 3).take 54) (Vector.replicate 8 (PCell.of .F))) →
      ∃ s' t th, exec (.spawnStart die core w) s = .next s' ∧ s.threads.find t = none ∧ s'.threads.find t = some th ∧
        (th.id.work = w ∧ th.id.tig = f 31 6 ∧ th.id.die = die ∧ th.id.core = core) ∧ fits th.id.lane ∧ th.id.slot ∈ s.freeSlotsOf die core th.id.lane ∧
        th.pos = Pos.atHeader (word 0 % 2 ^ 52) ∧ (th.sck = true ↔ f 57 1 = 1) ∧ th.view = none ∧ th.trial = none ∧ th.cnt = ⟨0, 0, 0⟩ ∧ th.cyc = 0 ∧
        (∃ p, th.regs = imageRegs ((items.drop 3).take 54) p ∧ ∀ i : Fin 8, 0 < i.val → p[i] = PCell.of (Tri.ofCode (f (41 + 2 * i.val) 2))) ∧
        (let g := s'.group th.id.group
         g.work = w ∧ g.num = f 37 6 ∧ g.size = 1 ∧ g.n = f 58 6 ∧ g.g = (s.card (s.work w).card).uniforms) ∧
        (s'.bank gc b).items = items.drop 64 ∧ s'.homes = s.homes ∧ ∀ u, u ≠ t → s'.threads.find u = s.threads.find u)) ∧
  (∀ r : Regs, (∀ e ∈ r.k.toList ++ r.q.toList, e.wait = none ∧ e.ready = 0 ∧ e.old = (0, .empty) ∧ (e.kind = .empty → e = Entry.blank)) → imageRegs r.image r.p = r)

/-- A trial ends once its candidate's accesses have performed: the outcome record of R322 goes to the four registers that try named,
nothing is pushed, and the thread goes on after try's clause, its signature folded but for cause 0x69 (R321, R322, R324). -/
def Obligations.TrialEnds : Prop :=
  ∀ (s : State) (t : Nat) (r : Trial) (e : Ending), (s.threads.find t).isSome = true → (s.thread t).trial = some r → r.ending = some e → r.out + 3 < 32 →
    let th := s.thread t
    let set := (s.ctx (s.ctxOf t)).sigset.toNat
    let th1 := if e.cause = 0x69 then th else folded th (BitVec.ofNat 64 (e.st * 256 + e.cause.toNat))
    let leaves (u s' : State) (sig icause st : Nat) : Prop :=
      let x := s'.thread t
      let rec4 : List Nat := [r.id % 2 ^ 32 + st % 256 * 2 ^ 32 + e.cause.toNat * 2 ^ 40 + sig % 256 * 2 ^ 48 + icause % 256 * 2 ^ 56,
        (r.allow - r.fuel) % 2 ^ 32 + e.off % 2 ^ 16 * 2 ^ 32, th1.h0.toNat, th1.h1.toNat]
      x.trial = none ∧ x.hold = none ∧ x.pos = Pos.atHeader r.back ∧ x.h0 = th1.h0 ∧ x.h1 = th1.h1 ∧ x.regs.q = th.regs.q ∧ x.regs.p = th.regs.p ∧
        (∀ j < 4, x.regs.k[r.out + j]? = some (Entry.mk' (BitVec.ofNat 64 (rec4.getD j 0)) .i64 0)) ∧
        (∀ j : Fin 32, (j.val < r.out ∨ r.out + 3 < j.val) → th.regs.k[j].kind ≠ .iv64 → x.regs.k[j] = th.regs.k[j]) ∧
        s'.homes = u.homes ∧ ∀ v, v ≠ t → s'.threads.find v = u.threads.find v
    (th.cnt.ld ≠ 0 ∨ th.cnt.st ≠ 0 → exec (.trialEnd t) s = .next s) ∧
    (th.cnt.ld = 0 → th.cnt.st = 0 → (e.cause = 0x69 ∨ set / 256 % 2 = 0) → ∃ s', exec (.trialEnd t) s = .next s' ∧ leaves s s' 0 0 e.st) ∧
    (th.cnt.ld = 0 → th.cnt.st = 0 → e.cause ≠ 0x69 → set / 256 % 2 = 1 → ∀ u sig icause,
      (s.modThread t fun _ => th1).endInsert t (set % 256) = .ok (u, sig, icause) → (u.threads.find t).isSome = true →
      { u.thread t with checked := th.checked, missed := th.missed } = th1 → ∃ s', exec (.trialEnd t) s = .next s' ∧
        leaves u s' sig icause (if sig = 2 then 2 else e.st))

namespace Sys2Proof.Claims

/-- A header's waits are met by a thread's counts (R20). -/
def waitsOk (f : Header) (c : Counts) : Prop :=
  (f.ldwait = 15 ∨ c.ld ≤ f.ldwait) ∧ (f.stwait = 15 ∨ c.st ≤ f.stwait) ∧ (f.enwait = 15 ∨ c.en ≤ f.enwait)

/-- The thread enters a clause of which it stands at the header. -/
def entered (th : Thread) (h : Word32) (ws : List Word32) (g : Bool) : Thread :=
  { th with pos := ⟨th.pos.pc, 1, h, ws, true, g⟩, sck := th.sckNext.getD th.sck, sckNext := none, hold := none }

end Sys2Proof.Claims

/-- At a header a thread that is alone in its bundle takes what waits for it first, then waits until its counts are low enough, then
reads the guard and goes to the clause's first word, or parks before a collective (waits and guard come first: log entry 46); an illegal
header takes 0x01. A candidate takes 0x66
past its end and 0x67 at a class it may not use (R18-R20, R43, R88, R296, R315, R318, R344). -/
def Obligations.HeaderEvents : Prop :=
  ∀ (s : State), let t := s.sched.cur
    let th := s.thread t
    (s.threads.find t = none → exec .clauseHeader s = .next s) ∧
    ((s.threads.find t).isSome = true → th.inTrial = false → s.mates t = [t] → th.id.tig < 64 → th.pos.win = 0 →
      (∀ k v s1, (fetchClause t th.pos.pc).run s = .error (.trap k v) s1 →
        let h := (s1.thread t).pos.hdr
        exec .clauseHeader s = .next ((s1.modThread t fun x => { x with pos := { x.pos with win := 0, hdr := h } }).deliver t k v)) ∧
      (∀ x s1, (fetchClause t th.pos.pc).run s = .error (.hold x) s1 → exec .clauseHeader s = .next (s1.modThread t fun th => { th with hold := some x })) ∧
      (∀ h f ws s1, (fetchClause t th.pos.pc).run s = .ok (h, f, ws) s1 → (s1.threads.find t).isSome = true → { s1.thread t with missed := th.missed } = th →
        decodeHeader h = some f ∧ ws.length = f.count ∧
        let s2 := s1.modThread t fun x => { x with pos := { x.pos with hdr := h } }
        let quiet := (f.stwait = 15 ∨ th.deferred = [] ∨ th.trap.cause.toNat / 256 % 2 = 1) ∧ (th.budgetDue = false ∨ th.trap.cause.toNat / 256 % 2 = 1)
        (∀ c v r, f.stwait < 15 → th.deferred = (c, v) :: r → th.trap.cause.toNat / 256 % 2 = 0 → th.bundle < s1.sched.nextId →
          toFaultQuay c = false → (s1.ctx (s1.ctxOf t)).trapVec.toNat % 2 = 1 →
            exec .clauseHeader s = .next ((s2.modThread t fun x => { x with deferred := r }).deliver t c v)) ∧
        (quiet → ¬ waitsOk f th.cnt → exec .clauseHeader s = .next (s2.modThread t fun x => { x with hold := some ⟨0x3, .poll⟩ })) ∧
        (quiet → waitsOk f th.cnt → th.retry = 0 → ∀ g, (f.gcond = .always ∧ g = true) ∨ (f.gpred.val = 0 ∧ g = taken f.gcond .T) ∨
            (f.gpred.val ≠ 0 ∧ th.regs.p[f.gpred].wait = none ∧ th.regs.p[f.gpred].ready ≤ s1.lcOf t ∧ th.regs.p[f.gpred].par = th.regs.p[f.gpred].v.parity ∧ g = taken f.gcond th.regs.p[f.gpred].v) →
          (isCollective f.cls (ws.headD 0) = false → exec .clauseHeader s = .next (s2.modThread t fun x => entered x h ws g)) ∧
          (isCollective f.cls (ws.headD 0) = true → ∃ s', exec .clauseHeader s = .next s' ∧ (s'.thread t).place = .coll ∧
            (s'.thread t).pos = ⟨th.pos.pc, 1, h, ws, true, g⟩ ∧ (s'.thread t).regs = th.regs ∧ s'.homes = s1.homes)))) ∧
    (∀ r, (s.threads.find t).isSome = true → th.trial = some r → r.susp = false →
      (r.len ≤ th.pos.pc → exec .clauseHeader s = .next (s.deliver t 0x66 0)) ∧
      (th.pos.pc < r.len → ∀ w u, s.window t = (w, u) → let h := windowWord w th.pos.pc
        let u1 := u.modThread t fun th => { th with pos := { th.pos with hdr := h } }
        (decodeHeader h = none → exec .clauseHeader s = .next (u1.deliver t 0x01 0)) ∧
        (∀ f, decodeHeader h = some f →
          let barred := f.cls = .matrix ∨ f.cls = .copy ∨ f.cls = .task ∨ f.cls = .system
          (barred → exec .clauseHeader s = .next (u1.deliver t 0x67 0)) ∧
          (¬ barred → r.len ≤ th.pos.pc + f.count → exec .clauseHeader s = .next (u1.deliver t 0x66 0)) ∧
          (¬ barred → th.pos.pc + f.count < r.len → (th.budgetDue = false ∨ th.trap.cause.toNat / 256 % 2 = 1) → waitsOk f th.cnt → th.retry = 0 → f.gcond = .always →
            exec .clauseHeader s = .next (u1.modThread t fun x => entered x h ((List.range f.count).map fun i => windowWord w (th.pos.pc + 1 + i)) true)))))

/-! ### Cards, the dispatcher and the harbourmaster -/

namespace Sys2Proof.Claims

/-- A status entry of a type and reason is posted, or lost to a full ring (R346). Where a copy, a replica, an owner or a tier that is off
stands in the way, the write of it is in flight (R84, R119, R120, R394). -/
def reported (s s' : State) (die type reason : Nat) : Prop :=
  let q := s.quay die 63
  let head := (s.die die).disp.statusHead
  let at_ := q.base + 64 * head
  let tells (bs : List Byte) : Prop := leVal (bs.take 10) = (s.die die).mer % 2 ^ 64 + type % 256 * 2 ^ 64 + reason % 256 * 2 ^ 72
  (q.en = true ∧ head < 2 ^ q.size → (s'.die die).disp.statusHead = head + 1 ∧
    (s.unhindered at_ 64 = true → tells (s'.homes.mem.readN at_ 64) ∧
      ∀ a, (a < at_ ∨ at_ + 64 ≤ a) → s'.homes.mem.read a = s.homes.mem.read a) ∧
    (s.unhindered at_ 64 = false → s'.homes = s.homes ∧ ∃ o bs, s'.ops.find s.sched.nextId = some o ∧ o.tid = 0 ∧ o.home = .main ∧
      o.act = .store bs 512 ∧ tells bs ∧ o.pieces = linePieces (fun _ => false) at_ 64 ∧ o.performed = false)) ∧
  (¬ (q.en = true ∧ head < 2 ^ q.size) → s'.homes = s.homes ∧ (s'.quay die 63).late = (s.quay die 63).late + 1)

/-- The card is in a die's card store: it fetches its tiles, or is ready (R338). -/
def inStore (s : State) (i die : Nat) (x : Card) : Prop :=
  let ls := if x.isLaunch then [] else (List.range 4).filterMap fun k => if (x.tile k).lines = 0 then none else some (k, (x.tile k).lines)
  s.card i = { x with homeDie := die, target := die, lines := ls, order := (s.die die).disp.order - 1, st := if ls.isEmpty then .ready else .drawn }

/-- The two events by which a card comes from outside to a quay's die. -/
def comes (s : State) (w die ctx : Nat) (data : List (BitVec 8)) (m : Instr) : Prop :=
  let bits : BitVec 512 := BitVec.ofNat 512 (leVal data)
  (s.dev.fwOk = true ∧ s.dev.windows.find w = some (ctx, die) ∧ data.length = 64 ∧ m = .submissionWrite w 0 data) ∨
    s.dev.wharfUp = true ∧ m = .forwardedCardArrival die (bits.extractLsb' 112 6).toNat ctx bits

end Sys2Proof.Claims

/-- A card from outside is checked, and filed or reported, behind those that are held; one whose die or table entries do not serve requests
now is held; an accepted card is filed when its ring has room; the oldest card of a ring is
drawn while the store has room, to the die of its longest tile where the quay steers; tile lines come one after another,
runs that an access would fault on left out, and with the last the card is ready (R336-R339, R346, R390, R393-R395). -/
def Obligations.CardEvents : Prop :=
  ∀ s : State, s.cards.sorted = true →
    (∀ die q, die < 4 → let x := s.quay die q
      let waits : Nat × Card → Bool := fun kv => decide (kv.2.st = .waiting) && kv.2.homeDie == die && kv.2.quay == q
      let held : Nat × Card → Bool := fun kv => decide (kv.2.st = .held) && kv.2.homeDie == die
      (s.cards.find? waits = none → s.cards.find? held = none → exec (.cardFile die q) s = .next s) ∧
      (∀ i c, s.cards.find? waits = none → s.cards.find? held = some (i, c) →
        (c.quay ≠ q ∨ s.serves die = false → exec (.cardFile die q) s = .next s) ∧
        (c.quay = q → s.serves die = true → let u : State := { s with cards := s.cards.drop i }
          (u.admission c.ctx die c.bits = .error none → exec (.cardFile die q) s = .next s) ∧
          (∀ r, u.admission c.ctx die c.bits = .error (some r) → ∃ s', exec (.cardFile die q) s = .next s' ∧ reported u s' die 2 r ∧
            s'.cards = u.cards) ∧
          (∀ y v, u.admission c.ctx die c.bits = .ok (y, v) → v.ringRoom die y.quay = true →
            exec (.cardFile die q) s = .next ((v.addCard y).2.fileCard (v.addCard y).1)))) ∧
      (s.cards.find? held = none → ∀ i c, s.cards.find? (fun kv => decide (kv.2.st = .waiting) && kv.2.homeDie == die && kv.2.quay == q) = some (i, c) →
        (2 ^ x.size ≤ x.ring.length → exec (.cardFile die q) s = .next s) ∧
        (x.ring.length < 2 ^ x.size → exec (.cardFile die q) s = .next
          ((s.modQuay die q fun y => { y with ring := y.ring ++ [i] }).modCard i fun c => { c with st := .ring }))) ∧
      (x.ring = [] → exec (.cardDraw die q) s = .next s) ∧
      (∀ i rest c, x.ring = i :: rest → s.cards.find i = some c →
        let room (d : Nat) : Prop := (s.drawnOf d q).length < 256 ∧ s.stored d < 4096
        let drawn (d : Nat) : Prop := ∃ s', exec (.cardDraw die q) s = .next s' ∧ (s'.quay die q).ring = rest ∧ inStore s' i d c ∧
          s'.homes = s.homes ∧ ∀ j, j ≠ i → s'.cards.find j = s.cards.find j
        (x.steer = false ∨ c.longest = none → (room die → drawn die) ∧ (¬ room die → exec (.cardDraw die q) s = .next s)) ∧
        (∀ t, x.steer = true → c.longest = some t → (∀ dev, (Sys2Proof.Machine.recF ((s.ctx c.ctx).recAt t.recNo)).homeOf s.dev.fab ≠ .remote dev) →
          t.die < 4 → t.die ≠ die → (s.quay t.die q).en = true → s.shapeFits t.die c.kernel = true → room t.die → drawn t.die))) ∧
    (∀ die i c, s.cards.find i = some c →
      (c.st ≠ .drawn → exec (.tileLineArrival die i) s = .next s) ∧
      (c.st = .drawn → ∀ k n r, c.lines = (k, n) :: r → s.fetchLine c k ((c.tile k).lines - n) = none →
        exec (.tileLineArrival die i) s = .next s) ∧
      (c.st = .drawn → ∀ k n r, c.lines = (k, n) :: r → s.fetchLine c k ((c.tile k).lines - n) ≠ none →
        ∃ s', exec (.tileLineArrival die i) s = .next s' ∧ s'.threads = s.threads ∧
        let ls := if n ≤ 1 then r else (k, n - 1) :: r
        s'.card i = { c with lines := ls, st := if ls.isEmpty then .ready else .drawn })) ∧
    (∀ c k line, s.serves c.target = false → s.fetchLine c k line = none) ∧
    (∀ c k line, s.serves c.target = true → let R := Sys2Proof.Machine.recF ((s.ctx c.ctx).recAt (c.tile k).recNo)
      let L := ((c.tile k).off + line) * 256
      (R.homeOf s.dev.fab ≠ .main → s.fetchLine c k line = some s) ∧
      (R.homeOf s.dev.fab = .main → s.fetchLine c k line = s.fetchRuns c R L (List.range 16))) ∧
    (∀ c R L j rest, let p := R.rowCol (L + 16 * j)
      let o := R.place p.1 p.2
      let skips := s.fetchRuns c R L (j :: rest) = s.fetchRuns c R L rest
      let look := s.quietLook c.target c.ctx (R.base + o) .read
      (c.tileReads R o = true ↔ R.valid = true ∧ R.rd = true ∧ (R.view = 0 ∨ (R.view = 1 ∧ c.snap ≠ none)) ∧ o + 16 ≤ R.extent) ∧
      (c.tileReads R o = false → skips) ∧ (∀ k, c.tileReads R o = true → look = .bad k → skips) ∧
      (c.tileReads R o = true → look = .hold → s.fetchRuns c R L (j :: rest) = none) ∧
      (∀ y u, c.tileReads R o = true → look = .ok y u →
        (y.ver = true → s.fetchRuns c R L (j :: rest) = u.fetchRuns c R L rest) ∧
        (y.ver = false → u.lineAwake (y.pa / 256) = false → s.fetchRuns c R L (j :: rest) = none) ∧
        (y.ver = false → u.lineAwake (y.pa / 256) = true → (u.codeCheck c.ctx (y.pa / 256)).poisoned (y.pa / 256) = false →
          s.fetchRuns c R L (j :: rest) = ((u.codeCheck c.ctx (y.pa / 256)).l2Read c.target (y.pa / 256) false .normal).fetchRuns c R L rest))) ∧
    (∀ die q ctx bits, s.dev.wharfUp = false → exec (.forwardedCardArrival die q ctx bits) s = .next s) ∧
    (∀ w die ctx data, die < 4 → ∀ m, comes s w die ctx data m →
      let bits : BitVec 512 := BitVec.ofNat 512 (leVal data)
      let held := ∃ kv ∈ s.cards, kv.2.st = .held ∧ kv.2.homeDie = die
      (s.serves die = false ∨ held ∨ s.admission ctx die bits = .error none → ∃ s', exec m s = .next s' ∧ s'.homes = s.homes ∧
        (s'.cards.find s.sched.nextId).map (fun c => (c.st, c.ctx, c.bits, c.homeDie)) = some (.held, ctx, bits, die)) ∧
      (∀ r, s.serves die = true → ¬ held → s.admission ctx die bits = .error (some r) →
        ∃ s', exec m s = .next s' ∧ reported s s' die 2 r ∧ s'.cards = s.cards) ∧
      (∀ c u, s.serves die = true → ¬ held → s.admission ctx die bits = .ok (c, u) →
        (u.ringRoom die c.quay = true → exec m s = .next ((u.addCard c).2.fileCard (u.addCard c).1)) ∧
        (u.ringRoom die c.quay = false → ∃ s', exec m s = .next s' ∧ reported u s' die 4 0 ∧ s'.cards = s.cards))) ∧
    (∀ w o data, s.dev.fwOk = true → (s.dev.windows.find w = none ∨ o ≠ 0 ∨ data.length ≠ 64) →
      ∃ s', exec (.submissionWrite w o data) s = .next s' ∧ reported s s' 0 4 0 ∧ s'.cards = s.cards) ∧
    (∀ ctx die bits, (∀ r, s.admission ctx die bits = .error (some r) → 1 ≤ r ∧ r ≤ 7) ∧
      (∀ c u, s.admission ctx die bits = .ok (c, u) → c.bits = bits ∧ c.ctx = ctx ∧ c.homeDie = die ∧ c.quay = (bits.extractLsb' 112 6).toNat ∧ c.quay ≠ 63 ∧
        (s.quay die c.quay).en = true ∧ 16 ≤ c.entry ∧ c.entry % 4 = 0 ∧ (c.isLaunch = true → 1 ≤ c.teams) ∧ 1 ≤ c.kernel.team ∧ c.kernel.team ≤ 1024 ∧
        c.kernel.team % c.kernel.group = 0 ∧ c.kernel.named ≤ 32 ∧ (u.cards = s.cards)))

namespace Sys2Proof.Claims

/-- Names not given yet are above those of the machine's threads, groups, bundles and teams. -/
def freshNames (s : State) : Prop :=
  (∀ kv ∈ s.threads, kv.1 < s.sched.nextId) ∧ (∀ kv ∈ s.groups, kv.1 < s.sched.nextId) ∧ (∀ kv ∈ s.bundles, kv.1 < s.sched.nextId) ∧
    ∀ kv ∈ s.works, kv.1 < s.sched.nextId

/-- A card is picked, and the round goes on. -/
def picks (s : State) (die i : Nat) (edf : Bool) (used : Nat) : State :=
  (s.modCard i fun c => { c with st := .picked }).modDisp die fun d => { d with picked := some i, edf := edf, used := used }

/-- Every thread of a placed team stands at its card's entry with nothing in its registers, in the order of R287, in a group of the
named count with the card's constants. -/
def teamStands (s s' : State) (w i die : Nat) (cores : List Nat) (team : Nat) : Prop :=
  let c := s.card i
  let k := c.kernel
  (∃ x, s'.works.find w = some x ∧ x.card = i ∧ x.ctx = c.ctx ∧ x.team = team ∧ x.die = die ∧ x.kernel = k ∧ x.cores = cores.map (die * 64 + ·)) ∧
  ∀ n < k.team / k.group, ∀ t < k.group, ∃ u th, s'.threads.find u = some th ∧ s.threads.find u = none ∧ th.id.work = w ∧ th.id.tig = t ∧ th.id.die = die ∧
    th.id.core = (if n < firstHalf k then cores.getD 0 0 else cores.getD 1 0) ∧ th.id.lane % 4 = t % 4 ∧ th.pos = Pos.atHeader c.entry ∧
    th.regs = Thread.blank.regs ∧ th.cnt = ⟨0, 0, 0⟩ ∧ th.view = none ∧ th.trial = none ∧ th.cyc = 0 ∧
    (let g := s'.group th.id.group
     g.work = w ∧ g.num = n ∧ g.size = k.group ∧ g.n = k.named ∧ g.g = c.uniforms)

end Sys2Proof.Claims

/-- The dispatcher takes ready EDF cards and FIFO cards in rounds by their weights, and places a picked card's next team, whole, on
the cores that qualify; a spent budget marks every thread of the team, and a quarter of it later the slice is ended; the
harbourmaster moves one berth from the slack stage most above its floor to the stage most pressed, and hands it over when it is
free (R287, R340, R341, R344, R348, R349). Of an odd number of groups the larger half goes to the even core (log entry 48). -/
def Obligations.DispatchEvents : Prop :=
  ∀ s : State, s.cards.sorted = true → s.threads.sorted = true → freshNames s →
    (∀ die, let d := (s.die die).disp
      let e := s.edfCard die
      let f := s.fifoCard die
      (∀ i, e = some i → (s.card i).st = .ready ∧ (s.card i).homeDie = die ∧ (s.quay die (s.card i).quay).fifo = false) ∧
      (∀ i, f = some i → (s.card i).st = .ready ∧ (s.quay die (s.card i).quay).fifo = true ∧
        ∀ j c, s.cards.find j = some c → c.homeDie = die → (s.quay die c.quay).fifo = true → c.st = .drawn ∨ c.st = .ready → (s.card i).order ≤ c.order) ∧
      (d.picked ≠ none → exec (.dispatchPick die) s = .next s) ∧
      (d.picked = none →
        (∀ i, d.edf = true → d.used < d.we → e = some i → exec (.dispatchPick die) s = .next (picks s die i true (d.used + 1))) ∧
        (∀ i, d.edf = false → d.used < d.wf → f = some i → exec (.dispatchPick die) s = .next (picks s die i false (d.used + 1))) ∧
        (∀ i, d.edf = true → (d.we ≤ d.used ∨ e = none) → f = some i → exec (.dispatchPick die) s = .next (picks s die i false 1)) ∧
        (∀ i, d.edf = false → (d.wf ≤ d.used ∨ f = none) → e = some i → exec (.dispatchPick die) s = .next (picks s die i true 1)) ∧
        (e = none → f = none → exec (.dispatchPick die) s = .next (s.modDisp die fun d => { d with edf := true, used := 0 })))) ∧
    (∀ die i c, die < 4 → (s.die die).disp.picked = some i → s.cards.find i = some c → c.requeued = [] →
      let stage := (s.quay die c.quay).stage
      (s.qualifies die stage c.kernel = none → exec (.teamPlacement die) s = .next s) ∧
      (∀ cores, s.qualifies die stage c.kernel = some cores → ∃ s' w, exec (.teamPlacement die) s = .next s' ∧ s.works.find w = none ∧
        teamStands s s' w i die cores ((c.tbase + c.next) % 2 ^ 32) ∧ (s'.die die).disp.picked = none ∧ (s'.card i).next = c.next + 1 ∧
        (s'.card i).live = c.live ++ [w] ∧ (s'.card i).st = (if c.teams ≤ c.next + 1 then .running else .ready) ∧
        ∀ u th, s.threads.find u = some th → s'.threads.find u = some th)) ∧
    (∀ w x, s.works.find w = some x →
      let b := (s.card x.card).budget
      let n := s.budgetTicks w
      (b = 0 ∨ x.bud.trapAt ≠ none ∨ x.resident = false ∨ n < b → exec (.budgetExhausted w) s = .next s) ∧
      (b ≠ 0 → x.bud.trapAt = none → x.resident = true → b ≤ n → ∃ s', exec (.budgetExhausted w) s = .next s' ∧ s'.homes = s.homes ∧
        s'.works.find w = some { x with bud := { x.bud with trapAt := some n } } ∧
        ∀ u, s'.threads.find u = (s.threads.find u).map fun th => if th.id.work = w then { th with budgetDue := true } else th) ∧
      (∀ m, x.bud.trapAt = some m → (s.card x.card).homeDie < 4 →
        (x.sw ≠ .running ∨ n < m + b / 4 → exec (.forcedSliceEnd w) s = .next s) ∧
        (x.sw = .running → m + b / 4 ≤ n → ∃ s', exec (.forcedSliceEnd w) s = .next s' ∧ s'.works.find w = some { x with sw := .stopping .forced } ∧
          reported s s' (s.card x.card).homeDie 3 0 ∧ s'.threads = s.threads))) ∧
    (∀ die, die < 4 → let d := (s.die die).disp
      ((s.die die).mer < d.evalAt → exec (.harbourmasterEvaluation die) s = .next s) ∧
      (d.evalAt ≤ (s.die die).mer → (∀ x < 8, s.pressure die x = 0) →
        exec (.harbourmasterEvaluation die) s = .next (s.modDisp die fun d => { d with evalAt := d.evalAt + 10000 })) ∧
      (d.evalAt ≤ (s.die die).mer → ∀ r g b, r < 8 → g < 8 → g ≠ r → 0 < s.pressure die r → s.slack die g = true → 0 < s.above die g →
        (∀ x < 8, x ≠ r → s.pressure die x < s.pressure die r ∨ (s.pressure die x = s.pressure die r ∧ r < x)) →
        (∀ x < 8, x ≠ r → x ≠ g → s.slack die x = true → s.above die x < s.above die g ∨ (s.above die x = s.above die g ∧ g < x)) →
        b ∈ s.stageBerths die g → (∀ y ∈ s.stageBerths die g, y ≤ b) → ∃ s', exec (.harbourmasterEvaluation die) s = .next s' ∧
          (s'.die die).disp.evalAt = d.evalAt + 10000 ∧ (s'.die die).disp.berths.find b = some r ∧ (s'.die die).disp.serving.find b = some g ∧
          reported s s' die 5 0 ∧ s'.threads = s.threads) ∧
      (∀ b g, d.serving.find b = some g → (s.onBerth die b g = true → exec (.berthHandover die b) s = .next s) ∧
        (s.onBerth die b g = false → exec (.berthHandover die b) s = .next (s.modDisp die fun d => { d with serving := d.serving.drop b }))))

namespace Sys2Proof.Claims

/-- A thread but for where it stands. -/
def Elsewhere (th : Thread) : Thread := { th with bundle := 0, place := .running, id := { th.id with core := 0, lane := 0, slot := 0 } }

/-- A thread as a save area holds it: what it held waits for no walk any more and is issued again from its checks on, and where its slice
has ended, an untaken 0xA0 has gone with it (R82, R344, R369). -/
def savedThread (why : SwitchWhy) (th : Thread) : Thread :=
  { th with
    xlat := []
    checked := none
    missed := []
    budgetDue := th.budgetDue && decide (why = .host)
    hold := match th.hold with
      | some h => if (h.leaf = 0x2 ∨ h.leaf = 0x7) ∧ th.stage < 2 then none else some h
      | none => none }

/-- The threads of a team stand as a save area holds them, and no other thread changes. -/
def savedThreads (s s' : State) (w : Nat) (why : SwitchWhy) : Prop :=
  ∀ u, s'.threads.find u = (s.threads.find u).map fun th => if th.id.work = w then savedThread why th else th

/-- A team's save record in the host's error ring (R367). -/
def saysNoRoom (s s' : State) (x : Work) : Prop :=
  s.dev.errs.length < s.dev.errSlots.getD x.die 0 → ∃ r : FaultRec, s'.dev.errs = s.dev.errs ++ [r.bits] ∧
    r.cause = 0xA4 ∧ r.kind = 2 ∧ r.ctx = x.ctx ∧ r.team = x.team ∧ r.die = x.die ∧ r.time = (s.die x.die).mer

end Sys2Proof.Claims

/-- A team ends when none of its threads is left, and with a card's last team its signal is stored; a team told to stop is saved once
all its threads stand at stopping points, with its banks and tiles recorded and free for others, or goes on or waits where the pool
has no room; a restored one stands again with what was saved, on new places, and goes on, past a yield only where its slice had ended; an mma that had begun
resumes at its next chunk (R256, R343, R345, R366-R369). The model's own: that a team the host pre-empts is queued again on its card
(log entry 56). -/
def Obligations.SwitchEvents : Prop :=
  ∀ (s : State) (w : Nat) (x : Work), s.works.find w = some x → s.threads.sorted = true → s.cards.sorted = true →
    let c := s.card x.card
    let live : Prop := ∃ u th, s.threads.find u = some th ∧ th.id.work = w
    let pool := (s.die x.die).disp.pool
    let left : Prop := ∃ kv ∈ s.ops, kv.2.who.work = w ∧ kv.2.performed = false ∧ kv.2.writes = true
    (live ∨ left ∨ s.spawnLeft w = true ∨ (∃ r, x.rpl = some r ∧ (r.held ≠ [] ∨ r.heldHost ≠ [] ∨ r.stop ≠ none)) → exec (.completionSignal w) s = .next s) ∧
    (¬ live → ¬ left → s.spawnLeft w = false → x.rpl = none → (s.cards.find x.card).isSome = true → x.die < 4 →
      (¬ (c.teams ≤ c.next ∧ c.live = [w]) → ∃ s', exec (.completionSignal w) s = .next s' ∧ s'.works.find w = none ∧
        (s'.card x.card).live = c.live.filter (· ≠ w) ∧ s'.threads = s.threads ∧ s'.homes = s.homes ∧ ∀ v, v ≠ w → s'.works.find v = s.works.find v) ∧
      (c.teams ≤ c.next → c.live = [w] → (c.isLaunch = true → (s.ctx c.ctx).auto = false) →
        (c.sigen = true → s.clocked c.homeDie = false → exec (.completionSignal w) s = .next s) ∧
        (c.sigen = false → ∃ s', exec (.completionSignal w) s = .next s' ∧ s'.works.find w = none ∧ s'.cards.find x.card = none ∧
          s'.threads = s.threads ∧ s'.homes = s.homes) ∧
        (∀ r va, c.sigen = true → s.clocked c.homeDie = true → s.signalSpot c = .ok (r, va) →
          (r.homeOf s.dev.fab = .host → (∃ kv ∈ s.ops, kv.2.home = .host ∧ kv.2.performed = false) → exec (.completionSignal w) s = .next s) ∧
          (r.homeOf s.dev.fab = .host → (∀ kv ∈ s.ops, kv.2.home = .host → kv.2.performed = true) → ∃ s', exec (.completionSignal w) s = .next s' ∧
            s'.works.find w = none ∧ s'.cards.find x.card = none ∧ s'.homes.mem = s.homes.mem ∧
            ∀ a, s'.homes.host.read a = if va ≤ a ∧ a < va + 8 then (leBytes 8 (1 + 2 ^ 32 * c.result.toNat)).getD (a - va) 0 else s.homes.host.read a) ∧
          (r.homeOf s.dev.fab = .main → s.quietLook c.homeDie c.ctx va .write = .hold → exec (.completionSignal w) s = .next s) ∧
          (∀ y u, r.homeOf s.dev.fab = .main → s.quietLook c.homeDie c.ctx va .write = .ok y u → let line := y.pa / 256
            let rs : Runs := [(y.pa % 256, leBytes 8 (1 + 2 ^ 32 * c.result.toNat))]
            u.lineAwake line = true →
              (∀ z, (u.disown (rs.words line)).homeWrite c.ctx .normal y.ver line rs none = .ok z →
                ∃ s', exec (.completionSignal w) s = .next s' ∧ s'.works.find w = none ∧ s'.cards.find x.card = none ∧ s'.homes = (z.l2Settle line).homes) ∧
              ((u.disown (rs.words line)).homeWrite c.ctx .normal y.ver line rs none = .noSlot → c.sigWait = none →
                ∃ s', exec (.completionSignal w) s = .next s' ∧ s'.works.find w = some x ∧ (s'.card x.card).sigWait =
                  some ((s.die c.homeDie).mer + ((s.die (lineDie line)).store.map (·.window)).getD 0)))))) ∧
    (∀ tag, s.dev.fwOk = true →
      (x.sw = .running → exec (.preEmptTeam tag w) s = .next ((s.modWork w fun x => { x with sw := .stopping .host }).finish tag 0)) ∧
      (x.sw ≠ .running → exec (.preEmptTeam tag w) s = .next (s.finish tag 1))) ∧
    (∀ why, x.sw = .stopping why →
      ((∃ u th, s.threads.find u = some th ∧ th.id.work = w ∧ (th.stopped = false ∨ s.settled u = false)) ∨ s.arrayStill w = false → exec (.contextSaveComplete w) s = .next s) ∧
      ((∀ u th, s.threads.find u = some th → th.id.work = w → th.stopped = true ∧ s.settled u = true) → s.arrayStill w = true → x.die < 4 → x.cores.Nodup →
        (s.areaSize w ≤ pool → ∃ s' y, exec (.contextSaveComplete w) s = .next s' ∧ s'.works.find w = some y ∧ y.sw = .saved why ∧
          y.banks = (x.cores.map fun gc => s.bankImages gc w).flatten ∧ y.accs = (x.cores.map fun gc => s.tileImages gc w).flatten ∧ y.area = s.areaSize w ∧
          (s'.die x.die).disp.pool = pool - s.areaSize w ∧ savedThreads s s' w why ∧ s'.homes = s.homes ∧
          (∀ gc ∈ x.cores, ∀ b, (s'.bank gc b).own ≠ some w) ∧
          (∀ gc ∈ x.cores, ∀ i o, (s.engine gc 3).ops.find i = some o → o.work = w → o.what.isMma = true → o.st ≠ .queued →
            (s'.engine gc 3).ops.find i = some { o with st := .accepted, got := [] }) ∧
          ((s.cards.find x.card).isSome = true → (s'.card x.card).requeued = c.requeued ++ [w])) ∧
        (pool < s.areaSize w → ∃ s', exec (.contextSaveComplete w) s = .next s' ∧ saysNoRoom s s' x ∧ s'.threads = s.threads ∧
          s'.works.find w = some { x with sw := if why = .host then .running else .noRoom why }))) ∧
    (∀ why, x.sw = .noRoom why → (∀ v y, s.works.find v = some y → v < w → y.die = x.die → ∀ z, y.sw ≠ .noRoom z) → s.works.sorted = true →
      (pool < s.areaSize w → (∀ v y, s.works.find v = some y → w < v → y.die = x.die → ∀ z, y.sw ≠ .noRoom z) → exec (.saveRetry x.die) s = .next s) ∧
      (s.areaSize w ≤ pool → ∃ s' y, exec (.saveRetry x.die) s = .next s' ∧ s'.works.find w = some y ∧ y.sw = .saved why ∧ savedThreads s s' w why)) ∧
    (∀ why stage cores u, x.sw = .saved why → s.restoreAt w stage cores = some u → x.die < 4 → cores.Nodup → x.cores.Nodup →
      (u.work w).sw = .restoring why ∧ (u.work w).cores = cores.map (x.die * 64 + ·) ∧ u.homes = s.homes ∧
      (u.die x.die).disp.pool = pool + x.area ∧ (∀ v, (u.threads.find v).map Elsewhere = (s.threads.find v).map Elsewhere) ∧
      (∀ v th, s.groups.sorted = true → s.threads.find v = some th → th.id.work ≠ w → (s.group th.id.group).work ≠ w → u.threads.find v = some th) ∧
      ∀ p ∈ (cores.map (x.die * 64 + ·)).zip x.cores, ∀ im ∈ x.banks, im.core = p.2 → ∃ b, let k := u.bank p.1 b
        k.own = some w ∧ k.bytes = im.bytes ∧ k.items = im.items ∧ k.head = im.head ∧ k.tail = im.tail ∧ k.poison = im.poison ∧
        k.mode = if im.fifo then .fifo else .scratchpad) ∧
    (∀ why, x.sw = .restoring why → (∀ u th, s.threads.find u = some th → th.id.work = w → soundRegs th.regs ∧ th.id.tig < 64 ∧
        (th.trap.cause.toNat / 256 % 2 = 1 → soundRegs ⟨th.trap.shq, Vector.replicate 32 Entry.blank, th.trap.shp⟩)) → ∃ s', exec (.restoreComplete w) s = .next s' ∧
      (s'.work w).sw = .running ∧ (s'.work w).side = [] ∧ s'.homes = s.homes ∧ (∀ v, (s'.threads.find v).map Gathered = (s.threads.find v).map Gathered) ∧
      ∀ v th, s.threads.find v = some th → th.id.work = w → th.place = .yielded → (s'.thread v).place = if why = .host then .yielded else .running)

namespace Sys2Proof.Claims

/-- Words of a launch record (R384): identity, start, stop, 16 leaves, 4 event counts. -/
def launchWords (ctx serial start stop : Nat) (b : CtxBank) : List Nat :=
  [ctx % 2 ^ 16 * 2 ^ 32 + serial % 2 ^ 32, start, stop] ++ b.leaves.toList.map (·.toNat) ++ b.events.toList.map (·.toNat) ++ List.replicate 9 0

/-- Host commands that a device whose firmware failed its check refuses (R400). -/
def plainCommand (tag : Ticket) (m : Instr) : Prop :=
  (∃ ctx b, m = .bindContext tag ctx b) ∨ (∃ ctx tb r, m = .writeRecord tag ctx tb r) ∨ (∃ ctx b n, m = .translationInvalidate tag ctx b n) ∨
  (∃ d i, m = .resolvePage tag d i ∨ m = .refusePage tag d i) ∨ (∃ c, m = .carveRegion tag c) ∨ (∃ c, m = .configureQuay tag c) ∨
  (∃ w, m = .preEmptTeam tag w) ∨ (∃ d p, m = .diePowerState tag d p) ∨ (∃ d t on, m = .tierPowerState tag d t on) ∨
  (∃ c, m = .counterOrganisation tag c) ∨ (∃ x, m = .startPacket tag x ∨ m = .stopPacket tag x) ∨ (∃ w n, m = .replayMode tag w n) ∨
  (∃ w i n, m = .replayStop tag w i n) ∨ ∃ n, m = .setFabricNumber tag n

/-- Reads in flight at a die's replicas go to the owners' pages. -/
def readsHome (s : State) (die : Nat) : State :=
  let home (p : Piece) : Piece := if p.src ≠ p.pa ∧ lineDie (p.src / 256) = die then { p with src := p.pa } else p
  { s with ops := s.ops.mapVals fun o => { o with pieces := o.pieces.map home } }

/-- The dies that a command's die field names (R391). -/
def named (die : Nat) (ds : List Nat) : Prop := (die < 4 ∧ ds = [die]) ∨ (die = 0xFF ∧ ds = [0, 1, 2, 3])

/-- A change of each die of a list. -/
def onDies (s : State) (ds : List Nat) (f : Die → Die) : State := ds.foldl (fun s d => s.modDie d f) s

/-- A change of each dispatcher of a list of dies. -/
def onDisps (s : State) (ds : List Nat) (f : Dispatch → Dispatch) : State := ds.foldl (fun s d => s.modDisp d f) s

/-- A command acts and is answered with status 0. -/
def acts (s : State) (tag : Ticket) (m : Instr) (u : State) : Prop := exec m s = .next (u.finish tag 0)

end Sys2Proof.Claims

/-- Host commands write what they name and are answered 0, or are refused with 1 and nothing else: records, bindings, regions,
quays, weights, stages, floors, the fabric number, firmware; a device whose firmware failed its check takes nothing but firmware
(R338, R341, R347, R389, R391, R393, R400). The model's own: that dies, sizes, stages, weights and windows out of range are
refused (log entry 76). -/
def Obligations.HostCommands : Prop :=
  ∀ (s : State) (tag : Ticket),
    (s.dev.fwOk = false → ∀ m, plainCommand tag m → exec m s = .next (s.finish tag 1)) ∧
    (∀ n data, acts s tag (.firmwareBlockWrite tag n data) (s.modDev fun d => { d with fwBlocks := d.fwBlocks.put n data, fwFresh := true })) ∧
    ((∃ kv ∈ s.works, kv.2.resident = true) → exec (.firmwareCommit tag) s = .next (s.finish tag 1)) ∧
    ((∀ kv ∈ s.works, kv.2.resident = false) → acts s tag (.firmwareCommit tag) (s.modDev fun d => { d with fwOk := d.fwOk || d.fwFresh, fwFresh := false })) ∧
    (s.dev.fwOk = true →
      (∀ ctx tb r, acts s tag (.writeRecord tag ctx tb r) (s.modCtx ctx fun c => { c with recs := c.recs.put tb.val r })) ∧
      (∀ ctx b, (∃ p ∈ b.windows, 4 ≤ p.2 ∨ 1024 ≤ p.1) → exec (.bindContext tag ctx b) s = .next (s.finish tag 1)) ∧
      (∀ ctx b, (∀ p ∈ b.windows, p.2 < 4 ∧ p.1 < 1024) → ∃ s', exec (.bindContext tag ctx b) s = .next s' ∧
        s'.ctx ctx = { s.ctx ctx with root := b.root, bound := true, peers := b.peers, observe := b.observe, launchRec := b.launchRecord } ∧
        (∀ c, c ≠ ctx → s'.ctx c = s.ctx c) ∧ ((b.windows.map (·.1)).Nodup → ∀ p ∈ b.windows, s'.dev.windows.find p.1 = some (ctx, p.2)) ∧
        (∀ p ∈ b.peers, p.1.toNat ∈ s'.dev.peers) ∧ s'.homes = s.homes ∧ s'.threads = s.threads) ∧
      (∀ n, ((∃ kv ∈ s.ctxs, kv.2.bound = true) ∨ n = 0 ∨ 0xFB < n.toNat) → exec (.setFabricNumber tag n) s = .next (s.finish tag 1)) ∧
      (∀ n, (∀ kv ∈ s.ctxs, kv.2.bound = false) → n ≠ 0 → n.toNat ≤ 0xFB → acts s tag (.setFabricNumber tag n) (s.modDev fun d => { d with fab := n })) ∧
      (∀ die ds base slots win, named die ds →
        acts s tag (.carveRegion tag (.versionStore die base slots win)) (onDies s ds fun d => { d with store := some ⟨base, slots, [], win, slots⟩ }) ∧
        acts s tag (.carveRegion tag (.metadata die .near base)) (onDies s ds fun d => { d with metaNear := some base }) ∧
        acts s tag (.carveRegion tag (.metadata die .far base)) (onDies s ds fun d => { d with metaFar := some base }) ∧
        acts s tag (.carveRegion tag (.replicaPool die base slots)) (ds.foldl (fun s d => (readsHome s d).modDie d fun x => { x with
          pool := if slots = 0 then none else some (base, slots), replicas := [] }) s) ∧
        acts s tag (.carveRegion tag (.savePool die slots)) (onDisps s ds fun d => { d with pool := slots }) ∧
        acts s tag (.carveRegion tag (.hostErrorRing die slots)) (ds.foldl (fun s i => s.modDev fun d => { d with errSlots := d.errSlots.put i slots }) s)) ∧
      (∀ die base slots win c, 4 ≤ die → die ≠ 0xFF → c ∈ [CarveArg.versionStore die base slots win, .metadata die .near base, .metadata die .far base,
        .replicaPool die base slots, .savePool die slots, .hostErrorRing die slots] → exec (.carveRegion tag c) s = .next (s.finish tag 1)) ∧
      (∀ ctx base slots, acts s tag (.carveRegion tag (.faultQuay ctx base slots)) (s.modCtx ctx fun c => { c with fq := some ⟨base, slots, 0, 0⟩ })) ∧
      (∀ die ds q en fifo steer size stage hi lo base,
        (named die ds → 6 ≤ size → size ≤ 16 → stage ≤ 7 → acts s tag (.configureQuay tag (.quay die q en fifo steer size stage hi lo base))
          (ds.foldl (fun s d => s.modQuay d q.val fun x => ⟨en, fifo, steer, size, stage, hi, lo, base, x.ring, x.late⟩) s)) ∧
        ((4 ≤ die ∧ die ≠ 0xFF) ∨ size < 6 ∨ 16 < size ∨ 7 < stage →
          exec (.configureQuay tag (.quay die q en fifo steer size stage hi lo base)) s = .next (s.finish tag 1))) ∧
      (∀ die a b m c, 4 ≤ die → die ≠ 0xFF → c ∈ [QuayArg.weights die a b, .stage die a b, .floor die a b, .berthMode die m] →
        exec (.configureQuay tag c) s = .next (s.finish tag 1)) ∧
      (∀ die ds a b, named die ds →
        (1 ≤ a → a ≤ 15 → 1 ≤ b → b ≤ 15 → acts s tag (.configureQuay tag (.weights die a b)) (onDisps s ds fun d => { d with we := a, wf := b })) ∧
        (a = 0 ∨ 15 < a ∨ b = 0 ∨ 15 < b → exec (.configureQuay tag (.weights die a b)) s = .next (s.finish tag 1)) ∧
        (b ≤ 7 → acts s tag (.configureQuay tag (.stage die a b)) (onDisps s ds fun d => { d with berths := d.berths.put a b, serving := d.serving.drop a })) ∧
        (a ≤ 7 → acts s tag (.configureQuay tag (.floor die a b)) (onDisps s ds fun d => { d with floors := d.floors.put a b })) ∧
        (7 < b → exec (.configureQuay tag (.stage die a b)) s = .next (s.finish tag 1)) ∧
        (7 < a → exec (.configureQuay tag (.floor die a b)) s = .next (s.finish tag 1)) ∧
        (∀ m, acts s tag (.configureQuay tag (.berthMode die m)) (onDisps s ds fun d => { d with slicePair := m }))))

/-- A lane cycle passes on a die that does not lead another by more than 2 ticks then: its clocks advance by the rules of R396, its resident threads count it, and candidates follow in
order of age; the cycle in progress when a relock begins counts at its old clock; a write of a unit's control register ends its run; the organisation changes with every counter cleared; a start packet
begins a context's counts and a stop packet writes its launch record (R9, R33, R275, R350, R379-R384, R395, R396, R399). The model's own: a halted die's clocks and time at 2 ticks (log entry 74), a start
packet that clears the banks (log entry 58), the almanac's hours (log entry 103), the cycle of a relock (log entry 119). -/
def Obligations.CounterEvents : Prop :=
  ∀ s : State,
    (∀ die, die < 4 → let d := s.die die
      let len := match d.pst with | .p0 => 160 | .p1 => 192 | .p2 => 240 | .p3 => 320
      let stands : Prop := d.relock ≠ none ∨ d.gated = true ∨ d.halted = true
      let ended : Prop := ∃ p n, d.relock = some (p, n) ∧ n ≤ d.mer
      let sixteenths := match d.pst with | .p0 => 16 | .p1 => if (d.p1 + 1) % 5 = 0 then 20 else 19 | .p2 => 24 | .p3 => 32
      let counts (s' : State) : Prop := s.threads.sorted = true → ∀ u th', s'.threads.find u = some th' → ∃ th, s.threads.find u = some th ∧ th'.id = th.id ∧
        th'.cyc = th.cyc + if th.id.die = die ∧ (s.work th.id.work).resident = true then 1 else 0
      (s.inStep die = true ↔ ∀ i < 4, (d.lastCycle = true → d.mer ≤ (s.die i).mer + 2) ∧
        (d.lastCycle = false → (stands → d.mer + 1 ≤ (s.die i).mer + 2) ∧ (¬ stands → d.mer + (d.rest + len) / 288 ≤ (s.die i).mer + 2))) ∧
      (s.inStep die = false → exec (.sliceArbitration die) s = .next s) ∧
      (s.inStep die = true → ∃ (s' : State) (cs : List Nat), exec (.sliceArbitration die) s = .next s' ∧ s'.sched.issue = s.sched.issue ++ cs.map .bundle ∧ (∀ b ∈ cs, s'.candidate b = true) ∧
        ((∀ kv ∈ s.works, kv.2.rpl = none) → (∀ kv ∈ s.groups, (s.work kv.2.work).rpl = none) → (∀ kv ∈ s'.bundles, kv.2.age ≤ 15) → s'.bundles.sorted = true →
          cs.Pairwise fun a b => (s'.bundles.find b).map (·.age) ≤ (s'.bundles.find a).map (·.age)) ∧
        (ended → d.pending = [] → (s'.die die).relock = none ∧ (s'.die die).mer = d.mer ∧ (s'.die die).lc = d.lc ∧ d.relock.map (·.1) = some (s'.die die).pst) ∧
        (¬ ended → d.lastCycle = true → (s'.die die).lc = d.lc + 1 ∧ (s'.die die).mer = d.mer ∧ (s'.die die).rest = d.rest ∧ (s'.die die).lastCycle = false ∧
          (s'.die die).ncyc = d.ncyc + BitVec.ofNat 64 sixteenths ∧ counts s') ∧
        (¬ ended → d.lastCycle = false → d.gated = false → (s'.die die).mer / 3600000000000 ≠ d.mer / 3600000000000 →
          ∃ k < 16, s'.dev.almanac = (s.almanac (0x600 + 16 * die + k) 1).dev.almanac) ∧
        (d.lastCycle = false → ¬ stands →
          (s'.die die).lc = d.lc + 1 ∧ (s'.die die).mer = d.mer + (d.rest + len) / 288 ∧ (s'.die die).rest = (d.rest + len) % 288 ∧
          (s'.die die).ncyc = d.ncyc + BitVec.ofNat 64 sixteenths ∧ counts s') ∧
        (¬ ended → d.lastCycle = false → stands → (s'.die die).lc = d.lc ∧ (s'.die die).mer = d.mer + 1 ∧
          (d.relock = none → (s'.die die).ncyc = d.ncyc) ∧
          (d.relock ≠ none → (s'.die die).ncyc = d.ncyc + if (d.p1 + 1) % 5 = 0 then 28 else 29)))) ∧
    (∀ die core (i : Fin 8) v, let gc := die * 64 + core
      die < 4 → core < 64 → ((s.die die).org = true → exec (.elmCtlWrite die core i.val v) s = .next s) ∧
      ((s.die die).org = false → ∃ s', exec (.elmCtlWrite die core i.val v) s = .next s' ∧
        (let o := (s.core gc).obs
         let o' := (s'.core gc).obs
         o'.ctl[i] = v &&& 0xFFFFFFFFF0000000 ∧ (∀ j : Fin 8, j ≠ i → o'.ctl[j] = o.ctl[j]) ∧ o'.cnt = o.cnt ∧ o'.edge = o.edge ∧ o'.run = 0 ∧
         ∀ j : Fin 8, o'.bins[j] = o.bins[j] + if o.run ≠ 0 ∧ o.edge[j].toNat ≤ o.run ∧ (∀ k : Fin 8, j < k → o.run < o.edge[k].toNat) then 1 else 0))) ∧
    (∀ tag, s.dev.fwOk = true →
      (∀ die on, die < 4 → ((s.die die).org = on → acts s tag (.counterOrganisation tag (.organisation die on)) s) ∧
        ((s.die die).org ≠ on → ∃ s', exec (.counterOrganisation tag (.organisation die on)) s = .next s' ∧ (s'.die die).org = on ∧
          (∀ ctx, (s'.ctx ctx).acc.find die = none) ∧ ∀ core < 64, (s'.core (die * 64 + core)).obs = Obs.reset ∨ ((s'.core (die * 64 + core)).obs.slots = 0 ∧
            (s'.core (die * 64 + core)).obs.leaves = Vector.replicate 16 0))) ∧
      (∀ die a b c d, die < 4 → acts s tag (.counterOrganisation tag (.sources die a b c d)) (s.modDie die fun x => { x with srcs := #v[a, b, c, d] })) ∧
      (∀ ctx on, acts s tag (.counterOrganisation tag (.auto ctx on)) (s.modCtx ctx fun c => { c with auto := on })) ∧
      (∀ ctx, ∃ s', exec (.startPacket tag ctx) s = .next s' ∧ (s'.ctx ctx).acc = [] ∧ (s'.ctx ctx).counting = some (s.die 0).mer ∧ s'.homes = s.homes ∧
        ∀ n, s.cores.sorted = true → (s'.core n).obs.banks.find ctx = none) ∧
      (∀ ctx m, (s.ctx ctx).counting = some m → (∀ n, (s.core n).obs.banks.find ctx = none) → ∃ s', exec (.stopPacket tag ctx) s = .next s' ∧
        (s'.ctx ctx).acc = [] ∧ (s'.ctx ctx).counting = none ∧ s'.threads = s.threads ∧
        let a := (s.ctx ctx).launchRec
        let tells (bs : List Byte) : Prop := bs.length = 256 ∧ ∀ i < 32, leVal ((bs.drop (8 * i)).take 8) = (launchWords ctx (s.ctx ctx).serial m (s.die 0).mer
          (((s.ctx ctx).acc.map (·.2)).foldl CtxBank.add CtxBank.zero)).getD i 0 % 2 ^ 64
        (s.unhindered a 256 = true → tells (s'.homes.mem.readN a 256) ∧ ∀ b, (b < a ∨ a + 256 ≤ b) → s'.homes.mem.read b = s.homes.mem.read b) ∧
        (s.unhindered a 256 = false → s'.homes = s.homes ∧ ∃ o bs, s'.ops.find s.sched.nextId = some o ∧ o.tid = 0 ∧ o.home = .main ∧
          o.act = .store bs 2048 ∧ tells bs ∧ o.pieces = linePieces (fun _ => false) a 256 ∧ o.performed = false)))

/-! ### Power, links, reset, errors and replay -/

namespace Sys2Proof.Claims

/-- A record reaches the host's error ring of a die, or finds it full (R356, R391). -/
def tellsHost (s s' : State) (die : Nat) (ok : FaultRec → Prop) : Prop :=
  (s.dev.errs.length < s.dev.errSlots.getD die 0 → ∃ r : FaultRec, s'.dev.errs = s.dev.errs ++ [r.bits] ∧ r.die = die ∧ r.kind = 2 ∧ ok r) ∧
  (s.dev.errSlots.getD die 0 ≤ s.dev.errs.length → s'.dev.errs = s.dev.errs)

/-- A record reaches a context's fault quay, or is counted as lost (R363). Where a copy, a replica, an owner, a poisoned line or a tier that
is off stands in the way, the write of it is in flight (R84, R119, R120, R394). -/
def tellsQuay (s s' : State) (ctx : Nat) (ok : FaultRec → Prop) : Prop :=
  ∀ f, (s.ctx ctx).fq = some f →
    (f.head < f.slots → (s'.ctx ctx).fq = some { f with head := f.head + 1 } ∧
      ∃ r : FaultRec, ok r ∧ let a := f.base + 64 * f.head
        (s.unhindered a 64 = true → (∀ l ∈ linesOf a 64, l ∉ s'.homes.poison) → leVal (s'.homes.mem.readN a 64) = r.bits.toNat) ∧
        (s.unhindered a 64 = false → ∃ o, s'.ops.find s.sched.nextId = some o ∧ o.tid = 0 ∧ o.home = .main ∧ o.performed = false ∧
          o.act = .store (leBytes 64 r.bits.toNat) 512 ∧ o.pieces = linePieces (fun _ => false) a 64)) ∧
    (f.slots ≤ f.head → (s'.ctx ctx).fq = some { f with lost := f.lost + 1 })

/-- The threads of some teams are gone, and no other thread's registers or place change. -/
def threadsGone (s s' : State) (gone : Nat → Prop) : Prop :=
  ∀ u th, s.threads.find u = some th → (gone th.id.work → s'.threads.find u = none) ∧
    (¬ gone th.id.work → (s'.threads.find u).map (fun x => (x.regs, x.pos, x.id)) = some (th.regs, th.pos, th.id))

end Sys2Proof.Claims

/-- A die's power commands gate it, set its P-state through a relock of 2,000 ticks, or wait for one to end; a trip halts the die and
ends its teams; a link that fails 8 flits in a row is down until it has retrained; a device reset leaves the reset state with fuses,
almanac, firmware and the host's memory (R391, R392, R394, R395, R397, R399, R400). The model's own: that a power command which names
the held P-state ends a halt (log entry 74), what a device reset keeps (log entry 75), the cycle in progress (log entry 119). -/
def Sys2Proof.Claims.powerEvents : Prop :=
  ∀ (s : State), s.works.sorted = true → s.threads.sorted = true →
    (∀ tag die, s.dev.fwOk = true → die < 4 → let d := s.die die
      let done (p : DiePower) (u : State) : Prop := (∀ y ∈ s.dev.order, y.1.fn ≠ tag.fn ∧ y.2 = none) → exec (.diePowerState tag die p) s = .next (u.modDev fun d => { d with done := d.done ++ [(tag, 0)] })
      (s.teamsOn die ≠ [] → exec (.diePowerState tag die .gate) s = .next (s.finish tag 1)) ∧
      (d.relock ≠ none → ∀ p, (p = .gate → s.teamsOn die = []) → exec (.diePowerState tag die p) s =
        .next ((s.modDev fun x => { x with order := x.order ++ [(tag, none)] }).modDie die fun x => { x with pending := x.pending ++ [(tag, p)] })) ∧
      (d.relock = none → (∀ i < 4, ∀ x ∈ (s.die i).pending, x.1 ≠ tag) →
        (s.teamsOn die = [] → done .gate ((if d.gated then s else s.almanac (0x402 + 4 * die) 1).modDie die fun d => { d with gated := true, halted := false })) ∧
        (∀ q, d.pst = q → done (.run q) (s.modDie die fun d => { d with gated := false, halted := false })) ∧
        (∀ q, d.pst ≠ q → done (.run q) ((s.almanac (0x401 + 4 * die) 1).modDie die fun x => { x with
          gated := false, halted := false, relock := some (q, x.mer + 2000), lastCycle := decide (d.gated = false ∧ d.halted = false ∧ d.rest ≠ 0)
          p1 := if d.gated = false ∧ d.halted = false ∧ d.rest ≠ 0 then x.p1 else 0 }))) ∧
      (∀ on, acts s tag (.tierPowerState tag die .near on) (s.modDie die fun x => { x with near := on }) ∧
        acts s tag (.tierPowerState tag die .far on) (s.modDie die fun x => { x with far := on })) ∧
      (∀ p n, d.relock = some (p, n) → (d.mer < n → exec (.relockEnd die) s = .next s) ∧
        (n ≤ d.mer → d.pending = [] → exec (.relockEnd die) s = .next (s.modDie die fun x => { x with pst := p, relock := none, lastCycle := false, p1 := 0, rest := 0 })))) ∧
    (∀ die, die < 4 → ∃ s', exec (.thermalTrip die) s = .next s' ∧ (s'.die die).halted = true ∧ tellsHost s s' die (fun r => r.cause = 0xB3) ∧
      s'.homes.mem = s.homes.mem ∧ threadsGone s s' fun w => ∃ x, s.works.find w = some x ∧ x.resident = true ∧ x.die = die) ∧
    (∀ link again, (link < 8 → ∀ x, s.dev.links.find link = some x → x.up = true → let n := if again = true then x.fails + 1 else 1
        ∃ s', exec (.flitCrcFailure ⟨link, again⟩) s = .next s' ∧ s'.homes = s.homes ∧
          s'.dev.links.find link = some (if n < 8 then { x with fails := n } else { x with up := false, fails := 0 }) ∧
          ∀ l, l ≠ link → s'.dev.links.find l = s.dev.links.find l) ∧
      ((8 ≤ link ∨ s.dev.links.find link = none ∨ ∃ x, s.dev.links.find link = some x ∧ x.up = false) → exec (.flitCrcFailure ⟨link, again⟩) s = .next s) ∧
      ∀ peer, exec (.linkRetrained ⟨link, peer⟩) s = .next (if link < 8 then s.modDev fun d => { d with links := d.links.put link ⟨true, 0, peer⟩ } else s)) ∧
    (∀ ok, ∃ s', exec (.deviceReset ok) s = .next s' ∧ s'.threads = [] ∧ s'.works = [] ∧ s'.cards = [] ∧ s'.ctxs = [] ∧ s'.cores = [] ∧ s'.ops = [] ∧
      s'.dies = State.reset.dies ∧ s'.homes.mem = [] ∧ s'.homes.host = s.homes.host ∧ s'.dev.fab = 0 ∧ s'.dev.fwOk = ok ∧ s'.dev.fwFresh = false ∧ s'.dev.almanac = s.dev.almanac ∧
      s'.dev.fwBlocks = s.dev.fwBlocks ∧ s'.dev.cores = s.dev.cores ∧ s'.dev.lanes = s.dev.lanes ∧ s'.dev.farGiB = s.dev.farGiB ∧ s'.dev.step = s.dev.step ∧ s'.dev.prod = s.dev.prod)

/-- An uncorrectable error poisons what it struck until it is written and is reported: a line, 16 lines of a compressed page's
metadata, a scratchpad word; an L1 sector is only filled anew; a save area's team, and the teams of a core with a machine check, are
ended and the host is told; nothing is read in a tier that is off (R130, R356, R363, R365, R394). The model's own: the val of 0xB0 and
0xB1, the line's address (log entry 73). -/
def Sys2Proof.Claims.errorEvents : Prop :=
  ∀ (s : State), s.works.sorted = true → s.threads.sorted = true →
    (∀ ctx die line, let first := line / 16 * 16
      (lineDie line ≠ die ∨ line / 256 ∉ s.homes.cmps ∨ s.lineAwake line = false → exec (.uncorrectableCompressionMetadata ctx die line) s = .next s) ∧
      (lineDie line = die → line / 256 ∈ s.homes.cmps → s.lineAwake line = true → ∃ s', exec (.uncorrectableCompressionMetadata ctx die line) s = .next s' ∧
        (∀ l, l ∈ s'.homes.poison ↔ l ∈ s.homes.poison ∨ (first ≤ l ∧ l < first + 16)) ∧
        tellsQuay s s' ctx fun r => r.cause = 0xB0 ∧ r.kind = 2 ∧ r.val = BitVec.ofNat 64 (first * 256) ∧ r.ctx = ctx)) ∧
    (∀ ctx die pa, s.lineAwake (pa / 256) = false → exec (.uncorrectableData ctx die (.line pa)) s = .next s) ∧
    (∀ ctx die pa, s.lineAwake (pa / 256) = true → ∃ s', exec (.uncorrectableData ctx die (.line pa)) s = .next s' ∧ (∀ l, l ∈ s'.homes.poison ↔ l ∈ s.homes.poison ∨ l = pa / 256) ∧
      tellsQuay s s' ctx fun r => r.cause = 0xB1 ∧ r.kind = 2 ∧ r.val = BitVec.ofNat 64 (pa / 256 * 256) ∧ r.ctx = ctx) ∧
    (∀ ctx die gc v sector, sector < 4 → ∃ s', exec (.uncorrectableData ctx die (.l1Sector gc v sector)) s = .next s' ∧ s'.homes = s.homes ∧ s'.ctxs = s.ctxs ∧
      (∀ l ∈ (s'.core gc).l1, l.ctx = ctx → l.line = v → l.valid.getLsbD sector = false ∧ ∀ j < 64, l.mask.getLsbD (64 * sector + j) = false) ∧
      ∀ l, (l.ctx ≠ ctx ∨ l.line ≠ v) → (l ∈ (s'.core gc).l1 ↔ l ∈ (s.core gc).l1)) ∧
    (∀ ctx die gc addr, ∃ s', exec (.uncorrectableData ctx die (.scratchWord gc addr)) s = .next s' ∧
      addr % 131072 / 4 ∈ (s'.bank gc (addr / 131072 % 32)).poison ∧ (∀ b, (s'.bank gc b).bytes = (s.bank gc b).bytes) ∧ s'.ctxs = s.ctxs ∧ s'.homes = s.homes) ∧
    (∀ w x, s.works.find w = some x →
      (x.resident = true → (∀ z, x.sw ≠ .restoring z) → exec (.uncorrectableContextState w) s = .next s) ∧
      (x.resident = false ∨ (∃ z, x.sw = .restoring z) → ∃ s', exec (.uncorrectableContextState w) s = .next s' ∧
        tellsHost s s' x.die (fun r => r.cause = 0xB2 ∧ r.team = x.team ∧ r.ctx = x.ctx) ∧ threadsGone s s' fun v => v = w)) ∧
    (∀ die core, ∃ s', exec (.internalMachineCheck die core) s = .next s' ∧ tellsHost s s' die (fun r => r.cause = 0xB4 ∧ r.core = core) ∧
      threadsGone s s' fun w => ∃ x, s.works.find w = some x ∧ x.resident = true ∧ x.die = die ∧ die * 64 + core ∈ x.cores)

/-- Power, links, reset, and errors. -/
def Obligations.PowerAndErrors : Prop := powerEvents ∧ errorEvents

namespace Sys2Proof.Claims

/-- A checkpoint of the team's state as it stands has been made, and its next interval begins (R386). -/
def checked (s s' : State) (w : Nat) (r : Replay) (ivl : Nat) : Prop :=
  ∃ y k, s'.works.find w = some y ∧ y.rpl = some { r with
      checks := k :: (match r.checks with | c :: cs => { c with log := r.log } :: cs | [] => [])
      ivl := ivl, cnt := 0, log := [], cursor := 0, ended := false, held := [], heldHost := [] } ∧
    k.ivl = ivl ∧ k.snap = max (s.die (s.work w).die).mer 1 ∧ k.turn = r.turn ∧ k.log = [] ∧
    k.image.threads = s'.threads.filter (fun kv => kv.2.id.work == w) ∧ k.image.groups = s.groups.filter fun kv => kv.2.work == w

end Sys2Proof.Claims

/-- Replay mode is entered by command; an interval that has ended makes a checkpoint of the team when its last word has performed and
its writes have committed; a stop rolls the team back to a checkpoint, from which it runs again to the named count, is saved there,
and a record of kind 4 is posted (R256, R363, R385-R387). The model's own: that a stop waits for room in the save pool, and how the saved
team stands (log entry 72). -/
def Obligations.ReplayEvents : Prop :=
  ∀ (s : State) (w : Nat) (x : Work), s.works.find w = some x → s.threads.sorted = true →
    (∀ tag n, s.dev.fwOk = true →
      (n = 0 ∨ 2 ^ 20 < n → exec (.replayMode tag w n) s = .next (s.finish tag 1)) ∧
      (0 < n → n ≤ 2 ^ 20 → x.rpl = none → acts s tag (.replayMode tag w n) (s.modWork w fun y => { y with
        rpl := some ⟨n, 0, 0, [], [], 0, none, false, (64, 64), none, true, [], []⟩ })) ∧
      (∀ v, s.works.find v = none → exec (.replayMode tag v n) s = .next (s.finish tag 1))) ∧
    (∀ r, x.rpl = some r →
      (r.ended = false ∨ r.stop ≠ none ∨ s.busyWork w = true ∨ x.resident = false → exec (.replayIntervalEnd w) s = .next s) ∧
      (r.ended = true → r.stop = none → s.busyWork w = false → x.resident = true →
        (r.checks = [] → ∃ s', exec (.replayIntervalEnd w) s = .next s' ∧ checked s s' w r 0 ∧ s'.homes = s.homes ∧
          ∀ u, (s'.threads.find u).map Thread.shown = ((s.threads.find u).map Thread.shown)) ∧
        (r.checks ≠ [] → r.held = [] → r.heldHost = [] → ∃ s', exec (.replayIntervalEnd w) s = .next s' ∧ checked s s' w r (r.ivl + 1) ∧ s'.homes = s.homes ∧ s'.threads = s.threads) ∧
        (r.checks ≠ [] → r.held ≠ [] ∨ r.heldHost ≠ [] → (s.replaySlots r = false ∨ (∃ h ∈ r.held, s.lineAwake (h.1 / 256) = false) → exec (.replayIntervalEnd w) s = .next s) ∧
          (s.replaySlots r = true → (∀ h ∈ r.held, s.lineAwake (h.1 / 256) = true) → ∃ s' i k, exec (.replayIntervalEnd w) s = .next s' ∧ s'.commits.find i = some k ∧ k.owner = .rpl w ∧ k.stamp = none ∧
            s'.homes.mem = s.homes.mem ∧ ∀ h ∈ r.held, pendingOf s (.rpl w) (h.1 / 256) = none → ∃ p, pendingOf s' (.rpl w) (h.1 / 256) = some p ∧
              p.mask.getLsbD (h.1 % 256) = true ∧ ((r.held.map (·.1)).Nodup → lineByte p.data (h.1 % 256) = h.2))))) ∧
    (∀ tag ivl c, s.dev.fwOk = true →
      ((x.rpl = none ∨ ∃ r, x.rpl = some r ∧ ∀ k ∈ r.checks, k.ivl ≠ ivl) → exec (.replayStop tag w ivl c) s = .next (s.finish tag 1)) ∧
      (∀ r k, x.rpl = some r → r.checks.find? (fun k => k.ivl == ivl) = some k → k.image.threads.sorted = true → k.image.pend = [] →
        (∀ kv ∈ k.image.threads, kv.2.id.work = w) → ∃ s' y q, exec (.replayStop tag w ivl c) s = .next s' ∧ s'.works.find w = some y ∧ y.sw = .saved .host ∧
          y.banks = k.image.banks ∧ y.accs = k.image.accs ∧ y.cores = k.image.cores ∧ y.bars = k.image.bars ∧ y.rpl = some q ∧
          q.ivl = ivl ∧ q.cnt = 0 ∧ q.stop = some c ∧ q.turn = k.turn ∧ q.held = [] ∧ q.heldHost = [] ∧ q.ended = false ∧ q.log = (if ivl = r.ivl then r.log else k.log) ∧
          s'.homes.mem = s.homes.mem ∧ ∀ u th, (s'.threads.find u = some th ∧ th.id.work = w) ↔ ∃ th0, k.image.threads.find u = some th0 ∧ th = savedThread .host th0)) ∧
    (∀ r c, x.rpl = some r → r.stop = some c →
      let holds : Prop := r.reached = true ∨ (r.cnt < c ∧ r.ended = false) ∨ s.busyWork w = true ∨ s.arrayStill w = false ∨ x.sw ≠ .running ∨ (s.die x.die).disp.pool < s.areaSize w
      (holds → exec (.replayStopReached w) s = .next s) ∧
      (¬ holds → ∃ s' y q, exec (.replayStopReached w) s = .next s' ∧ s'.works.find w = some y ∧ y.sw = .saved .host ∧ y.rpl = some q ∧ q.reached = true ∧
        savedThreads s s' w .host ∧ w ∉ (s'.card x.card).requeued ∧
        tellsQuay s s' x.ctx fun f => f.kind = 4 ∧ f.val = BitVec.ofNat 64 (r.ivl % 2 ^ 32 * 2 ^ 32 + c % 2 ^ 32)))
end

