-- ==== Sys2Proof/Laws/Memory.lean ====
section
/-! SUPPORT. What memory reads after a write, and that every memory operation keeps the canonical form. -/

namespace Sys2Proof.Machine

/-- Every cell lies above `b`, in rising order, and differs from the unlisted byte. -/
def Memory.above (b : Nat) : Memory → Prop
  | [] => True
  | (k, v) :: t => b < k ∧ v ≠ Memory.unlisted ∧ Memory.above k t

theorem Memory.wf_cons (k : Nat) (v : Byte) (t : Memory) :
    Memory.wf ((k, v) :: t) = true ↔ v ≠ Memory.unlisted ∧ Memory.above k t := by
  induction t generalizing k v with
  | nil => simp [Memory.wf, Memory.above]
  | cons x t ih => obtain ⟨k', v'⟩ := x; simp [Memory.wf, Memory.above, ih]; tauto

theorem Memory.above_mono {b c : Nat} (t : Memory) (h : c ≤ b) (ht : Memory.above b t) : Memory.above c t := by
  cases t with
  | nil => trivial
  | cons x t => exact ⟨Nat.lt_of_le_of_lt h ht.1, ht.2⟩

theorem Memory.above_erase (b : Nat) (m : Memory) (a : Nat) (hm : m.above b) : (m.erase a).above b := by
  induction m generalizing b with
  | nil => trivial
  | cons x t ih =>
    obtain ⟨k, v⟩ := x
    have h := ih k hm.2.2
    simp only [Memory.erase, List.filter_cons]
    split
    · exact ⟨hm.1, hm.2.1, h⟩
    · exact Memory.above_mono _ (Nat.le_of_lt hm.1) h

theorem Memory.above_insert (b : Nat) (m : Memory) (a : Nat) (v : Byte) (hb : b < a) (hv : v ≠ Memory.unlisted)
    (hm : m.above b) : (m.insert a v).above b := by
  induction m generalizing b with
  | nil => exact ⟨hb, hv, trivial⟩
  | cons x t ih =>
    obtain ⟨k, w⟩ := x
    simp only [Memory.insert]
    split
    · exact ⟨hb, hv, ‹_›, hm.2⟩
    · split
      · subst_vars; exact ⟨hb, hv, hm.2.2⟩
      · exact ⟨hm.1, hm.2.1, ih k (by omega) hm.2.2⟩

theorem Memory.wf_of_above (b : Nat) (m : Memory) (h : m.above b) : m.wf = true := by
  cases m with
  | nil => rfl
  | cons x t => rw [Memory.wf_cons]; exact h.2

theorem Memory.wf_erase (m : Memory) (a : Nat) (h : m.wf = true) : (m.erase a).wf = true := by
  cases m with
  | nil => rfl
  | cons x t =>
    obtain ⟨k, v⟩ := x
    rw [Memory.wf_cons] at h
    have h2 := Memory.above_erase k t a h.2
    simp only [Memory.erase, List.filter_cons]
    split
    · rw [Memory.wf_cons]; exact ⟨h.1, h2⟩
    · exact Memory.wf_of_above k _ h2

theorem Memory.wf_insert (m : Memory) (a : Nat) (v : Byte) (hv : v ≠ Memory.unlisted) (h : m.wf = true) :
    (m.insert a v).wf = true := by
  cases m with
  | nil => simpa [Memory.insert, Memory.wf] using hv
  | cons x t =>
    obtain ⟨k, w⟩ := x
    rw [Memory.wf_cons] at h
    simp only [Memory.insert]
    split
    · rw [Memory.wf_cons]; exact ⟨hv, ‹_›, h⟩
    · split
      · subst_vars; rw [Memory.wf_cons]; exact ⟨hv, h.2⟩
      · rw [Memory.wf_cons]; exact ⟨h.1, Memory.above_insert k t a v (by omega) hv h.2⟩

/-- Writing a byte keeps the canonical form. -/
theorem Memory.wf_write (m : Memory) (a : Nat) (b : Byte) (h : m.wf = true) : (m.write a b).wf = true := by
  unfold Memory.write
  split
  · exact m.wf_erase a h
  · exact m.wf_insert a b ‹_› h

/-- Writing bytes keeps the canonical form. -/
theorem Memory.wf_writeN (m : Memory) (a : Nat) (bs : List Byte) (h : m.wf = true) : (m.writeN a bs).wf = true := by
  induction bs generalizing m a with
  | nil => exact h
  | cons b bs ih => exact ih _ _ (m.wf_write a b h)

theorem Memory.read_insert (m : Memory) (a c : Nat) (b : Byte) : (m.insert a b).read c = if c = a then b else m.read c := by
  induction m with
  | nil => simp [Memory.insert, Memory.read, eq_comm]
  | cons x t ih =>
    obtain ⟨k, v⟩ := x
    simp only [Memory.insert]
    by_cases hc : c = a
    · subst hc
      split
      · simp [Memory.read]
      · split
        · simp [Memory.read]
        · simp [Memory.read, ih, show k ≠ c by omega]
    · split
      · simp [Memory.read, Ne.symm hc]
      · split
        · subst_vars; simp [Memory.read, Ne.symm hc]
        · simp [Memory.read, ih, hc]

theorem Memory.read_erase (m : Memory) (a c : Nat) :
    (m.erase a).read c = if c = a then Memory.unlisted else m.read c := by
  induction m with
  | nil => simp [Memory.erase, Memory.read]
  | cons x t ih =>
    obtain ⟨k, v⟩ := x
    simp only [Memory.erase, List.filter_cons] at ih ⊢
    by_cases hk : k = a
    · subst hk
      simp only [bne_self_eq_false, Bool.false_eq_true, if_false, ih, Memory.read]
      by_cases hc : c = k
      · simp [hc]
      · simp [hc, Ne.symm hc]
    · simp only [bne_iff_ne, ne_eq, hk, not_false_iff, if_true, Memory.read, ih]
      by_cases hc : k = c
      · subst hc; simp [hk]
      · simp [hc]

/-- A written byte reads back, and every other byte reads as before. -/
theorem Memory.read_write (m : Memory) (a c : Nat) (b : Byte) : (m.write a b).read c = if c = a then b else m.read c := by
  unfold Memory.write
  split
  · subst_vars; exact m.read_erase a c
  · exact m.read_insert a c b

/-- Written bytes read back, and every byte outside them reads as before. -/
theorem Memory.read_writeN (m : Memory) (a c : Nat) (bs : List Byte) :
    (m.writeN a bs).read c = if a ≤ c ∧ c < a + bs.length then bs.getD (c - a) 0 else m.read c := by
  induction bs generalizing m a with
  | nil => simp [Memory.writeN]
  | cons b bs ih =>
    simp only [Memory.writeN]
    rw [ih, m.read_write a c b]
    by_cases hc : c = a
    · subst hc; simp
    · by_cases h1 : a ≤ c ∧ c < a + (bs.length + 1)
      · have : c - a = (c - (a + 1)) + 1 := by omega
        simp [this, show a + 1 ≤ c ∧ c < a + 1 + bs.length by omega, List.length_cons, h1]
      · rw [if_neg (by omega), if_neg hc, if_neg (by simpa using h1)]

end Sys2Proof.Machine
end

