-- ==== Sys2Proof/Laws/Device.lean ====
section
/-! SUPPORT. What the device's own writes and the command rings can do. -/

namespace Sys2Proof.Machine

/-- A write of the device that nothing hinders is made in memory at once. -/
theorem State.devWrite_now {s : State} {ctx pa : Nat} {bs : List Byte} (h : s.unhindered pa bs.length = true) :
    s.devWrite ctx pa bs = { s with homes := { s.homes with mem := s.homes.mem.writeN pa bs } } := by
  simp [State.devWrite, h]

/-- One that is hindered changes no memory: it is in flight under a fresh name. -/
theorem State.devWrite_later {s : State} {ctx pa : Nat} {bs : List Byte} (h : s.unhindered pa bs.length = false) :
    (s.devWrite ctx pa bs).homes = s.homes ∧ (s.devWrite ctx pa bs).sched.nextId = s.sched.nextId + 1 ∧
    ∃ o : MemOp, (s.devWrite ctx pa bs).ops = s.ops.put s.sched.nextId o ∧ o.tid = 0 ∧ o.home = .main ∧
      o.act = .store bs (8 * bs.length) ∧ o.pieces = linePieces (fun _ => false) pa bs.length ∧ o.performed = false := by
  unfold State.devWrite
  rw [h]
  exact ⟨rfl, rfl, _, rfl, rfl, rfl, rfl, rfl, rfl⟩

@[simp] theorem State.devWrite_threads (s : State) (ctx pa : Nat) (bs : List Byte) : (s.devWrite ctx pa bs).threads = s.threads := by
  unfold State.devWrite; split <;> rfl
@[simp] theorem State.devWrite_groups (s : State) (ctx pa : Nat) (bs : List Byte) : (s.devWrite ctx pa bs).groups = s.groups := by
  unfold State.devWrite; split <;> rfl
@[simp] theorem State.devWrite_bundles (s : State) (ctx pa : Nat) (bs : List Byte) : (s.devWrite ctx pa bs).bundles = s.bundles := by
  unfold State.devWrite; split <;> rfl
@[simp] theorem State.devWrite_bins (s : State) (ctx pa : Nat) (bs : List Byte) : (s.devWrite ctx pa bs).bins = s.bins := by
  unfold State.devWrite; split <;> rfl
@[simp] theorem State.devWrite_works (s : State) (ctx pa : Nat) (bs : List Byte) : (s.devWrite ctx pa bs).works = s.works := by
  unfold State.devWrite; split <;> rfl
@[simp] theorem State.devWrite_cards (s : State) (ctx pa : Nat) (bs : List Byte) : (s.devWrite ctx pa bs).cards = s.cards := by
  unfold State.devWrite; split <;> rfl
@[simp] theorem State.devWrite_commits (s : State) (ctx pa : Nat) (bs : List Byte) : (s.devWrite ctx pa bs).commits = s.commits := by
  unfold State.devWrite; split <;> rfl
@[simp] theorem State.devWrite_cores (s : State) (ctx pa : Nat) (bs : List Byte) : (s.devWrite ctx pa bs).cores = s.cores := by
  unfold State.devWrite; split <;> rfl
@[simp] theorem State.devWrite_dies (s : State) (ctx pa : Nat) (bs : List Byte) : (s.devWrite ctx pa bs).dies = s.dies := by
  unfold State.devWrite; split <;> rfl
@[simp] theorem State.devWrite_ctxs (s : State) (ctx pa : Nat) (bs : List Byte) : (s.devWrite ctx pa bs).ctxs = s.ctxs := by
  unfold State.devWrite; split <;> rfl
@[simp] theorem State.devWrite_dev (s : State) (ctx pa : Nat) (bs : List Byte) : (s.devWrite ctx pa bs).dev = s.dev := by
  unfold State.devWrite; split <;> rfl
@[simp] theorem State.devWrite_host (s : State) (ctx pa : Nat) (bs : List Byte) : (s.devWrite ctx pa bs).homes.host = s.homes.host := by
  unfold State.devWrite; split <;> rfl

/-- It keeps the memories' canonical form. -/
theorem State.memOk_devWrite (s : State) (ctx pa : Nat) (bs : List Byte) (h : s.memOk = true) : (s.devWrite ctx pa bs).memOk = true := by
  unfold State.memOk at *
  rw [Bool.and_eq_true] at *
  refine ⟨?_, by rw [State.devWrite_host]; exact h.2⟩
  unfold State.devWrite
  split
  · exact Memory.wf_writeN _ _ _ h.1
  · exact h.1

/-- Every command of the rings completes or stays, and none twice (R391). -/
theorem ringDone_length (stuck : List (Fin 16)) (l : List (Ticket × Option Nat)) :
    (ringDone stuck l).1.length + (ringDone stuck l).2.length = l.length := by
  induction l generalizing stuck with
  | nil => rfl
  | cons x r ih =>
    obtain ⟨k, st⟩ := x
    unfold ringDone
    split
    · have := ih stuck; simp only [List.length_cons]; omega
    · have := ih (k.fn :: stuck); simp only [List.length_cons]; omega

/-- A command whose status is not known stays, and so does every later one of its ring (R391). -/
theorem ringDone_stuck (stuck : List (Fin 16)) (l : List (Ticket × Option Nat)) :
    ∀ x ∈ (ringDone stuck l).1, x.1.fn ∉ stuck := by
  induction l generalizing stuck with
  | nil => intro x h; exact absurd h (List.not_mem_nil)
  | cons y r ih =>
    obtain ⟨k, st⟩ := y
    intro x h
    unfold ringDone at h
    split at h
    · rename_i v hv
      rcases List.mem_cons.mp h with rfl | h
      · intro m
        rw [if_pos (List.contains_iff_mem.mpr m)] at hv
        cases hv
      · exact ih stuck x h
    · exact fun m => ih (k.fn :: stuck) x h (List.mem_cons_of_mem _ m)

end Sys2Proof.Machine
end

