-- ==== Sys2Proof/Laws/Tables.lean ====
section
/-! SUPPORT. What a table reads after a change. -/

namespace Sys2Proof.Machine

theorem Tbl.find_put_self {α : Type} (t : Tbl α) (i : Nat) (a : α) : Tbl.find (Tbl.put t i a) i = some a := by
  induction t with
  | nil => simp [Tbl.put, Tbl.find]
  | cons kv t ih =>
    obtain ⟨k, v⟩ := kv
    simp only [Tbl.put]
    split
    · simp [Tbl.find]
    · split
      · simp [Tbl.find]
      · simp_all [Tbl.find]
        omega

theorem Tbl.find_put_other {α : Type} (t : Tbl α) {i j : Nat} (a : α) (h : j ≠ i) :
    Tbl.find (Tbl.put t i a) j = Tbl.find t j := by
  induction t with
  | nil => simp [Tbl.put, Tbl.find, Ne.symm h]
  | cons kv t ih =>
    obtain ⟨k, v⟩ := kv
    simp only [Tbl.put]
    split
    · simp [Tbl.find, Ne.symm h]
    · split
      · subst_vars; simp [Tbl.find, Ne.symm h]
      · simp [Tbl.find, ih]

theorem Tbl.find_put {α : Type} (t : Tbl α) (i j : Nat) (a : α) :
    Tbl.find (Tbl.put t i a) j = if j = i then some a else Tbl.find t j := by
  split
  · subst_vars; exact t.find_put_self _ a
  · exact t.find_put_other a ‹_›

theorem Tbl.find_upd {α : Type} (t : Tbl α) (i j : Nat) (f : α → α) :
    Tbl.find (Tbl.upd t i f) j = if j = i then (Tbl.find t j).map f else Tbl.find t j := by
  unfold Tbl.upd
  split
  · rw [Tbl.find_put]; split <;> simp_all
  · split <;> simp_all

theorem Tbl.find_mapVals {α : Type} (t : Tbl α) (f : α → α) (j : Nat) :
    Tbl.find (Tbl.mapVals t f) j = (Tbl.find t j).map f := by
  induction t with
  | nil => rfl
  | cons kv t ih =>
    simp only [Tbl.mapVals, List.map_cons, Tbl.find] at ih ⊢
    split
    · rfl
    · exact ih

/-- Every key of a list of pairs is above `b`, and they rise. -/
def Tbl.above {α : Type} (b : Nat) : Tbl α → Prop
  | [] => True
  | (k, _) :: t => b < k ∧ Tbl.above k t

theorem Tbl.sorted_cons {α : Type} (k : Nat) (v : α) (t : Tbl α) : Tbl.sorted ((k, v) :: t) = true ↔ Tbl.above k t := by
  induction t generalizing k v with
  | nil => simp [Tbl.sorted, Tbl.above]
  | cons x t ih => obtain ⟨k', v'⟩ := x; simp [Tbl.sorted, Tbl.above, ih]

theorem Tbl.above_mono {α : Type} {b c : Nat} (t : Tbl α) (h : c ≤ b) (ht : Tbl.above b t) : Tbl.above c t := by
  cases t with
  | nil => trivial
  | cons x t => exact ⟨Nat.lt_of_le_of_lt h ht.1, ht.2⟩

theorem Tbl.above_put {α : Type} (b : Nat) (t : Tbl α) (i : Nat) (a : α) (hb : b < i) (ht : Tbl.above b t) :
    Tbl.above b (Tbl.put t i a) := by
  induction t generalizing b with
  | nil => exact ⟨hb, trivial⟩
  | cons x t ih =>
    obtain ⟨k, v⟩ := x
    simp only [Tbl.put]
    split
    · exact ⟨hb, ‹_›, ht.2⟩
    · split
      · subst_vars; exact ⟨hb, ht.2⟩
      · exact ⟨ht.1, ih k (by omega) ht.2⟩

theorem Tbl.above_drop {α : Type} (b : Nat) (t : Tbl α) (i : Nat) (ht : Tbl.above b t) : Tbl.above b (Tbl.drop t i) := by
  induction t generalizing b with
  | nil => trivial
  | cons x t ih =>
    obtain ⟨k, v⟩ := x
    have h := ih k ht.2
    simp only [Tbl.drop, List.filter_cons]
    split
    · exact ⟨ht.1, h⟩
    · exact Tbl.above_mono _ (Nat.le_of_lt ht.1) h

theorem Tbl.find_above {α : Type} (b : Nat) (t : Tbl α) (i : Nat) (ht : Tbl.above b t) (hi : i ≤ b) : Tbl.find t i = none := by
  induction t generalizing b with
  | nil => rfl
  | cons x t ih =>
    obtain ⟨k, v⟩ := x
    have : k ≠ i := by have := ht.1; omega
    simp [Tbl.find, this, ih k ht.2 (by have := ht.1; omega)]

theorem Tbl.sorted_put {α : Type} (t : Tbl α) (i : Nat) (a : α) (ht : Tbl.sorted t = true) : Tbl.sorted (Tbl.put t i a) = true := by
  cases t with
  | nil => rfl
  | cons x t =>
    obtain ⟨k, v⟩ := x
    rw [Tbl.sorted_cons] at ht
    simp only [Tbl.put]
    split
    · rw [Tbl.sorted_cons]; exact ⟨‹_›, ht⟩
    · split
      · subst_vars; rw [Tbl.sorted_cons]; exact ht
      · rw [Tbl.sorted_cons]; exact Tbl.above_put k t i a (by omega) ht

theorem Tbl.sorted_of_above {α : Type} (b : Nat) (t : Tbl α) (h : Tbl.above b t) : Tbl.sorted t = true := by
  cases t with
  | nil => rfl
  | cons x t => rw [Tbl.sorted_cons]; exact h.2

theorem Tbl.sorted_drop {α : Type} (t : Tbl α) (i : Nat) (ht : Tbl.sorted t = true) : Tbl.sorted (Tbl.drop t i) = true := by
  cases t with
  | nil => rfl
  | cons x t =>
    obtain ⟨k, v⟩ := x
    rw [Tbl.sorted_cons] at ht
    have h := Tbl.above_drop k t i ht
    simp only [Tbl.drop, List.filter_cons]
    split
    · rw [Tbl.sorted_cons]; exact h
    · exact Tbl.sorted_of_above k _ h

theorem Tbl.find_drop {α : Type} (t : Tbl α) (i j : Nat) :
    Tbl.find (Tbl.drop t i) j = if j = i then none else Tbl.find t j := by
  induction t with
  | nil => simp [Tbl.drop, Tbl.find]
  | cons x t ih =>
    obtain ⟨k, v⟩ := x
    simp only [Tbl.drop, List.filter_cons] at ih ⊢
    by_cases hk : k = i
    · subst hk
      simp only [bne_self_eq_false, Bool.false_eq_true, if_false, ih, Tbl.find]
      by_cases hj : j = k
      · simp [hj]
      · simp [hj, Ne.symm hj]
    · simp only [bne_iff_ne, ne_eq, hk, not_false_iff, if_true, Tbl.find, ih]
      by_cases hj : k = j
      · subst hj; simp [hk]
      · simp [hj]

end Sys2Proof.Machine
end

