-- ==== Sys2Proof/Laws/State.lean ====
section
/-! SUPPORT. One lemma per field per update of the state: no later proof unfolds a record update. -/

namespace Sys2Proof.Machine

/-! ### modThread -/

@[simp] theorem State.modThread_sched (s : State) (t : Nat) (f : Thread → Thread) : (s.modThread t f).sched = s.sched := rfl
@[simp] theorem State.modThread_groups (s : State) (t : Nat) (f : Thread → Thread) : (s.modThread t f).groups = s.groups := rfl
@[simp] theorem State.modThread_bundles (s : State) (t : Nat) (f : Thread → Thread) : (s.modThread t f).bundles = s.bundles := rfl
@[simp] theorem State.modThread_bins (s : State) (t : Nat) (f : Thread → Thread) : (s.modThread t f).bins = s.bins := rfl
@[simp] theorem State.modThread_works (s : State) (t : Nat) (f : Thread → Thread) : (s.modThread t f).works = s.works := rfl
@[simp] theorem State.modThread_cards (s : State) (t : Nat) (f : Thread → Thread) : (s.modThread t f).cards = s.cards := rfl
@[simp] theorem State.modThread_ops (s : State) (t : Nat) (f : Thread → Thread) : (s.modThread t f).ops = s.ops := rfl
@[simp] theorem State.modThread_commits (s : State) (t : Nat) (f : Thread → Thread) : (s.modThread t f).commits = s.commits := rfl
@[simp] theorem State.modThread_cores (s : State) (t : Nat) (f : Thread → Thread) : (s.modThread t f).cores = s.cores := rfl
@[simp] theorem State.modThread_dies (s : State) (t : Nat) (f : Thread → Thread) : (s.modThread t f).dies = s.dies := rfl
@[simp] theorem State.modThread_homes (s : State) (t : Nat) (f : Thread → Thread) : (s.modThread t f).homes = s.homes := rfl
@[simp] theorem State.modThread_ctxs (s : State) (t : Nat) (f : Thread → Thread) : (s.modThread t f).ctxs = s.ctxs := rfl
@[simp] theorem State.modThread_dev (s : State) (t : Nat) (f : Thread → Thread) : (s.modThread t f).dev = s.dev := rfl
@[simp] theorem State.modThread_group (s : State) (t : Nat) (f : Thread → Thread) (i : Nat) : (s.modThread t f).group i = s.group i := rfl
@[simp] theorem State.modThread_work (s : State) (t : Nat) (f : Thread → Thread) (i : Nat) : (s.modThread t f).work i = s.work i := rfl
@[simp] theorem State.modThread_card (s : State) (t : Nat) (f : Thread → Thread) (i : Nat) : (s.modThread t f).card i = s.card i := rfl
@[simp] theorem State.modThread_die (s : State) (t : Nat) (f : Thread → Thread) (i : Nat) : (s.modThread t f).die i = s.die i := rfl
@[simp] theorem State.modThread_core (s : State) (t : Nat) (f : Thread → Thread) (i : Nat) : (s.modThread t f).core i = s.core i := rfl
@[simp] theorem State.modThread_ctx (s : State) (t : Nat) (f : Thread → Thread) (i : Nat) : (s.modThread t f).ctx i = s.ctx i := rfl

/-! ### modGroup -/

@[simp] theorem State.modGroup_sched (s : State) (g : Nat) (f : Group → Group) : (s.modGroup g f).sched = s.sched := rfl
@[simp] theorem State.modGroup_threads (s : State) (g : Nat) (f : Group → Group) : (s.modGroup g f).threads = s.threads := rfl
@[simp] theorem State.modGroup_bundles (s : State) (g : Nat) (f : Group → Group) : (s.modGroup g f).bundles = s.bundles := rfl
@[simp] theorem State.modGroup_bins (s : State) (g : Nat) (f : Group → Group) : (s.modGroup g f).bins = s.bins := rfl
@[simp] theorem State.modGroup_works (s : State) (g : Nat) (f : Group → Group) : (s.modGroup g f).works = s.works := rfl
@[simp] theorem State.modGroup_cards (s : State) (g : Nat) (f : Group → Group) : (s.modGroup g f).cards = s.cards := rfl
@[simp] theorem State.modGroup_ops (s : State) (g : Nat) (f : Group → Group) : (s.modGroup g f).ops = s.ops := rfl
@[simp] theorem State.modGroup_commits (s : State) (g : Nat) (f : Group → Group) : (s.modGroup g f).commits = s.commits := rfl
@[simp] theorem State.modGroup_cores (s : State) (g : Nat) (f : Group → Group) : (s.modGroup g f).cores = s.cores := rfl
@[simp] theorem State.modGroup_dies (s : State) (g : Nat) (f : Group → Group) : (s.modGroup g f).dies = s.dies := rfl
@[simp] theorem State.modGroup_homes (s : State) (g : Nat) (f : Group → Group) : (s.modGroup g f).homes = s.homes := rfl
@[simp] theorem State.modGroup_ctxs (s : State) (g : Nat) (f : Group → Group) : (s.modGroup g f).ctxs = s.ctxs := rfl
@[simp] theorem State.modGroup_dev (s : State) (g : Nat) (f : Group → Group) : (s.modGroup g f).dev = s.dev := rfl
@[simp] theorem State.modGroup_thread (s : State) (g : Nat) (f : Group → Group) (i : Nat) : (s.modGroup g f).thread i = s.thread i := rfl
@[simp] theorem State.modGroup_work (s : State) (g : Nat) (f : Group → Group) (i : Nat) : (s.modGroup g f).work i = s.work i := rfl
@[simp] theorem State.modGroup_card (s : State) (g : Nat) (f : Group → Group) (i : Nat) : (s.modGroup g f).card i = s.card i := rfl
@[simp] theorem State.modGroup_die (s : State) (g : Nat) (f : Group → Group) (i : Nat) : (s.modGroup g f).die i = s.die i := rfl
@[simp] theorem State.modGroup_core (s : State) (g : Nat) (f : Group → Group) (i : Nat) : (s.modGroup g f).core i = s.core i := rfl
@[simp] theorem State.modGroup_ctx (s : State) (g : Nat) (f : Group → Group) (i : Nat) : (s.modGroup g f).ctx i = s.ctx i := rfl

/-! ### modBundle -/

@[simp] theorem State.modBundle_sched (s : State) (b : Nat) (f : Bundle → Bundle) : (s.modBundle b f).sched = s.sched := rfl
@[simp] theorem State.modBundle_threads (s : State) (b : Nat) (f : Bundle → Bundle) : (s.modBundle b f).threads = s.threads := rfl
@[simp] theorem State.modBundle_groups (s : State) (b : Nat) (f : Bundle → Bundle) : (s.modBundle b f).groups = s.groups := rfl
@[simp] theorem State.modBundle_bins (s : State) (b : Nat) (f : Bundle → Bundle) : (s.modBundle b f).bins = s.bins := rfl
@[simp] theorem State.modBundle_works (s : State) (b : Nat) (f : Bundle → Bundle) : (s.modBundle b f).works = s.works := rfl
@[simp] theorem State.modBundle_cards (s : State) (b : Nat) (f : Bundle → Bundle) : (s.modBundle b f).cards = s.cards := rfl
@[simp] theorem State.modBundle_ops (s : State) (b : Nat) (f : Bundle → Bundle) : (s.modBundle b f).ops = s.ops := rfl
@[simp] theorem State.modBundle_commits (s : State) (b : Nat) (f : Bundle → Bundle) : (s.modBundle b f).commits = s.commits := rfl
@[simp] theorem State.modBundle_cores (s : State) (b : Nat) (f : Bundle → Bundle) : (s.modBundle b f).cores = s.cores := rfl
@[simp] theorem State.modBundle_dies (s : State) (b : Nat) (f : Bundle → Bundle) : (s.modBundle b f).dies = s.dies := rfl
@[simp] theorem State.modBundle_homes (s : State) (b : Nat) (f : Bundle → Bundle) : (s.modBundle b f).homes = s.homes := rfl
@[simp] theorem State.modBundle_ctxs (s : State) (b : Nat) (f : Bundle → Bundle) : (s.modBundle b f).ctxs = s.ctxs := rfl
@[simp] theorem State.modBundle_dev (s : State) (b : Nat) (f : Bundle → Bundle) : (s.modBundle b f).dev = s.dev := rfl
@[simp] theorem State.modBundle_thread (s : State) (b : Nat) (f : Bundle → Bundle) (i : Nat) : (s.modBundle b f).thread i = s.thread i := rfl
@[simp] theorem State.modBundle_group (s : State) (b : Nat) (f : Bundle → Bundle) (i : Nat) : (s.modBundle b f).group i = s.group i := rfl
@[simp] theorem State.modBundle_work (s : State) (b : Nat) (f : Bundle → Bundle) (i : Nat) : (s.modBundle b f).work i = s.work i := rfl
@[simp] theorem State.modBundle_card (s : State) (b : Nat) (f : Bundle → Bundle) (i : Nat) : (s.modBundle b f).card i = s.card i := rfl
@[simp] theorem State.modBundle_die (s : State) (b : Nat) (f : Bundle → Bundle) (i : Nat) : (s.modBundle b f).die i = s.die i := rfl
@[simp] theorem State.modBundle_core (s : State) (b : Nat) (f : Bundle → Bundle) (i : Nat) : (s.modBundle b f).core i = s.core i := rfl
@[simp] theorem State.modBundle_ctx (s : State) (b : Nat) (f : Bundle → Bundle) (i : Nat) : (s.modBundle b f).ctx i = s.ctx i := rfl

/-! ### modWork -/

@[simp] theorem State.modWork_sched (s : State) (w : Nat) (f : Work → Work) : (s.modWork w f).sched = s.sched := rfl
@[simp] theorem State.modWork_threads (s : State) (w : Nat) (f : Work → Work) : (s.modWork w f).threads = s.threads := rfl
@[simp] theorem State.modWork_groups (s : State) (w : Nat) (f : Work → Work) : (s.modWork w f).groups = s.groups := rfl
@[simp] theorem State.modWork_bundles (s : State) (w : Nat) (f : Work → Work) : (s.modWork w f).bundles = s.bundles := rfl
@[simp] theorem State.modWork_bins (s : State) (w : Nat) (f : Work → Work) : (s.modWork w f).bins = s.bins := rfl
@[simp] theorem State.modWork_cards (s : State) (w : Nat) (f : Work → Work) : (s.modWork w f).cards = s.cards := rfl
@[simp] theorem State.modWork_ops (s : State) (w : Nat) (f : Work → Work) : (s.modWork w f).ops = s.ops := rfl
@[simp] theorem State.modWork_commits (s : State) (w : Nat) (f : Work → Work) : (s.modWork w f).commits = s.commits := rfl
@[simp] theorem State.modWork_cores (s : State) (w : Nat) (f : Work → Work) : (s.modWork w f).cores = s.cores := rfl
@[simp] theorem State.modWork_dies (s : State) (w : Nat) (f : Work → Work) : (s.modWork w f).dies = s.dies := rfl
@[simp] theorem State.modWork_homes (s : State) (w : Nat) (f : Work → Work) : (s.modWork w f).homes = s.homes := rfl
@[simp] theorem State.modWork_ctxs (s : State) (w : Nat) (f : Work → Work) : (s.modWork w f).ctxs = s.ctxs := rfl
@[simp] theorem State.modWork_dev (s : State) (w : Nat) (f : Work → Work) : (s.modWork w f).dev = s.dev := rfl
@[simp] theorem State.modWork_thread (s : State) (w : Nat) (f : Work → Work) (i : Nat) : (s.modWork w f).thread i = s.thread i := rfl
@[simp] theorem State.modWork_group (s : State) (w : Nat) (f : Work → Work) (i : Nat) : (s.modWork w f).group i = s.group i := rfl
@[simp] theorem State.modWork_card (s : State) (w : Nat) (f : Work → Work) (i : Nat) : (s.modWork w f).card i = s.card i := rfl
@[simp] theorem State.modWork_die (s : State) (w : Nat) (f : Work → Work) (i : Nat) : (s.modWork w f).die i = s.die i := rfl
@[simp] theorem State.modWork_core (s : State) (w : Nat) (f : Work → Work) (i : Nat) : (s.modWork w f).core i = s.core i := rfl
@[simp] theorem State.modWork_ctx (s : State) (w : Nat) (f : Work → Work) (i : Nat) : (s.modWork w f).ctx i = s.ctx i := rfl

/-! ### modCard -/

@[simp] theorem State.modCard_sched (s : State) (c : Nat) (f : Card → Card) : (s.modCard c f).sched = s.sched := rfl
@[simp] theorem State.modCard_threads (s : State) (c : Nat) (f : Card → Card) : (s.modCard c f).threads = s.threads := rfl
@[simp] theorem State.modCard_groups (s : State) (c : Nat) (f : Card → Card) : (s.modCard c f).groups = s.groups := rfl
@[simp] theorem State.modCard_bundles (s : State) (c : Nat) (f : Card → Card) : (s.modCard c f).bundles = s.bundles := rfl
@[simp] theorem State.modCard_bins (s : State) (c : Nat) (f : Card → Card) : (s.modCard c f).bins = s.bins := rfl
@[simp] theorem State.modCard_works (s : State) (c : Nat) (f : Card → Card) : (s.modCard c f).works = s.works := rfl
@[simp] theorem State.modCard_ops (s : State) (c : Nat) (f : Card → Card) : (s.modCard c f).ops = s.ops := rfl
@[simp] theorem State.modCard_commits (s : State) (c : Nat) (f : Card → Card) : (s.modCard c f).commits = s.commits := rfl
@[simp] theorem State.modCard_cores (s : State) (c : Nat) (f : Card → Card) : (s.modCard c f).cores = s.cores := rfl
@[simp] theorem State.modCard_dies (s : State) (c : Nat) (f : Card → Card) : (s.modCard c f).dies = s.dies := rfl
@[simp] theorem State.modCard_homes (s : State) (c : Nat) (f : Card → Card) : (s.modCard c f).homes = s.homes := rfl
@[simp] theorem State.modCard_ctxs (s : State) (c : Nat) (f : Card → Card) : (s.modCard c f).ctxs = s.ctxs := rfl
@[simp] theorem State.modCard_dev (s : State) (c : Nat) (f : Card → Card) : (s.modCard c f).dev = s.dev := rfl
@[simp] theorem State.modCard_thread (s : State) (c : Nat) (f : Card → Card) (i : Nat) : (s.modCard c f).thread i = s.thread i := rfl
@[simp] theorem State.modCard_group (s : State) (c : Nat) (f : Card → Card) (i : Nat) : (s.modCard c f).group i = s.group i := rfl
@[simp] theorem State.modCard_work (s : State) (c : Nat) (f : Card → Card) (i : Nat) : (s.modCard c f).work i = s.work i := rfl
@[simp] theorem State.modCard_die (s : State) (c : Nat) (f : Card → Card) (i : Nat) : (s.modCard c f).die i = s.die i := rfl
@[simp] theorem State.modCard_core (s : State) (c : Nat) (f : Card → Card) (i : Nat) : (s.modCard c f).core i = s.core i := rfl
@[simp] theorem State.modCard_ctx (s : State) (c : Nat) (f : Card → Card) (i : Nat) : (s.modCard c f).ctx i = s.ctx i := rfl

/-! ### modCore -/

@[simp] theorem State.modCore_sched (s : State) (n : Nat) (f : Core → Core) : (s.modCore n f).sched = s.sched := rfl
@[simp] theorem State.modCore_threads (s : State) (n : Nat) (f : Core → Core) : (s.modCore n f).threads = s.threads := rfl
@[simp] theorem State.modCore_groups (s : State) (n : Nat) (f : Core → Core) : (s.modCore n f).groups = s.groups := rfl
@[simp] theorem State.modCore_bundles (s : State) (n : Nat) (f : Core → Core) : (s.modCore n f).bundles = s.bundles := rfl
@[simp] theorem State.modCore_bins (s : State) (n : Nat) (f : Core → Core) : (s.modCore n f).bins = s.bins := rfl
@[simp] theorem State.modCore_works (s : State) (n : Nat) (f : Core → Core) : (s.modCore n f).works = s.works := rfl
@[simp] theorem State.modCore_cards (s : State) (n : Nat) (f : Core → Core) : (s.modCore n f).cards = s.cards := rfl
@[simp] theorem State.modCore_ops (s : State) (n : Nat) (f : Core → Core) : (s.modCore n f).ops = s.ops := rfl
@[simp] theorem State.modCore_commits (s : State) (n : Nat) (f : Core → Core) : (s.modCore n f).commits = s.commits := rfl
@[simp] theorem State.modCore_dies (s : State) (n : Nat) (f : Core → Core) : (s.modCore n f).dies = s.dies := rfl
@[simp] theorem State.modCore_homes (s : State) (n : Nat) (f : Core → Core) : (s.modCore n f).homes = s.homes := rfl
@[simp] theorem State.modCore_ctxs (s : State) (n : Nat) (f : Core → Core) : (s.modCore n f).ctxs = s.ctxs := rfl
@[simp] theorem State.modCore_dev (s : State) (n : Nat) (f : Core → Core) : (s.modCore n f).dev = s.dev := rfl
@[simp] theorem State.modCore_thread (s : State) (n : Nat) (f : Core → Core) (i : Nat) : (s.modCore n f).thread i = s.thread i := rfl
@[simp] theorem State.modCore_group (s : State) (n : Nat) (f : Core → Core) (i : Nat) : (s.modCore n f).group i = s.group i := rfl
@[simp] theorem State.modCore_work (s : State) (n : Nat) (f : Core → Core) (i : Nat) : (s.modCore n f).work i = s.work i := rfl
@[simp] theorem State.modCore_card (s : State) (n : Nat) (f : Core → Core) (i : Nat) : (s.modCore n f).card i = s.card i := rfl
@[simp] theorem State.modCore_die (s : State) (n : Nat) (f : Core → Core) (i : Nat) : (s.modCore n f).die i = s.die i := rfl
@[simp] theorem State.modCore_ctx (s : State) (n : Nat) (f : Core → Core) (i : Nat) : (s.modCore n f).ctx i = s.ctx i := rfl

/-! ### modDie -/

@[simp] theorem State.modDie_sched (s : State) (d : Nat) (f : Die → Die) : (s.modDie d f).sched = s.sched := rfl
@[simp] theorem State.modDie_threads (s : State) (d : Nat) (f : Die → Die) : (s.modDie d f).threads = s.threads := rfl
@[simp] theorem State.modDie_groups (s : State) (d : Nat) (f : Die → Die) : (s.modDie d f).groups = s.groups := rfl
@[simp] theorem State.modDie_bundles (s : State) (d : Nat) (f : Die → Die) : (s.modDie d f).bundles = s.bundles := rfl
@[simp] theorem State.modDie_bins (s : State) (d : Nat) (f : Die → Die) : (s.modDie d f).bins = s.bins := rfl
@[simp] theorem State.modDie_works (s : State) (d : Nat) (f : Die → Die) : (s.modDie d f).works = s.works := rfl
@[simp] theorem State.modDie_cards (s : State) (d : Nat) (f : Die → Die) : (s.modDie d f).cards = s.cards := rfl
@[simp] theorem State.modDie_ops (s : State) (d : Nat) (f : Die → Die) : (s.modDie d f).ops = s.ops := rfl
@[simp] theorem State.modDie_commits (s : State) (d : Nat) (f : Die → Die) : (s.modDie d f).commits = s.commits := rfl
@[simp] theorem State.modDie_cores (s : State) (d : Nat) (f : Die → Die) : (s.modDie d f).cores = s.cores := rfl
@[simp] theorem State.modDie_homes (s : State) (d : Nat) (f : Die → Die) : (s.modDie d f).homes = s.homes := rfl
@[simp] theorem State.modDie_ctxs (s : State) (d : Nat) (f : Die → Die) : (s.modDie d f).ctxs = s.ctxs := rfl
@[simp] theorem State.modDie_dev (s : State) (d : Nat) (f : Die → Die) : (s.modDie d f).dev = s.dev := rfl
@[simp] theorem State.modDie_thread (s : State) (d : Nat) (f : Die → Die) (i : Nat) : (s.modDie d f).thread i = s.thread i := rfl
@[simp] theorem State.modDie_group (s : State) (d : Nat) (f : Die → Die) (i : Nat) : (s.modDie d f).group i = s.group i := rfl
@[simp] theorem State.modDie_work (s : State) (d : Nat) (f : Die → Die) (i : Nat) : (s.modDie d f).work i = s.work i := rfl
@[simp] theorem State.modDie_card (s : State) (d : Nat) (f : Die → Die) (i : Nat) : (s.modDie d f).card i = s.card i := rfl
@[simp] theorem State.modDie_ctx (s : State) (d : Nat) (f : Die → Die) (i : Nat) : (s.modDie d f).ctx i = s.ctx i := rfl

/-! ### modCtx -/

@[simp] theorem State.modCtx_sched (s : State) (c : Nat) (f : Context → Context) : (s.modCtx c f).sched = s.sched := rfl
@[simp] theorem State.modCtx_threads (s : State) (c : Nat) (f : Context → Context) : (s.modCtx c f).threads = s.threads := rfl
@[simp] theorem State.modCtx_groups (s : State) (c : Nat) (f : Context → Context) : (s.modCtx c f).groups = s.groups := rfl
@[simp] theorem State.modCtx_bundles (s : State) (c : Nat) (f : Context → Context) : (s.modCtx c f).bundles = s.bundles := rfl
@[simp] theorem State.modCtx_bins (s : State) (c : Nat) (f : Context → Context) : (s.modCtx c f).bins = s.bins := rfl
@[simp] theorem State.modCtx_works (s : State) (c : Nat) (f : Context → Context) : (s.modCtx c f).works = s.works := rfl
@[simp] theorem State.modCtx_cards (s : State) (c : Nat) (f : Context → Context) : (s.modCtx c f).cards = s.cards := rfl
@[simp] theorem State.modCtx_ops (s : State) (c : Nat) (f : Context → Context) : (s.modCtx c f).ops = s.ops := rfl
@[simp] theorem State.modCtx_commits (s : State) (c : Nat) (f : Context → Context) : (s.modCtx c f).commits = s.commits := rfl
@[simp] theorem State.modCtx_cores (s : State) (c : Nat) (f : Context → Context) : (s.modCtx c f).cores = s.cores := rfl
@[simp] theorem State.modCtx_dies (s : State) (c : Nat) (f : Context → Context) : (s.modCtx c f).dies = s.dies := rfl
@[simp] theorem State.modCtx_homes (s : State) (c : Nat) (f : Context → Context) : (s.modCtx c f).homes = s.homes := rfl
@[simp] theorem State.modCtx_dev (s : State) (c : Nat) (f : Context → Context) : (s.modCtx c f).dev = s.dev := rfl
@[simp] theorem State.modCtx_thread (s : State) (c : Nat) (f : Context → Context) (i : Nat) : (s.modCtx c f).thread i = s.thread i := rfl
@[simp] theorem State.modCtx_group (s : State) (c : Nat) (f : Context → Context) (i : Nat) : (s.modCtx c f).group i = s.group i := rfl
@[simp] theorem State.modCtx_work (s : State) (c : Nat) (f : Context → Context) (i : Nat) : (s.modCtx c f).work i = s.work i := rfl
@[simp] theorem State.modCtx_card (s : State) (c : Nat) (f : Context → Context) (i : Nat) : (s.modCtx c f).card i = s.card i := rfl
@[simp] theorem State.modCtx_die (s : State) (c : Nat) (f : Context → Context) (i : Nat) : (s.modCtx c f).die i = s.die i := rfl
@[simp] theorem State.modCtx_core (s : State) (c : Nat) (f : Context → Context) (i : Nat) : (s.modCtx c f).core i = s.core i := rfl

/-! ### modHomes -/

@[simp] theorem State.modHomes_sched (s : State) (f : Homes → Homes) : (s.modHomes f).sched = s.sched := rfl
@[simp] theorem State.modHomes_threads (s : State) (f : Homes → Homes) : (s.modHomes f).threads = s.threads := rfl
@[simp] theorem State.modHomes_groups (s : State) (f : Homes → Homes) : (s.modHomes f).groups = s.groups := rfl
@[simp] theorem State.modHomes_bundles (s : State) (f : Homes → Homes) : (s.modHomes f).bundles = s.bundles := rfl
@[simp] theorem State.modHomes_bins (s : State) (f : Homes → Homes) : (s.modHomes f).bins = s.bins := rfl
@[simp] theorem State.modHomes_works (s : State) (f : Homes → Homes) : (s.modHomes f).works = s.works := rfl
@[simp] theorem State.modHomes_cards (s : State) (f : Homes → Homes) : (s.modHomes f).cards = s.cards := rfl
@[simp] theorem State.modHomes_ops (s : State) (f : Homes → Homes) : (s.modHomes f).ops = s.ops := rfl
@[simp] theorem State.modHomes_commits (s : State) (f : Homes → Homes) : (s.modHomes f).commits = s.commits := rfl
@[simp] theorem State.modHomes_cores (s : State) (f : Homes → Homes) : (s.modHomes f).cores = s.cores := rfl
@[simp] theorem State.modHomes_dies (s : State) (f : Homes → Homes) : (s.modHomes f).dies = s.dies := rfl
@[simp] theorem State.modHomes_ctxs (s : State) (f : Homes → Homes) : (s.modHomes f).ctxs = s.ctxs := rfl
@[simp] theorem State.modHomes_dev (s : State) (f : Homes → Homes) : (s.modHomes f).dev = s.dev := rfl
@[simp] theorem State.modHomes_homes (s : State) (f : Homes → Homes) : (s.modHomes f).homes = f s.homes := rfl
@[simp] theorem State.modHomes_thread (s : State) (f : Homes → Homes) (i : Nat) : (s.modHomes f).thread i = s.thread i := rfl
@[simp] theorem State.modHomes_group (s : State) (f : Homes → Homes) (i : Nat) : (s.modHomes f).group i = s.group i := rfl
@[simp] theorem State.modHomes_work (s : State) (f : Homes → Homes) (i : Nat) : (s.modHomes f).work i = s.work i := rfl
@[simp] theorem State.modHomes_card (s : State) (f : Homes → Homes) (i : Nat) : (s.modHomes f).card i = s.card i := rfl
@[simp] theorem State.modHomes_die (s : State) (f : Homes → Homes) (i : Nat) : (s.modHomes f).die i = s.die i := rfl
@[simp] theorem State.modHomes_core (s : State) (f : Homes → Homes) (i : Nat) : (s.modHomes f).core i = s.core i := rfl
@[simp] theorem State.modHomes_ctx (s : State) (f : Homes → Homes) (i : Nat) : (s.modHomes f).ctx i = s.ctx i := rfl

/-! ### modDev -/

@[simp] theorem State.modDev_sched (s : State) (f : Device → Device) : (s.modDev f).sched = s.sched := rfl
@[simp] theorem State.modDev_threads (s : State) (f : Device → Device) : (s.modDev f).threads = s.threads := rfl
@[simp] theorem State.modDev_groups (s : State) (f : Device → Device) : (s.modDev f).groups = s.groups := rfl
@[simp] theorem State.modDev_bundles (s : State) (f : Device → Device) : (s.modDev f).bundles = s.bundles := rfl
@[simp] theorem State.modDev_bins (s : State) (f : Device → Device) : (s.modDev f).bins = s.bins := rfl
@[simp] theorem State.modDev_works (s : State) (f : Device → Device) : (s.modDev f).works = s.works := rfl
@[simp] theorem State.modDev_cards (s : State) (f : Device → Device) : (s.modDev f).cards = s.cards := rfl
@[simp] theorem State.modDev_ops (s : State) (f : Device → Device) : (s.modDev f).ops = s.ops := rfl
@[simp] theorem State.modDev_commits (s : State) (f : Device → Device) : (s.modDev f).commits = s.commits := rfl
@[simp] theorem State.modDev_cores (s : State) (f : Device → Device) : (s.modDev f).cores = s.cores := rfl
@[simp] theorem State.modDev_dies (s : State) (f : Device → Device) : (s.modDev f).dies = s.dies := rfl
@[simp] theorem State.modDev_homes (s : State) (f : Device → Device) : (s.modDev f).homes = s.homes := rfl
@[simp] theorem State.modDev_ctxs (s : State) (f : Device → Device) : (s.modDev f).ctxs = s.ctxs := rfl
@[simp] theorem State.modDev_dev (s : State) (f : Device → Device) : (s.modDev f).dev = f s.dev := rfl
@[simp] theorem State.modDev_thread (s : State) (f : Device → Device) (i : Nat) : (s.modDev f).thread i = s.thread i := rfl
@[simp] theorem State.modDev_group (s : State) (f : Device → Device) (i : Nat) : (s.modDev f).group i = s.group i := rfl
@[simp] theorem State.modDev_work (s : State) (f : Device → Device) (i : Nat) : (s.modDev f).work i = s.work i := rfl
@[simp] theorem State.modDev_card (s : State) (f : Device → Device) (i : Nat) : (s.modDev f).card i = s.card i := rfl
@[simp] theorem State.modDev_die (s : State) (f : Device → Device) (i : Nat) : (s.modDev f).die i = s.die i := rfl
@[simp] theorem State.modDev_core (s : State) (f : Device → Device) (i : Nat) : (s.modDev f).core i = s.core i := rfl
@[simp] theorem State.modDev_ctx (s : State) (f : Device → Device) (i : Nat) : (s.modDev f).ctx i = s.ctx i := rfl

/-! ### modSched -/

@[simp] theorem State.modSched_threads (s : State) (f : Sched → Sched) : (s.modSched f).threads = s.threads := rfl
@[simp] theorem State.modSched_groups (s : State) (f : Sched → Sched) : (s.modSched f).groups = s.groups := rfl
@[simp] theorem State.modSched_bundles (s : State) (f : Sched → Sched) : (s.modSched f).bundles = s.bundles := rfl
@[simp] theorem State.modSched_bins (s : State) (f : Sched → Sched) : (s.modSched f).bins = s.bins := rfl
@[simp] theorem State.modSched_works (s : State) (f : Sched → Sched) : (s.modSched f).works = s.works := rfl
@[simp] theorem State.modSched_cards (s : State) (f : Sched → Sched) : (s.modSched f).cards = s.cards := rfl
@[simp] theorem State.modSched_ops (s : State) (f : Sched → Sched) : (s.modSched f).ops = s.ops := rfl
@[simp] theorem State.modSched_commits (s : State) (f : Sched → Sched) : (s.modSched f).commits = s.commits := rfl
@[simp] theorem State.modSched_cores (s : State) (f : Sched → Sched) : (s.modSched f).cores = s.cores := rfl
@[simp] theorem State.modSched_dies (s : State) (f : Sched → Sched) : (s.modSched f).dies = s.dies := rfl
@[simp] theorem State.modSched_homes (s : State) (f : Sched → Sched) : (s.modSched f).homes = s.homes := rfl
@[simp] theorem State.modSched_ctxs (s : State) (f : Sched → Sched) : (s.modSched f).ctxs = s.ctxs := rfl
@[simp] theorem State.modSched_dev (s : State) (f : Sched → Sched) : (s.modSched f).dev = s.dev := rfl
@[simp] theorem State.modSched_sched (s : State) (f : Sched → Sched) : (s.modSched f).sched = f s.sched := rfl
@[simp] theorem State.modSched_thread (s : State) (f : Sched → Sched) (i : Nat) : (s.modSched f).thread i = s.thread i := rfl
@[simp] theorem State.modSched_group (s : State) (f : Sched → Sched) (i : Nat) : (s.modSched f).group i = s.group i := rfl
@[simp] theorem State.modSched_work (s : State) (f : Sched → Sched) (i : Nat) : (s.modSched f).work i = s.work i := rfl
@[simp] theorem State.modSched_card (s : State) (f : Sched → Sched) (i : Nat) : (s.modSched f).card i = s.card i := rfl
@[simp] theorem State.modSched_die (s : State) (f : Sched → Sched) (i : Nat) : (s.modSched f).die i = s.die i := rfl
@[simp] theorem State.modSched_core (s : State) (f : Sched → Sched) (i : Nat) : (s.modSched f).core i = s.core i := rfl
@[simp] theorem State.modSched_ctx (s : State) (f : Sched → Sched) (i : Nat) : (s.modSched f).ctx i = s.ctx i := rfl

/-! ### Reading back what was changed -/

theorem State.find_modThread (s : State) (t u : Nat) (f : Thread → Thread) :
    (s.modThread t f).threads.find u = if u = t then (s.threads.find u).map f else s.threads.find u :=
  Tbl.find_upd s.threads t u f

theorem State.find_modGroup (s : State) (g u : Nat) (f : Group → Group) :
    (s.modGroup g f).groups.find u = if u = g then (s.groups.find u).map f else s.groups.find u :=
  Tbl.find_upd s.groups g u f

theorem State.find_modWork (s : State) (w u : Nat) (f : Work → Work) :
    (s.modWork w f).works.find u = if u = w then (s.works.find u).map f else s.works.find u :=
  Tbl.find_upd s.works w u f

theorem State.find_modBundle (s : State) (b u : Nat) (f : Bundle → Bundle) :
    (s.modBundle b f).bundles.find u = if u = b then (s.bundles.find u).map f else s.bundles.find u :=
  Tbl.find_upd s.bundles b u f

theorem State.find_modCard (s : State) (c u : Nat) (f : Card → Card) :
    (s.modCard c f).cards.find u = if u = c then (s.cards.find u).map f else s.cards.find u :=
  Tbl.find_upd s.cards c u f

theorem State.thread_modThread (s : State) (t u : Nat) (f : Thread → Thread) (h : (s.threads.find t).isSome) :
    (s.modThread t f).thread u = if u = t then f (s.thread t) else s.thread u := by
  unfold State.thread Tbl.getD
  rw [State.find_modThread]
  split
  · subst_vars; obtain ⟨x, hx⟩ := Option.isSome_iff_exists.mp h; simp [hx]
  · rfl

theorem State.core_modCore (s : State) (n u : Nat) (f : Core → Core) :
    (s.modCore n f).core u = if u = n then f (s.core n) else s.core u := by
  unfold State.core State.modCore Tbl.getD
  simp only [Tbl.find_put]
  split
  · subst_vars; rfl
  · rfl

theorem State.ctx_modCtx (s : State) (c u : Nat) (f : Context → Context) :
    (s.modCtx c f).ctx u = if u = c then f (s.ctx c) else s.ctx u := by
  unfold State.ctx State.modCtx Tbl.getD
  simp only [Tbl.find_put]
  split
  · subst_vars; rfl
  · rfl

theorem State.die_modDie (s : State) (d u : Nat) (f : Die → Die) (h : d < 4) :
    (s.modDie d f).die u = if u = d then f (s.die d) else s.die u := by
  unfold State.die State.modDie
  simp only [Vector.getD, Array.getD, Vector.size_toArray]
  by_cases hu : u < 4
  · by_cases hd : u = d
    · subst hd; simp [hu]
    · simp [hu, hd]
  · have hd : u ≠ d := by omega
    simp [hu, hd]

end Sys2Proof.Machine
end

