-- ==== Sys2Proof/Laws/Still.lean ====
section
/-! SUPPORT. The operations of issue leave the rest of the machine still. -/

namespace Sys2Proof.Machine

theorem Still.refl (s : State) : Still s s := by constructor <;> intros <;> rfl

theorem Still.trans {s u v : State} (h : Still s u) (k : Still u v) : Still s v := by
  constructor
  · intro t; rw [k.threads, h.threads]
  · intro n; rw [k.cores, h.cores]
  · intro w; rw [k.works, h.works]
  · rw [k.groups, h.groups]
  · rw [k.bins, h.bins]
  · rw [k.cards, h.cards]
  · rw [k.ops, h.ops]
  · rw [k.commits, h.commits]
  · rw [k.dies, h.dies]
  · rw [k.homes, h.homes]
  · rw [k.ctxs, h.ctxs]
  · rw [k.dev, h.dev]
  · rw [k.agenda, h.agenda]
  · rw [k.issue, h.issue]
  · rw [k.cur, h.cur]
  · rw [k.draw, h.draw]
  · rw [k.tick, h.tick]

/-- A fold of still changes is still. -/
theorem Still.foldl {α : Type} (f : State → α → State) (hf : ∀ s x, Still s (f s x)) (xs : List α) (s : State) :
    Still s (xs.foldl f s) := by
  induction xs generalizing s with
  | nil => exact Still.refl s
  | cons x xs ih => exact (hf s x).trans (ih _)

/-- A fold of still changes after a still change is still. -/
theorem Still.fold {α : Type} {s u : State} {f : State → α → State} {xs : List α} (hf : ∀ s x, Still s (f s x))
    (h : Still s u) : Still s (xs.foldl f u) := h.trans (Still.foldl f hf xs u)

theorem Still.modThread (s : State) (t : Nat) (f : Thread → Thread) (hf : ∀ th, (f th).shown = th.shown) :
    Still s (s.modThread t f) := by
  constructor <;> intros <;> try rfl
  rw [State.find_modThread]
  split
  · cases s.threads.find _ <;> simp [hf]
  · rfl

theorem Still.modBundle (s : State) (b : Nat) (f : Bundle → Bundle) : Still s (s.modBundle b f) := by
  constructor <;> intros <;> rfl

theorem Still.bundles (s : State) (b : Tbl Bundle) : Still s { s with bundles := b } := by
  constructor <;> intros <;> rfl

theorem Still.nextId (s : State) (n : Nat) : Still s (s.modSched fun c => { c with nextId := n }) := by
  constructor <;> intros <;> rfl

theorem Still.modCore (s : State) (n : Nat) (f : Core → Core) (hf : ∀ c, (f c).shown = c.shown) :
    Still s (s.modCore n f) := by
  constructor <;> intros <;> try rfl
  rw [State.core_modCore]
  split
  · subst_vars; exact hf _
  · rfl

theorem Still.modWork (s : State) (w : Nat) (f : Work → Work) (hf : ∀ x, (f x).shown = x.shown) :
    Still s (s.modWork w f) := by
  constructor <;> intros <;> try rfl
  rw [State.find_modWork]
  split
  · cases s.works.find _ <;> simp [hf]
  · rfl

theorem Still.occupy (s : State) (gc : Nat) (ls : List Nat) (u : Nat) : Still s (s.occupy gc ls u) :=
  Still.modCore _ _ _ fun _ => rfl

theorem Still.oneBundle (s : State) (ts : List Nat) (g : Option Nat) (b : Nat) : Still s (s.oneBundle ts g b) := by
  unfold State.oneBundle
  cases ts with
  | nil => exact Still.refl s
  | cons t r =>
    refine ((Still.nextId s _).trans (Still.bundles _ _)).trans (Still.foldl _ (fun s x => ?_) _ _)
    exact Still.modThread _ _ _ fun _ => rfl

theorem Still.newBundle (s : State) (ts : List Nat) (g : Option Nat) (b : Nat) : Still s (s.newBundle ts g b) := by
  unfold State.newBundle
  cases ts with
  | nil => exact Still.refl s
  | cons t r =>
    dsimp only
    split
    · exact Still.foldl _ (fun s x => Still.oneBundle _ _ _ _) _ _
    · exact Still.oneBundle _ _ _ _

theorem Still.keepLead (s : State) (ts : List Nat) (l : BitVec 4) (n : Nat) : Still s (s.keepLead ts l n) :=
  Still.foldl _ (fun s _ => Still.modBundle s _ _) _ _

theorem Still.partition (s : State) (b : Nat) : Still s (s.partition b) := by
  unfold State.partition
  refine Still.fold (fun s p => ?_) (Still.fold (fun s t => Still.modThread _ _ _ fun _ => rfl) (Still.bundles s _))
  cases p with
  | nil => exact Still.refl s
  | cons t r => exact (Still.newBundle _ _ _ _).trans (Still.keepLead _ _ _ _)

/-- Looking at a bundle after a word changes the bookkeeping of issue alone (R289). -/
theorem Still.sync (s : State) (b : Nat) : Still s (s.sync b) := by
  unfold State.sync
  dsimp only
  split
  · exact Still.refl s
  · have h1 (ts : List Nat) (s : State) : Still s (ts.foldl (fun s t => s.modThread t fun th => { th with done := false }) s) :=
      Still.fold (fun s x => Still.modThread _ _ _ fun _ => rfl) (Still.refl _)
    have h2 (gs : List (Nat × Bundle)) (s : State) : Still s (gs.foldl (fun s nb =>
        s.occupy (nb.2.die * 64 + nb.2.core) (s.lanesOf nb.2.tids) nb.2.busy) s) :=
      Still.fold (fun s x => Still.occupy _ _ _ _) (Still.refl _)
    have h3 (gs : List (Nat × Bundle)) (s : State) : Still s (gs.foldl (fun s nb =>
        s.modBundle nb.1 fun x => { x with serial := x.serial + 1 }) s) :=
      Still.fold (fun s x => Still.modBundle _ _ _) (Still.refl _)
    have h := fun ts gs => ((h1 ts s).trans (h2 gs _)).trans (h3 gs _)
    split
    · exact h _ _
    · exact (h _ _).trans (Still.partition _ _)

/-- A word's occupancy is bookkeeping of issue (R350, R377). -/
theorem Still.charge (s : State) (t : Nat) (p : Pos) (k : Cost) (i : Nat) (l u : Bool) : Still s (s.charge t p k i l u) := by
  unfold State.charge
  refine (Still.modBundle s _ _).trans ((Still.occupy _ _ _ _).trans (Still.modCore _ _ _ fun c => ?_))
  simp only [Core.shown]

theorem Still.retire (s : State) (t : Nat) (p : Pos) : Still s (s.retire t p) :=
  Still.modWork _ _ _ fun _ => rfl

theorem Still.endInterval (s : State) (w : Nat) : Still s (s.endInterval w) :=
  Still.modWork _ _ _ fun _ => rfl

/-- Changing one thread of two still states gives still states. -/
theorem Still.congr {s u : State} (h : Still s u) (t : Nat) (f : Thread → Thread)
    (hf : ∀ a b, a.shown = b.shown → (f a).shown = (f b).shown) : Still (s.modThread t f) (u.modThread t f) := by
  constructor
  · intro x
    rw [State.find_modThread, State.find_modThread]
    have := h.threads x
    split
    · cases hu : u.threads.find x <;> cases hs : s.threads.find x <;> simp_all
      exact hf _ _ this
    · exact this
  · exact h.cores
  · exact h.works
  · exact h.groups
  · exact h.bins
  · exact h.cards
  · exact h.ops
  · exact h.commits
  · exact h.dies
  · exact h.homes
  · exact h.ctxs
  · exact h.dev
  · exact h.agenda
  · exact h.issue
  · exact h.cur
  · exact h.draw
  · exact h.tick

end Sys2Proof.Machine
end

