-- ==== Sys2Proof/Laws/Shell.lean ====
section
/-! SUPPORT. Everything the shell of a word does: it passes the word, holds, or takes a cause. -/

namespace Sys2Proof.Machine

theorem Thread.shown_inj {a b : Thread} (h : a.shown = b.shown) :
    a = { b with done := a.done, bundle := a.bundle, place := a.place } := by
  cases a; cases b; simp_all [Thread.shown]

theorem State.modThread_congr (s : State) (t : Nat) (f g : Thread → Thread)
    (h : ∀ th, s.threads.find t = some th → f th = g th) : s.modThread t f = s.modThread t g := by
  unfold State.modThread Tbl.upd
  cases hs : s.threads.find t with
  | none => rfl
  | some th => simp [h th hs]

theorem State.thread_of_find {s : State} {t : Nat} {th : Thread} (h : s.threads.find t = some th) : s.thread t = th := by
  simp [State.thread, Tbl.getD, h]

@[simp] theorem Thread.goTo_id (th : Thread) (pc : Nat) : (th.goTo pc).id = th.id := rfl
@[simp] theorem Thread.goTo_regs (th : Thread) (pc : Nat) : (th.goTo pc).regs = th.regs := rfl
@[simp] theorem Thread.goTo_cnt (th : Thread) (pc : Nat) : (th.goTo pc).cnt = th.cnt := rfl
@[simp] theorem Thread.goTo_sck (th : Thread) (pc : Nat) : (th.goTo pc).sck = th.sck := rfl
@[simp] theorem Thread.goTo_sckNext (th : Thread) (pc : Nat) : (th.goTo pc).sckNext = th.sckNext := rfl
@[simp] theorem Thread.goTo_cyc (th : Thread) (pc : Nat) : (th.goTo pc).cyc = th.cyc := rfl
@[simp] theorem Thread.goTo_view (th : Thread) (pc : Nat) : (th.goTo pc).view = th.view := rfl
@[simp] theorem Thread.goTo_txwhy (th : Thread) (pc : Nat) : (th.goTo pc).txwhy = th.txwhy := rfl
@[simp] theorem Thread.goTo_txstamp (th : Thread) (pc : Nat) : (th.goTo pc).txstamp = th.txstamp := rfl
@[simp] theorem Thread.goTo_xcrc (th : Thread) (pc : Nat) : (th.goTo pc).xcrc = th.xcrc := rfl
@[simp] theorem Thread.goTo_h0 (th : Thread) (pc : Nat) : (th.goTo pc).h0 = th.h0 := rfl
@[simp] theorem Thread.goTo_h1 (th : Thread) (pc : Nat) : (th.goTo pc).h1 = th.h1 := rfl
@[simp] theorem Thread.goTo_trap (th : Thread) (pc : Nat) : (th.goTo pc).trap = th.trap := rfl
@[simp] theorem Thread.goTo_dec (th : Thread) (pc : Nat) : (th.goTo pc).dec = th.dec := rfl
@[simp] theorem Thread.goTo_trial (th : Thread) (pc : Nat) : (th.goTo pc).trial = th.trial := rfl
@[simp] theorem Thread.goTo_deferred (th : Thread) (pc : Nat) : (th.goTo pc).deferred = th.deferred := rfl
@[simp] theorem Thread.goTo_budgetDue (th : Thread) (pc : Nat) : (th.goTo pc).budgetDue = th.budgetDue := rfl
@[simp] theorem Thread.goTo_arrived (th : Thread) (pc : Nat) : (th.goTo pc).arrived = th.arrived := rfl
@[simp] theorem Thread.goTo_iter (th : Thread) (pc : Nat) : (th.goTo pc).iter = th.iter := rfl
@[simp] theorem Thread.goTo_place (th : Thread) (pc : Nat) : (th.goTo pc).place = th.place := rfl
@[simp] theorem Thread.goTo_done (th : Thread) (pc : Nat) : (th.goTo pc).done = th.done := rfl
@[simp] theorem Thread.goTo_hold (th : Thread) (pc : Nat) : (th.goTo pc).hold = th.hold := rfl
@[simp] theorem Thread.goTo_xlat (th : Thread) (pc : Nat) : (th.goTo pc).xlat = th.xlat := rfl
@[simp] theorem Thread.goTo_retry (th : Thread) (pc : Nat) : (th.goTo pc).retry = th.retry := rfl
@[simp] theorem Thread.goTo_checked (th : Thread) (pc : Nat) : (th.goTo pc).checked = th.checked := rfl
@[simp] theorem Thread.goTo_missed (th : Thread) (pc : Nat) : (th.goTo pc).missed = th.missed := rfl
@[simp] theorem Thread.goTo_since (th : Thread) (pc : Nat) : (th.goTo pc).since = th.since := rfl
@[simp] theorem Thread.goTo_stage (th : Thread) (pc : Nat) : (th.goTo pc).stage = th.stage := rfl
@[simp] theorem Thread.goTo_part (th : Thread) (pc : Nat) : (th.goTo pc).part = th.part := rfl
@[simp] theorem Thread.goTo_bundle (th : Thread) (pc : Nat) : (th.goTo pc).bundle = th.bundle := rfl

@[simp] theorem Thread.advance_id (th : Thread) (e : Nat) : (th.advance e).id = th.id := by
  unfold Thread.advance; dsimp only; split <;> rfl
@[simp] theorem Thread.advance_regs (th : Thread) (e : Nat) : (th.advance e).regs = th.regs := by
  unfold Thread.advance; dsimp only; split <;> rfl
@[simp] theorem Thread.advance_cnt (th : Thread) (e : Nat) : (th.advance e).cnt = th.cnt := by
  unfold Thread.advance; dsimp only; split <;> rfl
@[simp] theorem Thread.advance_sck (th : Thread) (e : Nat) : (th.advance e).sck = th.sck := by
  unfold Thread.advance; dsimp only; split <;> rfl
@[simp] theorem Thread.advance_sckNext (th : Thread) (e : Nat) : (th.advance e).sckNext = th.sckNext := by
  unfold Thread.advance; dsimp only; split <;> rfl
@[simp] theorem Thread.advance_cyc (th : Thread) (e : Nat) : (th.advance e).cyc = th.cyc := by
  unfold Thread.advance; dsimp only; split <;> rfl
@[simp] theorem Thread.advance_view (th : Thread) (e : Nat) : (th.advance e).view = th.view := by
  unfold Thread.advance; dsimp only; split <;> rfl
@[simp] theorem Thread.advance_txwhy (th : Thread) (e : Nat) : (th.advance e).txwhy = th.txwhy := by
  unfold Thread.advance; dsimp only; split <;> rfl
@[simp] theorem Thread.advance_txstamp (th : Thread) (e : Nat) : (th.advance e).txstamp = th.txstamp := by
  unfold Thread.advance; dsimp only; split <;> rfl
@[simp] theorem Thread.advance_xcrc (th : Thread) (e : Nat) : (th.advance e).xcrc = th.xcrc := by
  unfold Thread.advance; dsimp only; split <;> rfl
@[simp] theorem Thread.advance_h0 (th : Thread) (e : Nat) : (th.advance e).h0 = th.h0 := by
  unfold Thread.advance; dsimp only; split <;> rfl
@[simp] theorem Thread.advance_h1 (th : Thread) (e : Nat) : (th.advance e).h1 = th.h1 := by
  unfold Thread.advance; dsimp only; split <;> rfl
@[simp] theorem Thread.advance_trap (th : Thread) (e : Nat) : (th.advance e).trap = th.trap := by
  unfold Thread.advance; dsimp only; split <;> rfl
@[simp] theorem Thread.advance_dec (th : Thread) (e : Nat) : (th.advance e).dec = th.dec := by
  unfold Thread.advance; dsimp only; split <;> rfl
@[simp] theorem Thread.advance_trial (th : Thread) (e : Nat) : (th.advance e).trial = th.trial := by
  unfold Thread.advance; dsimp only; split <;> rfl
@[simp] theorem Thread.advance_deferred (th : Thread) (e : Nat) : (th.advance e).deferred = th.deferred := by
  unfold Thread.advance; dsimp only; split <;> rfl
@[simp] theorem Thread.advance_budgetDue (th : Thread) (e : Nat) : (th.advance e).budgetDue = th.budgetDue := by
  unfold Thread.advance; dsimp only; split <;> rfl
@[simp] theorem Thread.advance_arrived (th : Thread) (e : Nat) : (th.advance e).arrived = th.arrived := by
  unfold Thread.advance; dsimp only; split <;> rfl
@[simp] theorem Thread.advance_iter (th : Thread) (e : Nat) : (th.advance e).iter = th.iter := by
  unfold Thread.advance; dsimp only; split <;> rfl
@[simp] theorem Thread.advance_place (th : Thread) (e : Nat) : (th.advance e).place = th.place := by
  unfold Thread.advance; dsimp only; split <;> rfl
@[simp] theorem Thread.advance_done (th : Thread) (e : Nat) : (th.advance e).done = th.done := by
  unfold Thread.advance; dsimp only; split <;> rfl
@[simp] theorem Thread.advance_hold (th : Thread) (e : Nat) : (th.advance e).hold = th.hold := by
  unfold Thread.advance; dsimp only; split <;> rfl
@[simp] theorem Thread.advance_xlat (th : Thread) (e : Nat) : (th.advance e).xlat = th.xlat := by
  unfold Thread.advance; dsimp only; split <;> rfl
@[simp] theorem Thread.advance_retry (th : Thread) (e : Nat) : (th.advance e).retry = th.retry := by
  unfold Thread.advance; dsimp only; split <;> rfl
@[simp] theorem Thread.advance_checked (th : Thread) (e : Nat) : (th.advance e).checked = th.checked := by
  unfold Thread.advance; dsimp only; split <;> rfl
@[simp] theorem Thread.advance_missed (th : Thread) (e : Nat) : (th.advance e).missed = th.missed := by
  unfold Thread.advance; dsimp only; split <;> rfl
@[simp] theorem Thread.advance_since (th : Thread) (e : Nat) : (th.advance e).since = th.since := by
  unfold Thread.advance; dsimp only; split <;> rfl
@[simp] theorem Thread.advance_stage (th : Thread) (e : Nat) : (th.advance e).stage = th.stage := by
  unfold Thread.advance; dsimp only; split <;> rfl
@[simp] theorem Thread.advance_part (th : Thread) (e : Nat) : (th.advance e).part = th.part := by
  unfold Thread.advance; dsimp only; split <;> rfl
@[simp] theorem Thread.advance_bundle (th : Thread) (e : Nat) : (th.advance e).bundle = th.bundle := by
  unfold Thread.advance; dsimp only; split <;> rfl

theorem Thread.finish_eq (th : Thread) (e : Nat) (he : ∀ r, th.trial = some r → r.ending = none) (moved : Bool) :
    th.finish e th.inTrial moved =
      { (if moved then th.burn.settle else th.past e) with done := true } := by
  unfold Thread.finish Thread.past Thread.settle Thread.burn Thread.newWord
  cases ht : th.trial with
  | none =>
    cases moved
    all_goals simp [Thread.inTrial, ht]
  | some r =>
    have := he r ht
    cases hi : th.inTrial <;> cases moved <;> simp [ht, this]

theorem Thread.finish_shown {a b : Thread} (h : a.shown = b.shown) (e : Nat) (f m : Bool) :
    (a.finish e f m).shown = (b.finish e f m).shown := by
  rw [Thread.shown_inj h]
  unfold Thread.finish
  cases ht : b.trial with
  | none =>
    cases f <;> cases m <;> simp [Thread.shown, Thread.newWord, Thread.advance, Thread.goTo, Thread.nextHeader, Thread.inTrial, ht]
    all_goals (split <;> simp)
  | some r =>
    cases hs : r.susp <;> cases he : r.ending <;> cases f <;> cases m <;>
      simp [Thread.shown, Thread.newWord, Thread.advance, Thread.goTo, Thread.nextHeader, Thread.inTrial, ht, hs, he]
    all_goals (split <;> simp [he])

/-- A still change after a thread's change, the thread's bundle bookkeeping aside. -/
theorem Still.modThread_shown {s : State} {t : Nat} {f g : Thread → Thread}
    (h : ∀ th, s.threads.find t = some th → (g th).shown = (f th).shown) : Still (s.modThread t f) (s.modThread t g) := by
  constructor <;> intros <;> try rfl
  rw [State.find_modThread, State.find_modThread]
  split
  · rename_i u e
    cases hs : s.threads.find u with
    | none => rfl
    | some th => simp [h th (e ▸ hs)]
  · rfl

/-- What completing a word does to the machine (R22, R289, R319). -/
theorem State.complete_still (s : State) (t : Nat) (sh : Shell) (k : Cost) (p : Pos) (f useful moved : Bool)
    (hn : (s.thread t).retry = 0) (hf : f = (s.thread t).inTrial) (he : ∀ r, (s.thread t).trial = some r → r.ending = none) :
    Still (s.modThread t fun th => if moved then th.burn.settle else th.past sh.ext) (s.complete t sh k p f useful moved) := by
  unfold State.complete State.mismatches
  dsimp only
  rw [if_pos hn]
  refine Still.trans ?_ (Still.sync _ _)
  refine Still.trans (Still.modThread_shown (g := fun th => th.finish sh.ext f moved) fun th hs => ?_)
    (Still.congr ((Still.charge s t p _ sh.idle f useful).trans (Still.retire _ t p)) t _
      fun a b h => Thread.finish_shown h _ _ _)
  have hth := State.thread_of_find hs
  rw [hth] at hf he
  rw [hf, Thread.finish_eq th _ he]
  rfl

/-- A word that does not move its thread is passed. -/
theorem State.complete_passes (s : State) (sh : Shell) (k : Cost) (p : Pos) (f useful : Bool)
    (hn : (s.thread s.sched.cur).retry = 0) (hf : f = (s.thread s.sched.cur).inTrial) (he : ∀ r, (s.thread s.sched.cur).trial = some r → r.ending = none) :
    Passes s (s.complete s.sched.cur sh k p f useful false) sh.ext :=
  s.complete_still s.sched.cur sh k p f useful false hn hf he

/-- A word that moves its thread leaves it there. -/
theorem State.complete_arrives (s : State) (sh : Shell) (k : Cost) (p : Pos) (f useful : Bool)
    (hn : (s.thread s.sched.cur).retry = 0) (hf : f = (s.thread s.sched.cur).inTrial) (he : ∀ r, (s.thread s.sched.cur).trial = some r → r.ending = none) :
    Arrives s (s.complete s.sched.cur sh k p f useful true) :=
  s.complete_still s.sched.cur sh k p f useful true hn hf he

/-- The conditions before a candidate's word hold. -/
theorem State.able_check {s : State} {sh : Shell} (h : s.able sh.ng sh.banned sh.rel sh.recs) :
    (s.thread s.sched.cur).trialCheck sh = none := by
  obtain ⟨-, -, -, h⟩ := h
  unfold Thread.trialCheck
  cases ht : (s.thread s.sched.cur).trial with
  | none => rfl
  | some r =>
    cases hs : r.susp with
    | true => simp [hs]
    | false =>
      obtain ⟨hb, hr, hf⟩ := (h r ht).2 hs
      have : (sh.recs.any fun x => x.val ≥ 64 || !(r.grant.getLsbD x.val)) = false := by
        simp only [List.any_eq_false, Bool.or_eq_true, decide_eq_true_eq, Bool.not_eq_true']
        intro x hx
        have := hr x hx
        simp [this]
      simp only [hb, this, hf]
      simp [hs]

theorem State.able_deferred {s : State} {sh : Shell} (h : s.able sh.ng sh.banned sh.rel sh.recs) :
    (if sh.rel then s.dueDeferred s.sched.cur else none) = none := by
  obtain ⟨-, -, h, -⟩ := h
  split
  · unfold State.dueDeferred State.nextDeferred
    rcases h ‹_› with h | h <;> simp [h]
  · rfl

/-- Everything a word does that may run: it passes, holds, or takes a cause, as its body says; in replay mode a full log ends
the interval before the word. -/
theorem runWord_able {sh : Shell} {body : Nat → M (Cost × Bool)} {s : State} (h : s.able sh.ng sh.banned sh.rel sh.recs) :
    runWord sh body s = match (body s.sched.cur).run s with
      | .ok r s' => if s'.overfull (s.thread s.sched.cur).id.work then s.endInterval (s.thread s.sched.cur).id.work
                    else s'.complete s.sched.cur sh r.1 (s.thread s.sched.cur).pos (s.thread s.sched.cur).inTrial true r.2
      | .error (.hold k) s' => if s'.overfull (s.thread s.sched.cur).id.work then s.endInterval (s.thread s.sched.cur).id.work
                               else s.holdWord s' s.sched.cur k
      | .error (.trap c v) s' => (s.spent s' s.sched.cur c).fail s.sched.cur c v := by
  unfold runWord runForm
  have ha : (s.thread s.sched.cur).active sh.ng = true := h.2.1
  simp only [s.able_check h, ha, State.able_deferred h, if_true]
  all_goals (rcases (body s.sched.cur).run s with _ | ⟨_ | _⟩ <;> rfl)

/-! ### Dies that stand still, and commands to several dies (R391, R395) -/

/-- An event of a die's engines or array does what it does, or nothing. -/
theorem State.ifRuns_cases (P : State → Prop) {s : State} {die : Nat} {f : State → State} (h : P s) (hf : P (f s)) :
    P (s.ifRuns die f) := by
  unfold State.ifRuns; split <;> assumption

/-- Traffic of a die does what it does, or nothing. -/
theorem State.ifClocked_cases (P : State → Prop) {s : State} {die : Nat} {f : State → State} (h : P s) (hf : P (f s)) :
    P (s.ifClocked die f) := by
  unfold State.ifClocked; split <;> assumption

/-- A command to several dies keeps what its effect on each die keeps. -/
theorem State.eachDie_keeps (P : State → Prop) {s : State} {die : Nat} {f : State → Nat → State} (h : P s)
    (hf : ∀ u d, P u → P (f u d)) : P (s.eachDie die f).1 := by
  unfold State.eachDie
  split
  · rename_i ds _
    clear * - h hf
    induction ds generalizing s with
    | nil => exact h
    | cons d ds ih => exact ih (hf s d h)
  · exact h

/-- A command to one die. -/
theorem State.eachDie_one {s : State} {die : Nat} {f : State → Nat → State} (h : die < 4) : s.eachDie die f = (f s die, true) := by
  simp [State.eachDie, diesOf, h]

end Sys2Proof.Machine
end

