-- ==== Sys2Proof/Laws/Reads.lean ====
section
/-! SUPPORT. A small logic for computations over the state, and what reading a source changes. -/

namespace Sys2Proof.Machine

/-- Whenever the computation completes, its states are related. -/
def Gives {α : Type} (m : M α) (R : State → State → Prop) : Prop := ∀ s v s', m s = .ok v s' → R s s'

theorem M.bind_ok {α β : Type} {m : M α} {f : α → M β} {s s' : State} {v : β} (h : (m >>= f) s = .ok v s') :
    ∃ a u, m s = .ok a u ∧ f a u = .ok v s' := by
  change EStateM.bind m f s = _ at h
  unfold EStateM.bind at h
  split at h
  · exact ⟨_, _, ‹_›, h⟩
  · cases h

theorem M.bind_of_ok {α β : Type} {m : M α} {f : α → M β} {s u : State} {a : α} (h : m s = .ok a u) :
    (m >>= f) s = f a u := by
  change EStateM.bind m f s = _
  simp [EStateM.bind, h]

@[simp] theorem M.pure_run {α : Type} (a : α) (s : State) : (pure a : M α) s = .ok a s := rfl
@[simp] theorem M.get_run (s : State) : (get : M State) s = .ok s s := rfl
@[simp] theorem M.set_run (s u : State) : (set u : M PUnit) s = .ok ⟨⟩ u := rfl
@[simp] theorem M.modify_run (s : State) (f : State → State) : (modify f : M PUnit) s = .ok ⟨⟩ (f s) := rfl
@[simp] theorem M.getT_run (s : State) (t : Nat) : (getT t) s = .ok (s.thread t) s := rfl
@[simp] theorem M.modT_run (s : State) (t : Nat) (f : Thread → Thread) : (modT t f) s = .ok ⟨⟩ (s.modThread t f) := rfl
@[simp] theorem M.fault_run {α : Type} (s : State) (c : Cause) : (fault c : M α) s = .error (.trap c 0) s := rfl
@[simp] theorem M.faultAt_run {α : Type} (s : State) (c : Cause) (v : Nat) :
    (faultAt c v : M α) s = .error (.trap c (BitVec.ofNat 64 v)) s := rfl
@[simp] theorem M.wait_run {α : Type} (s : State) (l : BitVec 4) (w : Wake) : (wait l w : M α) s = .error (.hold ⟨l, w⟩) s := rfl
@[simp] theorem M.get_bind {β : Type} (f : State → M β) (s : State) : (get >>= f) s = f s s := rfl

section
variable {α β : Type} {R : State → State → Prop}

theorem Gives.pure (hr : ∀ s, R s s) (a : α) : Gives (pure a : M α) R := by
  intro s v s' h; cases h; exact hr s

theorem Gives.fault (c : Cause) : Gives (fault c : M α) R := by intro s v s' h; cases h

theorem Gives.wait (l : BitVec 4) (w : Wake) : Gives (wait l w : M α) R := by intro s v s' h; cases h

theorem Gives.get (hr : ∀ s, R s s) : Gives (get : M State) R := by intro s v s' h; cases h; exact hr s

theorem Gives.modify (f : State → State) (hf : ∀ s, R s (f s)) : Gives (modify f : M PUnit) R := by
  intro s v s' h; cases h; exact hf s

theorem Gives.bind (ht : ∀ {a b c}, R a b → R b c → R a c) {m : M α} {f : α → M β} (hm : Gives m R)
    (hf : ∀ a, Gives (f a) R) : Gives (m >>= f) R := by
  intro s v s' h
  obtain ⟨a, u, h1, h2⟩ := M.bind_ok h
  exact ht (hm _ _ _ h1) (hf _ _ _ _ h2)

theorem Gives.getBind {f : State → M β} (hf : ∀ s v s', f s s = .ok v s' → R s s') : Gives (MonadState.get >>= f) R := by
  intro s v s' h; exact hf s v s' h

end

theorem Reads.refl (s : State) : Reads s s := by constructor <;> intros <;> rfl

theorem Reads.trans {s u v : State} (h : Reads s u) (k : Reads u v) : Reads s v := by
  constructor
  · intro t; rw [k.threads, h.threads]
  · intro n; rw [k.cores, h.cores]
  · intro w; rw [k.works, h.works]
  · rw [k.groups, h.groups]
  · rw [k.bundles, h.bundles]
  · rw [k.bins, h.bins]
  · rw [k.cards, h.cards]
  · rw [k.ops, h.ops]
  · rw [k.commits, h.commits]
  · rw [k.dies, h.dies]
  · rw [k.homes, h.homes]
  · rw [k.ctxs, h.ctxs]
  · rw [k.dev, h.dev]
  · rw [k.sched, h.sched]

theorem Reads.draw (s : State) (n : Nat) : Reads s (s.modSched fun c => { c with draw := n }) := by
  constructor <;> intros <;> rfl

theorem Reads.modWork (s : State) (w : Nat) (f : Work → Work) (hf : ∀ x, (f x).shown = x.shown) :
    Reads s (s.modWork w f) := by
  constructor <;> intros <;> try rfl
  rw [State.find_modWork]
  split
  · cases s.works.find _ <;> simp [hf]
  · rfl

theorem Reads.modThread (s : State) (t : Nat) (f : Thread → Thread) (hf : ∀ th, (f th).unread = th.unread) :
    Reads s (s.modThread t f) := by
  constructor <;> intros <;> try rfl
  rw [State.find_modThread]
  split
  · cases s.threads.find _ <;> simp [hf]
  · rfl

theorem Reads.acquire (s : State) (gc : Nat) : Reads s (s.acquire gc) := by
  constructor <;> intros <;> try rfl
  unfold State.acquire
  rw [State.core_modCore]
  split
  · subst_vars; rfl
  · rfl

theorem drawFree_gives : Gives drawFree Reads := by
  intro s v s' h
  unfold drawFree at h
  cases h
  exact Reads.draw s _

theorem waitFuture_gives (t : Nat) (v : Word64) : Gives (waitFuture t v) Reads := by
  intro s x s' h
  unfold waitFuture at h
  rw [M.get_bind] at h
  dsimp only at h
  cases hq : s.futStatus (handleOf v) with
  | none => rw [hq] at h; cases h
  | some st =>
    rw [hq] at h
    obtain ⟨_, u, h1, h2⟩ := M.bind_ok h
    cases h1
    split at h2
    · cases h2; exact (Reads.acquire s _).trans (Reads.modThread _ _ _ fun _ => rfl)
    · cases h2; exact Reads.acquire s _

theorem logged_gives (t : Nat) (v : Word64) : Gives (logged t v) Reads := by
  intro s x s' h
  unfold logged at h
  rw [M.get_bind] at h
  cases hq : (s.work (s.thread t).id.work).rpl with
  | none => rw [hq] at h; cases h; exact Reads.refl s
  | some r =>
    rw [hq] at h
    dsimp only at h
    cases hl : r.log[r.cursor]? with
    | none => rw [hl] at h; cases h; exact Reads.modWork _ _ _ fun _ => rfl
    | some e => rw [hl] at h; cases h; exact Reads.modWork _ _ _ fun _ => rfl

theorem Gives.ite {α : Type} {R : State → State → Prop} (c : Prop) [Decidable c] {m n : M α} (hm : Gives m R) (hn : Gives n R) :
    Gives (if c then m else n) R := by split <;> assumption

theorem Reads.bind {α β : Type} {m : M α} {f : α → M β} (hm : Gives m Reads) (hf : ∀ a, Gives (f a) Reads) :
    Gives (m >>= f) Reads := Gives.bind (R := Reads) (fun h k => Reads.trans h k) hm hf

theorem Reads.pure {α : Type} (a : α) : Gives (pure a : M α) Reads := Gives.pure Reads.refl a

theorem Reads.mapM {α β : Type} {f : α → M β} (hf : ∀ a, Gives (f a) Reads) (xs : List α) : Gives (xs.mapM f) Reads := by
  induction xs with
  | nil => exact Reads.pure _
  | cons x xs ih =>
    rw [List.mapM_cons]
    exact Reads.bind (hf x) fun _ => Reads.bind ih fun _ => Reads.pure _

theorem reissue_gives (t : Nat) : Gives (reissue t) Reads := by
  intro s x s' h
  unfold reissue at h
  obtain ⟨th, u, h1, h2⟩ := M.bind_ok h
  cases h1
  refine Gives.ite _ (Reads.bind drawFree_gives fun i => Gives.ite _ ?_ (Gives.fault _)) (Reads.pure _) _ _ _ h2
  exact Gives.modify _ fun s => Reads.modThread _ _ _ fun _ => rfl

theorem readEntry_gives (t : Nat) (e : Entry) : Gives (readEntry t e) Reads := by
  unfold readEntry
  have tail (e : Entry) : Gives (if e.kind = .empty then fault 0x43 else if e.res = residue e.val then pure e
      else do reissue t; pure { e with res := residue e.val } : M Entry) Reads :=
    Gives.ite _ (Gives.fault _) (Gives.ite _ (Reads.pure _) (Reads.bind (reissue_gives t) fun _ => Reads.pure _))
  split
  · exact Reads.bind (Gives.wait _ _) fun _ => Reads.bind (Gives.get Reads.refl) fun s =>
      Gives.ite _ (Gives.ite _ (Reads.bind (Gives.fault _) tail) (Reads.bind drawFree_gives fun _ => Reads.bind (Reads.pure _) tail))
        (Reads.bind (Reads.pure _) tail)
  · exact Reads.bind (Gives.get Reads.refl) fun s =>
      Gives.ite _ (Gives.ite _ (Reads.bind (Gives.fault _) tail) (Reads.bind drawFree_gives fun _ => Reads.bind (Reads.pure _) tail))
        (Reads.bind (Reads.pure _) tail)

theorem readPred_gives (t : Nat) (p : PReg) : Gives (readPred t p) Reads := by
  unfold readPred
  refine Reads.bind (Gives.get Reads.refl) fun s => ?_
  dsimp only
  refine Gives.ite _ (Reads.pure _) ?_
  cases hw : ((s.thread t).regs.p[p.val]).wait with
  | some x => exact Gives.wait _ _
  | none =>
    exact Gives.ite _ (Gives.ite _ (Gives.fault _) (Reads.bind drawFree_gives fun _ => Reads.pure _))
      (Gives.ite _ (Reads.pure _) (Reads.bind (reissue_gives t) fun _ => Reads.pure _))

theorem faultIf_gives (b : Bool) (c : Cause) : Gives (faultIf b c) Reads := by
  intro s y s' h; cases b <;> cases h; exact Reads.refl s

theorem srcRules_gives (t : Nat) (pair : Bool) (xs : List Src) (own : M Unit) (ho : Gives own Reads) :
    Gives (srcRules t pair xs own) Reads := by
  intro s y s' h
  unfold srcRules at h
  rw [M.get_bind] at h
  dsimp only at h
  cases hw : (xs.filterMap (s.thread t).entryOf).filterMap fun e => e.1.wait.map (·.1) with
  | cons k ks => rw [hw] at h; cases h
  | nil =>
    rw [hw] at h
    have tail : Gives (do own; faultIf ((s.thread t).sck &&
        (xs.filterMap (s.thread t).entryOf).any fun e => decide (s.lcOf t < e.1.ready)) 0x09 : M Unit) Reads :=
      Reads.bind ho fun _ => faultIf_gives _ _
    exact Gives.ite _ (Reads.bind (Gives.fault _) fun _ => tail) tail _ _ _ h

theorem predRules_gives (t : Nat) (ps : List PReg) : Gives (predRules t ps) Reads := by
  intro s y s' h
  unfold predRules at h
  rw [M.get_bind] at h
  cases hw : ((ps.filter fun p => p.val != 0).map fun p => (s.thread t).regs.p[p.val]).filterMap fun c => c.wait.map (·.1) with
  | cons k ks => rw [hw] at h; cases h
  | nil => rw [hw] at h; exact faultIf_gives _ _ _ _ _ h

theorem readSrc_gives (t : Nat) (rd : Reading) (cp : Bool) (x : Src) : Gives (readSrc t rd cp x) Reads := by
  unfold readSrc
  refine Reads.bind (srcRules_gives _ _ _ _ (Reads.pure _)) fun _ => ?_
  refine Reads.bind (Gives.get Reads.refl) fun s => ?_
  have fin (e : Entry) (r : Option Nat) : Gives (
      if e.kind = .fut && !cp then do
        let st ← waitFuture t e.val
        let st ← logged t st
        modify fun s' => s'.endInterval (s.thread t).id.work
        pure ⟨st, .i32, residue st, false, 0⟩
      else if e.kind = .iv64 then
        match rd, r with
        | .pair, some i =>
          if i % 2 = 1 then fault 0x04
          else do
            let o ← readEntry t ((s.thread t).regs.k.toList.getD (i + 1) Entry.blank)
            pure ⟨e.val, .iv64, e.res, false, o.val⟩
        | .raw, _ => pure ⟨e.val, .iv64, e.res, false, 0⟩
        | _, _ => fault 0x2D
      else pure ⟨e.val, e.kind, e.res, false, 0⟩ : M Val) Reads := by
    refine Gives.ite _ ?_ (Gives.ite _ ?_ (Reads.pure _))
    · exact Reads.bind (waitFuture_gives _ _) fun _ => Reads.bind (logged_gives _ _) fun _ =>
        Reads.bind (Gives.modify _ fun s => Reads.modWork _ _ _ fun _ => rfl) fun _ => Reads.pure _
    · split
      · exact Gives.ite _ (Gives.fault _) (Reads.bind (readEntry_gives _ _) fun _ => Reads.pure _)
      · exact Reads.pure _
      · exact Gives.fault _
  cases x with
  | q a => exact Reads.bind (readEntry_gives _ _) fun e => fin e _
  | k r => exact Reads.bind (readEntry_gives _ _) fun e => fin e _
  | tlo => exact Reads.bind (logged_gives _ _) fun _ => Reads.pure _
  | cyc => exact Reads.bind (logged_gives _ _) fun _ => Reads.pure _
  | g i => exact Gives.ite _ (Gives.fault _) (Reads.pure _)
  | zero => exact Reads.pure _
  | lane => exact Reads.pure _
  | tig => exact Reads.pure _
  | grp => exact Reads.pure _
  | team => exact Reads.pure _
  | fuel => exact Reads.pure _
  | lit v => exact Reads.pure _

/-- A computation that answers or stops, and leaves the state as it is. -/
def Looks {α : Type} (m : M α) : Prop := ∀ s v s', m s = .ok v s' → s' = s

theorem Looks.gives {α : Type} {m : M α} (h : Looks m) : Gives m Reads := fun s v s' k => h s v s' k ▸ Reads.refl s

theorem Looks.pure {α : Type} (a : α) : Looks (pure a : M α) := fun _ _ _ h => by cases h; rfl

theorem Looks.fault {α : Type} (c : Cause) : Looks (fault c : M α) := fun _ _ _ h => by cases h

theorem Looks.ite {α : Type} (c : Prop) [Decidable c] {m n : M α} (hm : Looks m) (hn : Looks n) : Looks (if c then m else n) := by
  by_cases hc : c <;> simp only [hc, if_true, if_false] <;> assumption

theorem asInt_looks (b : Bool) (v : Val) : Looks (v.asInt b) :=
  Looks.ite _ (Looks.pure _) (Looks.ite _ (Looks.pure _) (Looks.fault _))

theorem asUnsigned_looks (v : Val) : Looks v.asUnsigned := Looks.ite _ (Looks.pure _) (Looks.fault _)

theorem toF_looks (v : Val) (x : Src) : Looks (v.toF x) := by
  unfold Val.toF
  split
  · exact Looks.pure _
  · refine Looks.ite _ (Looks.fault _) ?_
    split <;> first | exact Looks.pure _ | exact Looks.fault _

theorem readInt_gives (t : Nat) (b : Bool) (x : Src) : Gives (readInt t b x) Reads :=
  Reads.bind (readSrc_gives _ _ _ _) fun _ => (asInt_looks _ _).gives

theorem readInt2_gives (t : Nat) (i : Bool) (a b : Src) : Gives (readInt2 t i a b) Reads :=
  Reads.bind (srcRules_gives _ _ _ _ (Reads.pure _)) fun _ => Reads.bind (readSrc_gives _ _ _ _) fun _ => Reads.bind (readSrc_gives _ _ _ _) fun _ =>
    Reads.bind (asInt_looks _ _).gives fun _ => Reads.bind (asInt_looks _ _).gives fun _ => Reads.pure _

theorem readInt3_gives (t : Nat) (i : Bool) (a b c : Src) : Gives (readInt3 t i a b c) Reads :=
  Reads.bind (srcRules_gives _ _ _ _ (Reads.pure _)) fun _ => Reads.bind (readSrc_gives _ _ _ _) fun _ => Reads.bind (readSrc_gives _ _ _ _) fun _ =>
    Reads.bind (readSrc_gives _ _ _ _) fun _ => Reads.bind (asInt_looks _ _).gives fun _ => Reads.bind (asInt_looks _ _).gives fun _ =>
      Reads.bind (asInt_looks _ _).gives fun _ => Reads.pure _

theorem readUnsigned_gives (t : Nat) (x : Src) : Gives (readUnsigned t x) Reads :=
  Reads.bind (readSrc_gives _ _ _ _) fun _ => (asUnsigned_looks _).gives

theorem readUnsigned2_gives (t : Nat) (a b : Src) : Gives (readUnsigned2 t a b) Reads :=
  Reads.bind (srcRules_gives _ _ _ _ (Reads.pure _)) fun _ => Reads.bind (readSrc_gives _ _ _ _) fun _ => Reads.bind (readSrc_gives _ _ _ _) fun _ =>
    Reads.bind (asUnsigned_looks _).gives fun _ => Reads.bind (asUnsigned_looks _).gives fun _ => Reads.pure _

theorem readBits_gives (t : Nat) (x : Src) : Gives (readBits t x) Reads :=
  Reads.bind (readSrc_gives _ _ _ _) fun _ => Reads.pure _

theorem readF_gives (t : Nat) (x : Src) (own : M Unit) (ho : Gives own Reads) : Gives (readF t x own) Reads := by
  unfold readF
  refine Reads.bind (srcRules_gives _ _ _ _ ho) fun _ => ?_
  exact Reads.bind (readSrc_gives _ _ _ _) fun v => (toF_looks v x).gives

theorem readFamily_gives (t : Nat) (xs : List Src) : Gives (readFamily t xs) Reads := by
  unfold readFamily
  refine Reads.bind (srcRules_gives _ _ _ _ (Reads.pure _)) fun _ => Reads.bind (Reads.mapM (fun x => Reads.bind (readSrc_gives _ _ _ _) fun _ =>
    Reads.pure _) xs) fun _ => Reads.bind (Reads.mapM (fun p : Src × Val => (toF_looks p.2 p.1).gives) _) fun vs => Reads.bind ?_ fun _ => Reads.pure _
  unfold family
  exact Gives.ite _ (Reads.pure _) (Gives.ite _ (Reads.pure _) (Gives.fault _))

/-! ### What reading keeps of the current thread -/

theorem Reads.cur {s s' : State} (h : Reads s s') : s'.sched.cur = s.sched.cur := by
  have := h.sched; cases hs : s'.sched; cases hu : s.sched; simp_all

theorem Reads.isSome {s s' : State} (h : Reads s s') (u : Nat) : (s'.threads.find u).isSome = (s.threads.find u).isSome := by
  have := congrArg Option.isSome (h.threads u); simpa using this

theorem Reads.thread {s s' : State} (h : Reads s s') (u : Nat) : (s'.thread u).unread = (s.thread u).unread := by
  have := h.threads u
  unfold State.thread Tbl.getD
  cases h1 : s'.threads.find u <;> cases h2 : s.threads.find u <;> simp_all

theorem Reads.field {α : Type} {s s' : State} (h : Reads s s') (u : Nat) (f : Thread → α)
    (hf : ∀ th, f th.unread = f th) : f (s'.thread u) = f (s.thread u) := by
  rw [← hf, h.thread, hf]

end Sys2Proof.Machine
end

