-- ==== Sys2Proof/Laws/Words.lean ====
section
/-! SUPPORT. How a word that reads its sources and then changes its thread ends. -/

namespace Sys2Proof.Machine

/-- A change of the current thread that keeps what the shell looks at. -/
structure Tame (f : Thread → Thread) : Prop where
  trial : ∀ th, (f th).trial = th.trial
  id : ∀ th, (f th).id = th.id
  retry : ∀ th, (f th).retry = th.retry

theorem Tame.modRegs (g : Regs → Regs) : Tame fun th => th.modRegs g := ⟨fun _ => rfl, fun _ => rfl, fun _ => rfl⟩

/-- A word whose body reads, then changes its thread, passes. -/
theorem runWord_passes {sh : Shell} {body : Nat → M (Cost × Bool)} {s s1 : State} {k : Cost} {f : Thread → Thread}
    (ha : s.able sh.ng sh.banned sh.rel sh.recs) (hr : Reads s s1) (hroom : s1.roomy) (hf : Tame f)
    (hb : body s.sched.cur s = .ok (k, false) (s1.modThread s.sched.cur f)) :
    Passes (s1.modThread s.sched.cur f) (runWord sh body s) sh.ext := by
  have hb : (body s.sched.cur).run s = .ok (k, false) (s1.modThread s.sched.cur f) := hb
  rw [runWord_able ha, hb]
  have hc := hr.cur
  have hsome : (s1.threads.find s.sched.cur).isSome := by rw [hr.isSome]; exact ha.1
  have hid : (s1.thread s.sched.cur).id = (s.thread s.sched.cur).id := hr.field _ (·.id) fun _ => rfl
  have htr : (s1.thread s.sched.cur).trial = (s.thread s.sched.cur).trial := hr.field _ (·.trial) fun _ => rfl
  have hth : (s1.modThread s.sched.cur f).thread s.sched.cur = f (s1.thread s.sched.cur) := by
    rw [State.thread_modThread _ _ _ _ hsome, if_pos rfl]
  have ho : (s1.modThread s.sched.cur f).overfull (s.thread s.sched.cur).id.work = false := by
    have := hroom.2
    rw [hc, hid] at this
    exact this
  simp only [ho]
  have hcur : (s1.modThread s.sched.cur f).sched.cur = s.sched.cur := hc
  have := State.complete_passes (s1.modThread s.sched.cur f) sh k (s.thread s.sched.cur).pos (s.thread s.sched.cur).inTrial true
    (by rw [hcur, hth, hf.retry, ← hc]; exact hroom.1)
    (by rw [hcur, hth]; unfold Thread.inTrial; rw [hf.trial, htr])
    (by rw [hcur, hth, hf.trial, htr]; exact fun r h => (ha.2.2.2 r h).1)
  rw [hcur] at this
  exact this

end Sys2Proof.Machine
end

