-- ==== Sys2Proof/Tests/Slice0.lean ====
section
/-! SUPPORT. The model's own tests: ill-formed terms are refused, words of the spec's assembly decode to what they stand for, single
steps give the spec's results, and for every statement a state and operands that meet its hypotheses. -/

/-- An entry but for what it was written over. -/
def Sys2Proof.Machine.Entry.plain (e : Sys2Proof.Machine.Entry) : Sys2Proof.Machine.Entry := { e with old := (0, .empty) }

namespace Sys2Proof.Tests

open Sys2Proof Sys2Proof.Machine Sys2Proof.Claims

set_option Elab.async false

/-! ### Well-formed terms: a legal form of each kind, and an ill-formed term for each check -/

/-- Legal forms at a named count of 16. -/
theorem test_wf_legal :
    [Instr.iadd ⟨.s0, false⟩ (.k 15) (.q 15) (.lit 7), .mov ⟨.s0, false⟩ .w4 (.k 12) (.k 8), .regFree ⟨.s0, true⟩ .w8 8,
      .tryT ⟨.s0, false⟩ (.k 4) .zero .zero, .atomCas .normal 14 3 .zero, .ldAcq32 .w2 .normal (.k 2) 0 .zero,
      .sbarEnrol .s0 (.enrolSet 64), .br 0 .always 5, .br 3 .u 5, .brt ⟨.s0, false⟩ (.lit 0) (List.replicate 13 0),
      .getsr .s0 .q 0x091, .setsr .s0 .zero 0x091].all (·.wf 16) = true := by decide

/-- A named register beyond the count. -/
theorem test_wf_count : (Instr.iadd ⟨.s0, false⟩ (.k 16) .zero .zero).wf 16 = false := by decide
/-- A group out of alignment. -/
theorem test_wf_align : (Instr.mov ⟨.s0, false⟩ .w4 (.k 2) (.k 8)).wf 16 = false := by decide
/-- A wide group that runs past the count. -/
theorem test_wf_group : (Instr.regFree ⟨.s0, false⟩ .w8 8).wf 12 = false := by decide
/-- A queue source, and a queue destination, where the width is not single. -/
theorem test_wf_wide_queue : (Instr.mov ⟨.s0, false⟩ .w2 (.k 2) (.q 0)).wf 16 = false ∧
    (Instr.mov ⟨.s0, false⟩ .w2 .q (.k 2)).wf 16 = false := by decide
/-- try needs a named quad. -/
theorem test_wf_quad : (Instr.tryT ⟨.s0, false⟩ .q .zero .zero).wf 16 = false ∧
    (Instr.tryT ⟨.s0, false⟩ (.k 6) .zero .zero).wf 16 = false := by decide
/-- A soft-barrier threshold of 0, and of 65. -/
theorem test_wf_threshold : (Instr.sbarEnrol .s0 (.enrolSet 0)).wf 16 = false ∧
    (Instr.sbarEnrol .s0 (.enrolSet 65)).wf 16 = false := by decide
/-- An acquire of four entries. -/
theorem test_wf_acquire_width : (Instr.ldAcq32 .w4 .normal (.k 4) 0 .zero).wf 16 = false := by decide
/-- A predicate on a branch that is always taken. -/
theorem test_wf_branch : (Instr.br 1 .always 5).wf 16 = false := by decide
/-- A table of no targets, and one that no clause holds. -/
theorem test_wf_table : (Instr.brt ⟨.s0, false⟩ .zero []).wf 16 = false ∧
    (Instr.brt ⟨.s0, false⟩ .zero (List.replicate 15 0)).wf 16 = false ∧
    (Instr.brt ⟨.s0, false⟩ (.lit 0) (List.replicate 14 0)).wf 16 = false := by decide
/-- A special register that is none, and one that is read-only. -/
theorem test_wf_special : (Instr.getsr .s0 .q 0x3FF).wf 16 = false ∧ (Instr.setsr .s0 .zero 0x092).wf 16 = false := by decide
/-- A source of a memory word is single; a pair is aligned. -/
theorem test_wf_memory : (Instr.ld32 .w2 .normal (.k 3) 0 .zero).wf 16 = false ∧
    (Instr.stiv64 .normal 3 0 .zero).wf 16 = false ∧ (Instr.sigin .normal 15 0).wf 16 = false := by decide

/-! ### Decoding: words of the spec's own assembly tables, and what they stand for -/

/-- Reads as an instruction of `e` extension words. -/
def reads (c : Cls) (w : Word32) (x : List Word32) (i : Instr) (e : Nat) : Bool :=
  decide (decode c 32 true w x = .ok i e) && decide (encode i = w :: x.take e)

/-- 02, 09 and 10: lane words. -/
theorem test_decode_lane :
    reads .lane 0x484C0E08 [0x40000000] (.fmul ⟨.s2, false⟩ .rn (.k 3) (.q 0) (.lit 0x40000000)) 1 ∧
    reads .lane 0xE004F906 [] (.fma .s2 .rn .q (.k 3) (.g 0) (.q 1)) 0 ∧
    reads .lane 0x415004C1 [] (.fadd ⟨.s0, true⟩ .rd (.k 4) (.q 0) (.k 3)) 0 ∧
    reads .lane 0x804F0FEC [] (.movi .s0 (.k 3) 0x3FB) 0 ∧ reads .lane 0x8003001C [] (.movi .s0 .q 7) 0 ∧
    reads .lane 0x00000040 [] (.iadd ⟨.s0, false⟩ .q (.q 0) (.q 1)) 0 ∧
    reads .lane 0x78542C00 [] (.mov ⟨.s0, false⟩ .w1 (.k 5) (.q 2)) 0 ∧
    reads .lane 0x78592C10 [] (.mov ⟨.s0, false⟩ .w2 (.k 6) (.k 2)) 0 ∧
    reads .lane 0x79C18C20 [] (.regFree ⟨.s0, false⟩ .w4 8) 0 ∧ reads .lane 0x7AC38C00 [24] (.regGrow ⟨.s0, false⟩ (.lit 24)) 1 ∧
    reads .lane 0x88030108 [] (.getsr .s0 .q 0x042) 0 := by decide +kernel
/-- 10 and 19: more lane words. -/
theorem test_decode_lane2 :
    reads .lane 0x22411E00 [10] (.icmpLt ⟨.s0, false⟩ 2 (.k 1) (.lit 10)) 1 ∧
    reads .lane 0x2A614580 [] (.fcmpLt ⟨.s0, false⟩ 3 (.k 4) (.k 6)) 0 ∧
    reads .lane 0x2C210600 [] (.pand ⟨.s0, false⟩ 1 2 3) 0 ∧ reads .lane 0x054D1480 [] (.idiv ⟨.s0, false⟩ (.k 3) (.k 1) (.k 2)) 0 ∧
    reads .lane 0x81492FC0 [] (.iaddi .s0 (.k 2) (.k 2) 0x3F0) 0 ∧
    reads .lane 0xE9849300 [] (.fma .s0 .ru (.k 8) (.k 2) (.k 3) (.q 0)) 0 ∧
    reads .lane 0xFD559740 [] (.csel .s0 (.k 5) (.k 6) (.k 7) 2) 0 ∧ reads .lane 0x77514A00 [] (.ivsplit ⟨.s0, false⟩ (.k 4) (.k 4) 5) 0 ∧
    reads .lane 0x44540508 [] (.fsub ⟨.s2, false⟩ .rn (.k 5) (.q 0) (.k 4)) 0 ∧ reads .lane 0x855F2008 [] (.shli .s0 (.k 7) .tig 2) 0 ∧
    reads .lane 0x83618004 [] (.ori .s0 (.k 8) (.k 8) 1) 0 := by decide +kernel
/-- 02 and 07: memory words. -/
theorem test_decode_memory :
    reads .memory 0x05601526 [] (.ld64 .w2 .evictLast (.k 8) 5 (.k 2)) 0 ∧ reads .memory 0x04500D10 [] (.ld32 .w1 .normal (.k 4) 3 (.k 1)) 0 ∧
    reads .memory 0x0B581F14 [] (.st64 .w2 .normal (.k 6) 7 .lane) 0 ∧ reads .memory 0x11601134 [] (.ldiv64 .normal (.k 8) 4 (.k 3)) 0 ∧
    reads .memory 0x29482504 [] (.atomCas .normal 2 9 (.k 0)) 0 ∧ reads .memory 0x30E02500 [1] (.redAdd .normal (.lit 1) 9 (.k 0)) 1 ∧
    reads .memory 0x40C00953 [] (.pf .noAllocate 2 (.k 5)) 0 ∧ reads .memory 0x43680D00 [] (.qpopNb .w1 .normal (.k 10) 3 2) 0 ∧
    reads .memory 0x44705304 [] (.sigin .normal 12 20) 0 ∧ reads .memory 0x50C300D0 [] (.bankMode .s0 20 .scratchpad) 0 ∧
    reads .memory 0x5AC30C08 [] (.acqrel ⟨.s2, false⟩) 0 ∧ reads .memory 0x474C5120 [] (.lcload .normal (.k 3) 20 (.k 2)) 0 := by decide +kernel
/-- 05: version words. -/
theorem test_decode_version :
    reads .memory 0x60500300 [] (.snapOpen (.k 4) .zero) 0 ∧ reads .memory 0x60500160 [] (.snapOpen (.k 4) (.k 6)) 0 ∧
    reads .memory 0x61C00300 [] .snapClose 0 ∧ reads .memory 0x62540300 [] (.txb (.k 5) .zero) 0 ∧ reads .memory 0x63600300 [] (.txc 3) 0 ∧
    reads .memory 0x64C00120 [] (.txa (.k 2)) 0 ∧ reads .memory 0x65800300 [] (.txchk 4) 0 ∧
    reads .memory 0x665C3300 [] (.vpub (.k 7) 12) 0 := by decide +kernel
/-- 02 and 13: control words. -/
theorem test_decode_control :
    reads .control 0x00780006 [] (.br 3 .u 6) 0 ∧ reads .control 0x00280005 [] (.br 1 .t 5) 0 ∧
    reads .control 0x030D2C00 [4, 6, 8] (.brt ⟨.s0, false⟩ (.k 2) [4, 6, 8]) 3 ∧ reads .control 0x04C14C00 [] (.jmp ⟨.s0, false⟩ (.k 4)) 0 ∧
    reads .control 0x06C30C00 [] (.exitT ⟨.s0, false⟩) 0 ∧ reads .control 0x10C30C00 [] (.reform ⟨.s0, false⟩) 0 ∧
    reads .control 0x11C300C0 [] (.sbarEnrol .s0 (.enrolSet 48)) 0 ∧ reads .control 0x13C1200C [] (.barArrive .s0 (.k 2) 3) 0 ∧
    reads .control 0x15C3800C [0x40] (.barSync .s0 (.lit 0x40) 3) 1 ∧ reads .control 0x23554E00 [1] (.shflXor ⟨.s0, false⟩ (.k 5) (.k 4) (.lit 1)) 1 ∧
    reads .control 0x25218C00 [] (.voteAny ⟨.s0, false⟩ 1 3) 0 ∧ reads .control 0x285D3C00 [] (.gredAdd ⟨.s0, false⟩ (.k 7) (.k 3)) 0 := by decide +kernel
/-- 14: trial words. -/
theorem test_decode_trial :
    reads .control 0x30538C00 [3] (.tryT ⟨.s0, false⟩ (.k 4) (.lit 3) .zero) 1 ∧ reads .control 0x32C12C00 [] (.fold ⟨.s0, false⟩ (.k 2)) 0 ∧
    reads .control 0x31C30C00 [] (.tend ⟨.s0, false⟩) 0 ∧ reads .control 0x33038C00 [0x13] (.fuel ⟨.s0, false⟩ .q (.lit 0x13)) 1 := by decide +kernel
/-- 02 and 11: matrix words. -/
theorem test_decode_matrix :
    reads .matrix 0x00591030 [0x0A0B2090] (.mma (.k 6) 2 10 11 0 9 false (.k 1) (.q 0) .zero) 1 ∧
    reads .matrix 0x005914B8 [0x28290901, 0x100] (.mma (.k 6) 0 40 41 9 0 true (.k 1) (.k 2) (.lit 0x100)) 2 ∧
    reads .matrix 0x015914F0 [0x282A1908] (.mmaSp (.k 6) 1 40 42 9 0 .n16 false (.k 1) (.k 3) .zero) 1 ∧
    reads .matrix 0x10C30000 [] (.accSwap .s0 0) 0 ∧ reads .matrix 0x11C30008 [] (.accZero .s0 2) 0 ∧
    reads .matrix 0x13630C30 [0x2B000BC0] (.accSt (.k 8) 0 43 0xB 0xC .zero .zero) 1 := by decide +kernel
/-- 08: engine words. -/
theorem test_decode_engine :
    reads .copy 0x00551493 [0x07020000] (.copy (.k 5) 7 2 (.k 1) (.k 2) (.k 3)) 1 ∧
    reads .copy 0x015D0478 [0x00090000, 8] (.slabld (.k 7) 9 (.k 0) (.k 1) (.lit 8)) 2 ∧
    reads .copy 0x025B0C30 [0x04033400] (.xform (.k 6) 4 3 ⟨.rn, true, true, false, true, none, false⟩ .zero .zero) 1 ∧
    reads .copy 0x10600400 [] (.futTest ⟨.s0, false⟩ (.k 8) (.q 0) 2) 0 ∧ reads .copy 0x11C15C00 [] (.futCancel ⟨.s0, false⟩ (.k 5)) 0 ∧
    reads .copy 0x12C30008 [] (.drain .s0 .slab) 0 := by decide +kernel
/-- 15 and 16: task and system words. -/
theorem test_decode_task_system :
    reads .task 0x00501920 [] (.jobPush (.k 4) 6 (.k 2)) 0 ∧ reads .task 0x03541930 [] (.launch (.k 5) 6 (.k 3)) 0 ∧
    reads .task 0x01C11C00 [] (.jobDone ⟨.s0, false⟩ (.k 1)) 0 ∧ reads .task 0x02C30C00 [] (.yield ⟨.s0, false⟩) 0 ∧
    reads .task 0x04592E00 [1] (.qstat ⟨.s0, false⟩ (.k 6) (.k 2) (.lit 1)) 1 ∧ reads .system 0x00C1100C [] (.trap .s0 (.k 1) 3) 0 ∧
    reads .system 0x01C30C00 [] (.rft ⟨.s0, false⟩ .none .zero) 0 ∧ reads .system 0x014F0C00 [] (.rft ⟨.s0, false⟩ (.k 3) .zero) 0 ∧
    reads .system 0x02C11C00 [] (.halt ⟨.s0, false⟩ (.k 1)) 0 ∧ reads .system 0x03581510 [] (.ctxSave .normal (.k 6) 5 (.k 1)) 0 ∧
    reads .system 0x04C01510 [] (.ctxLoad .normal 5 (.k 1)) 0 ∧ reads .system 0x05536C00 [] (.time ⟨.s0, false⟩ (.k 4) false) 0 ∧
    reads .system 0x05037C00 [] (.time ⟨.s0, false⟩ .q true) 0 ∧ reads .system 0x06C18244 [] (.setsr .s0 (.k 8) 0x091) 0 := by decide +kernel
/-- 02, 08, 11 and 19: headers. -/
theorem test_decode_header :
    decodeHeader 0x120FFF00 = some ⟨1, .memory, 0, .always, 15, 15, 15⟩ ∧ decodeHeader 0x280F0F00 = some ⟨2, .copy, 0, .always, 15, 0, 15⟩ ∧
    decodeHeader 0x146FFF00 = some ⟨1, .control, 1, .f, 15, 15, 15⟩ ∧ decodeHeader 0x3400FF00 = some ⟨3, .control, 0, .always, 0, 15, 15⟩ ∧
    decodeHeader 0x360FFF00 = some ⟨3, .matrix, 0, .always, 15, 15, 15⟩ ∧ decodeHeader 0x0000FF00 = none := by decide +kernel

/-! ### A small machine -/

/-- Registers of a small machine: q1-q16 hold 100 to 115, k0-k31 hold 0 to 31, all I32; p1-p7 hold T. -/
def regs0 : Regs :=
  ⟨Vector.ofFn fun i => Entry.mk' (BitVec.ofNat 64 (100 + i.val)) .i32 0, Vector.ofFn fun i => Entry.mk' (BitVec.ofNat 64 i.val) .i32 0,
    Vector.replicate 8 (PCell.of .T)⟩

/-- A machine whose thread 3, alone in its team (1), group (2) and bundle (4) on die 0, core 0, stands at the word `i` with its guard
true; its context 1 has a trap handler at 0x20000; its card is 5. -/
def demo (i : Instr) (f : Thread → Thread := id) : State :=
  let ws := encode i
  let hdr : Word32 := BitVec.ofNat 32 (ws.length * 2 ^ 28 + (i.cls.getD .lane).code.toNat * 2 ^ 25 + 0xFFF * 2 ^ 8)
  let th : Thread := { Thread.blank with
    id := ⟨1, 2, 0, 0, 0, 0, 0⟩, pos := ⟨0x10000, 1, hdr, ws, true, true⟩, regs := regs0, bundle := 4 }
  let k : Kernel := { Kernel.blank with team := 16, group := 16, named := 32, acc := 4, nb := 4 }
  let s := State.reset
  { s with
    threads := [(3, f th)]
    groups := [(2, { Group.blank with work := 1, n := 32 })]
    bundles := [(4, ⟨2, 0, 0, 0, [3], 4, 0, false, 0, 0x2, 0, 0⟩)]
    works := [(1, { Work.blank with card := 5, ctx := 1, kernel := k, cores := [0] })]
    cards := [(5, { Card.blank with ctx := 1, kernel := k, st := .running, next := 1, live := [1] })]
    ctxs := [(1, { Context.reset with bound := true, trapVec := 0x20001 })]
    sched := { s.sched with nextId := 6, cur := 3 } }

/-- The state after an outcome. -/
def nxt (o : Out) : State :=
  match o with
  | .next s => s
  | _ => State.reset

/-- Thread 3 after an instruction. -/
def after (i : Instr) (s : State) : Thread := (nxt (exec i s)).thread 3

/-- The answer of a computation that neither waits nor takes a cause. -/
def ans {α : Type} : EStateM.Result Stop State α → Option α
  | .ok a _ => some a
  | .error _ _ => none

/-- What stops a computation. -/
def why {α : Type} : EStateM.Result Stop State α → Option Stop
  | .ok _ _ => none
  | .error e _ => some e

/-- The state a computation leaves. -/
def left {α : Type} : EStateM.Result Stop State α → State
  | .ok _ s => s
  | .error _ s => s

theorem ok_eq {α : Type} (m : EStateM.Result Stop State α) (x : α) (s : State) (h : ans m = some x) (l : left m = s) :
    m = .ok x s := by
  cases m with
  | ok a s => simp only [ans, Option.some.injEq] at h; subst h; subst l; rfl
  | error e s => simp [ans] at h

theorem ok_by {α : Type} {m : EStateM.Result Stop State α} {x : α} {s : State} (h : ans m = some x ∧ left m = s) : m = .ok x s :=
  ok_eq m x s h.1 h.2

theorem ok_left {α : Type} {m : EStateM.Result Stop State α} {x : α} (h : ans m = some x) : m = .ok x (left m) :=
  ok_eq m x _ h rfl

/-- Four closed facts at once, decided together, before the rest of a conjunction. -/
theorem facts {p q r s t : Prop} (h : p ∧ q ∧ r ∧ s) (rest : t) : p ∧ q ∧ r ∧ s ∧ t :=
  ⟨h.1, h.2.1, h.2.2.1, h.2.2.2, rest⟩

theorem turn_of (s : State) (h : s.mates s.sched.cur = [s.sched.cur]) : myTurn s := fun u m l => by
  rw [h, List.mem_singleton] at m; rw [m] at l; exact absurd l (Nat.lt_irrefl _)

theorem error_eq {α : Type} (m : EStateM.Result Stop State α) (e : Stop) (h : why m = some e) : ∃ u, m = .error e u := by
  cases m with
  | ok a s => simp [why] at h
  | error e s => simp only [why, Option.some.injEq] at h; subst h; exact ⟨s, rfl⟩

theorem able_of (s : State) (ng banned rel : Bool) (recs : List Rec)
    (h : (s.threads.find s.sched.cur).isSome = true ∧ ((s.thread s.sched.cur).pos.g || ng) = true ∧
      (s.thread s.sched.cur).deferred = [] ∧ (s.thread s.sched.cur).trial = none) : s.able ng banned rel recs :=
  ⟨h.1, h.2.1, fun _ => .inl h.2.2.1, fun _ e => by rw [h.2.2.2] at e; cases e⟩

/-- Every word of a demo machine may run: the premise `able` of the statements is met. -/
theorem able_demo (i : Instr) (ng banned rel : Bool) (recs : List Rec) : (demo i).able ng banned rel recs :=
  able_of _ ng banned rel recs ⟨rfl, rfl, rfl, rfl⟩

/-- A demo machine is not in replay mode: the premise `roomy` is met. -/
theorem roomy_demo (i : Instr) : (demo i).roomy :=
  ⟨rfl, rfl⟩

/-- Thread 3 with an entry in a named register. -/
def putK (k : Nat) (e : Entry) (th : Thread) : Thread := { th with regs := { th.regs with k := setK th.regs.k k e } }

/-- A demo machine with thread 3 changed in nothing that `able` reads. -/
theorem able_f (i : Instr) (f : Thread → Thread) (ng banned rel : Bool) (recs : List Rec)
    (h : ((demo i f).thread 3).pos.g = true ∧ ((demo i f).thread 3).deferred = [] ∧ ((demo i f).thread 3).trial = none) :
    (demo i f).able ng banned rel recs :=
  able_of _ ng banned rel recs ⟨rfl, by rw [show ((demo i f).thread (demo i f).sched.cur) = (demo i f).thread 3 from rfl, h.1]; rfl, h.2.1, h.2.2⟩

theorem some_ex {α : Type} {o : Option α} {p : α → Prop} [DecidablePred p] (h : (o.map fun k => decide (p k)) = some true) :
    ∃ k, o = some k ∧ p k := by
  cases o with
  | none => cases h
  | some k => exact ⟨k, rfl, of_decide_eq_true (Option.some.inj h)⟩

/-- A computation's answer meets a test. -/
theorem admits (e : Except (Option Nat) (Card × State)) (p : Card × State → Bool) (h : (match e with | .ok x => p x | _ => false) = true) :
    ∃ c u, e = .ok (c, u) ∧ p (c, u) = true := by
  cases e with
  | ok x => exact ⟨x.1, x.2, rfl, h⟩
  | error n => cases h

/-! ### Premises met, statement by statement: the lane class -/

/-- An integer operand of value `n`. -/
def num (n : Nat) : Val := ⟨BitVec.ofNat 64 n, .i32, BitVec.ofNat 3 (n % 7), false, 0⟩

/-- IntegerWords, ShiftsAndImmediates, DivisionAndPredicates: the operands of a demo machine read as integers, and nothing changes. -/
theorem test_witness_integers : let s := demo (.iadd ⟨.s0, false⟩ (.k 3) (.k 5) (.k 7))
    s.able false false false [] ∧ readInt 3 false (.k 5) s = .ok (num 5) s ∧ readInt 3 false (.k 7) s = .ok (num 7) s ∧
    readInt 3 true (.k 5) s = .ok (num 5) s ∧ s.roomy ∧ (s.thread 3).iter = [] ∧ srcBits 32 false (num 7) ≠ 0 :=
  ⟨able_demo _ _ _ _ _, ok_by (by decide +kernel), ok_by (by decide +kernel), ok_by (by decide +kernel), roomy_demo _, by decide +kernel⟩

/-- R218: 5 + 7 is 12 as I32, pushed and written; the older entries age. -/
theorem test_iadd : let i := Instr.iadd ⟨.s0, false⟩ (.k 3) (.k 5) (.k 7)
    (after i (demo i)).regs.k[3].plain = Entry.mk' 12 .i32 1 ∧ (after i (demo i)).regs.q[0].plain = Entry.mk' 12 .i32 1 ∧
    (after i (demo i)).regs.q[1].plain = Entry.mk' 100 .i32 0 ∧ (after i (demo i)).regs.k[2].plain = Entry.mk' 2 .i32 0 := by decide +kernel
/-- R218: 0 - 5 wraps in 32 bits. -/
theorem test_isub_wraps : let i := Instr.isub ⟨.s0, false⟩ .q .zero (.k 5)
    (after i (demo i)).regs.q[0].plain = Entry.mk' 0xFFFFFFFB .i32 1 := by decide +kernel
/-- R212: a literal is sign-extended beside an I64, and the result is I64. -/
theorem test_iadd_widens : let i := Instr.iadd ⟨.s0, false⟩ .q (.k 5) (.lit 0xFFFFFFFF)
    (after i (demo i (putK 5 (Entry.mk' 0x100000000 .i64 0)))).regs.q[0].plain = Entry.mk' 0xFFFFFFFF .i64 1 := by decide +kernel
/-- R212: but zero-extended in an unsigned form. -/
theorem test_iminUn_widens : let i := Instr.imaxUn ⟨.s0, false⟩ .q (.k 5) (.lit 0xFFFFFFFF)
    (after i (demo i (putK 5 (Entry.mk' 0x100000000 .i64 0)))).regs.q[0].plain = Entry.mk' 0x100000000 .i64 1 := by decide +kernel
/-- R218: the high words of -1 × 7, signed and unsigned. -/
theorem test_imulhi : let i := Instr.imulhi ⟨.s0, false⟩ .q (.lit 0xFFFFFFFF) (.k 7)
    let j := Instr.imulhiUn ⟨.s0, false⟩ .q (.lit 0xFFFFFFFF) (.k 7)
    (after i (demo i)).regs.q[0].plain = Entry.mk' 0xFFFFFFFF .i32 2 ∧ (after j (demo j)).regs.q[0].plain = Entry.mk' 6 .i32 2 := by decide +kernel
/-- R218: the absolute value of the most negative number is itself; 0 has 32 leading zeros; 5 reversed is 0xA0000000. -/
theorem test_unary : let i := Instr.iabs ⟨.s0, false⟩ .q (.lit 0x80000000)
    let j := Instr.clz ⟨.s0, false⟩ .q .zero
    let k := Instr.brev ⟨.s0, false⟩ .q (.k 5)
    (after i (demo i)).regs.q[0].plain = Entry.mk' 0x80000000 .i32 1 ∧ (after j (demo j)).regs.q[0].plain = Entry.mk' 32 .i32 2 ∧
    (after k (demo k)).regs.q[0].plain = Entry.mk' 0xA0000000 .i32 2 := by decide +kernel
/-- R220: a shift by 32 gives 0, sar of a negative all ones, rotl by 33 as by 1. -/
theorem test_shifts : let i := Instr.shl ⟨.s0, false⟩ .q (.k 5) (.lit 32)
    let j := Instr.sar ⟨.s0, false⟩ .q (.lit 0x80000000) (.lit 40)
    let k := Instr.rotl ⟨.s0, false⟩ .q (.lit 0x80000001) (.lit 33)
    (after i (demo i)).regs.q[0].plain = Entry.mk' 0 .i32 1 ∧ (after j (demo j)).regs.q[0].plain = Entry.mk' 0xFFFFFFFF .i32 1 ∧
    (after k (demo k)).regs.q[0].plain = Entry.mk' 3 .i32 1 := by decide +kernel
/-- R221: iaddi and andi sign-extend, ori zero-extends. -/
theorem test_immediates : let i := Instr.iaddi .s0 .q (.k 5) 0x3F0
    let j := Instr.ori .s0 .q .zero 0x3F0
    let k := Instr.shli .s0 .q (.k 5) 2
    (after i (demo i)).regs.q[0].plain = Entry.mk' 0xFFFFFFF5 .i32 1 ∧ (after j (demo j)).regs.q[0].plain = Entry.mk' 0x3F0 .i32 1 ∧
    (after k (demo k)).regs.q[0].plain = Entry.mk' 20 .i32 1 := by decide +kernel
/-- R219: 0x40 for a zero divisor: the thread stands at its handler, the registers as they were. -/
theorem test_idiv_zero : let i := Instr.idiv ⟨.s0, false⟩ (.k 3) (.k 5) (.k 0)
    (after i (demo i)).pos = Pos.atHeader 0x20000 ∧ (after i (demo i)).trap.cause = 0x140 ∧
    (after i (demo i)).trap.epc = 0x8800000000010000 ∧ (after i (demo i)).regs = regs0 := by decide +kernel
/-- R219, R215: -7 / 2 is -3, due 18 beats later; until then k3 holds nothing. -/
theorem test_idiv : let i := Instr.idiv ⟨.s0, false⟩ (.k 3) (.lit 0xFFFFFFF9) (.k 2)
    ((after i (demo i)).iter.map fun o => (o.due, o.vals)) = [(18, [(0xFFFFFFFD, .i32)])] ∧
    (after i (demo i)).regs.k[3].plain = Entry.pend 6 0 := by decide +kernel
/-- R223 and R225: 5 < 7 is T; pand of T and T is T; a compare into p0 is discarded. -/
theorem test_predicates : let i := Instr.icmpLt ⟨.s0, false⟩ 2 (.k 7) (.k 5)
    let j := Instr.pxor ⟨.s0, false⟩ 1 2 3
    let k := Instr.icmpNe ⟨.s0, false⟩ 0 (.k 5) (.k 5)
    (after i (demo i)).regs.p[2] = ⟨.F, 1, none, .T, false⟩ ∧ (after j (demo j)).regs.p[1] = ⟨.F, 1, none, .T, false⟩ ∧
    (after k (demo k)).regs.p = regs0.p := by decide +kernel
/-- DivisionAndPredicates: predicates read. -/
theorem test_witness_predicates : let s := demo (.pand ⟨.s0, false⟩ 1 2 3)
    s.able false false false [] ∧ readPred 3 2 s = .ok .T s ∧ readPred 3 3 s = .ok .T s ∧ s.roomy :=
  ⟨able_demo _ _ _ _ _, ok_by (by decide +kernel), ok_by (by decide +kernel), roomy_demo _⟩

/-- MultiplyAddAndFields: bits 7 to 4 of 0x5A are 5; imad wraps. -/
theorem test_fields : let i := Instr.bfx .s0 .q (.lit 0x5A) (.lit 4) (.lit 4)
    let j := Instr.bfi .s0 .q (.lit 0xF0) (.lit 0xA) (.lit 0x400)
    let k := Instr.imad .s0 .q (.k 5) (.k 7) (.lit 0xFFFFFFFF)
    (after i (demo i)).regs.q[0].plain = Entry.mk' 5 .i32 2 ∧ (after j (demo j)).regs.q[0].plain = Entry.mk' 0xFA .i32 2 ∧
    (after k (demo k)).regs.q[0].plain = Entry.mk' 34 .i32 2 := by decide +kernel
/-- MultiplyAddAndFields: premises. -/
theorem test_witness_fields : let s := demo (.imad .s0 .q (.k 5) (.k 7) (.k 9))
    s.able false false false [] ∧ readInt 3 true (.k 5) s = .ok (num 5) s ∧ readInt 3 true (.k 7) s = .ok (num 7) s ∧
    readInt 3 true (.k 9) s = .ok (num 9) s ∧ readInt 3 false (.k 9) s = .ok (num 9) s ∧ s.roomy :=
  ⟨able_demo _ _ _ _ _, ok_by (by decide +kernel), ok_by (by decide +kernel), ok_by (by decide +kernel), ok_by (by decide +kernel), roomy_demo _⟩

/-- Thread 3 with 1.5 in k1, 2.0 in k2 (F32), the IV32 [1, 2] in k4 and the IV64 [1, 2] in k6 and k7. -/
def floats (th : Thread) : Thread :=
  putK 4 (Entry.mk' 0x400000003F800000 .iv32 0) (putK 2 (Entry.mk' 0x40000000 .f32 0) (putK 1 (Entry.mk' 0x3FC00000 .f32 0)
    { th with regs := { th.regs with k := setKs th.regs.k 6 [Entry.mk' 0x3FF0000000000000 .iv64 0, Entry.mk' 0x4000000000000000 .iv64 0] } }))

/-- FloatResults and IterativeResults: points, IV32 and IV64 operands read; the bounds are legal, and k8 may take a pair. -/
theorem test_witness_floats : let s := demo (.fadd ⟨.s0, false⟩ .rn .q (.k 1) (.k 2)) floats
    s.able false false false [] ∧
    (readFamily 3 [.k 1, .k 2]).run s = .ok (false, [⟨false, false, false, 0x3FC00000, 0x3FC00000⟩, ⟨false, false, false, 0x40000000, 0x40000000⟩]) s ∧
    (readFamily 3 [.k 4, .k 1]).run s = .ok (false, [⟨false, false, true, 0x3F800000, 0x40000000⟩, ⟨false, false, false, 0x3FC00000, 0x3FC00000⟩]) s ∧
    (readFamily 3 [.k 6]).run s = .ok (true, [⟨true, false, true, 0x3FF0000000000000, 0x4000000000000000⟩]) s ∧
    pairOk s (.k 8) ∧ (Num.decodeF Num.f32 0x3FC00000).isFin = true ∧ s.roomy ∧ (s.thread 3).iter = [] :=
  ⟨able_f _ _ _ _ _ _ (by decide +kernel), ok_by (by decide +kernel), ok_by (by decide +kernel), ok_by (by decide +kernel), ⟨rfl, by decide +kernel⟩,
    by decide +kernel, ⟨rfl, rfl⟩, by decide +kernel⟩
/-- R227: 1.5 + 2.0 = 3.5; 1.5 × 2.0 - 2.0 fused is 1. -/
theorem test_float_points : let i := Instr.fadd ⟨.s0, false⟩ .rn .q (.k 1) (.k 2)
    let j := Instr.fma .s0 .rn .q (.k 1) (.k 2) (.lit 0xC0000000)
    (after i (demo i floats)).regs.q[0].plain = Entry.mk' 0x40600000 .f32 3 ∧ (after j (demo j floats)).regs.q[0].plain = Entry.mk' 0x3F800000 .f32 3 := by decide +kernel
/-- R227, R230: [1, 2] + [1, 2] = [2, 4]; 1 / [1, 2] = [0.5, 1]. -/
theorem test_float_intervals : let i := Instr.fadd ⟨.s0, false⟩ .rn .q (.k 4) (.k 4)
    let j := Instr.frcp ⟨.s0, false⟩ .rn .q (.k 4) .zero
    (after i (demo i floats)).regs.q[0].plain = Entry.mk' 0x4080000040000000 .iv32 4 ∧
    ((after j (demo j floats)).iter.map fun o => (o.due, o.vals)) = [(20, [(0x3F8000003F000000, .iv32)])] := by decide +kernel
/-- R227: the pair [1, 2] negated is [-2, -1]. -/
theorem test_float_pair : let i := Instr.fneg ⟨.s0, false⟩ (.k 8) (.k 6) .zero
    (after i (demo i floats)).regs.k[8].plain = Entry.mk' 0xC000000000000000 .iv64 6 ∧
    (after i (demo i floats)).regs.k[9].plain = Entry.mk' 0xBFF0000000000000 .iv64 6 := by decide +kernel
/-- R230: the square root of a wholly negative interval is empty. -/
theorem test_empty_image : let i := Instr.fsqrt ⟨.s0, false⟩ .rn .q (.k 4) .zero
    (after i (demo i (putK 4 (Entry.mk' 0xBF800000C0000000 .iv32 0)))).trap.cause = 0x141 := by decide +kernel

/-- CompareAndSelect: 1.5 < 2.0 is T, [1, 2] < 1.5 is U; csel on U of two intervals is their hull. -/
theorem test_fcmp_csel : let i := Instr.fcmpLt ⟨.s0, false⟩ 2 (.k 1) (.k 2)
    let j := Instr.fcmpLt ⟨.s0, false⟩ 2 (.k 4) (.k 1)
    let k := Instr.csel .s0 .q (.k 1) (.k 4) 3
    let u (th : Thread) : Thread := { floats th with regs := (floats th).regs.setP 3 (PCell.of .U) }
    (after i (demo i floats)).regs.p[2] = ⟨.T, 1, none, .T, true⟩ ∧ (after j (demo j floats)).regs.p[2] = ⟨.U, 3, none, .T, true⟩ ∧
    (after k (demo k u)).regs.q[0].plain = Entry.mk' 0x400000003F800000 .iv32 1 := by decide +kernel
/-- CompareAndSelect: the premises of csel. -/
theorem test_witness_csel : let s := demo (.csel .s0 .q (.k 5) (.k 9) 3)
    s.able false false false [] ∧ readSrc 3 .pair true (.k 5) s = .ok (num 5) s ∧ readSrc 3 .pair true (.k 9) s = .ok (num 9) s ∧
    readPred 3 3 s = .ok .T s ∧ s.roomy ∧ (num 5).kind ≠ .iv64 :=
  ⟨able_demo _ _ _ _ _, ok_by (by decide +kernel), ok_by (by decide +kernel), ok_by (by decide +kernel), roomy_demo _, by decide +kernel⟩
/-- CompareAndSelect: csel's undecided case: both operands floating and of one family. -/
theorem test_witness_csel_hull : let x : Val := ⟨0x3FC00000, .f32, residue 0x3FC00000, false, 0⟩
    let y : Val := ⟨0x400000003F800000, .iv32, residue 0x400000003F800000, false, 0⟩
    x.asF (.k 1) = some ⟨false, false, false, 0x3FC00000, 0x3FC00000⟩ ∧ y.asF (.k 4) = some ⟨false, false, true, 0x3F800000, 0x40000000⟩ ∧
    (num 5).asF (.k 5) = none := by decide +kernel

/-- Conversions: 1.5 widens exactly, rounds up to 2, and 5 converts to 5.0. -/
theorem test_conversions : let i := Instr.fcvt ⟨.s0, false⟩ .rn .q (.k 1)
    let j := Instr.ftoi ⟨.s0, false⟩ .ru .q (.k 1)
    let k := Instr.itof ⟨.s0, false⟩ .rn .q (.k 5)
    (after i (demo i floats)).regs.q[0].plain = Entry.mk' 0x3FF8000000000000 .f64 3 ∧ (after j (demo j floats)).regs.q[0].plain = Entry.mk' 2 .i32 3 ∧
    (after k (demo k floats)).regs.q[0].plain = Entry.mk' 0x40A00000 .f32 3 := by decide +kernel
/-- Conversions and IntervalWords: a point and an interval read as floating operands. -/
theorem test_witness_conversions : let s := demo (.fcvt ⟨.s0, false⟩ .rn .q (.k 1)) floats
    s.able false false false [] ∧ (readF 3 (.k 1)).run s = .ok ⟨false, false, false, 0x3FC00000, 0x3FC00000⟩ s ∧
    (readF 3 (.k 4)).run s = .ok ⟨false, false, true, 0x3F800000, 0x40000000⟩ s ∧ readInt 3 false (.k 5) s = .ok (num 5) s ∧ s.roomy :=
  ⟨able_f _ _ _ _ _ _ (by decide +kernel), ok_by (by decide +kernel), ok_by (by decide +kernel), ok_by (by decide +kernel), ⟨rfl, rfl⟩⟩

/-- IntervalWords: [1.5, 2] from its points, its midpoint 1.75, the meet of [1, 2] with [1.5, 1.5]. -/
theorem test_intervals : let i := Instr.ivmake ⟨.s0, false⟩ .q (.k 1) (.k 2)
    let j := Instr.ivmid ⟨.s0, false⟩ .q (.k 4)
    let k := Instr.ivmeet ⟨.s0, false⟩ .q (.k 4) (.k 1)
    (after i (demo i floats)).regs.q[0].plain = Entry.mk' 0x400000003FC00000 .iv32 4 ∧ (after j (demo j floats)).regs.q[0].plain = Entry.mk' 0x3FC00000 .f32 3 ∧
    (after k (demo k floats)).regs.q[0].plain = Entry.mk' 0x3FC000003FC00000 .iv32 4 := by decide +kernel
/-- IntervalWords: bounds in the wrong order take 0x41. -/
theorem test_ivmake_order : let i := Instr.ivmake ⟨.s0, false⟩ .q (.k 2) (.k 1)
    (after i (demo i floats)).trap.cause = 0x141 := by decide +kernel

/-! ### Premises met: moving, growing, and the control class -/

/-- A demo machine with a second thread, 7, of index 1 on lane 1 in the same bundle; its k5 holds 50 and its p2 holds U. -/
def demo2 (i : Instr) (f : Thread → Thread := id) : State :=
  let s := demo i f
  let u : Thread := { putK 5 (Entry.mk' 50 .i32 0) (s.thread 3) with
    id := ⟨1, 2, 1, 0, 0, 1, 0⟩ }
  { s with
    threads := [(3, s.thread 3), (7, { u with regs := u.regs.setP 2 (PCell.of .U) })]
    bundles := [(4, ⟨2, 0, 0, 0, [3, 7], 4, 0, false, 0, 0x2, 0, 0⟩)] }

/-- MovesAndGetsr: mov copies value, kind and residue, mov.w2 a pair; reg.free empties. -/
theorem test_moves : let i := Instr.mov ⟨.s0, false⟩ .w2 (.k 8) (.k 6)
    let j := Instr.regFree ⟨.s0, false⟩ .w2 6
    (after i (demo i)).regs.k[9].plain = Entry.mk' 7 .i32 1 ∧ (after i (demo i)).regs.q = regs0.q ∧
    (after j (demo j)).regs.k[7] = Entry.blank ∧ (after j (demo j)).regs.k[8].plain = Entry.mk' 8 .i32 0 := by decide +kernel
/-- R210: movi sign-extends; getsr of sr.txwhy is 0 as I64. -/
theorem test_movi_getsr : let i := Instr.movi .s0 .q 0x3FB
    let j := Instr.getsr .s0 .q 0x042
    (after i (demo i)).regs.q[0].plain = Entry.mk' 0xFFFFFFFB .i32 1 ∧ (after j (demo j)).regs.q[0].plain = Entry.mk' 0 .i64 2 := by decide +kernel
/-- MovesAndGetsr: premises. -/
theorem test_witness_moves : let s := demo (.mov ⟨.s0, false⟩ .w2 (.k 8) (.k 6))
    s.able false false false [] ∧ readSrc 3 .single true (.k 5) s = .ok (num 5) s ∧ s.roomy ∧
    ((List.range (wcount .w2)).mapM fun j => readEntry 3 (s.thread 3).regs.k[(Fin.ofNat 32 (6 + j)).val]) s =
      .ok [Entry.mk' 6 .i32 0, Entry.mk' 7 .i32 0] s :=
  ⟨able_demo _ _ _ _ _, ok_by (by decide +kernel), roomy_demo _, ok_by (by decide +kernel)⟩

/-- IntervalSplit: without a spawn FIFO the whole interval is kept and p5 is F. -/
theorem test_ivsplit : let i := Instr.ivsplit ⟨.s0, false⟩ (.k 4) (.k 4) 5
    ((after i (demo i floats)).iter.map fun o => (o.due, o.vals, o.preds)) = [(6, [(0x400000003F800000, .iv32)], [.F])] ∧
    (after i (demo i floats)).regs.k[4].plain = Entry.pend 6 0 := by decide +kernel
/-- A machine whose team owns bank 20 as its spawn FIFO. -/
def splitter (i : Instr) : State := (demo i floats).modBank 0 20 fun b => { b with mode := .fifo, own := some 1 }
/-- IntervalSplit: with one, the lower half [1, 1.5] is kept, p5 is T, and the record's named register k4 holds [1.5, 2]. -/
theorem test_ivsplit_spawns : let i := Instr.ivsplit ⟨.s0, false⟩ (.k 4) (.k 4) 5
    let t := nxt (exec i (splitter i))
    ((t.thread 3).iter.map fun o => (o.due, o.vals, o.preds)) = [(6, [(0x3FC000003F800000, .iv32)], [.T])] ∧
    (t.bank 0 20).items.length = 64 ∧ (t.bank 0 20).items.getD 7 0 = 0x400000003FC00000 ∧ (t.bank 0 20).items.getD 0 0 = 0x10008 := by decide +kernel
/-- IntervalSplit: premises, with and without room for a child. -/
theorem test_witness_ivsplit : let s := splitter (.ivsplit ⟨.s0, false⟩ (.k 4) (.k 4) 5)
    s.able false false false [] ∧ s.idle ∧ pairFits s (.k 4) [.k 4] allWide ∧ (∀ u ∈ s.mates 3, (s.thread u).id.tig < (s.thread 3).id.tig →
      (s.thread u).done = true) ∧ (∀ e ∈ (s.thread 3).regs.k.toList ++ (s.thread 3).regs.q.toList, e.wait = none ∧ e.ready ≤ s.lcOf 3) ∧
    (∀ e ∈ (s.thread 3).regs.p.toList, e.wait = none ∧ e.ready ≤ s.lcOf 3) ∧ (readF 3 (.k 4)).run s = .ok ⟨false, false, true, 0x3F800000, 0x40000000⟩ s ∧
    s.roomy ∧ s.spawnFifo 0 1 = some 20 ∧ (s.bank 0 20).items.length ≤ 16320 ∧ (demo .snapClose).spawnFifo 0 1 = none ∧
    s.mates 3 = [3] :=
  ⟨able_of _ _ _ _ _ (by decide +kernel), rfl, fun h => absurd h (by decide +kernel), by decide +kernel, by decide +kernel, by decide +kernel,
    ok_by (by decide +kernel), ⟨rfl, rfl⟩, by decide +kernel⟩

/-- RegisterGrowth: premises at the count that stands, and at one out of range. -/
theorem test_witness_grow : let s := demo2 (.regGrow ⟨.s0, false⟩ (.k 16))
    s.able false false false [] ∧ gatherAll 3 (growOperand (.lit 24)) (s.partners 3 false) s = .ok [(3, 24), (7, 24)] s ∧
    gatherAll 3 (growOperand (.lit 33)) (s.partners 3 false) s = .ok [(3, 33), (7, 33)] s ∧ s.roomy ∧
    s.arrivals 3 = [3, 7] ∧ (s.groupOf 3).grow = none ∧ (s.groupOf 3).n = 32 ∧ greatest [(3, 24), (7, 24)] = 24 :=
  ⟨able_of _ _ _ _ _ (by decide +kernel), ok_by (by decide +kernel), ok_by (by decide +kernel), ⟨rfl, rfl⟩, by decide +kernel⟩
/-- R203: the count becomes 24 and k24 is EMPTY in both threads; 33 takes 0x44. -/
theorem test_grow : let i := Instr.regGrow ⟨.s0, false⟩ (.lit 24)
    let j := Instr.regGrow ⟨.s0, false⟩ (.lit 33)
    ((nxt (exec i (demo2 i))).group 2).n = 24 ∧ ((nxt (exec i (demo2 i))).thread 7).regs.k[24] = Entry.blank ∧
    ((nxt (exec i (demo2 i))).thread 7).regs.k[23].plain = Entry.mk' 23 .i32 0 ∧ (after j (demo2 j)).trap.cause = 0x144 := by decide +kernel

/-- Branches: br 5 words on, an untaken br, and call's link. -/
theorem test_branches : let i := Instr.br 0 .always 5
    let j := Instr.br 1 .f 5
    let k := Instr.call 1 .t 0x7FFFF
    (after i (demo i)).pos = Pos.atHeader 0x10018 ∧ (after j (demo j)).pos = Pos.atHeader 0x10008 ∧
    (after k (demo k)).pos = Pos.atHeader 0x10000 ∧ (after k (demo k)).regs.q[0].plain = Entry.mk' 0x10008 .i64 1 := by decide +kernel
/-- Branches: br3 by U, brt by its operand, and past its table. -/
theorem test_branch_tables : let i := Instr.br3 2 1 2 3
    let j := Instr.brt ⟨.s0, false⟩ (.k 1) [4, 6, 8]
    let k := Instr.brt ⟨.s0, false⟩ (.k 3) [4, 6, 8]
    let u (th : Thread) : Thread := { th with regs := th.regs.setP 2 (PCell.of .U) }
    (after i (demo i u)).pos = Pos.atHeader 0x10010 ∧ (after j (demo j)).pos = Pos.atHeader 0x1001C ∧ (after k (demo k)).trap.cause = 0x161 := by decide +kernel
/-- Branches: jmp to 8, and to a misaligned 5; ret takes a link only. -/
theorem test_jumps : let i := Instr.jmp ⟨.s0, false⟩ (.k 8)
    let j := Instr.jmp ⟨.s0, false⟩ (.k 5)
    let k := Instr.ret ⟨.s0, false⟩ (.k 8)
    (after i (demo i)).pos = Pos.atHeader 8 ∧ (after j (demo j)).trap.cause = 0x164 ∧ (after k (demo k)).trap.cause = 0x12D := by decide +kernel
/-- A running candidate of 20 words with every record granted. -/
def candidate (len fuel : Nat) (th : Thread) : Thread :=
  { th with trial := some ⟨len, 9, 100, fuel, 0xFFFFFFFFFFFFFFFF, 8, 0x10008, none, false, 0⟩, pos := { th.pos with pc := 4 } }
theorem able_candidate (i : Instr) (ng rel : Bool) (len : Nat) : (demo i (candidate len 7)).able ng false rel [] :=
  ⟨rfl, rfl, fun _ => .inl rfl,
    fun r e => by
    have : r = ⟨len, 9, 100, 7, 0xFFFFFFFFFFFFFFFF, 8, 0x10008, none, false, 0⟩ := by injection e with e; exact e.symm
    subst this; exact ⟨rfl, fun _ => ⟨rfl, fun _ h => (nomatch h), by show (7 : Nat) ≠ 0; decide⟩⟩⟩
/-- RegisterGrowth: premises: a candidate that asks for the count that stands, and for another. -/
theorem test_witness_grow_trial : let s := demo (.regGrow ⟨.s0, false⟩ (.lit 32)) (candidate 4 7)
    s.able false false false [] ∧ (s.thread 3).inTrial = true ∧ gatherAll 3 (growOperand (.lit 32)) (s.partners 3 false) s = .ok [(3, 32)] s ∧
    gatherAll 3 (growOperand (.lit 20)) (s.partners 3 false) s = .ok [(3, 20)] s ∧ s.roomy ∧ (s.groupOf 3).n = 32 ∧ (s.groupOf 3).grow = none :=
  ⟨able_candidate _ _ _ _, by decide +kernel, ok_by (by decide +kernel), ok_by (by decide +kernel), ⟨rfl, rfl⟩, by decide +kernel⟩
/-- Branches: premises, outside and inside a candidate; a target in it, and one outside it. -/
theorem test_witness_branches : let s := demo (.br 1 .t 5)
    s.able false false false [] ∧ readPred 3 1 s = .ok .T s ∧ s.roomy ∧ readUnsigned 3 (.k 8) s = .ok 8 s ∧
    readSrc 3 .single false (.k 8) s = .ok (num 8) s ∧ landing (s.thread 3) (-4) = some (2 ^ 64 - 4) ∧
    landing ((demo (.br 1 .t 5) (candidate 20 7)).thread 3) 19 = some 19 ∧ landing ((demo (.br 1 .t 5) (candidate 20 7)).thread 3) 20 = none ∧
    landing ((demo (.br 1 .t 5) (candidate 20 7)).thread 3) (-1) = none :=
  ⟨able_demo _ _ _ _ _, ok_by (by decide +kernel), ⟨rfl, rfl⟩, ok_by (by decide +kernel), ok_by (by decide +kernel), by decide +kernel⟩
/-- R318: a candidate's branch lands at a word offset and costs fuel; one out of it ends the trial with 0x66 there. -/
theorem test_candidate_branch : let i := Instr.br 0 .always 5
    let j := Instr.br 0 .always 19
    (after i (demo i (candidate 20 7))).pos = Pos.atHeader 10 ∧ (after i (demo i (candidate 20 7))).trial.map (·.fuel) = some 6 ∧
    (after j (demo j (candidate 20 7))).trial.map (·.ending) = some (some ⟨1, 0x66, 5⟩) ∧ (after j (demo j (candidate 20 7))).trial.map (·.fuel) = some 7 := by
  decide +kernel

/-- EndGatherAndBarriers: exit ends the thread; nop passes; reform files the thread; sbar.enrol joins, sbar.join holds. -/
theorem test_end_and_gather : let i := Instr.exitT ⟨.s0, false⟩
    let j := Instr.sbarEnrol .s0 (.enrolSet 48)
    let k := Instr.sbarJoin .s0
    (nxt (exec i (demo i))).threads.find 3 = none ∧ ((nxt (exec j (demo j))).group 2).enrolled = [0] ∧ ((nxt (exec j (demo j))).group 2).thresh = 48 ∧
    (after k ((demo k).modGroup 2 fun g => { g with enrolled := [0] })).place = .soft := by decide +kernel
/-- EndGatherAndBarriers: premises of the clauses on exit, reform and sbar.join. -/
theorem test_witness_gather : let s := (demo (.sbarJoin .s0)).modGroup 2 fun g => { g with enrolled := [0] }
    s.able false true true [] ∧ (s.thread 3).cnt.st = 0 ∧ s.roomy ∧ s.bins.sorted = true ∧ (s.thread 3).inTrial = false ∧
    (s.groupOf 3).enrolled = [0] ∧ (s.thread 3).id.tig = 0 ∧ (s.groups.find 2).isSome = true ∧ (demo (.sbarJoin .s0) |>.groupOf 3).enrolled = [] :=
  ⟨able_of _ _ _ _ _ (by decide +kernel), by decide +kernel, ⟨rfl, rfl⟩, by decide +kernel⟩
/-- R290: a thread that reforms stands in a bin at the header after its clause. -/
theorem test_reform : let i := Instr.reform ⟨.s0, false⟩
    (after i (demo2 i)).pos = Pos.atHeader 0x10008 ∧ (after i (demo2 i)).place = .bin := by decide +kernel
/-- R300: the second of two arrivals opens the next generation; barrier 4 is not granted; 17 is more than the team. -/
theorem test_barriers : let i := Instr.barArrive .s0 (.lit 2) 3
    let j := Instr.barArrive .s0 (.lit 2) 4
    let k := Instr.barArrive .s0 (.lit 17) 3
    let s1 := nxt (exec i (demo2 i))
    (s1.work 1).bars.find 3 = some ⟨some 2, 1, 0, []⟩ ∧
    (((nxt (exec i { s1 with sched := { s1.sched with cur := 7 } })).work 1).bars.find 3) = some ⟨none, 0, 1, [(0, 0, 0)]⟩ ∧
    (after j (demo j)).trap.cause = 0x162 ∧ (after k (demo k)).trap.cause = 0x163 := by decide +kernel
/-- EndGatherAndBarriers: premises of the named barriers: granted and not, counts right and wrong, and a generation that is over. -/
theorem test_witness_barriers : let s := (demo (.barSync .s0 (.k 2) 3) fun th => { th with arrived := [(3, 0)] }).modWork 1 fun w =>
      { w with bars := [(3, ⟨some 2, 1, 1, [(0, 0, 0)]⟩)] }
    s.able false true false [] ∧ (s.workOf 3).kernel.nb = 4 ∧ (s.workOf 3).kernel.team = 16 ∧ readUnsigned 3 (.k 2) s = .ok 2 s ∧ s.roomy ∧
    (s.thread 3).cnt.st = 0 ∧ (s.thread 3).stage = 0 ∧ s.mates 3 = [3] ∧ (s.thread 3).arrived = [(3, 0)] ∧
    (s.workOf 3).bars.getD 3 ⟨none, 0, 0, []⟩ = ⟨some 2, 1, 1, [(0, 0, 0)]⟩ :=
  ⟨able_of _ _ _ _ _ (by decide +kernel), by decide +kernel, by decide +kernel, ok_by (by decide +kernel), ⟨rfl, rfl⟩, by decide +kernel⟩

/-- ShufflesAndVotes, GroupReductions: premises for two participants. -/
theorem test_witness_collectives : let s := demo2 (.gredAdd ⟨.s0, false⟩ .q (.k 5))
    firstOf s false ∧ gatherAll 3 (gatherTwo (.k 5) (.lit 1)) (s.partners 3 false) s =
      .ok [(3, num 5, 1), (7, num 50, 1)] s ∧
    gatherAll 3 (voteOperand 2) (s.partners 3 false) s = .ok [(3, .T), (7, .U)] s ∧
    gatherAll 3 (gredOperand (.k 5)) (s.partners 3 false) s = .ok [(3, num 5), (7, num 50)] s ∧ s.roomy ∧
    (s.threads.find 3).isSome ∧ (s.threads.find 7).isSome :=
  ⟨⟨able_of _ _ _ _ _ (by decide +kernel), rfl⟩, ok_by (by decide +kernel), ok_by (by decide +kernel), ok_by (by decide +kernel), ⟨rfl, rfl⟩,
    by decide +kernel⟩
/-- GroupReductions, RegisterGrowth: a participant whose part is performed. -/
theorem test_witness_performed : let s := demo2 (.gredAdd ⟨.s0, false⟩ .q (.k 5)) fun th => { th with part := true }
    s.able false false false [] ∧ s.roomy ∧ (s.thread 3).part = true ∧ (s.thread 3).stage < 0x100 :=
  ⟨able_of _ _ _ _ _ (by decide +kernel), ⟨rfl, rfl⟩, by decide +kernel⟩
/-- What is on its way to a thread after a collective. -/
def dues (u : Nat) (i : Instr) : List (Nat × List (Word64 × Kind)) := ((nxt (exec i (demo2 i))).thread u).iter.map fun o => (o.due, o.vals)
/-- R309, R310: the sum of 5 and 50 for both threads after 6 beats; all of T and U is U; the ballot of p2 is bit 0. -/
theorem test_collectives : let i := Instr.gredAdd ⟨.s0, false⟩ .q (.k 5)
    let k := Instr.voteAll ⟨.s0, false⟩ 1 2
    let l := Instr.voteBallot ⟨.s0, false⟩ .q 2
    dues 3 i = [(6, [(55, .i32)])] ∧ dues 7 i = [(6, [(55, .i32)])] ∧ dues 7 l = [(2, [(1, .i64)])] ∧
    ((nxt (exec k (demo2 k))).thread 7).iter.map (·.preds) = [[.U]] := by decide +kernel
/-- R309, R310: the exchange of k5 after 4 beats. -/
theorem test_shuffle : let j := Instr.shflXor ⟨.s0, false⟩ .q (.k 5) (.lit 1)
    dues 3 j = [(4, [(50, .i32)])] ∧ dues 7 j = [(4, [(5, .i32)])] := by decide +kernel
/-- R310: bcast of index 1 gives 50; a mix of I32 and F32 takes 0x2D. -/
theorem test_bcast : let i := Instr.bcast ⟨.s0, false⟩ .q (.k 5) (.lit 1)
    let j := Instr.gredMin ⟨.s0, false⟩ .q (.k 5)
    (after i (demo2 i)).iter.map (·.vals) = [[(50, .i32)]] ∧
    (after j ((demo2 j).modThread 3 (putK 5 (Entry.mk' 0x3F800000 .f32 0)))).trap.cause = 0x12D := by decide +kernel

/-! ### Premises met: memory words and memory events -/

/-- A record of R139: home, rights at, wr, rd (and en), unit 4 bytes, extent, base. -/
def recWords (home base : Nat) : BitVec 512 :=
  BitVec.ofNat 512 (2 ^ 511 + home * 2 ^ 376 + 15 * 2 ^ 372 + 2 * 2 ^ 356 + 0x10000 * 2 ^ 64 + base)

/-- A demo machine with records tb5 (main memory at 0x40000), tb6 (scratchpad) and tb7 (host memory at 0x1000); 0x40000 is mapped to
near-tier address 0x20000 of die 0, where words 0, 1 and 5 hold 5, 0xFFFFFFF0 and 0x11223380; scratchpad word 5 holds 77. -/
def mem0 (i : Instr) (f : Thread → Thread := id) : State :=
  let s := demo i f
  let s := { s with
    ctxs := [(1, { Context.reset with
      bound := true, trapVec := 0x20001, recs := [(5, recWords 0 0x40000), (6, recWords 0xFC 0), (7, recWords 0xFE 0x1000)] })]
    homes := { s.homes with
      mem := Memory.writeN (Memory.writeN (Memory.writeN [] 0x20000 [5, 0, 0, 0]) 0x20004 [0xF0, 0xFF, 0xFF, 0xFF]) 0x20014 [0x80, 0x33, 0x22, 0x11]
      host := Memory.writeN [] 0x1014 [9] } }
  let s := s.modDie 0 fun d => { d with tlb := [⟨1, 16, 4, 0x20037⟩] }
  (s.modBank 0 16 fun b => { b with own := some 1, bytes := Memory.writeN [] 20 [77] })

/-- The machine after the event that performs operation 6. -/
def returned (s : State) : State := nxt (exec (.loadDataReturn 6) s)

/-- R153: a load of word 5 fills its destination when the data is written; until then k3 is empty. -/
theorem test_load : let i := Instr.ld32 .w1 .normal (.k 3) 5 (.k 5)
    let s := nxt (exec i (mem0 i))
    (s.thread 3).regs.k[3].plain = Entry.pend 6 0 ∧ (s.thread 3).cnt.ld = 1 ∧
    ((returned s).thread 3).regs.k[3].plain = Entry.mk' 0x11223380 .i32 0 ∧ ((returned s).thread 3).regs.q[0].plain = Entry.mk' 0x11223380 .i32 0 ∧
    ((returned s).thread 3).cnt.ld = 0 := by decide +kernel
/-- R153: the low byte of word 5, sign- and zero-extended; from the scratchpad and the host. -/
theorem test_load_forms : let i := Instr.ldS8 .normal (.k 3) 5 (.k 5)
    let j := Instr.ldZ16 .normal (.k 3) 6 (.lit 5)
    let l := Instr.ld32 .w1 .normal (.k 3) 6 (.k 5)
    ((returned (nxt (exec i (mem0 i)))).thread 3).regs.k[3].plain = Entry.mk' 0xFFFFFF80 .i32 0 ∧
    ((returned (nxt (exec j (mem0 j)))).thread 3).regs.k[3].plain = Entry.mk' 77 .i32 0 ∧
    ((returned (nxt (exec l (mem0 l)))).thread 3).regs.k[3].plain = Entry.mk' 77 .i32 0 := by decide +kernel
/-- R144: past the extent 0x20; a misaligned pair 0x23; an unmapped page waits for its walk. -/
theorem test_load_causes : let i := Instr.ld32 .w1 .normal (.k 3) 5 (.lit 0x4000)
    let j := Instr.ld32 .w2 .normal (.k 4) 5 (.k 5)
    let l := Instr.ld32 .w1 .normal (.k 3) 5 (.k 5)
    (after i (mem0 i)).trap.cause = 0x120 ∧ (after i (mem0 i)).trap.val = 0x50000 ∧ (after j (mem0 j)).trap.cause = 0x123 ∧
    (((nxt (exec l ((mem0 l).modDie 0 fun d => { d with tlb := [] }))).die 0).walks.map fun w => (w.region, w.waiters)) = [(4, [.thread 3])] := by
  decide +kernel

/-- The access of tb5 word 5. -/
def access5 : Access := ⟨.main, .latest, [⟨0x40014, 0x20014, 0x20014, 0, 4, false⟩]⟩
/-- tb5, word 5, placed. -/
def placed5 : Placed := ⟨Sys2Proof.Machine.recF (recWords 0 0x40000), .main, .latest, [(20, 4)], 0x40014⟩

/-- A demo machine once checks 1 to 6 of thread 3's access of a record have passed (R164). -/
def checked (s : State) (home base : Nat) : State := s.modThread 3 fun th => { th with checked := some (recWords home base) }

/-- LoadsIssue: premises, for a load of main memory, and one of the host, which holds. -/
theorem test_witness_loads : let s := mem0 (.ld32 .w1 .normal (.k 3) 5 (.k 5))
    s.able false false false [5] ∧ (s.thread 3).stage < 2 ∧ cached s = true ∧ readSrc 3 .raw false (.k 5) s = .ok (num 5) s ∧
    let u := left (resolve 3 5 (num 5) 4 4 rdRights .read true s)
    resolve 3 5 (num 5) 4 4 rdRights .read true s = .ok access5 u ∧ u.roomy ∧ (u.thread 3).cnt.ld < 255 ∧ near access5.home ∧
    resolve 3 7 (num 5) 4 4 rdRights .read true s = .ok ⟨.host, .latest, [⟨0x1014, 0x1014, 0x1014, 0, 4, false⟩]⟩ (checked s 0xFE 0x1000) ∧ ¬ near .host ∧
    ∃ u, resolve 3 5 (num 0x4000) 4 4 rdRights .read true s = .error (.trap 0x20 0x50000) u :=
  ⟨able_of _ _ _ _ _ (by decide +kernel), by decide +kernel, rfl, ok_by (by decide +kernel), ok_left (by decide +kernel), ⟨by decide +kernel, by decide +kernel⟩,
    by decide +kernel, .inl rfl, ok_by (by decide +kernel), fun h => h.elim nofun nofun, error_eq _ _ (by decide +kernel)⟩

/-- LoadsIssue: premises: a load whose page has no translation waits. -/
theorem test_witness_loads_wait : let s := (mem0 (.ld32 .w1 .normal (.k 3) 5 (.k 5))).modDie 0 fun d => { d with tlb := [] }
    (match resolve 3 5 (num 5) 4 4 rdRights .read true s with | .error (.hold _) u => !u.overfull 1 | _ => false) = true := by decide +kernel
/-- AwaitedWords: premises: a word that waits for operation 6, which has performed; before that, the access of an ldiv and of an lcload. -/
theorem test_witness_awaited : let i := Instr.ldiv32 .normal (.k 3) 5 (.lit 2)
    let s1 := nxt (exec i (mem0 i))
    let s2 := nxt (exec (.wordRevocation 0 0) (returned s1))
    (s1.thread 3).stage = 8 ∧ (s2.thread 3).stage = 6 + 2 ∧ ((s2.ops.find 6).map fun o => (o.performed, o.revs)) = some (true, []) ∧
    s2.able false false false [5] ∧ (s2.thread 3).cnt.ld = 1 ∧ State.roomy { s2 with ops := s2.ops.drop 6 } :=
  ⟨by decide +kernel, by decide +kernel, by decide +kernel, able_of _ _ _ _ _ (by decide +kernel), by decide +kernel,
    by simp only [State.roomy]; decide +kernel⟩
/-- AwaitedWords: premises: the first access of an ldiv and of an lcload. -/
theorem test_witness_awaited2 : let s := mem0 (.ldiv32 .normal (.k 3) 5 (.k 5))
    s.able false true false [5] ∧ (s.thread 3).stage = 0 ∧ readSrc 3 .raw false (.lit 0) s = .ok (Val.imm' 0) s ∧
    resolve 3 5 (Val.imm' 0) 8 8 rdRights .read true s = .ok ⟨.main, .latest, [⟨0x40000, 0x20000, 0x20000, 0, 8, false⟩]⟩ (left (resolve 3 5 (Val.imm' 0) 8 8 rdRights .read true s)) ∧
    placeAccess 3 5 (Val.imm' 0) (fun _ i => i * 512) 512 16 linearRec rdRights anyHome (pure ()) s =
      .ok ⟨Sys2Proof.Machine.recF (recWords 0 0x40000), .main, .latest, (List.range 32).map fun c => (16 * c, 16), 0x40000⟩ (checked s 0 0x40000) :=
  ⟨able_of _ _ _ _ _ (by decide +kernel), by decide +kernel, ok_by (by decide +kernel), ok_left (by decide +kernel), ok_by (by decide +kernel)⟩
/-- R156: the words (5, 0xFFFFFFF0) are no legal interval: the thread takes 0x41 when the data returns. -/
theorem test_ldiv_illegal : let i := Instr.ldiv32 .normal (.k 3) 5 (.lit 0)
    ((returned (nxt (exec i (mem0 i)))).thread 3).trap.cause = 0x141 := by decide +kernel

/-- R154: a store of k7's low half to half-word 10 (0x14) leaves the bytes beside it. -/
theorem test_store : let i := Instr.st16 .normal (.lit 0xABCD1234) 5 (.k 5)
    let s := nxt (exec i (mem0 i))
    let u := nxt (exec (.storeAcknowledge 6) s)
    (s.thread 3).cnt.st = 1 ∧ u.homes.mem.readN 0x20014 4 = [0x34, 0x12, 0x22, 0x11] ∧ (u.thread 3).cnt.st = 0 ∧
    (u.thread 3).regs = regs0 := by decide +kernel
/-- R154: a pair is stored in register order; to the scratchpad and to the host. -/
theorem test_store_forms : let i := Instr.st32 .w2 .normal (.k 6) 5 (.lit 2)
    let j := Instr.st32 .w1 .normal (.k 7) 6 (.k 5)
    let l := Instr.st8 .normal (.k 7) 7 (.k 5)
    let ack (i : Instr) : State := nxt (exec (.storeAcknowledge 6) (nxt (exec i (mem0 i))))
    (ack i).homes.mem.readN 0x20008 8 = [6, 0, 0, 0, 7, 0, 0, 0] ∧ (ack j).spRead 0 1 20 4 = [7, 0, 0, 0] ∧
    (ack l).homes.host.readN 0x1014 1 = [7] := by decide +kernel
/-- StoresIssue: premises: data and index read, the access placed and translated; and a store that goes to the side log. -/
theorem test_witness_stores : let s := mem0 (.st32 .w1 .normal (.k 7) 5 (.k 5))
    let u := s.modDie 0 fun d => { d with tlb := [] }
    s.able false false true [5] ∧ (s.thread 3).cnt = ⟨0, 0, 0⟩ ∧ (groupSrcs (.k 7) 1).mapM (readSrc 3 .raw true) s = .ok [num 7] s ∧
    readSrc 3 .raw false (.k 5) s = .ok (num 5) s ∧
    placeAccess 3 5 (num 5) scaled 4 4 anyRec wrRights anyHome (pure ()) s = .ok placed5 (checked s 0 0x40000) ∧
    let s3 := checked s 0 0x40000
    let u3 := checked u 0 0x40000
    goesToSide 3 placed5 s3 = .ok false s3 ∧ placeXlat 3 placed5 .write false s3 = .ok access5 (left (placeXlat 3 placed5 .write false s3)) ∧
    s3.roomy ∧ (s.thread 3).stage < 2 ∧ goesToSide 3 placed5 u3 = .ok true (left (goesToSide 3 placed5 u3)) ∧ myTurn s ∧ txOf s3 0 = none ∧
    ans (sideLog 3 5 placed5 [(0x40014, 4)] [7, 0, 0, 0] (fun b => .store b 32) .normal (left (goesToSide 3 placed5 u3))) = some () :=
  ⟨able_of _ _ _ _ _ (by decide +kernel), by decide +kernel, ok_by (by decide +kernel), ok_by (by decide +kernel), ok_by (by decide +kernel),
    ok_by (by decide +kernel), ok_left (by decide +kernel), ⟨rfl, rfl⟩, by decide +kernel, ok_left (by decide +kernel),
    turn_of _ (by decide +kernel), by decide +kernel⟩
/-- A machine with an open transaction of thread 3, whose record 5 reads and writes through it; the page's entry is `e`. -/
def inTx (i : Instr) (e : BitVec 64) : State :=
  let s := (mem0 i).modDie 0 fun d => { d with tlb := [⟨1, 16, 4, e⟩] }
  (s.modThread 3 fun th => { th with view := some ⟨5, true, 0, false⟩ }).modCtx 1 fun c => { c with recs := [(5, recWords 0 0x40000 + BitVec.ofNat 512 (2 * 2 ^ 368))] }
/-- StoresIssue: premises: a transactional store to a page that is not versioned, to one that is, and one whose page may not be written. -/
theorem test_witness_tx_store : let go : M Bool := do
        let p ← placeAccess 3 5 (num 5) scaled 4 4 anyRec wrRights anyHome (pure ())
        if ← goesToSide 3 p then return false
        let a ← placeXlat 3 p .write false
        let u ← unversioned p.home a
        return u && (txOf (← get) p.r.view) == some 5
    let i := Instr.st32 .w1 .normal (.k 7) 5 (.k 5)
    ans (go (inTx i 0x20037)) = some true ∧ ans (go (inTx i 0x800020037)) = some false ∧ why (go (inTx i 0x20033)) = some (.trap 0x25 0x40014) ∧
    (after i (inTx i 0x20037)).trap.cause = 0x194 := by decide +kernel
/-- StoresIssue: the bytes of a point and of an interval. -/
theorem test_witness_stiv : boundBytes false ⟨0x3F800000, .f32, residue 0x3F800000, false, 0⟩ (num 0) = some [0, 0, 0x80, 0x3F, 0, 0, 0x80, 0x3F] ∧
    boundBytes true ⟨1, .iv64, 1, false, 0⟩ ⟨2, .iv64, 2, false, 0⟩ = some ([1, 0, 0, 0, 0, 0, 0, 0] ++ [2, 0, 0, 0, 0, 0, 0, 0]) := by decide +kernel

/-- R158: atom.add pushes the old 5 and leaves 12; red.max on the signed word 1 leaves 7. -/
theorem test_atomics : let i := Instr.atomAdd .normal (.k 7) 5 .zero
    let j := Instr.redMax .normal (.k 7) 5 (.k 1)
    let u := returned (nxt (exec i (mem0 i)))
    let v := nxt (exec (.storeAcknowledge 6) (nxt (exec j (mem0 j))))
    (u.thread 3).regs.q[0].plain = Entry.mk' 5 .i32 0 ∧ u.homes.mem.readN 0x20000 4 = [12, 0, 0, 0] ∧
    v.homes.mem.readN 0x20004 4 = [7, 0, 0, 0] ∧ (v.thread 3).regs.q = regs0.q := by decide +kernel
/-- R158: compare-and-swap of 4 with 5 fails to match k4's 4 against 5, and matches k4 = 5. -/
theorem test_cas : let i := Instr.atomCas .normal 4 5 .zero
    let u := returned (nxt (exec i (mem0 i)))
    let v := returned (nxt (exec i (mem0 i (putK 4 (Entry.mk' 5 .i32 0)))))
    u.homes.mem.readN 0x20000 4 = [5, 0, 0, 0] ∧ v.homes.mem.readN 0x20000 4 = [5, 0, 0, 0] ∧
    (returned (nxt (exec (.atomCas .normal 4 5 (.k 1)) (mem0 i (putK 4 (Entry.mk' 0xFFFFFFF0 .i32 0)))))).homes.mem.readN 0x20004 4 = [5, 0, 0, 0] := by
  decide +kernel
/-- AtomicsIssue: premises. -/
theorem test_witness_atomics : let s := mem0 (.atomAdd .normal (.k 7) 5 (.k 5))
    s.able false false false [5] ∧ myTurn s ∧ (s.thread 3).stage < 2 ∧ atomWidth (num 7) = some 4 ∧
    readSrc 3 .raw false (.k 7) s = .ok (num 7) s ∧ readSrc 3 .raw false (.k 5) s = .ok (num 5) s ∧
    let s3 := checked s 0 0x40000
    let s4 := left (placeXlat 3 placed5 .atomic false s3)
    placeAtom 3 5 (num 5) .add true (num 7) (fun _ => pure ()) atRights s = .ok placed5 s3 ∧
    placeAtom 3 5 (num 5) .add false (num 7) (fun _ => pure ()) redRights s = .ok placed5 s3 ∧
    placeAtom 3 5 (num 5) .cas true (num 7) (fun _ => pure ()) atRights s = .ok placed5 s3 ∧
    placeXlat 3 placed5 .atomic false s3 = .ok access5 s4 ∧ (s4.thread 3).cnt.ld < 255 ∧ s4.roomy :=
  ⟨able_of _ _ _ _ _ (by decide +kernel), turn_of _ (by decide +kernel), by decide +kernel, by decide +kernel, ok_by (by decide +kernel),
    ok_by (by decide +kernel), ok_by (by decide +kernel), ok_by (by decide +kernel), ok_by (by decide +kernel),
    ok_left (by decide +kernel), by decide +kernel, ⟨by decide +kernel, by decide +kernel⟩⟩

/-- SignaturesAndRecords: rec.rd of word 1 gives the extent as I64; rec.wr of word 0 moves the base; word 8 is none. -/
theorem test_records : let i := Instr.recRd .w1 .normal (.k 3) 5 (.k 1)
    let j := Instr.recWr .w1 .normal (.k 7) 5 .zero
    let k := Instr.recRd .w1 .normal (.k 3) 5 (.k 8)
    ((returned (nxt (exec i (mem0 i)))).thread 3).regs.k[3].plain = Entry.mk' 0x10000 .i64 0 ∧
    (Sys2Proof.Machine.recF (((nxt (exec (.storeAcknowledge 6) (nxt (exec j (mem0 j))))).ctx 1).recAt 5)).base = 7 ∧
    (after k (mem0 k)).trap.cause = 0x120 := by decide +kernel
/-- SignaturesAndRecords: premises, with a record of the host, and a word 5 that would make one. -/
theorem test_witness_records : let s := mem0 (.recWr .w1 .normal (.k 7) 5 (.k 5))
    s.able false true false [5] ∧ (groupSrcs (.k 7) (wcount .w1)).mapM (readSrc 3 .raw true) s = .ok [num 7] s ∧
    readSrc 3 .raw false (.k 5) s = .ok (num 5) s ∧ s.roomy ∧ (num 5).index = some 5 ∧ (recNamed s 7).home = 0xFE ∧ (recNamed s 5).home = 0 ∧
    let p : Placed := ⟨recNamed s 5, .main, .latest, (List.range 64).map fun j => (16 * ((7 + j) % 4096), 16), 0x40070⟩
    placeSig 3 5 7 s = .ok p (checked s 0 0x40000) ∧ (ans (placeXlat 3 p .atomic false (checked s 0 0x40000))).isSome = true ∧ myTurn s :=
  ⟨able_of _ _ _ _ _ (by decide +kernel), ok_by (by decide +kernel), ok_by (by decide +kernel), ⟨rfl, rfl⟩, by decide +kernel,
    by decide +kernel, by decide +kernel, ok_by (by decide +kernel), by decide +kernel, turn_of _ (by decide +kernel)⟩
/-- SignaturesAndRecords: premises of pf: a line of main memory that can be brought in, one that cannot, one past the record's extent,
and a home that is not main memory. -/
theorem test_witness_pf : let s := mem0 (.pf .normal 5 (.k 5))
    let place := placeAccess 3 5 (num 5) scaled 1 1 anyRec rdRights anyHome (pure ()) s
    (match place with | .ok p s2 => decide (p.home = .main) && p.cs == [(20, 1)] && s2.sched.cur == 3 | _ => false) = true ∧
    (match s.quietLook 0 1 0x40014 .read with
      | .ok xl u => xl.src / 256 == 0x200 && !xl.ver && !(u.codeCheck 1 0x200).poisoned 0x200 && (u.codeCheck 1 0x200).lineAwake 0x200
      | _ => false) = true ∧
    (match s.quietLook 0 1 0x80000 .read with | .bad c => c == 0x24 | _ => false) = true ∧
    (s.homes.poisonOne 0x200).poison = [0x200] ∧
    (why (placeAccess 3 5 (num 0x10000) scaled 1 1 anyRec rdRights anyHome (pure ()) s)).isSome = true ∧
    (match placeAccess 3 6 (num 5) scaled 1 1 anyRec rdRights anyHome (pure ()) s with | .ok p _ => decide (p.home ≠ .main) | _ => false) = true ∧
    ((nxt (exec (.pf .normal 5 (.k 5)) s)).core 0).l1.map (·.line) = [0x400] := by decide +kernel
/-- R162: a new signature pushes 1; the table holds it. R159: pf of an unmapped page has no effect. -/
theorem test_sigin_pf : let i := Instr.sigin .normal 6 5
    let j := Instr.pf .normal 5 (.lit 0x4000)
    let s := returned (nxt (exec i (mem0 i)))
    (nxt (exec i s)).homes.mem.readN (0x20000 + 16 * 6) 16 = leBytes 8 6 ++ leBytes 8 7 ∧ (after i s).regs.q[0].plain = Entry.mk' 1 .i32 0 ∧
    (after j (mem0 j)).pos = Pos.atHeader 0x1000C ∧ (after j (mem0 j)).regs = regs0 := by decide +kernel

/-- A machine whose team owns FIFO bank 20, which holds 8 and 9. -/
def fifo0 (i : Instr) (f : Thread → Thread := id) : State :=
  (mem0 i f).modBank 0 20 fun b => { b with mode := .fifo, own := some 1, items := [8, 9], tail := 2 }
/-- R160: a pop gives the oldest entry as I64; a push adds at the end; another team's bank takes 0x2A; an empty qpop.nb gives F. -/
theorem test_fifo : let i := Instr.qpop .w1 .normal (.k 3) 20
    let j := Instr.qpush .w1 .normal (.k 7) 20
    let k := Instr.qpop .w1 .normal (.k 3) 21
    let l := Instr.qpopNb .w4 .normal (.k 8) 20 2
    ((returned (nxt (exec i (fifo0 i)))).thread 3).regs.k[3].plain = Entry.mk' 8 .i64 0 ∧ ((nxt (exec i (fifo0 i))).bank 0 20).items = [9] ∧
    ((nxt (exec j (fifo0 j))).bank 0 20).items = [8, 9, 7] ∧ (after k (fifo0 k)).trap.cause = 0x12A ∧
    ((returned (nxt (exec l (fifo0 l)))).thread 3).regs.p[2] = (PCell.of .F) := by decide +kernel
/-- FifoWords: premises. -/
theorem test_witness_fifo : let s := fifo0 (.qpush .w1 .normal (.k 7) 20)
    s.able false true false [] ∧ s.roomy ∧ (s.thread 3).part = false ∧ myFifo s 20 ∧ ¬ myFifo s 21 ∧ taking s = [3] ∧
    pushGather .w1 (.k 7) 3 s = .ok [(3, [7])] s ∧ (s.thread 3).cnt = ⟨0, 0, 0⟩ :=
  ⟨able_of _ _ _ _ _ (by decide +kernel), ⟨rfl, rfl⟩, by decide +kernel, ⟨by decide +kernel, by decide +kernel⟩,
    fun h => absurd h.1 (by decide +kernel), by decide +kernel, ok_by (by decide +kernel), by decide +kernel⟩
/-- FifoWords: premise: a push whose sources read well. -/
theorem test_witness_push : let s := fifo0 (.qpush .w1 .normal (.k 7) 21)
    ans ((srcRules 3 false (groupSrcs (.k 7) 1)).run s) = some () ∧ (after (.qpush .w1 .normal (.k 7) 21) s).trap.cause = 0x12A := by decide +kernel
/-- R161: a bank in its mode needs no switch; to cache takes 8 lane cycles; another team's takes 0x2A. R284: acq clears tag-0 sectors. -/
theorem test_bank_mode : let i := Instr.bankMode .s0 20 .fifo
    let j := Instr.bankMode .s0 20 .cache
    let k := Instr.bankMode .s0 21 .fifo
    (after i (fifo0 i)).pos = Pos.atHeader 0x10008 ∧
    ((((nxt (exec j (fifo0 j))).core 0).switches).map fun x => (x.bank, x.mode, x.due)) = [(20, .cache, 8)] ∧
    (after k (fifo0 k)).trap.cause = 0x12A := by decide +kernel
/-- BanksAcquireRelease: premises. -/
theorem test_witness_banks : let s := fifo0 (.bankMode .s0 20 .cache)
    s.able false true true [] ∧ s.roomy ∧ (s.thread 3).part = false ∧ (s.core 0).switches = [] ∧ (s.bank 0 20).mode = .fifo ∧
    (s.bank 0 20).own = some 1 ∧ (s.bank 0 21).mode = .scratchpad ∧ (s.bank 0 21).own = none ∧ (s.thread 3).cnt = ⟨0, 0, 0⟩ :=
  ⟨able_of _ _ _ _ _ (by decide +kernel), ⟨rfl, rfl⟩, by decide +kernel⟩
/-- BanksAcquireRelease: premises: a bundle that finds the bank switching, and one that finds another ahead of it. -/
theorem test_witness_bank_waits : let s := fifo0 (.bankMode .s0 20 .cache)
    let u := s.modCore 0 fun c => { c with switches := [⟨20, .cache, 8, 1, 9, (9, 1)⟩] }
    let v := ({ s with bundles := s.bundles.put 9 ⟨2, 0, 0, 1, [8], 0, 0, false, 0, 0x2, 0, 7⟩ } : State).modThread 8 fun th => { th with hold := some ⟨0xB, .poll⟩ }
    let w := ({ v with threads := v.threads.put 8 { (v.thread 3) with hold := some ⟨0xB, .poll⟩ } } : State).modCore 0 fun c => { c with modeQ := [(20, (9, 7))] }
    s.wordKey 3 = (4, 0) ∧ (∀ y ∈ (u.core 0).switches, y.key ≠ s.wordKey 3) ∧ (∃ y ∈ (u.core 0).switches, y.bank = 20) ∧
    (w.reachBank 0 20 (4, 0)).aheadAtBank 0 20 (4, 0) = true ∧ ((s.reachBank 0 20 (4, 0)).aheadAtBank 0 20 (4, 0) = false) ∧
    ((nxt (exec (.bankMode .s0 20 .cache) w)).thread 3).hold = some ⟨0xB, .poll⟩ :=
  ⟨by decide +kernel, by decide +kernel, ⟨⟨20, .cache, 8, 1, 9, (9, 1)⟩, by decide +kernel, rfl⟩, by decide +kernel, by decide +kernel, by decide +kernel⟩

/-- The machine with one operation, 6, in flight. -/
def flying (act : Act) (home : Home) (ps : List Piece) : State :=
  let s := mem0 (.nop ⟨.s0, false⟩)
  let th := s.thread 3
  { s with ops := [(6, ⟨3, th.id, 1, 5, 0, 0, act, home, ps, .latest, .normal, 6, false, [], none, false, (4, 1), false, [], []⟩)] }

/-- Part of an access on an unversioned page. -/
def part (va pa len : Nat) : Piece := ⟨va, pa, pa, 0, len, false⟩

/-- LoadsPerform, StoresPerform: premises, for every home. -/
theorem test_witness_performing : let w := part 0x40014 0x20014 4
    let l := flying (.load 4 1 false .i32 true) .main [w]
    let a := flying (.atom .add 4 .i32 7 0 true) .main [w]
    let c := flying (.store [1, 2, 3, 4] 32) .scratch [part 20 20 4]
    let h := flying (.load 4 1 false .i32 false) .host [part 0x1014 0x1014 4]
    (∃ o, ready l 6 o ∧ plainMain l o w 4 ∧ w.pa / 256 ∉ l.homes.poison) ∧ (∃ o, ready a 6 o ∧ plainMain a o w 4 ∧ writable a none 0x20014 4 ∧
      o.tid ≠ 0 ∧ o.blocking = false) ∧ (∃ o, ready c 6 o ∧ o.home = .scratch) ∧
    (∃ o, ready h 6 o ∧ o.home = .host ∧ o.returns = true) ∧ (l.threads.find 3).isSome = true :=
  ⟨⟨_, ⟨rfl, rfl, by decide +kernel⟩, ⟨rfl, ⟨rfl, rfl, rfl⟩, rfl, rfl, rfl, by decide +kernel, by decide +kernel⟩, by decide +kernel⟩,
    ⟨_, ⟨rfl, rfl, by decide +kernel⟩, ⟨rfl, ⟨rfl, rfl, rfl⟩, rfl, rfl, rfl, by decide +kernel, by decide +kernel⟩,
      ⟨by decide +kernel, by decide +kernel, by decide +kernel, by decide +kernel, fun a e => by cases e⟩, by decide, rfl⟩,
    ⟨_, ⟨rfl, rfl, by decide +kernel⟩, rfl⟩, ⟨_, ⟨rfl, rfl, by decide +kernel⟩, rfl, rfl⟩, by decide +kernel⟩
/-- A versioned line 0x200 of which a pending version stands, and a version store of 8 slots; operation 6 is in flight through a view. -/
def flyingV (act : Act) (v : ReadAs) (l : VLine) (slots : Nat) : State :=
  let s := flying act .main [{ part 0x40014 0x20014 4 with ver := true }]
  let s := s.modThread 3 fun th => { th with view := some ⟨5, true, 0, false⟩ }
  { s with ops := s.ops.mapVals fun o => { o with view := v }, homes := { s.homes with heads := [2], vlines := [(0x200, l)] },
           dies := s.dies.set 0 { s.dies[0] with store := some ⟨0, slots, [], 10, slots⟩ } }
/-- The part of that operation. -/
def partV : Piece := { part 0x40014 0x20014 4 with ver := true }
/-- Operation 6 of the machine is ready to perform at the versioned line. -/
def fliesV (s : State) : Bool := match s.ops.find 6 with
  | some o => !o.performed && s.clearToGo 6 o && decide (o.home = .main) && decide (o.pieces = [partV]) && decide (o.tid ≠ 0) &&
      decide ((s.work o.who.work).rpl = none) && s.lineAwake 0x200 && decide (0x200 ∉ s.homes.poison) && decide (s.fellows o 0x400 = [])
  | none => false
theorem fliesV_ready (s : State) (h : fliesV s = true) : ∃ o, ready s 6 o ∧ versionedMain s o partV 4 ∧ s.fellows o 0x400 = [] := by
  unfold fliesV at h
  split at h
  · rename_i o e
    simp only [Bool.and_eq_true, Bool.not_eq_true', decide_eq_true_eq] at h
    obtain ⟨⟨⟨⟨⟨⟨⟨⟨a, b⟩, c⟩, d⟩, f⟩, g⟩, i⟩, j⟩, k⟩ := h
    exact ⟨o, ⟨e, a, b⟩, ⟨c, ⟨d, rfl, rfl⟩, by decide, f, rfl, rfl, g, i, rfl, by decide, j⟩, k⟩
  · cases h
/-- LoadsPerform: premises: a versioned load that reads, through each view, and one that waits for a commit. -/
theorem test_witness_versioned_load : let ld := Act.load 4 1 false .i32 false
    let go (v : ReadAs) (l : VLine) : Bool := fliesV (flyingV ld v l 8) && (seen (flyingV ld v l 8) 0x200 v).isSome
    let old : VLine := ⟨9, .plain, [⟨3, 0, .plain, some 0⟩], [], none⟩
    let own : VLine := ⟨2, .plain, [], [⟨.tx 3, 0, 7, false, none, some 0⟩], some 3⟩
    let lock : VLine := ⟨2, .plain, [], [⟨.tx 8, 0, 7, true, none, some 0⟩], none⟩
    go .latest old = true ∧ go (.snap 5) old = true ∧ seen (flyingV ld (.snap 5) old 8) 0x200 (.snap 5) = some 0 ∧ go (.tx 5 3) own = true ∧
    seen (flyingV ld (.tx 5 3) own 8) 0x200 (.tx 5 3) = some 7 ∧ waitsFor lock none ∧ mustWait lock (.snap 5) :=
  facts (by decide +kernel)
    ⟨by decide +kernel, ⟨_, List.mem_singleton.2 rfl, rfl, nofun⟩, ⟨_, List.mem_singleton.2 rfl, rfl, nofun⟩⟩
/-- StoresPerform: premises: a transactional store that takes intent, writes its own version again, or meets each reason for its doom; a
plain store of a versioned line, with and without a slot. -/
theorem test_witness_versioned_store : let st := Act.store [1, 2, 3, 4] 32
    let free : VLine := ⟨2, .plain, [], [], none⟩
    let done (l : VLine) (n : Nat) : State := nxt (exec (.storeAcknowledge 6) (flyingV st (.tx 5 3) l n))
    let doom (l : VLine) (n : Nat) : Nat := (((done l n).thread 3).view.map (·.doom)).getD 0
    fliesV (flyingV st (.tx 5 3) free 8) = true ∧ fliesV (flyingV st .latest free 8) = true ∧ (flyingV st (.tx 5 3) free 8).txLive 3 5 = true ∧
    (flyingV st (.tx 5 3) free 0).freeSlot 0 = none ∧ (flyingV st (.tx 5 3) free 8).freeSlot 0 = some 0 ∧
    (flyingV st .latest free 8).openStamps = [5] ∧ doom free 8 = 0 ∧ ((done free 8).vline 0x200).intent = some 3 ∧
    doom { free with intent := some 8 } 8 = 1 ∧ doom { free with stamp := 9 } 8 = 3 ∧ doom free 0 = 4 ∧
    ((nxt (exec (.storeAcknowledge 6) (flyingV st .latest free 8))).vline 0x200).older.map (fun o => (o.stamp, o.slot)) = [(2, some 0)] := by
  decide +kernel
/-- LoadsPerform, StoresPerform: premises of the other kinds: pops, records, intervals, and a revocation. -/
theorem test_witness_performing2 :
    (∃ o, ready (flying (.qpop [8] (some true)) .scratch []) 6 o) ∧ (∃ o, ready (flying (.recRd 1 1) .main []) 6 o) ∧
    (∃ o, ready (flying (.iload false) .scratch [part 16 16 8]) 6 o) ∧ (∃ o, ready (flying (.recWr 0 [7]) .main []) 6 o) ∧
    (∃ o, ready (flying (.qpush 20) .scratch []) 6 o) ∧ (flying (.store [1] 8) .main [part 0x40014 0x20014 1]).clocked 0 = true ∧
    (∃ k x, ({ flying (.store [1] 8) .main [part 0x40014 0x20014 1] with
      ops := (flying (.store [1] 8) .main [part 0x40014 0x20014 1]).ops.mapVals fun o => { o with revs := [(0, 5)] } } : State).ops.find k = some x ∧
      (0, 5) ∈ x.revs) :=
  ⟨⟨_, rfl, rfl, by decide +kernel⟩, ⟨_, rfl, rfl, by decide +kernel⟩, ⟨_, rfl, rfl, by decide +kernel⟩, ⟨_, rfl, rfl, by decide +kernel⟩,
    ⟨_, rfl, rfl, by decide +kernel⟩, by decide +kernel, 6, _, rfl, by simp⟩

/-- A machine whose side log holds one store of thread 3, to word 5. -/
def logged0 : State :=
  (flying (.store [7, 0, 0, 0] 32) .main [⟨0x40014, 0, 0, 0, 4, false⟩]).modCore 0 fun c => { c with side := [⟨1, 0x400, (1, 0), [6]⟩] }
/-- R87: the entry's write performs when its line translates; R88: without the right to write it is lost with 0x28. -/
theorem test_side_log : let s := nxt (exec (.sideLogReplay 0 0) logged0)
    let u := nxt (exec (.sideLogReplay 0 0) (logged0.modDie 0 fun d => { d with tlb := [⟨1, 16, 4, 0x20033⟩] }))
    s.homes.mem.readN 0x20014 4 = [7, 0, 0, 0] ∧ (s.core 0).side = [] ∧ (u.thread 3).deferred.map (·.1) = [0x28] ∧
    u.homes.mem.readN 0x20014 4 = [0x80, 0x33, 0x22, 0x11] := by decide +kernel
/-- SideLogAndIterative: premises: a log that translates, misses and may not be written. -/
theorem test_witness_side_log : ((logged0.core 0).side = [⟨1, 0x400, (1, 0), [6]⟩]) ∧
    logged0.clocked 0 = true ∧ logged0.lookCore 0 1 (0x400 * 256) .write = .ok ⟨0x20000, 0x20000, false, false, false, 0⟩ ∧ logged0.lineAwake 0x200 = true ∧
    (logged0.modDie 0 fun d => { d with tlb := [] }).lookCore 0 1 0x40000 .write = .miss ∧ logged0.missRoom 0 1 4 = true ∧
    (logged0.modDie 0 fun d => { d with tlb := [⟨1, 16, 4, 0x20033⟩] }).lookCore 0 1 0x40000 .write = .bad 0x25 ∧
    writable logged0 (some 0) 0x20014 4 ∧ (∃ o p, logged0.ops.find 6 = some o ∧ onePart o p 4 ∧ p.va / 256 = 0x400 ∧
      o.transactional = false ∧ (logged0.work o.who.work).rpl = none ∧
      let o' : MemOp := { o with pieces := [{ p with pa := 0x20014, src := 0x20014, ver := false }] }
      { logged0 with ops := logged0.ops.put 6 o' }.blockedBy 6 o' = false) :=
  (facts (by decide +kernel) ⟨by decide +kernel, by decide +kernel, by decide +kernel,
    ⟨by decide +kernel, by decide +kernel, by decide +kernel, by decide +kernel, fun a e => by cases e⟩,
    _, _, rfl, ⟨rfl, rfl, rfl⟩, by decide +kernel⟩)

/-- LoadsPerform, StoresPerform, SideLogAndIterative: premises: an operation alone of its word, whose mates have been checked. -/
theorem test_witness_alone (o : MemOp) : ((flying (.load 4 1 false .i32 false) .main [part 0x40014 0x20014 4]).ops.find 6 = some o →
      (flying (.load 4 1 false .i32 false) .main [part 0x40014 0x20014 4]).servedWith 6 o = [6] ∧
      ∀ kv ∈ (flying (.load 4 1 false .i32 false) .main [part 0x40014 0x20014 4]).ops, o.loadWith kv.2 = true → kv = (6, o)) ∧
    (logged0.ops.find 6 = some o → logged0.matesCheck o = false ∧ logged0.fellows o 0x400 = [] ∧ o.tid ≠ 0 ∧ o.returns = false) := by
  constructor
  · intro h; cases h
    exact ⟨by decide +kernel, by decide +kernel⟩
  · intro h; cases h; decide +kernel
/-- What an attempt to perform came to, where parts of it are left, meets a test. -/
theorem part_of {r : Perf} {p : Written → Bool} (h : (match r with | .part a => p a | _ => false) = true) : ∃ a, r = .part a ∧ p a = true := by
  cases r with
  | part a => exact ⟨a, rfl, h⟩
  | _ => cases h

/-- A machine with an open snapshot of stamp 5 and no version slot, in which a write of versioned line 0x200 is in flight. -/
def starved (act : Act) : State :=
  (flying act .main [{ part 0x40014 0x20014 4 with ver := true }]).modThread 3 fun th => { th with view := some ⟨5, false, 0, false⟩ }

/-- SideLogAndIterative: premises: a store and an atomic that find no version slot. -/
theorem test_witness_starved (o : MemOp) : (((starved (.store [1, 2, 3, 4] 32)).ops.find 6) = some o →
      ∃ a, (starved (.store [1, 2, 3, 4] 32)).perform o = .part a ∧
        (a.starved.map (·.va) == [0x40014] && decide (a.left = a.starved) && a.lost == [] && decide (a.s.ops.find 6 = some o)) = true) ∧
    (((starved (.atom .add 4 .i32 7 0 true)).ops.find 6) = some o →
      ∃ a, (starved (.atom .add 4 .i32 7 0 true)).perform o = .part a ∧
        (a.starved.map (·.va) == [0x40014] && decide (a.left = a.starved) && a.lost == []) = true) :=
  ⟨fun h => part_of (by cases h; decide +kernel), fun h => part_of (by cases h; decide +kernel)⟩
/-- SideLogAndIterative: premises: an iterative operation before and at its time, and a write whose window for a version slot is over. -/
theorem test_witness_iterative : let i := Instr.idiv ⟨.s0, false⟩ (.k 3) (.k 7) (.k 2)
    let s := nxt (exec i (demo i))
    let v := flying (.store [1] 8) .main [part 0x40014 0x20014 1]
    (∃ x, (s.thread 3).iter = [x] ∧ s.lcOf 3 < x.due) ∧
    (∃ x, ((s.modDie 0 fun d => { d with lc := 18 }).thread 3).iter = [x] ∧ x.due ≤ (s.modDie 0 fun d => { d with lc := 18 }).lcOf 3) ∧
    ((nxt (exec (.iterativeResult 3) (s.modDie 0 fun d => { d with lc := 18 }))).thread 3).regs.k[3].plain = Entry.mk' 3 .i32 0 ∧
    (∃ o w, ({ v with ops := v.ops.mapVals fun o => { o with window := some 0 } } : State).ops.find 6 = some o ∧ o.window = some w ∧
      o.performed = false ∧ o.trial = false ∧ w ≤ (v.die o.die).mer) :=
  ⟨⟨_, rfl, by decide +kernel⟩, ⟨_, rfl, by decide +kernel⟩, by decide +kernel, _, _, rfl, rfl, rfl, rfl, by decide +kernel⟩

/-! ### Premises met: versions and trials -/

/-- The machine of `mem0` with the thread's view open or not, at meridian 100. -/
def ver0 (i : Instr) (v : Option View) (f : Thread → Thread := id) : State :=
  (mem0 i fun th => f { th with view := v }).modDie 0 fun d => { d with mer := 100 }

/-- The word again, once what it waited for has come. -/
def again (i : Instr) (s : State) : State := nxt (exec i (s.modThread 3 fun th => { th with hold := none }))

/-- R110: the most recent stamp for 0, a stamp given, and 0x92 for one in the future. R111: closing. -/
theorem test_views : let i := Instr.snapOpen (.k 3) .zero
    let j := Instr.txb (.k 3) (.lit 90)
    let k := Instr.txb (.k 3) (.lit 190)
    (after i (ver0 i none)).view = some ⟨100, false, 0, false⟩ ∧ (after i (ver0 i none)).regs.k[3].plain = Entry.mk' 100 .i64 0 ∧
    (after j (ver0 j none)).view = some ⟨90, true, 0, false⟩ ∧ (after k (ver0 k none)).trap.cause = 0x192 ∧
    (after .snapClose (ver0 .snapClose (some ⟨90, false, 0, false⟩))).view = none ∧
    (after .snapClose (ver0 .snapClose (some ⟨90, true, 0, false⟩))).trap.cause = 0x193 := by decide +kernel
/-- R95, R96, R112: the stamp is two beyond the meridian of 100, visible three later; txc then answers T. -/
theorem test_txc : let i := Instr.txc 2
    let s := nxt (exec i (ver0 i (some ⟨90, true, 0, false⟩) fun th => { th with regs := th.regs.setP 2 (PCell.of .U) }))
    let u := nxt (exec (.lockComplete 6) s)
    let w := nxt (exec (.commitComplete 6) (u.modDie 0 fun d => { d with mer := 105 }))
    (nxt (exec (.commitComplete 6) (u.modDie 0 fun d => { d with mer := 104 }))).commits = u.commits ∧
    (w.thread 3).txstamp = 102 ∧ (w.thread 3).view = none ∧ ((again i w).thread 3).regs.p[2].v = .T := by decide +kernel
/-- R112-R114: a doomed transaction: txchk F, txc F and its reason; txa 3 ends with reason 0x305. -/
theorem test_doomed : let i := Instr.txc 2
    let j := Instr.txchk 2
    let k := Instr.txa (.lit 3)
    let v (n : Nat) : Option View := some ⟨90, true, n, false⟩
    (after i (ver0 i (v 2))).regs.p[2].v = .F ∧ (after i (ver0 i (v 2))).txwhy = 2 ∧ (after j (ver0 j (v 2))).regs.p[2].v = .F ∧
    (after j (ver0 j (v 0))).regs.p[2].v = .T ∧ (after j (ver0 j none)).regs.p[2].v = .U ∧
    (after k (ver0 k (v 0))).txwhy = 0x305 ∧ (after k (ver0 k none)).trap.cause = 0x193 := by decide +kernel
/-- ViewsAndPublication: premises: views none, a snapshot, a transaction, doomed, and past its commit; stamps 0, too high, and in range. -/
theorem test_witness_views : let m (v : Option View) := ver0 (.snapOpen (.k 3) .zero) v
    let past := ver0 (.txc 2) none fun th => { th with stage := 8 }
    (m none).able false true false [] ∧ readSrc 3 .single false (.lit 0) (m none) = .ok (Val.imm' 0) (m none) ∧
    readSrc 3 .single false (.lit 190) (m none) = .ok (Val.imm' 190) (m none) ∧ (m none).merOf 3 < (Val.imm' 190).val.toNat ∧
    logged 3 (BitVec.ofNat 64 (max ((m none).merOf 3) 1)) (m none) = .ok 100 (m none) ∧ State.roomy (m none) ∧
    (∀ d < 4, ((m none).die d).lw ≤ 90) ∧ ((m none).thread 3).stage < 2 ∧
    ((m (some ⟨90, true, 0, false⟩)).able false true false [] ∧ ((m (some ⟨90, true, 0, false⟩)).thread 3).cnt.st = 0) ∧
    (m (some ⟨90, false, 0, false⟩)).able false true false [] ∧ (past.able false true false [] ∧ (past.thread 3).stage = 8 ∧ past.roomy) :=
  ⟨able_of _ _ _ _ _ (by decide +kernel), ok_by (by decide +kernel), ok_by (by decide +kernel), by decide +kernel, ok_by (by decide +kernel), ⟨rfl, rfl⟩,
    by decide +kernel, by decide +kernel, ⟨able_of _ _ _ _ _ (by decide +kernel), by decide +kernel⟩, able_of _ _ _ _ _ (by decide +kernel),
    able_of _ _ _ _ _ (by decide +kernel), by decide +kernel, rfl, rfl⟩
/-- ViewsAndPublication: premises: a record that vpub may publish, and one that is not valid. -/
theorem test_witness_vpub : let s := ver0 (.vpub (.k 3) 5) none
    s.able false true false [5] ∧ s.roomy ∧
    checkRecord 3 (recNamed s 5) wrRights anyHome (recNamed s 5).base s = .ok (.main, .latest) s ∧
    ∃ u, checkRecord 3 (recNamed s 4) wrRights anyHome (recNamed s 4).base s = .error (.trap 0x21 0) u :=
  ⟨able_of _ _ _ _ _ (by decide +kernel), ⟨rfl, rfl⟩, ok_by (by decide +kernel), error_eq _ _ (by decide +kernel)⟩
/-- R115: a publication's stamp reaches k3 when it is visible, and base and shadow base have been exchanged. -/
theorem test_vpub : let i := Instr.vpub (.k 3) 5
    let s := (ver0 i none).modCtx 1 fun c => { c with recs := [(5, recWords 0 0x40000 ||| 0x48000 <<< 128)] }
    let u := nxt (exec (.lockComplete 6) (nxt (exec i s)))
    let w := nxt (exec (.commitComplete 6) (u.modDie 0 fun d => { d with mer := 105 }))
    (after i s).regs.k[3].plain = Entry.pend 6 0 ∧ (w.thread 3).regs.k[3].plain = Entry.mk' 102 .i64 0 ∧
    (Sys2Proof.Machine.recF ((w.ctx 1).recAt 5)).base = 0x48000 ∧ (Sys2Proof.Machine.recF ((w.ctx 1).recAt 5)).shadow = 0x40000 := by
  decide +kernel

/-- A machine whose thread's window holds a candidate of 4 words, identifier 7. -/
def try0 (i : Instr) (f : Thread → Thread := id) : State :=
  (mem0 i f).modCore 0 fun c => { c with windows := [(0, [4, 0, 0, 0, 7, 0, 0, 0])] }
/-- A candidate that is running, with fuel. -/
def running (fuel : Nat) (th : Thread) : Thread := { th with trial := some ⟨4, 7, 9, fuel, 0xFF, 3, 0x10000, none, false, 0⟩ }
/-- R328: try begins at offset 0 with fuel k9 and grant 5; an empty window ends it with 0x69. R330: fold. R331: fuel. -/
theorem test_trial_words : let i := Instr.tryT ⟨.s0, false⟩ (.k 3) (.k 9) (.lit 5)
    let j := Instr.fold ⟨.s0, false⟩ (.k 5)
    let k := Instr.fuel ⟨.s0, false⟩ (.k 3) (.lit 4)
    let e := (try0 i).modCore 0 fun c => { c with windows := [(0, [])] }
    (after i (try0 i)).trial = some ⟨4, 7, 9, 9, 5, 3, 0x1000C, none, false, 0⟩ ∧ (after i (try0 i)).pos = Pos.atHeader 0 ∧
    ((after i e).trial.bind (·.ending)) = some ⟨1, 0x69, 0⟩ ∧
    (after j (try0 j)).h0 = 5 * 2 ^ 13 ∧ (after j (try0 j)).h1 = 5 * 2 ^ 13 ∧
    (after k (try0 k (running 9))).trial.map (·.fuel) = some 4 ∧ (after k (try0 k (running 9))).regs.k[3].plain = Entry.mk' 4 .i32 1 ∧
    (after k (try0 k (running 4))).trial.bind (·.ending) = some ⟨1, 0x65, 0x10001⟩ ∧
    (after (.tend ⟨.s0, false⟩) (try0 (.tend ⟨.s0, false⟩))).trap.cause = 0x16A := by decide +kernel
/-- TrialWords: premises: a window and operands for try; a running candidate with enough fuel and with less than asked. -/
theorem test_witness_trial_words : let s := try0 (.tryT ⟨.s0, false⟩ (.k 3) (.k 9) (.lit 5))
    let r := try0 (.tend ⟨.s0, false⟩) (running 9)
    s.able false true false [] ∧ (∀ kv ∈ s.ops, kv.2.tid = 3 → kv.2.act = .lcload → kv.2.performed = true) ∧
    readUnsigned 3 (.k 9) s = .ok 9 s ∧ readUnsigned 3 (.lit 5) s = .ok 5 s ∧ s.able false false false [] ∧ s.roomy ∧
    (s.thread 3).inTrial = false ∧ (r.thread 3).inTrial = true ∧ State.roomy r ∧
    readSrc 3 .single true (.k 5) r = .ok (num 5) r ∧ (num 5).kind ≠ .fut ∧ readUnsigned 3 (.lit 4) r = .ok 4 r ∧
    readUnsigned 3 (.lit 9) r = .ok 9 r ∧ State.roomy ((s.doom 3 7).window 3).2 :=
  ⟨able_of _ _ _ _ _ (by decide +kernel), by decide +kernel, ok_by (by decide +kernel), ok_by (by decide +kernel),
    able_of _ _ _ _ _ (by decide +kernel), ⟨rfl, rfl⟩, by decide +kernel, by decide +kernel, ⟨rfl, rfl⟩, ok_by (by decide +kernel), by decide,
    ok_by (by decide +kernel), ok_by (by decide +kernel), by simp only [State.roomy]; decide +kernel⟩
/-- TrialWords: premises: a word of a running candidate may run. -/
theorem test_witness_candidate : (try0 (.tend ⟨.s0, false⟩) (running 9)).able false false false [] := by
  have h : ((try0 (.tend ⟨.s0, false⟩) (running 9)).thread 3).trial = some ⟨4, 7, 9, 9, 0xFF, 3, 0x10000, none, false, 0⟩ := by decide +kernel
  refine ⟨by decide +kernel, by decide +kernel, nofun, fun r e => ?_⟩
  obtain rfl : _ = r := Option.some.inj (h.symm.trans e)
  exact ⟨rfl, fun _ => ⟨rfl, nofun, by decide⟩⟩
/-- StoresIssue, AtomicsIssue: premises: a candidate's write, whose record is granted. -/
theorem test_witness_lone : let s := mem0 (.st32 .w1 .normal (.k 7) 5 (.k 5)) (running 9)
    s.able false false false [5] ∧ (s.thread 3).inTrial = true := by
  have h : ((mem0 (.st32 .w1 .normal (.k 7) 5 (.k 5)) (running 9)).thread 3).trial = some ⟨4, 7, 9, 9, 0xFF, 3, 0x10000, none, false, 0⟩ := by
    decide +kernel
  refine ⟨⟨by decide +kernel, by decide +kernel, nofun, fun r e => ?_⟩, by decide +kernel⟩
  obtain rfl : _ = r := Option.some.inj (h.symm.trans e)
  exact ⟨rfl, fun _ => ⟨rfl, by decide +kernel, by decide +kernel⟩⟩
/-- TrialWords: premises: a value of kind FUT for fold. -/
theorem test_witness_fold : let s := try0 (.fold ⟨.s0, false⟩ (.k 5)) (putK 5 (Entry.mk' 0 .fut 0))
    ∃ v, readSrc 3 .single true (.k 5) s = .ok v s ∧ v.kind = .fut :=
  ⟨⟨0, .fut, 0, false, 0⟩, ok_by (by decide +kernel), rfl⟩

/-! ### Premises met: engines, the brick array, tasks and system words -/

/-- A record of R139 with rows: home, format code, row length and stride, tile rows and columns, extent 0x10000. -/
def tileWords (home fmt rowlen trows tcols base : Nat) : BitVec 512 :=
  BitVec.ofNat 512 (2 ^ 511 + home * 2 ^ 376 + 15 * 2 ^ 372 + fmt * 2 ^ 352 + tcols * 2 ^ 336 + trows * 2 ^ 320 + rowlen * 2 ^ 288 +
    rowlen * 2 ^ 256 + 0x10000 * 2 ^ 64 + base)

/-- The machine of `mem0` with tb8, tb9 (main memory, F32 tiles of 4 rows of 128) and tb10 (scratchpad, 32 rows of 128 bytes of format 3). -/
def eng0 (i : Instr) (f : Thread → Thread := id) : State :=
  (mem0 i f).modCtx 1 fun c => { c with recs := c.recs ++ [(8, tileWords 0 0xC 512 4 128 0x41000), (9, tileWords 0 0xC 512 4 128 0x42000),
    (10, tileWords 0xFC 3 128 32 128 0)] }

/-- A kernel header (R48): backing 7, teams of 16 threads, 32 named registers. -/
def kernelWords : List Byte := leBytes 16 (7 * 2 ^ 48 + 16 * 2 ^ 8 + 32)
/-- A job card (kind 0) or a launch card (kind 1, of 2 teams) for quay 5 (R334): entry 0x44010, argument 0x45000. -/
def cardBits (launch : Bool) : BitVec 512 :=
  BitVec.ofNat 512 (0x44010 + 5 * 2 ^ 112 + 0x45000 * 2 ^ 192 + if launch then 2 ^ 118 + 2 * 2 ^ 256 else 0)
/-- The machine of `mem0` with quay 5 open on die 0, a kernel header at 0x44000 (0x24000), a job card as card 4 of tb5 and a launch as
card 5. -/
def task0 (i : Instr) (f : Thread → Thread := id) : State :=
  let s := mem0 i f
  let s := s.modHomes fun h => { h with mem := Memory.writeN (Memory.writeN (Memory.writeN h.mem 0x24000 kernelWords) 0x20100
    (leBytes 64 (cardBits false).toNat)) 0x20140 (leBytes 64 (cardBits true).toNat) }
  s.modQuay 0 5 fun q => { q with en := true }
/-- The machine of `task0` whose quay 5 is full: 64 cards of a ring of 64. -/
def task1 (i : Instr) : State := (task0 i).modQuay 0 5 fun q => { q with ring := List.replicate 64 9 }

/-- A transfer control that copies (R178). -/
def x0 : XCtl := ⟨.rn, false, false, false, false, none, false⟩
/-- What an engine is asked to do, or why nothing. -/
def asked (m : M Handed) (s : State) : Option EngWhat := (ans (m s)).map (·.1)
/-- R175, R177, R178: the operations are handed over with tb8's and tb9's words. -/
theorem test_engine_words : let i := Instr.copy (.k 3) 9 8 .zero .zero (.k 16)
    let j := Instr.slabld (.k 3) 8 (.lit 0) .zero (.lit 4)
    let k := Instr.xform (.k 3) 9 8 x0 .zero .zero
    let d := tileWords 0 0xC 512 4 128 0x42000
    let c := tileWords 0 0xC 512 4 128 0x41000
    let ops (i : Instr) (e : Nat) : List EngWhat := ((nxt (exec i (eng0 i))).engOps 0 e).map (·.2.what)
    ops i 0 = [.copy d c 0 0 16] ∧ ops j 1 = [.slabld c 0 0 0 4] ∧ ops k 2 = [.xform d c x0 0 0] ∧
    (after i (eng0 i)).cnt.en = 1 ∧ (after i (eng0 i)).regs.k[3].plain = Entry.pend 6 0 ∧
    (after (.copy (.k 3) 9 8 .zero .zero (.k 15)) (eng0 i)).trap.cause = 0x123 := by decide +kernel
/-- EngineAndFutureWords: premises: checks that pass and checks that do not. -/
theorem test_witness_engine_words : let s := eng0 (.slabld (.k 3) 8 (.lit 0) .zero (.lit 4))
    s.able false true false [] ∧ myTurn s ∧ s.roomy ∧ (s.thread 3).cnt.en < 255 ∧
    (asked (copyChecks 9 8 .zero .zero (.k 16) 3) s).isSome = true ∧ left (copyChecks 9 8 .zero .zero (.k 16) 3 s) = s ∧
    (asked (slabldChecks 8 (.lit 0) .zero (.lit 4) 3) s).isSome = true ∧ left (slabldChecks 8 (.lit 0) .zero (.lit 4) 3 s) = s ∧
    (asked (xformChecks 9 8 x0 .zero .zero 3) s).isSome = true ∧ left (xformChecks 9 8 x0 .zero .zero 3 s) = s ∧
    (∃ u, copyChecks 9 8 .zero .zero (.k 15) 3 s = .error (.trap 0x23 0x41000) u) ∧
    (∃ u, slabldChecks 5 (.lit 0) .zero (.lit 4) 3 s = .error (.trap 0x83 0) u) ∧
    (∃ u, xformChecks 9 8 { x0 with sc := true } .zero .zero 3 s = .error (.trap 0x81 0) u) :=
  ⟨able_of _ _ _ _ _ (by decide +kernel), by simp only [myTurn]; decide +kernel, ⟨rfl, rfl⟩, facts (by decide +kernel) ⟨by decide +kernel, by decide +kernel, by decide +kernel, error_eq _ _ (by decide +kernel), error_eq _ _ (by decide +kernel),
    error_eq _ _ (by decide +kernel)⟩⟩
/-- A handle of slot 2 of the copy engine of core 0, generation 1 (R171), and the machine whose slot 2 holds operation 4. -/
def handle2 : Word64 := BitVec.ofNat 64 (2 * 2 ^ 40 + 2 ^ 24)
/-- The machine of `eng0` with a copy, 4, in slot 2, and its handle in k5. -/
def fut0 (i : Instr) (st : EngState) (status : Option (BitVec 32)) (x : Nat := 1) : State :=
  let c := tileWords 0 0xC 512 4 128 0x41000
  (eng0 i (putK 5 ⟨handle2, .fut, residue handle2, 0, none, (0, .empty)⟩)).modEngine 0 0 fun e => { e with
    slots := [(2, ⟨BitVec.ofNat 16 x, true, status, 0⟩)]
    ops := [(4, ⟨3, [], 1, 1, 2, 9, .copy c c 0 0 16, 4, some 2, st, 4, 0, false, false, .latest, .latest, false, 0, [], none, 4⟩)] }
/-- R183: a test of a running, of an ended, and of a retired operation. R184: cancelling. R185: a drain waits for operation 4. -/
theorem test_futures : let i := Instr.futTest ⟨.s0, false⟩ (.k 3) (.k 5) 2
    let j := Instr.futCancel ⟨.s0, false⟩ (.k 5)
    let k := Instr.drain .s0 .all
    let l := Instr.drain .s0 .host
    (after i (fut0 i .running none)).regs.p[2].v = .F ∧ (after i (fut0 i .ended (some 0))).regs.p[2].v = .T ∧
    (after i (fut0 i .running none 2)).regs.p[2].v = .T ∧ (after i (fut0 i .running none)).regs.k[3].kind = .fut ∧
    ((nxt (exec j (fut0 j .running none))).engOps 0 0).all (·.2.cancel) = true ∧
    (after k (fut0 k .running none)).pos.win = 1 ∧ (after l (fut0 l .running none)).pos = Pos.atHeader 0x10008 ∧
    (after (.futCancel ⟨.s0, false⟩ (.k 6)) (fut0 j .running none)).trap.cause = 0x180 := by decide +kernel
/-- EngineAndFutureWords: premises: a well-formed handle, of an operation under way and of one that has ended; a value that is none. -/
theorem test_witness_futures : let s := fut0 (.futTest ⟨.s0, false⟩ (.k 3) (.k 5) 2) .running none
    let v : Val :=
  ⟨handle2, .fut, residue handle2, false,
    0⟩
    let h := handleOf handle2
    s.able false true false [] ∧ readSrc 3 .single true (.k 5) s = .ok v s ∧ readSrc 3 .single true (.k 6) s = .ok (num 6) s ∧ s.roomy ∧
    s.wellFormed h = true ∧ (s.slotOf h).gen.toNat = h.gen ∧ (s.slotOf h).busy = true ∧ (s.slotOf h).status = none ∧
    (∃ o,
    (s.engOps h.core h.eng).find? (fun o => decide (o.2.slot = some h.slot)) = some (4, o)) ∧
    s.wellFormed (handleOf 1) = false ∧ ((fut0 (.drain .s0 .host) .running none).able false true false [] ∧
      ∀ e < 3,
    ∀ o ∈ (fut0 (.drain .s0 .host) .running none).engOps 0 e, (o.2.dest 0) = some .main) :=
  ⟨able_of _ _ _ _ _ (by decide +kernel),
    ok_by (by decide +kernel), ok_by (by decide +kernel), ⟨rfl, rfl⟩, by decide +kernel, by decide +kernel, by decide +kernel, by decide +kernel, ⟨_, rfl⟩,
    by decide +kernel, able_of _ _ _ _ _ (by decide +kernel), by decide +kernel⟩
/-- EngineAndFutureWords: premises: a FUT value that is no well-formed handle. -/
theorem test_witness_ill_handle : let s := eng0 (.futCancel ⟨.s0, false⟩ (.k 5)) (putK 5 ⟨1, .fut, 1, 0, none, (0, .empty)⟩)
    readSrc 3 .single true (.k 5) s = .ok ⟨1, .fut, 1, false, 0⟩ s ∧ s.wellFormed (handleOf 1) = false :=
  ⟨ok_by (by decide +kernel), by decide +kernel⟩

/-- R258, R260, R262: the array's words; R259: a tile beyond the grant of 4. -/
theorem test_array_words : let i := Instr.mma (.k 3) 1 10 9 3 3 true .zero (.lit 0) (.lit 0)
    let k := Instr.accLd (.k 3) 1 8 0xC 0xC .zero (.lit 4)
    let l := Instr.accSwap .s0 1
    let z := Instr.accZero .s0 4
    let a := tileWords 0xFC 3 128 32 128 0
    let b := tileWords 0 0xC 512 4 128 0x42000
    let ops (i : Instr) : List EngWhat := ((nxt (exec i (eng0 i))).engOps 0 3).map (·.2.what)
    ops i = [.mma a b 1 3 3 none true 0 0 0 0 1 32] ∧ ops k = [.accLd (tileWords 0 0xC 512 4 128 0x41000) 1 0xC 0xC 0 4] ∧
    ops l = [.accSwap 1] ∧ (after l (eng0 l)).hold = some ⟨0xB, .event⟩ ∧ ops (.accZero .s0 1) = [.accZero 1] ∧
    (after z (eng0 z)).trap.cause = 0x186 ∧ (after (.mma (.k 3) 1 10 9 0xC 3 true .zero (.lit 0) (.lit 0)) (eng0 i)).trap.cause = 0x184 := by
  decide +kernel
/-- ArrayWords: premises: the checks of each word pass; a thread that has taken its part; and the leader. -/
theorem test_witness_array_words : let s := eng0 (.accSwap .s0 1)
    let p := eng0 (.accSwap .s0 1) fun th => { th with part := true }
    s.able false true false [] ∧ (s.thread 3).part = false ∧ (atWord s).filter (fun u => (s.thread u).pos.g) = [3] ∧
    (asked (mmaChecks 1 10 9 3 3 none true .zero (.lit 0) (.lit 0) 3) s).isSome = true ∧
    left (mmaChecks 1 10 9 3 3 none true .zero (.lit 0) (.lit 0) 3 s) = s ∧
    (asked (mmaChecks 1 10 9 3 3 (some .n8) true .zero (.lit 0) (.lit 0) 3) s).isSome = true ∧
    left (mmaChecks 1 10 9 3 3 (some .n8) true .zero (.lit 0) (.lit 0) 3 s) = s ∧
    (asked (accChecks true 1 8 0xC 0xC .zero (.lit 4) 3) s).isSome = true ∧ left (accChecks true 1 8 0xC 0xC .zero (.lit 4) 3 s) = s ∧
    (asked (accChecks false 1 8 0xC 0xC .zero (.lit 4) 3) s).isSome = true ∧ left (accChecks false 1 8 0xC 0xC .zero (.lit 4) 3 s) = s ∧
    s.roomy ∧ (s.thread 3).cnt.en < 255 ∧ (s.workOf 3).kernel.acc = 4 ∧
    (∃ u, mmaChecks 9 10 9 3 3 none true .zero (.lit 0) (.lit 0) 3 s = .error (.trap 0x86 0) u) ∧
    (p.able false true false [] ∧ (p.thread 3).part = true ∧ p.roomy ∧ p.engOps 0 3 = []) :=
  ⟨able_of _ _ _ _ _ (by decide +kernel), facts (by decide +kernel) (facts (by decide +kernel) ⟨by decide +kernel, by decide +kernel, ⟨rfl, rfl⟩, by decide +kernel, by decide +kernel,
    error_eq _ _ (by decide +kernel), able_of _ _ _ _ _ (by decide +kernel), by decide +kernel, ⟨rfl, rfl⟩, by decide +kernel⟩)⟩
/-- ArrayWords: premises: a thread that has arrived at an acc.swap whose exchange its group waits for. -/
theorem test_witness_swap : let s := nxt (exec (.accSwap .s0 1) (eng0 (.accSwap .s0 1)))
    (s.threads.find 3).isSome = true ∧ (s.thread 3).trial = none ∧ (s.thread 3).part = true ∧
    (∃ o ∈ s.engOps 0 3, ∃ n, o.2.what = .accSwap n ∧ o.2.group = (s.thread 3).id.group) := by
  refine ⟨by decide +kernel, by decide +kernel, by decide +kernel, _, List.mem_cons_self, 1, ?_⟩
  decide +kernel

/-- R352: an accepted card answers 0 and is filed; a job card handed to launch is rejected for reason 1; a full ring holds. -/
theorem test_job_push : let i := Instr.jobPush (.k 3) 5 (.lit 4)
    let j := Instr.launch (.k 3) 5 (.lit 5)
    let k := Instr.launch (.k 3) 5 (.lit 4)
    (after i (task0 i)).regs.k[3].plain = Entry.mk' 0 .i32 0 ∧ ((nxt (exec i (task0 i))).quay 0 5).ring = [6] ∧
    (after j (task0 j)).regs.k[3].plain = Entry.mk' 0 .i32 0 ∧ (after k (task0 k)).regs.k[3].plain = Entry.mk' 1 .i32 0 ∧
    (after j (task1 j)).hold = some ⟨0xE, .poll⟩ ∧ (after j (task1 j)).pos.win = 1 := by decide +kernel
/-- R353, R354: qstat of quay 5 word 1; job.done's result; yield goes to the next clause and parks. -/
theorem test_task_words : let j := Instr.jobDone ⟨.s0, false⟩ (.k 9)
    let k := Instr.yield ⟨.s0, false⟩
    let s := nxt (exec j (eng0 j))
    s.threads = [] ∧ (s.card 5).result = 9 ∧ (after k (eng0 k)).place = .yielded ∧ (after k (eng0 k)).pos = Pos.atHeader 0x10008 := by decide +kernel
/-- TaskWords: premises: cards read, and accepted with room and without. -/
theorem test_witness_cards : let s := task0 (.jobPush (.k 3) 5 (.lit 4))
    let s1 := left (readCard 3 5 (.lit 4) s)
    s.able false true false [5] ∧ (s.thread 3).stage < 2 ∧ myTurn s ∧ (s.thread 3).cnt.st = 0 ∧ State.roomy s1 ∧
    readCard 3 5 (.lit 4) s = .ok (cardBits false) s1 ∧ (s1.thread 3).cnt.en < 255 ∧
    (cardBits false).extractLsb' 118 2 = 0 ∧ (cardBits true).extractLsb' 118 2 = 1 ∧
    (∃ c u, s1.admission 1 0 (cardBits false) = .ok (c, u) ∧ (((u.addCard c).2).ringRoom c.homeDie c.quay &&
      (u.addCard c).2.cards.all fun kv => kv.2.st != .waiting || kv.1 == (u.addCard c).1) = true) :=
  ⟨able_of _ _ _ _ _ (by decide +kernel), by decide +kernel, by simp only [myTurn]; decide +kernel, by decide +kernel,
    by simp only [State.roomy]; decide +kernel, ok_eq _ _ _ (by decide +kernel) rfl, by decide +kernel, by decide +kernel, by decide +kernel,
    admits _ (fun x => ((x.2.addCard x.1).2).ringRoom x.1.homeDie x.1.quay &&
      (x.2.addCard x.1).2.cards.all fun kv => kv.2.st != .waiting || kv.1 == (x.2.addCard x.1).1) (by decide +kernel)⟩
/-- TaskWords: premises: a launch whose quay has no room. -/
theorem test_witness_full_ring : let s := task1 (.launch (.k 3) 5 (.lit 5))
    let s1 := left (readCard 3 5 (.lit 5) s)
    readCard 3 5 (.lit 5) s = .ok (cardBits true) s1 ∧
    (∃ c u, s1.admission 1 0 (cardBits true) = .ok (c, u) ∧ (!((u.addCard c).2).ringRoom c.homeDie c.quay) = true) :=
  ⟨ok_eq _ _ _ (by decide +kernel) rfl, admits _ (fun x => !((x.2.addCard x.1).2).ringRoom x.1.homeDie x.1.quay) (by decide +kernel)⟩
/-- TaskWords: premises: a card whose check reads a table that lies in a tier that is off. -/
theorem test_witness_card_waits : let s := (left (readCard 3 5 (.lit 4) (task0 (.jobPush (.k 3) 5 (.lit 4))))).modDie 0 fun d => { d with near := false, tlb := [] }
    (match s.admission 1 0 (cardBits false) with | .error none => !s.overfull 1 | _ => false) = true := by decide +kernel
/-- TaskWords: premises: a rejected card, a word past its filing, and the operands of qstat, job.done and yield. -/
theorem test_witness_task_words : let s := task0 (.qstat ⟨.s0, false⟩ (.k 3) (.k 5) (.k 1))
    let u := task0 (.jobPush (.k 3) 5 (.lit 4)) fun th => { th with stage := 9 }
    (match (mem0 (.nop ⟨.s0, false⟩)).admission 1 0 (cardBits false) with | .error (some r) => r | _ => 0) = 2 ∧
    (u.able false true false [5] ∧ (u.thread 3).stage = 7 + 2 ∧ (∀ kv ∈ u.cards, kv.1 = 7 → kv.2.st ≠ .waiting) ∧ u.roomy) ∧
    s.able false true false [] ∧ readUnsigned 3 (.k 5) s = .ok 5 s ∧ readUnsigned 3 (.k 1) s = .ok 1 s ∧ readUnsigned 3 (.k 2) s = .ok 2 s ∧ s.roomy ∧
    s.able false true true [] ∧ readSrc 3 .single false (.k 9) s = .ok (num 9) s ∧ (num 9).kind = .i32 ∧ (s.thread 3).cnt.st = 0 ∧
    (s.cards.find (s.workOf 3).card).isSome = true :=
  ⟨by decide +kernel, ⟨able_of _ _ _ _ _ (by decide +kernel), by decide +kernel, by decide +kernel, rfl, rfl⟩, able_of _ _ _ _ _ (by decide +kernel),
    ok_by (by decide +kernel), ok_by (by decide +kernel), ok_by (by decide +kernel), ⟨rfl, rfl⟩, able_of _ _ _ _ _ (by decide +kernel),
    ok_by (by decide +kernel), by decide, by decide +kernel⟩
/-- TaskWords: premises: an operand of job.done of kind F32. -/
theorem test_witness_job_done : let s := task0 (.jobDone ⟨.s0, false⟩ (.k 9)) (putK 9 (Entry.mk' 1 .f32 0))
    readSrc 3 .single false (.k 9) s = .ok ⟨1, .f32, 1, false, 0⟩ s :=
  ok_eq _ _ _ (by decide +kernel) (by decide +kernel)

/-- A thread in its handler: its cause came at word 1 of the clause at 0x10000, whose guard was true (R360). -/
def handling (mode : Nat) (th : Thread) : Thread :=
  { th with trap := { th.trap with epc := BitVec.ofNat 64 (2 ^ 63 + 2 ^ 59 + 0x10000 + mode), cause := 0x113, shq := regs0.q, shp := regs0.p } }
/-- R372: trap 3 with k7. R373: rft of modes 0, 1, 2 and 3. R374: halt ends the thread. -/
theorem test_trap_rft_halt : let i := Instr.trap .s0 (.k 7) 3
    let j := Instr.rft ⟨.s0, false⟩ (.k 3) (.k 9)
    let t := after i (eng0 i)
    let r (m : Nat) : Thread := after j (eng0 j (handling m))
    (t.trap.cause = 0x113 ∧ t.trap.val = 7 ∧ t.trap.epc = BitVec.ofNat 64 (2 ^ 63 + 2 ^ 59 + 0x10000 + 1) ∧ t.pos = Pos.atHeader 0x20000) ∧
    (r 0).pos = ⟨0x10000, 1, 0, [], false, true⟩ ∧ (r 1).pos = ⟨0x10000, 2, 0, [], false, true⟩ ∧ (r 2).pos = Pos.atHeader 0x10000 ∧
    (r 0).trap.cause = 0x13 ∧ (r 0).regs.k[3].plain = Entry.mk' 9 .i32 0 ∧ (nxt (exec j (eng0 j (handling 3)))).threads = [] ∧ (after j (eng0 j)).trap.cause = 0x16B ∧
    (nxt (exec (.halt ⟨.s0, false⟩ (.k 9)) (eng0 j))).threads = [] := by decide +kernel
/-- R208, R210, R360: setsr of the trap vector keeps its writable bits; a counter needs the observation grant. time reads the meridian. -/
theorem test_setsr_time : let i := Instr.setsr .s0 (.k 9) 0x90
    let j := Instr.setsr .s0 (.k 9) 0x188
    let k := Instr.time ⟨.s0, false⟩ (.k 3) false
    let f (th : Thread) : Thread := putK 9 (Entry.mk' 0xFFF0000000020003 .i64 0) th
    ((nxt (exec i (eng0 i f))).ctx 1).trapVec = 0x20001 ∧ (after j (eng0 j f)).trap.cause = 0x108 ∧
    (after k (ver0 k none)).regs.k[3].plain = Entry.mk' 100 .i64 2 := by decide +kernel
/-- SystemAndImages: premises: operands, handlers of good and bad states, stores outstanding, and a clock read. -/
theorem test_witness_system : let s := eng0 (.rft ⟨.s0, false⟩ (.k 3) (.k 9)) (handling 0)
    let u := eng0 (.halt ⟨.s0, false⟩ (.k 9)) fun th => { th with cnt :=
  ⟨0, 1,
    0⟩ }
    s.able false true false [] ∧ s.roomy ∧ (s.thread 3).cnt.st = 0 ∧ readSrc 3 .single false (.k 9) s = .ok (num 9) s ∧
    readSrc 3 .single true (.k 9) s = .ok (num 9) s ∧ (s.thread 3).trap.cause.toNat / 256 % 2 = 1 ∧
    epcOf (s.thread 3).trap.epc = (0, 0x10000, 1, 0, true) ∧ (s.ctx (s.ctxOf 3)).observe = false ∧
    logged 3 (s.thread 3).cyc s = .ok 0 s ∧ (u.able false true false [] ∧ (u.thread 3).cnt.st = 1 ∧ u.roomy ∧ (u.thread 3).trap.cause = 0) ∧
    epcOf (handling 3 (u.thread 3)).trap.epc = (3, 0x10000, 1, 0, true) :=
  ⟨able_of _ _ _ _ _ (by decide +kernel), ⟨rfl, rfl⟩, by decide +kernel, ok_by (by decide +kernel), ok_by (by decide +kernel),
    by decide +kernel, by decide +kernel, by decide +kernel, ok_by (by decide +kernel),
    ⟨able_of _ _ _ _ _ (by decide +kernel), by decide +kernel, ⟨rfl, rfl⟩, by decide +kernel⟩, by decide +kernel⟩
/-- Once one of a list has not matched, the list has not. -/
theorem mendAll_bad {α : Type} (f : State → α → State × α × Bool) (s : State) (x : α) (xs : List α) (h : (f s x).2.2 = false) :
    (State.mendAll f s (x :: xs)).2.2 = false := by
  have k : ∀ (ys : List α) (a : State × List α × Bool), a.2.2 = false →
      (ys.foldl (fun a x => let (s, y, ok) := f a.1 x; (s, a.2.1 ++ [y], a.2.2 && ok)) a).2.2 = false := by
    intro ys
    induction ys with
    | nil => exact fun a e => e
    | cons y ys ih => exact fun a e => ih _ (by simp [e])
  exact k xs _ (by simp [h])

/-- SystemWords: premises: a shadow that is sound, and one whose q1 has a wrong residue. -/
theorem test_witness_shadow : let s := eng0 (.rft ⟨.s0, false⟩ (.k 3) (.k 9)) (handling 0)
    let b (th : Thread) : Thread := { th with trap := { th.trap with shq := th.trap.shq.set 0 { th.trap.shq[0] with res := 7 } } }
    s.mendShadow 3 = (s, true) ∧ (Config.retryMatches 0 = false →
      ((s.modThread 3 b).mendShadow 3).2 = false) :=
  ⟨by decide +kernel, fun h => by
    simp only [State.mendShadow]
    rw [if_pos (by decide +kernel)]
    have q : ∀ (s : State) (gc : Nat) (v : Vector Entry 16) (xs : List Entry), s.sched.draw = 0 → v.toList = ⟨100, .i32, 7, 0, none, (0, .empty)⟩ :: xs →
        (State.mendAll (fun s => s.mend gc) s v.toList).2.2 = false := fun s gc v xs d l => by
      rw [l]
      refine mendAll_bad _ _ _ _ ?_
      simp only [State.mend]
      rw [if_pos (by decide), d, h]
      rfl
    simp only [State.mendRegs]
    rw [q _ _ _ (regs0.q.toList.drop 1) (by decide +kernel) (by decide +kernel)]
    rfl⟩
/-- SystemAndImages: premises: the places that sr.trap.epc may name, and a suspended candidate. -/
theorem test_witness_epc : let s := eng0 (.nop ⟨.s0, false⟩)
    let th (m : Nat) : Thread := handling m (s.thread 3)
    ((epcOf (th 0).trap.epc).1 = 0 ∧ (epcOf (th 1).trap.epc).1 = 1 ∧ (epcOf (th 2).trap.epc).1 = 2 ∧ (th 0).trial = none) ∧
    (∃ r, ({ th 0 with trial := some ⟨4, 7, 9, 9, 0xFF, 3, 0x10000, none, true, 2⟩ } : Thread).trial = some r ∧ r.susp = true) ∧
    (epcOf ({ (th 0).trap with epc := 0x10000 }).epc).2.2.1 = 0 :=
  ⟨by decide +kernel, ⟨_, rfl, rfl⟩, by decide +kernel⟩
/-- R375: an image is written with its destination as 1, and ctx.save gives 0; ctx.load goes on as the image says. SystemAndImages:
premises: a ctx.load whose image has been read. -/
theorem test_images : let i := Instr.ctxSave .normal (.k 3) 5 (.lit 1)
    let j := Instr.ctxLoad .normal 5 (.lit 1)
    let s := nxt (exec (.storeAcknowledge 6) (nxt (exec i (mem0 i))))
    let p (th : Thread) : Thread := { th with regs := { th.regs with k := Vector.replicate 32 Entry.blank } }
    let v := nxt (exec (.loadDataReturn 6) (nxt (exec j { mem0 j p with homes := s.homes })))
    let t := (again j v).thread 3
    ((after i (mem0 i)).regs.k[3].plain = Entry.mk' 0 .i32 0) ∧ (v.thread 3).stage = 6 + 2 ∧
    ((v.ops.find 6).map fun o => (o.performed, o.revs)) = some (true, []) ∧ t.regs.k[3].plain = Entry.mk' 1 .i32 0 ∧
    t.regs.k[7].plain = Entry.mk' 7 .i32 0 ∧ t.pos = Pos.atHeader 0x1000C := by decide +kernel
/-- SystemAndImages: premises: registers that setsr writes, each with its access; what getsr then reads (R210, R360); the sources of an rft
that is not in a handler, and a halt that waits for its stores. -/
theorem test_witness_setsr : let s := mem0 (.setsr .s0 (.k 7) 0x102)
    let r := mem0 (.rft ⟨.s0, false⟩ (.k 3) (.k 7))
    let w := mem0 (.halt ⟨.s0, false⟩ (.k 7)) fun th => { th with cnt := { th.cnt with st := 1 } }
    (s.threads.find 3).isSome = true ∧ (∀ i ∈ [0x000, 0x070, 0x090, 0x091, 0x100, 0x101, 0x102, 0x1A0, 0x1A8], sregAccess i = some true) ∧
    (s.setSreg 3 0x102 0xFFF).sreg 3 0x102 = 0x1FF ∧ (s.setSreg 3 0x090 3).sreg 3 0x090 = 1 ∧ (s.setSreg 3 0x000 1).sreg 3 0x000 = s.sreg 3 0x000 ∧
    sregAccess 0x140 = some false ∧ (s.die 0).org = false ∧ (s.works.find 1).isSome = true ∧
    ans ((srcRules 3 false [.k 7]).run r) = some () ∧ (after (.rft ⟨.s0, false⟩ (.k 3) (.k 7)) r).trap.cause = 0x16B ∧
    (w.thread 3).cnt.st ≠ 0 ∧ w.overfull 1 = false := by decide +kernel
/-- SystemAndImages: premises: an image's place read and translated, for ctx.save and for ctx.load, and a ctx.load whose image has come. -/
theorem test_witness_images : let s := mem0 (.ctxSave .normal (.k 3) 5 (.lit 1))
    let m (r : Rights) : M Placed := placeAccess 3 5 (Val.imm' 1) imageOff 512 16 linearRec r anyHome (pure ())
    let c := checked s 0 0x40000
    let p := (ans (m wrRights s)).getD placed5
    let q := (ans (m rdRights s)).getD placed5
    s.able false true false [5] ∧ (s.thread 3).cnt.ld = 0 ∧ (∀ e ∈ (s.thread 3).regs.k.toList ++ (s.thread 3).regs.q.toList, e.wait = none ∧ e.ready ≤ s.lcOf 3) ∧
    (∀ e ∈ (s.thread 3).regs.p.toList, e.wait = none ∧ e.ready ≤ s.lcOf 3) ∧
    readSrc 3 .raw false (.lit 1) s = .ok (Val.imm' 1) s ∧ m wrRights s = .ok p c ∧ m rdRights s = .ok q c ∧
    txOf c p.r.view = none ∧ goesToSide 3 p c = .ok false c ∧
    (∀ x ∈ [placeXlat 3 p .write false c, placeXlat 3 q .read (cached c) c], (ans x).isSome = true ∧ ((left x).thread 3).cnt.st < 255 ∧
      ((left x).thread 3).cnt.ld < 255 ∧ ((left x).workOf 3).rpl.isNone = true) ∧
    (s.thread 3).stage < 2 ∧ c.roomy :=
  ⟨able_of _ _ _ _ _ (by decide +kernel), by decide +kernel, by decide +kernel, by decide +kernel, ok_by (by decide +kernel), ok_by (by decide +kernel),
    ok_by (by decide +kernel), by decide +kernel, ok_by (by decide +kernel), by decide +kernel,
    by decide +kernel, ⟨rfl, rfl⟩⟩

/-! ### Premises met: banks, the host, commits, translation, engines and the array at work -/

/-- A machine with a bank switch under way, due at lane cycle 8. -/
def switching0 : State := let i := Instr.bankMode .s0 20 .cache; nxt (exec i (fifo0 i))
/-- R132, R161: at lane cycle 8 bank 20 is a cache bank of no team, empty, and the word is passed. -/
theorem test_bank_switch : let s := nxt (exec (.bankModeSwitchComplete 0 0 20) (switching0.modDie 0 fun d => { d with lc := 8 }))
    s.bank 0 20 = Bank.reset .cache ∧ (s.core 0).switches = [] ∧ (s.thread 3).hold = none ∧
    (nxt (exec (.bankModeSwitchComplete 0 0 20) switching0)).core 0 = switching0.core 0 := by decide +kernel
/-- BanksAndReplicas: premises: a switch before it is due, and at its time. -/
theorem test_witness_bank_switch : switching0.threads.sorted = true ∧
    (∃ x, (switching0.core 0).switches.find? (fun x => x.bank == 20) = some x ∧ (switching0.die 0).lc < x.due ∧ x.due ≤ 8 ∧
      switching0.bankBusy 0 x.work = false) :=
  ⟨by decide +kernel, _, rfl, by decide +kernel⟩
/-- A machine in which die 1 copies or holds page 2 of die 0. -/
def replica0 (complete collapsing : Bool) : State :=
  let s := (mem0 (.nop ⟨.s0, false⟩)).modDie 1 fun d => { d with pool := some (0x100000, 4), replicas := [⟨2, 1, complete, 0⟩] }
  s.modHomes fun h => { h with collapsing := if collapsing then [2] else [] }
/-- R84, R85: a drop acknowledged for a collapse; a copy whose page collapses is dropped as soon as it is complete. -/
theorem test_replica_drop : let s := nxt (exec (.replicaDropAck 1 2) (replica0 true true))
    (s.die 1).replicas = [] ∧ (nxt (exec (.replicaDropAck 1 2) s)).homes.collapsing = [] ∧
    ((nxt (exec (.replicaCopyComplete 1 2) (replica0 false true))).die 1).replicas = [] := by decide +kernel
/-- BanksAndReplicas: premises: replicas complete and not, of pages that collapse and that do not. -/
theorem test_witness_replicas : (replica0 false false).homes.mem.wf = true ∧ ((replica0 false false).die 1).pool = some (0x100000, 4) ∧
    ((replica0 false false).die 1).replicas.find? (fun r => r.page == 2 && !r.complete) = some ⟨2, 1, false, 0⟩ ∧
    (replica0 false false).lineAwake 0x200 = true ∧ (replica0 false false).lineAwake ((tierBase false 1 + 0x100000 + 65536) / 256) = true ∧
    2 ∉ (replica0 false false).homes.collapsing ∧ 2 ∈ (replica0 false true).homes.collapsing ∧
    (∃ r ∈ ((replica0 true true).die 1).replicas, r.page = 2 ∧ r.complete = true) :=
  (facts (by decide +kernel) ⟨by decide +kernel, by decide +kernel, by decide +kernel, ⟨2, 1, true, 0⟩, by decide +kernel, rfl, rfl⟩)
/-- BanksAndReplicas: premises: a read on its way to die 1's replica of page 2, and none; no write that wants the page to collapse. -/
theorem test_witness_replica_reads : let s := replica0 true true
    let f := (tierBase false 1 + 0x100000) / 65536 + 1
    let o : MemOp := ⟨3, (s.thread 3).id, 1, 5, 0, 0, .load 4 1 false .i32 false, .main, [⟨0x40000, 0x20000, f * 65536, 0, 4, false⟩], .latest, .normal,
      6, false, [], none, false, (4, 1), false, [], []⟩
    s.replicaReads 1 2 = false ∧ ({ s with ops := [(6, o)] } : State).replicaReads 1 2 = true ∧ s.collapseWanted 2 = false := by decide +kernel
/-- R119: die 1's copy of a line goes; die 2's stays. -/
theorem test_copy_ack : (nxt (exec (.copyInvalidateAck 1 0x200) ((mem0 (.nop ⟨.s0, false⟩)).modHomes fun h => { h with copies := [(0x200, [1, 2])], purging := [0x200] }))).homes.copies =
    [(0x200, [2])] := by decide +kernel

/-- R395: a die that relocks gives no acknowledgement. -/
theorem test_relock_holds : let w := (mem0 (.nop ⟨.s0, false⟩)).modHomes fun h => { h with copies := [(0x200, [1, 2])], purging := [0x200] }
    let s := w.modDie 1 fun d => { d with relock := some (.p1, 2000) }
    s.clocked 1 = false ∧ w.clocked 1 = true ∧ (nxt (exec (.copyInvalidateAck 1 0x200) s)).homes.copies = [(0x200, [1, 2])] ∧
    (nxt (exec (.copyInvalidateAck 2 0x200) s)).homes.copies = [(0x200, [1])] := by decide +kernel

/-- A machine that another device reaches over link 0. -/
def linked0 : State := (mem0 (.nop ⟨.s0, false⟩)).modDev fun d => { d with fab := 3, links := [(0, ⟨true, 0, 5⟩)] }
/-- R147, R392: the host's and another device's accesses; no memory at 0x800000000. -/
theorem test_outside : let s := mem0 (.nop ⟨.s0, false⟩)
    (nxt (exec (.hostMemoryWrite (.memory 0x20002) [1, 2, 3]) s)).homes.mem.readN 0x20000 6 = [5, 0, 1, 2, 3, 0xFF] ∧
    (nxt (exec (.hostMemoryRead (.memory 0x20014) 4) s)).dev.hostReads = [[0x80, 0x33, 0x22, 0x11]] ∧
    (nxt (exec (.hostMemoryRead (.memory 0x800000000) 2) s)).dev.hostReads = [[0xFF, 0xFF]] ∧
    (nxt (exec (.hostMemoryRead (.memory 0x3FFFFFFFE) 4) (s.modHomes fun h => { h with mem := h.mem.write 0x3FFFFFFFE 9 }))).dev.hostReads = [[9, 0, 0xFF, 0xFF]] ∧
    (nxt (exec (.remoteAccessArrival ⟨true, 0x20000, [7], 1, none, 0, false⟩) linked0)).homes.mem.read 0x20000 = 7 ∧
    (nxt (exec (.remoteAccessArrival ⟨true, 0x20000, [7], 1, none, 0, false⟩) s)).homes.mem.read 0x20000 = 5 := by decide +kernel
/-- An outside access may perform at once. -/
def outB (s : State) (tb pa n : Nat) (act : Act) (v : ReadAs) : Bool :=
  s.isMem pa && decide (0 < n) && decide (pa % 256 + n ≤ 256) && s.lineAwake (pa / 256) && decide ((s.work 0).rpl = none) &&
    { s.modSched (fun c => { c with nextId := c.nextId + 1 }) with ops := s.ops.put s.sched.nextId (outsideOp tb pa n act v) }.clearToGo s.sched.nextId
      (outsideOp tb pa n act v)
theorem at_of {s : State} {tb pa n : Nat} {act : Act} {v : ReadAs} (h : outB s tb pa n act v = true) : outsideAt s tb pa n act v := by
  simp only [outB, Bool.and_eq_true, decide_eq_true_eq] at h
  obtain ⟨⟨⟨⟨⟨a, b⟩, c⟩, d⟩, e⟩, f⟩ := h
  exact ⟨a, b, c, d, e, f⟩
theorem out_of {s : State} {tb pa n : Nat} {act : Act} {v : ReadAs}
    (h : (outB s tb pa n act v && !s.homes.heads.contains (pa / 65536)) = true) : outside s tb pa n act v := by
  simp only [Bool.and_eq_true, Bool.not_eq_true', List.contains_eq_mem, decide_eq_false_iff_not] at h
  exact ⟨at_of h.1, h.2⟩
/-- OutsideAccesses: premises: plain memory written and read, no memory, a device whose firmware failed, a link. -/
theorem test_witness_outside : let s := mem0 (.nop ⟨.s0, false⟩)
    s.dev.fwOk = true ∧ (∀ a, 0x800000000 ≤ a → a = 0x800000000 ∨ a < 0x800000000 + max 2 2 → s.isMem a = false) ∧ outside s 0 0x20002 3 (.store [1, 2, 3] 24) ∧ writable s none 0x20002 3 ∧
    outside s 0 0x20014 4 (.load 1 4 false .i32 true) ∧ (s.modDev fun d => { d with fwOk := false }).dev.fwOk = false ∧ s.dev.fab = 0 ∧
    (linked0.dev.fab ≠ 0 ∧ (∃ l ∈ linked0.dev.links, l.2.up = true) ∧ outside linked0 256 0x20000 1 (.store [7] 8) ∧ writable linked0 none 0x20000 1) :=
  ⟨rfl, fun a h k => by
      obtain rfl | rfl : a = 0x800000000 ∨ a = 0x800000001 := by omega
      · decide +kernel
      · decide +kernel, out_of (by decide +kernel),
    ⟨by decide +kernel, by decide +kernel, by decide +kernel, by decide +kernel, fun a e => by cases e⟩,
    out_of (by decide +kernel), rfl, rfl, by decide,
    ⟨_, .head _, rfl⟩, out_of (by decide +kernel),
    by decide +kernel, by decide +kernel, by decide +kernel, by decide +kernel, fun a e => by cases e⟩

/-- A machine with version heads on page 2, an older version in slot 0 and a pending one in slot 1 of die 0's store, at 0x800000. -/
def slots0 : State := (mem0 (.nop ⟨.s0, false⟩)).modDie 0 (fun d => { d with store := some ⟨0x800000, 4, [0, 1], 100, 0⟩ }) |>.modHomes fun h =>
  { h with heads := [2], vlines := [(0x200, ⟨9, .plain, [⟨3, 6, .plain, some 0⟩], [⟨.tx 3, 0, 7, false, none, some 1⟩], some 3⟩)] }
/-- R93: the data, state and origin bytes of the slots, and of a free one. R389: a plain write of a versioned line keeps what it displaced;
a far snapshot is counted under its name until it closes; an unknown op is answered 2; BAR 0 gives the almanac. -/
theorem test_outside_more : let w := nxt (exec (.hostMemoryWrite (.memory 0x20002) [1]) slots0)
    let r (snap : Nat) (x : Option Nat) (closes : Bool) : Instr := .remoteAccessArrival ⟨false, 0x20000, [], 4, x, snap, closes⟩
    let u := nxt (exec (r 1 (some 9) false) linked0)
    let v := nxt (exec (r 2 (some 9) false) u)
    slots0.hostSees 0x800000 [0] = [6] ∧ slots0.hostSees (0x800000 + 256) [0] = [8] ∧ slots0.hostSees (0x800000 + 288) [0] = [7] ∧
    slots0.hostSees (0x800000 + 288 + 256) [0] = [1] ∧ slots0.hostSees (0x800000 + 2 * 288 + 256) [0] = [12] ∧
    (w.vline 0x200).stamp = 10 ∧ v.dev.farSnaps = [(2, 9), (1, 9)] ∧ (nxt (exec (r 1 none true) v)).dev.farSnaps = [(2, 9)] ∧
    (nxt (exec (r 1 none false) linked0)).dev = linked0.dev ∧ (nxt (exec (r 1 (some 9) false) (linked0.modDie 0 fun d => { d with lw := 10 }))).dev.farSnaps = [] ∧
    (nxt (exec (.hostMemoryWrite (.control 3 0) (0x0F :: List.replicate 31 0)) linked0)).dev.done = [(⟨3, 0⟩, 2)] ∧
    (nxt (exec (.hostMemoryRead (.control 0 8) 1) (linked0.almanac 1 5))).dev.hostReads = [[5]] ∧
    ((nxt (exec (.hostMemoryRead (.control 0 0x40008) 2) linked0)).dev.hostReads.map List.length) = [2] := by decide +kernel
/-- OutsideAccesses: premises: a versioned line written and read, one that must wait, a line that is off, and slots of each kind. -/
theorem test_witness_outside_more : let act := Act.store [1] 8
    let ld := Act.load 1 4 false .i32 true
    outsideAt slots0 0 0x20002 1 act .latest ∧ outsideAt slots0 0 0x20000 4 ld .latest ∧ 0x20002 / 65536 ∈ slots0.homes.heads ∧
    writable slots0 none 0x20002 1 ∧ ¬ waitsFor (slots0.vline 0x200) none ∧
    waitsFor ⟨9, .plain, [], [⟨.tx 3, 0, 7, true, none, some 1⟩], some 3⟩ none ∧
    (slots0.modDie 0 fun d => { d with near := false }).lineAwake 0x200 = false ∧ inSlotArea slots0 0 2 5 (0x800000 + 2 * 288 + 5) ∧
    slotFree slots0 0 2 none ∧ slotFree slots0 0 1 (some 0x200) ∧ slotFree slots0 0 0 (some 0x200) ∧
    outside linked0 256 0x20000 4 ld (.snap 9) ∧ (linked0.die (lineDie 0x200)).lw ≤ 9 :=
  ⟨at_of (by decide +kernel), at_of (by decide +kernel), by decide +kernel,
    ⟨by decide +kernel, by decide +kernel, by decide +kernel, by decide +kernel, fun a e => by cases e⟩,
    fun ⟨p, m, l, _⟩ => (by cases List.mem_singleton.1 m; cases l), ⟨_, List.mem_singleton.2 rfl, rfl, nofun⟩, by decide +kernel,
    ⟨by decide, ⟨_, rfl, by decide, by decide +kernel⟩, by decide +kernel⟩,
    fun m y h _ k => by cases List.mem_singleton.1 h; revert k; decide +kernel,
    fun m y h _ _ => by cases List.mem_singleton.1 h; rfl, fun m y h _ _ => by cases List.mem_singleton.1 h; rfl,
    out_of (by decide +kernel), by decide +kernel⟩

/-- The machine of `mem0` whose page is versioned, with a transaction open at stamp 90 and tb5 read through it; 16 slots; meridian 100. -/
def txn0 (i : Instr) : State :=
  let s := ver0 i (some ⟨90, true, 0, false⟩)
  let s := s.modDie 0 fun d => { d with tlb := [⟨1, 16, 4, 0x20037 + 2 ^ 35⟩], store := some ⟨0x800000, 16, [], 100, 0⟩, lw := 50 }
  let s := s.modHomes fun h => { h with heads := [2] }
  s.modCtx 1 fun c => { c with recs := [(5, recWords 0 0x40000 ||| 2 <<< 368)] }
/-- That machine after the store of k7 to word 0 in the transaction, and after its commit has begun. -/
def txn1 : State := let i := Instr.st32 .w1 .normal (.k 7) 5 .zero; nxt (exec (.storeAcknowledge 6) (nxt (exec i (txn0 i))))
/-- The thread at another word. -/
def standing (i : Instr) (s : State) : State := s.modThread 3 fun th => { th with pos := ((demo i).thread 3).pos }
/-- The transaction of `txn1` while it commits. -/
def txn2 : State := nxt (exec (.txc 2) (standing (.txc 2) txn1))
/-- The same once it has taken its stamp, at meridian 105. -/
def txn3 : State := (nxt (exec (.lockComplete 7) txn2)).modDie 0 fun d => { d with mer := 105 }
/-- R96, R101: until its commit is over nobody sees the write; then all of it, and the version before is kept. -/
theorem test_commit : let w := nxt (exec (.commitComplete 7) txn3)
    txn1.homes.mem.readN 0x20000 4 = [5, 0, 0, 0] ∧ txn3.homes.mem.readN 0x20000 4 = [5, 0, 0, 0] ∧
    w.homes.mem.readN 0x20000 8 = [7, 0, 0, 0, 0xF0, 0xFF, 0xFF, 0xFF] ∧
    w.homes.vlines.map (fun v => (v.1, v.2.stamp, v.2.older.map (·.stamp), v.2.intent, v.2.pend)) = [(0x200, 102, [0], none, [])] ∧
    (w.thread 3).txstamp = 102 := by decide +kernel
/-- CommitsAndCollector: premises: a commit that is locking, doomed or not; one whose wait is over, and one whose wait is not. -/
theorem test_witness_commits : (∃ k, txn2.commits.find 7 = some k ∧ k.owner = .tx 3 ∧ k.stamp = none) ∧
    (txn2.thread 3).view = some ⟨90, true, 0, false⟩ ∧ (pendingOf txn2 (.tx 3) 0x200).isSome = true ∧
    (∃ k, txn3.commits.find 7 = some k ∧ k.owner = .tx 3 ∧ k.stamp = some 102 ∧ 102 + (if k.remote then 51 else 3) ≤ (txn3.die k.die).mer) ∧
    (txn3.homes.vlines.map (·.1)).Nodup ∧ (txn3.threads.find 3).isSome = true ∧ (txn2.die 0).mer < 102 + 3 ∧
    ((txn2.modThread 3 fun th => { th with view := some ⟨90, true, 2, false⟩ }).thread 3).view = some ⟨90, true, 2, false⟩ :=
  ⟨some_ex (by decide +kernel), by decide +kernel, by decide +kernel, some_ex (by decide +kernel), by decide +kernel⟩
/-- CommitsAndCollector: premises: a publication before and after it takes its stamp. -/
theorem test_witness_publications : let i := Instr.vpub (.k 3) 5
    let s := nxt (exec i (ver0 i none))
    let u := (nxt (exec (.lockComplete 6) s)).modDie 0 fun d => { d with mer := 105 }
    (∃ k, s.commits.find 6 = some k ∧ k.owner = .pub 1 5 ∧ k.stamp = none ∧ s.enginesBefore k.core 1 5 6 = false) ∧
    (∃ k, u.commits.find 6 = some k ∧ k.owner = .pub 1 5 ∧ k.stamp = some 102 ∧ 102 + (if k.remote then 51 else 3) ≤ (u.die k.die).mer) :=
  ⟨some_ex (by decide +kernel), some_ex (by decide +kernel)⟩
/-- R105, R106: with no view open the low-water stamp is the least meridian, and the version of stamp 0 is reclaimed; a snapshot at 60 keeps it. -/
theorem test_collector : let w := [1, 2, 3].foldl (fun s d => s.modDie d fun x => { x with mer := 105 }) (nxt (exec (.commitComplete 7) txn3))
    let u := nxt (exec (.collectorRecompute 0) w)
    let v := nxt (exec (.collectorRecompute 0) (w.modThread 3 fun th => { th with view := some ⟨60, false, 0, false⟩ }))
    (u.die 0).lw = 105 ∧ u.homes.vlines.map (fun v => v.2.older.map (·.stamp)) = [[]] ∧ ((u.die 0).store.map (·.taken)) = some [] ∧
    (v.die 0).lw = 60 ∧ v.homes.vlines.map (fun v => v.2.older.map (·.stamp)) = [[0]] := by decide +kernel

/-- A machine without the translation of 0x40000, whose load has begun a walk; page tables at 0, 0x4000, 0x9000 and 0xA000 of die 0 whose
last entry is `e`. -/
def walk0 (e : Word64) : State :=
  let i := Instr.ld32 .w1 .normal (.k 3) 5 (.k 5)
  let s := (mem0 i).modDie 0 fun d => { d with tlb := [] }
  nxt (exec i (s.modHomes fun h => { h with mem := Memory.writeN (Memory.writeN (Memory.writeN (Memory.writeN h.mem 0 (leBytes 8 0x4001)) 0x4000
    (leBytes 8 0x9001)) 0x9000 (leBytes 8 0xA001)) 0xA020 (leBytes 8 e.toNat) }))
/-- R71-R80: a leaf is cached with its a bit set, and the load goes on; no page is asked for; a malformed entry is 0x27. -/
theorem test_walk : let s := nxt (exec (.pageWalkComplete 0) (walk0 0x20007))
    let u := nxt (exec (.pageWalkComplete 0) (walk0 0))
    let v := nxt (exec (.pageWalkComplete 0) (walk0 0x20003000000003))
    let r := nxt (exec (.refusePage ⟨0, 5⟩ 0 0) u)
    ((s.die 0).tlb.map fun x => (x.shift, x.region, x.pte)) = [(16, 4, 0x20017)] ∧ s.homes.mem.readN 0xA020 4 = [0x17, 0, 2, 0] ∧
    (s.thread 3).hold = none ∧ (u.die 0).pq = [(0, ⟨0x40000, 1, 0, 0⟩)] ∧ (v.thread 3).xlat = [(4, 0x27)] ∧
    (r.thread 3).xlat = [(4, 0x24)] ∧ r.dev.done = [(⟨0, 5⟩, 0)] ∧ ((nxt (exec (.resolvePage ⟨0, 5⟩ 0 0) u)).die 0).pq = [] ∧ ((nxt (exec (.resolvePage ⟨0, 5⟩ 0xFF 0) u)).die 0).pq = [] := by decide +kernel
/-- TranslationEvents: premises: walks that reach a leaf, an error and no page; a page request posted; commands. -/
theorem test_witness_translation : let s := walk0 0x20007
    let u := nxt (exec (.pageWalkComplete 0) (walk0 0))
    ((s.die 0).walks = [⟨1, 4, 0x40014, 0, false, [.thread 3], none⟩]) ∧ s.walkAwake 1 0x40014 = true ∧ s.walk 1 0x40014 = .leaf 3 0x20007 0xA020 ∧
    (walk0 0).walk 1 0x40014 = .absent ∧ (walk0 0x20003000000003).walk 1 0x40014 = .bad ∧ freeIndex ((walk0 0).die 0).pq = some 0 ∧
    u.dev.fwOk = true ∧ (u.die 0).pq.find 0 = some ⟨0x40000, 1, 0, 0⟩ ∧ u.postedWalk 0 0 = some ⟨1, 4, 0x40014, 0, false, [.thread 3], some 0⟩ ∧
    (u.die 0).pq.find 1 = none ∧ (∃ d < 4, ((u.die d).pq.find 0).isSome) ∧ ∀ d < 4, (u.die d).pq.find 1 = none :=
  by decide +kernel
/-- R75: an invalidate drops the translation and, with no access under way, completes; order of completion. -/
theorem test_invalidate : let s := nxt (exec (.translationInvalidate ⟨2, 9⟩ 1 0x40000 0x10000) (mem0 (.nop ⟨.s0, false⟩)))
    let u := nxt (exec (.translationInvalidateComplete ⟨2, 9⟩) s)
    (s.die 0).tlb = [] ∧ s.dev.order = [(⟨2, 9⟩, none)] ∧ u.dev.done = [(⟨2, 9⟩, 0)] ∧ u.dev.order = [] ∧
    (∃ x, s.dev.invs.find? (fun x => x.tag == ⟨2, 9⟩) = some x ∧ ∀ i ∈ x.ops, s.stillOld i = false) :=
  ⟨by decide +kernel, by decide +kernel, by decide +kernel, by decide +kernel, some_ex (by decide +kernel)⟩
/-- CommitsAndCollector: premises: a commit that waits for a lock of its line, for a copy of it, for its tier; a load of the transaction in
flight; a publication of another device's lines. -/
theorem test_witness_commit_waits : let v := txn2.modVLine 0x200 fun v => { v with pend := v.pend ++ [⟨.pub 1 5, 0, 0, true, some 100, none⟩] }
    let c := txn3.modHomes fun h => { h with copies := [(0x200, [1])] }
    let f := txn3.modDie 0 fun d => { d with near := false }
    let o : MemOp := ⟨3, (txn3.thread 3).id, 1, 5, 0, 0, .load 4 1 false .i32 false, .main, [⟨0x40000, 0x20000, 0x20000, 0, 4, true⟩], .tx 90 3, .normal,
      9, false, [], none, false, (4, 1), false, [], []⟩
    txn2.lockedBefore (.tx 3) = false ∧ v.lockedBefore (.tx 3) = true ∧ (versionOf txn3 (.tx 3) (some 102) 0x200).isSome = true ∧
    txn3.lineAwake 0x200 = true ∧ txn3.copiesLeft 0x200 = false ∧ c.copiesLeft 0x200 = true ∧ f.lineAwake 0x200 = false ∧
    (nxt (exec (.commitComplete 7) c)).homes.purging = [0x200] ∧ o.loads = true ∧
    (((nxt (exec (.commitComplete 7) { txn3 with ops := txn3.ops.put 9 o })).ops.find 9).map (·.view)) = some (.snap 102) ∧
    (txn2.modHomes fun h => { h with farGroups := [(1, 5)] }).homes.farGroups.contains (1, 5) = true ∧
    (txn2.modThread 3 fun th => { th with view := none }).openStamps = [] := by decide +kernel
/-- TranslationEvents: premises: a table entry that can be written, and one whose line is copied; rings of which one is settled. -/
theorem test_witness_rings : let s := walk0 0x20007
    let r := s.modDev fun d => { d with order := [(⟨2, 9⟩, none), (⟨2, 10⟩, some 0)] }
    s.unhindered 0xA020 8 = true ∧ (s.modHomes fun h => { h with copies := [(0xA0, [1])] }).unhindered 0xA020 8 = false ∧
    (r.finish ⟨3, 1⟩ 0).dev.done = [(⟨3, 1⟩, 0)] ∧ (r.finish ⟨2, 1⟩ 0).dev.done = [] ∧ (r.settle ⟨2, 9⟩ 0).dev.done = [(⟨2, 9⟩, 0), (⟨2, 10⟩, 0)] := by
  decide +kernel

/-! ### Premises met: engines and the brick array at work -/

/-- An operation of thread 3's team. -/
def opOf4 (what : EngWhat) (st : EngState) (slot : Option Nat := some 2) : EngOp :=
  ⟨3, [], 1, 1, 2, 256, what, 4, slot, st, 0, 0, false, false, .latest, .latest, false, 0, [], none, 4⟩
/-- The machine of `eng0` whose engine `e` holds an operation, 4, in slot 2; k3 waits for it. -/
def busy0 (e : Nat) (what : EngWhat) (st : EngState) (slot : Option Nat := some 2) : State :=
  (eng0 (.nop ⟨.s0, false⟩) (putK 3 (Entry.pend 4 0))).modEngine 0 e fun x => { x with
    slots := (if slot.isSome then [(2, ⟨7, true, none, 0⟩)] else [(2, ⟨7, true, some 0, 0⟩)]), next := 2, ops := [(4, opOf4 what st slot)] }
/-- tb6's words, of the scratchpad, with a row length. -/
def scr (fmt rowlen trows tcols : Nat) : BitVec 512 := tileWords 0xFC fmt rowlen trows tcols 0

/-- R171, R172: the next slot's generation rises when its last operation had completed; the handle goes to k3. -/
theorem test_accept : let s := nxt (exec (.engineAccept 0 0 0) (busy0 0 (.copy (scr 0 0 0 0) (scr 0 0 0 0) 64 16 16) .queued none))
    (s.thread 3).regs.k[3].plain = Entry.mk' (BitVec.ofNat 64 (2 * 2 ^ 40 + 8 * 2 ^ 24)) .fut 0 ∧ (s.engine 0 0).next = 3 ∧
    (nxt (exec (.engineStart 0 0 0) s)).engOps 0 0 = [(4, { opOf4 (.copy (scr 0 0 0 0) (scr 0 0 0 0) 64 16 16) .running with taken := 6 })] := by decide +kernel
/-- R175: word 5 (77) goes to word 17, and the status is 0x10000. R177: into the slab. R182: a poisoned word ends it with 0x29. -/
theorem test_engines_complete : let c := busy0 0 (.copy (scr 0 0 0 0) (scr 0 0 0 0) 64 16 16) .running
    let l := busy0 1 (.slabld (scr 0 16 0 0) 1 3 32 1) .running
    let s := nxt (exec (.engineComplete 0 0 0 2) c)
    let u := nxt (exec (.engineComplete 0 0 0 2) (c.modBank 0 16 fun b => { b with poison := [6] }))
    let v := nxt (exec (.engineComplete 0 0 1 2) l)
    s.spRead 0 1 64 8 = [0, 0, 0, 0, 77, 0, 0, 0] ∧ ((s.engine 0 0).slots.find 2).map (·.status) = some (some 0x10000) ∧
    ((u.engine 0 0).slots.find 2).map (·.status) = some (some 0x229) ∧ (v.core 0).slab = [(3 * 131072 + 36, 77)] := by decide +kernel
/-- R178, R189: a transform that copies 8 bytes of codes: the bytes, and their CRC-32C of both sides. -/
theorem test_xform : let s := nxt (exec (.engineComplete 0 0 2 2) (busy0 2 (.xform (scr 3 8 1 8) (scr 3 8 1 8) x0 64 16) .running))
    s.spRead 0 1 64 8 = [0, 0, 0, 0, 77, 0, 0, 0] ∧
    ((s.engine 0 2).slots.find 2).map (·.crc) = some (BitVec.ofNat 64 ((crc32c [0, 0, 0, 0, 77, 0, 0, 0]).toNat * (2 ^ 32 + 1))) ∧
    crc32c [0x31, 0x32, 0x33, 0x34, 0x35, 0x36, 0x37, 0x38, 0x39] = 0xE3069283 := by decide +kernel
theorem plain_scr (fmt rowlen trows tcols : Nat) (h : (Sys2Proof.Machine.recF (scr fmt rowlen trows tcols)).home = 0xFC ∧
    (Sys2Proof.Machine.recF (scr fmt rowlen trows tcols)).shadow = 0 ∧ (Sys2Proof.Machine.recF (scr fmt rowlen trows tcols)).swz = 0) :
    plainScratch (Sys2Proof.Machine.recF (scr fmt rowlen trows tcols)) := h
/-- EngineEvents: premises: queues with room and without, operations to start, and each kind of completion. -/
theorem test_witness_engine_events : let c := EngWhat.copy (scr 0 0 0 0) (scr 0 0 0 0) 64 16 16
    let queued : Nat × EngOp → Bool := fun o => decide (o.2.st = .queued)
    let q := busy0 0 c .queued none
    let r := busy0 0 c .running
    q.dieRuns 0 = true ∧ (q.modDie 0 fun d => { d with halted := true }).dieRuns 0 = false ∧ ((q.engine 0 0).next < 64 ∧ (q.engine 0 0).ops.sorted = true) ∧ (q.engine 0 0).ops.find? queued = some (4, opOf4 c .queued none) ∧
    ((q.engine 0 0).slots.getD 2 Slot.blank).status ≠ none ∧ (r.engine 0 0).ops.find? queued = none ∧
    ((r.engine 0 0).slots.getD 2 Slot.blank).status = none ∧
    ((busy0 0 c .accepted).engine 0 0).ops.find? (fun o => decide (o.2.st = .accepted)) = some (4, opOf4 c .accepted) ∧
    (r.engine 0 0).ops.find? (fun o => decide (o.2.slot = some 2)) = some (4, opOf4 c .running) ∧ r.dev.fab ≠ 0xFC ∧
    ((r.engine 0 0).ops.countP fun o => decide (o.2.st = .running)) = 1 ∧ (EngWhat.copy (scr 0 0 0 0) (scr 0 0 0 0) 64 16 0).empty = true :=
  by decide +kernel
/-- EngineEvents: premises: records of the scratchpad, poisoned and not, for copy, slabld and xform; an engine with 4 running. -/
theorem test_witness_engine_events2 : let r := busy0 0 (.copy (scr 0 0 0 0) (scr 0 0 0 0) 64 16 16) .running
    (plainScratch (Sys2Proof.Machine.recF (scr 0 0 0 0)) ∧ (Sys2Proof.Machine.recF (scr 0 0 0 0)).rowlen = 0) ∧ unpoisoned r 0 1 16 16 ∧
    ¬ unpoisoned (r.modBank 0 16 fun b => { b with poison := [6] }) 0 1 16 16 ∧
    (plainScratch (Sys2Proof.Machine.recF (scr 0 16 0 0)) ∧ (Sys2Proof.Machine.recF (scr 0 16 0 0)).rowlen = 16) ∧
    (plainScratch (Sys2Proof.Machine.recF (scr 3 8 1 8)) ∧ (Sys2Proof.Machine.recF (scr 3 8 1 8)).trows = 1 ∧
      (Sys2Proof.Machine.recF (scr 3 8 1 8)).tcols * (Num.format (Sys2Proof.Machine.recF (scr 3 8 1 8)).fmt).width = 8 * 8) ∧
    (((r.modEngine 0 0 fun x => { x with ops := [0, 1, 2, 3].map fun n => (n, opOf4 (.accZero 0) .running) }).engine 0 0).ops.countP
      fun o => decide (o.2.st = .running)) = 4 :=
  ⟨by simp only [plainScratch]; decide +kernel, by simp only [unpoisoned]; decide +kernel, by simp only [unpoisoned]; decide +kernel,
    by simp only [plainScratch]; decide +kernel, by simp only [plainScratch]; decide +kernel, by decide +kernel⟩

/-- The machine of `busy0` at work on the array: the team's tiles 0-3 are the core's tiles 5-8; the slab's column 3 holds 2 as
its first element, of index 20 in its block. -/
def arr0 (what : EngWhat) (st : EngState) : State :=
  ((busy0 3 what st).modWork 1 fun w => { w with tiles := [(0, [5, 6, 7, 8])] }).modCore 0 fun c => { c with
    slab := Memory.writeN (Memory.writeN [] (3 * 131072) [2]) (3 * 131072 + 16) [20], acc := [(6 * 8192, 1), (6 * 8192 + 4096, 9)] }
/-- One chunk of one row of 8-bit codes with an 8-of-64 B, for tile 1. -/
def mma1 : EngWhat := .mma (scr 3 128 32 128) 0 1 3 3 (some .n8) false 0 0 0 0 1 1
/-- R245, R248, R249: element 20 of the row is 77, of column 3 is 2: their product joins what the accumulator holds; status 0x10000. -/
theorem test_mma : let s := nxt (exec (.chunkPromotion 0 0 false) (arr0 mma1 .running))
    (s.core 0).acc = [(6 * 8192, 1), (6 * 8192 + 3, 154), (6 * 8192 + 4096, 9)] ∧
    ((s.engine 0 3).slots.find 2).map (·.status) = some (some 0x10000) := by decide +kernel
/-- R253: an mma starts; R250: the first mismatch computes the chunk again, the second ends the operation with 0x87. -/
theorem test_array_errors : let s := nxt (exec (.chunkPromotion 0 0 true) (arr0 mma1 .running))
    let u := nxt (exec (.chunkPromotion 0 0 true) s)
    ((nxt (exec (.mmaStart 0 0) (arr0 mma1 .accepted))).engOps 0 3).map (·.2.st) = [.running] ∧
    (s.engOps 0 3).map (·.2.retried) = [true] ∧ ((u.engine 0 3).slots.find 2).map (·.status) = some (some 0x287) ∧ (u.core 0).acc = (s.core 0).acc := by
  decide +kernel
/-- R261: the banks of tile 1 (6) are exchanged; the working bank is cleared. -/
theorem test_exchange_zero : ((nxt (exec (.accBankExchange 0 0 6) (arr0 (.accSwap 1) .accepted))).core 0).acc = [(6 * 8192, 9), (6 * 8192 + 4096, 1)] ∧
    ((nxt (exec (.accZeroComplete 0 0 6) (arr0 (.accZero 1) .accepted))).core 0).acc = [(6 * 8192 + 4096, 9)] := by decide +kernel
/-- R262: acc.ld of a row of 2-bit elements from the scratchpad: byte 20, 77, holds 1, -1, 0, 1; acc.st of the visible bank: 9 saturates. -/
theorem test_acc_moves : let s := nxt (exec (.accMoveComplete 0 0 2) (arr0 (.accLd (scr 0 0 0 0) 1 0 0xE 0 1) .running))
    let u := nxt (exec (.accMoveComplete 0 0 2) (arr0 (.accSt (scr 0 0 0 0) 1 0 0xE 0 1) .running))
    (s.core 0).acc = [(6 * 8192, 1), (6 * 8192 + 4096 + 80, 1), (6 * 8192 + 4096 + 81, 0xFFFFFFFF), (6 * 8192 + 4096 + 83, 1)] ∧
    u.spRead 0 1 0 8 = [1, 0, 0, 0, 0, 0, 0, 0] := by decide +kernel
/-- ArrayEvents: premises: an mma to start, one that runs, a pair of integer formats, a tile at rest, heads of a tile, a move. -/
theorem test_witness_array_events : let s := arr0 mma1 .running
    let a := arr0 mma1 .accepted
    let m := EngWhat.accLd (scr 0xE 0 0 0) 1 0xE 0xE 0 1
    (s.dieRuns 0 = true ∧ (s.engine 0 3).ops.sorted = true ∧ (s.core 0).acc.sorted = true) ∧
    (s.engine 0 3).ops.find? (fun x => x.2.what.isMma && decide (x.2.st = .running) && s.arrayLive x.2) = some (4, opOf4 mma1 .running) ∧
    (a.engine 0 3).ops.find? (fun x => x.2.what.isMma && a.arrayLive x.2 && decide (x.2.st ≠ .queued)) = some (4, opOf4 mma1 .accepted) ∧
    a.tileFree 0 4 (opOf4 mma1 .accepted) = true ∧ (pairOf 3 3).isSome = true ∧ s.physTile 0 1 1 = some 6 ∧ intPair 3 3 ∧
    (arr0 (.accSwap 1) .accepted).tileHead 0 6 true = some (4, opOf4 (.accSwap 1) .accepted) ∧
    (arr0 (.accZero 1) .accepted).tileHead 0 6 false = some (4, opOf4 (.accZero 1) .accepted) ∧
    movesFirst (arr0 m .running) 0 2 4 (opOf4 m .running) ∧ plainScratch (Sys2Proof.Machine.recF (scr 0xE 0 0 0)) ∧
    unpoisoned (arr0 m .running) 0 1 0 512 :=
  (facts (by decide +kernel) ⟨by decide +kernel, by decide +kernel, ⟨by decide, by decide⟩,
    by decide +kernel, by decide +kernel, by simp only [movesFirst]; decide +kernel, by simp only [plainScratch]; decide +kernel,
    by simp only [unpoisoned]; decide +kernel⟩)
/-- EngineEvents, ArrayEvents: premises: an operation whose page is missing; a floating mma, without scales and before it reads the first. -/
theorem test_witness_engine_pages : let b := busy0 0 (.copy (recWords 0 0x40000) (recWords 0 0x40000) 64 16 16) .running
    let c := b.modDie 0 fun d => { d with tlb := [] }
    let m : EngWhat := .mma (scr 6 128 32 128) 0 1 6 3 none false 0 0 0 0 1 1
    let n : EngWhat := .mma (scr 6 128 32 128 ||| 1 <<< 364) 0 1 6 3 none false 0 0 0 0 1 1
    let d := (arr0 n .running).modDie 0 fun d => { d with tlb := [] }
    let r := Sys2Proof.Machine.recF (recWords 0 0x40000)
    r.homeOf c.dev.fab = .main ∧ r.rowlen = 0 ∧ r.swz = 0 ∧ c.look 0 1 (r.base + 16) (.engine false) = .miss ∧
    ((nxt (exec (.engineComplete 0 0 0 2) c)).engOps 0 0).map (·.2.st) = [.walking (r.base + 16)] ∧
    (pairOf 6 3).isSome = true ∧ ¬ intPair 6 3 ∧ (arr0 m .running).physTile 0 1 1 = some 6 ∧
    (Sys2Proof.Machine.recF (scr 6 128 32 128)).scl = 0 ∧ (Sys2Proof.Machine.recF (scr 6 128 32 128 ||| 1 <<< 364)).scl ≠ 0 ∧
    ((nxt (exec (.chunkPromotion 0 0 false) (arr0 m .running))).engine 0 3).ops = [] ∧
    ((nxt (exec (.chunkPromotion 0 0 false) d)).engOps 0 3).map (·.2.st) = [.walking 0] ∧
    runningOp (.walking 0) = true ∧ parkedOp (.parked 0) = true ∧ (arr0 m .running).leaving 1 = false :=
  facts (by decide +kernel) ⟨by decide +kernel, by decide +kernel, by simp only [intPair]; decide, by decide +kernel⟩
/-- R248, R249: with 2.0 and -0 in the accumulator and a product of 3 and scales 2 and 1 the sum is 8 and 6; 0 times an infinity is NaN. -/
theorem test_float_chunk : let p : Num.XVal := .fin false 3 1
    let one : Num.XVal := .fin false 1 1
    accFloat 0x40000000 p (.fin false 2 1) one = 0x41000000 ∧ accFloat 0x80000000 p (.fin false 2 1) one = 0x40C00000 ∧
    accFloat 0 (.fin false 0 1) (.inf false) one = 0x7FC00000 := by decide +kernel

/-! ### Premises met: bins, barriers, groups, children, trials and headers -/

/-- A machine whose thread waits in bin 9 since lane cycle 0. -/
def binned0 : State :=
  let s := demo (.nop ⟨.s0, false⟩) fun th => { th with place := .bin, bundle := 0 }
  { s with bundles := [], bins := [(9, ⟨0, 0, 0, 2, 0x10000, [(3, 0)], [], false⟩)], sched := { s.sched with nextId := 10 } }
/-- A machine's die 0 at a lane cycle. -/
def atLc (n : Nat) (s : State) : State := s.modDie 0 fun d => { d with lc := n }
/-- R291: at 64 lane cycles, not at 63, the bin becomes a bundle. -/
theorem test_bin_timeout : let s := nxt (exec (.binTimeout 9) (atLc 64 binned0))
    (nxt (exec (.binTimeout 9) (atLc 63 binned0))).bins = binned0.bins ∧ s.bins = [] ∧ s.bundles.map (fun b => (b.1, b.2.tids)) = [(10, [3])] ∧
    (s.thread 3).place = .running ∧ (s.thread 3).bundle = 10 := by decide +kernel
/-- GatheringEvents: premises: a thread that found its lane full in the bin. -/
theorem test_witness_full_lane : let s := demo2 (.nop ⟨.s0, false⟩) fun th => { th with place := .bin, bundle := 0 }
    let b : Bin := ⟨0, 0, 0, 2, 0x10000, [(3, 0)], [7], false⟩
    let u := atLc 64 { s with bundles := [], bins := [(9, b)], sched := { s.sched with nextId := 10 } }
    u.bins.find 9 = some b ∧ u.byTig (b.tids.map (·.1)) = [3] ∧ (u.work (u.group 2).work).sw = .running ∧ (u.threads.find 7).isSome = true ∧
    (u.thread 7).id.tig < 64 ∧ (u.binsOf 0 0 (u.thread 7).slice).filter (fun kv => decide (kv.1 ≠ 9)) = [] := by decide +kernel
/-- A machine whose two threads wait on one core, in bins 9 and 11 of their two slices, each since lane cycle 0. -/
def binned2 : State :=
  let s := binned0
  let u := { s.thread 3 with id := { (s.thread 3).id with tig := 4, lane := 4 } }
  { s with threads := s.threads ++ [(7, u)], bins := s.bins ++ [(11, ⟨0, 0, 1, 2, 0x10000, [(7, 0)], [], false⟩)], sched := { s.sched with nextId := 12 } }
/-- R291: what is due at the end of a lane cycle is released together. -/
theorem test_bins_together : (nxt (exec (.binTimeout 9) (atLc 64 binned2))).bins = [] ∧
    (nxt (exec (.binTimeout 9) ((atLc 64 binned2).modSched fun c => { c with issue := [.word 3] }))).bins = binned2.bins := by decide +kernel
/-- GatheringEvents: premises: two bins due at one end, and what makes each of them so. -/
theorem test_witness_bins : let s := atLc 64 binned2
    (s.sched.issue = [] ∧ s.bins.sorted = true ∧ s.bins.find 11 = some ⟨0, 0, 1, 2, 0x10000, [(7, 0)], [], false⟩ ∧
      ∀ b ∈ s.bins, b.2.die = 0 ∧ s.binOld b.2 = true ∧ b.1 < s.sched.nextId) ∧
    ((atLc 64 binned0).bins.all fun b => b.1 == 9) = true ∧
    (∀ b ∈ binned0.bins, binned0.goes (binned0.group b.2.group).work = true ∧ binned0.binDue b.2 = true ∧ binned0.binOld b.2 = false) := by
  decide +kernel
/-- A machine whose thread has joined the soft barrier of its group at lane cycle 0. -/
def soft0 : State := (demo (.nop ⟨.s0, false⟩) fun th => { th with place := .soft, bundle := 0 }).modGroup 2 fun g => { g with softA := [(0, 0)] }
/-- R295: a soft barrier lets its threads go after 1,024 lane cycles. -/
theorem test_soft_timeout : ((nxt (exec (.softBarrierTimeout 2) (atLc 1024 soft0))).thread 3).place = .running ∧
    ((nxt (exec (.softBarrierTimeout 2) (atLc 1024 soft0))).group 2).softA = [] ∧
    ((nxt (exec (.softBarrierTimeout 2) (atLc 1023 soft0))).thread 3).place = .soft := by decide +kernel
/-- A machine whose group, of 24 named registers, is held at a reg.grow to 32. -/
def held0 (spill : Option Nat) : State :=
  (demo (.regGrow ⟨.s0, false⟩ (.lit 32)) fun th => { th with hold := some ⟨0xB, .event⟩ }).modGroup 2 fun g =>
    { g with size := 16, n := 24, grow := some (32, 5), spill := spill }
/-- R202-R204: a grant, a spill of the one group that is held, its end, and the fill. -/
theorem test_grow_events : let s := nxt (exec (.regGrowGrant 0 0) (held0 none))
    let u := nxt (exec (.groupFill 2) (held0 (some 1)))
    let v := nxt (exec (.fillComplete 2) u)
    (s.group 2).n = 32 ∧ (s.group 2).grow = none ∧ (s.thread 3).hold = none ∧ (s.thread 3).part = true ∧
    ((nxt (exec (.allBlockedSpill 0 0) (held0 none))).group 2).spill = some 0 ∧ ((nxt (exec (.spillComplete 2) (held0 (some 0)))).group 2).spill = some 1 ∧
    (u.group 2).spill = some 2 ∧ (u.group 2).n = 32 ∧ (v.group 2).spill = none ∧ (v.thread 3).hold = none := by decide +kernel
/-- GatheringEvents: premises: bins and barriers before and at their time; a group held, spilled, filled. -/
theorem test_witness_gathering : let h := held0 none
    (∃ b, binned0.bins.find 9 = some b ∧ binned0.byTig (b.tids.map (·.1)) = [3] ∧ b.coll = false ∧ ∀ x ∈ b.tids, x.2 + 64 ≤ ((atLc 64 binned0).die b.die).lc) ∧
    (binned0.work (binned0.group 2).work).rpl = none ∧ soft0.groupLive 2 = [3] ∧ soft0.threads.sorted = true ∧ (soft0.group 2).softA = [(0, 0)] ∧
    soft0.tidAt 2 0 = some 3 ∧ h.groups.sorted = true ∧
    (h.heldGroups 0 0).find? (fun g => (h.group g.1).spill.isNone && h.growRoom g.1 (g.2 - (h.group g.1).n)) = some (2, 32) ∧
    h.coreGroups 0 0 = [2] ∧ (h.group 2).grow = some (32, 5) ∧ poolsHave (held0 (some 1)) 2 48 ∧
    soundRegs ((held0 (some 2)).thread 3).regs ∧ ((held0 (some 1)).committed 0 0 0 = 0 ∧ ((held0 (some 1)).work 1).resident = true) :=
  ⟨some_ex (by decide +kernel), facts (by decide +kernel) (facts (by decide +kernel) ⟨by decide +kernel, by simp only [poolsHave]; decide +kernel, by simp only [soundRegs]; decide +kernel,
    by decide +kernel⟩)⟩
/-- GatheringEvents: premises: the grant that is next, of a group that is spilled, and of one that is not; a spilled group that an older
request goes before. -/
theorem test_witness_grants : let s := held0 (some 1)
    let u : State := { s with
      threads := s.threads ++ [(7, { s.thread 3 with id := { (s.thread 3).id with group := 3 } })],
      groups := s.groups ++ [(3, { s.group 2 with grow := some (25, 1), spill := none })] }
    s.nextGrant 0 0 = some (2, 32) ∧ (s.group 2).spill ≠ none ∧ (held0 none).nextGrant 0 0 = some (2, 32) ∧ s.groupLanes 2 = [(0, 0, 0)] ∧
    u.groupLanes 2 = [(0, 0, 0)] ∧ u.nextGrant 0 0 = some (3, 25) := by decide +kernel
/-- GatheringEvents: premises: pools without room for a spilled group. -/
theorem test_witness_no_room : ¬ poolsHave ((held0 (some 1)).modGroup 2 fun g => { g with size := 16, n := 24 }) 2 300 := by
  simp only [poolsHave]; decide +kernel

/-- A machine whose team's spawn FIFO holds one record. -/
def spawned0 : State := nxt (exec (.ivsplit ⟨.s0, false⟩ (.k 4) (.k 4) 5) (splitter (.ivsplit ⟨.s0, false⟩ (.k 4) (.k 4) 5)))
/-- R201, R236: the child's registers as the record holds them: the upper half in k4, k5 as its parent's. -/
theorem test_spawn : let r := imageRegs (((spawned0.bank 0 20).items.drop 3).take 54) (Vector.replicate 8 (PCell.of .F))
    r.k[4] = Entry.mk' 0x400000003FC00000 .iv32 0 ∧ r.k[5] = Entry.mk' 5 .i32 0 := by decide +kernel
/-- ChildrenStart: premises: a record, room on a lane, sound registers; and registers whose image gives them back. -/
theorem test_witness_children : let s := spawned0
    s.spawnFifo 0 1 = some 20 ∧ (s.bank 0 20).items.length = 64 ∧ 1 ≤ (s.freeSlotsOf 0 0 1).length ∧
    s.committed 0 0 1 + (16 + ((s.bank 0 20).items.getD 1 0).toNat / 2 ^ 58 % 2 ^ 6) ≤ 256 ∧ (∀ kv ∈ s.threads, kv.1 < s.sched.nextId) ∧
    soundRegs (imageRegs (((s.bank 0 20).items.drop 3).take 54) (Vector.replicate 8 (PCell.of .F))) ∧
    (∀ e ∈ regs0.k.toList ++ regs0.q.toList, e.wait = none ∧ e.ready = 0 ∧ (e.kind = .empty → e = Entry.blank)) ∧
    (demo (.snapClose)).spawnFifo 0 1 = none ∧ ((splitter .snapClose).spawnFifo 0 1 = some 20 ∧ ((splitter .snapClose).bank 0 20).items.length < 64) :=
  (facts (by decide +kernel) ⟨by decide +kernel, by simp only [soundRegs]; decide +kernel,
    by decide +kernel⟩)

/-- A machine whose candidate ended with a status and cause; the trial writes k3 to k6. -/
def ended0 (st : Nat) (c : Cause) (f : Thread → Thread := id) : State :=
  demo (.tend ⟨.s0, false⟩) fun th => f { th with
    trial := some ⟨4, 7, 9, 5, 0xFF, 3, 0x10008, some ⟨st, c, 2⟩, false, 0⟩, hold := some ⟨0xE, .event⟩, h0 := 1 }
/-- R321-R324, R330: the outcome record, and the thread after try's clause; cause 0x69 folds nothing. -/
theorem test_trial_end : let t := (nxt (exec (.trialEnd 3) (ended0 1 0x40))).thread 3
    let u := (nxt (exec (.trialEnd 3) (ended0 1 0x69))).thread 3
    t.trial = none ∧ t.pos = Pos.atHeader 0x10008 ∧ t.regs.k[3].plain = Entry.mk' (7 + 2 ^ 32 + 0x40 * 2 ^ 40) .i64 0 ∧
    t.regs.k[4].plain = Entry.mk' (4 + 2 * 2 ^ 32) .i64 0 ∧ t.regs.k[5].val = (0x141 : Word64).rotateLeft 13 ∧ t.regs.q = regs0.q ∧ u.regs.k[5].plain = Entry.mk' 1 .i64 0 ∧
    (nxt (exec (.trialEnd 3) (ended0 1 0x40 fun th => { th with cnt := ⟨1, 0, 0⟩ }))).threads = (ended0 1 0x40 fun th => { th with cnt := ⟨1, 0, 0⟩ }).threads := by
  decide +kernel

/-- The machine of `ended0` on the memory of `mem0`, with insertion of signatures at a trial's end into tb5. -/
def insert0 : State :=
  let s := mem0 (.tend ⟨.s0, false⟩) fun th => { th with
    trial := some ⟨4, 7, 9, 5, 0xFF, 3, 0x10008, some ⟨0, 0, 2⟩, false, 0⟩, hold := some ⟨0xE, .event⟩, h0 := 1 }
  s.modCtx 1 fun c => { c with sigset := 0x105 }
/-- R324, R325: the signature goes into the table before the record is written: bits [55:48] tell that it was new. -/
theorem test_trial_insert : ((nxt (exec (.trialEnd 3) insert0)).thread 3).regs.k[3].plain = Entry.mk' (7 + 2 ^ 48) .i64 0 := by decide +kernel
/-- A computation that ends the trial's insertion meets a test. -/
theorem inserts (e : Except State (State × Nat × Nat)) (p : State × Nat × Nat → Bool) (h : (match e with | .ok x => p x | _ => false) = true) :
    ∃ u a b, e = .ok (u, a, b) ∧ p (u, a, b) = true := by
  cases e with
  | ok x => exact ⟨x.1, x.2.1, x.2.2, rfl, h⟩
  | error n => cases h
/-- TrialEnds: premises: a candidate that has ended with its accesses performed, and not; an insertion that goes through. -/
theorem test_witness_trial_ends : let s := ended0 1 0x40
    let r : Trial :=
  ⟨4, 7, 9, 5, 0xFF, 3, 0x10008, some ⟨1, 0x40, 2⟩, false,
    0⟩
    (s.threads.find 3).isSome = true ∧ (s.thread 3).trial = some r ∧ r.out + 3 < 32 ∧ (s.thread 3).cnt = ⟨0, 0,
    0⟩ ∧
    (s.ctx (s.ctxOf 3)).sigset.toNat / 256 % 2 = 0 ∧ (insert0.ctx (insert0.ctxOf 3)).sigset.toNat = 0x105 ∧
    (let th := insert0.thread 3
     let th1 := folded th 0
     ∃ u a b, (insert0.modThread 3 fun _ => th1).endInsert 3 5 = .ok (u, a, b) ∧ ((u.threads.find 3).isSome &&
       decide ({ u.thread 3 with checked := th.checked, missed := th.missed } = th1)) = true) :=
  ⟨by decide +kernel, by decide +kernel, by decide, by decide +kernel, by decide +kernel, by decide +kernel,
    inserts _ (fun x => (x.1.threads.find 3).isSome && decide ({ x.1.thread 3 with
      checked := (insert0.thread 3).checked, missed := (insert0.thread 3).missed } = folded (insert0.thread 3) 0)) (by decide +kernel)⟩

/-- The machine of `mem0` whose thread stands at the header of the clause `ws`, which lies at 0x10000 (0x30000, executable). -/
def header0 (ws : List Word32) (f : Thread → Thread := id) : State :=
  let s := mem0 (.nop ⟨.s0, false⟩) fun th => f { th with pos := Pos.atHeader 0x10000 }
  let s := s.modDie 0 fun d => { d with tlb := d.tlb ++ [⟨1, 16, 1, 0x3003F⟩] }
  s.modHomes fun h => { h with mem := Memory.writeN h.mem 0x30000 (ws.map fun w => leBytes 4 w.toNat).flatten }
/-- A header of a class with one word: its guard field and its three waits. -/
def hdr1 (cls guard waits : Nat) : Word32 := BitVec.ofNat 32 (2 ^ 28 + cls * 2 ^ 25 + guard * 2 ^ 20 + waits * 2 ^ 8)
/-- A clause of one nop. -/
def nop1 (guard waits : Nat) : List Word32 := hdr1 0 guard waits :: encode (.nop ⟨.s0, false⟩)
/-- A clause of one broadcast, a collective. -/
def bcast1 : List Word32 := hdr1 2 0 0xFFF :: encode (.bcast ⟨.s0, false⟩ .q (.k 5) (.k 6))
/-- The thread after its header. -/
def headed (s : State) : Thread := (nxt (exec .clauseHeader s)).thread 3
/-- R18-R20, R43, R296: to the first word, with a guard p1 = T that is true and p1 = F that is not; waiting for loads to be 0; an illegal
header; a collective parks. -/
theorem test_header : let ld (th : Thread) : Thread := { th with cnt := ⟨1, 0, 0⟩ }
    (headed (header0 (nop1 0 0xFFF))).pos = ⟨0x10000, 1, hdr1 0 0 0xFFF, encode (.nop ⟨.s0, false⟩), true, true⟩ ∧
    (headed (header0 (nop1 5 0xFFF))).pos.g = true ∧ (headed (header0 (nop1 6 0xFFF))).pos.g = false ∧
    (headed (header0 (nop1 0 0x0FF) ld)).pos.win = 0 ∧ (headed (header0 (nop1 0 0x0FF) ld)).hold = some ⟨0x3, .poll⟩ ∧
    (headed (header0 [0])).trap.cause = 0x101 ∧ (headed (header0 bcast1)).place = .coll := by decide +kernel
/-- HeaderEvents: premises: clauses fetched, waits met and not, guards, deferred causes, a page without a translation, a collective. -/
theorem test_witness_headers : let s := header0 (nop1 5 0xFFF)
    let h := hdr1 0 5 0xFFF
    let f : Header :=
  ⟨1, .lane, 1, .t, 15, 15,
    15⟩
    (s.threads.find 3).isSome = true ∧ (s.thread 3).inTrial = false ∧ s.mates 3 = [3] ∧ (s.thread 3).id.tig < 64 ∧ (s.thread 3).pos.win = 0 ∧
    let u := left ((fetchClause 3 0x10000).run s)
    (fetchClause 3 0x10000).run s = .ok (h, f, encode (.nop ⟨.s0, false⟩)) u ∧ ((u.threads.find 3).isSome = true ∧
      { u.thread 3 with missed := (s.thread 3).missed } = s.thread 3 ∧ (s.thread 3).retry = 0) ∧ (s.thread 3).deferred = [] ∧ (s.thread 3).budgetDue = false ∧
    waitsOk f (s.thread 3).cnt ∧ ¬ waitsOk { f with ldwait := 0 } ⟨1,
    0,
    0⟩ ∧ (s.thread 3).regs.p[1].ready ≤ s.lcOf 3 ∧
    isCollective f.cls ((encode (.nop ⟨.s0, false⟩)).headD 0) = false ∧ isCollective .control ((encode (.bcast ⟨.s0, false⟩ .q (.k 5) (.k 6))).headD 0) = true ∧
    (∃ u,
    (fetchClause 3 0x10000).run (header0 [0]) = .error (.trap 0x01 0) u) :=
  (facts (by decide +kernel) ⟨by decide +kernel, ok_left (by decide +kernel), by decide +kernel, by decide +kernel, by decide +kernel, by simp only [waitsOk]; decide +kernel,
    by simp only [waitsOk]; decide +kernel, by decide +kernel, by decide +kernel, by decide +kernel, error_eq _ _ (by decide +kernel)⟩)
/-- HeaderEvents: premises: a deferred cause that goes to a handler, at a header that waits for stores; and no thread, and a hold. -/
theorem test_witness_deferred : let s := header0 (nop1 0 0xF0F) fun th => { th with deferred := [(0x28, 0x40000)] }
    let f : Header :=
  ⟨1, .lane, 0, .always, 15, 0, 15⟩
    let v := left ((fetchClause 3 0x10000).run s)
    (fetchClause 3 0x10000).run s = .ok (hdr1 0 0 0xF0F, f, encode (.nop ⟨.s0, false⟩)) v ∧ f.stwait < 15 ∧
    (s.thread 3).trap.cause.toNat / 256 % 2 = 0 ∧ (s.thread 3).bundle < v.sched.nextId ∧ toFaultQuay 0x28 = false ∧
    (v.ctx (v.ctxOf 3)).trapVec.toNat % 2 = 1 ∧ State.reset.threads.find 0 = none ∧
    (∃ u,
    (fetchClause 3 0x10000).run (mem0 (.nop ⟨.s0, false⟩)) = .error (.hold ⟨0x2, .event⟩) u) :=
  ⟨ok_left (by decide +kernel),
    by decide, by decide +kernel, by decide +kernel, by decide +kernel, by decide +kernel, rfl, error_eq _ _ (by decide +kernel)⟩
/-- R88: the deferred cause is taken at the header. -/
theorem test_deferred : (headed (header0 (nop1 0 0xF0F) fun th => { th with deferred := [(0x28, 0x40000)] })).trap.cause = 0x128 ∧
    (headed (header0 (nop1 0 0xF0F) fun th => { th with deferred := [(0x28, 0x40000)] })).trap.val = 0x40000 ∧
    (headed (header0 (nop1 0 0xFFF) fun th => { th with deferred := [(0x28, 0x40000)] })).trap.cause = 0 := by decide +kernel
/-- A candidate at the header of the clause `ws` at its word 0; its length is 4. -/
def candidate0 (ws : List Word32) (pc : Nat := 0) : State :=
  let s := demo (.nop ⟨.s0, false⟩) fun th => { th with pos := Pos.atHeader pc, trial := some ⟨4, 7, 9, 9, 0xFF, 3, 0x10000, none, false, 0⟩ }
  s.modCore 0 fun c => { c with windows := [(0, List.replicate 16 0 ++ (ws.map fun w => leBytes 4 w.toNat).flatten)] }
/-- How a candidate ended. -/
def ending (s : State) : Option Cause := ((headed s).trial.bind (·.ending)).map (·.cause)
/-- R315, R318: to the first word; 0x66 at its end and past it; 0x67 at a task clause. -/
theorem test_candidate_header : (headed (candidate0 (nop1 0 0xFFF))).pos = ⟨0, 1, hdr1 0 0 0xFFF, encode (.nop ⟨.s0, false⟩), true, true⟩ ∧
    ending (candidate0 (nop1 0 0xFFF) 4) = some 0x66 ∧ ending (candidate0 [BitVec.ofNat 32 (4 * 2 ^ 28 + 0xFFF00)]) = some 0x66 ∧
    ending (candidate0 [hdr1 5 0 0xFFF]) = some 0x67 ∧ ending (candidate0 [0]) = some 0x01 := by decide +kernel
/-- HeaderEvents: premises: candidates within and past their end, legal and illegal headers. -/
theorem test_witness_candidates : let s := candidate0 (nop1 0 0xFFF)
    (s.threads.find 3).isSome = true ∧ (s.thread 3).trial = some ⟨4, 7, 9, 9, 0xFF, 3, 0x10000, none, false, 0⟩ ∧ (s.thread 3).pos.pc < 4 ∧
    4 ≤ ((candidate0 (nop1 0 0xFFF) 4).thread 3).pos.pc ∧ windowWord (s.window 3).1 0 = hdr1 0 0 0xFFF ∧
    decodeHeader (hdr1 0 0 0xFFF) = some ⟨1, .lane, 0, .always, 15, 15, 15⟩ ∧ decodeHeader 0 = none ∧
    decodeHeader (hdr1 5 0 0xFFF) = some ⟨1, .task, 0, .always, 15, 15, 15⟩ := by decide +kernel

/-! ### Premises met: cards, the dispatcher, the harbourmaster and teams -/

/-- A job card, 6, filed in the ring of quay 5; and a launch. -/
def filed0 : State := nxt (exec (.jobPush (.k 3) 5 (.lit 4)) (task0 (.jobPush (.k 3) 5 (.lit 4))))
/-- The same card drawn, ready, and picked. -/
def drawn0 : State := nxt (exec (.cardDraw 0 5) filed0)
/-- The card picked. -/
def picked0 : State := nxt (exec (.dispatchPick 0) drawn0)
/-- R338, R341: drawn and, having no tiles, ready; picked as the first EDF card of the round; core 0 qualifies. -/
theorem test_card_path : (drawn0.card 6).st = .ready ∧ (drawn0.quay 0 5).ring = [] ∧ (picked0.die 0).disp.picked = some 6 ∧
    (picked0.die 0).disp.used = 1 ∧ (picked0.card 6).st = .picked ∧ picked0.qualifies 0 0 (picked0.card 6).kernel = some [0] := by decide +kernel
/-- A machine to which window 7 submits for context 1 to die 0, and whose status quay is open at 0x50000. -/
def window0 (s : State) : State :=
  (s.modDev fun d => { d with windows := [(7, (1, 0))] }).modQuay 0 63 fun q => { q with en := true, base := 0x50000 }
/-- R336, R346, R390: a card from outside is filed; one for a closed quay is reported, type 2 reason 2; so is a write of another size. -/
theorem test_submission : let m := Instr.submissionWrite 7 0 (leBytes 64 (cardBits true).toNat)
    let s := nxt (exec m (window0 (mem0 (.nop ⟨.s0, false⟩))))
    ((nxt (exec m (window0 (task0 (.nop ⟨.s0, false⟩))))).quay 0 5).ring = [6] ∧ s.cards.map (·.1) = [5] ∧ (s.die 0).disp.statusHead = 1 ∧
    s.homes.mem.readN 0x50008 2 = [2, 2] ∧
    (nxt (exec (.submissionWrite 7 8 (leBytes 64 0)) (window0 (mem0 (.nop ⟨.s0, false⟩))))).homes.mem.readN 0x50008 2 = [4, 0] ∧
    ((nxt (exec (.forwardedCardArrival 0 5 1 (cardBits true)) ((task0 (.nop ⟨.s0, false⟩)).modDev fun d => { d with fab := 3, links := [(0, ⟨true, 0, 5⟩)] }))).quay 0 5).ring = [6] := by decide +kernel
/-- A job card with one tile of 2 lines of tb5, drawn; its lines are still to come. -/
def tiled0 : State := drawn0.modCard 6 fun c => { c with st := .drawn, lines := [(0, 2)], bits := c.bits ||| (2 * 2 ^ 288 + 5 * 2 ^ 312 : BitVec 512) }
/-- R338, R339: two lines arrive, and the card is ready; a waiting card is filed. -/
theorem test_tile_lines : let s := nxt (exec (.tileLineArrival 0 6) tiled0)
    (s.card 6).st = .drawn ∧ (s.card 6).lines = [(0, 1)] ∧ ((nxt (exec (.tileLineArrival 0 6) s)).card 6).st = .ready ∧
    ((nxt (exec (.cardFile 0 5) (filed0.modQuay 0 5 (fun q => { q with ring := [] }) |>.modCard 6 fun c => { c with st := .waiting }))).quay 0 5).ring = [6] := by
  decide +kernel
/-- CardEvents: premises: rings with room and full, a card to draw, a quay that steers, lines to come, cards from outside. -/
theorem test_witness_cards2 : let s := window0 (task0 (.nop ⟨.s0, false⟩))
    let bits : BitVec 512 := BitVec.ofNat 512 (leVal (leBytes 64 (cardBits true).toNat))
    filed0.cards.sorted = true ∧ (filed0.quay 0 5).ring = [6] ∧ (∃ c, filed0.cards.find 6 = some c ∧ c.longest = none) ∧
    (filed0.quay 0 5).steer = false ∧ ((filed0.drawnOf 0 5).length < 256 ∧ filed0.stored 0 < 4096) ∧
    (∃ c, tiled0.cards.find 6 = some c ∧ c.st = .drawn ∧ c.lines = [(0, 2)]) ∧ s.dev.fwOk = true ∧ s.dev.windows.find 7 = some (1, 0) ∧
    (leBytes 64 (cardBits true).toNat).length = 64 ∧ (∃ c u, s.admission 1 0 bits = .ok (c, u) ∧ u.ringRoom 0 c.quay = true) ∧
    (match (mem0 (.nop ⟨.s0, false⟩)).admission 1 0 bits with | .error (some r) => r | _ => 0) = 2 ∧
    (∃ c u, (task1 (.nop ⟨.s0, false⟩)).admission 1 0 bits = .ok (c, u) ∧ (!u.ringRoom 0 c.quay) = true) ∧
    comes s 7 0 1 (leBytes 64 (cardBits true).toNat) (.submissionWrite 7 0 (leBytes 64 (cardBits true).toNat)) :=
  ⟨by decide +kernel, by decide +kernel, some_ex (by decide +kernel), by decide +kernel, by decide +kernel, some_ex (by decide +kernel),
    by decide +kernel, by decide +kernel, by decide +kernel, admits _ (fun x => x.2.ringRoom 0 x.1.quay) (by decide +kernel), by decide +kernel,
    admits _ (fun x => !x.2.ringRoom 0 x.1.quay) (by decide +kernel), .inl ⟨by decide +kernel, by decide +kernel, by decide +kernel, rfl⟩⟩
/-- CardEvents: premises: a card held while its die is off, one held while a table is, and how each goes on; lines that are fetched, dropped
and held: past the record's extent, of a page that is missing, of a tier that is off. -/
theorem test_witness_held : let m := Instr.submissionWrite 7 0 (leBytes 64 (cardBits false).toNat)
    let b := window0 (task0 (.nop ⟨.s0, false⟩))
    let off := b.modDie 0 fun d => { d with gated := true }
    let tables := b.modDie 0 fun d => { d with near := false, tlb := [] }
    let h := nxt (exec m off)
    let back := h.modDie 0 fun d => { d with gated := false }
    let c := tiled0.card 6
    let R := Sys2Proof.Machine.recF ((tiled0.ctx 1).recAt 5)
    off.serves 0 = false ∧ (h.cards.map fun kv => (kv.1, decide (kv.2.st = .held))) = [(5, false), (6, true)] ∧
    (match tables.admission 1 0 (cardBits false) with | .error none => true | _ => false) = true ∧ tables.serves 0 = true ∧
    ((nxt (exec (.cardFile 0 5) h)).quay 0 5).ring = [] ∧ ((nxt (exec (.cardFile 0 5) back)).quay 0 5).ring ≠ [] ∧
    (tiled0.fetchLine c 0 0).isSome = true ∧ c.tileReads R 0 = true ∧ c.tileReads R 0x10000 = false ∧
    (match tiled0.quietLook 0 1 (R.base + 0x10000) .read with | .bad _ => true | _ => false) = true ∧
    (match tiled0.quietLook 0 1 R.base .read with | .ok y u => !y.ver && u.lineAwake (y.pa / 256) && !(u.codeCheck 1 (y.pa / 256)).poisoned (y.pa / 256) | _ => false) = true ∧
    ((tiled0.modDie 0 fun d => { d with near := false }).fetchLine c 0 0).isNone = true ∧ R.homeOf tiled0.dev.fab = .main ∧ tiled0.serves c.target = true ∧
    (Sys2Proof.Machine.recF ((tiled0.ctx 1).recAt 6)).homeOf tiled0.dev.fab ≠ .main ∧ tiled0.dev.wharfUp = false := by decide +kernel
/-- CardEvents: premises: a waiting card, and a card whose longest tile lies on another die whose quay is open. -/
theorem test_witness_steering : let s := (filed0.modQuay 0 5 fun q => { q with steer := true }).modQuay 1 5 fun q => { q with en := true }
    let s := s.modCard 6 fun c => { c with bits := c.bits ||| (2 * 2 ^ 288 + 1 * 2 ^ 310 + 5 * 2 ^ 312 : BitVec 512) }
    (∃ c, s.cards.find 6 = some c ∧ c.longest.map (fun t => (t.recNo, t.die, t.lines)) = some (5, 1, 2) ∧ s.shapeFits 1 c.kernel = true) ∧
    (Sys2Proof.Machine.recF ((s.ctx 1).recAt 5)).homeOf s.dev.fab = .main ∧ (s.quay 1 5).en = true ∧ ((s.drawnOf 1 5).length < 256 ∧ s.stored 1 < 4096) ∧
    (∃ c, (filed0.modCard 6 fun c => { c with st := .waiting }).cards.find? (fun kv => decide (kv.2.st = .waiting) && kv.2.homeDie == 0 && kv.2.quay == 5) = some c ∧
      c.1 = 6) :=
  ⟨some_ex (by decide +kernel), by decide +kernel, by decide +kernel, by decide +kernel, some_ex (by decide +kernel)⟩

/-- DispatchEvents: premises: sorted names, none of them given twice; a round under way, a FIFO card, a pick, a place and none. -/
theorem test_witness_dispatch : let f := drawn0.modQuay 0 5 fun q => { q with fifo := true }
    drawn0.cards.sorted = true ∧ drawn0.threads.sorted = true ∧ freshNames drawn0 ∧ drawn0.edfCard 0 = some 6 ∧ f.fifoCard 0 = some 6 ∧ f.edfCard 0 = none ∧
    ((drawn0.die 0).disp.picked = none ∧ (drawn0.die 0).disp.edf = true ∧ (drawn0.die 0).disp.used < (drawn0.die 0).disp.we) ∧
    (mem0 (.nop ⟨.s0, false⟩)).edfCard 0 = none ∧ (picked0.die 0).disp.picked = some 6 ∧ (∃ c, picked0.cards.find 6 = some c ∧ c.requeued = []) ∧
    picked0.qualifies 0 (picked0.quay 0 (picked0.card 6).quay).stage (picked0.card 6).kernel = some [0] ∧
    (picked0.modDisp 0 fun d => { d with berths := (List.range 64).map fun b => (b, 1) }).qualifies 0 0 (picked0.card 6).kernel = none :=
  ⟨by decide +kernel, by decide +kernel, by simp only [freshNames]; decide +kernel, facts (by decide +kernel) ⟨by decide +kernel, by decide +kernel, some_ex (by decide +kernel), by decide +kernel⟩⟩
/-- A machine whose team has a budget of 100 ticks and has run for some. -/
def budget0 (ticks : Nat) (trap : Option Nat) : State :=
  let s := (mem0 (.nop ⟨.s0, false⟩)).modCard 5 fun c => { c with bits := 100 * 2 ^ 128 }
  (s.modDie 0 fun d => { d with mer := ticks }).modWork 1 fun w => { w with bud := { w.bud with trapAt := trap } }
/-- R344: at 100 ticks the threads are marked; at 125 the slice is ended; a second before, neither. -/
theorem test_budget : ((nxt (exec (.budgetExhausted 1) (budget0 100 none))).thread 3).budgetDue = true ∧
    ((nxt (exec (.budgetExhausted 1) (budget0 99 none))).thread 3).budgetDue = false ∧
    ((nxt (exec (.forcedSliceEnd 1) (budget0 125 (some 100)))).work 1).sw = .stopping .forced ∧
    ((nxt (exec (.forcedSliceEnd 1) (budget0 124 (some 100)))).work 1).sw = .running := by decide +kernel
/-- DispatchEvents: premises: budgets spent and not, and a slice to be ended. -/
theorem test_witness_budget : (∃ x, (budget0 100 none).works.find 1 = some x ∧ ((budget0 100 none).card x.card).budget = 100 ∧
      (budget0 100 none).budgetTicks 1 = 100 ∧ x.bud.trapAt = none ∧ x.resident = true) ∧
    (∃ x, (budget0 125 (some 100)).works.find 1 = some x ∧ x.bud.trapAt = some 100 ∧ x.sw = .running ∧ ((budget0 125 (some 100)).card x.card).homeDie < 4 ∧
      (budget0 125 (some 100)).budgetTicks 1 = 125) :=
  ⟨some_ex (by decide +kernel), some_ex (by decide +kernel)⟩
/-- A machine at its evaluation, with 3 berths of stage 1 and none of stage 0 that are pressed by quay 5. -/
def pressed0 : State :=
  let s := (mem0 (.nop ⟨.s0, false⟩)).modQuay 0 5 fun q => { q with en := true, hi := 1, stage := 0, ring := [9, 9, 9] }
  (s.modDie 0 fun d => { d with mer := 20000 }).modDisp 0 fun d => { d with evalAt := 20000, berths := (List.range 64).map fun b => (b, 1) }
/-- R348, R349: the last berth of stage 1 moves to stage 0; it serves stage 1's teams until none is left on it. -/
theorem test_harbourmaster : let s := nxt (exec (.harbourmasterEvaluation 0) pressed0)
    (s.die 0).disp.berths.find 63 = some 0 ∧ (s.die 0).disp.serving.find 63 = some 1 ∧ (s.die 0).disp.evalAt = 30000 ∧
    ((nxt (exec (.berthHandover 0 63) s)).die 0).disp.serving = [] ∧
    ((nxt (exec (.harbourmasterEvaluation 0) (pressed0.modDie 0 fun d => { d with mer := 19999 }))).die 0).disp.evalAt = 20000 := by decide +kernel
/-- DispatchEvents: premises: a pressed stage, one slack stage with berths above its floor, a berth that is handed over. -/
theorem test_witness_harbourmaster : let s := pressed0
    ((s.die 0).disp.evalAt ≤ (s.die 0).mer ∧ s.pressure 0 0 = 2 ∧ s.slack 0 1 = true ∧ s.above 0 1 = 64) ∧
    (∀ x < 8, x ≠ 0 → s.pressure 0 x < s.pressure 0 0) ∧ (∀ x < 8, x ≠ 0 → x ≠ 1 → s.above 0 x < s.above 0 1) ∧
    (63 ∈ s.stageBerths 0 1 ∧ ∀ y ∈ s.stageBerths 0 1, y ≤ 63) ∧ (∀ x < 8, (mem0 (.nop ⟨.s0, false⟩)).pressure 0 x = 0) ∧
    (let u := s.modDisp 0 fun d => { d with serving := [(63, 1)] }
     (u.die 0).disp.serving.find 63 = some 1 ∧ u.onBerth 0 63 1 = false ∧ u.onBerth 0 0 0 = true) := by decide +kernel

/-! ### Premises met: switching, the host's commands, counters -/

/-- A machine whose team has a switch state; its save pool has room or none; its one thread stands at a header. -/
def switch0 (sw : Switch) (pool : Nat := 2 ^ 30) : State :=
  let s := fifo0 (.nop ⟨.s0, false⟩) fun th => { th with pos := Pos.atHeader 0x10000 }
  (s.modWork 1 fun w => { w with sw := sw }).modDisp 0 fun d => { d with pool := pool }
/-- R366, R367: a pre-empted team is saved with its banks; no room: it runs on, and the host's ring holds a record. -/
theorem test_save : let s := nxt (exec (.contextSaveComplete 1) (switch0 (.stopping .host)))
    let n := (switch0 (.stopping .host) 0).modDev fun d => { d with errSlots := [(0, 4)] }
    let u := nxt (exec (.contextSaveComplete 1) n)
    (s.work 1).sw = .saved .host ∧ (s.work 1).banks.map (fun b => (b.bank, b.items)) = [(16, []), (20, [8, 9])] ∧ (s.bank 0 20).own = none ∧
    (s.die 0).disp.pool = 2 ^ 30 - (switch0 (.stopping .host)).areaSize 1 ∧ (s.card 5).requeued = [1] ∧ (u.work 1).sw = .running ∧ u.dev.errs.length = 1 ∧
    ((nxt (exec (.preEmptTeam ⟨0, 7⟩ 1) (switch0 .running))).work 1).sw = .stopping .host ∧ (nxt (exec (.preEmptTeam ⟨0, 7⟩ 1) (switch0 (.restoring .forced)))).dev.done = [(⟨0, 7⟩, 1)] := by
  decide +kernel
/-- The machine of `switch0` once it has been saved. -/
def saved0 : State := nxt (exec (.contextSaveComplete 1) (switch0 (.stopping .host)))
/-- R368, R369: a save that had no room is tried again; a restored team goes on, and a parked yield with it. -/
theorem test_restore : let r := (switch0 (.restoring .forced)).modThread 3 fun th => { th with place := .yielded }
    ((nxt (exec (.saveRetry 0) (switch0 (.noRoom .forced)))).work 1).sw = .saved .forced ∧
    ((nxt (exec (.saveRetry 0) (switch0 (.noRoom .forced) 0))).work 1).sw = .noRoom .forced ∧
    ((nxt (exec (.restoreComplete 1) r)).work 1).sw = .running ∧ ((nxt (exec (.restoreComplete 1) r)).thread 3).place = .running := by decide +kernel
/-- A machine whose team has no thread left; its card signals the host's memory at 0x1008 through tb7, with result 9. -/
def gone0 (sig : Bool) : State :=
  let s := { mem0 (.nop ⟨.s0, false⟩) with threads := [] }
  s.modCard 5 fun c => { c with result := 9, bits := if sig then 2 ^ 120 + 7 * 2 ^ 160 + 1 * 2 ^ 168 else 0 }
/-- R343, R345: with its last team the card's signal is stored: 1 and the result; without one only the team ends. -/
theorem test_completion : let s := nxt (exec (.completionSignal 1) (gone0 true))
    s.works = [] ∧ s.cards = [] ∧ s.homes.host.readN 0x1008 8 = [1, 0, 0, 0, 9, 0, 0, 0] ∧
    (nxt (exec (.completionSignal 1) (gone0 false))).homes = (gone0 false).homes ∧ (nxt (exec (.completionSignal 1) (gone0 false))).cards = [] := by
  decide +kernel
/-- SwitchEvents: premises: teams with and without threads, stopping, without room, restoring, and the signal's place. -/
theorem test_witness_switch : (∃ x, (switch0 (.stopping .host)).works.find 1 = some x ∧ x.sw = .stopping .host ∧ x.die < 4 ∧ x.cores.Nodup) ∧
    (switch0 .running).threads.sorted = true ∧ (switch0 .running).cards.sorted = true ∧
    (((switch0 .running).thread 3).stopped = true ∧ (switch0 .running).settled 3 = true) ∧
    ((demo (.nop ⟨.s0, false⟩)).thread 3).stopped = false ∧ (switch0 .running).areaSize 1 ≤ 2 ^ 30 ∧ (switch0 .running).dev.fwOk = true ∧
    ((gone0 true).spawnLeft 1 = false ∧ (gone0 true).threads = [] ∧ ((gone0 true).card 5).teams ≤ ((gone0 true).card 5).next ∧
      ((gone0 true).card 5).live = [1] ∧ ((gone0 true).card 5).isLaunch = false ∧ (gone0 true).clocked 0 = true ∧ ((gone0 true).card 5).sigen = true ∧ ((gone0 false).card 5).sigen = false) ∧
    ((switch0 (.noRoom .forced)).works.sorted = true ∧ ((switch0 (.noRoom .forced)).works.map (·.1)) = [1]) ∧
    soundRegs ((switch0 (.restoring .forced)).thread 3).regs :=
  ⟨some_ex (by decide +kernel), facts (by decide +kernel) ⟨by decide +kernel, by decide +kernel,
    by decide +kernel, by decide +kernel, by simp only [soundRegs]; decide +kernel⟩⟩
/-- The answer of a partial computation meets a test. -/
theorem except_ex {ε α : Type} {e : Except ε α} {p : α → Prop} [DecidablePred p] (h : (match e with | .ok x => decide (p x) | _ => false) = true) :
    ∃ x, e = .ok x ∧ p x := by
  cases e with
  | ok x => exact ⟨x, rfl, of_decide_eq_true h⟩
  | error n => cases h
/-- The machine of `gone0` whose card signals main memory, word 1 of tb5. -/
def gone1 : State := (gone0 true).modCard 5 fun c => { c with bits := 2 ^ 120 + 5 * 2 ^ 160 + 1 * 2 ^ 168 }
/-- R345: the signal is stored in main memory. -/
theorem test_signal_main : let s := nxt (exec (.completionSignal 1) gone1)
    s.works = [] ∧ s.homes.mem.readN 0x20008 8 = [1, 0, 0, 0, 9, 0, 0, 0] := by decide +kernel
/-- SwitchEvents: premises: the signal goes to main memory, where its line may be written; an access of the host that is still to come. -/
theorem test_witness_signal : (∃ x, gone1.signalSpot (gone1.card 5) = .ok x ∧ x.1.homeOf 0 = .main ∧ x.2 = 0x40008) ∧
    (match gone1.quietLook (gone1.card 5).homeDie 1 0x40008 .write with
      | .ok y u => u.lineAwake (y.pa / 256) && (match (u.disown (Runs.words [(y.pa % 256, leBytes 8 1)] (y.pa / 256))).homeWrite 1 .normal y.ver (y.pa / 256)
        [(y.pa % 256, leBytes 8 1)] none with | .ok _ => true | _ => false)
      | _ => false) = true ∧
    (∃ kv ∈ (flying (.load 4 1 false .i32 false) .host [part 0x1014 0x1014 4]).ops, kv.2.home = .host ∧ kv.2.performed = false) :=
  ⟨except_ex (by decide +kernel), by decide +kernel, _, List.mem_cons_self, rfl, rfl⟩
/-- SwitchEvents: premises: the signal goes to the host's memory; a saved team finds its place again; more teams are to come. -/
theorem test_witness_switch2 : (∃ x, (gone0 true).signalSpot ((gone0 true).card 5) = .ok x ∧ x.1.homeOf 0 = .host ∧ x.2 = 0x1008) ∧
    (saved0.restoreAt 1 0 [1]).isSome = true ∧
    (let u := (gone0 false).modCard 5 fun c => { c with live := [1, 8] }
     ¬ ((u.card 5).teams ≤ (u.card 5).next ∧ (u.card 5).live = [1])) :=
  ⟨except_ex (by decide +kernel), by decide +kernel⟩
/-- SwitchEvents: premises: a store left of a team that has ended, a signal whose die relocks, whose table lies in a tier that is off, and
which finds no version slot; a team whose mma is in the middle of a chunk. -/
theorem test_witness_switch3 : let w := { gone1 with ops := [(6, ⟨3, ⟨1, 2, 0, 0, 0, 0, 0⟩, 1, 5, 0, 0, .store [1] 8, .main, [part 0x40014 0x20014 1], .latest, .normal, 6,
      false, [], none, false, (4, 1), false, [], []⟩)] }
    let r := gone1.modDie 0 fun d => { d with relock := some (.p1, 2000) }
    let t := gone1.modDie 0 fun d => { d with near := false, tlb := [] }
    let v : State := (({ mem0 (.nop ⟨.s0, false⟩) with threads := [(9, { Thread.blank with id := ⟨8, 2, 0, 0, 0, 0, 0⟩, view := some ⟨5, false, 0, false⟩ })] } : State).modCard 5 fun c =>
      { c with result := 9, bits := 2 ^ 120 + 5 * 2 ^ 160 + 1 * 2 ^ 168 }).modDie 0 fun d => { d with tlb := [⟨1, 16, 4, 0x20037 + 2 ^ 35⟩], store := some ⟨0x800000, 0, [], 30, 0⟩ }
    let m := (arr0 (.mma (scr 6 128 32 128 ||| 1 <<< 364) 0 1 6 3 none false 0 0 0 0 1 1) .running).modEng 0 3 4 fun o => { o with retried := true }
    (nxt (exec (.completionSignal 1) w)).cards = w.cards ∧ r.clocked 0 = false ∧ (nxt (exec (.completionSignal 1) r)).cards = r.cards ∧
    (match t.quietLook 0 1 0x40008 .write with | .hold => true | _ => false) = true ∧ ((nxt (exec (.completionSignal 1) v)).card 5).sigWait = some 30 ∧
    m.arrayStill 1 = false ∧ (arr0 mma1 .accepted).arrayStill 1 = true ∧ (arr0 mma1 .accepted).engine 0 3 ≠ m.engine 0 3 := by decide +kernel

/-! ### Premises met: the host's commands, counters, power, errors, replay -/

/-- A device whose firmware failed its check. -/
def failed0 : State := State.reset.modDev fun d => { d with fwOk := false }
/-- R389-R391: a record, a binding with two windows, a fabric number, a region, weights, and refusals. -/
theorem test_commands : let s := nxt (exec (.bindContext ⟨0, 1⟩ 9 ⟨0x4000, [(5, 7)], [(3, 0), (4, 2)], true, 0x800⟩) State.reset)
    let c (m : Instr) : List (Ticket × Nat) := (nxt (exec m State.reset)).dev.done
    s.dev.done = [(⟨0, 1⟩, 0)] ∧ s.dev.windows = [(3, (9, 0)), (4, (9, 2))] ∧ (s.ctx 9).bound = true ∧ (s.ctx 9).root = 0x4000 ∧
    ((nxt (exec (.writeRecord ⟨0, 1⟩ 9 5 77) State.reset)).ctx 9).recAt 5 = 77 ∧ (nxt (exec (.setFabricNumber ⟨0, 1⟩ 3) State.reset)).dev.fab = 3 ∧
    c (.setFabricNumber ⟨0, 1⟩ 0) = [(⟨0, 1⟩, 1)] ∧ (nxt (exec (.setFabricNumber ⟨0, 1⟩ 3) s)).dev.done = [(⟨0, 1⟩, 0), (⟨0, 1⟩, 1)] ∧
    ((nxt (exec (.carveRegion ⟨0, 1⟩ (.versionStore 2 0x1000 8 50)) State.reset)).die 2).store = some ⟨0x1000, 8, [], 50, 8⟩ ∧
    ((nxt (exec (.carveRegion ⟨0, 1⟩ (.savePool 0xFF 64)) State.reset)).dies.toList.map (·.disp.pool)) = [64, 64, 64, 64] ∧
    c (.carveRegion ⟨0, 1⟩ (.savePool 4 64)) = [(⟨0, 1⟩, 1)] ∧
    ((nxt (exec (.configureQuay ⟨0, 1⟩ (.weights 1 3 4)) State.reset)).die 1).disp.we = 3 ∧ c (.configureQuay ⟨0, 1⟩ (.weights 1 0 4)) = [(⟨0, 1⟩, 1)] ∧
    (nxt (exec (.writeRecord ⟨0, 1⟩ 9 5 77) failed0)).dev.done = [(⟨0, 1⟩, 1)] := by decide +kernel
/-- R400: blocks and commit, the commit refused while a team is resident. -/
theorem test_firmware : (nxt (exec (.firmwareBlockWrite ⟨0, 1⟩ 4 77) failed0)).dev.fwBlocks = [(4, 77)] ∧ (nxt (exec (.firmwareCommit ⟨0, 1⟩) failed0)).dev.fwOk = false ∧
    (nxt (exec (.firmwareCommit ⟨0, 1⟩) (nxt (exec (.firmwareBlockWrite ⟨0, 1⟩ 4 77) failed0)))).dev.fwOk = true ∧
    (nxt (exec (.firmwareCommit ⟨0, 1⟩) (demo (.nop ⟨.s0, false⟩)))).dev.done = [(⟨0, 1⟩, 1)] := by decide +kernel
/-- HostCommands: premises: firmware failed and good, a resident team and none, a context bound and none, windows on dies that exist and not. -/
theorem test_witness_commands : failed0.dev.fwOk = false ∧ State.reset.dev.fwOk = true ∧ (∃ kv ∈ (demo (.nop ⟨.s0, false⟩)).works, kv.2.resident = true) ∧
    (∀ kv ∈ State.reset.works, kv.2.resident = false) ∧ (∀ kv ∈ State.reset.ctxs, kv.2.bound = false) ∧
    (∃ kv ∈ (demo (.nop ⟨.s0, false⟩)).ctxs, kv.2.bound = true) ∧ (let b : BindArg :=
  ⟨0, [(5, 7)], [(3, 0), (4, 2)], true, 0x800⟩
      (∀ p ∈ b.windows, p.2 < 4 ∧ p.1 < 1024) ∧ named 2 [2] ∧ named 0xFF [0, 1, 2, 3] ∧ (b.windows.map (·.1)).Nodup) ∧ plainCommand ⟨0, 1⟩ (.writeRecord ⟨0, 1⟩ 9 5 77) :=
  ⟨rfl, rfl, ⟨_, .head _, rfl⟩, nofun, nofun, ⟨_, .head _,
    rfl⟩, ⟨by decide, .inl ⟨by decide, rfl⟩, .inr ⟨rfl, rfl⟩, by decide⟩, .inr (.inl ⟨9, 5, 77, rfl⟩)⟩

/-- R350, R396: a lane cycle of 160 at P0 is 16 of a clock and five ninths of a meridian; the thread counts it; its bundle may start. -/
theorem test_lane_cycle : let s := nxt (exec (.sliceArbitration 0) (demo (.nop ⟨.s0, false⟩)))
    let u := nxt (exec (.sliceArbitration 0) s)
    (s.die 0).lc = 1 ∧ (s.die 0).mer = 0 ∧ (s.die 0).rest = 160 ∧ (s.die 0).ncyc = 16 ∧ (s.thread 3).cyc = 1 ∧ (u.die 0).mer = 1 ∧ (u.die 0).rest = 32 ∧
    s.sched.issue = [.bundle 4] := by decide +kernel
/-- R379-R382: a write of a unit's control; a change of organisation clears the counters. -/
theorem test_counters : let s := nxt (exec (.elmCtlWrite 0 0 2 0xFFFFFFFFFFFFFFFF) State.reset)
    let u := nxt (exec (.counterOrganisation ⟨0, 1⟩ (.organisation 0 true)) s)
    (s.core 0).obs.ctl[2] = 0xFFFFFFFFF0000000 ∧ (s.core 0).obs.ctl[1] = 0 ∧ (u.die 0).org = true ∧ (u.core 0).obs.slots = 0 ∧
    (u.core 0).obs.leaves = Vector.replicate 16 0 := by decide +kernel
/-- A machine that counts context 1 since meridian 5; its launch record lies at 0x60000. -/
def counting0 : State := ((demo (.nop ⟨.s0, false⟩)).modCtx 1 fun c => { c with counting := some 5, launchRec := 0x60000, serial := 2 }).modDie 0 fun d => { d with mer := 8 }
/-- R384: a start packet begins, a stop packet writes serial and context, start and stop. -/
theorem test_packets : let s := nxt (exec (.stopPacket ⟨0, 1⟩ 1) counting0)
    ((nxt (exec (.startPacket ⟨0, 1⟩ 1) counting0)).ctx 1).counting = some 8 ∧ s.homes.mem.readN 0x60000 24 =
      [2, 0, 0, 0, 1, 0, 0, 0, 5, 0, 0, 0, 0, 0, 0, 0, 8, 0, 0, 0, 0, 0, 0, 0] ∧ (s.ctx 1).counting = none := by decide +kernel
/-- CounterEvents: premises: a die that runs, one that is gated; cores' tables; a context that is counted and in no core's bank. -/
theorem test_witness_counters : let s := demo (.nop ⟨.s0, false⟩)
    ((s.die 0).relock = none ∧ (s.die 0).gated = false ∧ (s.die 0).halted = false) ∧ s.threads.sorted = true ∧
    (∀ kv ∈ s.works, kv.2.rpl = none) ∧ (∀ kv ∈ s.groups, (s.work kv.2.work).rpl = none) ∧
    (∀ kv ∈ (nxt (exec (.sliceArbitration 0) s)).bundles, kv.2.age ≤ 15) ∧ (nxt (exec (.sliceArbitration 0) s)).bundles.sorted = true ∧
    ((s.modDie 0 fun d => { d with gated := true }).die 0).gated = true ∧ (s.die 0).org = false ∧ ((s.modDie 0 fun d => { d with org := true }).die 0).org = true ∧
    s.dev.fwOk = true ∧ s.cores.sorted = true ∧ (counting0.ctx 1).counting = some 5 ∧ counting0.cores = [] := by decide +kernel
/-- CounterEvents: premises: a die in step, and one that leads the others by 2 ticks and would pass a third. -/
theorem test_witness_in_step : let s := demo (.nop ⟨.s0, false⟩)
    let u := s.modDie 0 fun d => { d with mer := 2, rest := 200 }
    s.inStep 0 = true ∧ u.inStep 0 = false ∧ (nxt (exec (.sliceArbitration 0) u)).die 0 = u.die 0 := by decide +kernel
/-- CounterEvents: premises and results: the cycle in progress when a relock begins counts, and no time passes with it; the relock's end; an
hour of a powered die; a launch record that may be written and one whose line is copied. -/
theorem test_witness_relock : let s := (demo (.nop ⟨.s0, false⟩)).modDie 0 fun d => { d with rest := 160 }
    let r := (nxt (exec (.diePowerState ⟨0, 1⟩ 0 (.run .p1)) s))
    let u := nxt (exec (.sliceArbitration 0) r)
    let v := nxt (exec (.sliceArbitration 0) u)
    let e := nxt (exec (.sliceArbitration 0) ([0, 1, 2, 3].foldl (fun s d => s.modDie d fun x => { x with mer := 2000 }) v))
    let h := [0, 1, 2, 3].foldl (fun s d => s.modDie d fun x => { x with mer := 3599999999999, rest := 200 }) (demo (.nop ⟨.s0, false⟩))
    (r.die 0).lastCycle = true ∧ (u.die 0).lastCycle = false ∧ (u.die 0).lc = 1 ∧ (u.die 0).mer = 0 ∧ (u.die 0).ncyc = 16 ∧ (u.thread 3).cyc = 1 ∧
    (v.die 0).lc = 1 ∧ (v.die 0).mer = 1 ∧ (v.die 0).ncyc = 16 + 29 ∧ (e.die 0).pst = .p1 ∧ (e.die 0).mer = 2000 ∧ (e.die 0).relock = none ∧
    (nxt (exec (.sliceArbitration 0) h)).dev.almanac.length = 1 ∧ counting0.unhindered 0x60000 256 = true ∧
    (counting0.modHomes fun h => { h with copies := [(0x600, [1])] }).unhindered 0x60000 256 = false := by decide +kernel
/-- CounterEvents: premises: no core's bank holds a context, in a machine whose cores have counted nothing. -/
theorem test_witness_no_bank (n : Nat) : (counting0.core n).obs.banks.find 1 = none := by
  simp only [show counting0.core n = Core.idle (counting0.die (n / 64)) from rfl, Core.idle]; rfl

/-- R394, R395, R396: a gate of an idle die, refused of one with a team; a change of P-state relocks for 2,000 ticks; a command meanwhile waits. -/
theorem test_power : let r := nxt (exec (.diePowerState ⟨0, 1⟩ 0 (.run .p1)) State.reset)
    let w := nxt (exec (.diePowerState ⟨0, 2⟩ 0 (.run .p2)) r)
    let e := nxt (exec (.relockEnd 0) (r.modDie 0 fun d => { d with mer := 2000 }))
    ((nxt (exec (.diePowerState ⟨0, 1⟩ 0 .gate) State.reset)).die 0).gated = true ∧ (nxt (exec (.diePowerState ⟨0, 1⟩ 0 .gate) (demo (.nop ⟨.s0, false⟩)))).dev.done = [(⟨0, 1⟩, 1)] ∧
    (r.die 0).relock = some (.p1, 2000) ∧ (w.die 0).pending = [(⟨0, 2⟩, .run .p2)] ∧ w.dev.order = [(⟨0, 2⟩, none)] ∧ (e.die 0).pst = .p1 ∧ (e.die 0).relock = none ∧
    ((nxt (exec (.tierPowerState ⟨0, 1⟩ 0 .far false) State.reset)).die 0).far = false := by decide +kernel
/-- R392, R395: a trip ends the die's teams; the eighth flit in a row takes the link down; retraining brings it back. -/
theorem test_trip_links : let s := nxt (exec (.thermalTrip 0) ((demo (.nop ⟨.s0, false⟩)).modDev fun d => { d with errSlots := [(0, 4)] }))
    let l (n : Nat) : State := State.reset.modDev fun d => { d with links := [(3, ⟨true, n, 5⟩)] }
    s.threads = [] ∧ (s.die 0).halted = true ∧ s.dev.errs.length = 1 ∧ (nxt (exec (.flitCrcFailure ⟨3, true⟩) (l 2))).dev.links = [(3, ⟨true, 3, 5⟩)] ∧
    (nxt (exec (.flitCrcFailure ⟨3, false⟩) (l 7))).dev.links = [(3, ⟨true, 1, 5⟩)] ∧
    (nxt (exec (.flitCrcFailure ⟨3, true⟩) (l 7))).dev.links = [(3, ⟨false, 0, 5⟩)] ∧
    (nxt (exec (.linkRetrained ⟨3, 6⟩) (nxt (exec (.flitCrcFailure ⟨3, true⟩) (l 7))))).dev.links = [(3, ⟨true, 0, 6⟩)] := by decide +kernel
/-- R397: a device reset keeps the host's memory and the almanac. -/
theorem test_device_reset : let s := (mem0 (.nop ⟨.s0, false⟩)).modDev fun d => { d with almanac := [(9, 4)], fab := 3 }
    let u := nxt (exec (.deviceReset true) s)
    u.threads = [] ∧ u.homes.mem = [] ∧ u.homes.host = s.homes.host ∧ u.dev.almanac = [(9, 4)] ∧ u.dev.fab = 0 := by decide +kernel
/-- PowerAndErrors: premises: sorted tables, a relock that runs and one that is over, links up and down. -/
theorem test_witness_power : let s := State.reset
    let r := nxt (exec (.diePowerState ⟨0, 1⟩ 0 (.run .p1)) s)
    (s.works.sorted = true ∧ s.threads.sorted = true ∧ s.dev.fwOk = true ∧ s.teamsOn 0 = [] ∧ (demo (.nop ⟨.s0, false⟩)).teamsOn 0 ≠ []) ∧
    ((s.die 0).relock = none ∧ s.dev.order = [] ∧ (∀ i < 4, ∀ x ∈ (s.die i).pending, x.1 ≠ ⟨0, 1⟩) ∧ (s.die 0).pst = .p0) ∧
    ((r.die 0).relock = some (.p1, 2000) ∧ (r.die 0).mer < 2000 ∧ (r.die 0).pending = []) ∧
    ((s.modDev fun d => { d with links := [(3, ⟨true, 7, 5⟩), (4, ⟨false, 0, 5⟩)] }).dev.links.find 4 = some ⟨false, 0, 5⟩) ∧ s.dev.links.find 4 = none := by
  decide +kernel

/-- A machine with a fault quay of 4 slots for context 1 at 0x70000, and a host error ring of die 0. -/
def errs0 : State :=
  ((mem0 (.nop ⟨.s0, false⟩)).modCtx 1 fun c => { c with fq := some ⟨0x70000, 4, 0, 0⟩ }).modDev fun d => { d with errSlots := [(0, 4)] }
/-- R130, R365: a line, a scratchpad word, 16 lines of metadata: each poisons, and lines tell the context. -/
theorem test_errors : let c := errs0.modHomes fun h => { h with cmps := [2] }
    let q (s : State) : Option Nat := ((s.ctx 1).fq).map (·.head)
    let l := nxt (exec (.uncorrectableData 1 0 (.line 0x20044)) errs0)
    let w := nxt (exec (.uncorrectableData 1 0 (.scratchWord 0 (16 * 131072 + 20))) errs0)
    let m := nxt (exec (.uncorrectableCompressionMetadata 1 0 0x205) c)
    l.homes.poison = [0x200] ∧ q l = some 1 ∧ (w.bank 0 16).poison = [5] ∧ q w = some 0 ∧ m.homes.poison.length = 16 ∧ (0x20F ∈ m.homes.poison) ∧ q m = some 1 ∧
    (nxt (exec (.uncorrectableCompressionMetadata 1 0 0x205) errs0)).homes.poison = [] := by decide +kernel
/-- R356, R365: a save area's error ends its team; a machine check the teams of its core; an L1 sector is invalid. -/
theorem test_errors2 : let s := errs0.modWork 1 fun w => { w with sw := .saved .host }
    let a := nxt (exec (.uncorrectableContextState 1) s)
    let b := nxt (exec (.internalMachineCheck 0 0) errs0)
    let c := nxt (exec (.uncorrectableData 1 0 (.l1Sector 0 0x400 1)) (errs0.modCore 0 fun c => { c with
      l1 := [⟨1, 0x400, 0x200, false, 0, 0xF, BitVec.allOnes 256, 0, .normal, 0, 0⟩] }))
    a.threads = [] ∧ a.dev.errs.length = 1 ∧ (nxt (exec (.uncorrectableContextState 1) errs0)).threads = errs0.threads ∧ b.threads = [] ∧ b.dev.errs.length = 1 ∧
    (nxt (exec (.internalMachineCheck 0 1) errs0)).threads = errs0.threads ∧ ((c.core 0).l1.map fun l => l.valid) = [0xD] := by decide +kernel
/-- PowerAndErrors: premises: lines of compressed pages and of others; a saved team and a resident one; rings with room. -/
theorem test_witness_errors : lineDie 0x205 = 0 ∧ (2 ∈ (errs0.modHomes fun h => { h with cmps := [2] }).homes.cmps) ∧ 2 ∉ errs0.homes.cmps ∧
    (∃ x, (errs0.modWork 1 fun w => { w with sw := .saved .host }).works.find 1 = some x ∧ x.resident = false) ∧
    (∃ x, errs0.works.find 1 = some x ∧ x.resident = true ∧ x.sw = .running) ∧ errs0.works.sorted = true ∧ errs0.threads.sorted = true ∧
    (∃ f, (errs0.ctx 1).fq = some f ∧ f.head < f.slots) ∧ errs0.dev.errs.length < errs0.dev.errSlots.getD 0 0 :=
  ⟨by decide +kernel, by decide +kernel, by decide +kernel, some_ex (by decide +kernel), some_ex (by decide +kernel), by decide +kernel,
    by decide +kernel, some_ex (by decide +kernel), by decide +kernel⟩

/-- PowerAndErrors: premises: a quay's slot that may be written and one whose line is copied; lines of a tier that is off. -/
theorem test_witness_errors2 : errs0.unhindered 0x70000 64 = true ∧ (errs0.modHomes fun h => { h with copies := [(0x700, [1])] }).unhindered 0x70000 64 = false ∧
    (∀ l ∈ linesOf 0x70000 64, l ∉ (nxt (exec (.uncorrectableData 1 0 (.line 0x20044)) errs0)).homes.poison) ∧ errs0.lineAwake 0x200 = true ∧
    (errs0.modDie 0 fun d => { d with near := false }).lineAwake 0x200 = false := by decide +kernel

/-- A machine whose team is in replay mode: its interval has ended or not, with a checkpoint or none, and writes held. -/
def replay0 (ended : Bool) (checks : List Checkpoint) (held : List (Nat × Byte)) (stop : Option Nat) (cnt : Nat := 0) : State :=
  (mem0 (.nop ⟨.s0, false⟩) fun th => { th with pos := Pos.atHeader 0x10000 }).modWork 1 fun w => { w with
    rpl := some ⟨100, 0, cnt, checks, [], 0, stop, false, (64, 64), none, ended, held, []⟩ }
/-- The checkpoint of a machine's team as it stands. -/
def check0 : Checkpoint :=
  let s := mem0 (.nop ⟨.s0, false⟩)
  ⟨0, 1, (64, 64), [], ⟨s.threads, s.groups, s.bundles, [], [], [], [0], [], [], [], []⟩⟩
/-- R385-R387: entering the mode; the first checkpoint; an interval that wrote hands its writes to a commit. -/
theorem test_replay : let s := nxt (exec (.replayMode ⟨0, 1⟩ 1 100) (mem0 (.nop ⟨.s0, false⟩)))
    let u := nxt (exec (.replayIntervalEnd 1) (replay0 true [] [] none))
    let v := nxt (exec (.replayIntervalEnd 1) (replay0 true [check0] [] none))
    let c := nxt (exec (.replayIntervalEnd 1) (replay0 true [check0] [(0x20000, 9)] none))
    ((s.work 1).rpl.map (·.limit)) = some 100 ∧ (nxt (exec (.replayMode ⟨0, 1⟩ 1 0) (mem0 (.nop ⟨.s0, false⟩)))).dev.done = [(⟨0, 1⟩, 1)] ∧
    ((u.work 1).rpl.map fun r => (r.ivl, r.checks.length, r.ended)) = some (0, 1, false) ∧ ((v.work 1).rpl.map fun r => (r.ivl, r.checks.length)) = some (1, 2) ∧
    c.commits.map (fun k => (k.2.owner, k.2.stamp)) = [(.rpl 1, none)] ∧ c.homes.mem.read 0x20000 = 5 := by decide +kernel
/-- R387: a stop rolls back to its checkpoint and is reached at its count: the team is saved, and the context told. -/
theorem test_replay_stop : let s := nxt (exec (.replayStop ⟨0, 1⟩ 1 0 7) (replay0 false [check0] [] none))
    let u := nxt (exec (.replayStopReached 1) (((replay0 false [check0] [] (some 7) 7).modDisp 0 fun d => { d with pool := 2 ^ 30 }).modCtx 1 fun c =>
      { c with fq := some ⟨0x70000, 4, 0, 0⟩ }))
    (s.work 1).sw = .saved .host ∧ ((s.work 1).rpl.map fun r => (r.stop, r.cnt)) = some (some 7, 0) ∧ s.dev.done = [(⟨0, 1⟩, 0)] ∧
    (nxt (exec (.replayStop ⟨0, 1⟩ 1 5 7) (replay0 false [check0] [] none))).dev.done = [(⟨0, 1⟩, 1)] ∧ (u.work 1).sw = .saved .host ∧
    ((u.work 1).rpl.map (·.reached)) = some true ∧ ((u.ctx 1).fq.map (·.head)) = some 1 := by decide +kernel
/-- ReplayEvents: premises: teams in replay mode and not; intervals that have ended, with writes held and slots for them; a stop. -/
theorem test_witness_replay : (∃ x, (mem0 (.nop ⟨.s0, false⟩)).works.find 1 = some x ∧ x.rpl = none) ∧ (mem0 (.nop ⟨.s0, false⟩)).works.find 2 = none ∧
    (∃ x, (replay0 true [check0] [(0x20000, 9)] none).works.find 1 = some x ∧ (x.rpl.map fun r => (r.ended, r.stop, r.held.length)) = some (true, none, 1) ∧
      x.resident = true) ∧ (replay0 true [check0] [(0x20000, 9)] none).busyWork 1 = false ∧
    ((replay0 true [check0] [(0x20000, 9)] none).work 1).rpl.any (replay0 true [check0] [(0x20000, 9)] none).replaySlots = true ∧
    check0.image.threads.sorted = true ∧ check0.image.pend = [] ∧ (∀ kv ∈ check0.image.threads, kv.2.id.work = 1) ∧
    (let s := (replay0 false [check0] [] (some 7) 7).modDisp 0 fun d => { d with pool := 2 ^ 30 }
     s.busyWork 1 = false ∧ (s.work 1).sw = .running ∧ s.areaSize 1 ≤ 2 ^ 30 ∧ s.threads.sorted = true) :=
  ⟨some_ex (by decide +kernel), by decide +kernel, some_ex (by decide +kernel), by decide +kernel⟩
/-- ReplayEvents: premises: held writes that find no slot in their die's store. -/
theorem test_witness_no_slots :
    let s := ((replay0 true [check0] [(0x20000, 9)] none).modHomes fun h => { h with heads := [2] }).modDie 0 fun d => { d with store := some ⟨0x800000, 0, [], 100, 0⟩ }
    (s.work 1).rpl.any s.replaySlots = false := by decide +kernel

/-! ### Premises met: steps, invariants, causes, operands, translation -/

/-- A machine whose next start is thread 3's word. -/
def started0 (i : Instr) : State := (demo i).modSched fun c => { c with issue := [.word 3] }
/-- R22: the step runs the word at the thread's place; a word that is none takes its cause. -/
theorem test_step : (nxt (step (started0 (.iadd ⟨.s0, false⟩ (.k 3) (.k 5) (.k 6))))).thread 3 |>.regs.k[3].plain = Entry.mk' 11 .i32 1 := by decide +kernel
/-- StepRunsDecoded: premises: a thread that may start, a word that decodes, one that does not. -/
theorem test_witness_step : let i := Instr.iadd ⟨.s0, false⟩ (.k 3) (.k 5) (.k 6)
    let s := started0 i
    let u := s.modThread 3 fun th => { th with pos := { th.pos with words := [0x0F000000] } }
    s.sched.agenda = [] ∧ s.sched.issue = [.word 3] ∧ startable s 3 ∧ readsWord s 3 (.ok i 0) ∧ startable u 3 ∧ readsWord u 3 (.trap 0x02) ∧
    (s.threads.find 9 = none) ∧ Instr.cls (.binTimeout 9) = none ∧ i.cls ≠ none :=
  ⟨rfl, rfl, ⟨rfl, by decide +kernel⟩, ⟨.lane, by decide +kernel, by decide +kernel⟩,
    ⟨by decide +kernel, by decide +kernel, by decide +kernel⟩, ⟨.lane, by decide +kernel, by decide +kernel⟩, rfl, rfl, by decide⟩
/-- Thread 3, of a group with 16 named registers, at a word that names k20 and k3. -/
def named16 (f : Thread → Thread := id) : State :=
  (demo (.iadd ⟨.s0, false⟩ .q (.k 3) (.k 20)) f).modGroup 2 fun g => { g with n := 16 }
/-- R43: 0x04 of an IV64 that is named by its odd member comes before 0x05. -/
theorem test_cause_order : let go (s : State) : Thread := (nxt (step (s.modSched fun c => { c with issue := [.word 3] }))).thread 3
    (go named16).trap.cause = 0x105 ∧ (go (named16 (putK 3 (Entry.mk' 1 .iv64 0)))).trap.cause = 0x104 := by decide +kernel
theorem is_next (o : Out) (t : State) (h : (match o with | .next u => decide (u = t) | _ => false) = true) : o = .next t := by
  cases o <;> simp_all
/-- StepRunsDecoded: premises: the cause of a word that breaks the named count alone, of one whose source comes first, of any other. -/
theorem test_witness_cause_order : let v := named16 (putK 3 (Entry.mk' 1 .iv64 0))
    readsWord named16 3 (.trap 0x05) ∧ causeOf named16 3 0x05 0x05 ∧ readsWord v 3 (.trap 0x05) ∧ causeOf v 3 0x05 0x04 ∧ causeOf v 3 0x02 0x02 := by
  have d (s : State) (h : (decode .lane 32 true ((s.thread 3).pos.word) ((s.thread 3).pos.words.drop 1)) =
      .ok (.iadd ⟨.s0, false⟩ .q (.k 3) (.k 20)) 0 ∧ ((s.thread 3).pos.win = 1) ∧ Cls.ofCode (bits (s.thread 3).pos.hdr 25 3) = some .lane)
      (k : Cause) (e : (exec (.iadd ⟨.s0, false⟩ .q (.k 3) (.k 20)) (s.withCur 3) = .next ((s.withCur 3).deliver 3 0x04 0) ∧ k = 0x04) ∨
        (exec (.iadd ⟨.s0, false⟩ .q (.k 3) (.k 20)) (s.withCur 3) ≠ .next ((s.withCur 3).deliver 3 0x04 0) ∧ k = 0x05)) : causeOf s 3 0x05 k := by
    refine ⟨fun n => absurd rfl n, fun cls hc _ => ?_⟩
    rw [h.2.2, Option.some.injEq] at hc
    subst hc
    simp only [h.2.1, BEq.rfl, h.1]
    refine ⟨fun n => absurd rfl (n _ _), fun i n q => ?_⟩
    obtain ⟨rfl, rfl⟩ : _ ∧ _ := by simpa using q
    exact ⟨fun y => e.elim (·.2) fun z => absurd y z.1, fun y => e.elim (fun z => absurd z.1 y) (·.2)⟩
  exact ⟨⟨.lane, by decide +kernel, by decide +kernel⟩, d _ (by decide +kernel) _ (.inr ⟨fun h => absurd (congrArg nxt h) (by decide +kernel), rfl⟩),
    ⟨.lane, by decide +kernel, by decide +kernel⟩, d _ (by decide +kernel) _ (.inl ⟨is_next _ _ (by decide +kernel), rfl⟩),
    fun _ => rfl, fun _ _ h => absurd h (by decide)⟩
/-- DecodeEncode: premises: words in their place, and one that is not last, one that is not first. -/
theorem test_witness_placed : wellPlaced (.iadd ⟨.s0, false⟩ .q (.k 3) (.k 4)) false [7] ∧ wellPlaced (.reform ⟨.s0, false⟩) false [] ∧
    ¬ wellPlaced (.reform ⟨.s0, false⟩) false [7] ∧ wellPlaced (.bcast ⟨.s0, false⟩ .q (.k 5) (.lit 1)) true [7] ∧
    ¬ wellPlaced (.bcast ⟨.s0, false⟩ .q (.k 5) (.lit 1)) false [] := by simp only [wellPlaced]; decide +kernel
/-- R43: a later word decodes as a first one does; a word that must be first takes 0x06. -/
theorem test_placed : decode .lane 32 false (layI 0x80 20 48 5 0) [7] = decode .lane 32 true (layI 0x80 20 48 5 0) [] ∧
    decode .control 32 false ((encode (.bcast ⟨.s0, false⟩ .q (.k 5) (.k 1))).headD 0) [] = .trap 0x06 := by decide +kernel
/-- StepRunsDecoded: premises: nothing is due at reset; a bin that is due. -/
theorem test_witness_due : let ev (s : State) : List Instr := s.accessEvents ++ s.memoryEvents ++ s.engineEvents ++ s.groupEvents ++ s.taskEvents
    (∀ i ∈ ev State.reset, State.reset.changes i = false) ∧ (atLc 64 binned0).changes (.binTimeout 9) = true ∧
    (∃ a b, ev (atLc 64 binned0) = a ++ .binTimeout 9 :: b ∧ ∀ j ∈ a, (atLc 64 binned0).changes j = false) := by
  refine ⟨by decide +kernel, by decide +kernel, ?_⟩
  let ev (s : State) : List Instr := s.accessEvents ++ s.memoryEvents ++ s.engineEvents ++ s.groupEvents ++ s.taskEvents
  let n := (ev (atLc 64 binned0)).findIdx (· == .binTimeout 9)
  exact ⟨(ev (atLc 64 binned0)).take n, (ev (atLc 64 binned0)).drop (n + 1), by decide +kernel, by decide +kernel⟩
/-- StepKeepsInvariant, EveryRunGoesOn: premises. -/
theorem test_reset_inv : inv State.reset ∧ State.reset.agendaOk = true ∧ (∃ s, step State.reset = .next s) :=
  ⟨⟨rfl, rfl⟩, rfl, _, rfl⟩
/-- The first step from reset runs the instruction that withFetchWord places. -/
theorem test_fetch_word : (nxt (step (State.reset.withFetchWord 32 (layI 0x80 20 48 5 0).toNat))).thread 3 |>.regs.k[4].plain = Entry.mk' 5 .i32 1 := by decide +kernel

/-- GuardsAndTrialChecks: premises: a guard that is false, of a class-3 word too; candidates with a banned word, an ungranted record and no fuel. -/
theorem test_witness_guards : let off (th : Thread) : Thread := { th with pos := { th.pos with g := false } }
    let i := Instr.iadd ⟨.s0, false⟩ (.k 3) (.k 5) (.k 6)
    let m := Instr.accZero .s0 1
    let c := demo i fun th => { th with trial := some ⟨4, 7, 9, 0, 2, 3, 0x10000, none, false, 0⟩ }
    (encode i = [(encode i).headD 0] ∧ i.cls = some .lane ∧ obeysGuard i = true ∧ ((demo i off).threads.find 3).isSome = true ∧
      ((demo i off).thread 3).pos.g = false ∧ ((demo i off).thread 3).part = false ∧ ((demo i off).thread 3).trial = none) ∧
    (m.cls = some .matrix ∧ ∀ u ∈ (demo m off).groupLive ((demo m off).thread 3).id.group, ((demo m off).thread u).pos.g = false) ∧
    ((c.thread 3).trial = some ⟨4, 7, 9, 0, 2, 3, 0x10000, none, false, 0⟩ ∧ trialBanned (.txa .zero) = true ∧ trialBanned i = false) ∧
    namedRecord (.ldS8 .normal .q 5 .zero) = some 5 ∧ namedRecord (.ldS8 .normal .q 1 .zero) = some 1 ∧ (2 : Word64).getLsbD 5 = false ∧
    (2 : Word64).getLsbD 1 = true ∧ namedRecord i = none ∧ takesDeferred (.rel ⟨.s0, false⟩) :=
  (facts (by decide +kernel) ⟨by decide +kernel, by decide, by decide, by decide +kernel, trivial⟩)
/-- R37, R316, R317, R319, R88: a suppressed word passes; a candidate's 0x67, 0x68 and 0x65; a deferred cause is taken by rel. -/
theorem test_guards : let off (th : Thread) : Thread := { th with pos := { th.pos with g := false } }
    let i := Instr.iadd ⟨.s0, false⟩ (.k 3) (.k 5) (.k 6)
    let c (i : Instr) (fuel : Nat) : Option Cause := ((after i (demo i fun th => { th with trial := some ⟨4, 7, 9, fuel, 2, 3, 0x10000, none, false, 0⟩ })).trial.bind (·.ending)).map (·.cause)
    (after i (demo i off)).regs = regs0 ∧ (after i (demo i off)).pos = Pos.atHeader 0x10008 ∧ c (.txa .zero) 9 = some 0x67 ∧
    c (.ldS8 .normal .q 5 .zero) 9 = some 0x68 ∧ c i 0 = some 0x65 ∧ c i 1 = none ∧
    (after (.rel ⟨.s0, false⟩) (demo (.rel ⟨.s0, false⟩) fun th => { th with deferred := [(0x28, 0x40000)] })).trap.cause = 0x128 := by decide +kernel

/-- A machine whose context has a fault quay, and whose context has no handler or whose thread is in it. -/
def quay0 (vec : Word64) (cause : Word64) : State :=
  (demo (.nop ⟨.s0, false⟩) fun th => { th with trap := { th.trap with cause := cause } }).modCtx 1 fun c =>
    { c with fq := some ⟨0x70000, 4, 0, 0⟩, trapVec := vec }
/-- R356-R363: to the handler 18 lane cycles later; without one, in it, and for 0xA2 the thread is gone and recorded. -/
theorem test_causes : let s := (quay0 0x20001 0).deliver 3 0x40 0
    let n := (quay0 0 0).deliver 3 0x40 0
    let h := (quay0 0x20001 0x113).deliver 3 0x40 0
    (s.thread 3).pos = Pos.atHeader 0x20000 ∧ (s.thread 3).trap.cause = 0x140 ∧ (s.thread 3).trap.epc = BitVec.ofNat 64 (2 ^ 63 + 2 ^ 59 + 0x10000) ∧
    (s.bundles.getD (s.thread 3).bundle ⟨0, 0, 0, 0, [], 0, 0, false, 0, 0, 0, 0⟩).busy = 18 ∧ n.threads = [] ∧ n.homes.mem.readN 0x70027 2 = [1, 0x40] ∧
    h.homes.mem.readN 0x70027 2 = [1, 0xA1] ∧ ((quay0 0x20001 0).deliver 3 0xA2 0).threads = [] ∧ ((n.ctx 1).fq.map (·.head)) = some 1 := by decide +kernel
/-- TakingACause: premises: a cause that goes to the handler, ones that do not, and a candidate's. -/
theorem test_witness_causes : let s := quay0 0x20001 0
    (s.threads.find 3).isSome = true ∧ (s.thread 3).inTrial = false ∧ toHandler s 3 0x40 ∧ ¬ toHandler s 3 0xA2 ∧ ¬ toHandler (quay0 0 0) 3 0x40 ∧
    ¬ toHandler (quay0 0x20001 0x113) 3 0x40 ∧ ((candidate0 (nop1 0 0xFFF)).thread 3).inTrial = true :=
  ⟨by decide +kernel, by decide +kernel, by simp only [toHandler]; decide +kernel, by simp only [toHandler]; decide +kernel,
    by simp only [toHandler]; decide +kernel, by simp only [toHandler]; decide +kernel, by decide +kernel⟩

/-- TakingACause: premises: a record's place that nothing hinders, and one of which a copy is left; a queue that is full. -/
theorem test_witness_posted : let s := quay0 0 0
    (s.doom 3 6).unhindered 0x70000 64 = true ∧ ((s.modHomes fun h => { h with copies := [(0x700, [1])] }).doom 3 6).unhindered 0x70000 64 = false ∧
    ((s.ctx 1).fq.any fun f => decide (f.head < f.slots)) = true ∧
    (nxt (.next ((s.modHomes fun h => { h with copies := [(0x700, [1])] }).deliver 3 0x40 0))).ops.length = 1 := by decide +kernel
/-- OperandForms: premises: entries ripe, EMPTY, with a wrong residue, a FUT, awaited, and young, with sck 0 and 1. -/
theorem test_witness_operands : let s := demo (.nop ⟨.s0, false⟩)
    let y (sck : Bool) : State := demo (.nop ⟨.s0, false⟩) fun th => { putK 5 (Entry.mk' 5 .i32 9) th with sck := sck }
    (names s 3 (.k 5) (Entry.mk' 5 .i32 0) ∧ ripe s 3 (Entry.mk' 5 .i32 0)) ∧ (Entry.mk' 5 .i32 0).res.toNat = (Entry.mk' 5 .i32 0).val.toNat % 7 ∧
    ripe s 3 Entry.blank ∧ (⟨8, .i32, 0, 0, none, (0, .empty)⟩ : Entry).res.toNat ≠ 8 % 7 ∧ (Entry.pend 6 0).wait = some (6, 0) ∧
    (names (y false) 3 (.k 5) (Entry.mk' 5 .i32 9) ∧ (y false).lcOf 3 < 9 ∧ ((y false).thread 3).sck = false ∧ ((y true).thread 3).sck = true) ∧
    (s.workOf 3).rpl = none ∧ immediate s 3 (.lit 5) = some 5 ∧ ((s.groupOf 3).g[0]).2 = .empty ∧
    ((s.modGroup 2 fun g => { g with g := Vector.replicate 7 (5, .i64) }).groupOf 3).g[0] = (5, .i64) ∧
    names s 3 (.q 2) (Entry.mk' 102 .i32 0) ∧ ((⟨5, .i32, 5, 9, none, (4, .i32)⟩ : Entry).old.2 = .i32 ∧
      (⟨.T, 0, none, .T, false⟩ : PCell).par ≠ (⟨.T, 0, none, .T, false⟩ : PCell).v.parity ∧ (PCell.of .U).par = Tri.U.parity) :=
  ⟨⟨.inr ⟨5, rfl, by decide +kernel⟩, by simp only [ripe]; decide +kernel⟩, by decide +kernel, by simp only [ripe]; decide +kernel, by decide,
    by decide +kernel, ⟨.inr ⟨5, rfl, by decide +kernel⟩, by decide +kernel⟩, by decide +kernel,
    by decide +kernel, by decide +kernel, by decide +kernel, .inl ⟨2, rfl, by decide +kernel⟩, by decide⟩
/-- R191: an EMPTY entry is 0x43; R196: writing half of a pair empties the other. -/
theorem test_operands : let i := Instr.iadd ⟨.s0, false⟩ (.k 3) (.k 5) (.k 6)
    let p (th : Thread) : Thread := putK 6 (Entry.mk' 1 .iv64 0) (putK 7 (Entry.mk' 2 .iv64 0) th)
    (after i (demo i (putK 5 Entry.blank))).trap.cause = 0x143 ∧
    (after (.movi .s0 (.k 6) 1) (demo (.movi .s0 (.k 6) 1) p)).regs.k[7] = Entry.blank := by decide +kernel

/-- RecordAddressing, Translation: premises: records that pass and fail each check, addresses cached, missing, without rights, answered. -/
theorem test_witness_addresses : let s := mem0 (.nop ⟨.s0, false⟩)
    let r := Sys2Proof.Machine.recF (recWords 0 0x40000)
    (r.valid = true ∧ r.view = 0 ∧ s.readAs 3 0 = some .latest ∧ r.grants rdRights = true ∧ anyHome (r.homeOf 0) = true) ∧
    ({ r with v := false }.valid = false ∧ { r with view := 3 }.valid = true ∧ s.readAs 3 2 = none ∧ { r with wr := false }.grants wrRights = false ∧
      (fun h : Home => h == .scratch) (r.homeOf 0) = false) ∧
    (20 % min 4 16 = 0 ∧ (∀ c ∈ r.chunks 20 4, c.1 + c.2 ≤ r.extent) ∧ ¬ (∀ c ∈ r.chunks 0x10000 4, c.1 + c.2 ≤ r.extent)) ∧
    (tlbFind (s.die 0).tlb 1 0x40014 = some ⟨1, 16, 4, 0x20037⟩ ∧ tlbFind (s.die 0).tlb 1 0x50000 = none ∧ (s.core 0).tlb = [] ∧ s.missRoom 0 1 4 = true ∧ (0x20037 : Word64).getLsbD 3 = false ∧ (0x20033 : Word64).getLsbD 2 = false ∧
      (0x20017 : Word64).getLsbD 5 = false) ∧
    (pte 0x20007).bad 3 8 = false ∧ (pte 0x20003000000003).bad 3 8 = true ∧ (pte 0x4001).bad 0 8 = false ∧
    ((s.modThread 3 fun th => { th with xlat := [(4, 0x24)] }).thread 3).xlat.find? (fun x => x.1 == 0x40014 / 65536) = some (0x40014 / 65536, 0x24) := by
  decide +kernel

end Sys2Proof.Tests
end

section
/-! PROOFS. The family of encodings: DecodeEncode is refuted by a branch table longer than a clause can hold. -/

namespace Sys2Proof.Claims

/-- A brt word (R25, R304) whose dst field counts 15 targets, one more than the words that can follow a word in its clause (R19). -/
def overlongTable : Word32 := layR 0x03 15 0 48 0 0 0

/-- What the word stands for: a branch by the newest queue entry through 15 targets, each with offset 0. -/
def overlongBrt : Instr := .brt ⟨.s0, false⟩ (.q 0) (List.replicate 15 0)

/-- The decoder takes as many target words as the field counts, with no bound of its own: handed 15, it reads all of them. -/
theorem decode_overlongTable :
    decode .control 32 false overlongTable (List.replicate 15 0) = .ok overlongBrt 15 := by decide

/-- A well-formed table has at most 14 targets, whatever the named count. -/
theorem overlongBrt_not_wf (nr : Nat) : overlongBrt.wf nr = false := by
  simp [overlongBrt, Instr.wf, Src.lits]

/-- Refutes O2: its third clause lets any number of words follow a word, and from 15 of them the decoder reads a brt of 15 targets,
which is not well-formed. A clause holds 15 words at most (R19), so at most 14 follow a word of one: the clause lacks `ws.length ≤ 14`. -/
theorem not_decodeEncode : ¬ Obligations.DecodeEncode := by
  unfold Obligations.DecodeEncode
  rintro ⟨-, -, decoded_wf, -, -⟩
  have hwf : overlongBrt.wf 32 = true :=
    (decoded_wf .control 32 false overlongTable (List.replicate 15 0) overlongBrt 15 le_rfl decode_overlongTable).1
  simp [overlongBrt_not_wf] at hwf

end Sys2Proof.Claims
end

section
/-! PROOFS. The family of lane arithmetic: division, integer compares and predicate words (R219, R223, R225). -/

namespace Sys2Proof.Machine

/-! ### Reading leaves what a word's sources are judged by -/

theorem Reads.entryOf {s s' : State} (h : Reads s s') (t : Nat) : (s'.thread t).entryOf = (s.thread t).entryOf :=
  h.field t Thread.entryOf fun _ => rfl

theorem Reads.sck {s s' : State} (h : Reads s s') (t : Nat) : (s'.thread t).sck = (s.thread t).sck :=
  h.field t Thread.sck fun _ => rfl

theorem Reads.regs {s s' : State} (h : Reads s s') (t : Nat) : (s'.thread t).regs = (s.thread t).regs :=
  h.field t Thread.regs fun _ => rfl

theorem Reads.lcOf {s s' : State} (h : Reads s s') (t : Nat) : s'.lcOf t = s.lcOf t := by
  have hid : (s'.thread t).id = (s.thread t).id := h.field t Thread.id fun _ => rfl
  unfold State.lcOf State.die
  rw [hid, h.dies]

theorem Reads.retry {s s' : State} (h : Reads s s') (hroom : s'.roomy) : (s'.thread s.sched.cur).retry = 0 :=
  h.cur ▸ hroom.1

/-! ### The rules that a word's register sources may break (R40, R43, R211) -/

/-- An entry, with its number in the named file, that stops no word which reads it: its result has arrived, it is not an IV64 named
by its odd member where the word reads pairs, and it is not too young for sr.ctl.sck. -/
def State.clear (s : State) (t : Nat) (pair : Bool) (e : Entry × Nat) : Prop :=
  e.1.wait = none ∧
  ¬ (pair = true ∧ e.1.kind = .iv64 ∧ e.2 % 2 = 1 ∧ ((s.thread t).sck = true ∨ e.1.ready ≤ s.lcOf t)) ∧
  ¬ ((s.thread t).sck = true ∧ s.lcOf t < e.1.ready)

theorem Reads.clear_iff {s s' : State} (h : Reads s s') (t : Nat) (pair : Bool) (e : Entry × Nat) :
    s'.clear t pair e ↔ s.clear t pair e := by
  unfold State.clear
  rw [h.sck, h.lcOf]

theorem faultIf_eq_ok_iff {b : Bool} {c : Cause} {s u : State} : faultIf b c s = .ok () u ↔ u = s ∧ b = false := by
  cases b
  · exact ⟨fun h => (by cases h; exact ⟨rfl, rfl⟩), fun h => (by rw [h.1]; rfl)⟩
  · exact ⟨fun h => (by cases h), fun h => (by cases h.2)⟩

/-- The rules pass, and change nothing, exactly where every entry that the sources name is clear. -/
theorem srcRules_eq_ok_iff {s u : State} {t : Nat} {pair : Bool} {xs : List Src} :
    srcRules t pair xs (pure ()) s = .ok () u ↔ u = s ∧ ∀ e ∈ xs.filterMap (s.thread t).entryOf, s.clear t pair e := by
  unfold srcRules State.clear
  rw [M.get_bind]
  dsimp only
  generalize xs.filterMap (s.thread t).entryOf = es
  cases hw : es.filterMap fun e => e.1.wait.map (·.1) with
  | cons tok toks =>
    have hlate : ¬ ∀ e ∈ es, e.1.wait = none := fun h => by
      rw [List.filterMap_eq_nil_iff.mpr fun e he => by rw [h e he]; rfl] at hw
      cases hw
    constructor
    · intro h; cases h
    · rintro ⟨-, h⟩; exact absurd (fun e he => (h e he).1) hlate
  | nil =>
    have hwait : ∀ e ∈ es, e.1.wait = none := fun e he => Option.map_eq_none_iff.mp (List.filterMap_eq_nil_iff.mp hw e he)
    dsimp only
    split
    · rename_i hodd
      obtain ⟨hpair, e, he, hbad⟩ : pair = true ∧ ∃ e ∈ es, e.1.kind = .iv64 ∧ e.2 % 2 = 1 ∧
          ((s.thread t).sck = true ∨ e.1.ready ≤ s.lcOf t) := by
        simpa [and_assoc] using hodd
      constructor
      · intro h; cases h
      · rintro ⟨-, h⟩; exact absurd ⟨hpair, hbad⟩ (h e he).2.1
    · rename_i hodd
      have hpairs : ∀ e ∈ es, ¬ (pair = true ∧ e.1.kind = .iv64 ∧ e.2 % 2 = 1 ∧
          ((s.thread t).sck = true ∨ e.1.ready ≤ s.lcOf t)) := fun e he h =>
        hodd (by simpa [h.1, and_assoc] using ⟨e.1, e.2, he, h.2⟩)
      change faultIf _ _ s = _ ↔ _
      rw [faultIf_eq_ok_iff]
      have hyoung : ((s.thread t).sck && es.any fun e => decide (s.lcOf t < e.1.ready)) = false ↔
          ∀ e ∈ es, ¬ ((s.thread t).sck = true ∧ s.lcOf t < e.1.ready) := by
        cases (s.thread t).sck <;> simp
      rw [hyoung]
      exact and_congr_right fun _ => forall₂_congr fun e he => by simp [hwait e he, hpairs e he]

/-- A source that has been read broke none of its rules. -/
theorem srcRules_of_readSrc {s u : State} {t : Nat} {rd : Reading} {cp : Bool} {x : Src} {v : Val}
    (h : readSrc t rd cp x s = .ok v u) : srcRules t (decide (rd = .pair)) [x] (pure ()) s = .ok () s := by
  unfold readSrc at h
  obtain ⟨⟨⟩, s', h, -⟩ := M.bind_ok h
  rw [h, (srcRules_eq_ok_iff.mp h).1]

/-- Sources read one after the other break no rule as the sources of one word. -/
theorem srcRules_pair {s s1 : State} {t : Nat} {pair : Bool} {a b : Src} (hr : Reads s s1)
    (ha : srcRules t pair [a] (pure ()) s = .ok () s) (hb : srcRules t pair [b] (pure ()) s1 = .ok () s1) :
    srcRules t pair [a, b] (pure ()) s = .ok () s := by
  obtain ⟨-, ha⟩ := srcRules_eq_ok_iff.mp ha
  obtain ⟨-, hb⟩ := srcRules_eq_ok_iff.mp hb
  simp only [hr.entryOf, hr.clear_iff] at hb
  refine srcRules_eq_ok_iff.mpr ⟨rfl, fun e he => ?_⟩
  rw [← List.singleton_append, List.filterMap_append, List.mem_append] at he
  exact he.elim (ha e) (hb e)

/-- The kind of a value is tested in any state alike, and the value is answered as it was read. -/
theorem asInt_eq_ok {s u : State} {bits : Bool} {v w : Val} (h : v.asInt bits s = .ok w u) (s' : State) :
    w = v ∧ u = s ∧ v.asInt bits s' = .ok v s' := by
  unfold Val.asInt at h ⊢
  split at h
  · cases h; exact ⟨rfl, rfl, by simp [*]⟩
  · split at h
    · cases h; exact ⟨rfl, rfl, by simp [*]⟩
    · cases h

theorem readInt_eq_ok {s u : State} {t : Nat} {bits : Bool} {x : Src} {v : Val} (h : readInt t bits x s = .ok v u) :
    readSrc t .pair false x s = .ok v u ∧ ∀ s', v.asInt bits s' = .ok v s' := by
  obtain ⟨w, s', hread, hkind⟩ := M.bind_ok h
  obtain ⟨rfl, rfl, -⟩ := asInt_eq_ok hkind s'
  exact ⟨hread, fun s' => (asInt_eq_ok hkind s').2.2⟩

/-- Two sources that are read one after the other are the two sources of a word. -/
theorem readInt2_of_readInt {s s1 s2 : State} {t : Nat} {bits : Bool} {a b : Src} {x y : Val}
    (ha : readInt t bits a s = .ok x s1) (hb : readInt t bits b s1 = .ok y s2) : readInt2 t bits a b s = .ok (x, y) s2 := by
  have hr : Reads s s1 := readInt_gives _ _ _ _ _ _ ha
  obtain ⟨ha, hx⟩ := readInt_eq_ok ha
  obtain ⟨hb, hy⟩ := readInt_eq_ok hb
  have hrules : srcRules t true [a, b] (pure ()) s = .ok () s := srcRules_pair hr (srcRules_of_readSrc ha) (srcRules_of_readSrc hb)
  unfold readInt2
  rw [M.bind_of_ok hrules, M.bind_of_ok ha, M.bind_of_ok hb, M.bind_of_ok (hx s2), M.bind_of_ok (hy s2)]
  rfl

/-! ### The rules that a word's predicates may break (R40, R43) -/

/-- A predicate that stops no word which reads it. -/
def State.clearPred (s : State) (t : Nat) (p : PReg) : Prop :=
  let c := (s.thread t).regs.p[p.val]
  p.val ≠ 0 → c.wait = none ∧ ¬ ((s.thread t).sck = true ∧ s.lcOf t < c.ready)

theorem Reads.clearPred_iff {s s' : State} (h : Reads s s') (t : Nat) (p : PReg) : s'.clearPred t p ↔ s.clearPred t p := by
  unfold State.clearPred
  rw [h.sck, h.lcOf, h.regs]

/-- A predicate that has been read broke none of its rules. -/
theorem clearPred_of_readPred {s u : State} {t : Nat} {p : PReg} {v : Tri} (h : readPred t p s = .ok v u) : s.clearPred t p := by
  intro hp
  unfold readPred at h
  rw [M.get_bind] at h
  dsimp only at h
  rw [if_neg hp] at h
  cases hw : ((s.thread t).regs.p[p.val]).wait with
  | some x => rw [hw] at h; cases h
  | none =>
    refine ⟨rfl, fun ⟨hsck, hlate⟩ => ?_⟩
    rw [hw] at h
    dsimp only at h
    rw [if_pos hlate, if_pos hsck] at h
    cases h

/-- The rules pass, and change nothing, where every predicate is clear. -/
theorem predRules_of_clear {s : State} {t : Nat} {ps : List PReg} (h : ∀ p ∈ ps, s.clearPred t p) :
    predRules t ps s = .ok () s := by
  unfold predRules
  rw [M.get_bind]
  have hcells : ∀ c ∈ (ps.filter fun p => p.val != 0).map fun p => (s.thread t).regs.p[p.val],
      c.wait = none ∧ ¬ ((s.thread t).sck = true ∧ s.lcOf t < c.ready) := by
    intro c hc
    obtain ⟨p, hp, rfl⟩ := List.mem_map.mp hc
    obtain ⟨hp, h0⟩ := List.mem_filter.mp hp
    exact h p hp (by simpa using h0)
  rw [List.filterMap_eq_nil_iff.mpr fun c hc => by rw [(hcells c hc).1]; rfl]
  refine faultIf_eq_ok_iff.mpr ⟨rfl, ?_⟩
  cases hs : (s.thread t).sck with
  | false => rfl
  | true =>
    rw [Bool.true_and, List.any_eq_false]
    exact fun c hc hlate => (hcells c hc).2 ⟨hs, of_decide_eq_true hlate⟩

/-! ### Ends of a word -/

theorem M.bind_of_error {α β : Type} {m : M α} {f : α → M β} {s u : State} {e : Stop} (h : m s = .error e u) :
    (m >>= f) s = .error e u := by
  change EStateM.bind m f s = _
  simp [EStateM.bind, h]

theorem plain_of_ok {m : M Unit} {s u : State} (h : m s = .ok () u) : plain m s = .ok (oneBeat, false) u :=
  M.bind_of_ok h

/-- A word whose body takes a cause takes it. -/
theorem runWord_takes {sh : Shell} {body : Nat → M (Cost × Bool)} {s s1 : State} {c : Cause} {v : Word64}
    (ha : s.able sh.ng sh.banned sh.rel sh.recs) (hb : body s.sched.cur s = .error (.trap c v) s1) :
    runWord sh body s = s.takes s1 c v := by
  have hb : (body s.sched.cur).run s = .error (.trap c v) s1 := hb
  rw [runWord_able ha, hb]
  rfl

/-- A word whose body reads and then writes a predicate passes. -/
theorem runWord_tells {sh : Shell} {body : Nat → M (Cost × Bool)} {s s1 : State} {k : Cost} {p : PReg} {v : Tri} {L : Nat}
    (ha : s.able sh.ng sh.banned sh.rel sh.recs) (hr : Reads s s1) (hroom : s1.roomy)
    (hb : body s.sched.cur s = .ok (k, false) (s1.modThread s.sched.cur fun th => th.modRegs fun r =>
      r.tell p v (s1.readyAt s.sched.cur L))) :
    Passes (s1.modRegs fun r => r.tell p v (s1.after L)) (runWord sh body s) sh.ext := by
  unfold State.modRegs State.after
  rw [hr.cur]
  exact runWord_passes ha hr hroom (Tame.modRegs _) hb

theorem writePred_run {s : State} {t : Nat} (p : PReg) (v : Tri) (L : Nat) (h : (s.thread t).retry = 0) :
    writePred t p v L s = .ok () (s.modThread t fun th => th.modRegs fun r => r.tell p v (s.readyAt t L)) := by
  unfold writePred
  rw [M.get_bind, if_pos h]
  rfl

/-- An iterative operation that finds none in flight is under way. -/
theorem iterate_run {s : State} {t : Nat} (d : Dst) (vs : List (Word64 × Kind)) (L : Nat)
    (hidle : (s.thread t).iter.any (·.solo) = false) (hretry : (s.thread t).retry = 0) :
    iterate t d none vs L s = .ok () (s.awaits t true d none vs L) := by
  unfold iterate
  rw [M.bind_of_ok (M.getT_run s t)]
  dsimp only
  rw [hidle, hretry]
  rfl

/-- A word whose body leaves its thread where it stands passes. -/
theorem runWord_stays {sh : Shell} {body : Nat → M (Cost × Bool)} {s u : State} {k : Cost}
    (ha : s.able sh.ng sh.banned sh.rel sh.recs) (hcur : u.sched.cur = s.sched.cur) (hroom : u.roomy)
    (hid : (u.thread u.sched.cur).id = (s.thread s.sched.cur).id)
    (htrial : (u.thread u.sched.cur).trial = (s.thread s.sched.cur).trial)
    (hb : body s.sched.cur s = .ok (k, false) u) : Passes u (runWord sh body s) sh.ext := by
  have hb : (body s.sched.cur).run s = .ok (k, false) u := hb
  have ⟨_, _, _, hending⟩ := ha
  obtain ⟨hretry, hfull⟩ := hroom
  rw [hid] at hfull
  rw [runWord_able ha, hb]
  simp only [hfull]
  rw [← hcur] at htrial hending ⊢
  exact u.complete_passes sh k _ _ true hretry (by unfold Thread.inTrial; rw [htrial]) fun r hr => (hending r (htrial ▸ hr)).1

/-- An operation under way changes its thread's registers and what it awaits, and nothing else of the thread. -/
theorem State.awaits_field {α : Type} {s : State} {t : Nat} (solo : Bool) (d : Dst) (p : Option (PReg × Tri))
    (vs : List (Word64 × Kind)) (L : Nat) (h : (s.threads.find t).isSome) (f : Thread → α)
    (hf : ∀ th rs it, f { th with regs := rs, iter := it } = f th) : f ((s.awaits t solo d p vs L).thread t) = f (s.thread t) :=
  (congrArg f ((State.thread_modThread _ t t _ h).trans (if_pos rfl))).trans (hf (s.thread t) _ _)

theorem State.awaits_roomy {s : State} (solo : Bool) (d : Dst) (p : Option (PReg × Tri)) (vs : List (Word64 × Kind)) (L : Nat)
    (h : (s.threads.find s.sched.cur).isSome) (hroom : s.roomy) : (s.awaits s.sched.cur solo d p vs L).roomy := by
  obtain ⟨hretry, hfull⟩ := hroom
  refine ⟨(State.awaits_field solo d p vs L h Thread.retry fun _ _ _ => rfl).trans hretry, ?_⟩
  have hid := State.awaits_field solo d p vs L h Thread.id fun _ _ _ => rfl
  exact (congrArg (fun i : Ident => s.overfull i.work) hid).trans hfull

/-- A word whose body reads and then puts an iterative operation under way passes. -/
theorem runWord_iterates {sh : Shell} {body : Nat → M (Cost × Bool)} {s s1 : State} {k : Cost} {d : Dst}
    {vs : List (Word64 × Kind)} {L : Nat} (ha : s.able sh.ng sh.banned sh.rel sh.recs) (hr : Reads s s1) (hroom : s1.roomy)
    (hb : body s.sched.cur s = .ok (k, false) (s1.awaits s.sched.cur true d none vs L)) :
    Passes (s1.iterates d vs L) (runWord sh body s) sh.ext := by
  have hsome : (s1.threads.find s1.sched.cur).isSome := by rw [hr.cur, hr.isSome]; exact ha.1
  have hb : body s.sched.cur s = .ok (k, false) (s1.iterates d vs L) := by
    unfold State.iterates; rw [hr.cur]; exact hb
  exact runWord_stays ha hr.cur (State.awaits_roomy true d none vs L hsome hroom)
    ((State.awaits_field true d none vs L hsome Thread.id fun _ _ _ => rfl).trans
      (hr.cur ▸ hr.field _ Thread.id fun _ => rfl))
    ((State.awaits_field true d none vs L hsome Thread.trial fun _ _ _ => rfl).trans
      (hr.cur ▸ hr.field _ Thread.trial fun _ => rfl)) hb

/-! ### Words as numbers (R49, R212, R219) -/

theorem sg_toNat {w : Nat} (x : BitVec w) : sg w x.toNat = x.toInt := by
  have hlt := x.isLt
  have hmod : (x.toNat : Int) % 2 ^ w = x.toNat := Int.emod_eq_of_lt (Int.natCast_nonneg _) (by exact_mod_cast hlt)
  unfold sg Num.signedOf
  rw [hmod, Nat.mod_eq_of_lt hlt, BitVec.toInt_eq_toNat_cond]
  cases w with
  | zero => simp [BitVec.eq_nil x]
  | succ n =>
    rw [Nat.add_sub_cancel, Nat.pow_succ]
    split <;> split <;> push_cast <;> omega

theorem wr_eq_toNat_ofInt (w : Nat) (i : Int) : wr w i = (BitVec.ofInt w i).toNat := by
  rw [BitVec.toNat_ofInt]
  unfold wr Num.wrapInt
  push_cast
  rfl

theorem fDiv_toNat (w : Nat) (x y : BitVec w) : fDiv w x.toNat y.toNat = (x.sdiv y).toNat := by
  have hdiv : BitVec.ofInt w (x.toInt.tdiv y.toInt) = x.sdiv y :=
    BitVec.eq_of_toInt_eq (by rw [BitVec.toInt_ofInt, BitVec.toInt_sdiv])
  unfold fDiv
  rw [sg_toNat, sg_toNat, wr_eq_toNat_ofInt, hdiv]

theorem fRem_toNat (w : Nat) (x y : BitVec w) : fRem w x.toNat y.toNat = (x.srem y).toNat := by
  unfold fRem
  rw [sg_toNat, sg_toNat, ← BitVec.toInt_srem, wr_eq_toNat_ofInt, BitVec.ofInt_toInt]

/-! ### Runs of the division, compare and predicate forms -/

/-- A division by zero comes to cause 0x40 (R219). -/
theorem intDiv_zero {s s2 : State} {t : Nat} {un : Bool} {a b : Src} {x y : Val} (f : Nat → Nat → Nat → Nat) (d : Dst)
    (h : readInt2 t false a b s = .ok (x, y) s2) (hy : y.word (intWidth [x, y]) un = 0) :
    intDiv un f d a b t s = .error (.trap 0x40 0) s2 := by
  refine M.bind_of_error ?_
  rw [M.bind_of_ok h]
  dsimp only
  rw [if_pos hy]
  rfl

/-- A division by another divisor is under way, where none is in flight (R215, R219). -/
theorem intDiv_nonzero {s s2 : State} {t : Nat} {un : Bool} {a b : Src} {x y : Val} (f : Nat → Nat → Nat → Nat) (d : Dst)
    (h : readInt2 t false a b s = .ok (x, y) s2) (hy : y.word (intWidth [x, y]) un ≠ 0)
    (hidle : (s2.thread t).iter.any (·.solo) = false) (hretry : (s2.thread t).retry = 0) :
    let w := intWidth [x, y]
    intDiv un f d a b t s = .ok (oneBeat, false) (s2.awaits t true d none
      [(BitVec.ofNat 64 (f w (x.word w un) (y.word w un)), intKind w)] (if w = 64 then 34 else 18)) := by
  refine plain_of_ok ?_
  rw [M.bind_of_ok h]
  dsimp only
  rw [if_neg hy]
  exact iterate_run d _ _ hidle hretry

theorem intCmp_run {s s2 : State} {t : Nat} {a b : Src} {x y : Val} (un : Bool) (f : Nat → Nat → Nat → Bool) (p : PReg)
    (h : readInt2 t false a b s = .ok (x, y) s2) (hretry : (s2.thread t).retry = 0) :
    let w := intWidth [x, y]
    intCmp un f p a b t s = .ok (oneBeat, false) (s2.modThread t fun th => th.modRegs fun r =>
      r.tell p (Tri.ofBool (f w (x.word w un) (y.word w un))) (s2.readyAt t 1)) := by
  refine plain_of_ok ?_
  rw [M.bind_of_ok h]
  exact writePred_run p _ 1 hretry

theorem predBin_run {s s1 s2 : State} {t : Nat} {x y : PReg} {u v : Tri} (f : Tri → Tri → Tri) (p : PReg)
    (hx : readPred t x s = .ok u s1) (hy : readPred t y s1 = .ok v s2) (hretry : (s2.thread t).retry = 0) :
    predBin f p x y t s = .ok (oneBeat, false) (s2.modThread t fun th => th.modRegs fun r => r.tell p (f u v) (s2.readyAt t 1)) := by
  have hr : Reads s s1 := readPred_gives _ _ _ _ _ hx
  have hrules : predRules t [x, y] s = .ok () s := predRules_of_clear fun q hq => by
    rcases List.mem_pair.mp hq with rfl | rfl
    · exact clearPred_of_readPred hx
    · exact (hr.clearPred_iff t q).mp (clearPred_of_readPred hy)
  refine plain_of_ok ?_
  rw [M.bind_of_ok hrules, M.bind_of_ok hx, M.bind_of_ok hy]
  exact writePred_run p _ 1 hretry

theorem predNot_run {s s1 : State} {t : Nat} {x : PReg} {u : Tri} (p : PReg) (hx : readPred t x s = .ok u s1)
    (hretry : (s1.thread t).retry = 0) :
    predNot p x t s = .ok (oneBeat, false) (s1.modThread t fun th => th.modRegs fun r => r.tell p u.not (s1.readyAt t 1)) := by
  refine plain_of_ok ?_
  rw [M.bind_of_ok hx]
  exact writePred_run p _ 1 hretry

theorem Regs.tell_eq (r : Regs) (p q : PReg) (v : Tri) (n : Nat) : (r.tell p v n).p[q.val] =
    if q = p ∧ p.val ≠ 0 then ⟨v, n, none, (r.p[p.val]).held, v.parity⟩ else r.p[q.val] := by
  unfold Regs.tell Regs.setP
  simp only [Vector.getElem_ofFn, Fin.ext_iff]
  rfl

end Sys2Proof.Machine

namespace Sys2Proof.Claims
open Sys2Proof.Machine

theorem widthOf_cases (vs : List Val) : widthOf vs = 32 ∨ widthOf vs = 64 := by
  unfold widthOf; split <;> simp

/-- The model's number for a source is that of the source's bits (R212). -/
theorem word_eq_srcBits {w : Nat} (hw : w = 32 ∨ w = 64) (un : Bool) (x : Val) : x.word w un = (srcBits w un x).toNat := by
  unfold Val.word srcBits Val.word.wrapInt64
  rcases hw with rfl | rfl
  · cases x.is64 <;> cases un <;> simp
  · cases x.is64 with
    | true => simp [Nat.mod_eq_of_lt x.val.isLt]
    | false =>
      cases un with
      | true => simp; omega
      | false => simp

/-- Each division row is the model's division form, with a function that answers the row's result (R219). -/
theorem divRows_exec {m} (hm : m ∈ divRows) : ∃ f : Nat → Nat → Nat → Nat,
    (∀ c d a b s, exec (m.1 c d a b) s = .next (runWord (shR c [a, b]) (intDiv m.2.1 f d a b) s)) ∧
    ∀ w x y, f w x.toNat y.toNat = (m.2.2 w x y).toNat := by
  simp only [divRows, List.mem_cons, List.not_mem_nil, or_false] at hm
  rcases hm with rfl | rfl | rfl | rfl
  · exact ⟨fDiv, fun _ _ _ _ _ => rfl, fDiv_toNat⟩
  · exact ⟨fDivUn, fun _ _ _ _ _ => rfl, fun _ _ _ => BitVec.toNat_udiv.symm⟩
  · exact ⟨fRem, fun _ _ _ _ _ => rfl, fRem_toNat⟩
  · exact ⟨fRemUn, fun _ _ _ _ _ => rfl, fun _ _ _ => BitVec.toNat_umod.symm⟩

/-- Each compare row is the model's compare form, with a test that answers as the row's (R223). -/
theorem icmpRows_exec {m} (hm : m ∈ icmpRows) : ∃ f : Nat → Nat → Nat → Bool,
    (∀ c p a b s, exec (m.1 c p a b) s = .next (runWord (shR c [a, b]) (intCmp m.2.1 f p a b) s)) ∧
    ∀ w x y, f w x.toNat y.toNat = m.2.2 w x y := by
  simp only [icmpRows, List.mem_cons, List.not_mem_nil, or_false] at hm
  rcases hm with rfl | rfl | rfl | rfl | rfl | rfl
  · exact ⟨_, fun _ _ _ _ _ => rfl, fun _ x y => by simp [BitVec.toNat_eq, beq_eq_decide]⟩
  · exact ⟨_, fun _ _ _ _ _ => rfl, fun _ x y => by simp [BitVec.toNat_eq, bne, beq_eq_decide]⟩
  · exact ⟨_, fun _ _ _ _ _ => rfl, fun _ x y => by simp only [sg_toNat, BitVec.slt_eq_decide]⟩
  · exact ⟨_, fun _ _ _ _ _ => rfl, fun _ x y => by simp only [sg_toNat, BitVec.sle_eq_decide]⟩
  · exact ⟨_, fun _ _ _ _ _ => rfl, fun _ x y => BitVec.ult_eq_decide.symm⟩
  · exact ⟨_, fun _ _ _ _ _ => rfl, fun _ x y => BitVec.ule_eq_decide.symm⟩

/-- Each row of R225's table is the model's predicate form. -/
theorem predRows_exec {m} (hm : m ∈ predRows) : ∃ f : Tri → Tri → Tri,
    (∀ c p x y s, exec (m.1 c p x y) s = .next (runWord (shR c []) (predBin f p x y) s)) ∧ ∀ u v, f u v = m.2 u v := by
  simp only [predRows, List.mem_cons, List.not_mem_nil, or_false] at hm
  rcases hm with rfl | rfl | rfl
  · exact ⟨Tri.and, fun _ _ _ _ _ => rfl, fun u v => by cases u <;> cases v <;> rfl⟩
  · exact ⟨Tri.or, fun _ _ _ _ _ => rfl, fun u v => by cases u <;> cases v <;> rfl⟩
  · exact ⟨Tri.xor, fun _ _ _ _ _ => rfl, fun u v => by cases u <;> cases v <;> rfl⟩

/-- Division by zero takes cause 0x40 (R219). -/
theorem divRows_zero {m} (hm : m ∈ divRows) {s s1 s2 : State} {c : RCtl} {d : Dst} {a b : Src} {x y : Val}
    (ha : s.able c.ng false false []) (hx : readInt s.sched.cur false a s = .ok x s1)
    (hy : readInt s.sched.cur false b s1 = .ok y s2) (hzero : srcBits (widthOf [x, y]) m.2.1 y = 0) :
    exec (m.1 c d a b) s = .next (s.takes s2 0x40) := by
  obtain ⟨f, hexec, -⟩ := divRows_exec hm
  have hdivisor : y.word (widthOf [x, y]) m.2.1 = 0 := by
    rw [word_eq_srcBits (widthOf_cases _), hzero]; exact BitVec.toNat_zero
  rw [hexec, runWord_takes ha (intDiv_zero f d (readInt2_of_readInt hx hy) hdivisor)]

/-- Division by another divisor is under way (R215, R219). -/
theorem divRows_pass {m} (hm : m ∈ divRows) {s s1 s2 : State} {c : RCtl} {d : Dst} {a b : Src} {x y : Val}
    (ha : s.able c.ng false false []) (hx : readInt s.sched.cur false a s = .ok x s1)
    (hy : readInt s.sched.cur false b s1 = .ok y s2) (hroom : s2.roomy) (hidle : s.idle)
    (hnonzero : srcBits (widthOf [x, y]) m.2.1 y ≠ 0) :
    let w := widthOf [x, y]
    ∃ s', exec (m.1 c d a b) s = .next s' ∧
      Passes (s2.iterates d [((m.2.2 w (srcBits w m.2.1 x) (srcBits w m.2.1 y)).setWidth 64, if w = 64 then .i64 else .i32)]
        (if w = 64 then 34 else 18)) s' (litWords [a, b]) := by
  intro w
  obtain ⟨f, hexec, hf⟩ := divRows_exec hm
  have hread := readInt2_of_readInt hx hy
  have hr : Reads s s2 := readInt2_gives _ _ _ _ _ _ _ hread
  have hword : ∀ v : Val, v.word w m.2.1 = (srcBits w m.2.1 v).toNat := word_eq_srcBits (widthOf_cases _) _
  have hdivisor : y.word w m.2.1 ≠ 0 := fun h => hnonzero (BitVec.eq_of_toNat_eq (by rw [← hword, h]; rfl))
  have hfree : (s2.thread s.sched.cur).iter.any (·.solo) = false :=
    (hr.field _ (fun th => th.iter.any (·.solo)) fun _ => rfl).trans hidle
  have hrun := intDiv_nonzero f d hread hdivisor hfree (hr.retry hroom)
  have hval : BitVec.ofNat 64 (f w (x.word w m.2.1) (y.word w m.2.1)) =
      (m.2.2 w (srcBits w m.2.1 x) (srcBits w m.2.1 y)).setWidth 64 := by
    rw [hword, hword, hf, BitVec.ofNat_toNat]
  rw [← hval]
  exact ⟨_, hexec c d a b s, runWord_iterates ha hr hroom hrun⟩

/-- The integer compares of R223. -/
theorem icmpRows_pass {m} (hm : m ∈ icmpRows) {s s1 s2 : State} {c : RCtl} {p : PReg} {a b : Src} {x y : Val}
    (ha : s.able c.ng false false []) (hx : readInt s.sched.cur false a s = .ok x s1)
    (hy : readInt s.sched.cur false b s1 = .ok y s2) (hroom : s2.roomy) :
    ∃ s', exec (m.1 c p a b) s = .next s' ∧
      Passes (s2.modRegs fun r => r.tell p
        (if m.2.2 (widthOf [x, y]) (srcBits _ m.2.1 x) (srcBits _ m.2.1 y) then .T else .F) (s2.after 1)) s' (litWords [a, b]) := by
  obtain ⟨f, hexec, hf⟩ := icmpRows_exec hm
  have hread := readInt2_of_readInt hx hy
  have hr : Reads s s2 := readInt2_gives _ _ _ _ _ _ _ hread
  have hrun := intCmp_run m.2.1 f p hread (hr.retry hroom)
  refine ⟨_, hexec c p a b s, runWord_tells ha hr hroom (k := oneBeat) ?_⟩
  rw [← hf, ← word_eq_srcBits (widthOf_cases _), ← word_eq_srcBits (widthOf_cases _)]
  exact hrun

/-- The two-source predicate words of R225. -/
theorem predRows_pass {m} (hm : m ∈ predRows) {s s1 s2 : State} {c : RCtl} {p x y : PReg} {u v : Tri}
    (ha : s.able c.ng false false []) (hx : readPred s.sched.cur x s = .ok u s1)
    (hy : readPred s.sched.cur y s1 = .ok v s2) (hroom : s2.roomy) :
    ∃ s', exec (m.1 c p x y) s = .next s' ∧ Passes (s2.modRegs fun r => r.tell p (m.2 u v) (s2.after 1)) s' 0 := by
  obtain ⟨f, hexec, hf⟩ := predRows_exec hm
  have hr : Reads s s2 := (readPred_gives _ _ _ _ _ hx).trans (readPred_gives _ _ _ _ _ hy)
  have hrun := predBin_run f p hx hy (hr.retry hroom)
  rw [hf] at hrun
  exact ⟨_, hexec c p x y s, runWord_tells (sh := shR c []) ha hr hroom hrun⟩

/-- pnot (R225). -/
theorem pnot_pass {s s1 : State} {c : RCtl} {p x : PReg} {u v : Tri} (ha : s.able c.ng false false [])
    (hx : readPred s.sched.cur x s = .ok u s1) (hroom : s1.roomy) (hnot : u.not = v) :
    ∃ s', exec (.pnot c p x) s = .next s' ∧ Passes (s1.modRegs fun r => r.tell p v (s1.after 1)) s' 0 := by
  have hr : Reads s s1 := readPred_gives _ _ _ _ _ hx
  have hexec : exec (.pnot c p x) s = .next (runWord (shR c []) (predNot p x) s) := rfl
  have hrun := predNot_run p hx (hr.retry hroom)
  rw [hnot] at hrun
  exact ⟨_, hexec, runWord_tells (sh := shR c []) ha hr hroom hrun⟩

/-- Settles O14. The rows of the claim are the model's division, compare and predicate forms with the same results (`divRows_exec`,
`icmpRows_exec`, `predRows_exec`); a form that has read its sources comes to 0x40, starts an iterative operation, or writes its
predicate, and the shell then takes the cause or passes the word. -/
theorem divisionAndPredicates : Obligations.DivisionAndPredicates := by
  refine ⟨?divide, ?compare, ?table, ?negate, ?written⟩
  case divide =>
    intro m hm s s1 s2 c d a b x y ha hx hy hroom w
    exact ⟨divRows_zero hm ha hx hy, fun hnonzero hidle => divRows_pass hm ha hx hy hroom hidle hnonzero⟩
  case compare =>
    intro m hm s s1 s2 c p a b x y ha hx hy hroom
    exact icmpRows_pass hm ha hx hy hroom
  case table =>
    intro m hm s s1 s2 c p x y u v ha hx hy hroom
    exact predRows_pass hm ha hx hy hroom
  case negate =>
    intro s s1 c p x u ha hx hroom
    exact pnot_pass ha hx hroom (by cases u <;> rfl)
  case written =>
    intro r p q v n
    exact ⟨rfl, rfl, Regs.tell_eq r p q v n⟩

end Sys2Proof.Claims
end

section
/-! PROOFS. The family of faults: words that end a thread or make it wait (R363, R373, R374), and what ending a thread leaves as it is. -/

namespace Sys2Proof.Machine

/-- No candidate runs in a thread whose word a candidate may not use. -/
theorem State.able.not_inTrial {s : State} {ng rel : Bool} {recs : List Rec} (h : s.able ng true rel recs) :
    (s.thread s.sched.cur).inTrial = false := by
  obtain ⟨-, -, -, htrial⟩ := h
  unfold Thread.inTrial
  cases hr : (s.thread s.sched.cur).trial with
  | none => rfl
  | some r =>
    cases hsusp : r.susp with
    | true => exact congrArg not hsusp
    | false => exact absurd ((htrial r hr).2 hsusp).1 Bool.noConfusion

theorem readBits_run {s s1 : State} {t : Nat} {a : Src} {v : Val} (h : readSrc t .single false a s = .ok v s1) :
    readBits t a s = .ok v.val s1 := M.bind_of_ok h

/-- A word whose body waits holds. -/
theorem runWord_holds {sh : Shell} {body : Nat → M (Cost × Bool)} {s s1 : State} {k : Hold}
    (ha : s.able sh.ng sh.banned sh.rel sh.recs) (hroom : s1.overfull (s.thread s.sched.cur).id.work = false)
    (hb : body s.sched.cur s = .error (.hold k) s1) : runWord sh body s = s.holdWord s1 s.sched.cur k := by
  have hb : (body s.sched.cur).run s = .error (.hold k) s1 := hb
  rw [runWord_able ha, hb]
  simp only [hroom]
  rfl

theorem waitStores_run {s : State} {t : Nat} (h : (s.thread t).cnt.st = 0) : waitStores t s = .ok () s := by
  unfold waitStores
  rw [M.bind_of_ok (M.getT_run s t), if_neg (not_not_intro h)]
  rfl

theorem waitStores_waits {s : State} {t : Nat} (h : (s.thread t).cnt.st ≠ 0) :
    waitStores t s = .error (.hold ⟨0xE, .counts false true⟩) s := by
  unfold waitStores
  rw [M.bind_of_ok (M.getT_run s t), if_pos h]
  rfl

theorem execTrap_takes {s s1 : State} {st : Stall} {a : Src} {n : Fin 16} {v : Val} (ha : s.able false true false [])
    (h : readSrc s.sched.cur .single false a s = .ok v s1) :
    exec (.trap st a n) s = .next (s.takes s1 (BitVec.ofNat 8 (0x10 + n.val)) v.val) :=
  congrArg Host.Outcome.next (runWord_takes (sh := (shT st [a]).ban) ha (M.bind_of_ok (readBits_run h)))

theorem execHalt_takes {s s1 : State} {c : RCtl} {a : Src} {v : Val} (ha : s.able c.ng true false [])
    (hstores : (s.thread s.sched.cur).cnt.st = 0) (h : readSrc s.sched.cur .single false a s = .ok v s1) :
    exec (.halt c a) s = .next (s.takes s1 0xA2 v.val) := by
  refine congrArg Host.Outcome.next (runWord_takes (sh := (shR c [a]).ban) ha ?_)
  exact (M.bind_of_ok (waitStores_run hstores)).trans (M.bind_of_ok (readBits_run h))

theorem execHalt_holds {s : State} {c : RCtl} {a : Src} (ha : s.able c.ng true false [])
    (hstores : (s.thread s.sched.cur).cnt.st ≠ 0) (hroom : s.overfull (s.thread s.sched.cur).id.work = false) :
    exec (.halt c a) s = .next (s.holdWord s s.sched.cur ⟨0xE, .counts false true⟩) :=
  congrArg Host.Outcome.next (runWord_holds (sh := (shR c [a]).ban) ha hroom (M.bind_of_error (waitStores_waits hstores)))

theorem writeVals_run {s : State} {t : Nat} (d : Dst) (vs : List (Word64 × Kind)) (L : Nat) (h : (s.thread t).retry = 0) :
    writeVals t d vs L s = .ok () (s.modThread t fun th => th.modRegs fun r =>
      r.put d (vs.map fun v => Entry.mk' v.1 v.2 (s.readyAt t L))) := by
  unfold writeVals
  rw [M.get_bind, if_pos h]
  rfl

theorem execTime_passes {s s1 : State} {c : RCtl} {d : Dst} {cyc : Bool} {y : Word64} (ha : s.able c.ng true false [])
    (h : logged s.sched.cur (if cyc then s.cycNow s.sched.cur else BitVec.ofNat 64 (s.merNow s.sched.cur)) s = .ok y s1)
    (hroom : s1.roomy) :
    ∃ s', exec (.time c d cyc) s = .next s' ∧ Passes (s1.gives d [Entry.mk' y .i64 (s1.after 2)]) s' 0 := by
  refine ⟨_, rfl, ?_⟩
  have hr : Reads s s1 := logged_gives _ _ _ _ _ h
  unfold State.gives State.modRegs State.after
  rw [hr.cur]
  refine runWord_passes (sh := (shR c []).ban) (body := timeBody d cyc) (k := oneBeat) ha hr hroom (Tame.modRegs _) (plain_of_ok ?_)
  exact (M.bind_of_ok h).trans (writeVals_run d _ 2 (hr.retry hroom))

/-! ### What ending a thread leaves as it is (R104, R356) -/

/-- What every step of a fold keeps, the fold keeps. -/
theorem foldl_keeps {α β γ : Type} (g : β → γ) {f : β → α → β} (hf : ∀ b a, g (f b a) = g b) (xs : List α) (b : β) :
    g (xs.foldl f b) = g b := by
  induction xs generalizing b with
  | nil => rfl
  | cons x xs ih => exact (ih _).trans (hf b x)

/-- A part of the machine that lies in no version store survives the freeing of version slots. -/
theorem State.freeSlots_keeps {γ : Type} (g : State → γ)
    (hg : ∀ s d (f : Die → Die), (∀ x, (f x).mer = x.mer) → g (State.modDie s d f) = g s) (s : State) (d : Nat)
    (ks : List Nat) : g (s.freeSlots d ks) = g s := by
  unfold State.freeSlots
  split
  · rfl
  · exact hg _ _ _ fun _ => rfl

/-- A part of the machine that lies in neither version stores nor chains survives the discarding of an owner's pending versions. -/
theorem State.discard_keeps {γ : Type} (g : State → γ)
    (hd : ∀ s d (f : Die → Die), (∀ x, (f x).mer = x.mer) → g (State.modDie s d f) = g s)
    (hh : ∀ s o x, g (State.modHomes s fun h => h.dropOwner o x) = g s) (s : State) (o : Owner) (x : Option Nat) :
    g (s.discard o x) = g s :=
  (hh _ _ _).trans (foldl_keeps g (fun _ _ => State.freeSlots_keeps g hd _ _ _) _ _)

@[simp] theorem State.discard_threads (s : State) (o : Owner) (x : Option Nat) : (s.discard o x).threads = s.threads :=
  State.discard_keeps State.threads (fun _ _ _ _ => rfl) (fun _ _ _ => rfl) s o x
@[simp] theorem State.discard_works (s : State) (o : Owner) (x : Option Nat) : (s.discard o x).works = s.works :=
  State.discard_keeps State.works (fun _ _ _ _ => rfl) (fun _ _ _ => rfl) s o x
@[simp] theorem State.discard_groups (s : State) (o : Owner) (x : Option Nat) : (s.discard o x).groups = s.groups :=
  State.discard_keeps State.groups (fun _ _ _ _ => rfl) (fun _ _ _ => rfl) s o x
@[simp] theorem State.discard_ops (s : State) (o : Owner) (x : Option Nat) : (s.discard o x).ops = s.ops :=
  State.discard_keeps State.ops (fun _ _ _ _ => rfl) (fun _ _ _ => rfl) s o x
@[simp] theorem State.discard_ctxs (s : State) (o : Owner) (x : Option Nat) : (s.discard o x).ctxs = s.ctxs :=
  State.discard_keeps State.ctxs (fun _ _ _ _ => rfl) (fun _ _ _ => rfl) s o x
@[simp] theorem State.discard_mem (s : State) (o : Owner) (x : Option Nat) : (s.discard o x).homes.mem = s.homes.mem :=
  State.discard_keeps (·.homes.mem) (fun _ _ _ _ => rfl) (fun _ _ _ => rfl) s o x

/-- A die's clock does not change with another field of it. -/
theorem State.mer_modDie (s : State) (d u : Nat) (f : Die → Die) (hf : ∀ x, (f x).mer = x.mer) :
    ((s.modDie d f).die u).mer = (s.die u).mer := by
  by_cases hd : d < 4
  · rw [State.die_modDie s d u f hd]
    split
    · subst_vars; exact hf _
    · rfl
  · have hdies : (s.modDie d f).dies = s.dies := by
      apply Vector.ext
      intro i hi
      exact (Vector.getElem_ofFn hi).trans (if_neg (by simp only; omega))
    unfold State.die
    rw [hdies]

@[simp] theorem State.discard_mer (s : State) (o : Owner) (x : Option Nat) (u : Nat) :
    ((s.discard o x).die u).mer = (s.die u).mer :=
  State.discard_keeps (fun s : State => (s.die u).mer) (fun s d f hf => s.mer_modDie d u f hf) (fun _ _ _ => rfl) s o x

@[simp] theorem State.dropTxLines_threads (s : State) (t : Nat) : (s.dropTxLines t).threads = s.threads := rfl
@[simp] theorem State.dropTxLines_works (s : State) (t : Nat) : (s.dropTxLines t).works = s.works := rfl
@[simp] theorem State.dropTxLines_groups (s : State) (t : Nat) : (s.dropTxLines t).groups = s.groups := rfl
@[simp] theorem State.dropTxLines_ctxs (s : State) (t : Nat) : (s.dropTxLines t).ctxs = s.ctxs := rfl
@[simp] theorem State.dropTxLines_homes (s : State) (t : Nat) : (s.dropTxLines t).homes = s.homes := rfl
@[simp] theorem State.dropTxLines_ops (s : State) (t : Nat) : (s.dropTxLines t).ops = s.ops.mapVals (MemOp.orphan t) := rfl
@[simp] theorem State.dropTxLines_die (s : State) (t u : Nat) : (s.dropTxLines t).die u = s.die u := rfl
@[simp] theorem State.leaveBins_ctxs (s : State) (t : Nat) : (s.leaveBins t).ctxs = s.ctxs := rfl
@[simp] theorem State.leaveBins_homes (s : State) (t : Nat) : (s.leaveBins t).homes = s.homes := rfl
@[simp] theorem State.leaveBins_ops (s : State) (t : Nat) : (s.leaveBins t).ops = s.ops := rfl

/-- A doomed transaction leaves its thread's identity and place, and the team and the group of every thread. -/
theorem State.doom_cases (s : State) (t reason : Nat) : s.doom t reason = s ∨
    ∃ v : View, s.doom t reason =
      ((s.modThread t fun th => { th with view := some { v with doom := reason } }).discard (.tx t) (some t)).dropTxLines t := by
  unfold State.doom
  split
  · split
    · exact .inr ⟨_, rfl⟩
    · exact .inl rfl
  · exact .inl rfl

theorem State.doom_thread (s : State) (t reason : Nat) :
    ((s.doom t reason).thread t).id = (s.thread t).id ∧ ((s.doom t reason).thread t).pos = (s.thread t).pos := by
  obtain h | ⟨v, h⟩ := s.doom_cases t reason
  · rw [h]; exact ⟨rfl, rfl⟩
  · have hthreads : (s.doom t reason).threads = (s.modThread t fun th => { th with view := some { v with doom := reason } }).threads := by
      rw [h, State.dropTxLines_threads, State.discard_threads]
    unfold State.thread Tbl.getD
    rw [hthreads, State.find_modThread, if_pos rfl]
    cases s.threads.find t <;> exact ⟨rfl, rfl⟩

theorem State.doom_keeps {γ : Type} (g : State → γ) (ht : ∀ s t f, g (State.modThread s t f) = g s)
    (hd : ∀ s o x, g (State.discard s o x) = g s) (hl : ∀ s t, g (State.dropTxLines s t) = g s) (s : State) (t reason : Nat) :
    g (s.doom t reason) = g s := by
  obtain h | ⟨v, h⟩ := s.doom_cases t reason
  · rw [h]
  · rw [h, hl, hd, ht]

@[simp] theorem State.doom_works (s : State) (t reason : Nat) : (s.doom t reason).works = s.works :=
  State.doom_keeps State.works (fun _ _ _ => rfl) State.discard_works State.dropTxLines_works s t reason
@[simp] theorem State.doom_groups (s : State) (t reason : Nat) : (s.doom t reason).groups = s.groups :=
  State.doom_keeps State.groups (fun _ _ _ => rfl) State.discard_groups State.dropTxLines_groups s t reason
@[simp] theorem State.doom_mer (s : State) (t reason u : Nat) : ((s.doom t reason).die u).mer = (s.die u).mer :=
  State.doom_keeps (fun s : State => (s.die u).mer) (fun _ _ _ => rfl) (fun s o x => s.discard_mer o x u)
    (fun s t => congrArg Die.mer (s.dropTxLines_die t u)) s t reason

theorem State.doom_ctxOf (s : State) (t reason : Nat) : (s.doom t reason).ctxOf t = s.ctxOf t := by
  unfold State.ctxOf State.workOf State.work
  rw [(s.doom_thread t reason).1, State.doom_works]

theorem State.doom_threadRec (s : State) (t reason kind : Nat) (c : Cause) (v : Word64) :
    (s.doom t reason).threadRec t kind c v = s.threadRec t kind c v := by
  obtain ⟨hid, hpos⟩ := s.doom_thread t reason
  unfold State.threadRec State.identRec State.work State.group
  simp only [hid, hpos, State.doom_works, State.doom_groups, State.doom_mer]

theorem Still.leaveBundle (s : State) (t : Nat) : Still s (s.leaveBundle t) := by
  unfold State.leaveBundle
  dsimp only
  refine Still.trans ?_ (Still.modThread _ _ _ fun _ => rfl)
  split
  · split
    · exact (Still.modBundle _ _ _).trans (Still.bundles _ _)
    · exact Still.modBundle _ _ _
  · exact Still.modBundle _ _ _

/-- The end of a thread, but for its bundle and what its transaction had pending. -/
theorem State.endThread_still (s : State) (t : Nat) : ∃ u : State, (u = s ∨ u = (s.discard (.tx t) (some t)).dropTxLines t) ∧
    ∃ b f, Still { (((u.modGroup (s.thread t).id.group f).leaveBins t).leaveBundle t) with
      threads := (((u.modGroup (s.thread t).id.group f).leaveBins t).leaveBundle t).threads.drop t } b ∧ b = s.endThread t := by
  unfold State.endThread
  dsimp only
  split
  · split
    · exact ⟨_, .inr rfl, _, _, Still.sync _ _, rfl⟩
    · exact ⟨_, .inl rfl, _, _, Still.sync _ _, rfl⟩
  · exact ⟨_, .inl rfl, _, _, Still.sync _ _, rfl⟩

theorem State.endThread_find_self (s : State) (t : Nat) : (s.endThread t).threads.find t = none := by
  obtain ⟨u, -, b, f, h, rfl⟩ := s.endThread_still t
  have := h.threads t
  rw [Tbl.find_drop, if_pos rfl] at this
  exact Option.map_eq_none_iff.mp this

theorem State.endThread_ctxs (s : State) (t : Nat) : (s.endThread t).ctxs = s.ctxs := by
  obtain ⟨u, hu, b, f, h, rfl⟩ := s.endThread_still t
  have hctxs : u.ctxs = s.ctxs := by rcases hu with rfl | rfl <;> simp
  rw [h.ctxs, (Still.leaveBundle _ t).ctxs, State.leaveBins_ctxs, State.modGroup_ctxs, hctxs]

theorem State.endThread_mem (s : State) (t : Nat) : (s.endThread t).homes.mem = s.homes.mem := by
  obtain ⟨u, hu, b, f, h, rfl⟩ := s.endThread_still t
  have hmem : u.homes.mem = s.homes.mem := by rcases hu with rfl | rfl <;> simp
  rw [h.homes, (Still.leaveBundle _ t).homes, State.leaveBins_homes, State.modGroup_homes, hmem]

/-- An operation in flight that does not belong to a transaction stays in flight. -/
theorem State.endThread_find_op {s : State} {i : Nat} {o : MemOp} (t : Nat) (hfind : s.ops.find i = some o) (hview : o.view = .latest) :
    (s.endThread t).ops.find i = some o := by
  obtain ⟨u, hu, b, f, h, rfl⟩ := s.endThread_still t
  rw [h.ops, (Still.leaveBundle _ t).ops, State.leaveBins_ops, State.modGroup_ops]
  rcases hu with rfl | rfl
  · exact hfind
  · have horphan : o.orphan t = o := by unfold MemOp.orphan; rw [hview]
    rw [State.dropTxLines_ops, Tbl.find_mapVals, State.discard_ops, hfind]
    exact congrArg some horphan

/-! ### Posting the record of a thread that stops (R363) -/

theorem leBytes_length (n v : Nat) : (leBytes n v).length = n := by
  induction n generalizing v with
  | zero => rfl
  | succ n ih => exact congrArg (· + 1) (ih _)

/-- A fault quay with one record more, or one record more lost. -/
def FaultQuay.posted (f : FaultQuay) : FaultQuay :=
  if f.head < f.slots then { f with head := f.head + 1 } else { f with lost := f.lost + 1 }

/-- A context with a fault quay has it count the record, which is written where the ring has room. -/
theorem State.postQ_eq {s : State} {ctx : Nat} {f : FaultQuay} (hf : (s.ctx ctx).fq = some f) (r : FaultRec) :
    let u := s.modCtx ctx fun c => { c with fq := some f.posted }
    s.postQ ctx r = if f.head < f.slots then u.devWrite ctx (f.base + 64 * f.head) (leBytes 64 r.bits.toNat) else u := by
  unfold State.postQ State.modCtx FaultQuay.posted
  simp only [hf]
  split <;> rfl

theorem State.unhindered_modCtx (s : State) (ctx pa n : Nat) (g : Context → Context) :
    (s.modCtx ctx g).unhindered pa n = s.unhindered pa n := rfl

/-- The record of a thread that stops is posted. -/
theorem State.stopThread_posts (s : State) (t : Nat) (c : Cause) (v : Word64) :
    Claims.posted s (s.stopThread t c v) (s.ctxOf t) (s.threadRec t 1 c (recordVal c v)) := by
  intro f hf
  unfold State.stopThread
  generalize s.threadRec t 1 c (recordVal c v) = r
  generalize s.ctxOf t = ctx at *
  dsimp only
  have hquay : (((s.postQ ctx r).endThread t).ctx ctx).fq = some f.posted := by
    unfold State.ctx
    rw [State.endThread_ctxs, State.postQ_eq hf r]
    split
    · rw [State.devWrite_ctxs]
      exact congrArg Context.fq ((s.ctx_modCtx ctx ctx _).trans (if_pos rfl))
    · exact congrArg Context.fq ((s.ctx_modCtx ctx ctx _).trans (if_pos rfl))
  refine ⟨hquay, ?_, fun hroom hbusy => ?_⟩
  · rw [State.endThread_mem, State.postQ_eq hf r]
    by_cases hroom : f.head < f.slots
    · rw [if_pos hroom]
      cases hfree : s.unhindered (f.base + 64 * f.head) 64 with
      | true =>
        rw [State.devWrite_now (by rw [leBytes_length]; exact hfree), if_pos ⟨hroom, rfl⟩]
        rfl
      | false =>
        rw [(State.devWrite_later (by rw [leBytes_length]; exact hfree)).1, if_neg fun h => Bool.noConfusion h.2]
        rfl
    · rw [if_neg hroom, if_neg fun h => hroom h.1]
      rfl
  · rw [State.postQ_eq hf r]
    rw [if_pos hroom]
    unfold State.devWrite
    rw [leBytes_length, State.unhindered_modCtx, hbusy]
    exact ⟨_, State.endThread_find_op t (Tbl.find_put_self _ _ _) rfl, rfl, rfl, rfl, rfl, rfl⟩

/-- A thread that halts outside a trial is gone, its record posted. -/
theorem State.deliver_halt (s : State) (t : Nat) (v : Word64) (hplain : (s.thread t).inTrial = false) :
    (s.deliver t 0xA2 v).threads.find t = none ∧ Claims.recorded s (s.deliver t 0xA2 v) t 0xA2 v := by
  have hdeliver : s.deliver t 0xA2 v = (s.doom t 6).stopThread t 0xA2 v := by
    unfold State.deliver
    dsimp only
    rw [hplain]
    rfl
  rw [hdeliver]
  refine ⟨State.endThread_find_self _ _, ?_⟩
  have := (s.doom t 6).stopThread_posts t 0xA2 v
  rw [State.doom_ctxOf, State.doom_threadRec] at this
  exact this

end Sys2Proof.Machine

end

section
/-! PROOFS. The family of faults: rft, which goes back to what sr.trap.epc names (R361, R362, R373), and setsr (R210). -/

namespace Sys2Proof.Machine

/-! ### A thread that is changed twice, and a word that moves its thread -/

theorem Tbl.put_put {α : Type} (t : Tbl α) (i : Nat) (a b : α) : Tbl.put (Tbl.put t i a) i b = Tbl.put t i b := by
  induction t with
  | nil => simp [Tbl.put]
  | cons kv t ih =>
    obtain ⟨k, v⟩ := kv
    simp only [Tbl.put]
    split
    · simp [Tbl.put]
    · split
      · simp [Tbl.put]
      · simp [Tbl.put, *]

theorem Tbl.upd_upd {α : Type} (t : Tbl α) (i : Nat) (f g : α → α) :
    Tbl.upd (Tbl.upd t i f) i g = Tbl.upd t i fun a => g (f a) := by
  unfold Tbl.upd
  cases h : Tbl.find t i with
  | none => simp [h]
  | some a => simp only [Tbl.find_put_self, Tbl.put_put]

theorem State.modThread_modThread (s : State) (t : Nat) (f g : Thread → Thread) :
    (s.modThread t f).modThread t g = s.modThread t fun th => g (f th) := by
  unfold State.modThread
  exact congrArg (fun ths => { s with threads := ths }) (Tbl.upd_upd s.threads t f g)

/-- A word that has moved its thread, in which no candidate ran, leaves it there. -/
theorem State.complete_moved_still (s : State) (t : Nat) (sh : Shell) (k : Cost) (p : Pos) (useful : Bool)
    (hn : (s.thread t).retry = 0) (he : ∀ r, (s.thread t).trial = some r → r.ending = none) :
    Still (s.modThread t Thread.settle) (s.complete t sh k p false useful true) := by
  unfold State.complete State.mismatches
  dsimp only
  rw [if_pos hn]
  refine Still.trans ?_ (Still.sync _ _)
  refine Still.trans (Still.modThread_shown (g := fun th => th.finish sh.ext false true) fun th hs => ?_)
    (Still.congr ((Still.charge s t p _ sh.idle false useful).trans (Still.retire _ t p)) t _
      fun a b h => Thread.finish_shown h _ _ _)
  rw [State.thread_of_find hs] at he
  have hend : (th.trial.any fun r => r.ending.isSome) = false := by
    cases ht : th.trial with
    | none => rfl
    | some r => simp [he r ht]
  unfold Thread.finish
  simp only [Bool.false_and, Bool.false_eq_true, if_false, if_true, hend]
  rfl

/-- A word that a candidate may not use, and that moves its thread, leaves it where it puts it. -/
theorem runWord_moves {sh : Shell} {body : Nat → M (Cost × Bool)} {s u : State} {k : Cost} {f : Thread → Thread}
    (hbanned : sh.banned = true) (ha : s.able sh.ng sh.banned sh.rel sh.recs) (hcur : u.sched.cur = s.sched.cur) (hroom : u.roomy)
    (hsome : (u.threads.find s.sched.cur).isSome)
    (hid : (u.thread s.sched.cur).id = (s.thread s.sched.cur).id)
    (htrial : (u.thread s.sched.cur).trial = (s.thread s.sched.cur).trial)
    (hretry : ∀ th, (f th).retry = th.retry)
    (hfend : ∀ th, (∀ r, th.trial = some r → r.ending = none) → ∀ r, (f th).trial = some r → r.ending = none)
    (hb : body s.sched.cur s = .ok (k, true) (u.modThread s.sched.cur f)) :
    Still (u.modThread s.sched.cur fun th => (f th).settle) (runWord sh body s) := by
  have hb : (body s.sched.cur).run s = .ok (k, true) (u.modThread s.sched.cur f) := hb
  have hquiet : (s.thread s.sched.cur).inTrial = false := State.able.not_inTrial (hbanned ▸ ha)
  have ⟨_, _, _, hending⟩ := ha
  obtain ⟨hr, hfull⟩ := hroom
  rw [hcur] at hr hfull
  have hfull : (u.modThread s.sched.cur f).overfull (s.thread s.sched.cur).id.work = false := hid ▸ hfull
  rw [runWord_able ha, hb]
  simp only [hfull, hquiet, Bool.false_eq_true, if_false]
  rw [← State.modThread_modThread]
  have hth : (u.modThread s.sched.cur f).thread s.sched.cur = f (u.thread s.sched.cur) :=
    (State.thread_modThread _ _ _ _ hsome).trans (if_pos rfl)
  refine State.complete_moved_still _ _ _ _ _ _ ?_ ?_
  · rw [hth, hretry]; exact hr
  · rw [hth]; exact hfend _ fun r h => (hending r (htrial ▸ h)).1

/-! ### rft (R361, R362, R373) -/

/-- What a mismatch leaves as it is, the reading back of a list of entries leaves as it is. -/
theorem State.mendAll_keeps {α γ : Type} (g : State → γ) {f : State → α → State × α × Bool} (hf : ∀ s x, g (f s x).1 = g s)
    (s : State) (xs : List α) : g (State.mendAll f s xs).1 = g s :=
  foldl_keeps (fun a : State × List α × Bool => g a.1) (fun a x => hf a.1 x) xs (s, [], true)

theorem State.mismatches_keeps {γ : Type} (g : State → γ) (hdev : ∀ s f, g (State.modDev s f) = g s)
    (hcore : ∀ s n f, g (State.modCore s n f) = g s) (s : State) (gc n lost : Nat) : g (s.mismatches gc n lost) = g s := by
  unfold State.mismatches
  split
  · rfl
  · exact (hcore _ _ _).trans ((hdev _ _).trans (hdev _ _))

theorem State.mendRegs_keeps {γ : Type} (g : State → γ) (hdev : ∀ s f, g (State.modDev s f) = g s)
    (hcore : ∀ s n f, g (State.modCore s n f) = g s) (hdraw : ∀ s n, g (State.modSched s fun c => { c with draw := n }) = g s)
    (s : State) (gc : Nat) (r : Regs) : g (s.mendRegs gc r).1 = g s := by
  have hmis := State.mismatches_keeps g hdev hcore
  have hentry : ∀ s e, g (State.mend s gc e).1 = g s := by
    intro s e
    unfold State.mend
    split
    · dsimp only
      split <;> dsimp only <;> exact (hmis (s.modSched fun c => { c with draw := s.sched.draw + 1 }) gc _ _).trans (hdraw s _)
    · rfl
  have hpred : ∀ s c, g (State.mendP s gc c).1 = g s := by
    intro s c
    unfold State.mendP
    split
    · dsimp only
      split <;> dsimp only <;> exact (hmis (s.modSched fun c => { c with draw := s.sched.draw + 1 }) gc _ _).trans (hdraw s _)
    · rfl
  exact (State.mendAll_keeps g hpred _ _).trans ((State.mendAll_keeps g hentry _ _).trans (State.mendAll_keeps g hentry _ _))

/-- A thread but for its trap registers and shadow. -/
def Thread.untrapped (th : Thread) : Thread := { th with trap := Thread.blank.trap }

/-- Reading a thread's shadow back changes no thread but for its shadow. -/
theorem State.mendShadow_threads (s : State) (t u : Nat) :
    ((s.mendShadow t).1.threads.find u).map Thread.untrapped = (s.threads.find u).map Thread.untrapped := by
  have hregs : ∀ gc r, (s.mendRegs gc r).1.threads = s.threads :=
    State.mendRegs_keeps State.threads (fun _ _ => rfl) (fun _ _ _ => rfl) (fun _ _ => rfl) s
  unfold State.mendShadow
  dsimp only
  split
  · rw [State.find_modThread, hregs]
    split
    · rw [Option.map_map]; rfl
    · rfl
  · rfl

/-- A part of a thread that is not its shadow survives the shadow's reading back. -/
theorem State.mendShadow_field {γ : Type} (s : State) (t u : Nat) (f : Thread → γ) (hf : ∀ th : Thread, f th.untrapped = f th) :
    f ((s.mendShadow t).1.thread u) = f (s.thread u) := by
  have h := s.mendShadow_threads t u
  unfold State.thread Tbl.getD
  have hget : ∀ o : Option Thread, f (o.getD Thread.blank) = f ((o.map Thread.untrapped).getD Thread.blank.untrapped) := fun o => by
    rw [Option.getD_map, hf]
  rw [hget, hget, h]

theorem State.mendShadow_isSome (s : State) (t u : Nat) :
    ((s.mendShadow t).1.threads.find u).isSome = (s.threads.find u).isSome := by
  have h := congrArg Option.isSome (s.mendShadow_threads t u)
  rwa [Option.isSome_map, Option.isSome_map] at h

theorem State.mendShadow_cur (s : State) (t : Nat) : (s.mendShadow t).1.sched.cur = s.sched.cur := by
  unfold State.mendShadow
  dsimp only
  split
  · exact State.mendRegs_keeps (·.sched.cur) (fun _ _ => rfl) (fun _ _ _ => rfl) (fun _ _ => rfl) _ _ _
  · rfl

/-- The states of a handler from which rft goes back: it is in its handler, and sr.trap.epc names a place. -/
def Thread.canResume (th : Thread) : Prop :=
  let e := th.trap.epc.toNat
  th.trap.cause.toNat / 256 % 2 = 1 ∧ e % 4 ≠ 3 ∧ ¬ (e / 2 ^ 59 % 16 = 0 ∧ e % 4 = 1)

theorem Thread.inHandler_iff (th : Thread) : th.inHandler = true ↔ th.trap.cause.toNat / 256 % 2 = 1 := beq_iff_eq

theorem rftBody_refuses {s : State} {t : Nat} {d : Dst} {a : Src} (hbad : ¬ (s.thread t).canResume)
    (hrules : srcRules t false [a] (pure ()) s = .ok () s) : rftBody d a t s = .error (.trap 0x6B 0) s := by
  unfold rftBody
  rw [M.bind_of_ok (M.getT_run s t)]
  dsimp only
  rw [M.bind_of_ok hrules]
  cases hin : (s.thread t).inHandler with
  | false => rfl
  | true =>
    rw [if_neg (by decide), if_pos]
    · rfl
    · by_contra hplace
      exact hbad ⟨(Thread.inHandler_iff _).mp hin, fun h => hplace (.inl h), fun h => hplace (.inr h)⟩

theorem rftBody_reads {s s1 : State} {t : Nat} {d : Dst} {a : Src} {v : Val} (hgood : (s.thread t).canResume)
    (hread : readSrc t .single true a s = .ok v s1) : rftBody d a t s = (do
      let (s, ok) := (← get).mendShadow t
      set s
      if !ok then fault 0x42
      modT t fun th => th.modRegs fun r => ⟨th.trap.shq, r.k, th.trap.shp⟩
      writeVals t d [(v.val, v.kind)] 0
      modT t fun th => { th with trap := { th.trap with cause := th.trap.cause &&& 0xFF } }
      modT t Thread.resume
      return (⟨1, 6⟩, true) : M (Cost × Bool)) s1 := by
  obtain ⟨hin, hmode, hwin⟩ := hgood
  have hrules : srcRules t false [a] (pure ()) s = .ok () s := srcRules_of_readSrc hread
  unfold rftBody
  rw [M.bind_of_ok (M.getT_run s t)]
  dsimp only
  rw [M.bind_of_ok hrules, if_neg (by rw [(Thread.inHandler_iff _).mpr hin]; decide),
    if_neg (not_or.mpr ⟨hmode, hwin⟩), M.bind_of_ok hread]

theorem Thread.resume_cases (th : Thread) : (∃ p, th.resume = { th with pos := p }) ∨
    ∃ p r, th.trial = some r ∧ th.resume = { th with trial := some { r with susp := false }, pos := p } := by
  unfold Thread.resume
  dsimp only
  cases hr : th.trial.filter fun r => r.susp && th.trap.cand && th.trap.epc.toNat % 4 == 0 with
  | some r => exact .inr ⟨_, r, (Option.filter_eq_some_iff.mp hr).1, rfl⟩
  | none =>
    refine .inl ?_
    dsimp only
    split
    · exact ⟨_, rfl⟩
    · split <;> exact ⟨_, rfl⟩

theorem Thread.resume_retry (th : Thread) : th.resume.retry = th.retry := by
  obtain ⟨p, h⟩ | ⟨p, r, -, h⟩ := th.resume_cases <;> rw [h]

/-- A trial that has not come to its end has not come to it when its thread resumes. -/
theorem Thread.resume_ending {th : Thread} (he : ∀ r, th.trial = some r → r.ending = none) :
    ∀ r, th.resume.trial = some r → r.ending = none := by
  obtain ⟨p, h⟩ | ⟨p, r, hr, h⟩ := th.resume_cases
  · rw [h]; exact he
  · rw [h]
    rintro r' hr'
    cases hr'
    exact he r hr

/-- The thread that rft leaves, at its place (R361, R373). -/
def Thread.back (th : Thread) (d : Dst) (v : Val) (now : Nat) : Thread :=
  let th1 := { th with regs := Regs.put ⟨th.trap.shq, th.regs.k, th.trap.shp⟩ d [Entry.mk' v.val v.kind now] }
  Thread.resume { th1 with trap := { th1.trap with cause := th1.trap.cause &&& 0xFF } }

theorem rftBody_shadowBad {s s1 s2 : State} {t : Nat} {d : Dst} {a : Src} {v : Val} (hgood : (s.thread t).canResume)
    (hread : readSrc t .single true a s = .ok v s1) (hmend : s1.mendShadow t = (s2, false)) :
    rftBody d a t s = .error (.trap 0x42 0) s2 := by
  rw [rftBody_reads hgood hread, M.get_bind, hmend]
  rfl

/-- A part of a thread that a change keeps reads as before in every thread. -/
theorem State.field_modThread {γ : Type} (s : State) (t u : Nat) (f : Thread → Thread) (g : Thread → γ) (hg : ∀ th, g (f th) = g th) :
    g ((s.modThread t f).thread u) = g (s.thread u) := by
  unfold State.thread Tbl.getD
  rw [State.find_modThread]
  split
  · cases s.threads.find u with
    | none => rfl
    | some th => exact hg th
  · rfl

/-- When a result may be read does not change with a thread's registers. -/
theorem State.readyAt_modThread (s : State) (t u L : Nat) (f : Thread → Thread) (hid : ∀ th, (f th).id = th.id)
    (hbundle : ∀ th, (f th).bundle = th.bundle) : (s.modThread t f).readyAt u L = s.readyAt u L := by
  have hids : ∀ x, ((s.modThread t f).thread x).id = (s.thread x).id := fun x => s.field_modThread t x f Thread.id hid
  have hb : ((s.modThread t f).thread u).bundle = (s.thread u).bundle := s.field_modThread t u f Thread.bundle hbundle
  unfold State.readyAt State.lcOf State.beatLen State.onLane State.lanesOf
  simp only [hids, hb]
  rfl

/-- A thread with the queue and the predicates of its shadow (R361). -/
def Thread.unshadowed (th : Thread) : Thread := th.modRegs fun r => ⟨th.trap.shq, r.k, th.trap.shp⟩

theorem rftBody_back {s s1 s2 : State} {t : Nat} {d : Dst} {a : Src} {v : Val} (hgood : (s.thread t).canResume)
    (hread : readSrc t .single true a s = .ok v s1) (hmend : s1.mendShadow t = (s2, true)) (hretry : (s2.thread t).retry = 0) :
    rftBody d a t s = .ok (⟨1, 6⟩, true) (s2.modThread t fun th => th.back d v (s2.readyAt t 0)) := by
  have hretry : ((s2.modThread t Thread.unshadowed).thread t).retry = 0 :=
    (s2.field_modThread t t Thread.unshadowed Thread.retry fun _ => rfl).trans hretry
  have hnow : (s2.modThread t Thread.unshadowed).readyAt t 0 = s2.readyAt t 0 :=
    s2.readyAt_modThread t t 0 Thread.unshadowed (fun _ => rfl) fun _ => rfl
  have hwrite := writeVals_run d [(v.val, v.kind)] 0 hretry
  rw [hnow, State.modThread_modThread] at hwrite
  rw [rftBody_reads hgood hread, M.get_bind, hmend]
  dsimp only
  rw [M.bind_of_ok (M.set_run s1 s2), if_neg (by decide)]
  refine (M.bind_of_ok (M.modT_run s2 t Thread.unshadowed)).trans ((M.bind_of_ok hwrite).trans ?_)
  rw [M.bind_of_ok (M.modT_run _ _ _), M.bind_of_ok (M.modT_run _ _ _)]
  simp only [State.modThread_modThread]
  rfl

/-- rft of a thread that is not in its handler, or whose sr.trap.epc names no place, takes 0x6B. -/
theorem execRft_refuses {s : State} {c : RCtl} {d : Dst} {a : Src} (ha : s.able c.ng true false [])
    (hbad : ¬ (s.thread s.sched.cur).canResume) (hrules : srcRules s.sched.cur false [a] (pure ()) s = .ok () s) :
    exec (.rft c d a) s = .next (s.takes s 0x6B) :=
  congrArg Host.Outcome.next (runWord_takes (sh := (shR c [a]).ban) ha (rftBody_refuses hbad hrules))

theorem execRft_shadowBad {s s1 s2 : State} {c : RCtl} {d : Dst} {a : Src} {v : Val} (ha : s.able c.ng true false [])
    (hgood : (s.thread s.sched.cur).canResume) (hread : readSrc s.sched.cur .single true a s = .ok v s1)
    (hmend : s1.mendShadow s.sched.cur = (s2, false)) : exec (.rft c d a) s = .next (s.takes s2 0x42) :=
  congrArg Host.Outcome.next (runWord_takes (sh := (shR c [a]).ban) ha (rftBody_shadowBad hgood hread hmend))

theorem execRft_returns {s s1 s2 : State} {c : RCtl} {d : Dst} {a : Src} {v : Val} (ha : s.able c.ng true false [])
    (hgood : (s.thread s.sched.cur).canResume) (hread : readSrc s.sched.cur .single true a s = .ok v s1)
    (hmend : s1.mendShadow s.sched.cur = (s2, true)) (hroom : s2.roomy) : ∃ s', exec (.rft c d a) s = .next s' ∧
      Still (s2.modThread s.sched.cur fun th => Claims.comesBack th d v (s2.after 0)) s' := by
  have hr : Reads s s1 := readSrc_gives _ _ _ _ _ _ _ hread
  have hs2 : (s1.mendShadow s.sched.cur).1 = s2 := by rw [hmend]
  have hcur : s2.sched.cur = s.sched.cur := hs2 ▸ (s1.mendShadow_cur _).trans hr.cur
  have hsome : (s2.threads.find s.sched.cur).isSome := by
    rw [← hs2, State.mendShadow_isSome, hr.isSome]; exact ha.1
  have hid : (s2.thread s.sched.cur).id = (s.thread s.sched.cur).id := by
    rw [← hs2, State.mendShadow_field s1 _ _ Thread.id fun _ => rfl]; exact hr.field _ Thread.id fun _ => rfl
  have htrial : (s2.thread s.sched.cur).trial = (s.thread s.sched.cur).trial := by
    rw [← hs2, State.mendShadow_field s1 _ _ Thread.trial fun _ => rfl]; exact hr.field _ Thread.trial fun _ => rfl
  have hrun := rftBody_back (d := d) hgood hread hmend (hcur ▸ hroom.1)
  unfold State.after
  rw [hcur]
  exact ⟨_, rfl, runWord_moves (sh := (shR c [a]).ban) rfl ha hcur hroom hsome hid htrial (fun th => Thread.resume_retry _)
    (fun th he => Thread.resume_ending he) hrun⟩

/-! ### Where rft goes on (R361, R362) -/

/-- A thread that resumes no candidate goes on in its code. -/
theorem Thread.resume_plain {th : Thread} (hplain : th.trial = none ∨ th.trap.cand = false) :
    let e := Claims.epcOf th.trap.epc
    th.resume = if e.1 = 2 ∨ e.2.2.1 = 0 then th.goTo e.2.1
      else { th with pos := Pos.within e.2.1 (if e.1 = 0 then e.2.2.1 else e.2.2.1 + 1 + e.2.2.2.1) e.2.2.2.2 } := by
  have hnone : th.trial.filter (fun r => r.susp && th.trap.cand && th.trap.epc.toNat % 4 == 0) = none := by
    rcases hplain with h | h
    · rw [h]; rfl
    · exact Option.filter_eq_none_iff.mpr fun r _ => by simp [h]
  unfold Thread.resume
  dsimp only
  rw [hnone]
  dsimp only [Claims.epcOf]
  by_cases hhead : th.trap.epc.toNat % 4 = 2 ∨ th.trap.epc.toNat / 2 ^ 59 % 16 = 0
  · simp only [hhead, if_true]
  · simp only [hhead, if_false]
    by_cases hmode : th.trap.epc.toNat % 4 = 0 <;> simp only [hmode, if_true, if_false]

/-- A thread whose candidate took the cause goes on in it. -/
theorem Thread.resume_candidate {th : Thread} {r : Trial} (hr : th.trial = some r) (hsusp : r.susp = true)
    (hcand : th.trap.cand = true) (hmode : th.trap.epc.toNat % 4 = 0) :
    th.resume = { th with trial := some { r with susp := false }, pos := Pos.atHeader r.pc } := by
  have hsome : th.trial.filter (fun r => r.susp && th.trap.cand && th.trap.epc.toNat % 4 == 0) = some r := by
    rw [hr]
    exact Option.filter_some_pos (by simp [hsusp, hcand, hmode])
  unfold Thread.resume
  dsimp only
  rw [hsome]

/-! ### What setsr may change (R210) -/

/-- A thread but for what setsr writes of it. -/
def Thread.unset (th : Thread) : Thread := { th with sckNext := none, h0 := 0, h1 := 0, trap := { th.trap with epc := 0 } }
/-- A team but for what setsr writes of it. -/
def Work.unset (w : Work) : Work := { w with sat := [] }
/-- A context but for what setsr writes of it. -/
def Context.unset (c : Context) : Context := { c with trapVec := 0, sigset := 0 }
/-- A core's counters but for what setsr writes of them, and the run that it ends. -/
def Obs.unset (o : Obs) : Obs := { o with ctl := Obs.reset.ctl, cnt := Obs.reset.cnt, edge := Obs.reset.edge, bins := Obs.reset.bins, run := 0 }

theorem Obs.endRun_unset (o : Obs) : o.endRun.unset = o.unset := by
  unfold Obs.endRun
  split
  · rfl
  · split <;> rfl

theorem Obs.write_unset (o : Obs) (n : Nat) (x : Word64) : (o.write n x).unset = o.unset := by
  unfold Obs.write Obs.setCtl
  split
  · exact o.endRun_unset
  · split
    · rfl
    · split <;> rfl

/-- What every kind of change that setsr makes keeps, setsr keeps. -/
theorem State.setSreg_keeps (P : State → Prop) (s : State) (t n : Nat) (x : Word64) (hself : P s)
    (hthread : ∀ f : Thread → Thread, (∀ th, (f th).unset = th.unset) → P (s.modThread t f))
    (hwork : ∀ f : Work → Work, (∀ w, (f w).unset = w.unset) → P (s.modWork (s.thread t).id.work f))
    (hctx : ∀ f : Context → Context, (∀ c, (f c).unset = c.unset) → P (s.modCtx (s.ctxOf t) f))
    (hcore : ∀ f : Obs → Obs, (∀ o, (f o).unset = o.unset) → P (s.modCore (s.thread t).gcore fun c => { c with obs := f c.obs })) :
    P (s.setSreg t n x) := by
  unfold State.setSreg
  dsimp only
  split
  · exact hthread _ fun _ => rfl
  · exact hwork _ fun _ => rfl
  · exact hctx _ fun _ => rfl
  · exact hthread _ fun _ => rfl
  · exact hthread _ fun _ => rfl
  · exact hthread _ fun _ => rfl
  · exact hctx _ fun _ => rfl
  · split
    · exact hself
    · exact hcore _ fun o => o.write_unset _ _

/-- The states agree in what the read-only special registers of a thread show, and in sr.ctl. -/
structure SameRegs (s u : State) (t : Nat) : Prop where
  threads : ∀ k, ((u.threads.find k).map Thread.unset) = (s.threads.find k).map Thread.unset
  works : ∀ w, ((u.works.find w).map Work.unset) = (s.works.find w).map Work.unset
  ctx : ∀ c, (u.ctx c).unset = (s.ctx c).unset
  core : ∀ n, { u.core n with obs := (u.core n).obs.unset } = { s.core n with obs := (s.core n).obs.unset }
  others : ∀ k, k ≠ t → u.threads.find k = s.threads.find k
  groups : u.groups = s.groups
  bundles : u.bundles = s.bundles
  cards : u.cards = s.cards
  ops : u.ops = s.ops
  dies : u.dies = s.dies
  dev : u.dev = s.dev
  homes : u.homes = s.homes
  cur : u.sched = s.sched

theorem State.setSreg_same (s : State) (t n : Nat) (x : Word64) : SameRegs s (s.setSreg t n x) t := by
  refine State.setSreg_keeps (SameRegs s · t) s t n x ?_ (fun f hf => ?_) (fun f hf => ?_) (fun f hf => ?_) (fun f hf => ?_)
  · constructor <;> intros <;> rfl
  · constructor <;> intros <;> try rfl
    · rw [State.find_modThread]
      split
      · rw [Option.map_map]; exact congrArg (Option.map · _) (funext hf)
      · rfl
    · rw [State.find_modThread, if_neg ‹_›]
  · constructor <;> intros <;> try rfl
    rw [State.find_modWork]
    split
    · rw [Option.map_map]; exact congrArg (Option.map · _) (funext hf)
    · rfl
  · constructor <;> intros <;> try rfl
    rw [State.ctx_modCtx]
    split
    · subst_vars; exact hf _
    · rfl
  · constructor <;> intros <;> try rfl
    rw [State.core_modCore]
    split
    · subst_vars; exact congrArg (fun o => ({ s.core _ with obs := o } : Core)) (hf _)
    · rfl

/-- A part of a thread that setsr does not write. -/
theorem SameRegs.field {γ : Type} {s u : State} {t : Nat} (h : SameRegs s u t) (k : Nat) (g : Thread → γ)
    (hg : ∀ th : Thread, g th.unset = g th) : g (u.thread k) = g (s.thread k) := by
  have hget : ∀ o : Option Thread, g (o.getD Thread.blank) = g ((o.map Thread.unset).getD Thread.blank.unset) := fun o => by
    rw [Option.getD_map, hg]
  unfold State.thread Tbl.getD
  rw [hget, hget (s.threads.find k), h.threads]

/-- A part of a team that setsr does not write. -/
theorem SameRegs.workField {γ : Type} {s u : State} {t : Nat} (h : SameRegs s u t) (w : Nat) (g : Work → γ)
    (hg : ∀ x : Work, g x.unset = g x) : g (u.work w) = g (s.work w) := by
  have hget : ∀ o : Option Work, g (o.getD Work.blank) = g ((o.map Work.unset).getD Work.blank.unset) := fun o => by
    rw [Option.getD_map, hg]
  unfold State.work Tbl.getD
  rw [hget, hget (s.works.find w), h.works]

theorem SameRegs.ctxField {γ : Type} {s u : State} {t : Nat} (h : SameRegs s u t) (c : Nat) (g : Context → γ)
    (hg : ∀ x : Context, g x.unset = g x) : g (u.ctx c) = g (s.ctx c) := by
  rw [← hg, h.ctx, hg]

theorem SameRegs.coreField {γ : Type} {s u : State} {t : Nat} (h : SameRegs s u t) (n : Nat) (g : Core → γ)
    (hg : ∀ c : Core, g { c with obs := c.obs.unset } = g c) : g (u.core n) = g (s.core n) := by
  rw [← hg, h.core, hg]

theorem SameRegs.overfull {s u : State} {t : Nat} (h : SameRegs s u t) (w : Nat) : u.overfull w = s.overfull w := by
  unfold State.overfull State.writtenLines
  rw [h.workField w Work.rpl fun _ => rfl, h.ops]

theorem SameRegs.roomy {s u : State} {t : Nat} (h : SameRegs s u t) (hroom : s.roomy) : u.roomy := by
  obtain ⟨hretry, hfull⟩ := hroom
  have hcur : u.sched.cur = s.sched.cur := congrArg Sched.cur h.cur
  unfold State.roomy
  rw [hcur, h.field _ Thread.retry fun _ => rfl, h.field _ Thread.id fun _ => rfl, h.overfull]
  exact ⟨hretry, hfull⟩

theorem execSetsr_denied {s : State} {st : Stall} {a : Src} {i : BitVec 10} (ha : s.able false true false [])
    (hcounter : 0x180 ≤ i.toNat) (hgrant : (s.ctx (s.ctxOf s.sched.cur)).observe = false) :
    exec (.setsr st a i) s = .next (s.takes s 0x08) := by
  refine congrArg Host.Outcome.next (runWord_takes (sh := (shT st [a]).ban) ha (M.bind_of_error ?_))
  rw [M.get_bind, if_pos (by rw [hgrant]; simpa using hcounter)]
  rfl

theorem execSetsr_passes {s s1 : State} {st : Stall} {a : Src} {i : BitVec 10} {v : Val} (ha : s.able false true false [])
    (hallowed : i.toNat < 0x180 ∨ (s.ctx (s.ctxOf s.sched.cur)).observe = true)
    (hread : readSrc s.sched.cur .single false a s = .ok v s1) (hroom : s1.roomy) :
    ∃ s', exec (.setsr st a i) s = .next s' ∧ Passes (s1.setSreg s.sched.cur i.toNat v.val) s' (litWords [a]) := by
  have hr : Reads s s1 := readSrc_gives _ _ _ _ _ _ _ hread
  have hsame : SameRegs s1 (s1.setSreg s.sched.cur i.toNat v.val) s.sched.cur := s1.setSreg_same _ _ _
  have hcur : (s1.setSreg s.sched.cur i.toNat v.val).sched.cur = s.sched.cur := (congrArg Sched.cur hsame.cur).trans hr.cur
  refine ⟨_, rfl, runWord_stays (sh := (shT st [a]).ban) (k := oneBeat) ha hcur (hsame.roomy hroom) ?_ ?_ ?_⟩
  · rw [hcur]; exact (hsame.field _ Thread.id fun _ => rfl).trans (hr.field _ Thread.id fun _ => rfl)
  · rw [hcur]; exact (hsame.field _ Thread.trial fun _ => rfl).trans (hr.field _ Thread.trial fun _ => rfl)
  · have hgrant : ¬ (decide (i.toNat ≥ 0x180) && !(s.ctx (s.ctxOf s.sched.cur)).observe) = true := by
      rcases hallowed with h | h
      · simp [h]
      · simp [h]
    refine plain_of_ok ?_
    rw [M.get_bind, if_neg hgrant]
    exact M.bind_of_ok (readBits_run hread)

end Sys2Proof.Machine

namespace Sys2Proof.Claims
open Sys2Proof.Machine

/-- trap, rft, halt, setsr and time (R372-R374, R376). -/
theorem systemWords_hold : systemWords := by
  intro s s1 c st d a n v t th
  refine ⟨fun ha h => execTrap_takes ha h, fun ha hst h => execHalt_takes ha hst h, fun ha hst hroom => execHalt_holds ha hst hroom,
    ?halted, fun ha => ⟨fun hbad hrules => execRft_refuses ha hbad hrules, fun hgood hread s2 =>
      ⟨fun hmend => execRft_shadowBad ha hgood hread hmend, fun hmend hroom => execRft_returns ha hgood hread hmend hroom⟩⟩,
    ?resumes, fun i ha => ⟨fun hcounter hgrant => execSetsr_denied ha hcounter hgrant,
      fun hallowed hread hroom => execSetsr_passes ha hallowed hread hroom⟩, fun cyc y ha h hroom => execTime_passes ha h hroom⟩
  case halted =>
    cases htrial : th.inTrial with
    | false => exact .inl (s.deliver_halt t v.val htrial)
    | true => exact .inr rfl
  case resumes =>
    intro th
    refine ⟨fun hplain hhead => ?_, fun hplain hmode hwin => ?_, fun hplain hmode hwin => ?_, fun r hr hsusp hcand hmode => ?_⟩
    · rw [Thread.resume_plain hplain, if_pos hhead]
      rfl
    · rw [Thread.resume_plain hplain, if_neg (by simp [hmode, hwin]), if_pos hmode]
      rfl
    · rw [Thread.resume_plain hplain, if_neg (by simp [hmode, hwin]), if_neg (by simp [hmode])]
      rfl
    · rw [Thread.resume_candidate hr hsusp hcand hmode]
      exact ⟨rfl, rfl⟩

end Sys2Proof.Claims

end

section
/-! PROOFS. The family of faults: the special registers that setsr writes (R210, R250, R325, R360, R379, R381, R382). -/

namespace Sys2Proof.Machine

theorem SameRegs.turn {s u : State} {t : Nat} (h : SameRegs s u t) (k : Nat) : u.turn k = s.turn k := by
  have hid : ∀ x, (u.thread x).id = (s.thread x).id := fun x => h.field x Thread.id fun _ => rfl
  have hbundle : (u.thread k).bundle = (s.thread k).bundle := h.field k Thread.bundle fun _ => rfl
  unfold State.turn
  simp only [hid, hbundle, h.bundles]

theorem SameRegs.ctxOf {s u : State} {t : Nat} (h : SameRegs s u t) (k : Nat) : u.ctxOf k = s.ctxOf k := by
  unfold State.ctxOf State.workOf
  rw [h.field k Thread.id fun _ => rfl, h.workField _ Work.ctx fun _ => rfl]

theorem SameRegs.die {s u : State} {t : Nat} (h : SameRegs s u t) (d : Nat) : u.die d = s.die d := by
  unfold State.die
  rw [h.dies]

theorem SameRegs.gcore {s u : State} {t : Nat} (h : SameRegs s u t) (k : Nat) : (u.thread k).gcore = (s.thread k).gcore :=
  h.field k Thread.gcore fun _ => rfl

/-- A read-only counter register (R379). -/
theorem SameRegs.counterWord_readOnly {s u : State} {t n : Nat} (h : SameRegs s u t) (hn : n ≤ 0x191) :
    u.counterWord t n = s.counterWord t n := by
  have hleaves : (u.core (s.thread t).gcore).obs.leaves = (s.core (s.thread t).gcore).obs.leaves :=
    h.coreField _ (fun c => c.obs.leaves) fun _ => rfl
  have hbanks : (u.core (s.thread t).gcore).obs.banks = (s.core (s.thread t).gcore).obs.banks :=
    h.coreField _ (fun c => c.obs.banks) fun _ => rfl
  have hslots : (u.core (s.thread t).gcore).obs.slots = (s.core (s.thread t).gcore).obs.slots :=
    h.coreField _ (fun c => c.obs.slots) fun _ => rfl
  have hid : (u.thread t).id = (s.thread t).id := h.field t Thread.id fun _ => rfl
  unfold State.counterWord
  dsimp only
  rw [h.gcore, hleaves, hbanks, hslots, hid, h.die, h.ctxOf]
  by_cases h1 : n < 0x190
  · rw [if_pos h1, if_pos h1]
  · by_cases h2 : n = 0x190
    · rw [if_neg h1, if_pos h2, if_neg h1, if_pos h2]
    · have h3 : n = 0x191 := by omega
      rw [if_neg h1, if_neg h2, if_pos h3, if_neg h1, if_neg h2, if_pos h3]

/-- A special register reads alike where what setsr may write of it is the same. -/
theorem SameRegs.sreg_eq {s u : State} {t j : Nat} (h : SameRegs s u t)
    (hsat : j = 0x070 → (u.work (s.thread t).id.work).sat = (s.work (s.thread t).id.work).sat)
    (hvec : j = 0x090 → (u.ctx (s.ctxOf t)).trapVec = (s.ctx (s.ctxOf t)).trapVec)
    (hepc : j = 0x091 → (u.thread t).trap.epc = (s.thread t).trap.epc)
    (hh0 : j = 0x100 → (u.thread t).h0 = (s.thread t).h0) (hh1 : j = 0x101 → (u.thread t).h1 = (s.thread t).h1)
    (hsig : j = 0x102 → (u.ctx (s.ctxOf t)).sigset = (s.ctx (s.ctxOf t)).sigset)
    (hcounter : 0x191 < j → j ≠ 0x1C0 → u.counterWord t j = s.counterWord t j) : u.sreg t j = s.sreg t j := by
  have hsck : (u.thread t).sck = (s.thread t).sck := h.field t Thread.sck fun _ => rfl
  have hregs : (u.thread t).regs = (s.thread t).regs := h.field t Thread.regs fun _ => rfl
  have hdec : (u.thread t).dec = (s.thread t).dec := h.field t Thread.dec fun _ => rfl
  have hid : (u.thread t).id = (s.thread t).id := h.field t Thread.id fun _ => rfl
  have hview : (u.thread t).view = (s.thread t).view := h.field t Thread.view fun _ => rfl
  have hcause : (u.thread t).trap.cause = (s.thread t).trap.cause := h.field t (fun th => th.trap.cause) fun _ => rfl
  have hcard : ∀ w, (u.work w).card = (s.work w).card := fun w => h.workField w Work.card fun _ => rfl
  have hcards : ∀ c, u.card c = s.card c := fun c => by unfold State.card; rw [h.cards]
  have hgroup : u.groupOf t = s.groupOf t := by unfold State.groupOf State.group; rw [hid, h.groups]
  have hmer : u.merNow t = s.merNow t := by unfold State.merNow; rw [hid, h.die, h.turn]
  have hroot : (u.ctx (s.ctxOf t)).root = (s.ctx (s.ctxOf t)).root := h.ctxField _ Context.root fun _ => rfl
  unfold State.sreg
  dsimp only
  split
  · rw [hsck]
  · rw [hregs, hgroup]
  · rw [hdec]
  · rw [hdec]
  · rw [hdec]
  · rw [hdec]
  · rw [hdec]
  · rw [h.dev]
  · rw [h.dev]
  · rw [h.dev]
  · rw [h.dev]
  · rw [h.dev]
  · rw [h.dev]
  · rw [h.ctxOf, hroot]
  · rw [hview]
  · unfold State.launchSnap State.workOf; rw [hid, hcard, hcards]
  · exact h.field t Thread.txwhy fun _ => rfl
  · exact h.field t Thread.txstamp fun _ => rfl
  · rw [hid, h.die]
  · rw [hid, h.die]
  · rw [h.gcore, h.coreField _ Core.bankWord fun _ => rfl]
  · rw [h.gcore, hid, h.coreField _ Core.ownWord fun _ => rfl]
  · exact h.field t Thread.xcrc fun _ => rfl
  · rw [h.gcore, hid, hsat rfl]
  · unfold State.ncycNow; rw [hid, h.die, h.turn]
  · rw [h.ctxOf, hvec rfl]
  · exact hepc rfl
  · rw [hcause]
  · exact h.field t (fun th => th.trap.val) fun _ => rfl
  · exact hh0 rfl
  · exact hh1 rfl
  · rw [h.ctxOf, hsig rfl]
  · rw [h.field t Thread.trialWord fun _ => rfl]
  · unfold State.jobWord State.workOf; rw [hid, hcard, hcards]
  · have hbud : ∀ w, (u.work w).bud = (s.work w).bud := fun w => h.workField w Work.bud fun _ => rfl
    have hresident : ∀ w, (u.work w).resident = (s.work w).resident := fun w => h.workField w Work.resident fun _ => rfl
    have hdie : ∀ w, (u.work w).die = (s.work w).die := fun w => h.workField w Work.die fun _ => rfl
    unfold State.budgetWord State.budgetTicks
    simp only [hmer, hid, hbud, hresident, hdie, hcard, hcards, h.die]
  · unfold State.replayWord State.workOf; rw [hid, h.workField _ Work.rpl fun _ => rfl]
  · rename_i hreplay
    rcases Nat.lt_or_ge 0x191 j with hj | hj
    · exact hcounter hj hreplay
    · exact h.counterWord_readOnly hj

theorem sregAccess_eq_none {j : Nat} (hj : 0x1C0 < j) : sregAccess j = none := by
  unfold sregAccess
  iterate 18 rw [if_neg (by omega)]

/-- The registers that setsr may write (R210). -/
theorem sregAccess_writable {j : Nat} (h : sregAccess j = some true) :
    j ∈ [0x000, 0x070, 0x090, 0x091, 0x100, 0x101, 0x102] ∨ 0x1A0 ≤ j ∧ j ≤ 0x1BF := by
  have hall : ∀ j ≤ 0x1C0, sregAccess j = some true →
      j ∈ [0x000, 0x070, 0x090, 0x091, 0x100, 0x101, 0x102] ∨ 0x1A0 ≤ j ∧ j ≤ 0x1BF := by decide +kernel
  rcases Nat.lt_or_ge 0x1C0 j with hj | hj
  · rw [sregAccess_eq_none hj] at h; cases h
  · exact hall j hj h

theorem sregAccess_readOnly {j : Nat} (h : sregAccess j = some false) : j ≤ 0x191 ∨ j = 0x1C0 := by
  have hall : ∀ j ≤ 0x1C0, sregAccess j = some false → j ≤ 0x191 ∨ j = 0x1C0 := by decide +kernel
  rcases Nat.lt_or_ge 0x1C0 j with hj | hj
  · rw [sregAccess_eq_none hj] at h; cases h
  · exact hall j hj h

/-- What setsr may not write reads as before. -/
theorem SameRegs.sreg_readOnly {s u : State} {t j : Nat} (h : SameRegs s u t) (hj : sregAccess j = some false) :
    u.sreg t j = s.sreg t j := by
  have hnot : ∀ k, sregAccess k = some true → j ≠ k := fun k hk e => by rw [← e, hj] at hk; cases hk
  refine h.sreg_eq (fun e => absurd e (hnot _ rfl)) (fun e => absurd e (hnot _ rfl)) (fun e => absurd e (hnot _ rfl))
    (fun e => absurd e (hnot _ rfl)) (fun e => absurd e (hnot _ rfl)) (fun e => absurd e (hnot _ rfl)) fun hlow hlast => ?_
  exact absurd (sregAccess_readOnly hj) (not_or.mpr ⟨Nat.not_le.mpr hlow, hlast⟩)

/-! ### The counter registers of organisation 0 (R379, R381, R382) -/

/-- A counter register that setsr may write. -/
def Obs.reg (o : Obs) (n : Nat) : Word64 :=
  if n < 0x1A8 then o.ctl.toList.getD (n - 0x1A0) 0
  else if n < 0x1B0 then o.cnt.toList.getD (n - 0x1A8) 0
  else if n < 0x1B8 then o.edge.toList.getD (n - 0x1B0) 0
  else o.bins.toList.getD (n - 0x1B8) 0

theorem State.counterWord_reg {s : State} {t n : Nat} (hlow : 0x1A0 ≤ n) (horg : (s.die (s.thread t).id.die).org = false) :
    s.counterWord t n = (s.core (s.thread t).gcore).obs.reg n := by
  unfold State.counterWord Obs.reg
  dsimp only
  rw [if_neg (by omega), if_neg (by omega), if_neg (by omega), horg]
  rfl

theorem State.sreg_counter (s : State) (t : Nat) {n : Nat} (hlow : 0x1A0 ≤ n) (hhigh : n ≤ 0x1BF) : s.sreg t n = s.counterWord t n := by
  unfold State.sreg
  dsimp only
  split
  pick_goal -1
  · rfl
  all_goals omega

theorem State.setSreg_counter {s : State} {t n : Nat} (x : Word64) (hlow : 0x1A0 ≤ n) :
    s.setSreg t n x = if (s.die (s.thread t).id.die).org then s
      else s.modCore (s.thread t).gcore fun c => { c with obs := c.obs.write n x } := by
  unfold State.setSreg
  dsimp only
  split
  pick_goal -1
  · rfl
  all_goals omega

theorem getD_ofFn8 (f : Fin 8 → Word64) (i : Nat) :
    (Vector.ofFn f).toList.getD i 0 = if h : i < 8 then f ⟨i, h⟩ else 0 := by
  rw [List.getD_eq_getElem?_getD]
  split
  · rename_i h
    simp [h]
  · simp [*]

theorem getD_put8 (v : Vector Word64 8) (i j : Nat) (x : Word64) (hj : j < 8) :
    (put8 v i x).toList.getD j 0 = if j = i then x else v.toList.getD j 0 := by
  unfold put8
  rw [getD_ofFn8, dif_pos hj]
  split
  · rfl
  · simp [hj]

theorem Obs.reg_endRun (o : Obs) {n : Nat} (hn : n < 0x1B8) : o.endRun.reg n = o.reg n := by
  have hctl : o.endRun.ctl = o.ctl ∧ o.endRun.cnt = o.cnt ∧ o.endRun.edge = o.edge := by
    unfold Obs.endRun
    split
    · exact ⟨rfl, rfl, rfl⟩
    · split <;> exact ⟨rfl, rfl, rfl⟩
  obtain ⟨hctl, hcnt, hedge⟩ := hctl
  unfold Obs.reg
  rw [hctl, hcnt, hedge]
  split
  · rfl
  · split
    · rfl
    · rfl

/-- Every written control bit that is not its own reads 0, and no other unit's control register changes (R381). -/
theorem Obs.reg_setCtl (o : Obs) {k j : Nat} (x : Word64) (hj : 0x1A0 ≤ j) (hj' : j < 0x1B8) :
    (o.setCtl k x).reg j = if j = 0x1A0 + k ∧ j < 0x1A8 then x &&& ctlMask else o.reg j := by
  rw [← o.reg_endRun hj']
  unfold Obs.setCtl Obs.reg
  dsimp only
  generalize o.endRun = e
  by_cases hctl : j < 0x1A8
  · have h8 : j - 0x1A0 < 8 := by omega
    by_cases hk : j = 0x1A0 + k
    · rw [if_pos hctl, if_pos (c := j = 0x1A0 + k ∧ j < 0x1A8) ⟨hk, hctl⟩, getD_ofFn8, dif_pos h8, if_pos (by dsimp only; omega)]
    · rw [if_neg (c := j = 0x1A0 + k ∧ j < 0x1A8) fun h => hk h.1, if_pos hctl, if_pos hctl, getD_ofFn8, dif_pos h8,
        if_neg (by dsimp only; omega)]
      simp [h8]
  · rw [if_neg (c := j = 0x1A0 + k ∧ j < 0x1A8) fun h => hctl h.2, if_neg hctl, if_neg hctl]

/-- What was written reads back, a unit's control register but for the bits that are not its own (R381). -/
theorem Obs.reg_write_self (o : Obs) {n : Nat} (x : Word64) (hlow : 0x1A0 ≤ n) (hhigh : n ≤ 0x1BF) :
    (o.write n x).reg n = if n < 0x1A8 then x &&& ctlMask else x := by
  unfold Obs.write
  by_cases hctl : n < 0x1A8
  · rw [if_pos hctl, if_pos hctl, Obs.reg_setCtl o x hlow (by omega), if_pos ⟨by omega, hctl⟩]
  · rw [if_neg hctl, if_neg hctl]
    unfold Obs.reg
    rw [if_neg hctl]
    by_cases hcnt : n < 0x1B0
    · rw [if_pos hcnt, if_pos hcnt, getD_put8 _ _ _ _ (by omega), if_pos rfl]
    · rw [if_neg hcnt, if_neg hcnt]
      by_cases hedge : n < 0x1B8
      · rw [if_pos hedge, if_pos hedge, getD_put8 _ _ _ _ (by omega), if_pos rfl]
      · rw [if_neg hedge, if_neg hedge, getD_put8 _ _ _ _ (by omega), if_pos rfl]

/-- No other counter register changes, but that a unit's control register ends a run, which a bin counts (R382). -/
theorem Obs.reg_write_other (o : Obs) {n j : Nat} (x : Word64) (hlow : 0x1A0 ≤ n) (hhigh : n ≤ 0x1BF) (hj : 0x1A0 ≤ j) (hj' : j ≤ 0x1BF)
    (hne : j ≠ n) (hrun : ¬ (n < 0x1A8 ∧ 0x1B8 ≤ j)) : (o.write n x).reg j = o.reg j := by
  unfold Obs.write
  by_cases hctl : n < 0x1A8
  · rw [if_pos hctl, Obs.reg_setCtl o x hj (by omega), if_neg (by omega)]
  · rw [if_neg hctl]
    have hput : ∀ v : Vector Word64 8, ∀ b, 0x1A8 ≤ b → b ≤ n → b ≤ j → j < b + 8 →
        (put8 v (n - b) x).toList.getD (j - b) 0 = v.toList.getD (j - b) 0 := fun v b _ hbn hbj hjb => by
      rw [getD_put8 _ _ _ _ (by omega), if_neg (by omega)]
    unfold Obs.reg
    by_cases hcnt : n < 0x1B0
    · rw [if_pos hcnt]
      split
      · rfl
      · split
        · exact hput _ _ (by omega) (by omega) (by omega) (by omega)
        · rfl
    · rw [if_neg hcnt]
      by_cases hedge : n < 0x1B8
      · rw [if_pos hedge]
        split
        · rfl
        · split
          · rfl
          · split
            · exact hput _ _ (by omega) (by omega) (by omega) (by omega)
            · rfl
      · rw [if_neg hedge]
        split
        · rfl
        · split
          · rfl
          · split
            · rfl
            · exact hput _ _ (by omega) (by omega) (by omega) (by omega)

/-! ### What setsr writes (R210, R250, R325, R360) -/

/-- The thread after setsr. -/
theorem State.setSreg_thread {s : State} {t : Nat} (n : Nat) (x : Word64) (hsome : (s.threads.find t).isSome) :
    let th := s.thread t
    (s.setSreg t n x).thread t = { th with
      sckNext := if n = 0x000 then some (x.getLsbD 0) else th.sckNext
      trap := if n = 0x091 then { th.trap with epc := (th.trap.epc &&& ~~~epcMask) ||| (x &&& epcMask) } else th.trap
      h0 := if n = 0x100 then x else th.h0
      h1 := if n = 0x101 then x else th.h1 } := by
  have hmod : ∀ f, (s.modThread t f).thread t = f (s.thread t) := fun f => (s.thread_modThread t t f hsome).trans (if_pos rfl)
  unfold State.setSreg
  dsimp only
  split
  · rw [hmod]; rfl
  · rfl
  · rfl
  · rw [hmod]; rfl
  · rw [hmod]; rfl
  · rw [hmod]; rfl
  · rfl
  · rename_i h000 h070 h090 h091 h100 h101 h102
    rw [if_neg h000, if_neg h091, if_neg h100, if_neg h101]
    split <;> rfl

/-- A context after setsr. -/
theorem State.setSreg_ctx (s : State) (t n c : Nat) (x : Word64) :
    (s.setSreg t n x).ctx c = { s.ctx c with
      trapVec := if n = 0x090 ∧ c = s.ctxOf t then x &&& vecMask else (s.ctx c).trapVec
      sigset := if n = 0x102 ∧ c = s.ctxOf t then x &&& 0x1FF else (s.ctx c).sigset } := by
  unfold State.setSreg
  dsimp only
  split
  · rfl
  · rfl
  · rw [State.ctx_modCtx]
    split
    · subst_vars; simp
    · rename_i h; simp [h]
  · rfl
  · rfl
  · rfl
  · rw [State.ctx_modCtx]
    split
    · subst_vars; simp
    · rename_i h; simp [h]
  · rename_i h000 h070 h090 h091 h100 h101 h102
    rw [if_neg (c := n = 0x090 ∧ c = s.ctxOf t) fun h => h090 h.1, if_neg (c := n = 0x102 ∧ c = s.ctxOf t) fun h => h102 h.1]
    split <;> rfl

theorem State.setSreg_works {s : State} {t n : Nat} (x : Word64) (hn : n ≠ 0x070) : (s.setSreg t n x).works = s.works := by
  unfold State.setSreg
  dsimp only
  split
  · rfl
  · exact absurd rfl hn
  · rfl
  · rfl
  · rfl
  · rfl
  · rfl
  · split <;> rfl

theorem State.setSreg_cores {s : State} {t n : Nat} (x : Word64) (hn : n ∈ [0x000, 0x070, 0x090, 0x091, 0x100, 0x101, 0x102]) :
    (s.setSreg t n x).cores = s.cores := by
  simp only [List.mem_cons, List.not_mem_nil, or_false] at hn
  rcases hn with rfl | rfl | rfl | rfl | rfl | rfl | rfl
  all_goals rfl

theorem State.work_modWork (s : State) (w : Nat) (f : Work → Work) (h : (s.works.find w).isSome) :
    (s.modWork w f).work w = f (s.work w) := by
  obtain ⟨x, hx⟩ := Option.isSome_iff_exists.mp h
  unfold State.work Tbl.getD
  rw [State.find_modWork, if_pos rfl, hx]
  rfl

/-- The counters that setsr does not write (R379, R382). -/
theorem State.setSreg_counterWord {s : State} {t i j : Nat} (x : Word64) (hi : sregAccess i = some true) (hj : sregAccess j = some true)
    (hcounter : 0x191 < j) (hne : j ≠ i) (hrun : ¬ (0x1A0 ≤ i ∧ i < 0x1A8 ∧ 0x1B8 ≤ j)) :
    (s.setSreg t i x).counterWord t j = s.counterWord t j := by
  have hsame : SameRegs s (s.setSreg t i x) t := s.setSreg_same t i x
  have hid : ((s.setSreg t i x).thread t).id = (s.thread t).id := hsame.field t Thread.id fun _ => rfl
  obtain ⟨hlow, hhigh⟩ : 0x1A0 ≤ j ∧ j ≤ 0x1BF := by
    rcases sregAccess_writable hj with h | h
    · simp only [List.mem_cons, List.not_mem_nil, or_false] at h; omega
    · exact h
  rcases sregAccess_writable hi with hnamed | ⟨hilow, hihigh⟩
  · have hcore : ∀ n, (s.setSreg t i x).core n = s.core n := fun n => by
      unfold State.core
      rw [State.setSreg_cores x hnamed, hsame.die]
    unfold State.counterWord
    simp only [hcore, hsame.gcore, hid, hsame.die, hsame.ctxOf]
  · cases horg : (s.die (s.thread t).id.die).org with
    | true => rw [State.setSreg_counter x hilow, if_pos horg]
    | false =>
      rw [State.counterWord_reg hlow (by rw [hid, hsame.die]; exact horg), State.counterWord_reg hlow horg, hsame.gcore,
        State.setSreg_counter x hilow, if_neg (by rw [horg]; exact Bool.noConfusion), State.core_modCore, if_pos rfl]
      exact Obs.reg_write_other _ x hilow hihigh hlow hhigh hne fun h => hrun ⟨hilow, h⟩

/-- A writable counter register reads back what was written, in organisation 0 (R379, R381). -/
theorem State.sreg_setSreg_counter {s : State} {t i : Nat} (x : Word64) (hlow : 0x1A0 ≤ i) (hhigh : i ≤ 0x1BF)
    (horg : (s.die (s.thread t).id.die).org = false) :
    (s.setSreg t i x).sreg t i = if i < 0x1A8 then x &&& ctlMask else x := by
  have hsame : SameRegs s (s.setSreg t i x) t := s.setSreg_same t i x
  have hid : ((s.setSreg t i x).thread t).id = (s.thread t).id := hsame.field t Thread.id fun _ => rfl
  rw [State.sreg_counter _ _ hlow hhigh, State.counterWord_reg hlow (by rw [hid, hsame.die]; exact horg), hsame.gcore,
    State.setSreg_counter x hlow, if_neg (by rw [horg]; exact Bool.noConfusion), State.core_modCore, if_pos rfl]
  exact Obs.reg_write_self _ x hlow hhigh

/-- A special register that setsr may write, but another one, reads as before (R210). -/
theorem State.sreg_setSreg_other {s : State} {t i j : Nat} (x : Word64) (hsome : (s.threads.find t).isSome)
    (hi : sregAccess i = some true) (hj : sregAccess j = some true) (hne : j ≠ i)
    (hrun : ¬ (0x1A0 ≤ i ∧ i < 0x1A8 ∧ 0x1B8 ≤ j)) : (s.setSreg t i x).sreg t j = s.sreg t j := by
  have hthread := s.setSreg_thread i x hsome
  have hctx := fun c => s.setSreg_ctx t i c x
  refine (s.setSreg_same t i x).sreg_eq ?sat ?vec ?epc ?h0 ?h1 ?sig fun hcounter _ => s.setSreg_counterWord x hi hj hcounter hne hrun
  case sat => rintro rfl; unfold State.work; rw [State.setSreg_works x (Ne.symm hne)]
  case vec => rintro rfl; rw [hctx]; exact if_neg fun h => hne h.1.symm
  case epc => rintro rfl; rw [hthread]; dsimp only; rw [if_neg (Ne.symm hne)]
  case h0 => rintro rfl; rw [hthread]; exact if_neg (Ne.symm hne)
  case h1 => rintro rfl; rw [hthread]; exact if_neg (Ne.symm hne)
  case sig => rintro rfl; rw [hctx]; exact if_neg fun h => hne h.1.symm

end Sys2Proof.Machine

namespace Sys2Proof.Claims
open Sys2Proof.Machine

/-- What setsr writes (R210). -/
theorem specialRegisters_hold : specialRegisters := by
  intro s t i x hsome hi th u org
  have hsame : SameRegs s u t := s.setSreg_same t i x
  have hthread : u.thread t = _ := s.setSreg_thread i x hsome
  have hctx : ∀ c, u.ctx c = _ := fun c => s.setSreg_ctx t i c x
  have hhigh : 0x1A0 ≤ i → i ≤ 0x1BF := fun hlow => by
    rcases sregAccess_writable hi with h | h
    · simp only [List.mem_cons, List.not_mem_nil, or_false] at h; omega
    · exact h.2
  refine ⟨?sck, ?sat, ?vec, ?epc, ?counts, ?sigset, ?banked, ?control, ?counter, fun j hj => hsame.sreg_readOnly hj,
    fun j hj hne hrun => s.sreg_setSreg_other x hsome hi hj hne hrun,
    fun k hk => hsame.others k hk, hsame.field t Thread.regs fun _ => rfl, hsame.field t Thread.pos fun _ => rfl,
    hsame.homes, hsame.groups, hsame.dies, hsame.dev, hsame.ops, hsame.cards⟩
  case sck =>
    rintro rfl
    have hsck : (u.thread t).sck = th.sck := hsame.field t Thread.sck fun _ => rfl
    refine ⟨by rw [hthread]; rfl, ?_⟩
    change (if (u.thread t).sck then 1 else 0) = if th.sck then (1 : Word64) else 0
    rw [hsck]
  case sat =>
    rintro rfl hwork
    have hset : u.work th.id.work = _ := s.work_modWork th.id.work _ hwork
    change (Tbl.getD (u.work th.id.work).sat th.gcore 0).setWidth 64 = _
    rw [hset]
    unfold Tbl.getD
    rw [Tbl.find_put_self]
    rfl
  case vec =>
    rintro rfl
    change (u.ctx (u.ctxOf t)).trapVec = _
    rw [hsame.ctxOf, hctx]
    exact if_pos ⟨rfl, rfl⟩
  case epc =>
    rintro rfl
    change (u.thread t).trap.epc = _
    rw [hthread]
    rfl
  case counts =>
    rintro (rfl | rfl)
    · change (u.thread t).h0 = _
      rw [hthread]
      rfl
    · change (u.thread t).h1 = _
      rw [hthread]
      rfl
  case sigset =>
    rintro rfl
    change (u.ctx (u.ctxOf t)).sigset = _
    rw [hsame.ctxOf, hctx]
    exact if_pos ⟨rfl, rfl⟩
  case banked => exact fun hlow horg => (s.setSreg_counter x hlow).trans (if_pos horg)
  case control => exact fun hlow hctl horg => (s.sreg_setSreg_counter x hlow (hhigh hlow) horg).trans (if_pos hctl)
  case counter =>
    exact fun hlow horg => (s.sreg_setSreg_counter x (by omega) (hhigh (by omega)) horg).trans (if_neg (by omega))

end Sys2Proof.Claims

end

section
/-! PROOFS. The family of faults: the image of a thread (R201, R236, R375), and what an access leaves of the threads (R71-R87, R144). -/

namespace Sys2Proof.Machine

/-! ### The image of a thread (R201, R236, R375) -/

theorem field_eq (v lo w : Nat) : field v lo w = v % 2 ^ w * 2 ^ lo := Nat.shiftLeft_eq _ _

/-- Bytes as a number: the sum of each with its weight. -/
theorem leVal_take (l : List Nat) (hl : ∀ b ∈ l, b < 256) (n : Nat) :
    leVal ((l.take n).map (BitVec.ofNat 8)) = ((List.range n).map fun j => l.getD j 0 * 256 ^ j).sum := by
  induction n generalizing l with
  | zero => rfl
  | succ n ih =>
    rw [List.range_succ_eq_map, List.map_cons, List.map_map, List.sum_cons]
    cases l with
    | nil => simp [leVal, Function.comp_def]
    | cons b l =>
      have hb : b % 2 ^ 8 = b := Nat.mod_eq_of_lt (hl b List.mem_cons_self)
      have hrest := ih l fun x hx => hl x (List.mem_cons_of_mem b hx)
      have hshift : ((List.range n).map ((fun j => (b :: l).getD j 0 * 256 ^ j) ∘ Nat.succ)) =
          (List.range n).map fun j => 256 * (l.getD j 0 * 256 ^ j) := List.map_congr_left fun j _ => by
        simp only [Function.comp, List.getD_cons_succ, Nat.succ_eq_add_one, pow_succ]; ring
      rw [hshift, List.sum_map_mul_left, ← hrest]
      simp only [List.take_succ_cons, List.map_cons, leVal, BitVec.toNat_ofNat, hb, List.getD_cons_zero]
      ring

theorem Entry.tag_lt (e : Entry) : e.tag < 256 := by
  have hres := e.res.isLt
  unfold Entry.tag Kind.code
  split
  · decide
  · split <;> omega

theorem leVal_tags (es : List Entry) (i : Nat) : leVal ((((es.map Entry.tag).drop (8 * i)).take 8).map (BitVec.ofNat 8)) =
    ((List.range 8).map fun j => (es.map Entry.tag).getD (8 * i + j) 0 * 256 ^ j).sum := by
  rw [leVal_take _ fun b hb => ?_]
  · refine congrArg List.sum (List.map_congr_left fun j _ => ?_)
    rw [List.getD_eq_getElem?_getD, List.getElem?_drop, ← List.getD_eq_getElem?_getD]
  · obtain ⟨e, -, rfl⟩ := List.mem_map.mp (List.mem_of_mem_drop hb)
    exact e.tag_lt

/-- The word of identity and control, with no predicate set to U. -/
theorem spawnCtl_eq (n grp tig : Nat) (sck : Bool) (p : Vector PCell 8) : spawnCtl n grp tig sck p 0 =
    n % 64 * 2 ^ 58 + (if sck then 2 ^ 57 else 0) +
      ((List.range 7).map fun i => (((p[i + 1]?).map PCell.v).getD Tri.F).code * 2 ^ (43 + 2 * i)).sum + grp % 64 * 2 ^ 37 + tig % 64 * 2 ^ 31 := by
  have hcode : ∀ i, field (if i + 1 = (0 : PReg).val then 2 else ((p[i + 1]?).map fun c => c.v.code).getD 0) (43 + 2 * i) 2 =
      (((p[i + 1]?).map PCell.v).getD Tri.F).code * 2 ^ (43 + 2 * i) := fun i => by
    rw [field_eq, if_neg (show i + 1 ≠ (0 : PReg).val from Nat.succ_ne_zero i)]
    cases p[i + 1]? with
    | none => rfl
    | some c =>
      have hlt : c.v.code < 2 ^ 2 := by cases c.v <;> decide
      exact congrArg (· * 2 ^ (43 + 2 * i)) (Nat.mod_eq_of_lt hlt)
  have hsck : field (if sck then 1 else 0) 57 1 = if sck then 2 ^ 57 else 0 := by cases sck <;> rfl
  unfold spawnCtl
  simp only [hcode, hsck, field_eq]
  omega

/-- The image that ctx.save writes is the record of R236 with the thread's own registers. -/
theorem spawnRecord_eq (s : State) (r : Regs) : spawnRecord (s.thread s.sched.cur) (s.groupOf s.sched.cur) (s.workOf s.sched.cur).team r 0 =
    Claims.childWith s r 0 := by
  have hpred : ∀ i, (if i + 1 = (0 : PReg).val then Tri.U else ((r.p[i + 1]?).map PCell.v).getD Tri.F).code =
      (((r.p[i + 1]?).map PCell.v).getD Tri.F).code := fun i => by rw [if_neg (show i + 1 ≠ (0 : PReg).val from Nat.succ_ne_zero i)]
  unfold spawnRecord Regs.image Claims.childWith
  dsimp only
  simp only [hpred, spawnCtl_eq, leVal_tags, List.append_assoc]
  rfl

/-! ### What an access's way leaves of the threads (R71-R87) -/

/-- What the shell of a word looks at in its thread: where it runs, and its trial. -/
def Thread.standing (th : Thread) : Ident × Option Trial := (th.id, th.trial)

/-- The states agree in whose turn it is, and in each thread's identity and trial. -/
structure Stands (s u : State) : Prop where
  cur : u.sched.cur = s.sched.cur
  threads : ∀ k, (u.threads.find k).map Thread.standing = (s.threads.find k).map Thread.standing

theorem Stands.refl (s : State) : Stands s s := ⟨rfl, fun _ => rfl⟩

theorem Stands.trans {s u v : State} (h : Stands s u) (k : Stands u v) : Stands s v :=
  ⟨k.cur.trans h.cur, fun i => (k.threads i).trans (h.threads i)⟩

theorem Stands.of_eq {s u : State} (hcur : u.sched.cur = s.sched.cur) (hthreads : u.threads = s.threads) : Stands s u :=
  ⟨hcur, fun k => by rw [hthreads]⟩

theorem Stands.modThread (s : State) (t : Nat) (f : Thread → Thread) (hf : ∀ th, (f th).standing = th.standing) :
    Stands s (s.modThread t f) := by
  refine ⟨rfl, fun k => ?_⟩
  rw [State.find_modThread]
  split
  · rw [Option.map_map]
    exact congrArg (fun g => (s.threads.find k).map g) (funext hf)
  · rfl

theorem Stands.modCore (s : State) (n : Nat) (f : Core → Core) : Stands s (s.modCore n f) := .of_eq rfl rfl

theorem Stands.modDie (s : State) (d : Nat) (f : Die → Die) : Stands s (s.modDie d f) := .of_eq rfl rfl

theorem Stands.modHomes (s : State) (f : Homes → Homes) : Stands s (s.modHomes f) := .of_eq rfl rfl

theorem Stands.modDev (s : State) (f : Device → Device) : Stands s (s.modDev f) := .of_eq rfl rfl

theorem Stands.draw (s : State) (n : Nat) : Stands s (s.modSched fun c => { c with draw := n }) := .of_eq rfl rfl

theorem Stands.foldl {α : Type} {f : State → α → State} (hf : ∀ s x, Stands s (f s x)) (xs : List α) (s : State) :
    Stands s (xs.foldl f s) := by
  induction xs generalizing s with
  | nil => exact Stands.refl s
  | cons x xs ih => exact (hf s x).trans (ih _)

theorem Stands.isSome {s u : State} (h : Stands s u) (k : Nat) : (u.threads.find k).isSome = (s.threads.find k).isSome := by
  have := congrArg Option.isSome (h.threads k)
  rwa [Option.isSome_map, Option.isSome_map] at this

theorem Stands.standing {s u : State} (h : Stands s u) (k : Nat) : (u.thread k).standing = (s.thread k).standing := by
  have hget : ∀ o : Option Thread, (o.getD Thread.blank).standing = (o.map Thread.standing).getD Thread.blank.standing := fun o => by
    rw [Option.getD_map]
  unfold State.thread Tbl.getD
  rw [hget, hget, h.threads k]

theorem Stands.id {s u : State} (h : Stands s u) (k : Nat) : (u.thread k).id = (s.thread k).id := congrArg Prod.fst (h.standing k)

theorem Stands.trial {s u : State} (h : Stands s u) (k : Nat) : (u.thread k).trial = (s.thread k).trial :=
  congrArg Prod.snd (h.standing k)

theorem Stands.inTrial {s u : State} (h : Stands s u) (k : Nat) : (u.thread k).inTrial = (s.thread k).inTrial := by
  unfold Thread.inTrial
  rw [h.trial k]

theorem Reads.stands {s u : State} (h : Reads s u) : Stands s u := by
  refine ⟨h.cur, fun k => ?_⟩
  have hpart : ∀ o : Option Thread, o.map Thread.standing = (o.map Thread.unread).map Thread.standing := fun o => by
    rw [Option.map_map]; rfl
  rw [hpart, hpart (s.threads.find k), h.threads k]

theorem Stands.bind {α β : Type} {m : M α} {f : α → M β} (hm : Gives m Stands) (hf : ∀ a, Gives (f a) Stands) :
    Gives (m >>= f) Stands := Gives.bind (R := Stands) (fun h k => Stands.trans h k) hm hf

theorem Stands.pure {α : Type} (a : α) : Gives (pure a : M α) Stands := Gives.pure Stands.refl a

theorem Stands.get : Gives (get : M State) Stands := Gives.get Stands.refl

theorem Gives.faultAt_bind {α β : Type} {R : State → State → Prop} (c : Cause) (v : Nat) (f : α → M β) :
    Gives (Machine.faultAt c v >>= f) R := by
  intro s a s' h; cases h

theorem Stands.mapM {α β : Type} {f : α → M β} (hf : ∀ a, Gives (f a) Stands) (xs : List α) : Gives (xs.mapM f) Stands := by
  induction xs with
  | nil => exact Stands.pure _
  | cons x xs ih =>
    rw [List.mapM_cons]
    exact Stands.bind (hf x) fun _ => Stands.bind ih fun _ => Stands.pure _

/-! ### Translation (R77-R84) -/

theorem Stands.lineMiss (s : State) (t line lvl : Nat) : Stands s (s.lineMiss t line lvl) := by
  have hmark : Stands s (if (s.thread t).missed.contains (2 * line + lvl) then s
      else s.modThread t fun th => { th with missed := (2 * line + lvl) :: th.missed }) := by
    split
    · exact Stands.refl s
    · exact Stands.modThread _ _ _ fun _ => rfl
  unfold State.lineMiss
  dsimp only
  split
  · exact hmark
  · exact hmark.trans (Stands.of_eq rfl rfl)

theorem Stands.fillTlb (s : State) (gc ctx va : Nat) : Stands s (s.fillTlb gc ctx va) := by
  unfold State.fillTlb
  split
  · exact Stands.of_eq rfl rfl
  · exact Stands.refl s

theorem Stands.noteMisses (s : State) (t va : Nat) (k : Xkind) : Stands s (s.noteMisses t va k) := by
  unfold State.noteMisses
  dsimp only
  split
  · split
    · exact (Stands.lineMiss s t _ _).trans (Stands.lineMiss _ t _ _)
    · exact Stands.lineMiss s t _ _
  · exact Stands.refl s

theorem translate_gives (t va : Nat) (k : Xkind) : Gives (translate t va k) Stands := by
  intro s x s' h
  unfold translate at h
  rw [M.get_bind] at h
  dsimp only at h
  cases hx : (s.thread t).xlat.find? fun x => x.1 == va / 65536 with
  | some c => rw [hx] at h; cases h
  | none =>
    rw [hx] at h
    dsimp only at h
    cases hl1 : lookIn (s.core (s.thread t).gcore).tlb (s.ctxOf t) va k with
    | ok y => rw [hl1] at h; cases h; exact Stands.refl s
    | bad c => rw [hl1] at h; cases h
    | miss =>
      rw [hl1] at h
      dsimp only at h
      cases hl2 : (s.lineMiss t (va / 256) 0).look (s.thread t).id.die (s.ctxOf t) va k with
      | ok y =>
        rw [hl2] at h
        cases h
        exact (Stands.lineMiss s t _ _).trans (Stands.fillTlb _ _ _ _)
      | bad c => rw [hl2] at h; cases h
      | miss =>
        rw [hl2] at h
        dsimp only at h
        split at h <;> cases h

theorem Stands.noteReplica (s : State) (die line : Nat) (dup : Bool) : Stands s (s.noteReplica die line dup) := by
  unfold State.noteReplica
  dsimp only
  split
  · exact Stands.refl s
  · split
    · exact Stands.refl s
    · split
      · exact Stands.of_eq rfl rfl
      · exact Stands.refl s

theorem placePart_gives (t : Nat) (p : Placed) (k : Xkind) (l1 : Bool) (va off n : Nat) : Gives (placePart t p k l1 va off n) Stands := by
  unfold placePart
  refine Stands.bind Stands.get fun s => ?_
  dsimp only
  split
  · exact Stands.pure _
  · refine Stands.bind (translate_gives t va k) fun y => ?_
    refine Gives.ite _ (Stands.bind (Gives.modify _ fun s => Stands.noteReplica _ _ _ _) fun _ => Stands.pure _) (Stands.pure _)

/-! ### Codes, poison and other devices (R105, R128-R130, R147) -/

theorem Stands.poisonLine (s : State) (line : Nat) : Stands s (s.poisonLine line) := by
  unfold State.poisonLine State.putCode
  dsimp only
  split
  · split <;> exact Stands.of_eq rfl rfl
  · exact Stands.of_eq rfl rfl

theorem Stands.devWrite (s : State) (ctx pa : Nat) (bs : List Byte) : Stands s (s.devWrite ctx pa bs) := by
  refine Stands.of_eq ?_ (State.devWrite_threads _ _ _ _)
  unfold State.devWrite
  split <;> rfl

theorem Stands.postQ (s : State) (ctx : Nat) (r : FaultRec) : Stands s (s.postQ ctx r) := by
  unfold State.postQ
  dsimp only
  split
  · split
    · exact (Stands.of_eq rfl rfl : Stands s (s.modCtx ctx _)).trans (Stands.devWrite _ _ _ _)
    · exact Stands.of_eq rfl rfl
  · exact Stands.of_eq rfl rfl

theorem Stands.metaWord (s : State) (ctx line : Nat) : Stands s (s.metaWord ctx line) := by
  unfold State.metaWord
  dsimp only
  generalize List.range 16 = lines
  refine (Stands.foldl (fun s i => Stands.poisonLine s (line / 16 * 16 + i)) lines s).trans ?_
  exact (Stands.modDev _ _).trans (Stands.postQ _ _ _)

theorem Stands.codeCheck (s : State) (ctx line : Nat) : Stands s (s.codeCheck ctx line) := by
  unfold State.codeCheck
  generalize (l2Index line).1 = slice
  split
  · exact Stands.refl s
  · split
    · exact Stands.refl s
    · dsimp only
      generalize (if line % 2 = 0 then _ else _ : Nat) = code
      split
      · exact (Stands.modDie s _ _).trans (Stands.metaWord _ _ _)
      · split
        · exact (Stands.modDie s _ _).trans (Stands.modHomes _ _)
        · exact Stands.modDie s _ _

theorem askFar_gives (rd : Bool) (dev : Nat) (v : ReadAs) : Gives (askFar rd dev v) Stands := by
  unfold askFar
  refine Gives.getBind fun s c s' h => ?_
  have hstands : Stands s (s.askFar rd dev v).2 := by
    unfold State.askFar
    dsimp only
    split
    · exact Stands.of_eq rfl rfl
    · split
      · exact Stands.of_eq rfl rfl
      · split
        · exact Stands.of_eq rfl rfl
        · split <;> exact Stands.of_eq rfl rfl
  cases h
  exact hstands

theorem placeXlat_gives (t : Nat) (p : Placed) (k : Xkind) (l1 : Bool) : Gives (placeXlat t p k l1) Stands := by
  unfold placeXlat
  dsimp only
  split
  · refine Stands.bind (Stands.mapM (fun c => placePart_gives t p k l1 _ _ _) _) fun qs => Gives.ite _ ?_ (Stands.pure _)
    refine Stands.bind (Gives.modify _ fun s => Stands.foldl (fun s l => Stands.codeCheck s _ l) _ s) fun _ => ?_
    refine Stands.bind Stands.get fun s => ?_
    split
    · exact Gives.faultAt_bind _ _ _
    · exact Stands.pure _
  · refine Stands.bind Stands.get fun s => Gives.ite _ ?_ (Stands.pure _)
    split
    · exact Gives.faultAt_bind _ _ _
    · exact Stands.pure _
  · exact Stands.pure _
  · split
    · exact Gives.faultAt_bind _ _ _
    · refine Stands.bind Stands.get fun s => Gives.ite _ (Gives.faultAt_bind _ _ _) (Stands.bind (askFar_gives _ _ _) fun c => ?_)
      split
      · exact Gives.faultAt_bind _ _ _
      · exact Stands.pure _

/-! ### Issuing a write (R86, R101, R107) -/

theorem Gives.wait_bind {α β : Type} {R : State → State → Prop} (l : BitVec 4) (w : Wake) (f : α → M β) :
    Gives (Machine.wait l w >>= f) R := by
  intro s a s' h; cases h

theorem Gives.faultAt {α : Type} {R : State → State → Prop} (c : Cause) (v : Nat) : Gives (Machine.faultAt c v : M α) R := by
  intro s a s' h; cases h

theorem Stands.getT (t : Nat) : Gives (getT t) Stands := by
  intro s th s' h
  cases h
  exact Stands.refl s

theorem raiseSt_gives (t : Nat) : Gives (raiseSt t) Stands := by
  unfold raiseSt
  refine Stands.bind (Stands.getT t) fun s => Gives.ite _ (Gives.wait_bind _ _ _) ?_
  exact Gives.modify _ fun s => Stands.modThread _ _ _ fun _ => rfl

theorem launchOp_gives (f : Nat → State → MemOp) : Gives (launchOp f) Stands := by
  intro s i s' h
  cases h
  exact Stands.of_eq rfl rfl

theorem goesToSide_gives (t : Nat) (p : Placed) : Gives (goesToSide t p) Stands := by
  unfold goesToSide
  refine Stands.bind Stands.get fun s => ?_
  dsimp only
  refine Gives.ite _ (Stands.pure _) ?_
  split
  · split
    · exact Gives.faultAt_bind _ _ _
    · exact Stands.pure _
  · split
    · exact Gives.faultAt _ _
    · refine Gives.ite _ (Stands.bind (Gives.modify _ fun s => ?_) fun _ => Stands.pure _) (Stands.pure _)
      exact Stands.foldl (fun s va => Stands.noteMisses s t va .write) _ s

theorem sideLog_gives (t : Nat) (tb : Rec) (p : Placed) (va : List (Nat × Nat)) (bs : List Byte) (act : List Byte → Act) (h : Hint) :
    Gives (sideLog t tb p va bs act h) Stands := by
  unfold sideLog
  refine Stands.bind Stands.get fun s => ?_
  dsimp only
  refine Gives.ite _ (Gives.wait_bind _ _ _) (Gives.ite _ (Gives.wait_bind _ _ _) ?_)
  refine Stands.bind (Stands.mapM (fun l => ?_) _) fun _ => ?_
  · refine Stands.bind (raiseSt_gives t) fun _ => Stands.bind (launchOp_gives _) fun i => ?_
    exact Gives.modify _ fun s => Stands.modCore _ _ _
  · exact Gives.modify _ fun s => Stands.foldl (fun s _ => Stands.modCore s _ _) _ s

theorem unversioned_gives (h : Home) (a : Access) : Gives (unversioned h a) Stands := by
  intro s v s' hrun
  cases h <;> cases hrun
  case remote => exact Stands.draw s _
  all_goals exact Stands.refl s

/-- Of this device's pages, asking whether they are versioned changes nothing. -/
theorem unversioned_still {h : Home} (hnear : ∀ d, h ≠ .remote d) (a : Access) (s : State) : ∃ v, unversioned h a s = .ok v s := by
  cases h with
  | remote d => exact absurd rfl (hnear d)
  | main => exact ⟨_, rfl⟩
  | scratch => exact ⟨_, rfl⟩
  | host => exact ⟨_, rfl⟩

theorem raiseSt_run {s : State} {t : Nat} (h : (s.thread t).cnt.st < 255) : raiseSt t s = .ok () (Claims.storeMore s t) := by
  unfold raiseSt
  rw [M.bind_of_ok (M.getT_run s t), if_neg (Nat.not_le.mpr h)]
  rfl

/-- What an operation takes from its thread is its identity, its trial and its word. -/
theorem mkOp_modThread (s : State) (t : Nat) (f : Thread → Thread) (hstand : ∀ th, (f th).standing = th.standing)
    (hbundle : ∀ th, (f th).bundle = th.bundle) (tb : Nat) (a : Access) (act : Act) (h : Hint) (tok : Nat) (blocking : Bool) :
    mkOp (s.modThread t f) t tb a act h tok blocking = mkOp s t tb a act h tok blocking := by
  have hstands := Stands.modThread s t f hstand
  have hb : ((s.modThread t f).thread t).bundle = (s.thread t).bundle := s.field_modThread t t f Thread.bundle hbundle
  unfold mkOp State.ctxOf State.workOf State.wordKey
  simp only [hstands.id, hstands.inTrial, hb]
  rfl

theorem mkOp_storeMore (s : State) (t tb : Nat) (a : Access) (act : Act) (h : Hint) (tok : Nat) (blocking : Bool) :
    mkOp (Claims.storeMore s t) t tb a act h tok blocking = mkOp s t tb a act h tok blocking :=
  mkOp_modThread s t _ (by exact fun _ => rfl) (by exact fun _ => rfl) tb a act h tok blocking

theorem mkOp_loadMore (s : State) (t tb : Nat) (a : Access) (act : Act) (h : Hint) (tok : Nat) (blocking : Bool) :
    mkOp (Claims.loadMore s t) t tb a act h tok blocking = mkOp s t tb a act h tok blocking :=
  mkOp_modThread s t _ (by exact fun _ => rfl) (by exact fun _ => rfl) tb a act h tok blocking

theorem Stands.storeMore (s : State) (t : Nat) : Stands s (Claims.storeMore s t) := Stands.modThread s t _ fun _ => rfl

theorem Stands.loadMore (s : State) (t : Nat) : Stands s (Claims.loadMore s t) := Stands.modThread s t _ fun _ => rfl

theorem Stands.sent (s : State) (o : MemOp) : Stands s (Claims.sent s o) := .of_eq rfl rfl

/-- An operation is put in flight under the token that it is made with. -/
theorem launchOp_run (s : State) (t tb : Nat) (a : Access) (act : Act) (h : Hint) (blocking : Bool) :
    launchOp (fun i s => mkOp s t tb a act h i blocking) s =
      .ok s.sched.nextId (Claims.sent s (mkOp s t tb a act h s.sched.nextId blocking)) := rfl

/-- A write that no side log takes, whose translation passes, goes out to memory. -/
theorem issueWrite_sends {s s4 s5 : State} {t : Nat} {tb : Rec} {p : Placed} {bs : List Byte} {act : List Byte → Act} {h : Hint}
    {tx : Option Nat} {a : Access} {b : Bool} (hside : goesToSide t p s = .ok false s)
    (hxlat : placeXlat t p .write false s = .ok a s4) (hver : unversioned p.home a s4 = .ok b s5) (hkept : (tx.isSome && b) = false)
    (hst : (s5.thread t).cnt.st < 255) (hlone : (s5.thread t).inTrial = false) :
    issueWrite t tb p bs act h tx s = .ok () (Claims.sent (Claims.storeMore s5 t)
      (mkOp s5 t tb.val { a with view := Claims.writeView t p.view tx } (act bs) h s5.sched.nextId false)) := by
  have hquiet : ((Claims.storeMore s5 t).thread t).inTrial = false := ((Stands.storeMore s5 t).inTrial t).trans hlone
  unfold issueWrite
  dsimp only
  rw [M.bind_of_ok hside, if_neg Bool.false_ne_true, M.bind_of_ok hxlat, M.bind_of_ok hver, hkept, if_neg Bool.false_ne_true,
    M.bind_of_ok (raiseSt_run hst), M.bind_of_ok (M.getT_run _ t), hquiet]
  rw [M.bind_of_ok (launchOp_run _ _ _ _ _ _ _), if_neg Bool.false_ne_true, mkOp_storeMore]
  refine congrArg (fun v => EStateM.Result.ok () (Claims.sent (Claims.storeMore s5 t)
    (mkOp s5 t tb.val { a with view := v } (act bs) h s5.sched.nextId false))) ?_
  cases tx with
  | some st => rfl
  | none => cases p.view <;> rfl

/-! ### The checks of an access (R144, R164) -/

theorem Looks.bind {α β : Type} {m : M α} {f : α → M β} (hm : Looks m) (hf : ∀ a, Looks (f a)) : Looks (m >>= f) := by
  intro s v s' h
  obtain ⟨a, u, hu, hrest⟩ := M.bind_ok h
  exact (hf a _ _ _ hrest).trans (hm _ _ _ hu)

theorem Looks.get : Looks (get : M State) := fun _ _ _ h => by cases h; rfl

theorem Looks.faultAt {α : Type} (c : Cause) (v : Nat) : Looks (Machine.faultAt c v : M α) := fun _ _ _ h => by cases h

theorem Looks.faultAt_bind {α β : Type} (c : Cause) (v : Nat) (f : α → M β) : Looks (Machine.faultAt c v >>= f) :=
  fun _ _ _ h => by cases h

theorem Looks.fault_bind {α β : Type} (c : Cause) (f : α → M β) : Looks (Machine.fault c >>= f) := fun _ _ _ h => by cases h

theorem checkRecord_looks (t : Nat) (r : RecF) (x : Rights) (supports : Home → Bool) (val : Nat) :
    Looks (checkRecord t r x supports val) := by
  unfold checkRecord
  refine Looks.bind Looks.get fun s => Looks.ite _ (Looks.faultAt_bind _ _ _) (Looks.ite _ (Looks.fault_bind _ _) ?_)
  dsimp only
  split
  · exact Looks.ite _ (Looks.faultAt_bind _ _ _) (Looks.ite _ (Looks.faultAt_bind _ _ _) (Looks.pure _))
  · exact Looks.faultAt_bind _ _ _

theorem checkPlace_looks (t : Nat) (r : RecF) (h : Home) (L n algn : Nat) : Looks (checkPlace t r h L n algn) := by
  unfold checkPlace
  refine Looks.bind Looks.get fun s => Looks.ite _ (Looks.faultAt_bind _ _ _) ?_
  dsimp only
  split
  · exact Looks.faultAt _ _
  · exact Looks.pure _

/-- The checks of an access keep the record's words with the thread, and change nothing else. -/
theorem placeAccess_keeps {s u : State} {t : Nat} {tb : Rec} {ix : Val} {L : RecF → Nat → Nat} {n algn : Nat} {linear : RecF → Bool}
    {x : Rights} {supports : Home → Bool} {p : Placed}
    (h : placeAccess t tb ix L n algn linear x supports (pure ()) s = .ok p u) :
    u = s.modThread t fun th => { th with checked := some (s.recBits t tb.val) } := by
  unfold placeAccess at h
  rw [M.get_bind] at h
  dsimp only at h
  cases hlinear : linear (recF (s.recBits t tb.val)) with
  | false => rw [hlinear] at h; cases h
  | true =>
    rw [hlinear, if_neg (by decide)] at h
    obtain ⟨hv, u1, hrecord, h⟩ := M.bind_ok h
    cases checkRecord_looks _ _ _ _ _ _ _ _ hrecord
    cases hindex : ix.index with
    | none => rw [hindex] at h; cases h
    | some i =>
      rw [hindex] at h
      obtain ⟨j, u2, hj, h⟩ := M.bind_ok h
      cases hj
      obtain ⟨⟨⟩, u3, hdata, h⟩ := M.bind_ok h
      cases hdata
      obtain ⟨cs, u4, hplace, h⟩ := M.bind_ok h
      cases checkPlace_looks _ _ _ _ _ _ _ _ _ hplace
      cases h
      rfl

end Sys2Proof.Machine

end

section
/-! PROOFS. The family of faults: ctx.save and ctx.load (R375). -/

namespace Sys2Proof.Machine

/-! ### ctx.save (R375) -/

theorem Regs.coming_none {r : Regs} {lc : Nat} (hentries : ∀ e ∈ r.k.toList ++ r.q.toList, e.wait = none ∧ e.ready ≤ lc)
    (hpreds : ∀ c ∈ r.p.toList, c.wait = none ∧ c.ready ≤ lc) : r.coming lc = none := by
  have hwait : ((r.k.toList ++ r.q.toList).filterMap fun e => e.wait.map (·.1)) = [] :=
    List.filterMap_eq_nil_iff.mpr fun e he => by rw [(hentries e he).1]; rfl
  have hpwait : (r.p.toList.filterMap fun c => c.wait.map (·.1)) = [] :=
    List.filterMap_eq_nil_iff.mpr fun c hc => by rw [(hpreds c hc).1]; rfl
  have hready : ((r.k.toList ++ r.q.toList).any fun e => decide (lc < e.ready)) = false :=
    List.any_eq_false.mpr fun e he => by simpa using (hentries e he).2
  have hpready : (r.p.toList.any fun c => decide (lc < c.ready)) = false :=
    List.any_eq_false.mpr fun c hc => by simpa using (hpreds c hc).2
  unfold Regs.coming
  dsimp only
  rw [hwait, hpwait, hready, hpready]
  rfl

/-- What neither reading a source nor an access's checks change of a thread. -/
theorem placed_field {s s1 s2 : State} {t : Nat} {b : Option (BitVec 512)} {γ : Type} (hr : Reads s s1)
    (hs2 : s2 = s1.modThread t fun th => { th with checked := b }) (k : Nat) (f : Thread → γ)
    (hread : ∀ th : Thread, f th.unread = f th) (hchecked : ∀ (th : Thread) b, f { th with checked := b } = f th) :
    f (s2.thread k) = f (s.thread k) := by
  rw [hs2]
  exact (s1.field_modThread t k _ f fun th => hchecked th b).trans (hr.field k f hread)

/-- The image of R375 is the record of R236 for a child with the thread's own registers, its destination as saved. -/
theorem contextImage_eq (s : State) (d : Dst) (r : Regs) :
    contextImage (s.thread s.sched.cur) (s.groupOf s.sched.cur) (s.workOf s.sched.cur).team (r.saved d) =
      ((Claims.childWith s (Claims.asSaved r d) 0).map fun w => leBytes 8 w.toNat).flatten := by
  unfold contextImage
  rw [spawnRecord_eq]
  cases d <;> rfl

theorem childWith_length (s : State) (r : Regs) (p : PReg) : (Claims.childWith s r p).length = 64 := by
  unfold Claims.childWith
  simp

theorem image_length (ws : List Word64) : ((ws.map fun w => leBytes 8 w.toNat).flatten).length = 8 * ws.length := by
  induction ws with
  | nil => rfl
  | cons w ws ih =>
    rw [List.map_cons, List.flatten_cons, List.length_append, leBytes_length, ih, List.length_cons]
    ring

theorem txStamp_run (s : State) (t view : Nat) : txStamp t view s =
    .ok (if view = 2 then ((s.thread t).view.filter (·.tx)).map (·.stamp) else none) s := by
  unfold txStamp
  rw [M.bind_of_ok (M.getT_run s t), ite_not]
  rfl

theorem childWith_congr {s u : State} (hcur : u.sched.cur = s.sched.cur)
    (hhead : (u.thread s.sched.cur).nextHeader = (s.thread s.sched.cur).nextHeader)
    (hid : (u.thread s.sched.cur).id = (s.thread s.sched.cur).id) (hsck : (u.thread s.sched.cur).sck = (s.thread s.sched.cur).sck)
    (hgroups : u.groups = s.groups) (hteam : (u.workOf s.sched.cur).team = (s.workOf s.sched.cur).team) (r : Regs) (p : PReg) :
    Claims.childWith u r p = Claims.childWith s r p := by
  unfold Claims.childWith State.groupOf State.group
  dsimp only
  rw [hcur, hhead, hid, hsck, hgroups, hteam]

/-- The image that ctx.save computes past its checks is the one that its thread had before it. -/
theorem savedImage_eq {s s1 s2 : State} {b : Option (BitVec 512)} (hr : Reads s s1)
    (hs2 : s2 = s1.modThread s.sched.cur fun th => { th with checked := b }) (d : Dst) :
    contextImage (s2.thread s.sched.cur) (s2.groupOf s.sched.cur) (s2.workOf s.sched.cur).team
        ((s2.thread s.sched.cur).regs.saved d) =
      ((Claims.childWith s (Claims.asSaved (s.thread s.sched.cur).regs d) 0).map fun w => leBytes 8 w.toNat).flatten := by
  have hfield : ∀ {γ : Type} (f : Thread → γ), (∀ th : Thread, f th.unread = f th) →
      (∀ (th : Thread) c, f { th with checked := c } = f th) → f (s2.thread s.sched.cur) = f (s.thread s.sched.cur) :=
    fun f => placed_field hr hs2 _ f
  have hcur : s2.sched.cur = s.sched.cur := by rw [hs2]; exact hr.cur
  have hid := hfield Thread.id (fun _ => rfl) fun _ _ => rfl
  have hregs := hfield Thread.regs (fun _ => rfl) fun _ _ => rfl
  have hteam : (s2.workOf s.sched.cur).team = (s.workOf s.sched.cur).team := by
    have hworks : s2.works = s1.works := by rw [hs2]; rfl
    have hpart : ∀ o : Option Work, (o.getD Work.blank).team = ((o.map Work.shown).getD Work.blank.shown).team := fun o => by
      rw [Option.getD_map]; rfl
    unfold State.workOf State.work Tbl.getD
    rw [hid, hworks, hpart, hr.works, ← hpart]
  have himage := contextImage_eq s2 d (s2.thread s.sched.cur).regs
  rw [hcur] at himage
  rw [himage, hregs, childWith_congr hcur (hfield Thread.nextHeader (fun _ => rfl) fun _ _ => rfl) hid
    (hfield Thread.sck (fun _ => rfl) fun _ _ => rfl) (by rw [hs2]; exact hr.groups) hteam]

/-- A thread's own result leaves its word room where it had it. -/
theorem State.roomy_gives {s : State} (d : Dst) (es : List Entry) (h : s.roomy) : (s.gives d es).roomy := by
  obtain ⟨hretry, hfull⟩ := h
  have hstands : Stands s (s.gives d es) := Stands.modThread s _ _ fun _ => rfl
  have hsame : ∀ w, (s.gives d es).overfull w = s.overfull w := fun _ => rfl
  refine ⟨?_, ?_⟩
  · exact (s.field_modThread _ _ (fun th => th.modRegs fun r => r.put d es) Thread.retry fun _ => rfl).trans hretry
  · rw [hsame, hstands.cur, hstands.id]
    exact hfull

/-- ctx.save does, past its checks, what its write does, and gives 0. -/
theorem ctxSaveBody_run {s s1 s2 u : State} {h : Hint} {d : Dst} {tb : Rec} {x : Src} {t : Nat} {ix : Val} {p : Placed}
    {bs : List Byte} (hld : (s.thread t).cnt.ld = 0) (hcoming : (s.thread t).regs.coming (s.lcOf t) = none)
    (hread : readSrc t .raw false x s = .ok ix s1)
    (hplace : placeAccess t tb ix imageOff 512 16 linearRec wrRights anyHome (pure ()) s1 = .ok p s2)
    (himage : contextImage (s2.thread t) (s2.groupOf t) (s2.workOf t).team ((s2.thread t).regs.saved d) = bs)
    (hissue : issueWrite t tb p bs (fun b => .store b (8 * b.length)) h
      (if p.r.view = 2 then ((s2.thread t).view.filter (·.tx)).map (·.stamp) else none) s2 = .ok () u)
    (hretry : (u.thread t).retry = 0) : ctxSaveBody h d tb x t s = .ok (oneBeat, false)
      (u.modThread t fun th => th.modRegs fun r => r.put d [Entry.mk' 0 .i32 (u.readyAt t 0)]) := by
  refine plain_of_ok ?_
  rw [M.bind_of_ok (M.getT_run s t), if_neg (not_not_intro hld)]
  dsimp only
  rw [M.get_bind, hcoming]
  dsimp only
  rw [M.bind_of_ok hread, M.bind_of_ok hplace, M.get_bind, himage, M.bind_of_ok (txStamp_run s2 t _), M.bind_of_ok hissue]
  exact writeVals_run d [(0, .i32)] 0 hretry

/-- ctx.save whose write has been handed to memory passes, and gives 0. -/
theorem execCtxSave_passes {s s1 s2 u : State} {h : Hint} {d : Dst} {tb : Rec} {x : Src} {ix : Val} {p : Placed}
    (ha : s.able false true false [tb]) (hld : (s.thread s.sched.cur).cnt.ld = 0)
    (hentries : ∀ e ∈ (s.thread s.sched.cur).regs.k.toList ++ (s.thread s.sched.cur).regs.q.toList,
      e.wait = none ∧ e.ready ≤ s.lcOf s.sched.cur)
    (hpreds : ∀ c ∈ (s.thread s.sched.cur).regs.p.toList, c.wait = none ∧ c.ready ≤ s.lcOf s.sched.cur)
    (hread : readSrc s.sched.cur .raw false x s = .ok ix s1)
    (hplace : placeAccess s.sched.cur tb ix imageOff 512 16 linearRec wrRights anyHome (pure ()) s1 = .ok p s2)
    (hissue : issueWrite s.sched.cur tb p
      ((Claims.childWith s (Claims.asSaved (s.thread s.sched.cur).regs d) 0).map fun w => leBytes 8 w.toNat).flatten
      (fun b => .store b (8 * b.length)) h (Claims.txOf s2 p.r.view) s2 = .ok () u)
    (hstands : Stands s u) (hroom : u.roomy) : ∃ s', exec (.ctxSave h d tb x) s = .next s' ∧
      Passes (u.gives d [Entry.mk' 0 .i32 (u.after 0)]) s' (litWords [x]) := by
  have hr : Reads s s1 := readSrc_gives _ _ _ _ _ _ _ hread
  have hs2 := placeAccess_keeps hplace
  have hcur2 : s2.sched.cur = s.sched.cur := by rw [hs2]; exact hr.cur
  have hcur := hstands.cur
  unfold Claims.txOf at hissue
  rw [hcur2] at hissue
  have hbody := ctxSaveBody_run (d := d) hld (Regs.coming_none hentries hpreds) hread hplace (savedImage_eq hr hs2 d) hissue
    (hcur ▸ hroom.1)
  have hgives : Stands u (u.gives d [Entry.mk' 0 .i32 (u.after 0)]) := Stands.modThread u _ _ fun _ => rfl
  have hall := hstands.trans hgives
  refine ⟨_, rfl, runWord_stays (sh := shC tb x) ha hall.cur (State.roomy_gives d _ hroom) ?_ ?_ ?_ (k := oneBeat)⟩
  · rw [hall.cur]; exact hall.id _
  · rw [hall.cur]; exact hall.trial _
  · unfold State.gives State.modRegs State.after
    rw [hcur]
    exact hbody

/-- A write that its core's side log takes is in it (R86). -/
theorem issueWrite_sides {s s4 s5 : State} {t : Nat} {tb : Rec} {p : Placed} {bs : List Byte} {act : List Byte → Act} {h : Hint}
    {tx : Option Nat} (hside : goesToSide t p s = .ok true s4)
    (hlog : sideLog t tb { p with view := Claims.writeView t p.view tx } (p.cs.map fun c => (p.r.base + c.1, c.2)) bs act h s4 = .ok () s5) :
    issueWrite t tb p bs act h tx s = .ok () s5 := by
  unfold issueWrite
  dsimp only
  rw [M.bind_of_ok hside, if_pos rfl, ← hlog]
  refine congrArg (fun v => sideLog t tb { p with view := v } (p.cs.map fun c => (p.r.base + c.1, c.2)) bs act h s4) ?_
  cases tx with
  | some st => rfl
  | none => cases p.view <;> rfl

theorem savedImage_length (s : State) (r : Regs) (p : PReg) :
    8 * (((Claims.childWith s r p).map fun w => leBytes 8 w.toNat).flatten).length = 4096 := by
  rw [image_length, childWith_length]

/-- Reading its operand and checking its access leave each thread's identity and trial. -/
theorem stands_of_placed {s s1 s2 : State} {t : Nat} {rd : Reading} {cp : Bool} {x : Src} {ix : Val} {tb : Rec} {L : RecF → Nat → Nat}
    {n algn : Nat} {linear : RecF → Bool} {r : Rights} {supports : Home → Bool} {p : Placed}
    (hread : readSrc t rd cp x s = .ok ix s1)
    (hplace : placeAccess t tb ix L n algn linear r supports (pure ()) s1 = .ok p s2) : Stands s s2 := by
  have hr : Reads s s1 := readSrc_gives _ _ _ _ _ _ _ hread
  have hs2 := placeAccess_keeps hplace
  rw [hs2]
  exact hr.stands.trans (Stands.modThread _ _ _ fun _ => rfl)

section
variable {s s1 s2 : State} {h : Hint} {d : Dst} {tb : Rec} {x : Src} {ix : Val} {p : Placed}
variable (ha : s.able false true false [tb]) (hld : (s.thread s.sched.cur).cnt.ld = 0)
variable (hentries : ∀ e ∈ (s.thread s.sched.cur).regs.k.toList ++ (s.thread s.sched.cur).regs.q.toList,
  e.wait = none ∧ e.ready ≤ s.lcOf s.sched.cur)
variable (hpreds : ∀ c ∈ (s.thread s.sched.cur).regs.p.toList, c.wait = none ∧ c.ready ≤ s.lcOf s.sched.cur)
variable (hread : readSrc s.sched.cur .raw false x s = .ok ix s1)
variable (hplace : placeAccess s.sched.cur tb ix imageOff 512 16 linearRec wrRights anyHome (pure ()) s1 = .ok p s2)
include ha hld hentries hpreds hread hplace

/-- ctx.save whose image goes out to memory: `b` says whether the page it goes to is not versioned. -/
theorem execCtxSave_sends {s4 s5 : State} {a : Access} {b : Bool} (hside : goesToSide s.sched.cur p s2 = .ok false s2)
    (hxlat : placeXlat s.sched.cur p .write false s2 = .ok a s4) (hver : unversioned p.home a s4 = .ok b s5)
    (hkept : ((Claims.txOf s2 p.r.view).isSome && b) = false) (hst : (s5.thread s.sched.cur).cnt.st < 255) :
    let bs := ((Claims.childWith s (Claims.asSaved (s.thread s.sched.cur).regs d) 0).map fun w => leBytes 8 w.toNat).flatten
    let v := Claims.writeView s.sched.cur p.view (Claims.txOf s2 p.r.view)
    let out := Claims.sent (Claims.storeMore s5 s.sched.cur) (Claims.opOf s5 tb { a with view := v } (.store bs 4096) h false)
    out.roomy → ∃ s', exec (.ctxSave h d tb x) s = .next s' ∧
      Passes (out.gives d [Entry.mk' 0 .i32 (out.after 0)]) s' (litWords [x]) := by
  intro bs v out hroom
  have hs5 : Stands s s5 := ((stands_of_placed hread hplace).trans (placeXlat_gives _ _ _ _ _ _ _ hxlat)).trans
    (unversioned_gives _ _ _ _ _ hver)
  have hlone : (s5.thread s.sched.cur).inTrial = false := (hs5.inTrial _).trans ha.not_inTrial
  have hissue := issueWrite_sends (tb := tb) (bs := bs) (act := fun b => .store b (8 * b.length)) (h := h) hside hxlat hver hkept hst hlone
  refine execCtxSave_passes ha hld hentries hpreds hread hplace ?_ ((hs5.trans (Stands.storeMore _ _)).trans (Stands.sent _ _)) hroom
  rw [hissue]
  have hlen : 8 * bs.length = 4096 := savedImage_length s _ 0
  rw [hlen]
  unfold out Claims.opOf
  rw [hs5.cur]

/-- ctx.save whose image goes into its core's side log (R86). -/
theorem execCtxSave_sides {s4 s5 : State} (hside : goesToSide s.sched.cur p s2 = .ok true s4)
    (hlog : sideLog s.sched.cur tb { p with view := Claims.writeView s.sched.cur p.view (Claims.txOf s2 p.r.view) }
      (p.cs.map fun c => (p.r.base + c.1, c.2))
      ((Claims.childWith s (Claims.asSaved (s.thread s.sched.cur).regs d) 0).map fun w => leBytes 8 w.toNat).flatten
      (fun b => .store b (8 * b.length)) h s4 = .ok () s5) (hroom : s5.roomy) :
    ∃ s', exec (.ctxSave h d tb x) s = .next s' ∧
      Passes (s5.gives d [Entry.mk' 0 .i32 (s5.after 0)]) s' (litWords [x]) :=
  execCtxSave_passes ha hld hentries hpreds hread hplace (issueWrite_sides hside hlog)
    (((stands_of_placed hread hplace).trans (goesToSide_gives _ _ _ _ _ hside)).trans (sideLog_gives _ _ _ _ _ _ _ _ _ _ hlog)) hroom

end

/-! ### The lines that a team's writes touch (R386) -/

theorem nodup_eraseDups {α : Type} [DecidableEq α] (l : List α) : l.eraseDups.Nodup := by
  generalize hn : l.length = n
  induction n using Nat.strong_induction_on generalizing l with
  | _ n ih =>
    cases l with
    | nil => exact List.nodup_nil
    | cons a l =>
      rw [List.eraseDups_cons, List.nodup_cons]
      refine ⟨fun h => ?_, ih _ ?_ _ rfl⟩
      · simpa using List.mem_eraseDups.mp h
      · exact hn ▸ Nat.lt_succ_of_le (List.length_filter_le _ _)

theorem eraseDups_length_mono {α : Type} [DecidableEq α] {l m : List α} (h : l ⊆ m) : l.eraseDups.length ≤ m.eraseDups.length :=
  ((nodup_eraseDups l).subperm fun _ ha => List.mem_eraseDups.mpr (h (List.mem_eraseDups.mp ha))).length_le

theorem Tbl.mem_put {α : Type} {t : Tbl α} {i : Nat} {a : α} {kv : Nat × α} (h : kv ∈ Tbl.put t i a) : kv = (i, a) ∨ kv ∈ t := by
  induction t with
  | nil => exact .inl (List.mem_singleton.mp h)
  | cons x t ih =>
    obtain ⟨k, v⟩ := x
    unfold Tbl.put at h
    split at h
    · exact (List.mem_cons.mp h).imp_right id
    · split at h
      · exact (List.mem_cons.mp h).imp_right (List.mem_cons_of_mem _)
      · rcases List.mem_cons.mp h with rfl | h
        · exact .inr List.mem_cons_self
        · exact (ih h).imp_right (List.mem_cons_of_mem _)

/-- An operation that writes nothing, put in flight, adds no line to those that a team's writes touch. -/
theorem writtenLines_put_subset {s : State} {i : Nat} {o : MemOp} (ho : o.writes = false) (w : Nat) :
    State.writtenLines { s with ops := s.ops.put i o } w ⊆ s.writtenLines w := by
  intro l hl
  unfold State.writtenLines at hl ⊢
  dsimp only at hl ⊢
  simp only [List.mem_flatten, List.mem_map, List.mem_filter] at hl ⊢
  obtain ⟨ls, ⟨kv, ⟨hkv, hmine⟩, rfl⟩, hl⟩ := hl
  refine ⟨_, ⟨kv, ⟨?_, hmine⟩, rfl⟩, hl⟩
  rcases Tbl.mem_put hkv with rfl | hkv
  · simp [ho] at hmine
  · exact hkv

theorem overfull_put {s : State} {i : Nat} {o : MemOp} (ho : o.writes = false) {w : Nat} (h : s.overfull w = false) :
    State.overfull { s with ops := s.ops.put i o } w = false := by
  have hwork : State.work { s with ops := s.ops.put i o } w = s.work w := rfl
  unfold State.overfull at h ⊢
  rw [hwork]
  cases hr : (s.work w).rpl with
  | none => rfl
  | some r =>
    rw [hr] at h
    dsimp only at h ⊢
    rw [Bool.or_eq_false_iff, decide_eq_false_iff_not, decide_eq_false_iff_not] at h ⊢
    obtain ⟨hlog, hlines⟩ := h
    refine ⟨hlog, fun hmore => hlines (Nat.lt_of_lt_of_le hmore (eraseDups_length_mono ?_))⟩
    intro l hl
    rcases List.mem_append.mp hl with hl | hl
    · exact List.mem_append_left _ hl
    · exact List.mem_append_right _ (writtenLines_put_subset ho w hl)

/-! ### Words that wait for their own access (R153) -/

theorem pendingOp_none {s : State} {t : Nat} (h : (s.thread t).stage < 2) : pendingOp t s = .ok none s := by
  unfold pendingOp
  rw [M.get_bind, if_pos h]
  rfl

theorem pendingOp_some {s : State} {t i : Nat} {o : MemOp} (hstage : (s.thread t).stage = i + 2) (hfind : s.ops.find i = some o) :
    pendingOp t s = .ok (some (i, o)) s := by
  unfold pendingOp
  rw [M.get_bind, hstage, if_neg (by omega), Nat.add_sub_cancel, hfind]
  rfl

/-- A word that has put its access in flight waits for it. -/
theorem awaitOp_starts {s u : State} {t i : Nat} {start : M Nat} (hstage : (s.thread t).stage < 2) (hstart : start s = .ok i u) :
    awaitOp t start s = .error (.hold ⟨0x6, .token [i]⟩) (u.modThread t fun th => { th with stage := i + 2 }) := by
  unfold awaitOp
  rw [M.bind_of_ok (pendingOp_none hstage)]
  dsimp only
  rw [M.bind_of_ok hstart, M.bind_of_ok (M.modT_run _ _ _)]
  rfl

/-- A word whose access has performed goes on with its results. -/
theorem awaitOp_ends {s : State} {t i : Nat} {o : MemOp} {start : M Nat} (hstage : (s.thread t).stage = i + 2)
    (hfind : s.ops.find i = some o) (hdone : o.performed = true) :
    awaitOp t start s = .ok o.out { s with ops := s.ops.drop i } := by
  unfold awaitOp
  rw [M.bind_of_ok (pendingOp_some hstage hfind)]
  dsimp only
  rw [hdone, if_pos rfl]
  rfl

theorem raiseLd_run {s : State} {t : Nat} (h : (s.thread t).cnt.ld < 255) : raiseLd t s = .ok () (Claims.loadMore s t) := by
  unfold raiseLd
  rw [M.bind_of_ok (M.getT_run s t), if_neg (Nat.not_le.mpr h)]
  rfl

/-! ### ctx.load (R375) -/

theorem ctxLoadBody_starts {s s1 s2 s3 : State} {h : Hint} {tb : Rec} {x : Src} {t : Nat} {ix : Val} {p : Placed} {a : Access}
    (hstage : (s.thread t).stage < 2) (hread : readSrc t .raw false x s = .ok ix s1)
    (hplace : placeAccess t tb ix imageOff 512 16 linearRec rdRights anyHome (pure ()) s1 = .ok p s2)
    (hxlat : placeXlat t p .read (s2.work (s2.thread t).id.work).rpl.isNone s2 = .ok a s3) (hld : (s3.thread t).cnt.ld < 255) :
    ctxLoadBody h tb x t s = .error (.hold ⟨0x6, .token [s3.sched.nextId]⟩)
      ((Claims.sent (Claims.loadMore s3 t) (mkOp s3 t tb.val a .ctxLoad h s3.sched.nextId true)).modThread t fun th =>
        { th with stage := s3.sched.nextId + 2 }) := by
  refine M.bind_of_error (awaitOp_starts hstage ?_)
  have hl1 : byL1 t s2 = .ok (s2.work (s2.thread t).id.work).rpl.isNone s2 := rfl
  rw [M.bind_of_ok hread, M.bind_of_ok hplace, M.bind_of_ok hl1, M.bind_of_ok hxlat, M.bind_of_ok (raiseLd_run hld), launchOp_run,
    mkOp_loadMore]
  rfl

/-- A ctx.load whose checks pass puts its read in flight and waits for it. -/
theorem execCtxLoad_awaits {s s1 s2 s3 : State} {h : Hint} {tb : Rec} {x : Src} {ix : Val} {p : Placed} {a : Access}
    (ha : s.able false true false [tb]) (hstage : (s.thread s.sched.cur).stage < 2)
    (hread : readSrc s.sched.cur .raw false x s = .ok ix s1)
    (hplace : placeAccess s.sched.cur tb ix imageOff 512 16 linearRec rdRights anyHome (pure ()) s1 = .ok p s2)
    (hxlat : placeXlat s.sched.cur p .read (Claims.cached s2) s2 = .ok a s3) (hld : (s3.thread s.sched.cur).cnt.ld < 255)
    (hroom : s3.roomy) : Claims.awaits (.ctxLoad h tb x) s (Claims.loadMore s3 s.sched.cur) (Claims.opOf s3 tb a .ctxLoad h true) := by
  have hs2 : Stands s s2 := stands_of_placed hread hplace
  have hs3 : Stands s s3 := hs2.trans (placeXlat_gives _ _ _ _ _ _ _ hxlat)
  unfold Claims.cached State.workOf at hxlat
  rw [hs2.cur] at hxlat
  have hbody := ctxLoadBody_starts (h := h) hstage hread hplace hxlat hld
  obtain ⟨-, hfull⟩ := hroom
  rw [hs3.cur, hs3.id] at hfull
  unfold Claims.awaits Claims.opOf
  rw [hs3.cur]
  refine congrArg Host.Outcome.next (runWord_holds (sh := shC tb x) ha ?_ hbody)
  exact overfull_put (s := (Claims.loadMore s3 s.sched.cur).modSched fun c => { c with nextId := c.nextId + 1 }) rfl hfull

/-- A thread that goes on as an image says, its load no longer counted. -/
def Thread.loaded (th : Thread) (n : Nat) (ws : List Word64) : Thread :=
  ({ th with cnt := { th.cnt with ld := th.cnt.ld - 1 } } : Thread).fromImage n ws

theorem ctxLoadBody_ends {s : State} {h : Hint} {tb : Rec} {x : Src} {t i : Nat} {o : MemOp} (hstage : (s.thread t).stage = i + 2)
    (hfind : s.ops.find i = some o) (hdone : o.performed = true) : ctxLoadBody h tb x t s = .ok (oneBeat, true)
      (State.modThread { s with ops := s.ops.drop i } t fun th => th.loaded (s.groupOf t).n (o.out.map (·.1))) := by
  unfold ctxLoadBody
  rw [M.bind_of_ok (awaitOp_ends hstage hfind hdone), M.get_bind, M.bind_of_ok (M.modify_run _ _)]
  unfold State.lowerLd
  rw [State.modThread_modThread]
  rfl

/-- A ctx.load whose image has been read goes on as it says. -/
theorem execCtxLoad_returns {s : State} {h : Hint} {tb : Rec} {x : Src} {i : Nat} {o : MemOp} (ha : s.able false true false [tb])
    (hstage : (s.thread s.sched.cur).stage = i + 2) (hfind : s.ops.find i = some o) (hdone : o.performed = true)
    (hroom : State.roomy { s with ops := s.ops.drop i }) : ∃ s', exec (.ctxLoad h tb x) s = .next s' ∧
      Still (State.modThread { s with ops := s.ops.drop i } s.sched.cur fun th =>
        (th.loaded (s.groupOf s.sched.cur).n (o.out.map (·.1))).settle) s' :=
  ⟨_, rfl, runWord_moves (sh := shC tb x) (k := oneBeat) (u := { s with ops := s.ops.drop i }) rfl ha rfl hroom ha.1 rfl rfl
    (fun _ => rfl) (fun _ he => he) (ctxLoadBody_ends hstage hfind hdone)⟩

end Sys2Proof.Machine

end

section
/-! PROOFS. The family of faults: SystemAndImages (O40) is not settled. Its clause on an image that goes out to memory grants no draw of a free
value where no transaction is open, but `issueWrite` asks `unversioned` for every write, which draws one for a page of another device. Such
a write comes that far only where `Config.farRefuses` is false, of which nothing can be proved (log entry 13): the statement is equivalent
to its being true everywhere. All else that it states is proved here. -/

namespace Sys2Proof.Machine

theorem askFar_run (s : State) (rd : Bool) (d : Nat) (v : ReadAs) : askFar rd d v s = .ok (s.askFar rd d v).1 (s.askFar rd d v).2 := rfl

/-- An access to another device whose translation passes has not been refused there (R147). -/
theorem placeXlat_notRefused {s u : State} {t d : Nat} {p : Placed} {k : Xkind} {l1 : Bool} {a : Access} (hhome : p.home = .remote d)
    (h : placeXlat t p k l1 s = .ok a u) : Config.farRefuses s.sched.draw = false := by
  by_contra hrefused
  have hrefused : Config.farRefuses s.sched.draw = true := Bool.of_not_eq_false hrefused
  have hask : ∀ rd, (s.askFar rd d p.view).1 = some 0x24 := fun rd => by
    unfold State.askFar
    dsimp only
    rw [hrefused]
    rfl
  unfold placeXlat at h
  dsimp only at h
  rw [hhome] at h
  dsimp only at h
  cases hbeyond : p.beyond with
  | some b => rw [hbeyond] at h; cases h
  | none =>
    rw [hbeyond] at h
    dsimp only at h
    rw [M.get_bind] at h
    split at h
    · cases h
    · rw [M.bind_of_ok (askFar_run _ _ _ _), hask] at h
      cases h

end Sys2Proof.Machine

namespace Sys2Proof.Claims
open Sys2Proof.Machine

/-- The images of ctx.save and ctx.load are as claimed where every other device refuses every access. -/
theorem contextImages_of_refused (hrefused : ∀ n, Config.farRefuses n = true) : contextImages := by
  intro s s1 s2 h d tb x ix p ha
  refine ⟨fun hld hentries hpreds hread hplace => ⟨?_, ?_⟩, ?_, ?_⟩
  · intro s4 s5 a hside hxlat hplain htx hst out hroom
    cases htxOf : txOf s2 p.r.view with
    | none =>
      obtain rfl := hplain htxOf
      have hnear : ∀ d, p.home ≠ .remote d := fun d hhome =>
        Bool.noConfusion ((hrefused _).symm.trans (placeXlat_notRefused hhome hxlat))
      obtain ⟨b, hver⟩ := unversioned_still hnear a s5
      exact execCtxSave_sends ha hld hentries hpreds hread hplace hside hxlat hver (by rw [htxOf]; rfl) hst hroom
    | some st =>
      have hver := htx (by rw [htxOf]; exact Option.some_ne_none st)
      exact execCtxSave_sends ha hld hentries hpreds hread hplace hside hxlat hver (Bool.and_false _) hst hroom
  · intro s4 s5 hside hlog hroom
    exact execCtxSave_sides ha hld hentries hpreds hread hplace hside hlog hroom
  · intro a s3 hstage hread hplace hxlat hld hroom
    exact execCtxLoad_awaits ha hstage hread hplace hxlat hld hroom
  · intro i o hstage hfind hdone hroom
    exact execCtxLoad_returns ha hstage hfind hdone hroom

end Sys2Proof.Claims

namespace Sys2Proof.Machine

/-! ### An image that goes to another device (R147, R375) -/

theorem checkRecord_passes {s : State} {t : Nat} {r : RecF} {x : Rights} {supports : Home → Bool} {val : Nat} {v : ReadAs}
    (hvalid : r.valid = true) (hview : r.view ≠ 3) (hread : s.readAs t r.view = some v) (hhome : supports (r.homeOf s.dev.fab) = true)
    (hgrants : r.grants x = true) : checkRecord t r x supports val s = .ok (r.homeOf s.dev.fab, v) s := by
  unfold checkRecord
  rw [M.get_bind, hvalid, if_neg (by decide), if_neg hview, hread]
  dsimp only
  rw [M.bind_of_ok (M.pure_run v s), hhome, if_neg (by decide), hgrants, if_neg (by decide)]
  rfl

theorem checkPlace_passes {s : State} {t : Nat} {r : RecF} {h : Home} {L n algn : Nat} (halign : L % algn = 0) (hhome : h ≠ .scratch)
    (hbounds : r.firstBad none (n / 16 + 1) (r.rowCol L).1 (r.rowCol L).2 n = none) :
    checkPlace t r h L n algn s = .ok (r.chunks L n) s := by
  unfold checkPlace
  rw [M.get_bind, if_neg (not_not_intro halign), if_neg hhome]
  dsimp only
  rw [hbounds]
  rfl

/-- An access that breaks no check is placed, and its record's words are kept (R144, R164). -/
theorem placeAccess_passes {s : State} {t : Nat} {tb : Rec} {ix : Val} {i : Nat} {L : RecF → Nat → Nat} {n algn : Nat}
    {linear : RecF → Bool} {x : Rights} {supports : Home → Bool} {bits : BitVec 512} {v : ReadAs} (hbits : s.recBits t tb.val = bits)
    (hlinear : linear (recF bits) = true) (hvalid : (recF bits).valid = true) (hview : (recF bits).view ≠ 3)
    (hread : s.readAs t (recF bits).view = some v) (hsupport : supports ((recF bits).homeOf s.dev.fab) = true)
    (hgrants : (recF bits).grants x = true) (hindex : ix.index = some i) (halign : L (recF bits) i % algn = 0)
    (hhome : (recF bits).homeOf s.dev.fab ≠ .scratch)
    (hbounds : (recF bits).firstBad none (n / 16 + 1) ((recF bits).rowCol (L (recF bits) i)).1 ((recF bits).rowCol (L (recF bits) i)).2 n = none) :
    placeAccess t tb ix L n algn linear x supports (pure ()) s =
      .ok ⟨recF bits, (recF bits).homeOf s.dev.fab, v, (recF bits).chunks (L (recF bits) i) n, (recF bits).first (L (recF bits) i)⟩
        (s.modThread t fun th => { th with checked := some bits }) := by
  unfold placeAccess
  rw [M.get_bind, hbits]
  dsimp only
  rw [hlinear, if_neg (by decide), M.bind_of_ok (checkRecord_passes hvalid hview hread hsupport hgrants), hindex]
  dsimp only
  rw [M.bind_of_ok (M.pure_run i s), M.bind_of_ok (M.pure_run () s), M.bind_of_ok (checkPlace_passes halign hhome hbounds)]
  rfl

/-- A write to anywhere but main memory goes past the side log (R86). -/
theorem goesToSide_elsewhere {s : State} {t : Nat} {p : Placed} (h : p.home ≠ .main) : goesToSide t p s = .ok false s := by
  unfold goesToSide
  rw [M.get_bind, if_pos (by rw [decide_eq_true h]; rfl)]
  rfl

/-- A write to another device asks there whether its page is refused, which draws a free value. -/
theorem placeXlat_far {s : State} {t d : Nat} {p : Placed} (hhome : p.home = .remote d) (hbeyond : p.beyond = none)
    (haccepted : Config.farRefuses s.sched.draw = false) : placeXlat t p .write false s =
      .ok ⟨.remote d, p.view, p.flat⟩ (s.modSched fun c => { c with draw := s.sched.draw + 1 }) := by
  have hask : s.askFar false d p.view = (none, s.modSched fun c => { c with draw := s.sched.draw + 1 }) := by
    unfold State.askFar
    dsimp only
    rw [haccepted]
    rfl
  unfold placeXlat
  dsimp only
  rw [hhome]
  dsimp only
  rw [hbeyond]
  dsimp only
  rw [M.get_bind, if_neg (by simp)]
  have hrd : (decide (Xkind.write = .read) || decide (Xkind.write = .atomic)) = false := by decide
  rw [hrd, M.bind_of_ok (askFar_run _ _ _ _), hask]
  rfl

end Sys2Proof.Machine

namespace Sys2Proof.Claims
open Sys2Proof.Machine

/-- The words of a record with every right on 64 KiB of device 5, from address 0x40000 on (R139, R393). -/
def farRecord : BitVec 512 := BitVec.ofNat 512 (2 ^ 511 + 5 * 2 ^ 376 + 15 * 2 ^ 372 + 0x10000 * 2 ^ 64 + 0x40000)

/-- A thread at its word, in context 1, whose tb5 is that record; the next free value is number `n`. -/
def farState (n : Nat) : State :=
  { State.reset with
    threads := [(3, { Thread.blank with id := ⟨1, 2, 0, 0, 0, 0, 0⟩, pos := ⟨0x10000, 1, 0, [], true, true⟩ })]
    works := [(1, { Work.blank with ctx := 1 })]
    ctxs := [(1, { Context.reset with recs := [(5, farRecord)] })]
    sched := { State.reset.sched with cur := 3, draw := n } }

/-- Where image 1 lies. -/
def farPlace : Placed :=
  let r := Sys2Proof.Machine.recF farRecord
  ⟨r, .remote 5, .latest, r.chunks 512 512, r.first 512⟩

/-- The same, once the checks of its access have passed. -/
def farPlaced (n : Nat) : State := (farState n).modThread 3 fun th => { th with checked := some farRecord }

theorem farState_able (n : Nat) : (farState n).able false true false [5] :=
  ⟨rfl, rfl, fun h => Bool.noConfusion h, fun _ h => (by cases h)⟩

theorem farState_places (n : Nat) : placeAccess 3 5 (Val.imm' 1) imageOff 512 16 linearRec wrRights anyHome (pure ()) (farState n) =
    .ok farPlace (farPlaced n) := by
  have hbits : (farState n).recBits 3 (5 : Rec).val = farRecord := rfl
  have hhome : (Sys2Proof.Machine.recF farRecord).homeOf 0 = .remote 5 := by decide +kernel
  have hview : (Sys2Proof.Machine.recF farRecord).view = 0 := by decide +kernel
  have h := placeAccess_passes (t := 3) (tb := 5) (ix := Val.imm' 1) (i := 1) (L := imageOff) (n := 512) (algn := 16)
    (linear := linearRec) (x := wrRights) (supports := anyHome) (v := .latest) hbits (by decide +kernel) (by decide +kernel)
    (by rw [hview]; decide) (by rw [hview]; rfl) rfl (by decide +kernel) (by decide +kernel) (by decide +kernel)
    (fun hs => Home.noConfusion (hhome.symm.trans hs)) (by decide +kernel)
  refine h.trans ?_
  rw [show (farState n).dev.fab = 0 from rfl, hhome]
  rfl

/-- A word that passes with a result has drawn no free value but those drawn before it. -/
theorem draw_of_passes {s s' : State} {d : Dst} {es : List Entry} {ext : Nat} (h : Passes (s.gives d es) s' ext) :
    s'.sched.draw = s.sched.draw := h.draw

/-- If another device accepts access number `n`, the claim of ctx.save's images fails: with no transaction open the word still asks
whether its page is versioned, and so draws a free value more than the claim grants. -/
theorem not_contextImages_of_accepted {n : Nat} (haccepted : Config.farRefuses n = false) : ¬ contextImages := by
  intro hclaim
  have hread : readSrc 3 .raw false (.lit 1) (farState n) = .ok (Val.imm' 1) (farState n) := rfl
  have hplace := farState_places n
  have hentries : ∀ e ∈ ((farState n).thread 3).regs.k.toList ++ ((farState n).thread 3).regs.q.toList,
      e.wait = none ∧ e.ready ≤ (farState n).lcOf 3 :=
    show ∀ e ∈ Thread.blank.regs.k.toList ++ Thread.blank.regs.q.toList, e.wait = none ∧ e.ready ≤ (farState 0).lcOf 3 by decide +kernel
  have hpreds : ∀ c ∈ ((farState n).thread 3).regs.p.toList, c.wait = none ∧ c.ready ≤ (farState n).lcOf 3 :=
    show ∀ c ∈ Thread.blank.regs.p.toList, c.wait = none ∧ c.ready ≤ (farState 0).lcOf 3 by decide +kernel
  have hside := goesToSide_elsewhere (s := farPlaced n) (t := 3)
    (p := farPlace) (by exact nofun)
  have hxlat := placeXlat_far (s := farPlaced n) (t := 3)
    (p := farPlace) rfl (by decide +kernel) haccepted
  have htx : txOf (farPlaced n) farPlace.r.view = none := by
    rw [show farPlace.r.view = 0 by decide +kernel]; rfl
  obtain ⟨hsave, -⟩ := hclaim (farState n) (farState n) _ .normal .none 5 (.lit 1) (Val.imm' 1) farPlace (farState_able n)
  obtain ⟨s', hclaimed, hgranted⟩ := (hsave rfl hentries hpreds hread hplace).1 _ _ _ hside hxlat (fun _ => rfl)
    (fun h => absurd htx h) (Nat.zero_lt_succ _) ⟨rfl, rfl⟩
  obtain ⟨s'', hruns, hdraws⟩ := execCtxSave_sends (h := .normal) (d := .none) (farState_able n) rfl hentries hpreds hread hplace hside
    hxlat rfl (by rw [htx]; rfl) (Nat.zero_lt_succ _) ⟨rfl, rfl⟩
  obtain rfl : s' = s'' := Host.Outcome.next.inj (hclaimed.symm.trans hruns)
  have hless : n + 1 = n + 1 + 1 := (draw_of_passes hgranted).symm.trans (draw_of_passes hdraws)
  exact absurd hless (Nat.ne_of_lt (Nat.lt_succ_self _))

/-- SystemAndImages turns on a value that the spec leaves open (log entry 13): it holds exactly if other devices refuse every access, so
that it can be neither proved nor refuted. -/
theorem systemAndImages_iff : Obligations.SystemAndImages ↔ ∀ n, Config.farRefuses n = true := by
  refine ⟨fun h n => ?_, fun hrefused => ⟨systemWords_hold, contextImages_of_refused hrefused, specialRegisters_hold⟩⟩
  obtain ⟨-, himages, -⟩ := h
  by_contra haccepted
  exact not_contextImages_of_accepted (Bool.of_not_eq_true haccepted) himages

end Sys2Proof.Claims

end
